-- ==== Sys2Proof/Word.lean ====
section
/-! DEFINITION. The word types of the HN328: the 32-bit word of the Command Port, the byte of the link, the 40-bit credential, the 16-bit room key. -/

namespace Sys2Proof

/-- A word of the Command Port's window (R172, R173). -/
abbrev Word := BitVec 32

/-- A byte of the Station Link or of an SPI transfer (R172, R183). -/
abbrev Byte := BitVec 8

/-- A credential as it is carried: 40 bits (R1). The value 0 is not a credential. -/
abbrev Credential := BitVec 40

/-- A room key, a room pattern or a care mask: 16 bits (R2). -/
abbrev Key := BitVec 16

/-- A request sequence, 0-15 (R143). -/
abbrev Sequence := BitVec 4

end Sys2Proof
end

