-- ==== Sys2Proof/Config.lean ====
section
/-! DEFINITION. What is fixed for the part: the principal quantities of spec/00_scope.md and the identification word of R173. The spec states each value, except the silicon revision (DESIGN CHOICE, log 15) and the free value cutOf (log 53). -/

namespace Sys2Proof

/-- The operations on many records that a failure of the main supply can cut short (R160): the walks of the Presence Pool for
a notice and for the last question of RETIRE GRANT; the Decision Engine's taking of a notice; the operation of the command
in progress; the next operation of the decision in hand; the handing of verdicts to a MARK. -/
inductive Walk where
  | revoke | bar | unbar | overstay | tamper | retire
  | engineRevoke | engineBar | engineMode | engineTamper | engineLoss | engineStop
  | command | decision | mark
  deriving DecidableEq, Repr

/-- An operation that the failing supply cuts short, and how many records it has reached by then (log 53, 56). -/
structure Cut where
  walk : Walk
  reached : Nat
  deriving DecidableEq, Repr

namespace Config

/-- Grant slots, numbered 1-1024 (R3). -/
abbrev slots : Nat := 1024
/-- Presence records (R54), numbered 1-512 here (log 10). -/
abbrev presenceRecords : Nat := 512
/-- Room records, numbered 0-63 (R46). -/
abbrev rooms : Nat := 64
/-- Station IDs 1-31 (R137). -/
abbrev stations : Nat := 31
/-- Request Queue entries (R67). -/
abbrev requestPlaces : Nat := 16
/-- Verdict Queue places (R82). -/
abbrev verdictPlaces : Nat := 48
/-- Verdicts in one MARK (R136). -/
abbrev markVerdicts : Nat := 8
/-- Pair context slots (R92), numbered 1-8 here (log 10). -/
abbrev pairSlots : Nat := 8
/-- APPROVAL entries (R113). -/
abbrev approvals : Nat := 12
/-- HOT CARD entries (R113). -/
abbrev hotCards : Nat := 4
/-- Bar List entry places (R105). -/
abbrev barPlaces : Nat := 256

/-- The silicon revision in IDENT bits 7-0. DESIGN CHOICE (log 15, unsafe): the spec says 0x01 "for the first revision", and the model is of that one. -/
abbrev revision : BitVec 8 := 0x01

/-- IDENT (R173): vendor 0x0B, part 0x0328, revision. -/
def ident : Word := (0x0B#8 ++ 0x0328#16 ++ revision : BitVec 32)

/-- FREE VALUE (log 53): which operation, if any, a reset or a failure of the main supply cuts short, and how
many records it had reached (R160, R168). The spec gives no time of either; every statement holds for every value. -/
opaque cutOf : Nat → Option Cut

end Config

end Sys2Proof
end

