-- ==== Sys2Proof/Syntax.lean ====
section
/-! DEFINITION. The commands of the block: one constructor of Instr for each of the 84 rows of spec/opcode_table.json, with the row's operands. A host command takes its arguments from the ARG words in State (R174), so it carries none. -/

namespace Sys2Proof

/-- The blocks that receive notices (R20, R109, R132, R140, R152, R168). -/
inductive Block where
  | requestQueue | decisionEngine | pairTable | referralQueue | presencePool
  deriving DecidableEq, Repr

/-- The two lines the Mode Controller watches (R151). -/
inductive AlarmLine where
  | fire | lockdown
  deriving DecidableEq, Repr

/-- The side of a request (R67): OUTSIDE for an entry, INSIDE for an exit. -/
inductive Side where
  | outside | inside
  deriving DecidableEq, Repr

/-- The entrance states a REPORT may carry (R129). -/
inductive Entrance where
  | shut | opened | held | forced
  deriving DecidableEq, Repr

/-- The parts of a read of ATTENTION (R177): the whole transfer; its address byte, where the set is taken;
its fourth data byte, where exactly that set is cleared; or a chip select released before that. -/
inductive ReadPart where
  | whole | addressByte | fourthByte | cutShort
  deriving DecidableEq, Repr

/-- The levels of a carrier on the line, one for each half-bit in the order received (R183): `true` is high. -/
abbrev HalfBits := List Bool

/-- How many operations of a sequence of operations the block makes before other commands are taken:
`none` for all of them, which is the table's row as one whole step (log 4, 5). -/
abbrev Pause := Option Nat

/-- The commands: the rows of spec/opcode_table.json, in the table's order. -/
inductive Instr where
  -- Grant Table
  | addGrant | amendGrant | suspendGrant | resumeGrant | revokeGrant
  | retireGrant (pause : Pause) | readGrant | findGrants (pause : Pause)
  -- Estate Clock
  | setClock | readClock | shiftHour | trimClock
  -- Room Table and Presence Pool
  | defineRoom | closeRoom | openRoom | deleteRoom | readRoom
  | listPresence | removePresence | resetCensus
  -- Pair Table
  | setPairWindow | readPairContext
  -- Bar List
  | barCredential | unbarCredential | readBarList | clearBarList
  -- Referral Queue
  | setReferralTimeout | takeReferral | answerReferral | clearHotCard
  -- Station Link Controller
  | configureLink | startLink | stopLink | readLink
  | bindStation | unbindStation (pause : Pause) | setStation | readStation
  -- Mode Controller, Integrity Checker, Command Port
  | setMode | readMode | readHealth | clearHealth | acknowledgeTamper
  | clearRetained | deviceReset
  | badCommand (word : Word) | commandCompletion | commandWriteWhileBusy (word : Word)
  | registerWrite (address : BitVec 7) (value : Word)
  | attentionRead (part : ReadPart) | attentionMaskWrite (value : Word)
  -- Reset, supply and lines
  | resetnLow | resetnHigh | mainSupplyFail
  | supplyReturn (backupHeld : Bool)
  | lineLevelChange (line : AlarmLine) (asserted : Bool) | modeNotice (block : Block)
  | tamperAssertion | tamperNotice (block : Block) | tamperSlotFree
  -- Time
  | secondBoundary | sweepVisit | overstayNotice
  | pairExpiry (slot : Nat) | referralTimeout (reference : Nat)
  -- Decisions and notices
  | takeRequest (pause : Pause) | answerCheck (pause : Pause)
  | revokeNotice (block : Block) | barNotice (block : Block) | unbarNotice
  | lossNotice (block : Block) | stopNotice (block : Block) | faultNotice (block : Block)
  -- Station Link
  | mark (carrier : Bool) | turnStart
  | request (station : Nat) (sequence : Sequence) (side : Side) (credential : Credential)
  | report (station : Nat) (entrance : Entrance)
  | idle (station : Nat)
  | discardedFrame (line : HalfBits)
  | turnTimerExpiry | jabber | lineDisturbance | recoveryQuiet | tamperRelease
  deriving DecidableEq, Repr

end Sys2Proof
end

