-- ==== Sys2Proof/WellFormed.lean ====
section
/-! DEFINITION. When a command's operands are in the ranges its row allows. The meanings are total: an ill-formed command does what its event would do (log 34). -/

namespace Sys2Proof

/-- The command codes of R174's table. -/
def hostCodes : List (BitVec 8) :=
  [0x10, 0x11, 0x12, 0x13, 0x14, 0x15, 0x16, 0x17, 0x20, 0x21, 0x22, 0x23,
   0x30, 0x31, 0x32, 0x33, 0x34, 0x35, 0x36, 0x37, 0x40, 0x41, 0x48, 0x49, 0x4A, 0x4B,
   0x50, 0x51, 0x52, 0x53, 0x60, 0x61, 0x62, 0x63, 0x64, 0x65, 0x66, 0x67, 0x70, 0x71,
   0x78, 0x79, 0x7A, 0x7B, 0x7F]

/-- A station ID of a frame sent by a station (R128). -/
def stationIdOk (station : Nat) : Bool := decide (1 ≤ station) && decide (station ≤ Config.stations)

/-- The blocks each notice is given to. -/
def modeBlocks : List Block := [.decisionEngine, .pairTable, .referralQueue]
def workBlocks : List Block := [.requestQueue, .decisionEngine, .pairTable, .referralQueue]
def recordBlocks : List Block := [.decisionEngine, .pairTable, .referralQueue, .presencePool]

/-- The check of a command's operands. -/
def Instr.wellFormed : Instr → Bool
  | .badCommand word => !(hostCodes.contains (word.truncate 8))
  | .registerWrite address _ => !(address == 0x04#7)
  | .modeNotice block => modeBlocks.contains block
  | .tamperNotice block => recordBlocks.contains block
  | .revokeNotice block => recordBlocks.contains block
  | .barNotice block => recordBlocks.contains block
  | .lossNotice block => workBlocks.contains block
  | .stopNotice block => workBlocks.contains block
  | .faultNotice block => [Block.pairTable, Block.referralQueue].contains block
  | .pairExpiry slot => decide (1 ≤ slot) && decide (slot ≤ Config.pairSlots)
  | .referralTimeout reference => decide (1 ≤ reference) && decide (reference ≤ 65535)
  | .request station _ _ _ => stationIdOk station
  | .report station _ => stationIdOk station
  | .idle station => stationIdOk station
  | .addGrant | .amendGrant | .suspendGrant | .resumeGrant | .revokeGrant | .retireGrant _ | .readGrant
  | .findGrants _ | .setClock | .readClock | .shiftHour | .trimClock | .defineRoom | .closeRoom | .openRoom
  | .deleteRoom | .readRoom | .listPresence | .removePresence | .resetCensus | .setPairWindow
  | .readPairContext | .barCredential | .unbarCredential | .readBarList | .clearBarList
  | .setReferralTimeout | .takeReferral | .answerReferral | .clearHotCard | .configureLink | .startLink
  | .stopLink | .readLink | .bindStation | .unbindStation _ | .setStation | .readStation | .setMode
  | .readMode | .readHealth | .clearHealth | .acknowledgeTamper | .clearRetained | .deviceReset
  | .commandCompletion | .commandWriteWhileBusy _ | .attentionRead _ | .attentionMaskWrite _ | .resetnLow
  | .resetnHigh | .mainSupplyFail | .supplyReturn _ | .lineLevelChange _ _ | .tamperAssertion
  | .tamperSlotFree | .secondBoundary | .sweepVisit | .overstayNotice | .takeRequest _ | .answerCheck _
  | .unbarNotice | .mark _ | .turnStart | .discardedFrame _ | .turnTimerExpiry | .jabber
  | .lineDisturbance | .recoveryQuiet | .tamperRelease => true

end Sys2Proof
end

