-- ==== Sys2Proof/Decode.lean ====
section
/-! DEFINITION. Words that spell commands: the table gives no row any bits, so decodeTableWord reads none; and what one transfer of the SPI port asks for (R172 to R175, R177). -/

namespace Sys2Proof

/-- The command a word spells by the bits of spec/opcode_table.json: every row's field list is empty, so none. -/
def decodeTableWord (_nbits _w : Nat) : Option Instr := none

/-- The host command of a code (R174); `none` for an unknown code. -/
def hostCommandOf (code : BitVec 8) : Option Instr :=
  match code.toNat with
  | 0x10 => some .addGrant
  | 0x11 => some .amendGrant
  | 0x12 => some .suspendGrant
  | 0x13 => some .resumeGrant
  | 0x14 => some .revokeGrant
  | 0x15 => some (.retireGrant none)
  | 0x16 => some .readGrant
  | 0x17 => some (.findGrants none)
  | 0x20 => some .setClock
  | 0x21 => some .readClock
  | 0x22 => some .shiftHour
  | 0x23 => some .trimClock
  | 0x30 => some .defineRoom
  | 0x31 => some .closeRoom
  | 0x32 => some .openRoom
  | 0x33 => some .deleteRoom
  | 0x34 => some .readRoom
  | 0x35 => some .listPresence
  | 0x36 => some .removePresence
  | 0x37 => some .resetCensus
  | 0x40 => some .setPairWindow
  | 0x41 => some .readPairContext
  | 0x48 => some .barCredential
  | 0x49 => some .unbarCredential
  | 0x4A => some .readBarList
  | 0x4B => some .clearBarList
  | 0x50 => some .setReferralTimeout
  | 0x51 => some .takeReferral
  | 0x52 => some .answerReferral
  | 0x53 => some .clearHotCard
  | 0x60 => some .configureLink
  | 0x61 => some .startLink
  | 0x62 => some .stopLink
  | 0x63 => some .readLink
  | 0x64 => some .bindStation
  | 0x65 => some (.unbindStation none)
  | 0x66 => some .setStation
  | 0x67 => some .readStation
  | 0x70 => some .setMode
  | 0x71 => some .readMode
  | 0x78 => some .readHealth
  | 0x79 => some .clearHealth
  | 0x7A => some .acknowledgeTamper
  | 0x7B => some .clearRetained
  | 0x7F => some .deviceReset
  | _ => none

/-- What a write of a word to COMMAND asks for: a host command, or BAD_COMMAND. -/
def commandOfWord (word : Word) : Instr :=
  match hostCommandOf (word.truncate 8) with
  | some c => c
  | none => .badCommand word

/-- What a whole write transfer asks for. -/
def commandOfWrite (address : BitVec 7) (word : Word) : Instr :=
  match address.toNat with
  | 0x02 => commandOfWord word
  | 0x04 => .attentionMaskWrite word
  | _ => .registerWrite address word

/-- What the bytes clocked within one chip select ask for (R172): a write takes effect with its fourth data byte, and bytes
after it are ignored; a read of a word other than ATTENTION changes nothing, so no command stands for it. -/
def commandOfTransfer (bytes : List Byte) : Option Instr :=
  match bytes with
  | [] => none
  | a :: rest =>
    let address : BitVec 7 := a.truncate 7
    match a.getLsbD 7, rest with
    | true, d1 :: d2 :: d3 :: d4 :: _ => some (commandOfWrite address (d1 ++ d2 ++ d3 ++ d4 : BitVec (8 + 8 + 8 + 8)))
    | true, [] | true, [_] | true, [_, _] | true, [_, _, _] => none
    | false, _ :: _ :: _ :: _ :: _ => if address = 0x03 then some (.attentionRead .whole) else none
    | false, [] | false, [_] | false, [_, _] | false, [_, _, _] =>
      if address = 0x03 then some (.attentionRead .cutShort) else none

/-- The bytes of the bits sampled on the clock's rising edges, each most significant bit first; the bits of a byte not
ended are no byte (R172). -/
def bytesOfBits : List Bool → List Byte
  | b7 :: b6 :: b5 :: b4 :: b3 :: b2 :: b1 :: b0 :: rest =>
    (BitVec.ofBool b7 ++ BitVec.ofBool b6 ++ BitVec.ofBool b5 ++ BitVec.ofBool b4 ++ BitVec.ofBool b3 ++
      BitVec.ofBool b2 ++ BitVec.ofBool b1 ++ BitVec.ofBool b0 : BitVec (1 + 1 + 1 + 1 + 1 + 1 + 1 + 1)) :: bytesOfBits rest
  | _ => []

/-- What the bits clocked within one chip select ask for. -/
def commandOfBits (bits : List Bool) : Option Instr := commandOfTransfer (bytesOfBits bits)

end Sys2Proof
end

