-- ==== Sys2Proof/Machine/State.lean ====
section
/-! DEFINITION. The state of the HN328 as plain data, block by block, its fault and refusal reasons, and the machine right after reset. -/

namespace Sys2Proof.Machine

open Sys2Proof

/-! ## How retained items are stored (R160, R164) -/

/-- What the error check finds on a one-copy item (R164). -/
inductive Condition where
  | good | correctable | uncorrectable
  deriving DecidableEq, Repr

/-- An item stored in one copy under an error check: its contents as repaired, and what a read will find. -/
structure Stored (α : Type) where
  value : α
  condition : Condition
  deriving DecidableEq, Repr

/-- An item written afresh, with new check bits (R164). -/
abbrev Stored.of {α : Type} (value : α) : Stored α := ⟨value, .good⟩

/-- One of the three copies of an item read by vote: its value after its own correction, and how many
corrections that took; 0 reads clean (R164, log 37). -/
structure Copy (α : Type) where
  value : α
  corrections : Nat
  deriving DecidableEq, Repr

/-- An item stored in three copies and read by vote (R4, R164). -/
structure Voted (α : Type) where
  copy1 : Copy α
  copy2 : Copy α
  copy3 : Copy α
  deriving DecidableEq, Repr

/-- Three clean copies of one value. -/
abbrev Voted.of {α : Type} (value : α) : Voted α := ⟨⟨value, 0⟩, ⟨value, 0⟩, ⟨value, 0⟩⟩

/-- A table of numbered records in canonical form: numbers strictly rising, and no record equal to the
default that an unlisted number reads as (log 28). -/
abbrev Table (α : Type) := List (Nat × α)

/-! ## Time (R25) -/

/-- A calendar minute: year 2000-2099, month, day, hour, minute. -/
structure Minute where
  year : Nat
  month : Nat
  day : Nat
  hour : Nat
  minute : Nat
  deriving DecidableEq, Repr

/-- The calendar: a calendar minute and its second. -/
structure Calendar where
  minute : Minute
  second : Nat
  deriving DecidableEq, Repr

/-- The retained calendar and clock state (R26): `isSet` is SET. -/
structure ClockItem where
  calendar : Calendar
  isSet : Bool
  deriving DecidableEq, Repr

/-! ## Grant Table (R3, R6) -/

inductive Role where
  | contractor | escort
  deriving DecidableEq, Repr

/-- The eight states of a grant slot (R6). -/
inductive GrantState where
  | free | pending | active | spent | suspended | lapsed | revoked | faulted
  deriving DecidableEq, Repr

/-- The hours state (R38). -/
inductive HoursState where
  | absent | inHours | outHours
  deriving DecidableEq, Repr

/-- The state a SUSPENDED grant remembers (R17). -/
inductive SuspendedFrom where
  | active | pending
  deriving DecidableEq, Repr

/-- Daily hours (R37): `days` bit 0 is Monday, bit 6 Sunday; minutes of the day. -/
structure DailyHours where
  days : BitVec 7
  openMinute : Nat
  closeMinute : Nat
  deriving DecidableEq, Repr

/-- A uses allowance with the uses remaining (R3). -/
structure Uses where
  allowance : Nat
  remaining : Nat
  deriving DecidableEq, Repr

/-- The grant record, the body of a slot (R3). -/
structure GrantRecord where
  credential : Credential
  role : Role
  company : BitVec 16
  pattern : Key
  mask : Key
  validFrom : Minute
  validUntil : Minute
  hours : Option DailyHours
  hoursState : HoursState
  uses : Option Uses
  suspendedFrom : Option SuspendedFrom
  deriving DecidableEq, Repr

/-- A slot's header (R4). -/
structure SlotHeader where
  state : GrantState
  issue : BitVec 8
  deriving DecidableEq, Repr

/-- A slot of the Grant Table (R3). -/
structure Slot where
  header : Voted SlotHeader
  body : Stored GrantRecord
  deriving DecidableEq, Repr

/-- A grant handle (R5). -/
structure Handle where
  slot : Nat
  issue : BitVec 8
  deriving DecidableEq, Repr

/-- The calendar minute an emptied record holds; no rule reads it (log 9). -/
def Minute.epoch : Minute := ⟨2000, 1, 1, 0, 0⟩

/-- The body of a slot that holds no grant (log 9). -/
def GrantRecord.empty : GrantRecord :=
  ⟨0, .contractor, 0, 0, 0, .epoch, .epoch, none, .absent, none, none⟩

/-- A cleared slot: FREE, issue number 0, no grant (R171). -/
def Slot.cleared : Slot := ⟨.of ⟨.free, 0⟩, .of .empty⟩

/-! ## Window Sweep (R39) -/

/-- A sweep in flight: the next slot to visit and the sweep minute. -/
structure Sweep where
  cursor : Nat
  minute : Minute
  deriving DecidableEq, Repr

/-! ## Room Table (R46) -/

inductive RoomState where
  | undefined | inService | closed | faulted
  deriving DecidableEq, Repr

inductive RoomClass where
  | opened | escorted | paired | referred
  deriving DecidableEq, Repr

structure RoomBody where
  key : Key
  cls : RoomClass
  limit : Nat
  escorts : Nat
  suspect : Bool
  deriving DecidableEq, Repr

structure Room where
  header : Voted RoomState
  body : Stored RoomBody
  deriving DecidableEq, Repr

/-- The body of an UNDEFINED room (log 9). -/
def RoomBody.empty : RoomBody := ⟨0, .opened, 0, 0, false⟩

def Room.cleared : Room := ⟨.of .undefined, .of .empty⟩

/-! ## Presence Pool (R54) -/

/-- The five conditions of a presence record (R59). -/
structure Conditions where
  overstay : Bool
  unescorted : Bool
  grantRevoked : Bool
  barred : Bool
  grantCleared : Bool
  deriving DecidableEq, Repr

/-- The names of the conditions. -/
inductive ConditionName where
  | overstay | unescorted | grantRevoked | barred | grantCleared
  deriving DecidableEq, Repr

/-- The index part (R54); `sent` is the delivery SENT. -/
structure PresenceIndex where
  inUse : Bool
  room : Nat
  place : Nat
  role : Role
  sent : Bool
  useTaken : Bool
  faulted : Bool
  deriving DecidableEq, Repr

/-- The body (R54). -/
structure PresenceBody where
  credential : Credential
  handle : Option Handle
  entered : Minute
  station : Nat
  partner : Option Credential
  conditions : Conditions
  deriving DecidableEq, Repr

structure PresenceRecord where
  index : Voted PresenceIndex
  body : Stored PresenceBody
  deriving DecidableEq, Repr

def Conditions.none : Conditions := ⟨false, false, false, false, false⟩

def PresenceBody.empty : PresenceBody := ⟨0, .none, .epoch, 0, .none, .none⟩

/-- A free record. -/
def PresenceRecord.free : PresenceRecord :=
  ⟨.of ⟨false, 0, 0, .contractor, false, false, false⟩, .of .empty⟩

/-! ## Bar List (R105) -/

/-- The Bar List's header: count, list state, and the set of faulted positions, rising. -/
structure BarHeader where
  count : Nat
  doubtful : Bool
  faulted : List Nat
  deriving DecidableEq, Repr

/-! ## Verdicts (R83, R84) -/

inductive Verdict where
  | permit | permitPair | hold | referWait | deny | exit
  deriving DecidableEq, Repr

/-- The deny reasons, codes 1-26 in this order (R84). -/
inductive DenyReason where
  | noGrant | outsideWindow | outsideHours | suspended | usesSpent | revoked | barred | barListFault
  | passback | roomFull | presenceFull | noEscort | pairTimeout | pairBusy | pairSameCard
  | referralBusy | referralTimeout | refusedByDesk | lockdown | fire | clockUnset | stationUnbound
  | stationFault | roomClosed | roomFault | tamper
  deriving DecidableEq, Repr

/-- A granted claim: its handle and its use-taken value (R13). -/
structure Claim where
  handle : Handle
  useTaken : Bool
  deriving DecidableEq, Repr

/-- What a permit entry holds beside the four fields a MARK carries (R83). -/
structure PermitData where
  claims : List Claim
  credentials : List Credential
  records : List Nat
  deriving DecidableEq, Repr

/-- A verdict entry (R83): `repeated` is origin REPEAT; `permit` is present in permit entries alone. -/
structure VerdictEntry where
  station : Nat
  sequence : Sequence
  verdict : Verdict
  reason : Option DenyReason
  repeated : Bool
  permit : Option PermitData
  deriving DecidableEq, Repr

/-- A request entry (R67). -/
structure Request where
  station : Nat
  sequence : Sequence
  side : Side
  credential : Credential
  deriving DecidableEq, Repr

/-! ## Pair Table (R92) and Referral Queue (R113) -/

/-- What closes a context or an approval early (R102, R124). -/
inductive ClosureCause where
  | newRequest | revokeNotice | barNotice | lockdown | fire | tamperNotice | stationFault | stationLost | stopLink
  deriving DecidableEq, Repr

/-- An open pair context; `held` is the slot state HELD, else OPEN. -/
structure PairContext where
  held : Bool
  station : Nat
  room : Nat
  credential : Credential
  handle : Handle
  role : Role
  sequence : Sequence
  seconds : Nat
  closure : Option ClosureCause
  deriving DecidableEq, Repr

inductive ApprovalState where
  | opening | waiting | taken | answering
  deriving DecidableEq, Repr

/-- The part of a referral entry that its kind decides (R113). -/
inductive ReferralKind where
  | approval (handle : Handle) (state : ApprovalState) (seconds : Nat) (closure : Option ClosureCause)
  | hotCard (shown : Bool)
  deriving DecidableEq, Repr

structure ReferralEntry where
  reference : Nat
  station : Nat
  credential : Credential
  room : Nat
  sequence : Sequence
  created : Minute
  kind : ReferralKind
  deriving DecidableEq, Repr

/-! ## The seat (R68) -/

/-- What is being decided. -/
inductive DecisionWork where
  | request (side : Side)
  | answer (reference : Nat)
  deriving DecidableEq, Repr

inductive WithdrawalMark where
  | revoked | barred
  deriving DecidableEq, Repr

/-- The reason notes of a grant search (R12), one flag for each line of its table. -/
structure Notes where
  suspended : Bool
  usesSpent : Bool
  outsideHours : Bool
  outsideWindow : Bool
  revoked : Bool
  deriving DecidableEq, Repr

/-- A grant search (R11): the next slot to read, the notes, and the deciding grant once found. -/
structure Search where
  cursor : Nat
  notes : Notes
  found : Option (Handle × Role)
  deriving DecidableEq, Repr

/-- The next operation of the decision in hand (R70 to R80, R94 to R100, R118, R122, R123). -/
inductive Phase where
  | stationQuery | sameCard
  | exitStation | exitRemoval | exitPlacement
  | station | room | mode | tamper | clock | barState | barTest | locate
  | search | count | pool | classRule | claim
  | firstBar | firstLocate | firstSearch | claimFirst | claimSecond
  | admission | escortRead | placement
  | pairOpening | approvalOpening | claimRelease | interim | settling
  | answerEnd (failed : Option DenyReason)
  deriving DecidableEq, Repr

/-- What the decision in hand opens or completes: a pair context by its slot, an approval by its reference. -/
inductive Holding where
  | none
  | completing (slot : Nat)
  | openingPair (slot : Nat)
  | openingApproval (reference : Nat)
  deriving DecidableEq, Repr

/-- The decision in hand: the fields of R68, and what its earlier operations have read. -/
structure Decision where
  work : DecisionWork
  station : Nat
  sequence : Sequence
  credential : Credential
  time : Minute
  heldPlaces : Nat
  claims : List Claim
  records : List Nat
  /-- The MODEL's own: the handles among the claims that an overstay notice has reached before their records were admitted (R42,
  R44, log 59). -/
  overstayed : List Handle
  mark : Option WithdrawalMark
  abandoned : Bool
  phase : Phase
  holding : Holding
  room : Nat
  key : Key
  cls : RoomClass
  limit : Nat
  own : Search
  first : Search
  deriving DecidableEq, Repr

/-! ## Station Link (R130, R131, R137) -/

structure LinkConfig where
  stations : Nat
  turnTimer : Nat
  missedLimit : Nat
  jabberRelease : Nat
  autoStart : Bool
  deriving DecidableEq, Repr

inductive LinkState where
  | stopped | running | recovering
  deriving DecidableEq, Repr

/-- The place in the cycle (R134, R135). -/
inductive CyclePlace where
  | markDue
  | turnDue (station : Nat)
  | turnOpen (station : Nat) (framesLeft : Nat) (heard : Bool)
  deriving DecidableEq, Repr

inductive StationState where
  | silent | active | lost | jabbering | faulted
  deriving DecidableEq, Repr

structure StationBody where
  binding : Option Nat
  extraFrames : Nat
  deriving DecidableEq, Repr

/-- The station's most recent verdict (R144); `isOpen` is its open flag. -/
structure AnswerRecord where
  sequence : Sequence
  verdict : Verdict
  reason : Option DenyReason
  sent : Bool
  isOpen : Bool
  deriving DecidableEq, Repr

/-- A station record: header (the faulted flag), body, and the link part (R137). -/
structure Station where
  header : Voted Bool
  body : Stored StationBody
  state : StationState
  missed : Nat
  release : Nat
  entrance : Option Entrance
  answer : Option AnswerRecord
  inFlight : BitVec 16
  deriving DecidableEq, Repr

def StationBody.empty : StationBody := ⟨none, 0⟩

/-- A station record after CLEAR RETAINED (R137). -/
def Station.cleared : Station := ⟨.of false, .of .empty, .silent, 0, 0, none, none, 0⟩

inductive BuildingMode where
  | normal | lockdown | fire
  deriving DecidableEq, Repr

/-- A MARK as sent (R136). -/
structure Mark where
  cycle : BitVec 8
  mode : BuildingMode
  entries : List VerdictEntry
  deriving DecidableEq, Repr

/-! ## Integrity Checker (R165, R167) -/

inductive Region where
  | grant | bar | site
  deriving DecidableEq, Repr

/-- The health flags and the retained-lost flag. -/
structure Health where
  grantCorrected : Bool
  grantUncorrectable : Bool
  barCorrected : Bool
  barUncorrectable : Bool
  siteCorrected : Bool
  siteUncorrectable : Bool
  retainedLost : Bool
  deriving DecidableEq, Repr

/-- The tamper items. While CLEARING, cursor 1025 says that slot 1024 has been freed (log 16). -/
structure Tamper where
  flag : Bool
  clearing : Bool
  reclear : Bool
  cursor : Nat
  deriving DecidableEq, Repr

def Health.clear : Health := ⟨false, false, false, false, false, false, false⟩
def Tamper.idle : Tamper := ⟨false, false, false, 1⟩

/-! ## Command Port (R173, R174, R177) -/

/-- The result codes 0-14 in this order (R174). -/
inductive ResultCode where
  | ok | badCommand | badArgument | staleHandle | notFound | tableFull | inUse | already | wrongState
  | tooLate | notTaken | overtaken | clockUnset | busy | faulted
  deriving DecidableEq, Repr

/-- The attention causes, bits 0-14 in this order (R177). -/
inductive Cause where
  | commandDone | presenceAlert | hotCard | hotCardOverflow | referralWaiting | stationLost | jabber
  | entranceForced | strayExit | intakeOverrun | memoryWarning | memoryError | tamper | supplyReturn
  | modeChange
  deriving DecidableEq, Repr

/-- ARG0-ARG7 and XRES0-XRES3. Written without a field, a window holds 0 there, as R176 asks. -/
structure Window where
  arg0 : Word := 0
  arg1 : Word := 0
  arg2 : Word := 0
  arg3 : Word := 0
  arg4 : Word := 0
  arg5 : Word := 0
  arg6 : Word := 0
  arg7 : Word := 0
  xres0 : Word := 0
  xres1 : Word := 0
  xres2 : Word := 0
  xres3 : Word := 0
  deriving DecidableEq, Repr

/-- What a command completes with (R176). -/
structure CommandResult where
  code : ResultCode
  words : Window := {}
  deriving DecidableEq, Repr

/-- The counts of REVOKE GRANT, BAR CREDENTIAL and SET MODE: verdicts withdrawn, contexts and approvals
closed, records marked. -/
structure Counts where
  withdrawn : Nat
  closed : Nat
  marked : Nat
  deriving DecidableEq, Repr

/-- The key of FIND GRANTS (R23). -/
inductive FindKey where
  | credential (value : Credential)
  | company (value : BitVec 16)
  | all
  deriving DecidableEq, Repr

/-- What the command in progress still has to do before it completes. -/
inductive CommandWork where
  /-- A command accepted and handed to its owner, whose first operation is still to come (R174, log 35). -/
  | handed (code : BitVec 8)
  /-- The results stand and wait for the completion. -/
  | ready (result : CommandResult)
  /-- RETIRE GRANT with its hold placed and so many of its four questions asked (R21). -/
  | retire (handle : Handle) (asked : Nat)
  /-- UNBIND STATION with its hold placed and so many of its five questions asked (R148). -/
  | unbind (station : Nat) (asked : Nat)
  /-- FIND GRANTS at a slot, with what it has collected (R23). -/
  | find (key : FindKey) (cursor : Nat) (found : List (Handle × GrantState))
  /-- Commands that wait until every block has taken their notices. -/
  | revoke (counts : Counts)
  | bar (counts : Counts)
  | unbar (cleared : Nat)
  | clearBar (removed : Nat) (cleared : Nat)
  | setMode (before : BuildingMode) (after : BuildingMode) (counts : Counts)
  | stopLink
  /-- ANSWER REFERRAL with PERMIT, waiting for the end of its check (R121). -/
  | answer (reference : Nat)
  /-- DEVICE RESET or CLEAR RETAINED, accepted, with its reset under way (R171, R180). -/
  | reset (code : BitVec 8)
  deriving DecidableEq, Repr

/-! ## Notices between the blocks -/

inductive Notice where
  | revoke (handle : Handle)
  | bar (credential : Credential)
  | unbar (credential : Credential)
  | overstay (handle : Handle)
  | loss (station : Nat)
  | stop
  | stationFault (station : Nat)
  | mode (mode : BuildingMode)
  | tamper
  deriving DecidableEq, Repr

/-- A notice given and not yet taken. `ofCommand` says that the command in progress gave it and waits for it. -/
structure Outstanding where
  receiver : Block
  notice : Notice
  ofCommand : Bool
  deriving DecidableEq, Repr

inductive Supply where
  | full | retainedOnly
  deriving DecidableEq, Repr

/-! ## The whole machine -/

/-- The state of the part. Every field is named in INVENTORY.md with its rule. -/
structure State where
  -- pins, supply and outputs
  supply : Supply
  resetLow : Bool
  firePin : Bool
  lockdownPin : Bool
  tamperLine : Bool
  markSent : Option Mark
  spiOut : Word
  attentionTaken : Option Word
  -- Estate Clock
  clock : Voted ClockItem
  trim : Voted (Option Int)
  secondLength : Nat
  -- Grant Table
  grants : Table Slot
  retireHold : Option Nat
  -- Window Sweep
  sweep : Option Sweep
  resweep : Bool
  -- Room Table and Presence Pool
  rooms : Table Room
  presence : Table PresenceRecord
  /-- Where a marking for the tamper notice goes on: the records below this number have been reached; 0 where none was cut
  short (R168). -/
  markedTo : Nat
  /-- The MODEL's own: how many free values of Config.cutOf have been read (log 53). -/
  cuts : Nat
  -- Bar List
  barHeader : Voted BarHeader
  barEntries : List (Stored Credential)
  -- request path
  requests : List Request
  seat : Option Decision
  verdicts : List VerdictEntry
  -- Pair Table
  pairs : Table (Option PairContext)
  pairWindow : Voted Nat
  -- Referral Queue
  referrals : List ReferralEntry
  referenceCounter : Nat
  referralTimeout : Voted Nat
  -- Station Link Controller
  linkConfig : Voted LinkConfig
  linkState : LinkState
  cycle : BitVec 8
  cyclePlace : CyclePlace
  stations : Table Station
  unbindHold : Option Nat
  -- Mode Controller
  mode : BuildingMode
  fireLevel : Bool
  lockdownLevel : Bool
  override : Bool
  -- Integrity Checker
  health : Voted Health
  tamper : Voted Tamper
  deferred : Voted Word
  checkPattern : Bool
  -- Command Port
  portBusy : Bool
  resultCode : ResultCode
  overrun : Bool
  lastCommand : BitVec 8
  window : Window
  /-- The causes latched, but for those a read in progress has taken, which stand in `attentionTaken` (R177). -/
  attention : Word
  attentionMask : Word
  resetCauses : Word
  work : Option CommandWork
  -- between the blocks
  notices : List Outstanding
  -- the commands that wait, first in, first out
  pending : List Instr
  deriving DecidableEq, Repr

/-- Why the machine would stop with a fault. No meaning of this model raises one: every rule of the spec goes on. -/
inductive Fault where
  /-- Raised by nothing: kept so that the type has a name for a stop that no rule asks for. Safe. -/
  | unreached
  deriving DecidableEq, Repr

/-- Why a command has no meaning. -/
inductive Refusal where
  /-- Raised by an arm of exec whose command has no meaning yet. Safe. -/
  | notModelled (mnemonic : String)
  deriving DecidableEq, Repr

/-- The cleared calendar and clock state (R171): 2000-01-01 00:00:00, UNSET. -/
def ClockItem.cleared : ClockItem := ⟨⟨.epoch, 0⟩, false⟩

/-- The cleared link configuration (R130, R171). -/
def LinkConfig.cleared : LinkConfig := ⟨8, 48, 24, 16, false⟩

def BarHeader.cleared : BarHeader := ⟨0, false, []⟩

/-- The machine right after reset: a device reset by RESETn (R180) of a part in FULL supply, with every line released,
whose retained domain holds the cleared values of R171 (DESIGN CHOICE, log 1). -/
def State.reset : State where
  supply := .full
  resetLow := false
  firePin := false
  lockdownPin := false
  tamperLine := false
  markSent := none
  spiOut := 0
  attentionTaken := none
  clock := .of .cleared
  trim := .of none
  secondLength := 1000
  grants := []
  retireHold := none
  sweep := none
  resweep := false
  rooms := []
  presence := []
  markedTo := 0
  cuts := 0
  barHeader := .of .cleared
  barEntries := []
  requests := []
  seat := none
  verdicts := []
  pairs := []
  pairWindow := .of 20
  referrals := []
  referenceCounter := 1
  referralTimeout := .of 60
  linkConfig := .of .cleared
  linkState := .stopped
  cycle := 0
  cyclePlace := .markDue
  stations := []
  unbindHold := none
  mode := .normal
  fireLevel := false
  lockdownLevel := false
  override := false
  health := .of .clear
  tamper := .of .idle
  deferred := .of 0
  checkPattern := true
  portBusy := false
  resultCode := .ok
  overrun := false
  lastCommand := 0
  window := {}
  attention := 0
  attentionMask := 0
  resetCauses := 0
  work := none
  notices := []
  pending := []

end Sys2Proof.Machine
end

