-- ==== Sys2Proof/Machine/Ops.lean ====
section
/-! DEFINITION. Operations on the data itself: tables of numbered records in canonical form, the vote of three copies, and small helpers on lists. -/

namespace Sys2Proof.Machine

open Sys2Proof

/-! ## Tables of numbered records (log 28) -/

/-- The record of number `k`: `d` where the table lists none. -/
def Table.get {α : Type} (d : α) : Table α → Nat → α
  | [], _ => d
  | (j, v) :: rest, k => if j = k then v else Table.get d rest k

/-- Write the record of number `k`, keeping the canonical form: a record equal to `d` is not listed. -/
def Table.set {α : Type} [DecidableEq α] (d : α) : Table α → Nat → α → Table α
  | [], k, v => if v = d then [] else [(k, v)]
  | (j, w) :: rest, k, v =>
    if k < j then (if v = d then (j, w) :: rest else (k, v) :: (j, w) :: rest)
    else if k = j then (if v = d then rest else (k, v) :: rest)
    else (j, w) :: Table.set d rest k v

/-- The canonical form: numbers above `low` and strictly rising, no record equal to `d`. -/
def Table.wfFrom {α : Type} [DecidableEq α] (d : α) : Option Nat → Table α → Bool
  | _, [] => true
  | low, (j, v) :: rest =>
    (match low with
      | none => true
      | some l => decide (l < j)) && decide (v ≠ d) && Table.wfFrom d (some j) rest

/-- The canonical form of a whole table. -/
def Table.wf {α : Type} [DecidableEq α] (d : α) (t : Table α) : Bool := Table.wfFrom d none t

/-- The numbers a table lists, rising. -/
def Table.keys {α : Type} (t : Table α) : List Nat := t.map Prod.fst

/-- The first listed number at or after `k`. -/
def Table.nextKey {α : Type} (t : Table α) (k : Nat) : Option Nat := (Table.keys t).find? (fun j => decide (k ≤ j))

/-- The numbers `low`, `low + 1`, … , `count` of them. -/
def numbersFrom (low count : Nat) : List Nat := (List.range count).map (low + ·)

/-! ## Items in three copies (R4, R164) -/

/-- No copy needed a correction and the three agree: the read is not a corrected read. -/
def Voted.clean {α : Type} [DecidableEq α] (v : Voted α) : Bool :=
  v.copy1.corrections == 0 && v.copy2.corrections == 0 && v.copy3.corrections == 0 &&
    decide (v.copy1.value = v.copy2.value) && decide (v.copy2.value = v.copy3.value)

/-- The value used (R164): the one two copies agree on after their own correction; where no two agree, that of the
copy with the fewest corrections, the lower-numbered copy first. -/
def Voted.value {α : Type} [DecidableEq α] (v : Voted α) : α :=
  if v.copy1.value = v.copy2.value then v.copy1.value
  else if v.copy1.value = v.copy3.value then v.copy1.value
  else if v.copy2.value = v.copy3.value then v.copy2.value
  else if v.copy1.corrections ≤ v.copy2.corrections ∧ v.copy1.corrections ≤ v.copy3.corrections then v.copy1.value
  else if v.copy2.corrections ≤ v.copy3.corrections then v.copy2.value
  else v.copy3.value

end Sys2Proof.Machine
end

