-- ==== Sys2Proof/Machine/Flags.lean ====
section
/-! DEFINITION. The flags of the part: attention causes and how they are raised (R163, R177, R179), the ATN and REFER outputs (R116, R178), the health flags (R164, R165), and STATUS (R173). -/

namespace Sys2Proof.Machine

open Sys2Proof

/-! ## Attention causes (R177) -/

/-- The bit of a cause in ATTENTION and in the mask. -/
def Cause.bit : Cause → Nat
  | .commandDone => 0
  | .presenceAlert => 1
  | .hotCard => 2
  | .hotCardOverflow => 3
  | .referralWaiting => 4
  | .stationLost => 5
  | .jabber => 6
  | .entranceForced => 7
  | .strayExit => 8
  | .intakeOverrun => 9
  | .memoryWarning => 10
  | .memoryError => 11
  | .tamper => 12
  | .supplyReturn => 13
  | .modeChange => 14

/-- A word with that bit alone. -/
def Cause.word (c : Cause) : Word := BitVec.twoPow 32 c.bit

/-- The causes kept in RETAINED-ONLY supply (R163). -/
def Cause.deferrable : Cause → Bool
  | .tamper | .presenceAlert | .memoryWarning | .memoryError => true
  | .commandDone | .hotCard | .hotCardOverflow | .referralWaiting | .stationLost | .jabber
  | .entranceForced | .strayExit | .intakeOverrun | .supplyReturn | .modeChange => false

/-- The bits of ATTENTION and of the mask that exist (R177, R178). -/
def causeBits : Word := 0x00007FFF

/-- The latches of ATTENTION: those that a read in progress has taken stand until its fourth data byte (R177). -/
def State.latches (s : State) : Word := s.attention ||| s.attentionTaken.getD 0

/-- Whether a cause stands latched in ATTENTION. -/
def State.latched (s : State) (c : Cause) : Bool := s.latches.getLsbD c.bit

/-- The port is on: FULL supply and RESETn high (R172). -/
def State.portOn (s : State) : Bool := decide (s.supply = .full) && !s.resetLow

/-- The code of the command whose reset is under way: accepted, and not ended (R171, R180). -/
def CommandWork.resetCode : CommandWork → Option (BitVec 8)
  | .reset code => some code
  | .handed _ | .ready _ | .retire _ _ | .unbind _ _ | .find _ _ _ | .revoke _ | .bar _ | .unbar _ | .clearBar _ _
  | .setMode _ _ _ | .stopLink | .answer _ => none

/-- A reset caused by DEVICE RESET or CLEAR RETAINED is under way. -/
def State.resetting (s : State) : Bool := (s.work.bind CommandWork.resetCode).isSome

/-- Every block runs: FULL supply, RESETn high and no reset under way (R161, R171, R179, log 51). -/
def State.awake (s : State) : Bool := s.portOn && !s.resetting

/-- Set the SITE corrected flag: the Integrity Checker's own items stand in SITE (R164). -/
def State.markSiteCorrected (s : State) : State :=
  { s with health := .of { s.health.value with siteCorrected := true } }

/-- Raise an attention cause. In FULL supply it is latched (R177), or kept until RESETn goes high or the reset under way
ends (R179, R180, log 21). In RETAINED-ONLY supply the four deferrable causes join the deferred set (R163). -/
def raise (c : Cause) (s : State) : State :=
  match s.supply with
  | .full =>
    if s.resetLow || s.resetting then { s with resetCauses := s.resetCauses ||| c.word }
    else { s with attention := s.attention ||| c.word }
  | .retainedOnly =>
    if c.deferrable then
      if s.deferred.clean then { s with deferred := .of (s.deferred.value ||| c.word) }
      else
        { s with deferred := .of (s.deferred.value ||| c.word ||| Cause.memoryWarning.word) }.markSiteCorrected
    else s

/-- Raise a cause where a condition holds. -/
def raiseIf (b : Bool) (c : Cause) (s : State) : State := if b then raise c s else s

/-- Raise a cause `n` times; the latch shows it once (R177). -/
def raiseTimes (n : Nat) (c : Cause) (s : State) : State := if n = 0 then s else raise c s

/-! ## Health flags (R164, R165) -/

/-- Read the health flags by vote. -/
def readHealth (s : State) : Health × State :=
  if s.health.clean then (s.health.value, s)
  else
    let s := s.markSiteCorrected
    (s.health.value, raise .memoryWarning s)

def Health.setCorrected (h : Health) : Region → Health
  | .grant => { h with grantCorrected := true }
  | .bar => { h with barCorrected := true }
  | .site => { h with siteCorrected := true }

def Health.setUncorrectable (h : Health) : Region → Health
  | .grant => { h with grantUncorrectable := true }
  | .bar => { h with barUncorrectable := true }
  | .site => { h with siteUncorrectable := true }

/-- A corrected read: the region's corrected flag and MEMORY WARNING (R164). -/
def noteCorrected (r : Region) (s : State) : State :=
  let (h, s) := readHealth s
  raise .memoryWarning { s with health := .of (h.setCorrected r) }

/-- An uncorrectable read: the region's uncorrectable flag and MEMORY ERROR (R164). -/
def noteUncorrectable (r : Region) (s : State) : State :=
  let (h, s) := readHealth s
  raise .memoryError { s with health := .of (h.setUncorrectable r) }

/-! ## Outputs -/

/-- ATN (R178): low while the port is off. -/
def State.atn (s : State) : Bool := s.portOn && !(s.latches &&& s.attentionMask == 0)

/-- An APPROVAL in state WAITING. -/
def ReferralEntry.isWaiting (e : ReferralEntry) : Bool :=
  match e.kind with
  | .approval _ .waiting _ _ => true
  | .approval _ .opening _ _ | .approval _ .taken _ _ | .approval _ .answering _ _ | .hotCard _ => false

/-- REFER (R116): a level, low while the Referral Queue is off. -/
def State.refer (s : State) : Bool := s.portOn && s.referrals.any ReferralEntry.isWaiting

/-! ## STATUS (R173) -/

def ResultCode.code : ResultCode → BitVec 4
  | .ok => 0
  | .badCommand => 1
  | .badArgument => 2
  | .staleHandle => 3
  | .notFound => 4
  | .tableFull => 5
  | .inUse => 6
  | .already => 7
  | .wrongState => 8
  | .tooLate => 9
  | .notTaken => 10
  | .overtaken => 11
  | .clockUnset => 12
  | .busy => 13
  | .faulted => 14

/-- STATUS: last command code in bits 23-16, OVERRUN in bit 8, result code in bits 7-4, BUSY in bit 0. -/
def State.status (s : State) : Word :=
  (0#8 ++ s.lastCommand ++ 0#7 ++ BitVec.ofBool s.overrun ++ s.resultCode.code ++ 0#3 ++ BitVec.ofBool s.portBusy :
    BitVec (8 + 8 + 7 + 1 + 4 + 3 + 1))

end Sys2Proof.Machine
end

