-- ==== Sys2Proof/Machine/Retained.lean ====
section
/-! DEFINITION. Reading and writing retained items, each through its one accessor and the integrity check (R160, R164). -/

namespace Sys2Proof.Machine

open Sys2Proof

/-- Read an item in three copies: its value, and on a corrected read every copy rewritten with the value used,
the region's corrected flag and MEMORY WARNING (R164). `put` writes the item back. -/
def readVoted {α : Type} [DecidableEq α] (region : Region) (item : Voted α) (put : Voted α → State → State)
    (s : State) : α × State :=
  if item.clean then (item.value, s) else (item.value, noteCorrected region (put (.of item.value) s))

/-! ## Single items -/

/-- The calendar and clock state (R26, R29). -/
def readClockItem (s : State) : ClockItem × State :=
  readVoted .site s.clock (fun v s => { s with clock := v }) s

/-- The trim pending flag with its amount (R34). -/
def readTrim (s : State) : Option Int × State :=
  readVoted .site s.trim (fun v s => { s with trim := v }) s

/-- The present calendar minute (R25, R29). -/
def presentMinute (s : State) : Minute × State :=
  let (c, s) := readClockItem s
  (c.calendar.minute, s)

/-- The pair window (R93). -/
def readWindowSeconds (s : State) : Nat × State :=
  readVoted .site s.pairWindow (fun v s => { s with pairWindow := v }) s

/-- The referral timeout (R117). -/
def readTimeoutSeconds (s : State) : Nat × State :=
  readVoted .site s.referralTimeout (fun v s => { s with referralTimeout := v }) s

/-- The link configuration (R130). -/
def readConfig (s : State) : LinkConfig × State :=
  readVoted .site s.linkConfig (fun v s => { s with linkConfig := v }) s

/-- The tamper items (R167). -/
def readTamper (s : State) : Tamper × State :=
  readVoted .site s.tamper (fun v s => { s with tamper := v }) s

def writeTamper (t : Tamper) (s : State) : State := { s with tamper := .of t }

/-- The deferred causes (R163). -/
def readDeferred (s : State) : Word × State :=
  readVoted .site s.deferred (fun v s => { s with deferred := v }) s

/-- The Bar List's header (R105). -/
def readBarHeader (s : State) : BarHeader × State :=
  readVoted .bar s.barHeader (fun v s => { s with barHeader := v }) s

/-! ## Grant slots (R3, R4, R7) -/

def State.slot (s : State) (k : Nat) : Slot := Table.get Slot.cleared s.grants k

def State.setSlot (s : State) (k : Nat) (v : Slot) : State :=
  { s with grants := Table.set Slot.cleared s.grants k v }

/-- Read a slot's header by vote (R4). -/
def readSlotHeader (k : Nat) (s : State) : SlotHeader × State :=
  readVoted .grant (s.slot k).header (fun v s => s.setSlot k { s.slot k with header := v }) s

def writeSlotHeader (k : Nat) (h : SlotHeader) (s : State) : State :=
  s.setSlot k { s.slot k with header := .of h }

def writeSlotBody (k : Nat) (g : GrantRecord) (s : State) : State :=
  s.setSlot k { s.slot k with body := .of g }

/-- Write a slot's state, its issue number and its record. -/
def writeSlot (k : Nat) (h : SlotHeader) (g : GrantRecord) (s : State) : State :=
  s.setSlot k ⟨.of h, .of g⟩

/-- Read a slot's body through the integrity check (R7): `none` for an uncorrectable read, which makes the slot
FAULTED and keeps its issue number. The caller has found the header neither FREE nor FAULTED. -/
def readSlotBody (k : Nat) (s : State) : Option GrantRecord × State :=
  match (s.slot k).body.condition with
  | .good => (some (s.slot k).body.value, s)
  | .correctable => (some (s.slot k).body.value, noteCorrected .grant (writeSlotBody k (s.slot k).body.value s))
  | .uncorrectable =>
    (none, noteUncorrectable .grant (writeSlotHeader k ⟨.faulted, (s.slot k).header.value.issue⟩ s))

/-! ## Rooms (R46, R48) -/

def State.room (s : State) (r : Nat) : Room := Table.get Room.cleared s.rooms r

def State.setRoom (s : State) (r : Nat) (v : Room) : State :=
  { s with rooms := Table.set Room.cleared s.rooms r v }

def readRoomHeader (r : Nat) (s : State) : RoomState × State :=
  readVoted .site (s.room r).header (fun v s => s.setRoom r { s.room r with header := v }) s

def writeRoomHeader (r : Nat) (h : RoomState) (s : State) : State :=
  s.setRoom r { s.room r with header := .of h }

def writeRoomBody (r : Nat) (b : RoomBody) (s : State) : State :=
  s.setRoom r { s.room r with body := .of b }

/-- What a reader of a room finds: UNDEFINED, FAULTED (before this read or by it), or the body of a room that is
IN SERVICE or CLOSED. -/
inductive RoomView where
  | undefined
  | faulted
  | readable (closed : Bool) (body : RoomBody)
  deriving DecidableEq, Repr

/-- Read a room: its header by vote and, when it is IN SERVICE or CLOSED, its body through the integrity check (R48). -/
def readRoomRecord (r : Nat) (s : State) : RoomView × State :=
  let (h, s) := readRoomHeader r s
  match h with
  | .undefined => (.undefined, s)
  | .faulted => (.faulted, s)
  | .inService | .closed =>
    match (s.room r).body.condition with
    | .good => (.readable (decide (h = .closed)) (s.room r).body.value, s)
    | .correctable =>
      (.readable (decide (h = .closed)) (s.room r).body.value,
        noteCorrected .site (writeRoomBody r (s.room r).body.value s))
    | .uncorrectable => (.faulted, noteUncorrectable .site (writeRoomHeader r .faulted s))

/-- Set census suspect on a room whose body is readable (R62). -/
def setSuspect (r : Nat) (s : State) : State :=
  let (v, s) := readRoomRecord r s
  match v with
  | .readable _ b => writeRoomBody r { b with suspect := true } s
  | .undefined | .faulted => s

/-! ## Presence records (R54, R63) -/

def State.record (s : State) (id : Nat) : PresenceRecord := Table.get PresenceRecord.free s.presence id

def State.setRecord (s : State) (id : Nat) (v : PresenceRecord) : State :=
  { s with presence := Table.set PresenceRecord.free s.presence id v }

def readIndex (id : Nat) (s : State) : PresenceIndex × State :=
  readVoted .site (s.record id).index (fun v s => s.setRecord id { s.record id with index := v }) s

/-- The index part by vote, as a reader that has read every index part finds it. -/
def State.index (s : State) (id : Nat) : PresenceIndex := (s.record id).index.value

def writeIndex (id : Nat) (i : PresenceIndex) (s : State) : State :=
  s.setRecord id { s.record id with index := .of i }

def writePresenceBody (id : Nat) (b : PresenceBody) (s : State) : State :=
  s.setRecord id { s.record id with body := .of b }

/-- Read a presence body through the integrity check (R63): `none` for a faulted record and for an uncorrectable
read, which sets the faulted flag, and census suspect on the record's room if that is readable. -/
def readPresenceBody (id : Nat) (s : State) : Option PresenceBody × State :=
  let (i, s) := readIndex id s
  if i.faulted then (none, s)
  else
    match (s.record id).body.condition with
    | .good => (some (s.record id).body.value, s)
    | .correctable =>
      (some (s.record id).body.value, noteCorrected .site (writePresenceBody id (s.record id).body.value s))
    | .uncorrectable => (none, setSuspect i.room (noteUncorrectable .site (writeIndex id { i with faulted := true } s)))

/-! ## Bar List entries (R106) -/

/-- Read the Bar List entry at a position (1 is the first) through the integrity check: `none` for an uncorrectable
read, which adds the position to the faulted positions and makes the list DOUBTFUL. -/
def readBarEntry (position : Nat) (s : State) : Option Credential × State :=
  match s.barEntries[position - 1]? with
  | none => (none, s)
  | some e =>
    match e.condition with
    | .good => (some e.value, s)
    | .correctable =>
      (some e.value, noteCorrected .bar { s with barEntries := s.barEntries.set (position - 1) (.of e.value) })
    | .uncorrectable =>
      let h := s.barHeader.value
      let f := if h.faulted.contains position then h.faulted
        else h.faulted.filter (· < position) ++ position :: h.faulted.filter (fun p => decide (position < p))
      (none, noteUncorrectable .bar { s with barHeader := .of { h with doubtful := true, faulted := f } })

/-! ## Station records (R137, R138) -/

def State.station (s : State) (k : Nat) : Station := Table.get Station.cleared s.stations k

def State.setStation (s : State) (k : Nat) (v : Station) : State :=
  { s with stations := Table.set Station.cleared s.stations k v }

/-- Change a station record in place. -/
def updateStation (k : Nat) (f : Station → Station) (s : State) : State := s.setStation k (f (s.station k))

def readStationHeader (k : Nat) (s : State) : Bool × State :=
  readVoted .site (s.station k).header (fun v s => s.setStation k { s.station k with header := v }) s

/-- Give notices, after those already outstanding (R157). -/
def giveNotices (receivers : List Block) (n : Notice) (ofCommand : Bool) (s : State) : State :=
  { s with notices := s.notices ++ receivers.map (fun b => ⟨b, n, ofCommand⟩) }

/-- Read a station's body through the integrity check (R138): `none` for a FAULTED station and for an uncorrectable
read, which makes it FAULTED and gives the fault notice to the Pair Table and the Referral Queue. -/
def readStationBody (k : Nat) (s : State) : Option StationBody × State :=
  let (faulted, s) := readStationHeader k s
  if faulted then (none, s)
  else
    match (s.station k).body.condition with
    | .good => (some (s.station k).body.value, s)
    | .correctable =>
      (some (s.station k).body.value,
        noteCorrected .site (updateStation k (fun v => { v with body := .of v.body.value }) s))
    | .uncorrectable =>
      (none, giveNotices [.pairTable, .referralQueue] (.stationFault k) false
        (noteUncorrectable .site (updateStation k (fun v => { v with header := .of true, state := .faulted }) s)))

def writeStationBody (k : Nat) (b : StationBody) (s : State) : State :=
  updateStation k (fun v => { v with body := .of b }) s

/-- Count a room's bound stations (R137, R138): read every station body, and list those bound to the room. DESIGN CHOICE
(log 50): by rising station ID, which READ ROOM shows. -/
def boundStationsFrom (r : Nat) : List Nat → State → List Nat × State
  | [], s => ([], s)
  | k :: ks, s =>
    let (b, s) := readStationBody k s
    let (rest, s) := boundStationsFrom r ks s
    match b with
    | some body => (if body.binding = some r then k :: rest else rest, s)
    | none => (rest, s)

def boundStations (r : Nat) (s : State) : List Nat × State :=
  boundStationsFrom r (numbersFrom 1 Config.stations) s

end Sys2Proof.Machine
end

