-- ==== Sys2Proof/Machine/Operands.lean ====
section
/-! DEFINITION. The operand forms: how the argument and result words carry fields (R181, R182), and the codes of the enumerations. -/

namespace Sys2Proof.Machine

open Sys2Proof

/-! ## Bit fields -/

/-- The field of `width` bits whose lowest bit is `low`. -/
def field (w : Word) (low width : Nat) : Nat := (w.extractLsb' low width).toNat

/-- A word that holds the low `width` bits of `n` from bit `low` up, and 0 elsewhere. -/
def put (low width n : Nat) : Word := (BitVec.ofNat width n).setWidth 32 <<< low

/-- One bit of a result word. -/
def putBit (low : Nat) (b : Bool) : Word := put low 1 b.toNat

/-- A count alone in a word fills the whole word (R182). -/
def wholeWord (n : Nat) : Word := BitVec.ofNat 32 n

/-! ## Bytes and bits on a line (R172, R183) -/

/-- The bits of a byte, most significant first. -/
def byteBits (b : Byte) : List Bool :=
  [b.getLsbD 7, b.getLsbD 6, b.getLsbD 5, b.getLsbD 4, b.getLsbD 3, b.getLsbD 2, b.getLsbD 1, b.getLsbD 0]

/-- The four data bytes of a word, bits 31-24 first. -/
def wordBytes (w : Word) : List Byte :=
  [w.extractLsb' 24 8, w.extractLsb' 16 8, w.extractLsb' 8 8, w.extractLsb' 0 8]

/-! ## Credentials (R1, R181) -/

/-- A credential in two words: the lower 32 bits, and bits 7-0 of the second. -/
def credentialArg (low high : Word) : Credential := high.truncate 8 ++ low

def credentialLow (c : Credential) : Word := c.truncate 32
def credentialHigh (c : Credential) : Nat := (c.extractLsb' 32 8).toNat

/-- A credential argument is in range when it is not zero: the layout carries 40 bits (R1). -/
def credentialOk (c : Credential) : Bool := decide (c ≠ 0)

/-! ## Calendar minute word (R181) -/

def minuteArg (w : Word) : Minute :=
  ⟨2000 + field w 20 7, field w 16 4, field w 11 5, field w 6 5, field w 0 6⟩

def minuteWord (m : Minute) : Word :=
  put 20 7 (m.year - 2000) ||| put 16 4 m.month ||| put 11 5 m.day ||| put 6 5 m.hour ||| put 0 6 m.minute

/-! ## Codes -/

def GrantState.code : GrantState → Nat
  | .free => 0
  | .pending => 1
  | .active => 2
  | .spent => 3
  | .suspended => 4
  | .lapsed => 5
  | .revoked => 6
  | .faulted => 7

def HoursState.code : HoursState → Nat
  | .absent => 0
  | .inHours => 1
  | .outHours => 2

def Role.code : Role → Nat
  | .contractor => 0
  | .escort => 1

def SuspendedFrom.code : SuspendedFrom → Nat
  | .active => 0
  | .pending => 1

def RoomState.code : RoomState → Nat
  | .undefined => 0
  | .inService => 1
  | .closed => 2
  | .faulted => 3

def RoomClass.code : RoomClass → Nat
  | .opened => 0
  | .escorted => 1
  | .paired => 2
  | .referred => 3

/-- The class of a code; the other codes of the field have no meaning (R182). -/
def RoomClass.ofCode : Nat → Option RoomClass
  | 0 => some .opened
  | 1 => some .escorted
  | 2 => some .paired
  | 3 => some .referred
  | _ => none

/-- 0 is absent (R182). -/
def entranceCode : Option Entrance → Nat
  | none => 0
  | some .shut => 1
  | some .opened => 2
  | some .held => 3
  | some .forced => 4

/-- The outcome codes of a MARK entry (R183). -/
def Verdict.code : Verdict → Nat
  | .permit => 1
  | .permitPair => 2
  | .hold => 3
  | .referWait => 4
  | .deny => 5
  | .exit => 6

/-- The reason codes (R84). -/
def DenyReason.code : DenyReason → Nat
  | .noGrant => 1
  | .outsideWindow => 2
  | .outsideHours => 3
  | .suspended => 4
  | .usesSpent => 5
  | .revoked => 6
  | .barred => 7
  | .barListFault => 8
  | .passback => 9
  | .roomFull => 10
  | .presenceFull => 11
  | .noEscort => 12
  | .pairTimeout => 13
  | .pairBusy => 14
  | .pairSameCard => 15
  | .referralBusy => 16
  | .referralTimeout => 17
  | .refusedByDesk => 18
  | .lockdown => 19
  | .fire => 20
  | .clockUnset => 21
  | .stationUnbound => 22
  | .stationFault => 23
  | .roomClosed => 24
  | .roomFault => 25
  | .tamper => 26

/-- 0 where no reason stands (R183). -/
def reasonCode : Option DenyReason → Nat
  | none => 0
  | some r => r.code

def BuildingMode.code : BuildingMode → Nat
  | .normal => 0
  | .lockdown => 1
  | .fire => 2

def LinkState.code : LinkState → Nat
  | .stopped => 0
  | .running => 1
  | .recovering => 2

def StationState.code : StationState → Nat
  | .silent => 0
  | .active => 1
  | .lost => 2
  | .jabbering => 3
  | .faulted => 4

/-- The codes of a pending closure cause in READ PAIR CONTEXT (R182). -/
def ClosureCause.code : ClosureCause → Nat
  | .newRequest => 1
  | .revokeNotice => 2
  | .barNotice => 3
  | .lockdown => 4
  | .fire => 5
  | .tamperNotice => 6
  | .stationFault => 7
  | .stationLost => 8
  | .stopLink => 9

/-! ## Handles (R5, R181) -/

/-- A handle argument: slot in bits 10-0, issue number in bits 23-16; the other bits are ignored. -/
def handleArg (w : Word) : Handle := ⟨field w 0 11, w.extractLsb' 16 8⟩

/-- A handle word without a state. -/
def handleWord (h : Handle) : Word := put 0 11 h.slot ||| put 16 8 h.issue.toNat

/-- A handle word with the slot's state. -/
def handleWordWith (h : Handle) (st : GrantState) : Word := handleWord h ||| put 24 4 st.code

/-! ## Daily hours (ADD GRANT ARG5, AMEND GRANT ARG3) -/

def hoursArg (w : Word) : DailyHours := ⟨w.extractLsb' 24 7, field w 11 11, field w 0 11⟩

def hoursWord : Option DailyHours → Word
  | none => 0
  | some h => putBit 31 true ||| put 24 7 h.days.toNat ||| put 11 11 h.openMinute ||| put 0 11 h.closeMinute

/-- The limits of R9 on daily hours: a weekday, minutes of the day, and the two minutes unequal. -/
def DailyHours.ok (h : DailyHours) : Bool :=
  decide (h.days ≠ 0) && decide (h.openMinute < 1440) && decide (h.closeMinute < 1440) &&
    decide (h.openMinute ≠ h.closeMinute)

def usesWord : Option Uses → Word
  | none => 0
  | some u => putBit 31 true ||| put 8 8 u.allowance ||| put 0 8 u.remaining

/-! ## READ GRANT's eight words (R22, R181) -/

def grantWords (h : Handle) (st : GrantState) (g : GrantRecord) : Window where
  arg0 := credentialLow g.credential
  arg1 := put 0 8 (credentialHigh g.credential) ||| put 8 1 g.role.code ||| put 16 16 g.company.toNat
  arg2 := put 0 16 g.pattern.toNat ||| put 16 16 g.mask.toNat
  arg3 := minuteWord g.validFrom
  arg4 := minuteWord g.validUntil
  arg5 := hoursWord g.hours
  arg6 := usesWord g.uses
  arg7 := handleWordWith h st ||| put 12 2 g.hoursState.code |||
    (match g.suspendedFrom with
      | some f => put 14 1 f.code
      | none => 0)

/-! ## Presence record words (R181) -/

/-- The five words of a presence record. -/
structure PresenceWords where
  p0 : Word := 0
  p1 : Word := 0
  p2 : Word := 0
  p3 : Word := 0
  p4 : Word := 0
  deriving DecidableEq, Repr

def conditionsField (c : Conditions) : Word :=
  putBit 12 c.overstay ||| putBit 13 c.unescorted ||| putBit 14 c.grantRevoked ||| putBit 15 c.barred |||
    putBit 16 c.grantCleared

/-- The words of a record; a faulted record (no readable body) shows role, delivery, faulted and list place alone. -/
def presenceWords (i : PresenceIndex) : Option PresenceBody → PresenceWords
  | none => { p1 := put 8 1 i.role.code ||| putBit 9 i.sent ||| putBit 10 true ||| put 22 6 i.place }
  | some b =>
    { p0 := credentialLow b.credential
      p1 := put 0 8 (credentialHigh b.credential) ||| put 8 1 i.role.code ||| putBit 9 i.sent |||
        putBit 11 i.useTaken ||| conditionsField b.conditions ||| put 17 5 b.station ||| put 22 6 i.place
      p2 := (match b.handle with
          | some h => handleWord h
          | none => 0) |||
        (match b.partner with
          | some c => put 24 8 (credentialHigh c)
          | none => 0)
      p3 := minuteWord b.entered
      p4 := match b.partner with
        | some c => credentialLow c
        | none => 0 }

/-! ## Results of commands (R176) -/

/-- A command that completes with a code and returns nothing. -/
def CommandResult.bare (c : ResultCode) : CommandResult := { code := c }

/-- A command that completes OK with results. -/
def CommandResult.okWith (w : Window) : CommandResult := { code := .ok, words := w }

/-- OVERTAKEN with the reason code in bits 4-0 of ARG0 (R176). -/
def CommandResult.overtakenWith (r : DenyReason) : CommandResult :=
  { code := .overtaken, words := { arg0 := put 0 5 r.code } }

end Sys2Proof.Machine
end

