-- ==== Sys2Proof/Machine/Calendar.lean ====
section
/-! DEFINITION. The calendar of the Estate Clock (R25, R27, R32), date windows (R36) and daily hours (R37). -/

namespace Sys2Proof.Machine

open Sys2Proof

/-! ## Dates (R25) -/

def leapYear (year : Nat) : Bool := decide (year % 4 = 0)

def monthLength (year month : Nat) : Nat :=
  match month with
  | 2 => if leapYear year then 29 else 28
  | 4 | 6 | 9 | 11 => 30
  | _ => 31

/-- A calendar minute of the calendar: each field in its range, and the day exists (R25). -/
def Minute.ok (m : Minute) : Bool :=
  decide (2000 ≤ m.year) && decide (m.year ≤ 2099) && decide (1 ≤ m.month) && decide (m.month ≤ 12) &&
    decide (1 ≤ m.day) && decide (m.day ≤ monthLength m.year m.month) && decide (m.hour ≤ 23) &&
    decide (m.minute ≤ 59)

/-- A number that orders calendar minutes in time, year first. -/
def Minute.order (m : Minute) : Nat :=
  (((m.year * 16 + m.month) * 32 + m.day) * 32 + m.hour) * 64 + m.minute

/-- "At or before" (R25). -/
def Minute.atOrBefore (a b : Minute) : Bool := decide (a.order ≤ b.order)

/-- "Before" (R25). -/
def Minute.before (a b : Minute) : Bool := decide (a.order < b.order)

/-- The days of a year's months before `month`. -/
def daysBeforeMonth (year month : Nat) : Nat := ((numbersFrom 1 (month - 1)).map (monthLength year)).sum

/-- Days since 1 January 2000: every year divisible by 4 is a leap year in the range (R25). -/
def Minute.dayNumber (m : Minute) : Nat :=
  (m.year - 2000) * 365 + (m.year - 2000 + 3) / 4 + daysBeforeMonth m.year m.month + (m.day - 1)

/-- The weekday, 0 for Monday to 6 for Sunday: 1 January 2000 is a Saturday (R25). -/
def Minute.weekday (m : Minute) : Nat := (m.dayNumber + 5) % 7

/-! ## Advancing (R27) -/

/-- The next day, 2099-12-31 passing to 2000-01-01. -/
def Minute.nextDay (m : Minute) : Minute :=
  if m.day < monthLength m.year m.month then { m with day := m.day + 1 }
  else if m.month < 12 then { m with day := 1, month := m.month + 1 }
  else if m.year < 2099 then { m with day := 1, month := 1, year := m.year + 1 }
  else { m with day := 1, month := 1, year := 2000 }

/-- The day before; the calendar's first day has none inside the calendar. -/
def Minute.previousDay (m : Minute) : Option Minute :=
  if 1 < m.day then some { m with day := m.day - 1 }
  else if 1 < m.month then some { m with month := m.month - 1, day := monthLength m.year (m.month - 1) }
  else if 2000 < m.year then some { m with year := m.year - 1, month := 12, day := 31 }
  else none

/-- One hour later, with the carry into the date (R27, R32). -/
def Minute.nextHour (m : Minute) : Minute :=
  if m.hour < 23 then { m with hour := m.hour + 1 } else { m with hour := 0 }.nextDay

/-- One hour earlier, where the calendar has it (R32). -/
def Minute.previousHour (m : Minute) : Option Minute :=
  if 1 ≤ m.hour then some { m with hour := m.hour - 1 } else ({ m with hour := 23 } : Minute).previousDay

/-- One minute later (R27). -/
def Minute.nextMinute (m : Minute) : Minute :=
  if m.minute < 59 then { m with minute := m.minute + 1 } else { m with minute := 0 }.nextHour

/-- One second later (R27). -/
def Calendar.nextSecond (c : Calendar) : Calendar :=
  if c.second < 59 then { c with second := c.second + 1 } else ⟨c.minute.nextMinute, 0⟩

/-- The calendar one hour later, where it stays in range (R32). -/
def Calendar.hourLater (c : Calendar) : Option Calendar :=
  if c.minute.year = 2099 ∧ c.minute.month = 12 ∧ c.minute.day = 31 ∧ 23 ≤ c.minute.hour then none
  else some { c with minute := c.minute.nextHour }

/-- The calendar one hour earlier, where it stays in range (R32). -/
def Calendar.hourEarlier (c : Calendar) : Option Calendar :=
  match c.minute.previousHour with
  | some m => some { c with minute := m }
  | none => none

/-! ## Windows and hours (R36, R37) -/

/-- The date window contains t. -/
def GrantRecord.inWindow (g : GrantRecord) (t : Minute) : Bool :=
  g.validFrom.atOrBefore t && t.before g.validUntil

/-- t lies in an open span of the daily hours (R37): the weekday before Monday is Sunday. -/
def DailyHours.openAt (h : DailyHours) (t : Minute) : Bool :=
  let d := t.weekday
  let m := t.hour * 60 + t.minute
  if h.openMinute < h.closeMinute then
    h.days.getLsbD d && decide (h.openMinute ≤ m) && decide (m < h.closeMinute)
  else
    (h.days.getLsbD d && decide (h.openMinute ≤ m)) ||
      (h.days.getLsbD ((d + 6) % 7) && decide (m < h.closeMinute))

/-- In-hours for a decision: daily hours absent, or t in an open span (R10). -/
def GrantRecord.inHoursAt (g : GrantRecord) (t : Minute) : Bool :=
  match g.hours with
  | none => true
  | some h => h.openAt t

/-- The in-hours value at t, as an hours state (R37, R38). -/
def DailyHours.stateAt (h : DailyHours) (t : Minute) : HoursState := if h.openAt t then .inHours else .outHours

/-- NONE without daily hours, else the in-hours value at t (R9). -/
def hoursStateAt (h : Option DailyHours) (t : Minute) : HoursState :=
  match h with
  | none => .absent
  | some d => d.stateAt t

end Sys2Proof.Machine
end

