-- ==== Sys2Proof/Machine/Port.lean ====
section
/-! DEFINITION. The Command Port: accepting a command (R174, R175), the writes and reads of the window (R173), and the results that stand until the completion (R176). -/

namespace Sys2Proof.Machine

open Sys2Proof

/-- An outcome of a command of this block: no rule of the spec stops the machine. -/
abbrev Outcome := Host.Outcome State Fault Refusal

/-- The owner has carried the command out; the results wait for the completion (R174, log 35). -/
def finish (r : CommandResult) (s : State) : State := { s with work := some (.ready r) }

/-- The owner has refused the command with a code. -/
def refuse (c : ResultCode) (s : State) : State := finish (.bare c) s

/-- The owner has carried the command out and returns nothing. -/
def finishOk (s : State) : State := finish (.bare .ok) s

/-- A write to COMMAND with a code: ignored while the port is off; ignored with OVERRUN while BUSY; else accepted and
handed to its owner (R172, R174, R175). -/
def commandWrite (code : BitVec 8) (owner : State → State) (s : State) : State :=
  if s.portOn then
    if s.portBusy then { s with overrun := true }
    else owner { s with portBusy := true, overrun := false, lastCommand := code }
  else s

/-- The completion, one operation on the port (R174, R176): every result word, the result code, IDLE and COMMAND DONE. -/
def completePort (r : CommandResult) (s : State) : State :=
  raise .commandDone { s with window := r.words, resultCode := r.code, portBusy := false, work := none }

/-! ## The word window (R173) -/

/-- The value the port takes for a read at the end of the address byte (R172, R173). COMMAND and unlisted addresses read 0. -/
def State.readWord (s : State) (address : BitVec 7) : Word :=
  match address.toNat with
  | 0x00 => Config.ident
  | 0x01 => s.status
  | 0x03 => s.latches
  | 0x04 => s.attentionMask
  | 0x08 => s.window.arg0
  | 0x09 => s.window.arg1
  | 0x0A => s.window.arg2
  | 0x0B => s.window.arg3
  | 0x0C => s.window.arg4
  | 0x0D => s.window.arg5
  | 0x0E => s.window.arg6
  | 0x0F => s.window.arg7
  | 0x10 => s.window.xres0
  | 0x11 => s.window.xres1
  | 0x12 => s.window.xres2
  | 0x13 => s.window.xres3
  | _ => 0

/-- What a read transfer returns: the word, or no data driven while the port is off (R172). A read of any word but
ATTENTION changes no state, so the table has no row for it. -/
def State.readTransfer (s : State) (address : BitVec 7) : Option Word :=
  if s.portOn then some (s.readWord address) else none

/-- The bits a read shifts out during its four data bytes: the word's bytes, bits 31-24 first, each most significant bit
first (R172). -/
def State.readBits (s : State) (address : BitVec 7) : Option (List Bool) :=
  (s.readTransfer address).map (fun w => (wordBytes w).flatMap byteBits)

/-- A window with the ARG word of an address written; `none` where the address is not one of ARG0-ARG7. -/
def Window.writeArg (w : Window) (address : BitVec 7) (v : Word) : Option Window :=
  match address.toNat with
  | 0x08 => some { w with arg0 := v }
  | 0x09 => some { w with arg1 := v }
  | 0x0A => some { w with arg2 := v }
  | 0x0B => some { w with arg3 := v }
  | 0x0C => some { w with arg4 := v }
  | 0x0D => some { w with arg5 := v }
  | 0x0E => some { w with arg6 := v }
  | 0x0F => some { w with arg7 := v }
  | _ => none

/-- A write to an ARG word: stored while IDLE, ignored with OVERRUN while BUSY. Any other address here is a read word
or is not in the table: ignored without a flag (R173, R175). -/
def writeArgument (address : BitVec 7) (v : Word) (s : State) : State :=
  match s.window.writeArg address v with
  | none => s
  | some w => if s.portBusy then { s with overrun := true } else { s with window := w }

/-- A write to ATTENTION MASK, taken in either port state (R178). -/
def writeMask (v : Word) (s : State) : State := { s with attentionMask := v &&& causeBits }

/-- Take the set of latched causes at the end of a read's address byte: a cause raised from here on is latched beside
the set (R177). -/
def takeAttention (s : State) : State := { s with attention := 0, attentionTaken := some s.latches, spiOut := s.latches }

/-- End a read of ATTENTION after its fourth data byte: exactly the latches taken are cleared; a cause raised since stays,
even one of the set (R177). -/
def clearTaken (s : State) : State := { s with attentionTaken := none }

/-- A read of ATTENTION cut short clears nothing (R172, R177). -/
def dropTaken (s : State) : State := { s with attention := s.latches, attentionTaken := none }

end Sys2Proof.Machine
end

