-- ==== Sys2Proof/Machine/Grants.lean ====
section
/-! DEFINITION. The Grant Table's operations on one slot: the handle check (R5), the room match (R2), usability (R10), the reason notes (R12), one read of a grant search (R11), the claim (R13), the returned use (R14). -/

namespace Sys2Proof.Machine

open Sys2Proof

/-! ## Handles (R5) -/

/-- The three checks of a handle, in order: the slot's header, or the code the command is refused with. -/
def checkHandle (h : Handle) (s : State) : Except ResultCode SlotHeader × State :=
  if 1 ≤ h.slot ∧ h.slot ≤ Config.slots then
    let (header, s) := readSlotHeader h.slot s
    if header.state = .free then (.error .staleHandle, s)
    else if header.issue ≠ h.issue then (.error .staleHandle, s)
    else (.ok header, s)
  else (.error .badArgument, s)

/-! ## Usability (R2, R10) -/

/-- The key and the pattern hold the same value wherever the mask holds a one (R2). -/
def roomMatches (key pattern mask : Key) : Bool := (key ^^^ pattern) &&& mask == 0

/-- "Matching": same credential and room matched (R10 conditions 2 and 3). -/
def GrantRecord.matching (g : GrantRecord) (c : Credential) (key : Key) : Bool :=
  decide (g.credential = c) && roomMatches key g.pattern g.mask

/-- The allowance is absent, or a use remains (R10 condition 6). -/
def GrantRecord.hasUse (g : GrantRecord) : Bool :=
  match g.uses with
  | none => true
  | some u => decide (1 ≤ u.remaining)

/-- PENDING or ACTIVE (R10 condition 1). -/
def GrantState.inForce : GrantState → Bool
  | .pending | .active => true
  | .free | .spent | .suspended | .lapsed | .revoked | .faulted => false

/-- PENDING, ACTIVE, SPENT and SUSPENDED are the live states (R6). -/
def GrantState.live : GrantState → Bool
  | .pending | .active | .spent | .suspended => true
  | .free | .lapsed | .revoked | .faulted => false

/-- The six conditions of R10, for a grant in state `st`. -/
def GrantRecord.usable (g : GrantRecord) (st : GrantState) (c : Credential) (key : Key) (t : Minute) : Bool :=
  st.inForce && g.matching c key && g.inWindow t && g.inHoursAt t && g.hasUse

/-! ## Reason notes (R12) -/

def Notes.none : Notes := ⟨false, false, false, false, false⟩

/-- The lines of R12's table that a grant gives, added to the notes. A grant that is not matching gives none. -/
def Notes.add (n : Notes) (st : GrantState) (g : GrantRecord) (c : Credential) (key : Key) (t : Minute) : Notes :=
  if g.matching c key then
    match st with
    | .suspended => { n with suspended := n.suspended || g.inWindow t }
    | .spent => { n with usesSpent := n.usesSpent || g.inWindow t }
    | .pending | .active =>
      { n with
        outsideHours := n.outsideHours || (g.inWindow t && !g.inHoursAt t)
        outsideWindow := n.outsideWindow || !g.inWindow t }
    | .revoked => { n with revoked := true }
    | .free | .lapsed | .faulted => n
  else n

/-- The first line of R12's table that holds. -/
def Notes.reason (n : Notes) : DenyReason :=
  if n.suspended then .suspended
  else if n.usesSpent then .usesSpent
  else if n.outsideHours then .outsideHours
  else if n.outsideWindow then .outsideWindow
  else if n.revoked then .revoked
  else .noGrant

/-! ## The grant search (R11) -/

/-- A search before its first read. -/
def Search.start : Search := ⟨1, .none, .none⟩

/-- What one read of a search answers. -/
inductive SearchStep where
  | found (f : Search)
  | passed (f : Search)
  | exhausted (f : Search)
  deriving DecidableEq, Repr

/-- One read of a search, one operation on the slot at the cursor (R8, R11): FREE and FAULTED slots are passed on their
header alone. After slot 1024 the search is exhausted. -/
def searchRead (c : Credential) (key : Key) (t : Minute) (f : Search) (s : State) : SearchStep × State :=
  if Config.slots < f.cursor then (.exhausted f, s)
  else
    let k := f.cursor
    let (header, s) := readSlotHeader k s
    let f := { f with cursor := k + 1 }
    match header.state with
    | .free | .faulted => (.passed f, s)
    | .pending | .active | .spent | .suspended | .lapsed | .revoked =>
      let (body, s) := readSlotBody k s
      match body with
      | none => (.passed f, s)
      | some g =>
        if g.usable header.state c key t then (.found { f with found := some (⟨k, header.issue⟩, g.role) }, s)
        else (.passed { f with notes := f.notes.add header.state g c key t }, s)

/-! ## The claim (R13) -/

/-- The outcome of a claim: granted, or refused with the slot's present state and record where they can be read. -/
inductive ClaimOutcome where
  | granted (claim : Claim)
  | refused (present : Option (GrantState × GrantRecord))
  deriving DecidableEq, Repr

/-- The grant after one use is taken: its state and record, and whether a use was taken. -/
def takeUse (g : GrantRecord) : GrantState × GrantRecord × Bool :=
  match g.uses with
  | none => (.active, g, false)
  | some u =>
    let g' := { g with uses := some { u with remaining := u.remaining - 1 } }
    (if u.remaining - 1 = 0 then .spent else .active, g', true)

/-- A claim, one operation on the slot. A slot under a retire hold refuses it (R21). -/
def claimSlot (h : Handle) (c : Credential) (key : Key) (t : Minute) (s : State) : ClaimOutcome × State :=
  let (header, s) := readSlotHeader h.slot s
  match header.state with
  | .free | .faulted => (.refused none, s)
  | .pending | .active | .spent | .suspended | .lapsed | .revoked =>
    let (body, s) := readSlotBody h.slot s
    match body with
    | none => (.refused none, s)
    | some g =>
      if header.issue = h.issue ∧ g.usable header.state c key t = true ∧ s.retireHold ≠ some h.slot then
        let (st, g', taken) := takeUse g
        (.granted ⟨h, taken⟩, writeSlot h.slot ⟨st, header.issue⟩ g' s)
      else (.refused (some (header.state, g)), s)

/-- The search goes on after a refused claim: the slot enters the notes in its present state (R13). The cursor already
stands on the next slot. -/
def Search.afterRefusal (f : Search) (present : Option (GrantState × GrantRecord)) (c : Credential) (key : Key)
    (t : Minute) : Search :=
  match present with
  | none => { f with found := none }
  | some (st, g) => { f with found := none, notes := f.notes.add st g c key t }

/-! ## The returned use (R14) -/

/-- A returned use, one operation on the slot. -/
def returnUse (h : Handle) (s : State) : State :=
  let (header, s) := readSlotHeader h.slot s
  if header.state = .free ∨ header.issue ≠ h.issue ∨ header.state = .faulted then s
  else
    let (body, s) := readSlotBody h.slot s
    match body with
    | none => s
    | some g =>
      match g.uses with
      | none => s
      | some u =>
        if u.allowance ≤ u.remaining then s
        else
          let g' := { g with uses := some { u with remaining := u.remaining + 1 } }
          if header.state = .spent then
            let (now, s) := presentMinute s
            let st := if g.validFrom.atOrBefore now then GrantState.active else .pending
            writeSlot h.slot ⟨st, header.issue⟩ g' s
          else writeSlotBody h.slot g' s

/-- Return the uses of the claims that took one (R14). -/
def returnClaims (claims : List Claim) (s : State) : State :=
  claims.foldl (fun s c => if c.useTaken then returnUse c.handle s else s) s

/-! ## Free slots (R9) -/

/-- The lowest-numbered FREE slot among `count` slots from `k`, reading the headers of the listed slots it passes. -/
def findFreeSlot : Nat → Nat → State → Option Nat × State
  | 0, _, s => (none, s)
  | count + 1, k, s =>
    let (header, s) := readSlotHeader k s
    if header.state = .free then (some k, s) else findFreeSlot count (k + 1) s

end Sys2Proof.Machine
end

