-- ==== Sys2Proof/Machine/Presence.lean ====
section
/-! DEFINITION. The Presence Pool's operations (R54 to R61, R63): reading the index parts, the locate, the admission, confirmation and removal, the conditions and the notices that set them. -/

namespace Sys2Proof.Machine

open Sys2Proof

/-! ## The lists (R54) -/

/-- Read the index part of every record the pool lists: every operation of the pool begins so (log 38). -/
def scanIndexes (s : State) : State := (Table.keys s.presence).foldl (fun s id => (readIndex id s).2) s

/-- The numbers of the records in use, rising. -/
def State.inUseRecords (s : State) : List Nat := (Table.keys s.presence).filter (fun id => (s.index id).inUse)

/-- The records of a room's list, by record number. -/
def State.roomRecords (s : State) (r : Nat) : List Nat :=
  s.inUseRecords.filter (fun id => decide ((s.index id).room = r))

/-- The occupancy count (R46). -/
def State.occupancy (s : State) (r : Nat) : Nat := (s.roomRecords r).length

/-- The record at a place of a room's list. -/
def State.recordAt (s : State) (r place : Nat) : Option Nat :=
  (s.roomRecords r).find? (fun id => decide ((s.index id).place = place))

/-- So many of the lowest-numbered free records (log 10). -/
def State.freeRecordsFrom (s : State) : Nat → Nat → Nat → List Nat
  | 0, _, _ => []
  | count + 1, k, n =>
    if n = 0 then []
    else if (s.index k).inUse then State.freeRecordsFrom s count (k + 1) n
    else k :: State.freeRecordsFrom s count (k + 1) (n - 1)

def State.freeRecords (s : State) (n : Nat) : List Nat := s.freeRecordsFrom Config.presenceRecords 1 n

/-! ## Conditions (R59) -/

def Conditions.has (c : Conditions) : ConditionName → Bool
  | .overstay => c.overstay
  | .unescorted => c.unescorted
  | .grantRevoked => c.grantRevoked
  | .barred => c.barred
  | .grantCleared => c.grantCleared

def Conditions.put (c : Conditions) (b : Bool) : ConditionName → Conditions
  | .overstay => { c with overstay := b }
  | .unescorted => { c with unescorted := b }
  | .grantRevoked => { c with grantRevoked := b }
  | .barred => { c with barred := b }
  | .grantCleared => { c with grantCleared := b }

/-- Whether a setting on an UNSENT record raises PRESENCE ALERT at once (R59). -/
def ConditionName.alertsUnsent : ConditionName → Bool
  | .overstay | .unescorted => true
  | .grantRevoked | .barred | .grantCleared => false

/-- Set a condition on a record whose body has been read: nothing where it is present already. Answers whether a SENT
record was marked. -/
def setCondition (name : ConditionName) (id : Nat) (b : PresenceBody) (s : State) : Bool × State :=
  if b.conditions.has name then (false, s)
  else
    let sent := (s.index id).sent
    (sent, raiseIf (sent || name.alertsUnsent) .presenceAlert
      (writePresenceBody id { b with conditions := b.conditions.put true name } s))

/-- Clear a condition on a record whose body has been read; clearing raises nothing. Answers whether it was present. -/
def clearCondition (name : ConditionName) (id : Nat) (b : PresenceBody) (s : State) : Bool × State :=
  if b.conditions.has name then
    (true, writePresenceBody id { b with conditions := b.conditions.put false name } s)
  else (false, s)

/-- Do something to each record of a list whose body can be read, and count the answers `true`. -/
def forReadable (act : Nat → PresenceBody → State → Bool × State) : List Nat → State → Nat × State
  | [], s => (0, s)
  | id :: ids, s =>
    let (body, s) := readPresenceBody id s
    match body with
    | none => forReadable act ids s
    | some b =>
      let (marked, s) := act id b s
      let (n, s) := forReadable act ids s
      (n + marked.toNat, s)

/-! ## The locate (R56) -/

/-- Read every body of a list and answer the record whose credential is the one asked for. -/
def locateFrom (c : Credential) : List Nat → State → Option Nat × State
  | [], s => (none, s)
  | id :: ids, s =>
    let (body, s) := readPresenceBody id s
    let (later, s) := locateFrom c ids s
    match body with
    | none => (later, s)
    | some b => (if b.credential = c then some id else later, s)

/-- A locate, one operation of the pool. -/
def locate (c : Credential) (s : State) : Option Nat × State :=
  let s := scanIndexes s
  locateFrom c s.inUseRecords s

/-! ## Rooms as the pool changes them -/

/-- Change the body of a room that has just been read. -/
def updateRoomBody (r : Nat) (f : RoomBody → RoomBody) (s : State) : State :=
  writeRoomBody r (f (s.room r).body.value) s

/-- UNESCORTED set on those of the records that can be read. -/
def setUnescortedOn (ids : List Nat) (s : State) : State := (forReadable (setCondition .unescorted) ids s).2

/-- UNESCORTED cleared on those of the records that can be read and carry it. -/
def clearUnescortedOn (ids : List Nat) (s : State) : State := (forReadable (clearCondition .unescorted) ids s).2

/-- The CONTRACTOR records of a room's list. -/
def State.contractors (s : State) (r : Nat) : List Nat :=
  (s.roomRecords r).filter (fun id => decide ((s.index id).role = .contractor))

/-- UNESCORTED on every non-faulted CONTRACTOR record of a room's list (R61). -/
def markUnescorted (r : Nat) (s : State) : State := setUnescortedOn (s.contractors r) s

/-- UNESCORTED cleared on every record of a room's list (R57). -/
def clearUnescorted (r : Nat) (s : State) : State := clearUnescortedOn (s.roomRecords r) s

/-! ## Removal (R58) -/

/-- Take a record out of its list: it becomes free, and the records behind it move up one place. -/
def unlinkRecord (id : Nat) (s : State) : State :=
  let i := s.index id
  let s := s.setRecord id .free
  (s.roomRecords i.room).foldl (fun s k =>
    let j := s.index k
    if i.place < j.place then writeIndex k { j with place := j.place - 1 } s else s) s

/-- A record in use leaves its list, and with an ESCORT the escort count of a room that can be read falls. Answers whether the
last escort has left an ESCORTED room, where R61 applies. The room record is untouched where its body cannot be read. -/
def takeOut (id : Nat) (s : State) : Bool × State :=
  let i := s.index id
  let (view, s) := readRoomRecord i.room s
  let s := unlinkRecord id s
  match view with
  | .undefined | .faulted => (false, s)
  | .readable _ b =>
    if i.role = .escort then
      (decide (b.escorts = 1) && decide (b.cls = .escorted),
        updateRoomBody i.room (fun b => { b with escorts := b.escorts - 1 }) s)
    else (false, s)

/-- A removal of one record in use. -/
def removeRecord (id : Nat) (s : State) : State :=
  let (last, t) := takeOut id s
  if last then markUnescorted (s.index id).room t else t

/-- The removal of the UNSENT records of a permit (R58), one operation of the pool. A record that has left already is passed. -/
def removeUnsent (ids : List Nat) (s : State) : State :=
  let s := scanIndexes s
  ids.foldl (fun s id => if (s.index id).inUse && !(s.index id).sent then removeRecord id s else s) s

/-! ## Admission (R57) -/

/-- One record asked for by an admission. -/
structure Entrant where
  credential : Credential
  role : Role
  handle : Handle
  useTaken : Bool
  station : Nat
  partner : Option Credential
  /-- An overstay notice for the handle has been taken since the claim (R42, log 59). -/
  overstay : Bool
  deriving DecidableEq, Repr

/-- Whether a locate finds a record of one of the credentials, one locate for each. -/
def anyLocated : List Entrant → State → Bool × State
  | [], s => (false, s)
  | e :: rest, s =>
    let (found, s) := locate e.credential s
    let (later, s) := anyLocated rest s
    (found.isSome || later, s)

/-- The conditions of a new record: none (R57), but the OVERSTAY of a notice taken since its claim (R42; DEDUCED, log 59). -/
def Entrant.conditions (e : Entrant) : Conditions := { Conditions.none with overstay := e.overstay }

/-- Write the new records at the tail of the list, in the order named (R57). -/
def fillRecords (r : Nat) (now : Minute) : List Nat → List Entrant → Nat → State → State
  | id :: ids, e :: es, place, s =>
    fillRecords r now ids es (place + 1)
      (s.setRecord id
        ⟨.of ⟨true, r, place, e.role, false, e.useTaken, false⟩,
          .of ⟨e.credential, some e.handle, now, e.station, e.partner, e.conditions⟩⟩)
  | [], _, _, s => s
  | _ :: _, [], _, s => s

/-- The number of ESCORT records asked for. -/
def escortsIn (es : List Entrant) : Nat := (es.filter (fun e => decide (e.role = .escort))).length

/-- The new records at the tail of the list, with PRESENCE ALERT where one carries OVERSTAY (R42, R59), and the escort count. -/
def placeRecords (r : Nat) (_ : RoomBody) (es : List Entrant) (s : State) : List Nat × State :=
  let (now, s) := presentMinute s
  let ids := s.freeRecords es.length
  let s := raiseIf (es.any Entrant.overstay) .presenceAlert (fillRecords r now ids es (s.occupancy r + 1) s)
  (ids, if escortsIn es = 0 then s
    else updateRoomBody r (fun b => { b with escorts := b.escorts + escortsIn es }) s)

/-- Whether an admission clears UNESCORTED: an ESCORT enters an ESCORTED room. -/
def clearsUnescorted (b : RoomBody) (es : List Entrant) : Bool := decide (b.cls = .escorted) && decide (escortsIn es ≠ 0)

/-- What an admission does when its four checks have passed. -/
def admitAll (r : Nat) (b : RoomBody) (es : List Entrant) (s : State) : List Nat × State :=
  let (ids, s) := placeRecords r b es s
  (ids, if clearsUnescorted b es then clearUnescorted r s else s)

/-- The four checks of an admission, and what is done when they have passed. -/
def admissionWith (act : Nat → RoomBody → List Entrant → State → List Nat × State) (r : Nat) (es : List Entrant)
    (s : State) : Except DenyReason (List Nat) × State :=
  let s := scanIndexes s
  let (view, s) := readRoomRecord r s
  match view with
  | .undefined | .faulted => (.error .roomFault, s)
  | .readable _ b =>
    let (present, s) := anyLocated es s
    if present then (.error .passback, s)
    else if b.limit < s.occupancy r + es.length then (.error .roomFull, s)
    else if (s.freeRecords es.length).length < es.length then (.error .presenceFull, s)
    else
      let (ids, s) := act r b es s
      (.ok ids, s)

/-- An admission, one operation of the pool: the new records, or the reason it is refused with. -/
def admission (r : Nat) (es : List Entrant) (s : State) : Except DenyReason (List Nat) × State := admissionWith admitAll r es s

/-! ## Confirmation (R58) -/

/-- A condition of a kind that a confirmation reports. -/
def Conditions.reportable (c : Conditions) : Bool := c.grantRevoked || c.barred || c.grantCleared

/-- A confirmation of one record: SENT, and PRESENCE ALERT once where such a condition stands (log 26). -/
def confirmRecord (id : Nat) (s : State) : State :=
  let (i, s) := readIndex id s
  if i.inUse then
    let (body, s) := readPresenceBody id s
    let s := writeIndex id { s.index id with sent := true } s
    match body with
    | none => s
    | some b => raiseIf b.conditions.reportable .presenceAlert s
  else s

/-! ## Notices to the pool (R59, R60) -/

/-- The non-faulted records of a list are those whose bodies can be read; of these, act on each that holds a handle. -/
def forHoldersIn (h : Handle) (act : Nat → PresenceBody → State → Bool × State) (ids : List Nat) (s : State) :
    Nat × State :=
  forReadable (fun id b s => if b.handle = some h then act id b s else (false, s)) ids s

/-- The same over every record in use. -/
def forHolders (h : Handle) (act : Nat → PresenceBody → State → Bool × State) (s : State) : Nat × State :=
  let s := scanIndexes s
  forHoldersIn h act s.inUseRecords s

/-- The overstay notice, on the records in use (R42, R59); a permit whose record is yet to be admitted is overstayHand's. -/
def poolOverstay (h : Handle) (s : State) : State := (forHolders h (setCondition .overstay) s).2

/-- The revoke notice: the number of SENT records marked (R60). -/
def poolRevoke (h : Handle) (s : State) : Nat × State := forHolders h (setCondition .grantRevoked) s

/-- Whether a record holds a handle against RETIRE GRANT (R21, R63). -/
def poolHolds (h : Handle) (s : State) : Bool × State :=
  let (n, s) := forHolders h (fun _ _ s => (true, s)) s
  (decide (n ≠ 0), s)

/-- The bar notice: whether a SENT record was marked (R60). -/
def poolBar (c : Credential) (s : State) : Bool × State :=
  let (found, s) := locate c s
  match found with
  | none => (false, s)
  | some id => setCondition .barred id (s.record id).body.value s

/-- The unbar notice: whether a record was cleared (R60). -/
def poolUnbar (c : Credential) (s : State) : Bool × State :=
  let (found, s) := locate c s
  match found with
  | none => (false, s)
  | some id => clearCondition .barred id (s.record id).body.value s

/-- The marking for the tamper notice: no handles, GRANT CLEARED on every non-faulted record of a list (R60). -/
def markCleared (ids : List Nat) (s : State) : State :=
  (forReadable (fun id b s =>
      let b := { b with handle := none }
      setCondition .grantCleared id b (writePresenceBody id b s)) ids s).2

/-- The records in use that a marking for the tamper notice has not reached. -/
def State.unmarked (s : State) : List Nat := s.inUseRecords.filter (fun id => decide (s.markedTo ≤ id))

/-- The tamper notice: every record in use is marked, from where a marking cut short has stopped (R60, R168). -/
def poolTamper (s : State) : State :=
  let s := scanIndexes s
  { markCleared s.unmarked s with markedTo := 0 }

/-! ## Walks cut short (R160, R168) -/

/-- So many more records are marked for the tamper notice, and the marking stops there. -/
def markSome (reached : Nat) (s : State) : State :=
  let s := scanIndexes s
  let ids := s.unmarked.take reached
  { markCleared ids s with markedTo := (ids.getLast?.map (· + 1)).getD s.markedTo }

/-- The bodies of a list are read, and nothing else is done. -/
def readBodies (ids : List Nat) (s : State) : State := (forReadable (fun _ _ s => (false, s)) ids s).2

end Sys2Proof.Machine
end

