-- ==== Sys2Proof/Machine/Verdicts.lean ====
section
/-! DEFINITION. The Verdict Queue and what it tells the station table: places (R82), reports (R81, R144), placing and converting entries (R85), undoing a permit (R76), withdrawal (R87) and outright removal (R90), and the handing of entries to a MARK (R86). -/

namespace Sys2Proof.Machine

open Sys2Proof

/-! ## Places (R82, log 29) -/

def ReferralEntry.isApproval (e : ReferralEntry) : Bool :=
  match e.kind with
  | .approval _ _ _ _ => true
  | .hotCard _ => false

/-- The context in a slot, HELD or OPEN; `none` for a FREE slot (R92). -/
def State.pair (s : State) (slot : Nat) : Option PairContext := Table.get none s.pairs slot

def State.setPair (s : State) (slot : Nat) (c : Option PairContext) : State :=
  { s with pairs := Table.set none s.pairs slot c }

/-- The slots that hold an open context, rising. -/
def State.openPairs (s : State) : List Nat :=
  (numbersFrom 1 Config.pairSlots).filter (fun k => (s.pair k).isSome)

/-- One reservation for each open context and each approval. -/
def State.reservations (s : State) : Nat := s.openPairs.length + (s.referrals.filter ReferralEntry.isApproval).length

def State.heldPlaces (s : State) : Nat :=
  match s.seat with
  | none => 0
  | some d => d.heldPlaces

/-- The free places: 48 less the entries, the reservations and the held places. -/
def State.freePlaces (s : State) : Nat :=
  Config.verdictPlaces - (s.verdicts.length + s.reservations + s.heldPlaces)

/-! ## Reports to the station table (R81, R144) -/

def Verdict.isInterim : Verdict → Bool
  | .hold | .referWait => true
  | .permit | .permitPair | .deny | .exit => false

/-- An answer record for a verdict just placed. -/
def answerOf (q : Sequence) (v : Verdict) (r : Option DenyReason) : AnswerRecord := ⟨q, v, r, false, v.isInterim⟩

/-- A decided verdict placed. -/
def reportPlaced (k : Nat) (q : Sequence) (v : Verdict) (r : Option DenyReason) (s : State) : State :=
  updateStation k (fun st => { st with answer := some (answerOf q v r) }) s

/-- Whether a conversion of a sequence leaves the answer record as it is: it names another sequence with open no (log 19). -/
def AnswerRecord.keptAgainst (a : AnswerRecord) (q : Sequence) : Bool := !a.isOpen && decide (a.sequence ≠ q)

/-- A reservation converted into its final verdict, other than by a pair completion. -/
def reportConverted (k : Nat) (q : Sequence) (v : Verdict) (r : Option DenyReason) (s : State) : State :=
  updateStation k (fun st =>
    match st.answer with
    | none => { st with answer := some (answerOf q v r) }
    | some a => if a.keptAgainst q then st else { st with answer := some (answerOf q v r) }) s

/-- A permit withdrawn in place. -/
def reportWithdrawn (k : Nat) (q : Sequence) (r : DenyReason) (s : State) : State :=
  updateStation k (fun st =>
    match st.answer with
    | none => st
    | some a => if a.sequence = q then { st with answer := some { a with verdict := .deny, reason := some r } } else st) s

/-- The in-flight set without a sequence. -/
def withoutSequence (set : BitVec 16) (q : Sequence) : BitVec 16 := set &&& ~~~(BitVec.twoPow 16 q.toNat)

/-- The in-flight set with a sequence. -/
def withSequence (set : BitVec 16) (q : Sequence) : BitVec 16 := set ||| BitVec.twoPow 16 q.toNat

/-- An entry removed outright: its sequence is forgotten. -/
def reportRemoved (k : Nat) (q : Sequence) (s : State) : State :=
  updateStation k (fun st =>
    { st with
      inFlight := withoutSequence st.inFlight q
      answer := match st.answer with
        | none => none
        | some a => if a.sequence = q then none else some a }) s

/-- A request has left the part without a verdict: its sequence leaves the in-flight set, but where the Request Queue holds
a later request of that station and sequence (R144). -/
def forgetRequest (k : Nat) (q : Sequence) (s : State) : State :=
  if s.requests.any (fun r => decide (r.station = k ∧ r.sequence = q)) then s
  else updateStation k (fun st => { st with inFlight := withoutSequence st.inFlight q }) s

/-- The Request Queue removes entries; the others keep their order (R67, R140). -/
def removeRequests (which : Request → Bool) (s : State) : State :=
  (s.requests.filter which).foldl (fun s r => forgetRequest r.station r.sequence s)
    { s with requests := s.requests.filter (fun r => !which r) }

/-- A reservation freed without a verdict. -/
def reportFreed (k : Nat) (s : State) : State :=
  updateStation k (fun st =>
    match st.answer with
    | none => st
    | some a => if a.isOpen then { st with answer := none } else st) s

/-- An entry handed to a MARK: one of origin REPEAT changes nothing. -/
def reportSent (e : VerdictEntry) (s : State) : State :=
  if e.repeated then s
  else updateStation e.station (fun st =>
    { st with
      inFlight := withoutSequence st.inFlight e.sequence
      answer := match st.answer with
        | none => none
        | some a => if a.sequence = e.sequence then some { a with sent := true } else some a }) s

/-! ## Placing (R83, R85) -/

/-- An entry joins the tail. -/
def appendEntry (e : VerdictEntry) (s : State) : State := { s with verdicts := s.verdicts ++ [e] }

/-- A decided verdict without a permit, placed and reported. -/
def placeVerdict (k : Nat) (q : Sequence) (v : Verdict) (r : Option DenyReason) (s : State) : State :=
  reportPlaced k q v r (appendEntry ⟨k, q, v, r, false, none⟩ s)

/-- A reservation becomes a DENY at the tail; its context or approval has left its block (R85). -/
def convertDeny (k : Nat) (q : Sequence) (r : DenyReason) (s : State) : State :=
  reportConverted k q .deny (some r) (appendEntry ⟨k, q, .deny, some r, false, none⟩ s)

/-! ## Losses and stops on their way to the blocks (R132, R140) -/

/-- A notice that ends a station's work: its loss, or the stop of the link. -/
def Notice.endsStation (n : Notice) (k : Nat) : Bool :=
  match n with
  | .loss j => decide (j = k)
  | .stop => true
  | .revoke _ | .bar _ | .unbar _ | .overstay _ | .stationFault _ | .mode _ | .tamper => false

/-- Such a notice has been given to a block, which has not taken it. -/
def State.told (s : State) (b : Block) (k : Nat) : Bool :=
  s.notices.any (fun o => decide (o.receiver = b) && o.notice.endsStation k)

/-- The Decision Engine has taken it and the block has not: what the block still holds for the station is as good as
removed, for the Verdict Queue is to hold nothing of it (R90, R102, R140; log 52). -/
def State.endedAt (s : State) (b : Block) (k : Nat) : Bool := s.told b k && !s.told .decisionEngine k

/-- The block has taken it and the Decision Engine has not: the decision in hand opens nothing there any more (log 52). -/
def State.closedAt (s : State) (b : Block) (k : Nat) : Bool := s.told .decisionEngine k && !s.told b k

/-- A block's reservation ends with a DENY, but where the Decision Engine has already emptied the station's part of the
Verdict Queue: then it is freed. -/
def denyReservation (b : Block) (k : Nat) (q : Sequence) (r : DenyReason) (s : State) : State :=
  if s.endedAt b k then reportFreed k s else convertDeny k q r s

/-! ## Undoing, withdrawal, outright removal -/

/-- The records of a permit are removed and its uses returned (R76, R87, R90). -/
def undoData (claims : List Claim) (records : List Nat) (s : State) : State :=
  returnClaims claims (removeUnsent records s)

def undoPermitData (p : Option PermitData) (s : State) : State :=
  match p with
  | none => s
  | some p => undoData p.claims p.records s

/-- An entry holds a permit of the kind asked for. -/
def VerdictEntry.holds (e : VerdictEntry) (which : PermitData → Bool) : Bool :=
  match e.permit with
  | none => false
  | some p => which p

/-- The entry after a withdrawal: its place, station, sequence and origin stay (R87). -/
def VerdictEntry.withdrawn (e : VerdictEntry) (r : DenyReason) : VerdictEntry :=
  { e with verdict := .deny, reason := some r, permit := none }

/-- Withdrawal in place of every permit entry of a kind: how many, and the state after (R87). DESIGN CHOICE (log 47): the
UNSENT records go entry by entry from the oldest, the first credential's before the second's. -/
def withdrawWhere (which : PermitData → Bool) (r : DenyReason) (s : State) : Nat × State :=
  let hit := s.verdicts.filter (fun e => e.holds which)
  let s := { s with verdicts := s.verdicts.map (fun e => if e.holds which then e.withdrawn r else e) }
  (hit.length, hit.foldl (fun s e => reportWithdrawn e.station e.sequence r (undoPermitData e.permit s)) s)

/-- Outright removal of every entry of a kind (R90). -/
def removeEntries (which : VerdictEntry → Bool) (s : State) : State :=
  let hit := s.verdicts.filter which
  let s := { s with verdicts := s.verdicts.filter (fun e => !which e) }
  hit.foldl (fun s e => reportRemoved e.station e.sequence (undoPermitData e.permit s)) s

def PermitData.holdsHandle (h : Handle) (p : PermitData) : Bool := p.claims.any (fun c => decide (c.handle = h))
def PermitData.holdsCredential (c : Credential) (p : PermitData) : Bool := p.credentials.contains c
def PermitData.holdsRecord (id : Nat) (p : PermitData) : Bool := p.records.contains id

/-! ## The handing to a MARK (R86) -/

/-- What sending one entry does: its records are confirmed and the station table is told. -/
def sendEntry (e : VerdictEntry) (s : State) : State :=
  reportSent e ((match e.permit with
    | none => []
    | some p => p.records).foldl (fun s id => confirmRecord id s) s)

/-- The oldest entries, up to 8, leave the queue and are sent. -/
def handOver (s : State) : List VerdictEntry × State :=
  let out := s.verdicts.take Config.markVerdicts
  let s := { s with verdicts := s.verdicts.drop Config.markVerdicts }
  (out, out.foldl (fun s e => sendEntry e s) s)

/-! ## Notices to the Decision Engine (R77, R87 to R90) -/

/-- Change the decision in hand, if any. -/
def updateSeat (f : Decision → Decision) (s : State) : State :=
  { s with seat := s.seat.map f }

/-- A claim on the handle is in hand, and its record is yet to be admitted. -/
def Decision.awaitsRecord (d : Decision) (h : Handle) : Bool := d.records.isEmpty && d.claims.any (fun c => decide (c.handle = h))

/-- The permit of a claim in hand is one that the overstay notice reaches: its record will carry OVERSTAY (R42, R44). DEDUCED (log
59): the decision in hand keeps the notice until the admission. -/
def Decision.overstay (h : Handle) (d : Decision) : Decision :=
  if d.awaitsRecord h ∧ h ∉ d.overstayed then { d with overstayed := h :: d.overstayed } else d

/-- The overstay notice, on the permit of the decision in hand. -/
def overstayHand (h : Handle) (s : State) : State := updateSeat (Decision.overstay h) s

/-- A withdrawal mark is set where none stands (R77). -/
def Decision.marked (d : Decision) (m : WithdrawalMark) : Decision :=
  match d.mark with
  | none => { d with mark := some m }
  | some _ => d

/-- The credentials of the decision in hand: the request's, and the first card's of a completion (R77). -/
def decisionCredentials (s : State) (d : Decision) : List Credential :=
  match d.holding with
  | .completing slot =>
    match s.pair slot with
    | none => [d.credential]
    | some c => [d.credential, c.credential]
  | .none | .openingPair _ | .openingApproval _ => [d.credential]

/-- The Decision Engine takes a revoke notice. -/
def engineRevoke (h : Handle) (s : State) : Nat × State :=
  let (n, s) := withdrawWhere (PermitData.holdsHandle h) .revoked s
  (n, updateSeat (fun d => if d.claims.any (fun c => decide (c.handle = h)) then d.marked .revoked else d) s)

/-- The Decision Engine takes a bar notice. -/
def engineBar (c : Credential) (s : State) : Nat × State :=
  let (n, s) := withdrawWhere (PermitData.holdsCredential c) .barred s
  (n, updateSeat (fun d => if (decisionCredentials s d).contains c then d.marked .barred else d) s)

/-- The Decision Engine takes a mode notice (R156). -/
def engineMode (m : BuildingMode) (s : State) : Nat × State :=
  match m with
  | .lockdown => withdrawWhere (fun _ => true) .lockdown s
  | .fire | .normal => (0, s)

/-- The Decision Engine takes a tamper notice. -/
def engineTamper (s : State) : State := (withdrawWhere (fun _ => true) .tamper s).2

/-- The Decision Engine takes a loss notice. -/
def engineLoss (k : Nat) (s : State) : State :=
  updateSeat (fun d => if d.station = k then { d with abandoned := true } else d)
    (removeEntries (fun e => decide (e.station = k)) s)

/-- The Decision Engine takes the stop notice. -/
def engineStop (s : State) : State :=
  updateSeat (fun d => { d with abandoned := true }) (removeEntries (fun _ => true) s)

end Sys2Proof.Machine
end

