-- ==== Sys2Proof/Machine/Contexts.lean ====
section
/-! DEFINITION. The Pair Table and the Referral Queue: closures (R102, R124), expiry and timeout (R101, R119), reference numbers (R114), hot cards (R126), and the queries of other blocks (R103, R125). -/

namespace Sys2Proof.Machine

open Sys2Proof

/-! ## Closure causes (R102, R124) -/

/-- The reason a closure puts in the reservation; `none` for the no-verdict kind. -/
def ClosureCause.reason : ClosureCause → Option DenyReason
  | .newRequest | .stationLost | .stopLink => none
  | .revokeNotice => some .revoked
  | .barNotice => some .barred
  | .lockdown => some .lockdown
  | .fire => some .fire
  | .tamperNotice => some .tamper
  | .stationFault => some .stationFault

/-- The cause of a mode notice; a change to NORMAL gives none (R152). -/
def modeCause : BuildingMode → Option ClosureCause
  | .lockdown => some .lockdown
  | .fire => some .fire
  | .normal => none

/-- Record a pending closure: a no-verdict cause replaces a recorded reason, otherwise the first stands. -/
def recordClosure (recorded : Option ClosureCause) (new : ClosureCause) : Option ClosureCause :=
  match recorded with
  | none => some new
  | some old => if old.reason.isSome && new.reason.isNone then some new else some old

/-- What becomes of a block's reservation when its context or approval closes: a DENY at the tail, or freed. -/
def closeReservation (b : Block) (k : Nat) (q : Sequence) (cause : ClosureCause) (s : State) : State :=
  match cause.reason with
  | some r => denyReservation b k q r s
  | none => reportFreed k s

/-! ## Pair contexts -/

/-- Close the context of a slot: the slot is FREE and its reservation is settled. -/
def closePair (slot : Nat) (c : PairContext) (cause : ClosureCause) (s : State) : State :=
  closeReservation .pairTable c.station c.sequence cause (s.setPair slot none)

/-- A context expires: DENY PAIR TIMEOUT for its first sequence (R101). -/
def expirePair (slot : Nat) (c : PairContext) (s : State) : State :=
  denyReservation .pairTable c.station c.sequence .pairTimeout (s.setPair slot none)

/-- One closure on one slot: whether a context closed by it (R102). -/
def closeSlot (which : PairContext → Bool) (cause : ClosureCause) (slot : Nat) (s : State) : Bool × State :=
  match s.pair slot with
  | none => (false, s)
  | some c =>
    if which c then
      if c.held then (false, s.setPair slot (some { c with closure := recordClosure c.closure cause }))
      else (true, closePair slot c cause s)
    else (false, s)

def closeSlots (which : PairContext → Bool) (cause : ClosureCause) : List Nat → State → Nat × State
  | [], s => (0, s)
  | k :: ks, s =>
    let (closed, s) := closeSlot which cause k s
    let (n, s) := closeSlots which cause ks s
    (n + closed.toNat, s)

/-- A closure cause reaches the Pair Table: how many contexts it closed (R102, slots in order, log 24). -/
def closePairs (which : PairContext → Bool) (cause : ClosureCause) (s : State) : Nat × State :=
  closeSlots which cause (numbersFrom 1 Config.pairSlots) s

/-- A context returns from HELD to OPEN after a decision (R99, R102): a pending closure is carried out, a context at 0
expires, any other waits on. -/
def returnToOpen (slot : Nat) (s : State) : State :=
  match s.pair slot with
  | none => s
  | some c =>
    match c.closure with
    | some cause => closePair slot c cause s
    | none =>
      if c.seconds = 0 then expirePair slot c s else s.setPair slot (some { c with held := false })

/-- A context that an abandoned decision leaves (R102, log 18): a pending closure is carried out; where the Pair Table has
still to take the cause, the context is OPEN when it comes; a context that no cause will reach is freed. -/
def abandonContext (slot : Nat) (s : State) : State :=
  match s.pair slot with
  | none => s
  | some c =>
    match c.closure with
    | some cause => closePair slot c cause s
    | none =>
      if s.told .pairTable c.station then s.setPair slot (some { c with held := false })
      else reportFreed c.station (s.setPair slot none)

/-- The slot of the open context at a station (R70, R103). -/
def State.pairAt (s : State) (k : Nat) : Option Nat :=
  s.openPairs.find? (fun slot => (s.pair slot).any (fun c => decide (c.station = k)))

/-- Whether an open context satisfies a question (R103). -/
def State.anyPair (s : State) (which : PairContext → Bool) : Bool :=
  s.openPairs.any (fun slot => (s.pair slot).any which)

/-- The lowest-numbered FREE slot (R94). -/
def State.freePairSlot (s : State) : Option Nat :=
  (numbersFrom 1 Config.pairSlots).find? (fun k => (s.pair k).isNone)

/-- A second tick on the context of a slot, one operation (R101): the count falls, not below 0; an OPEN context that is at
0 then expires. -/
def tickSlot (s : State) (slot : Nat) : State :=
  match s.pair slot with
  | none => s
  | some c =>
    if c.held = false ∧ c.seconds ≤ 1 then expirePair slot c s
    else s.setPair slot (some { c with seconds := c.seconds - 1 })

/-- A second tick on every context (R101, slots in order, log 24). -/
def tickPairs (s : State) : State := s.openPairs.foldl tickSlot s

/-! ## Referral entries -/

/-- The handle, state, seconds and pending closure of an approval. -/
structure ApprovalView where
  handle : Handle
  state : ApprovalState
  seconds : Nat
  closure : Option ClosureCause
  deriving DecidableEq, Repr

def ReferralEntry.approval? (e : ReferralEntry) : Option ApprovalView :=
  match e.kind with
  | .approval h st n c => some ⟨h, st, n, c⟩
  | .hotCard _ => none

/-- The entry with its approval part written. -/
def ReferralEntry.withApproval (e : ReferralEntry) (a : ApprovalView) : ReferralEntry :=
  { e with kind := .approval a.handle a.state a.seconds a.closure }

/-- WAITING and TAKEN approvals close at once; OPENING and ANSWERING record the cause (R124). -/
def ApprovalState.closable : ApprovalState → Bool
  | .waiting | .taken => true
  | .opening | .answering => false

/-- The entry with a reference (R113). -/
def State.referral (s : State) (reference : Nat) : Option ReferralEntry :=
  s.referrals.find? (fun e => decide (e.reference = reference))

/-- An entry leaves the queue. -/
def dropReferral (reference : Nat) (s : State) : State :=
  { s with referrals := s.referrals.filter (fun e => decide (e.reference ≠ reference)) }

/-- Write the entry of a reference in its place. -/
def writeReferral (new : ReferralEntry) (s : State) : State :=
  { s with referrals := s.referrals.map (fun e => if e.reference = new.reference then new else e) }

/-- The approval part of an entry that a cause reaches. -/
def reachedApproval (which : ReferralEntry → ApprovalView → Bool) (e : ReferralEntry) : Option ApprovalView :=
  match e.approval? with
  | none => none
  | some a => if which e a then some a else none

/-- A closure on one entry: whether an approval closed by it (R124). -/
def closeEntry (which : ReferralEntry → ApprovalView → Bool) (cause : ClosureCause) (e : ReferralEntry) (s : State) :
    Bool × State :=
  match reachedApproval which e with
  | none => (false, s)
  | some a =>
    if a.state.closable then (true, closeReservation .referralQueue e.station e.sequence cause (dropReferral e.reference s))
    else (false, writeReferral (e.withApproval { a with closure := recordClosure a.closure cause }) s)

def closeEntries (which : ReferralEntry → ApprovalView → Bool) (cause : ClosureCause) :
    List ReferralEntry → State → Nat × State
  | [], s => (0, s)
  | e :: es, s =>
    let (closed, s) := closeEntry which cause e s
    let (n, s) := closeEntries which cause es s
    (n + closed.toNat, s)

/-- A closure cause reaches the Referral Queue: how many approvals it closed (R124, oldest first, log 24). -/
def closeApprovals (which : ReferralEntry → ApprovalView → Bool) (cause : ClosureCause) (s : State) : Nat × State :=
  closeEntries which cause s.referrals s

/-- An approval times out: DENY REFERRAL TIMEOUT for its sequence (R119). -/
def timeoutApproval (e : ReferralEntry) (s : State) : State :=
  denyReservation .referralQueue e.station e.sequence .referralTimeout (dropReferral e.reference s)

/-- A second tick on an entry, one operation (R119): the count of a WAITING or TAKEN approval falls, and at 0 it times
out. -/
def tickEntry (s : State) (e : ReferralEntry) : State :=
  match e.approval? with
  | none => s
  | some a =>
    if a.state.closable then
      if a.seconds ≤ 1 then timeoutApproval e s else writeReferral (e.withApproval { a with seconds := a.seconds - 1 }) s
    else s

/-- A second tick on every entry (R119, oldest first, log 24). -/
def tickReferrals (s : State) : State := s.referrals.foldl tickEntry s

/-- Whether an approval satisfies a question (R125). -/
def State.anyApproval (s : State) (which : ReferralEntry → ApprovalView → Bool) : Bool :=
  s.referrals.any (fun e => (reachedApproval which e).isSome)

/-! ## Reference numbers (R114) -/

/-- The number tried after a number: 1 follows 65535. -/
def nextReference (n : Nat) : Nat := if n = 65535 then 1 else n + 1

/-- The first number from `n` that no entry holds, within so many tries. -/
def freeReference (s : State) : Nat → Nat → Nat
  | 0, n => n
  | tries + 1, n => if (s.referral n).isSome then freeReference s tries (nextReference n) else n

/-- Create an entry with the number found, at the tail; the counter takes the number after it. -/
def createEntry (k : Nat) (c : Credential) (room : Nat) (q : Sequence) (kind : ReferralKind) (s : State) :
    Nat × State :=
  let (now, s) := presentMinute s
  let n := freeReference s 16 s.referenceCounter
  (n, { s with referrals := s.referrals ++ [⟨n, k, c, room, q, now, kind⟩], referenceCounter := nextReference n })

/-- The number of HOT CARD entries. -/
def State.hotCards (s : State) : Nat := (s.referrals.filter (fun e => !e.isApproval)).length

/-- The number of APPROVAL entries. -/
def State.approvals (s : State) : Nat := (s.referrals.filter ReferralEntry.isApproval).length

/-- A bar hit asks for a HOT CARD entry (R126). -/
def createHotCard (k : Nat) (c : Credential) (room : Nat) (q : Sequence) (s : State) : State :=
  if s.hotCards < Config.hotCards then raise .hotCard (createEntry k c room q (.hotCard false) s).2
  else raise .hotCardOverflow s

end Sys2Proof.Machine
end

