-- ==== Sys2Proof/Machine/Bars.lean ====
section
/-! DEFINITION. The Bar List: the search of its entries (R106, R107, R109), the membership test (R107), insertion and removal (R109, R110), a page (R111) and the collection of CLEAR BAR LIST (R112). -/

namespace Sys2Proof.Machine

open Sys2Proof

/-- What a search of the entries finds: the credential at a position, the position where it would stand, or an
entry that cannot be read. -/
inductive BarSearch where
  | found (position : Nat)
  | absent (position : Nat)
  | fault
  deriving DecidableEq, Repr

/-- Read so many entries from a position on, in ascending order, until the credential or a greater one is reached. -/
def searchBars (c : Credential) : Nat → Nat → State → BarSearch × State
  | 0, position, s => (.absent position, s)
  | count + 1, position, s =>
    let (entry, s) := readBarEntry position s
    match entry with
    | none => (.fault, s)
    | some e =>
      if e = c then (.found position, s)
      else if c.toNat < e.toNat then (.absent position, s)
      else searchBars c count (position + 1) s

/-- The number of entries held: the header's count (log 39). -/
def barCount (h : BarHeader) (s : State) : Nat := min h.count s.barEntries.length

/-- The answers of a membership test (R107). -/
inductive BarAnswer where
  | fault | barred | notBarred
  deriving DecidableEq, Repr

/-- A membership test, one operation of the list. -/
def membership (c : Credential) (s : State) : BarAnswer × State :=
  let (h, s) := readBarHeader s
  if h.doubtful then (.fault, s)
  else
    let (found, s) := searchBars c (barCount h s) 1 s
    match found with
    | .fault => (.fault, s)
    | .found _ => (.barred, s)
    | .absent _ => (.notBarred, s)

/-- Insert a credential at a position; the entries from there on move up one (R109). -/
def insertBar (position : Nat) (c : Credential) (h : BarHeader) (s : State) : State :=
  { s with
    barEntries := s.barEntries.take (position - 1) ++ .of c :: s.barEntries.drop (position - 1)
    barHeader := .of { h with count := h.count + 1 } }

/-- Remove the entry at a position; the entries above it move down one (R110). -/
def removeBar (position : Nat) (h : BarHeader) (s : State) : State :=
  { s with
    barEntries := s.barEntries.eraseIdx (position - 1)
    barHeader := .of { h with count := h.count - 1 } }

/-- Read so many positions from one on; a position in the set of faulted positions is not read again (R106, R111). -/
def readPositions (faulted : List Nat) : Nat → Nat → State → List (Option Credential) × State
  | 0, _, s => ([], s)
  | count + 1, position, s =>
    let (entry, s) := if faulted.contains position then (none, s) else readBarEntry position s
    let (rest, s) := readPositions faulted count (position + 1) s
    (entry :: rest, s)

/-- The list emptied and GOOD (R112). -/
def emptyBars (s : State) : State := { s with barEntries := [], barHeader := .of .cleared }

end Sys2Proof.Machine
end

