-- ==== Sys2Proof/Machine/Modes.lean ====
section
/-! DEFINITION. The Mode Controller (R151 to R153), the tamper logic (R167, R168), the Window Sweep (R39 to R43), and the taking of notices. -/

namespace Sys2Proof.Machine

open Sys2Proof

/-! ## Notices -/

/-- The oldest outstanding notice of a kind for a block. DESIGN CHOICE (log 55): an older one of another kind does not
keep it waiting. -/
def State.outstanding (s : State) (b : Block) (kind : Notice → Bool) : Option Outstanding :=
  s.notices.find? (fun o => decide (o.receiver = b) && kind o.notice)

/-- The notice leaves the list as its block takes it. -/
def takeNotice (o : Outstanding) (s : State) : State := { s with notices := s.notices.erase o }

def Notice.isTamper : Notice → Bool
  | .tamper => true
  | .revoke _ | .bar _ | .unbar _ | .overstay _ | .loss _ | .stop | .stationFault _ | .mode _ => false

/-! ## The building mode (R151, R152) -/

/-- The table of R151. -/
def deriveMode (fire lockdown override : Bool) : BuildingMode :=
  if fire then .fire else if lockdown || override then .lockdown else .normal

/-- The blocks that receive a mode notice. -/
def modeReceivers : List Block := [.decisionEngine, .pairTable, .referralQueue]

/-- Derive the mode again. A change raises MODE CHANGE; a change to LOCKDOWN or FIRE gives a mode notice, where `give`
says that a notice is given at all (R152; log 22 for a reset). -/
def settleMode (give ofCommand : Bool) (s : State) : State :=
  let m := deriveMode s.fireLevel s.lockdownLevel s.override
  if m = s.mode then s
  else
    let s := raise .modeChange { s with mode := m }
    if give && decide (m ≠ .normal) then giveNotices modeReceivers (.mode m) ofCommand s else s

/-- The Mode Controller takes a line at a level (R152). -/
def takeLine (line : AlarmLine) (asserted give : Bool) (s : State) : State :=
  settleMode give false (match line with
    | .fire => { s with fireLevel := asserted }
    | .lockdown => { s with lockdownLevel := asserted })

/-- The Mode Controller at a reset: NORMAL, override clear, no level taken yet (R153). -/
def resetMode (s : State) : State :=
  { s with mode := .normal, override := false, fireLevel := false, lockdownLevel := false }

/-- The lines taken after a reset, FIRE first (R153). -/
def takeLinesAfterReset (s : State) : State :=
  takeLine .lockdown s.lockdownPin false (takeLine .fire s.firePin false s)

/-! ## The tamper logic (R167, R168) -/

/-- The blocks that receive a tamper notice: all four while they run; else the tamper logic marks the presence records
itself, and the other three hold nothing. -/
def tamperReceivers (s : State) : List Block :=
  if s.awake then [.decisionEngine, .pairTable, .referralQueue, .presencePool] else [.presencePool]

/-- A tamper clear starts (R168 steps 1 and 2). -/
def startTamperClear (s : State) : State :=
  let s := raise .tamper (writeTamper ⟨true, true, false, 1⟩ { s with markedTo := 0 })
  giveNotices (tamperReceivers s) .tamper false s

/-- The clear ends when slot 1024 has been freed and every block has taken its notice (R168 step 4): IDLE, or a new
clear where one is owed. -/
def settleTamper (s : State) : State :=
  let (t, s) := readTamper s
  if t.clearing ∧ Config.slots < t.cursor ∧ s.notices.any (fun o => o.notice.isTamper) = false then
    if t.reclear then startTamperClear s
    else writeTamper { t with clearing := false, cursor := 1 } s
  else s

/-- A tamper clear in progress is abandoned: IDLE, with no clear owed, no marking to go on and no notice to take (R171). -/
def abandonClear (s : State) : State :=
  let (t, s) := readTamper s
  if t.clearing then
    { writeTamper { t with clearing := false, reclear := false, cursor := 1 } s with
      markedTo := 0
      notices := s.notices.filter (fun o => !o.notice.isTamper) }
  else s

/-- CLEAR RETAINED is under way: a tamper clear is abandoned, be it one that an assertion has started meanwhile (R171,
log 51). -/
def State.clearingRetained (s : State) : Bool := decide (s.work = some (.reset 0x7B))

/-- An assertion of the line (R167). -/
def assertTamper (s : State) : State :=
  let (t, s) := readTamper { s with tamperLine := true }
  if t.clearing then writeTamper { t with reclear := true } s else startTamperClear s

/-- The freeing of the slot at the cursor (R168 step 3). -/
def freeTamperSlot (s : State) : State :=
  let (t, s) := readTamper s
  if t.clearing ∧ t.cursor ≤ Config.slots then
    let (h, s) := readSlotHeader t.cursor s
    settleTamper (writeTamper { t with cursor := t.cursor + 1 } (writeSlot t.cursor ⟨.free, h.issue⟩ .empty s))
  else s

/-! ## The Window Sweep (R39 to R43) -/

/-- A sweep trigger (R40). -/
def sweepTrigger (s : State) : State :=
  match s.sweep with
  | none =>
    let (now, s) := presentMinute s
    { s with sweep := some ⟨1, now⟩ }
  | some _ => { s with resweep := true }

/-- The Window Sweep gives the Presence Pool an overstay notice (R42). -/
def giveOverstay (h : Handle) (s : State) : State := giveNotices [.presencePool] (.overstay h) false s

/-- The comparison of daily hours at a visit of a live grant (R43). -/
def compareHours (h : Handle) (g : GrantRecord) (t : Minute) (s : State) : State :=
  match g.hours with
  | none => s
  | some d =>
    let now := d.stateAt t
    let s := if g.hoursState = .inHours ∧ now = .outHours then giveOverstay h s else s
    if g.hoursState = now then s else writeSlotBody h.slot { g with hoursState := now } s

/-- Steps 3 to 5 of a visit, for a slot whose body has been read (R41). -/
def visitGrant (k : Nat) (header : SlotHeader) (g : GrantRecord) (t : Minute) (s : State) : State :=
  let st := if header.state = .pending ∧ g.validFrom.atOrBefore t = true then GrantState.active else header.state
  let s := if st = header.state then s else writeSlotHeader k ⟨st, header.issue⟩ s
  let h : Handle := ⟨k, header.issue⟩
  if st.live then
    if g.validUntil.atOrBefore t then
      giveOverstay h (writeSlot k ⟨.lapsed, header.issue⟩ { g with suspendedFrom := none } s)
    else compareHours h g t s
  else s

/-- A sweep visit of a slot (R41). -/
def visitSlot (k : Nat) (t : Minute) (s : State) : State :=
  let (header, s) := readSlotHeader k s
  match header.state with
  | .free | .faulted => s
  | .pending | .active | .spent | .suspended | .lapsed | .revoked =>
    let (body, s) := readSlotBody k s
    match body with
    | none => s
    | some g => visitGrant k header g t s

/-- The end of a sweep, after slot 1024 (R40). -/
def endSweep (s : State) : State :=
  if s.resweep then
    let (now, s) := presentMinute s
    { s with resweep := false, sweep := some ⟨1, now⟩ }
  else { s with sweep := none }

/-- One visit at the cursor, which then moves on or ends the sweep. -/
def sweepStep (s : State) : State :=
  match s.sweep with
  | none => s
  | some w =>
    let s := visitSlot w.cursor w.minute s
    if w.cursor < Config.slots then { s with sweep := some { w with cursor := w.cursor + 1 } } else endSweep s

end Sys2Proof.Machine
end

