-- ==== Sys2Proof/Machine/Decision.lean ====
section
/-! DEFINITION. The Decision Engine: the seat (R68, R69), and the operations of a decision one by one: entry (R70 to R77), exit (R78 to R80), paired entry (R94 to R100), the opening of an approval (R118) and the answer check (R122, R123). A failing check and the DENY it places are one operation (log 33). -/

namespace Sys2Proof.Machine

open Sys2Proof

/-! ## The seat -/

def setSeat (d : Decision) (s : State) : State := { s with seat := some d }

/-- A decision ends: its held places are released and the seat is IDLE (R69). -/
def endDecision (s : State) : State := { s with seat := none }

/-- The decision in hand goes on to another operation. -/
def goOn (d : Decision) (p : Phase) (s : State) : State := setSeat { d with phase := p } s

/-- The permit in hand is undone: its records removed, its uses returned (R76). -/
def undoHand (d : Decision) (s : State) : Decision × State :=
  ({ d with claims := [], records := [], overstayed := [] }, undoData d.claims d.records s)

/-- An approval that is ANSWERING: its check waits for the seat, or is in hand (R115). -/
def State.answering (s : State) : Option ReferralEntry :=
  s.referrals.find? (fun e =>
    match e.approval? with
    | none => false
    | some a => decide (a.state = .answering))

/-- The number of records the decision asks for: 2 for a completion (R72). -/
def Decision.recordsAsked (d : Decision) : Nat :=
  match d.holding with
  | .completing _ => 2
  | .none | .openingPair _ | .openingApproval _ => 1

/-- The context a completion is made against. -/
def completingContext (d : Decision) (s : State) : Option (Nat × PairContext) :=
  match d.holding with
  | .completing slot => (s.pair slot).map (fun c => (slot, c))
  | .none | .openingPair _ | .openingApproval _ => none

/-! ## How a check fails -/

/-- A check of the request fails (R71); in a completion the second credential fails (R99); in an answer check the end
follows (R122). The permit has been undone. -/
def failCheck (d : Decision) (r : DenyReason) (s : State) : State :=
  match d.work with
  | .answer _ => goOn d (.answerEnd (some r)) s
  | .request _ =>
    let s := endDecision (placeVerdict d.station d.sequence .deny (some r) s)
    match d.holding with
    | .completing slot => returnToOpen slot s
    | .none | .openingPair _ | .openingApproval _ => s

/-- The same, with the permit undone first (R76). -/
def undoAndFail (d : Decision) (r : DenyReason) (s : State) : State :=
  let (d, s) := undoHand d s
  failCheck d r s

/-- The request decided afresh as a first request, at the same t and with the same held places (R100). -/
def Decision.afresh (d : Decision) : Decision :=
  { d with mark := none, claims := [], records := [], overstayed := [], holding := .none, phase := .station, own := .start, first := .start }

/-- The first credential fails its re-check: the context closes with the reason, or as its pending closure says, and the
second request is decided afresh (R100). DEDUCED (log 52): the reservation is freed where the Decision Engine has emptied
the station's part of the Verdict Queue already. -/
def firstFails (d : Decision) (r : DenyReason) (s : State) : State :=
  setSeat d.afresh (match completingContext d s with
    | none => s
    | some (slot, c) =>
      match c.closure with
      | some cause => closePair slot c cause s
      | none => denyReservation .pairTable c.station c.sequence r (s.setPair slot none))

/-! ## Conditions at a placement or an opening (R75, R94, R118) -/

def WithdrawalMark.reason : WithdrawalMark → DenyReason
  | .revoked => .revoked
  | .barred => .barred

/-- The reason a building mode denies an entry with. -/
def BuildingMode.denial : BuildingMode → Option DenyReason
  | .normal => none
  | .lockdown => some .lockdown
  | .fire => some .fire

/-- The first of the conditions of R75 that holds: mark, mode, tamper flag. -/
def placementCondition (d : Decision) (s : State) : Option DenyReason × State :=
  let (t, s) := readTamper s
  (match d.mark with
    | some m => some m.reason
    | none =>
      match s.mode.denial with
      | some r => some r
      | none => if t.flag then some .tamper else none, s)

/-! ## Abandonment (R77, R102, log 18) -/

/-- An abandoned request: the permit undone, no verdict, the held places released, the sequence forgotten; a HELD context
is left as the Pair Table's rules have it, and an approval still OPENING leaves with its reservation freed. -/
def endAbandoned (d : Decision) (s : State) : State :=
  let (d, s) := undoHand d s
  let s := forgetRequest d.station d.sequence (endDecision s)
  match d.holding with
  | .none => s
  | .completing slot | .openingPair slot => abandonContext slot s
  | .openingApproval n => reportFreed d.station (dropReferral n s)

/-! ## The station query (R70, R95) and exits (R78 to R80) -/

/-- ANSWER REFERRAL has its result. -/
def finishAnswer (r : CommandResult) (s : State) : State :=
  match s.work with
  | some (.answer _) => finish r s
  | some (.handed _) | some (.ready _) | some (.retire _ _) | some (.unbind _ _) | some (.find _ _ _) | some (.revoke _) | some (.bar _)
  | some (.unbar _) | some (.clearBar _ _) | some (.setMode _ _ _) | some .stopLink | some (.reset _) | none => s

/-- An approval of the station that is ANSWERING, its check waiting for the seat that the request holds, ends at once as
R123's first line says: the decision goes on only when the closure is carried out (R70, R113, log 54). -/
def endAnswering (k : Nat) (s : State) : State :=
  match s.answering with
  | none => s
  | some e =>
    if e.station = k then finishAnswer (.bare .tooLate) (reportFreed k (dropReferral e.reference s)) else s

/-- Supersession of what is open at the request's station (R70). -/
def supersede (k : Nat) (s : State) : State :=
  endAnswering k (closeApprovals (fun e _ => decide (e.station = k)) .newRequest
    (closePairs (fun c => decide (c.station = k)) .newRequest s).2).2

def opStationQuery (d : Decision) (side : Side) (s : State) : State :=
  match side with
  | .inside => goOn d .exitStation (supersede d.station s)
  | .outside =>
    match s.pairAt d.station with
    | none => goOn d .station (supersede d.station s)
    | some slot =>
      match s.pair slot with
      | none => goOn d .station s
      | some c =>
        if c.credential = d.credential then goOn d .sameCard s
        else goOn { d with holding := .completing slot } .station (s.setPair slot (some { c with held := true }))

/-- The first card presented again: HOLD, reported with PAIR SAME CARD (R95). -/
def opSameCard (d : Decision) (s : State) : State :=
  endDecision (reportPlaced d.station d.sequence .hold (some .pairSameCard)
    (appendEntry ⟨d.station, d.sequence, .hold, none, false, none⟩ s))

/-- Check 1 of an exit: the station's record and its binding (R78). -/
def opExitStation (d : Decision) (s : State) : State :=
  let (b, s) := readStationBody d.station s
  match b with
  | none => failCheck d .stationFault s
  | some b =>
    match b.binding with
    | none => failCheck d .stationUnbound s
    | some r => goOn { d with room := r } .exitRemoval s

/-- An UNSENT record removed on its own, with the use named by its own body returned (R58, R91). -/
def removeReturning (id : Nat) (s : State) : State :=
  let taken := (s.index id).useTaken
  let (b, s) := readPresenceBody id s
  let s := removeRecord id s
  match b with
  | none => s
  | some b =>
    match b.handle with
    | none => s
    | some h => if taken then returnUse h s else s

/-- The removal an exit makes of a record in a room that is not FAULTED: an UNSENT record goes with its permit's entry,
removed outright (R80). -/
def exitRemove (id : Nat) (s : State) : State :=
  if (s.index id).sent then removeRecord id s
  else
    let s := removeEntries (fun e => e.holds (PermitData.holdsRecord id)) s
    if (s.index id).inUse then removeReturning id s else s

/-- The effects of a stray exit (R79); `other` is the room the record stood in. -/
def strayExit (room : Nat) (other : Option Nat) (s : State) : State :=
  let s := setSuspect room s
  raise .strayExit (match other with
    | none => s
    | some r => setSuspect r s)

/-- Checks 2 and 3 of an exit, one operation (R78, log 32). -/
def opExitRemoval (d : Decision) (s : State) : State :=
  let (found, s) := locate d.credential s
  goOn d .exitPlacement (match found with
    | none => strayExit d.room none s
    | some id =>
      let r := (s.index id).room
      let (view, s) := readRoomRecord r s
      let s := match view with
        | .faulted | .undefined => s
        | .readable _ _ => exitRemove id s
      if r = d.room then s else strayExit d.room (some r) s)

def opExitPlacement (d : Decision) (s : State) : State :=
  endDecision (placeVerdict d.station d.sequence .exit none s)

/-! ## The checks of an entry (R71), a completion (R96) and an answer check (R122) -/

/-- Steps 1a and 1b. -/
def opStation (d : Decision) (s : State) : State :=
  let (b, s) := readStationBody d.station s
  match b with
  | none => failCheck d .stationFault s
  | some b =>
    match b.binding with
    | none => failCheck d .stationUnbound s
    | some r => goOn { d with room := r } .room s

/-- Step 1c, and check 1 of an answer check, which accepts a CLOSED room (R122). -/
def opRoom (d : Decision) (s : State) : State :=
  let (view, s) := readRoomRecord d.room s
  match view with
  | .undefined | .faulted => failCheck d .roomFault s
  | .readable closed b =>
    let d := { d with key := b.key, cls := b.cls, limit := b.limit }
    match d.work with
    | .answer _ => goOn d .mode s
    | .request _ => if closed then failCheck d .roomClosed s else goOn d .mode s

/-- Step 2. -/
def opMode (d : Decision) (s : State) : State :=
  match s.mode.denial with
  | some r => failCheck d r s
  | none => goOn d .tamper s

/-- Step 3. -/
def opTamper (d : Decision) (s : State) : State :=
  let (t, s) := readTamper s
  if t.flag then failCheck d .tamper s else goOn d .clock s

/-- Step 4. -/
def opClock (d : Decision) (s : State) : State :=
  let (c, s) := readClockItem s
  if c.isSet then goOn d .barState s else failCheck d .clockUnset s

/-- Step 5. -/
def opBarState (d : Decision) (s : State) : State :=
  let (h, s) := readBarHeader s
  if h.doubtful then failCheck d .barListFault s else goOn d .barTest s

/-- Step 6: a bar hit asks for a HOT CARD, except in an answer check (R71, R122). -/
def opBarTest (d : Decision) (s : State) : State :=
  let (answer, s) := membership d.credential s
  match answer with
  | .fault => failCheck d .barListFault s
  | .notBarred => goOn d .locate s
  | .barred =>
    match d.work with
    | .answer _ => failCheck d .barred s
    | .request _ => failCheck d .barred (createHotCard d.station d.credential d.room d.sequence s)

/-- Step 7. -/
def opLocate (d : Decision) (s : State) : State :=
  let (found, s) := locate d.credential s
  if found.isSome then failCheck d .passback s else goOn { d with own := .start } .search s

/-- What follows the finding of the request's own deciding grant: in a completion whose first credential has not been
re-checked, checks 2 to 4 (R96); else step 9. -/
def Decision.afterSearch (d : Decision) : Phase :=
  match d.holding with
  | .completing _ => if d.first.found.isSome then .count else .firstBar
  | .none | .openingPair _ | .openingApproval _ => .count

/-- Step 8: one read of the grant search. -/
def opSearch (d : Decision) (s : State) : State :=
  let (r, s) := searchRead d.credential d.key d.time d.own s
  match r with
  | .found f =>
    let d := { d with own := f }
    goOn d d.afterSearch s
  | .passed f => setSeat { d with own := f } s
  | .exhausted f => failCheck { d with own := f } f.notes.reason s

/-- Check 2 of a completion: the first credential is not barred (R96). -/
def opFirstBar (d : Decision) (s : State) : State :=
  match completingContext d s with
  | none => setSeat d.afresh s
  | some (_, c) =>
    let (answer, s) := membership c.credential s
    match answer with
    | .fault => firstFails d .barListFault s
    | .barred => firstFails d .barred s
    | .notBarred => goOn d .firstLocate s

/-- Check 3 of a completion. -/
def opFirstLocate (d : Decision) (s : State) : State :=
  match completingContext d s with
  | none => setSeat d.afresh s
  | some (_, c) =>
    let (found, s) := locate c.credential s
    if found.isSome then firstFails d .passback s else goOn { d with first := .start } .firstSearch s

/-- Check 4 of a completion: one read of the first credential's grant search. -/
def opFirstSearch (d : Decision) (s : State) : State :=
  match completingContext d s with
  | none => setSeat d.afresh s
  | some (_, c) =>
    let (r, s) := searchRead c.credential d.key d.time d.first s
    match r with
    | .found f => goOn { d with first := f } .count s
    | .passed f => setSeat { d with first := f } s
    | .exhausted f => firstFails d f.notes.reason s

/-- The limit step 9 compares with: as read now for a request (R72), as read at check 1 for an answer check (R122);
`none` for a room that cannot be read now (log 12). -/
def stepNineLimit (d : Decision) (s : State) : Option Nat × State :=
  match d.work with
  | .answer _ => (some d.limit, s)
  | .request _ =>
    let (view, s) := readRoomRecord d.room s
    match view with
    | .undefined | .faulted => (none, s)
    | .readable _ b => (some b.limit, s)

/-- Step 9. -/
def opCount (d : Decision) (s : State) : State :=
  let (limit, s) := stepNineLimit d (scanIndexes s)
  match limit with
  | none => failCheck d .roomFault s
  | some n => if s.occupancy d.room + d.recordsAsked ≤ n then goOn d .pool s else failCheck d .roomFull s

/-- What follows step 10. -/
def Decision.afterPool (d : Decision) : Phase :=
  match d.work, d.holding with
  | .answer _, _ => .claim
  | .request _, .completing _ => .claimFirst
  | .request _, .none | .request _, .openingPair _ | .request _, .openingApproval _ => .classRule

/-- Step 10. -/
def opPool (d : Decision) (s : State) : State :=
  let s := scanIndexes s
  if d.recordsAsked ≤ (s.freeRecords d.recordsAsked).length then goOn d d.afterPool s else failCheck d .presenceFull s

/-- The role of a deciding grant. -/
def Search.role (f : Search) : Role :=
  match f.found with
  | none => .contractor
  | some (_, r) => r

/-- Step 11, the class rule (R73). -/
def opClassRule (d : Decision) (s : State) : State :=
  match d.cls with
  | .opened | .paired | .referred => goOn d .claim s
  | .escorted =>
    if d.own.role = .escort then goOn d .claim s
    else
      let (view, s) := readRoomRecord d.room s
      match view with
      | .undefined | .faulted => failCheck d .roomFault s
      | .readable _ b => if 1 ≤ b.escorts then goOn d .claim s else failCheck d .noEscort s

/-- What follows a granted claim of a single entry (R73, R122). -/
def Decision.afterClaim (d : Decision) : Phase :=
  match d.work with
  | .answer _ => .admission
  | .request _ =>
    match d.cls with
    | .opened | .escorted => .admission
    | .paired => .pairOpening
    | .referred => .approvalOpening

/-- Step 12, the claim; a refused claim returns the decision to step 8 (R73). -/
def opClaim (d : Decision) (s : State) : State :=
  match d.own.found with
  | none => goOn d .search s
  | some (h, _) =>
    let (r, s) := claimSlot h d.credential d.key d.time s
    match r with
    | .granted c => goOn { d with claims := [c] } d.afterClaim s
    | .refused present => goOn { d with own := d.own.afterRefusal present d.credential d.key d.time } .search s

/-- The claim on the first credential's grant in a completion (R97). -/
def opClaimFirst (d : Decision) (s : State) : State :=
  match completingContext d s, d.first.found with
  | some (_, ctx), some (h, _) =>
    let (r, s) := claimSlot h ctx.credential d.key d.time s
    match r with
    | .granted c => goOn { d with claims := [c] } .claimSecond s
    | .refused present =>
      goOn { d with first := d.first.afterRefusal present ctx.credential d.key d.time } .firstSearch s
  | none, _ => setSeat d.afresh s
  | some _, none => goOn d .firstSearch s

/-- The claim on the second credential's grant: refused, the first claim is released and its search resumes (R97). -/
def opClaimSecond (d : Decision) (s : State) : State :=
  match d.own.found with
  | none => goOn d .search s
  | some (h, _) =>
    let (r, s) := claimSlot h d.credential d.key d.time s
    match r with
    | .granted c => goOn { d with claims := d.claims ++ [c] } .admission s
    | .refused present =>
      let (d, s) := undoHand d s
      goOn { d with own := d.own.afterRefusal present d.credential d.key d.time } .search s

/-! ## Admission and placement (R74, R75, R98) -/

/-- An overstay notice has reached the claim before this admission (R42, log 59). -/
def Decision.overstays (d : Decision) (c : Claim) : Bool := decide (c.handle ∈ d.overstayed)

/-- The records an admission asks for: one, or the first credential's and then the second's, each the other's partner. -/
def Decision.entrants (d : Decision) (first : Option PairContext) : List Entrant :=
  match d.claims, first with
  | [c], _ => [⟨d.credential, d.own.role, c.handle, c.useTaken, d.station, none, d.overstays c⟩]
  | [c1, c2], some ctx =>
    [⟨ctx.credential, d.first.role, c1.handle, c1.useTaken, ctx.station, some d.credential, d.overstays c1⟩,
     ⟨d.credential, d.own.role, c2.handle, c2.useTaken, ctx.station, some ctx.credential, d.overstays c2⟩]
  | _, _ => []

/-- What follows an admission (R74, R98, R122). -/
def Decision.afterAdmission (d : Decision) : Phase :=
  match d.work, d.holding with
  | .answer _, _ => .answerEnd none
  | .request _, .completing _ => .placement
  | .request _, .none | .request _, .openingPair _ | .request _, .openingApproval _ =>
    if d.cls = .escorted ∧ d.own.role = .contractor then .escortRead else .placement

def opAdmission (d : Decision) (s : State) : State :=
  let (r, s) := admission d.room (d.entrants ((completingContext d s).map Prod.snd)) s
  match r with
  | .error reason => undoAndFail d reason s
  | .ok ids => goOn { d with records := ids } d.afterAdmission s

/-- The escort re-read (R74 step 2). -/
def opEscortRead (d : Decision) (s : State) : State :=
  let (view, s) := readRoomRecord d.room s
  match view with
  | .undefined | .faulted => undoAndFail d .roomFault s
  | .readable _ b => if b.escorts = 0 then undoAndFail d .noEscort s else goOn d .placement s

/-- The permit entry of a decision (R83). -/
def permitEntry (d : Decision) (first : Option Credential) (v : Verdict) : VerdictEntry :=
  ⟨d.station, d.sequence, v, none, false,
    some ⟨d.claims, first.toList ++ [d.credential], d.records⟩⟩

/-- The verdict of a placed entry: the place is a held one, or the context's reservation, whose slot is then FREE (R75, R98).
Either way the report is that of a placed verdict for the request's sequence. -/
def opPlacement (d : Decision) (s : State) : State :=
  let (condition, s) := placementCondition d s
  let first := completingContext d s
  let s := match first with
    | none => s
    | some (slot, _) => s.setPair slot none
  match condition with
  | some r =>
    let (d, s) := undoHand d s
    endDecision (placeVerdict d.station d.sequence .deny (some r) s)
  | none =>
    let v := if first.isSome then Verdict.permitPair else .permit
    endDecision (reportPlaced d.station d.sequence v none
      (appendEntry (permitEntry d (first.map (fun p => p.2.credential)) v) s))

/-! ## Openings (R94, R118) -/

/-- The handle of the claim in hand. -/
def Decision.claimHandle (d : Decision) : Handle :=
  match d.claims with
  | [] => ⟨0, 0⟩
  | c :: _ => c.handle

/-- An opening at the Pair Table, by the table of R94. DEDUCED (log 52): where a context would open and the table has taken
the loss or the stop which will abandon this decision, none does. -/
def opPairOpening (d : Decision) (s : State) : State :=
  let (condition, s) := placementCondition d s
  match condition with
  | some r => undoAndFail d r s
  | none =>
    match s.freePairSlot with
    | none => undoAndFail d .pairBusy s
    | some slot =>
      if s.closedAt .pairTable d.station then endAbandoned d s
      else
        let (window, s) := readWindowSeconds s
        goOn { d with heldPlaces := d.heldPlaces - 1, holding := .openingPair slot } .claimRelease
          (s.setPair slot (some
            ⟨true, d.station, d.room, d.credential, d.claimHandle, d.own.role, d.sequence, window, none⟩))

/-- An opening at the Referral Queue, by the table of R118; DEDUCED (log 52), likewise. -/
def opApprovalOpening (d : Decision) (s : State) : State :=
  let (condition, s) := placementCondition d s
  match condition with
  | some r => undoAndFail d r s
  | none =>
    if Config.approvals ≤ s.approvals then undoAndFail d .referralBusy s
    else if s.closedAt .referralQueue d.station then endAbandoned d s
    else
      let (n, s) := createEntry d.station d.credential d.room d.sequence
        (.approval d.claimHandle .opening 0 none) s
      goOn { d with heldPlaces := d.heldPlaces - 1, holding := .openingApproval n } .claimRelease s

/-- The claim is released and its use returned: no one has yet entered. -/
def opClaimRelease (d : Decision) (s : State) : State :=
  let (d, s) := undoHand d s
  goOn d .interim s

/-- HOLD or REFER WAIT in the other held place, reported open. -/
def opInterim (d : Decision) (s : State) : State :=
  let v := match d.holding with
    | .openingApproval _ => Verdict.referWait
    | .none | .completing _ | .openingPair _ => .hold
  goOn { d with heldPlaces := d.heldPlaces - 1 } .settling (placeVerdict d.station d.sequence v none s)

/-- The context becomes OPEN, with the pair window, or its pending closure is carried out (R94). -/
def settlePair (slot : Nat) (s : State) : State :=
  match s.pair slot with
  | none => s
  | some c =>
    match c.closure with
    | some cause => closePair slot c cause s
    | none =>
      let (window, s) := readWindowSeconds s
      s.setPair slot (some { c with held := false, seconds := window })

/-- The approval becomes WAITING, with the referral timeout, or its pending closure is carried out (R118). -/
def settleApproval (reference : Nat) (s : State) : State :=
  match s.referral reference with
  | none => s
  | some e =>
    match e.approval? with
    | none => s
    | some a =>
      match a.closure with
      | some cause => closeReservation .referralQueue e.station e.sequence cause (dropReferral reference s)
      | none =>
        let (timeout, s) := readTimeoutSeconds s
        raise .referralWaiting (writeReferral (e.withApproval { a with state := .waiting, seconds := timeout }) s)

def opSettling (d : Decision) (s : State) : State :=
  endDecision (match d.holding with
    | .openingPair slot => settlePair slot s
    | .openingApproval n => settleApproval n s
    | .none | .completing _ => s)

/-! ## The end of an answer check (R123) -/

/-- The approval ends without a verdict: TOO LATE. -/
def answerFreed (d : Decision) (reference : Nat) (s : State) : State :=
  let (_, s) := undoHand d s
  finishAnswer (.bare .tooLate) (endDecision (reportFreed d.station (dropReferral reference s)))

/-- The approval ends with a DENY: OVERTAKEN. -/
def answerDenied (d : Decision) (reference : Nat) (r : DenyReason) (s : State) : State :=
  let (_, s) := undoHand d s
  finishAnswer (.overtakenWith r) (endDecision (convertDeny d.station d.sequence r (dropReferral reference s)))

/-- The approval ends with its PERMIT: OK. -/
def answerPermitted (d : Decision) (reference : Nat) (s : State) : State :=
  finishAnswer (.bare .ok) (endDecision (reportConverted d.station d.sequence .permit none
    (appendEntry (permitEntry d none .permit) (dropReferral reference s))))

/-- The pending closure of an approval (R124). -/
def pendingClosure (reference : Nat) (s : State) : Option ClosureCause :=
  match s.referral reference with
  | none => none
  | some e =>
    match e.approval? with
    | none => none
    | some a => a.closure

def opAnswerEnd (d : Decision) (reference : Nat) (failed : Option DenyReason) (s : State) : State :=
  if d.abandoned then answerFreed d reference s
  else
    match pendingClosure reference s, failed with
    | some cause, _ =>
      match cause.reason with
      | none => answerFreed d reference s
      | some r => answerDenied d reference r s
    | none, some r => answerDenied d reference r s
    | none, none =>
      let (condition, s) := placementCondition d s
      match condition with
      | some r => answerDenied d reference r s
      | none => answerPermitted d reference s

/-! ## One operation, and a run of operations -/

/-- The operation a phase of a request stands for. -/
def requestOp (d : Decision) (side : Side) (s : State) : State :=
  match d.phase with
  | .stationQuery => opStationQuery d side s
  | .sameCard => opSameCard d s
  | .exitStation => opExitStation d s
  | .exitRemoval => opExitRemoval d s
  | .exitPlacement => opExitPlacement d s
  | .station => opStation d s
  | .room => opRoom d s
  | .mode => opMode d s
  | .tamper => opTamper d s
  | .clock => opClock d s
  | .barState => opBarState d s
  | .barTest => opBarTest d s
  | .locate => opLocate d s
  | .search => opSearch d s
  | .count => opCount d s
  | .pool => opPool d s
  | .classRule => opClassRule d s
  | .claim => opClaim d s
  | .firstBar => opFirstBar d s
  | .firstLocate => opFirstLocate d s
  | .firstSearch => opFirstSearch d s
  | .claimFirst => opClaimFirst d s
  | .claimSecond => opClaimSecond d s
  | .admission => opAdmission d s
  | .escortRead => opEscortRead d s
  | .placement => opPlacement d s
  | .pairOpening => opPairOpening d s
  | .approvalOpening => opApprovalOpening d s
  | .claimRelease => opClaimRelease d s
  | .interim => opInterim d s
  | .settling => opSettling d s
  | .answerEnd _ => endDecision s

/-- The operation a phase of an answer check stands for: the phases of R122 alone; no check is ever in another. -/
def answerOp (d : Decision) (reference : Nat) (s : State) : State :=
  match d.phase with
  | .room => opRoom d s
  | .mode => opMode d s
  | .tamper => opTamper d s
  | .clock => opClock d s
  | .barState => opBarState d s
  | .barTest => opBarTest d s
  | .locate => opLocate d s
  | .search => opSearch d s
  | .count => opCount d s
  | .pool => opPool d s
  | .claim => opClaim d s
  | .admission => opAdmission d s
  | .answerEnd failed => opAnswerEnd d reference failed s
  | .stationQuery | .sameCard | .exitStation | .exitRemoval | .exitPlacement | .station | .classRule | .firstBar
  | .firstLocate | .firstSearch | .claimFirst | .claimSecond | .escortRead | .placement | .pairOpening
  | .approvalOpening | .claimRelease | .interim | .settling => answerFreed d reference s

/-- One operation of the decision in hand. -/
def decisionOp (s : State) : State :=
  match s.seat with
  | none => s
  | some d =>
    match d.work with
    | .request side => if d.abandoned then endAbandoned d s else requestOp d side s
    | .answer reference => if d.abandoned then answerFreed d reference s else answerOp d reference s

/-- So many operations of the decision in hand; the seat, once IDLE, takes nothing by itself. -/
def runDecision : Nat → State → State
  | 0, s => s
  | n + 1, s => if s.seat.isSome then runDecision n (decisionOp s) else s

/-- More operations than any decision makes without another command in between: the grant searches read each slot once,
and the checks beside them are few (log 4). -/
def decisionBound : Nat := 64 + 24 * (Config.slots + 1)

/-- The operations a pause asks for. -/
def runPaused (pause : Pause) (s : State) : State :=
  match pause with
  | none => runDecision decisionBound s
  | some n => runDecision n s

/-- The decision of a request at the moment it is taken (R68, R69). -/
def Decision.ofRequest (r : Request) (now : Minute) : Decision where
  work := .request r.side
  station := r.station
  sequence := r.sequence
  credential := r.credential
  time := now
  heldPlaces := 2
  claims := []
  records := []
  overstayed := []
  mark := none
  abandoned := false
  phase := .stationQuery
  holding := .none
  room := 0
  key := 0
  cls := .opened
  limit := 0
  own := .start
  first := .start

/-- The answer check of an approval at the moment it is taken: one with a pending closure makes no step (R122). -/
def Decision.ofAnswer (e : ReferralEntry) (closed : Bool) (now : Minute) : Decision where
  work := .answer e.reference
  station := e.station
  sequence := e.sequence
  credential := e.credential
  time := now
  heldPlaces := 0
  claims := []
  records := []
  overstayed := []
  mark := none
  abandoned := false
  phase := if closed then .answerEnd none else .room
  holding := .none
  room := e.room
  key := 0
  cls := .referred
  limit := 0
  own := .start
  first := .start

/-- The seat takes the head of the Request Queue where R69 lets it: abandoned, where the Decision Engine has taken the
notice that is to remove the entry (log 52). -/
def takeHead (s : State) : State :=
  match s.seat, s.answering, s.requests with
  | none, none, r :: rest =>
    if 2 ≤ s.freePlaces then
      let (now, s) := presentMinute s
      { s with
        requests := rest
        seat := some { Decision.ofRequest r now with abandoned := s.endedAt .requestQueue r.station } }
    else s
  | none, none, [] => s
  | none, some _, _ => s
  | some _, _, _ => s

/-- The seat takes the answer check that waits (R69, R122): abandoned likewise. -/
def takeAnswer (s : State) : State :=
  match s.seat, s.answering with
  | none, some e =>
    let (now, s) := presentMinute s
    { s with
      seat := some { Decision.ofAnswer e (pendingClosure e.reference s).isSome now with
        abandoned := s.endedAt .referralQueue e.station } }
  | none, none => s
  | some _, _ => s

/-- Whether the decision in hand is of the kind asked for. -/
def State.decidesRequest (s : State) : Bool :=
  match s.seat with
  | none => false
  | some d =>
    match d.work with
    | .request _ => true
    | .answer _ => false

def State.decidesAnswer (s : State) : Bool :=
  match s.seat with
  | none => false
  | some d =>
    match d.work with
    | .request _ => false
    | .answer _ => true

/-- TAKE_REQUEST (R69): take the head where the seat may, or go on with the request in hand. -/
def execTakeRequest (pause : Pause) (s : State) : Outcome :=
  .next (if s.awake then
    let s := takeHead s
    if s.decidesRequest then runPaused pause s else s
  else s)

/-- ANSWER_CHECK (R69, R122): take the answer check that waits, or go on with the one in hand. -/
def execAnswerCheck (pause : Pause) (s : State) : Outcome :=
  .next (if s.awake then
    let s := takeAnswer s
    if s.decidesAnswer then runPaused pause s else s
  else s)

end Sys2Proof.Machine
end

