-- ==== Sys2Proof/Machine/Reset.lean ====
section
/-! DEFINITION. Device reset (R91, R180), RESETn (R179), the supply (R161, R162), the cleared values of the retained domain (R171), and the second boundary (R27, R28, R35). -/

namespace Sys2Proof.Machine

open Sys2Proof

/-! ## What is not retained -/

/-- The link part of a station record at its reset value (R137). -/
def Station.linkReset (st : Station) (faulted : Bool) : Station :=
  { st with
    state := if faulted then .faulted else .silent
    missed := 0
    release := 0
    entrance := none
    answer := none
    inFlight := 0 }

/-- A device reset reads the station's header for its link state (R137). -/
def resetStation (k : Nat) (s : State) : State :=
  let (faulted, s) := readStationHeader k s
  updateStation k (fun st => st.linkReset faulted) s

/-- The link parts of every station after a device reset. -/
def resetStations (s : State) : State := (Table.keys s.stations).foldl (fun s k => resetStation k s) s

/-- The link parts vanish with the main supply: nothing is read (R161); they stand here at their reset values (log 31). -/
def vanishStations (s : State) : State :=
  (Table.keys s.stations).foldl (fun s k => updateStation k (fun st => st.linkReset st.header.value) s) s

/-- The notices that outlive a reset and a supply failure: the marking of the presence records by the tamper logic, which
goes on (R168). The others vanish, or count as taken (log 7, 27). -/
def Outstanding.survives (o : Outstanding) : Bool := decide (o.receiver = .presencePool) && o.notice.isTamper

def dropNotices (s : State) : State :=
  settleTamper { s with notices := s.notices.filter Outstanding.survives }

/-- The values after a device reset of everything that is not retained, ATTENTION, the station records and the notices
apart: R67, R68, R82, R92, R113, R114, R116, R131, R39, R153, R180, and the holds of R21 and R148. -/
def blankBlocks (s : State) : State :=
  resetMode
    { s with
      retireHold := none
      sweep := none
      resweep := false
      requests := []
      seat := none
      verdicts := []
      pairs := []
      referrals := []
      referenceCounter := 1
      linkState := .stopped
      cycle := 0
      cyclePlace := .markDue
      unbindHold := none
      portBusy := false
      resultCode := .ok
      overrun := false
      lastCommand := 0
      window := {}
      attentionMask := 0
      work := none }

/-- ATTENTION emptied (R180). -/
def emptyAttention (s : State) : State := { s with attention := 0, attentionTaken := none, resetCauses := 0 }

/-! ## Walks of the Presence Pool that are cut short (R160, R168, log 53) -/

/-- The walk a notice to the Presence Pool is taken in. -/
def Notice.walk : Notice → Option Walk
  | .revoke _ => some .revoke
  | .bar _ => some .bar
  | .unbar _ => some .unbar
  | .overstay _ => some .overstay
  | .tamper => some .tamper
  | .loss _ | .stop | .stationFault _ | .mode _ => none

/-- The oldest notice outstanding for the Presence Pool that is taken in a walk, where the pool runs, or the tamper logic in
its place. -/
def State.walking (s : State) (w : Walk) : Option Notice :=
  if s.awake = true ∨ (w = .tamper ∧ s.clearingRetained = false) then
    (s.outstanding .presencePool (fun n => decide (n.walk = some w))).map Outstanding.notice
  else none

/-- What a notice does to the first records of its walk: a locate has only read them. -/
def walkPart (n : Notice) (reached : Nat) (s : State) : State :=
  let scanned := scanIndexes s
  let ids := scanned.inUseRecords.take reached
  match n with
  | .revoke h => (forHoldersIn h (setCondition .grantRevoked) ids scanned).2
  | .overstay h => (forHoldersIn h (setCondition .overstay) ids scanned).2
  | .bar _ | .unbar _ => readBodies ids scanned
  | .tamper => markSome reached s
  | .loss _ | .stop | .stationFault _ | .mode _ => s

/-- RETIRE GRANT's last question is being asked. -/
def State.askingPool (s : State) : Bool :=
  match s.work with
  | some (.retire _ asked) => decide (3 ≤ asked)
  | some (.handed _) | some (.ready _) | some (.unbind _ _) | some (.find _ _ _) | some (.revoke _) | some (.bar _) | some (.unbar _)
  | some (.clearBar _ _) | some (.setMode _ _ _) | some .stopLink | some (.answer _) | some (.reset _) | none => false

/-- A walk in progress reaches so many records, and no more; nothing where no such walk is due. -/
def cutWalk (cut : Option Cut) (s : State) : State :=
  match cut with
  | none => s
  | some c =>
    match s.walking c.walk with
    | some n => walkPart n c.reached s
    | none =>
      if c.walk = .retire ∧ s.askingPool = true then
        readBodies ((scanIndexes s).inUseRecords.take c.reached) (scanIndexes s)
      else s

/-- The marking for the tamper notice, where one is due, reaches so many records before a device reset cuts it short. -/
def cutMarking (marked : Option Nat) (s : State) : State := cutWalk (marked.map (Cut.mk .tamper)) s

/-- A device reset, or the supply's return, cuts the marking for the tamper notice: where, is the next free value. -/
def cutByReset (s : State) : State :=
  if s.notices.any Outstanding.survives then
    cutMarking ((Config.cutOf s.cuts).map Cut.reached) { s with cuts := s.cuts + 1 }
  else s

/-! ## Device reset (R91, R180) -/

/-- The claims of the decision in hand that have admitted no record: their uses are returned (R91 step 2). -/
def returnSeatClaims (s : State) : State :=
  match s.seat with
  | none => s
  | some d => if d.records = [] then returnClaims d.claims s else s

/-- Every UNSENT record is removed, and its use returned to the grant its body names (R91 step 3, log 40). -/
def removeAllUnsent (s : State) : State :=
  let s := scanIndexes s
  (s.inUseRecords.filter (fun id => !(s.index id).sent)).foldl (fun s id => removeReturning id s) s

/-- A device reset up to the values the blocks take: the causes it raises are latched after ATTENTION has been emptied. -/
def deviceReset (s : State) : State :=
  let s := returnSeatClaims (emptyAttention s)
  let s := removeAllUnsent { s with requests := [], seat := none, verdicts := [] }
  { dropNotices (blankBlocks (resetStations s)) with trim := .of none }

/-- The blocks resume from their reset values: the link starts with auto-start, the lines are taken, a sweep starts with
the clock SET (R131, R153, R39). -/
def resumeBlocks (s : State) : State :=
  let (c, s) := readConfig s
  let s := takeLinesAfterReset (if c.autoStart then { s with linkState := .running } else s)
  let (clock, s) := readClockItem s
  if clock.isSet then sweepTrigger s else s

/-- Latch causes into ATTENTION, or keep them until RESETn goes high. -/
def latchCauses (w : Word) (s : State) : State :=
  if s.resetLow then { s with resetCauses := s.resetCauses ||| w } else { s with attention := s.attention ||| w }

/-- A device reset caused by a command: it leaves that command's code, the causes raised while it was under way, and
COMMAND DONE at its end (R180). -/
def commandReset (code : BitVec 8) (s : State) : State :=
  let reset := deviceReset { s with work := none }
  raise .commandDone (resumeBlocks (latchCauses s.resetCauses { reset with lastCommand := code }))

/-! ## The cleared values (R171) -/

/-- Every retained item takes its cleared value and the check pattern is written; a tamper clear in progress is abandoned. -/
def clearRetained (lost : Bool) (s : State) : State :=
  { s with
    clock := .of .cleared
    trim := .of none
    grants := []
    rooms := []
    presence := []
    barHeader := .of .cleared
    barEntries := []
    pairWindow := .of 20
    referralTimeout := .of 60
    linkConfig := .of .cleared
    stations := []
    health := .of { Health.clear with retainedLost := lost }
    tamper := .of .idle
    deferred := .of 0
    checkPattern := true
    markedTo := 0
    notices := [] }

/-! ## RESETn (R179) -/

/-- RESETn low: a device reset; the part then stays quiet. In RETAINED-ONLY supply there is nothing to reset (log 36).
A marking for the tamper notice is cut short (R168). -/
def execResetnLow (s : State) : Outcome :=
  .next (if s.resetLow then s
  else
    match s.supply with
    | .full => deviceReset { cutByReset s with resetLow := true }
    | .retainedOnly => { s with resetLow := true })

/-- RESETn high: the blocks resume, and the causes raised meanwhile are latched. -/
def execResetnHigh (s : State) : Outcome :=
  .next (if s.resetLow then
    match s.supply with
    | .full =>
      resumeBlocks { s with resetLow := false, attention := s.attention ||| s.resetCauses, resetCauses := 0 }
    | .retainedOnly => { s with resetLow := false }
  else s)

/-! ## The return of the supply (R162, R163) -/

/-- The deferred causes are latched and the set is emptied (R163). -/
def latchDeferred (s : State) : State :=
  let (w, s) := readDeferred s
  latchCauses w { s with deferred := .of 0 }

/-- Step 1 of R162: the pattern, spoiled where the backup cell did not hold, is tested; a loss clears the domain. -/
def testPattern (backupHeld : Bool) (s : State) : State :=
  if backupHeld && s.checkPattern then s else clearRetained true s

/-- The main supply returns (R162); with RESETn low the blocks stay quiet until it goes high (log 36). The tamper
logic's marking is where it has come to by then (R168). -/
def execSupplyReturn (backupHeld : Bool) (s : State) : Outcome :=
  .next (match s.supply with
    | .full => s
    | .retainedOnly =>
      let s := deviceReset { testPattern backupHeld (cutByReset s) with supply := .full }
      let s := raise .supplyReturn (latchDeferred s)
      if s.resetLow then s else resumeBlocks s)

/-! ## The second boundary (R27, R28, R35) -/

/-- A pending trim gives the second that begins its length, and is cleared (R35). -/
def applyTrim (s : State) : State :=
  let (t, s) := readTrim s
  match t with
  | none => { s with secondLength := 1000 }
  | some amount => { s with secondLength := (1000 - amount).toNat, trim := .of none }

/-- The second tick to the Pair Table and the Referral Queue, and the minute boundary to the Window Sweep, while they run. -/
def deliverTick (minuteBoundary : Bool) (s : State) : State :=
  if s.awake then
    let s := tickReferrals (tickPairs s)
    if minuteBoundary then sweepTrigger s else s
  else s

/-- SECOND_BOUNDARY: the calendar advances one second, in every supply state and with RESETn low. -/
def execSecondBoundary (s : State) : Outcome :=
  .next (
    let (c, s) := readClockItem s
    let next := c.calendar.nextSecond
    let s := applyTrim { s with clock := .of { c with calendar := next } }
    deliverTick (decide (next.second = 0) && c.isSet) s)

end Sys2Proof.Machine
end

