-- ==== Sys2Proof/Machine/Frames.lean ====
section
/-! DEFINITION. The frames of the Station Link as bytes and as half-bits on the line (R128, R129, R183): the CRC-16, the frame as sent, the reading of a received carrier, and the MARK. -/

namespace Sys2Proof.Machine

open Sys2Proof

/-! ## CRC-16 (R183) -/

/-- One bit of the CRC: polynomial x^16 + x^12 + x^5 + 1, not reflected. -/
def crcBit (crc : BitVec 16) (b : Bool) : BitVec 16 :=
  if crc.msb != b then (crc <<< 1) ^^^ 0x1021 else crc <<< 1

/-- The CRC over bytes in the order sent: initial value 0xFFFF, no final inversion. -/
def crc16 (bytes : List Byte) : BitVec 16 := (bytes.flatMap byteBits).foldl crcBit 0xFFFF

/-- The CRC as sent, most significant byte first. -/
def crcBytes (bytes : List Byte) : List Byte :=
  let c := crc16 bytes
  [(c >>> 8).truncate 8, c.truncate 8]

/-! ## A frame as sent (R183) -/

/-- Kind, station ID, length and payload: the bytes the CRC covers. -/
def coveredBytes (kind station : Byte) (payload : List Byte) : List Byte :=
  kind :: station :: BitVec.ofNat 8 payload.length :: payload

/-- The bytes between the two delimiters. -/
def frameBytes (kind station : Byte) (payload : List Byte) : List Byte :=
  coveredBytes kind station payload ++ crcBytes (coveredBytes kind station payload)

/-- Manchester: a one is high then low, a zero low then high. -/
def halfBits (b : Bool) : HalfBits := [b, !b]

def byteHalfBits (b : Byte) : HalfBits := (byteBits b).flatMap halfBits

/-- The preamble 0xAA 0xAA. -/
def preamble : HalfBits := byteHalfBits 0xAA ++ byteHalfBits 0xAA

/-- The start delimiter: 1, 0, 1, 0, 1, a bit time high throughout, one low throughout, 1. -/
def startDelimiter : HalfBits :=
  [true, false, true, false, true].flatMap halfBits ++ [true, true, false, false] ++ halfBits true

/-- The end delimiter: 1, 0, 1, 0, 1, 0, a bit time high throughout, one low throughout. -/
def endDelimiter : HalfBits :=
  [true, false, true, false, true, false].flatMap halfBits ++ [true, true, false, false]

/-- A frame on the line, one level for each half-bit: the bytes between its delimiters, behind the preamble. -/
def onLine (bytes : List Byte) : HalfBits :=
  preamble ++ startDelimiter ++ bytes.flatMap byteHalfBits ++ endDelimiter

/-! ## A received carrier (R128, R142, R183) -/

/-- The bit of a bit time, by its two half-bits: `none` for a code violation. -/
def bitOfHalves : Bool → Bool → Option Bool
  | true, false => some true
  | false, true => some false
  | true, true | false, false => none

/-- The bits of half-bits two by two: `none` where one is a code violation, or the last is cut short. -/
def manchesterBits : HalfBits → Option (List Bool)
  | [] => some []
  | [_] => none
  | h1 :: h2 :: rest =>
    match bitOfHalves h1 h2, manchesterBits rest with
    | some b, some bs => some (b :: bs)
    | some _, none | none, some _ | none, none => none

/-- The byte of eight bit times: `none` where it is no Manchester coded byte. -/
def manchesterByte (h : HalfBits) : Option Byte := (manchesterBits h).bind (fun bits => (bytesOfBits bits).head?)

/-- What the controller receives of a carrier with a valid start delimiter: whether the preamble stood before it, the bytes
behind it, and whether an end delimiter ended them. -/
structure RawFrame where
  preamble : Bool
  bytes : List Byte
  endDelimiter : Bool
  deriving DecidableEq, Repr

/-- The bytes up to the end delimiter, and whether there is one: they end too where a byte is no Manchester coded one, or the
carrier ends. At most `count` bit times of eight are read. -/
def bytesToEnd : Nat → HalfBits → List Byte × Bool
  | 0, _ => ([], false)
  | count + 1, line =>
    if line.take 16 = endDelimiter then ([], true)
    else
      match manchesterByte (line.take 16) with
      | none => ([], false)
      | some b =>
        let (bytes, ended) := bytesToEnd count (line.drop 16)
        (b :: bytes, ended)

/-- The half-bits before the first start delimiter and those behind it: `none` where there is none. -/
def atStart : HalfBits → Option (HalfBits × HalfBits)
  | [] => none
  | h :: rest =>
    if startDelimiter.isPrefixOf (h :: rest) then some ([], (h :: rest).drop 16)
    else
      match atStart rest with
      | none => none
      | some (before, behind) => some (h :: before, behind)

/-- What a carrier is received as: `none` where it has no valid start delimiter (R142). DESIGN CHOICE (log 61): the receiver looks
for the first start delimiter, wherever it stands; half-bits behind the end delimiter are not this frame's. -/
def receiveLine (line : HalfBits) : Option RawFrame :=
  match atStart line with
  | none => none
  | some (before, behind) =>
    let (bytes, ended) := bytesToEnd behind.length behind
    some ⟨decide (before = preamble), bytes, ended⟩

/-! ## What a received frame says (R128, R129) -/

/-- What a valid frame of a station says. -/
inductive FrameContent where
  | request (sequence : Sequence) (side : Side) (credential : Credential)
  | report (entrance : Entrance)
  | idle
  deriving DecidableEq, Repr

/-- The side codes: 0 and 3 name neither side. -/
def sideOf (code : Nat) : Option Side :=
  match code with
  | 1 => some .outside
  | 2 => some .inside
  | _ => none

def entranceOf (code : Nat) : Option Entrance :=
  match code with
  | 1 => some .shut
  | 2 => some .opened
  | 3 => some .held
  | 4 => some .forced
  | _ => none

/-- The payload of a kind: `none` where the kind, the length or a field breaks its encoding. -/
def readPayload (kind : Byte) (payload : List Byte) : Option FrameContent :=
  match kind.toNat, payload with
  | 2, [b0, b1, b2, b3, b4, b5] =>
    match sideOf (b0 >>> 6).toNat with
    | some side => some (.request (b0.truncate 4) side (b1 ++ b2 ++ b3 ++ b4 ++ b5 : BitVec (8 + 8 + 8 + 8 + 8)))
    | none => none
  | 3, [b0] =>
    match entranceOf b0.toNat with
    | some e => some (.report e)
    | none => none
  | 4, [] => some .idle
  | _, _ => none

/-- Read a received frame: its station and content, or `none` where it is discarded whatever the turn (R128). DEDUCED (log 61):
a preamble other than R183's breaks the frame's encoding, too. -/
def readFrame (f : RawFrame) : Option (Nat × FrameContent) :=
  if f.preamble ∧ f.endDelimiter then
    match f.bytes with
    | kind :: station :: length :: rest =>
      let payload := rest.take length.toNat
      if rest.drop length.toNat = crcBytes (kind :: station :: length :: payload) ∧ payload.length = length.toNat then
        match readPayload kind payload with
        | some c => some (station.toNat, c)
        | none => none
      else none
    | [] | [_] | [_, _] => none
  else none

/-! ## The MARK as sent (R136, R183) -/

/-- The three bytes of a verdict entry. -/
def entryBytes (e : VerdictEntry) : List Byte :=
  [BitVec.ofNat 5 e.station ++ BitVec.ofNat 3 e.verdict.code, e.sequence ++ (0#4), 0#3 ++ BitVec.ofNat 5 (reasonCode e.reason)]

def Mark.payload (m : Mark) : List Byte :=
  m.cycle :: BitVec.ofNat 8 m.mode.code :: BitVec.ofNat 8 m.entries.length :: m.entries.flatMap entryBytes

/-- The bytes of a MARK between the two delimiters: kind 0x1, station ID 0. -/
def Mark.frameBytes (m : Mark) : List Byte := Machine.frameBytes 0x01 0x00 m.payload

/-- The MARK on the line. -/
def Mark.line (m : Mark) : HalfBits := onLine m.frameBytes

end Sys2Proof.Machine
end

