-- ==== Sys2Proof/Machine/Line.lean ====
section
/-! DEFINITION. The Station Link Controller on the line: the cycle and the MARK (R134, R136), turns (R135, R139, R140), intake (R145) and reports (R146), jabber and disturbances (R141, R142). -/

namespace Sys2Proof.Machine

open Sys2Proof

/-! ## The MARK (R134, R136, R141) -/

/-- What a MARK does to a JABBERING station: its count falls, or it becomes SILENT (R141). -/
def releaseJabber (st : Station) : Station :=
  if st.state = .jabbering then
    if st.release = 0 then { st with state := .silent } else { st with release := st.release - 1 }
  else st

def releaseJabbers (s : State) : State :=
  (Table.keys s.stations).foldl (fun s k => updateStation k releaseJabber s) s

/-- Build and send the MARK, one operation; the turns of a new cycle follow. -/
def sendMark (s : State) : State :=
  let (entries, s) := handOver s
  let s := releaseJabbers s
  { s with
    markSent := some ⟨s.cycle, s.mode, entries⟩
    cycle := s.cycle + 1
    linkState := .running
    cyclePlace := .turnDue 1 }

/-- The rest of the cycle is abandoned and the line must fall quiet (R142). -/
def enterRecovering (s : State) : State := { s with linkState := .recovering, cyclePlace := .markDue }

/-- MARK: due while RUNNING; carrier on the line makes the link RECOVERING (R134). -/
def execMark (carrier : Bool) (s : State) : Outcome :=
  .next (if s.awake ∧ s.linkState = .running ∧ s.cyclePlace = .markDue then
    if carrier then enterRecovering s else sendMark s
  else s)

/-- RECOVERY_QUIET: 64 bit times of quiet end the wait (R142). -/
def execRecoveryQuiet (s : State) : Outcome :=
  .next (if s.awake ∧ s.linkState = .recovering then sendMark s else s)

/-! ## Turns (R134, R135, R139) -/

/-- The next turn, or the next MARK after station N (R134). -/
def nextTurn (k : Nat) (s : State) : State :=
  let (c, s) := readConfig s
  { s with cyclePlace := if k < c.stations then .turnDue (k + 1) else .markDue }

/-- TURN_START: the turn due begins with its frame allowance, or is skipped. -/
def startTurn (k : Nat) (s : State) : State :=
  if (s.station k).state = .jabbering then nextTurn k s
  else
    let (b, s) := readStationBody k s
    match b with
    | none => nextTurn k s
    | some b => { s with cyclePlace := .turnOpen k (1 + b.extraFrames) false }

def execTurnStart (s : State) : Outcome :=
  .next (match s.cyclePlace with
    | .turnDue k => if s.awake ∧ s.linkState = .running then startTurn k s else s
    | .markDue | .turnOpen _ _ _ => s)

/-- A station becomes LOST (R140). -/
def loseStation (k : Nat) (s : State) : State :=
  giveNotices [.requestQueue, .decisionEngine, .pairTable, .referralQueue] (.loss k) false
    (raise .stationLost (updateStation k (fun st => { st with state := .lost, answer := none, inFlight := 0 }) s))

/-- A turn ends missed (R139): the count rises by one, and never above the limit (R137), where a station released from
jabber may stand already. A LOST, JABBERING or FAULTED station is not changed (log 17). -/
def missTurn (k : Nat) (s : State) : State :=
  match (s.station k).state with
  | .silent | .active =>
    let (c, s) := readConfig s
    let n := min ((s.station k).missed + 1) c.missedLimit
    let s := updateStation k (fun st => { st with missed := n }) s
    if c.missedLimit ≤ n then loseStation k s else s
  | .lost | .jabbering | .faulted => s

/-- The end of a turn, heard or missed. -/
def endTurn (k : Nat) (heard : Bool) (s : State) : State := nextTurn k (if heard then s else missTurn k s)

/-- A frame of the allowance is used up (R135). -/
def frameDone (k left : Nat) (heard : Bool) (s : State) : State :=
  if left ≤ 1 then endTurn k heard s else { s with cyclePlace := .turnOpen k (left - 1) heard }

/-- A valid frame is heard: ACTIVE with no missed turn, before it is acted on (R139). -/
def hearStation (k : Nat) (s : State) : State :=
  updateStation k (fun st => { st with state := .active, missed := 0 }) s

/-! ## Intake (R145) and reports (R146) -/

/-- A repeat answered without a decision: a REPEAT entry, where a place is free. -/
def answerRepeat (k : Nat) (a : AnswerRecord) (s : State) : State :=
  if 1 ≤ s.freePlaces then
    appendEntry ⟨k, a.sequence, a.verdict, if a.verdict = .deny then a.reason else none, true, none⟩ s
  else s

/-- A new request at the tail of the Request Queue, or dropped with INTAKE OVERRUN. -/
def placeRequest (r : Request) (s : State) : State :=
  if s.requests.length < Config.requestPlaces then
    updateStation r.station (fun st => { st with inFlight := withSequence st.inFlight r.sequence })
      { s with requests := s.requests ++ [r] }
  else raise .intakeOverrun s

/-- The classification of a valid REQUEST: the first line of R145 that applies. -/
def intake (r : Request) (s : State) : State :=
  let st := s.station r.station
  if s.unbindHold = some r.station then s
  else if st.inFlight.getLsbD r.sequence.toNat then s
  else
    match st.answer with
    | none => placeRequest r s
    | some a =>
      if a.sequence = r.sequence then (if a.sent then answerRepeat r.station a s else s)
      else placeRequest r s

/-- A valid REPORT (R146). DESIGN CHOICE (log 49): an entrance state that is absent is other than FORCED. -/
def acceptReport (k : Nat) (e : Entrance) (s : State) : State :=
  let before := (s.station k).entrance
  raiseIf (decide (e = .forced ∧ before ≠ some .forced ∧ s.mode ≠ .fire)) .entranceForced
    (updateStation k (fun st => { st with entrance := some e }) s)

/-- What a valid frame says is acted on. -/
def acceptContent (k : Nat) (c : FrameContent) (s : State) : State :=
  match c with
  | .request q side credential => intake ⟨k, q, side, credential⟩ s
  | .report e => acceptReport k e s
  | .idle => s

/-- A frame arrives (R128): one that names the station of the open turn is heard and acted on; any other, one that cannot
be read, and one of a station that has become FAULTED in its turn (R138, log 17) is discarded. Each uses up one of the
turn's frames. -/
def receiveFrame (f : Option (Nat × FrameContent)) (s : State) : State :=
  if s.awake ∧ s.linkState = .running then
    match s.cyclePlace with
    | .markDue | .turnDue _ => s
    | .turnOpen k left heard =>
      match f with
      | none => frameDone k left heard s
      | some (station, c) =>
        if station = k ∧ (s.station k).state ≠ .faulted then frameDone k left true (acceptContent k c (hearStation k s))
        else frameDone k left heard s
  else s

def execRequest (station : Nat) (sequence : Sequence) (side : Side) (credential : Credential) (s : State) : Outcome :=
  .next (receiveFrame (some (station, .request sequence side credential)) s)

def execReport (station : Nat) (entrance : Entrance) (s : State) : Outcome :=
  .next (receiveFrame (some (station, .report entrance)) s)

def execIdle (station : Nat) (s : State) : Outcome := .next (receiveFrame (some (station, .idle)) s)

/-! ## The other ends of a turn -/

/-- Do something to the open turn of a running link. -/
def onOpenTurn (f : Nat → Bool → State → State) (s : State) : State :=
  if s.awake ∧ s.linkState = .running then
    match s.cyclePlace with
    | .markDue | .turnDue _ => s
    | .turnOpen k _ heard => f k heard s
  else s

/-- TURN_TIMER_EXPIRY (R135). -/
def execTurnTimerExpiry (s : State) : Outcome := .next (onOpenTurn endTurn s)

/-- The turn's station jabbers (R141); the record of a FAULTED station stays as it is (log 17). -/
def jabberTurn (k : Nat) (s : State) : State :=
  let (c, s) := readConfig s
  enterRecovering (raise .jabber (updateStation k
    (fun st => if st.state = .faulted then st else { st with state := .jabbering, release := c.jabberRelease }) s))

/-- JABBER (R141). -/
def execJabber (s : State) : Outcome := .next (onOpenTurn (fun k _ s => jabberTurn k s) s)

/-- Carrier without a valid start delimiter in an open turn (R142): the turn counts as missed. -/
def disturbTurn (s : State) : State := onOpenTurn (fun k _ s => enterRecovering (missTurn k s)) s

/-- LINE_DISTURBANCE (R142). -/
def execLineDisturbance (s : State) : Outcome := .next (disturbTurn s)

/-! ## A carrier, half-bit by half-bit (R128, R142, R183) -/

/-- What a carrier in a turn does: with a valid start delimiter it is received as a frame, which its bytes decide; without one it
is a disturbance. -/
def receiveCarrier (line : HalfBits) (s : State) : State :=
  match receiveLine line with
  | none => disturbTurn s
  | some f => receiveFrame (readFrame f) s

/-- DISCARDED_FRAME: the half-bits decide (log 34). -/
def execDiscardedFrame (line : HalfBits) (s : State) : Outcome := .next (receiveCarrier line s)

end Sys2Proof.Machine
end

