-- ==== Sys2Proof/Machine/GrantCommands.lean ====
section
/-! DEFINITION. The commands of the Grant Table: ADD, AMEND, SUSPEND, RESUME, REVOKE, RETIRE, READ GRANT and FIND GRANTS (R9, R15 to R24). -/

namespace Sys2Proof.Machine

open Sys2Proof

/-! ## ADD GRANT (R9) -/

/-- The record the arguments describe; hours state and uses remaining as R9 writes them at a minute. -/
def addedGrant (w : Window) (now : Minute) : GrantRecord :=
  let hours := if w.arg5.getLsbD 31 then some (hoursArg w.arg5) else none
  { credential := credentialArg w.arg0 w.arg1
    role := if w.arg1.getLsbD 8 then .escort else .contractor
    company := w.arg1.extractLsb' 16 16
    pattern := w.arg2.extractLsb' 0 16 &&& w.arg2.extractLsb' 16 16
    mask := w.arg2.extractLsb' 16 16
    validFrom := minuteArg w.arg3
    validUntil := minuteArg w.arg4
    hours := hours
    hoursState := hoursStateAt hours now
    uses := if w.arg6.getLsbD 31 then some ⟨field w.arg6 8 8, field w.arg6 8 8⟩ else none
    suspendedFrom := none }

/-- The checks of the arguments alone (R9). -/
def addArgumentsOk (w : Window) : Bool :=
  credentialOk (credentialArg w.arg0 w.arg1) && (minuteArg w.arg3).ok && (minuteArg w.arg4).ok &&
    (minuteArg w.arg3).before (minuteArg w.arg4) &&
    (!w.arg5.getLsbD 31 || (hoursArg w.arg5).ok) && (!w.arg6.getLsbD 31 || decide (field w.arg6 8 8 ≠ 0))

/-- The state of a grant just placed (R9). -/
def GrantRecord.placedState (g : GrantRecord) (now : Minute) : GrantState :=
  if g.validFrom.atOrBefore now then .active else .pending

def opAddGrant (s : State) : State :=
  if addArgumentsOk s.window then
    let (c, s) := readClockItem s
    if c.isSet then
      let now := c.calendar.minute
      let g := addedGrant s.window now
      if g.validUntil.atOrBefore now then refuse .badArgument s
      else
        let (slot, s) := findFreeSlot Config.slots 1 s
        match slot with
        | none => refuse .tableFull s
        | some k =>
          let (header, s) := readSlotHeader k s
          let issue := header.issue + 1
          let st := g.placedState now
          finish (.okWith { arg7 := handleWordWith ⟨k, issue⟩ st }) (writeSlot k ⟨st, issue⟩ g s)
    else refuse .clockUnset s
  else refuse .badArgument s

def execAddGrant (s : State) : Outcome := .next (commandWrite 0x10 opAddGrant s)

/-! ## Commands that read the body of a named grant (R5, R7) -/

/-- The handle check, the FAULTED check and the read of the body, then what the command does with the grant. -/
def withGrant (h : Handle) (act : SlotHeader → GrantRecord → State → State) (s : State) : State :=
  let (r, s) := checkHandle h s
  match r with
  | .error c => refuse c s
  | .ok header =>
    if header.state = .faulted then refuse .faulted s
    else
      let (body, s) := readSlotBody h.slot s
      match body with
      | none => refuse .faulted s
      | some g => act header g s

/-! ## AMEND GRANT (R15, R16) -/

/-- The three amendments, each "keep" as `none` (R182). -/
structure Amendments where
  validUntil : Option Minute
  hours : Option (Option DailyHours)
  uses : Option (Option Uses)
  deriving DecidableEq, Repr

/-- The amendments the arguments describe; `none` where a field uses an encoding with no meaning. -/
def amendmentsArg (w : Window) : Option Amendments :=
  let until_ : Option (Option Minute) := match field w.arg1 0 2 with
    | 0 => some none
    | 1 => some (some (minuteArg w.arg2))
    | _ => none
  let hours : Option (Option (Option DailyHours)) := match field w.arg1 2 2 with
    | 0 => some none
    | 1 => some (some none)
    | 2 => some (some (some (hoursArg w.arg3)))
    | _ => none
  let uses : Option (Option (Option Uses)) := match field w.arg1 4 2 with
    | 0 => some none
    | 1 => some (some none)
    | 2 => some (some (some ⟨field w.arg4 8 8, field w.arg4 0 8⟩))
    | _ => none
  match until_, hours, uses with
  | some u, some h, some n => some ⟨u, h, n⟩
  | none, _, _ => none
  | some _, none, _ => none
  | some _, some _, none => none

/-- The checks of R15 on the amendments of a grant. -/
def Amendments.ok (a : Amendments) (g : GrantRecord) : Bool :=
  (match a.validUntil with
    | none => true
    | some m => m.ok && g.validFrom.before m) &&
  (match a.hours with
    | some (some h) => h.ok
    | some none | none => true) &&
  (match a.uses with
    | some (some u) => decide (u.allowance ≠ 0) && decide (u.remaining ≤ u.allowance)
    | some none | none => true)

/-- The record with the amendments written (R16). -/
def Amendments.apply (a : Amendments) (g : GrantRecord) : GrantRecord :=
  let g := match a.validUntil with
    | none => g
    | some m => { g with validUntil := m }
  let g := match a.hours with
    | none => g
    | some none => { g with hours := none, hoursState := .absent }
    | some (some h) => { g with hours := some h, hoursState := if g.hours = none then .inHours else g.hoursState }
  match a.uses with
  | none => g
  | some u => { g with uses := u }

/-- The state after an amendment (R16). -/
def settleAmended (st : GrantState) (g : GrantRecord) (s : State) : GrantState × State :=
  match st with
  | .pending | .active => (if g.hasUse then st else .spent, s)
  | .spent =>
    if g.hasUse then
      let (now, s) := presentMinute s
      (g.placedState now, s)
    else (st, s)
  | .free | .suspended | .lapsed | .revoked | .faulted => (st, s)

/-- What AMEND GRANT does with a grant whose body it has read. -/
def amendGrant (h : Handle) (w : Window) (header : SlotHeader) (g : GrantRecord) (s : State) : State :=
  if header.state.live then
    match amendmentsArg w with
    | none => refuse .badArgument s
    | some a =>
      if a.ok g then
        let g' := a.apply g
        let (st, s) := settleAmended header.state g' s
        finish (.okWith { arg0 := handleWordWith h st }) (writeSlot h.slot ⟨st, header.issue⟩ g' s)
      else refuse .badArgument s
  else refuse .wrongState s

def opAmendGrant (s : State) : State :=
  withGrant (handleArg s.window.arg0) (amendGrant (handleArg s.window.arg0) s.window) s

def execAmendGrant (s : State) : Outcome := .next (commandWrite 0x11 opAmendGrant s)

/-! ## SUSPEND GRANT and RESUME GRANT (R17, R18) -/

/-- The state a suspension remembers. -/
def rememberedState (st : GrantState) : SuspendedFrom := if st = .pending then .pending else .active

def suspendGrant (h : Handle) (header : SlotHeader) (g : GrantRecord) (s : State) : State :=
  match header.state with
  | .free | .faulted | .lapsed | .revoked => refuse .wrongState s
  | .suspended => refuse .already s
  | .pending | .active | .spent =>
    finishOk (writeSlot h.slot ⟨.suspended, header.issue⟩
      { g with suspendedFrom := some (rememberedState header.state) } s)

def opSuspendGrant (s : State) : State :=
  withGrant (handleArg s.window.arg0) (suspendGrant (handleArg s.window.arg0)) s

def execSuspendGrant (s : State) : Outcome := .next (commandWrite 0x12 opSuspendGrant s)

/-- The state a grant resumes to: the remembered one, or SPENT without a use left. -/
def resumedState (g : GrantRecord) : GrantState :=
  if g.hasUse then
    (match g.suspendedFrom with
      | some .pending => .pending
      | some .active | none => .active)
  else .spent

def resumeGrant (h : Handle) (header : SlotHeader) (g : GrantRecord) (s : State) : State :=
  if header.state = .suspended then
    let st := resumedState g
    finish (.okWith { arg0 := handleWordWith h st })
      (writeSlot h.slot ⟨st, header.issue⟩ { g with suspendedFrom := none } s)
  else refuse .wrongState s

def opResumeGrant (s : State) : State :=
  withGrant (handleArg s.window.arg0) (resumeGrant (handleArg s.window.arg0)) s

def execResumeGrant (s : State) : Outcome := .next (commandWrite 0x13 opResumeGrant s)

/-! ## REVOKE GRANT (R19, R20) -/

/-- The four blocks that take a revoke notice. -/
def revokeReceivers : List Block := [.decisionEngine, .pairTable, .referralQueue, .presencePool]

def revokeGrant (h : Handle) (header : SlotHeader) (g : GrantRecord) (s : State) : State :=
  match header.state with
  | .free | .faulted | .lapsed => refuse .wrongState s
  | .revoked => refuse .already s
  | .pending | .active | .spent | .suspended =>
    let s := writeSlot h.slot ⟨.revoked, header.issue⟩ { g with suspendedFrom := none } s
    { giveNotices revokeReceivers (.revoke h) true s with work := some (.revoke ⟨0, 0, 0⟩) }

def opRevokeGrant (s : State) : State :=
  withGrant (handleArg s.window.arg0) (revokeGrant (handleArg s.window.arg0)) s

def execRevokeGrant (s : State) : Outcome := .next (commandWrite 0x14 opRevokeGrant s)

/-! ## READ GRANT (R22) -/

def opReadGrant (s : State) : State :=
  let h := handleArg s.window.arg0
  let (r, s) := checkHandle h s
  let faulted : CommandResult := { code := .faulted, words := { arg7 := handleWordWith h .faulted } }
  match r with
  | .error c => refuse c s
  | .ok header =>
    if header.state = .faulted then finish faulted s
    else
      let (body, s) := readSlotBody h.slot s
      match body with
      | none => finish faulted s
      | some g => finish (.okWith (grantWords h header.state g)) s

def execReadGrant (s : State) : Outcome := .next (commandWrite 0x16 opReadGrant s)

/-! ## RETIRE GRANT (R21) -/

/-- Question 1: unsent permits, and a granted claim of the decision in hand. -/
def engineHolds (h : Handle) (s : State) : Bool :=
  s.verdicts.any (fun e => e.holds (PermitData.holdsHandle h)) ||
    (match s.seat with
      | none => false
      | some d => d.claims.any (fun c => decide (c.handle = h)))

/-- One question of the retire check. -/
def retireAsk (h : Handle) (question : Nat) (s : State) : Bool × State :=
  match question with
  | 0 => (engineHolds h s, s)
  | 1 => (s.anyPair (fun c => decide (c.handle = h)), s)
  | 2 => (s.anyApproval (fun _ a => decide (a.handle = h)), s)
  | _ => poolHolds h s

/-- RETIRE GRANT ends: the hold is removed. -/
def endRetire (c : ResultCode) (s : State) : State := refuse c { s with retireHold := none }

/-- The next question. A slot that the tamper clear has freed meanwhile completes the command OK (R21). -/
def retireStep (h : Handle) (asked : Nat) (s : State) : State :=
  let (header, s) := readSlotHeader h.slot s
  if header.state = .free then endRetire .ok s
  else
    let (holder, s) := retireAsk h asked s
    if holder then endRetire .inUse s
    else if asked < 3 then { s with work := some (.retire h (asked + 1)) }
    else endRetire .ok (writeSlot h.slot ⟨.free, header.issue⟩ .empty s)

/-- The hold, before the first question. -/
def opRetireGrant (s : State) : State :=
  let h := handleArg s.window.arg0
  let (r, s) := checkHandle h s
  match r with
  | .error c => refuse c s
  | .ok _ => { s with retireHold := some h.slot, work := some (.retire h 0) }

/-! ## FIND GRANTS (R23, R24) -/

/-- The key and starting slot the arguments describe; `none` where R23 refuses them. -/
def findArg (w : Window) : Option (FindKey × Nat) :=
  let start := field w.arg0 16 11
  if 1 ≤ start ∧ start ≤ Config.slots then
    match field w.arg0 0 2 with
    | 0 =>
      if credentialOk (credentialArg w.arg1 w.arg2) then some (.credential (credentialArg w.arg1 w.arg2), start) else none
    | 1 => if w.arg1.toNat ≤ 65535 then some (.company (w.arg1.truncate 16), start) else none
    | 2 => some (.all, start)
    | _ => none
  else none

/-- A grant that can be read qualifies for a key. -/
def FindKey.qualifies (k : FindKey) (g : GrantRecord) : Bool :=
  match k with
  | .credential c => decide (g.credential = c)
  | .company c => decide (g.company = c)
  | .all => true

/-- The six handle words, 0 where none. -/
def findWords (found : List (Handle × GrantState)) (continuation : Nat) : Window :=
  let w := found.map (fun p => handleWordWith p.1 p.2)
  { arg0 := put 0 3 found.length ||| put 16 11 continuation
    arg1 := w.getD 0 0
    arg2 := w.getD 1 0
    arg3 := w.getD 2 0
    arg4 := w.getD 3 0
    arg5 := w.getD 4 0
    arg6 := w.getD 5 0 }

/-- The continuation slot (R23). -/
def findContinuation (found : List (Handle × GrantState)) : Nat :=
  if found.length < 6 then 0
  else
    match found.getLast? with
    | none => 0
    | some p => if p.1.slot < Config.slots then p.1.slot + 1 else 0

def endFind (found : List (Handle × GrantState)) (s : State) : State :=
  finish (.okWith (findWords found (findContinuation found))) s

/-- Whether the slot read qualifies, and with what state (R23, R24). -/
def findRead (key : FindKey) (k : Nat) (s : State) : Option (Handle × GrantState) × State :=
  let (header, s) := readSlotHeader k s
  let asFaulted : Option (Handle × GrantState) :=
    if key = .all then some (⟨k, header.issue⟩, .faulted) else none
  match header.state with
  | .free => (none, s)
  | .faulted => (asFaulted, s)
  | .pending | .active | .spent | .suspended | .lapsed | .revoked =>
    let (body, s) := readSlotBody k s
    match body with
    | none => (asFaulted, s)
    | some g => (if key.qualifies g then some (⟨k, header.issue⟩, header.state) else none, s)

/-- One slot of FIND GRANTS, one operation on the slot at the cursor (R8, R24). -/
def findStep (key : FindKey) (cursor : Nat) (found : List (Handle × GrantState)) (s : State) : State :=
  let (one, s) := findRead key cursor s
  let found := found ++ one.toList
  if 6 ≤ found.length ∨ Config.slots ≤ cursor then endFind found s
  else { s with work := some (.find key (cursor + 1) found) }

def opFindGrants (s : State) : State :=
  match findArg s.window with
  | none => refuse .badArgument s
  | some (key, start) => { s with work := some (.find key start []) }

end Sys2Proof.Machine
end

