-- ==== Sys2Proof/Machine/ClockCommands.lean ====
section
/-! DEFINITION. The commands of the Estate Clock: SET CLOCK, READ CLOCK, SHIFT HOUR, TRIM CLOCK (R30 to R34), and the SWEEP_VISIT row. -/

namespace Sys2Proof.Machine

open Sys2Proof

/-! ## SET CLOCK (R30) -/

/-- The clock as the command writes it: SET, the trim cancelled, the second restarted. -/
def writeClock (c : Calendar) (s : State) : State :=
  { s with clock := .of ⟨c, true⟩, trim := .of none, secondLength := 1000 }

def opSetClock (s : State) : State :=
  let c : Calendar := ⟨minuteArg s.window.arg0, field s.window.arg1 0 6⟩
  if c.minute.ok ∧ c.second ≤ 59 then finishOk (sweepTrigger (writeClock c s)) else refuse .badArgument s

def execSetClock (s : State) : Outcome := .next (commandWrite 0x20 opSetClock s)

/-! ## READ CLOCK (R31) -/

/-- The two words of READ CLOCK. -/
def clockWords (c : ClockItem) (trimPending : Bool) : Window :=
  { arg0 := minuteWord c.calendar.minute
    arg1 := put 0 6 c.calendar.second ||| put 8 3 c.calendar.minute.weekday ||| putBit 16 c.isSet |||
      putBit 17 trimPending }

def opReadClock (s : State) : State :=
  let (c, s) := readClockItem s
  let (t, s) := readTrim s
  finish (.okWith (clockWords c t.isSome)) s

def execReadClock (s : State) : Outcome := .next (commandWrite 0x21 opReadClock s)

/-! ## SHIFT HOUR (R32) -/

/-- The calendar moved one hour forward or back, where it stays in range. -/
def shiftedCalendar (forward : Bool) (c : Calendar) : Option Calendar :=
  if forward then c.hourLater else c.hourEarlier

def opShiftHour (s : State) : State :=
  let direction := s.window.arg0.toInt
  if direction = 1 ∨ direction = -1 then
    let (c, s) := readClockItem s
    if c.isSet then
      match shiftedCalendar (decide (direction = 1)) c.calendar with
      | none => refuse .badArgument s
      | some moved => finishOk (sweepTrigger { s with clock := .of { c with calendar := moved } })
    else refuse .clockUnset s
  else refuse .badArgument s

def execShiftHour (s : State) : Outcome := .next (commandWrite 0x22 opShiftHour s)

/-! ## TRIM CLOCK (R34) -/

def opTrimClock (s : State) : State :=
  let amount := s.window.arg0.toInt
  if -500 ≤ amount ∧ amount ≤ 500 then
    let (t, s) := readTrim s
    if t.isSome then refuse .busy s else finishOk { s with trim := .of (some amount) }
  else refuse .badArgument s

def execTrimClock (s : State) : Outcome := .next (commandWrite 0x23 opTrimClock s)

/-! ## SWEEP_VISIT (R41) -/

/-- One visit of the sweep in flight. -/
def execSweepVisit (s : State) : Outcome := .next (if s.awake then sweepStep s else s)

end Sys2Proof.Machine
end

