-- ==== Sys2Proof/Machine/RoomCommands.lean ====
section
/-! DEFINITION. The commands of the Room Table and the Presence Pool: DEFINE, CLOSE, OPEN, DELETE and READ ROOM, LIST PRESENCE, REMOVE PRESENCE, RESET CENSUS (R49 to R53, R64 to R66). -/

namespace Sys2Proof.Machine

open Sys2Proof

/-- The room number of a room command: ARG0 bits 7-0. -/
def roomArg (w : Window) : Nat := field w.arg0 0 8

def roomArgOk (w : Window) : Bool := decide (roomArg w < Config.rooms)

/-! ## DEFINE ROOM (R49, R50) -/

/-- The arguments of DEFINE ROOM: `none` where R49 refuses them. -/
structure RoomDefinition where
  room : Nat
  key : Key
  cls : RoomClass
  limit : Nat
  deriving DecidableEq, Repr

def defineArg (w : Window) : Option RoomDefinition :=
  match RoomClass.ofCode (field w.arg2 0 3) with
  | none => none
  | some cls =>
    if roomArgOk w ∧ 1 ≤ field w.arg3 0 8 ∧ field w.arg3 0 8 ≤ 32 then
      some ⟨roomArg w, w.arg1.extractLsb' 0 16, cls, field w.arg3 0 8⟩
    else none

/-- The key scan: whether another room that can be read holds the key; every other room is read (R48, R49). -/
def scanKeys (room : Nat) (key : Key) : List Nat → State → Bool × State
  | [], s => (false, s)
  | r :: rs, s =>
    if r = room then scanKeys room key rs s
    else
      let (view, s) := readRoomRecord r s
      let (later, s) := scanKeys room key rs s
      match view with
      | .undefined | .faulted => (later, s)
      | .readable _ b => (decide (b.key = key) || later, s)

/-- The two further checks for a room in service or closed (R50), then the amendment. -/
def amendRoom (d : RoomDefinition) (b : RoomBody) (s : State) : State :=
  let s := scanIndexes s
  if d.limit < s.occupancy d.room then refuse .inUse s
  else if d.cls ≠ b.cls ∧ (s.anyPair (fun c => decide (c.room = d.room)) ∨
      s.anyApproval (fun e _ => decide (e.room = d.room))) then refuse .inUse s
  else finishOk (writeRoomBody d.room { b with key := d.key, cls := d.cls, limit := d.limit } s)

/-- A new room (R49). -/
def createRoom (d : RoomDefinition) (s : State) : State :=
  finishOk (s.setRoom d.room ⟨.of .inService, .of ⟨d.key, d.cls, d.limit, 0, false⟩⟩)

def opDefineRoom (s : State) : State :=
  match defineArg s.window with
  | none => refuse .badArgument s
  | some d =>
    let (view, s) := readRoomRecord d.room s
    match view with
    | .faulted => refuse .faulted s
    | .undefined =>
      let (taken, s) := scanKeys d.room d.key (numbersFrom 0 Config.rooms) s
      if taken then refuse .badArgument s else createRoom d s
    | .readable _ _ =>
      let (taken, s) := scanKeys d.room d.key (numbersFrom 0 Config.rooms) s
      if taken then refuse .badArgument s else amendRoom d (s.room d.room).body.value s

def execDefineRoom (s : State) : Outcome := .next (commandWrite 0x30 opDefineRoom s)

/-! ## CLOSE ROOM and OPEN ROOM (R51) -/

/-- The state a room command writes, refused ALREADY where it stands. -/
def moveRoom (wanted : RoomState) (s : State) : State :=
  if roomArgOk s.window then
    let r := roomArg s.window
    let (view, s) := readRoomRecord r s
    match view with
    | .undefined => refuse .notFound s
    | .faulted => refuse .faulted s
    | .readable closed _ =>
      if closed = decide (wanted = .closed) then refuse .already s else finishOk (writeRoomHeader r wanted s)
  else refuse .badArgument s

def execCloseRoom (s : State) : Outcome := .next (commandWrite 0x31 (moveRoom .closed) s)

def execOpenRoom (s : State) : Outcome := .next (commandWrite 0x32 (moveRoom .inService) s)

/-! ## DELETE ROOM (R52) -/

def opDeleteRoom (s : State) : State :=
  if roomArgOk s.window then
    let r := roomArg s.window
    let (h, s) := readRoomHeader r s
    if h = .undefined then refuse .notFound s
    else
      let s := scanIndexes s
      if s.occupancy r ≠ 0 then refuse .inUse s
      else
        let (bound, s) := boundStations r s
        if bound ≠ [] then refuse .inUse s else finishOk (s.setRoom r .cleared)
  else refuse .badArgument s

def execDeleteRoom (s : State) : Outcome := .next (commandWrite 0x33 opDeleteRoom s)

/-! ## READ ROOM (R53) -/

/-- The bound stations with their entrance states (ARG2). -/
def boundWord (bound : List Nat) (s : State) : Word :=
  (match bound[0]? with
    | none => 0
    | some k => put 0 5 k ||| put 8 3 (entranceCode (s.station k).entrance)) |||
  (match bound[1]? with
    | none => 0
    | some k => put 16 5 k ||| put 24 3 (entranceCode (s.station k).entrance))

/-- The fields of a body (ARG0). -/
def roomBodyField (b : RoomBody) : Word :=
  put 4 2 b.cls.code ||| putBit 6 b.suspect ||| put 8 6 b.limit ||| put 24 6 b.escorts

/-- The words READ ROOM returns for a room that is not UNDEFINED. -/
def roomWords (st : RoomState) (body : Option RoomBody) (occupancy : Nat) (bound : Word) : Window :=
  { arg0 := put 0 2 st.code ||| put 16 6 occupancy |||
      (match body with
        | none => 0
        | some b => roomBodyField b)
    arg1 := match body with
      | none => 0
      | some b => put 0 16 b.key.toNat
    arg2 := bound }

def opReadRoom (s : State) : State :=
  if roomArgOk s.window then
    let r := roomArg s.window
    let (view, s) := readRoomRecord r s
    match view with
    | .undefined => finish (.bare .ok) s
    | .faulted =>
      let s := scanIndexes s
      let (bound, s) := boundStations r s
      finish { code := .faulted, words := roomWords .faulted none (s.occupancy r) (boundWord bound s) } s
    | .readable closed b =>
      let s := scanIndexes s
      let (bound, s) := boundStations r s
      finish (.okWith (roomWords (if closed then .closed else .inService) (some b) (s.occupancy r)
        (boundWord bound s))) s
  else refuse .badArgument s

def execReadRoom (s : State) : Outcome := .next (commandWrite 0x34 opReadRoom s)

/-! ## LIST PRESENCE (R64) -/

/-- Read the record at a place of a room's list, where the list reaches it: its words. -/
def readPlace (r place : Nat) (s : State) : Option PresenceWords × State :=
  match s.recordAt r place with
  | none => (none, s)
  | some id =>
    let (body, s) := readPresenceBody id s
    (some (presenceWords (s.index id) body), s)

/-- The words of a page (R181). -/
def pageWords (count continuation : Nat) (first second : Option PresenceWords) : Window :=
  let a := first.getD {}
  let b := second.getD {}
  { arg0 := put 0 6 count ||| put 8 2 (first.toList.length + second.toList.length) ||| put 16 6 continuation
    arg1 := a.p0
    arg2 := a.p1
    arg3 := a.p2
    arg4 := a.p3
    arg5 := a.p4
    arg6 := b.p0
    arg7 := b.p1
    xres0 := b.p2
    xres1 := b.p3
    xres2 := b.p4 }

def opListPresence (s : State) : State :=
  let place := field s.window.arg1 0 8
  if roomArgOk s.window ∧ 1 ≤ place ∧ place ≤ 32 then
    let r := roomArg s.window
    let (h, s) := readRoomHeader r s
    if h = .undefined then refuse .notFound s
    else
      let s := scanIndexes s
      let count := s.occupancy r
      let (first, s) := readPlace r place s
      let (second, s) := readPlace r (place + 1) s
      finish (.okWith (pageWords count (if place + 2 ≤ count then place + 2 else 0) first second)) s
  else refuse .badArgument s

def execListPresence (s : State) : Outcome := .next (commandWrite 0x35 opListPresence s)

/-! ## REMOVE PRESENCE (R65) -/

/-- The record named by credential (one found in another room's list does not count), or by list place. DESIGN CHOICE
(log 46): by list place no body is read. -/
def findNamed (w : Window) (s : State) : Option Nat × State :=
  let r := roomArg w
  if w.arg0.getLsbD 8 then (s.recordAt r w.arg1.toNat, s)
  else
    let (found, s) := locate (credentialArg w.arg1 w.arg2) s
    match found with
    | none => (none, s)
    | some id => (if (s.index id).room = r then some id else none, s)

/-- The ranges of R65. -/
def removeArgumentsOk (w : Window) : Bool :=
  roomArgOk w &&
    (if w.arg0.getLsbD 8 then decide (1 ≤ w.arg1.toNat) && decide (w.arg1.toNat ≤ 32)
      else credentialOk (credentialArg w.arg1 w.arg2))

def opRemovePresence (s : State) : State :=
  if removeArgumentsOk s.window then
    let w := s.window
    let (view, s) := readRoomRecord (roomArg w) s
    match view with
    | .undefined => refuse .notFound s
    | .faulted => refuse .faulted s
    | .readable _ _ =>
      let (named, s) := findNamed w (scanIndexes s)
      match named with
      | none => refuse .notFound s
      | some id =>
        if (s.index id).sent then
          let role := (s.index id).role
          finish (.okWith { arg0 := put 0 1 role.code }) (removeRecord id s)
        else refuse .inUse s
  else refuse .badArgument s

def execRemovePresence (s : State) : Outcome := .next (commandWrite 0x36 opRemovePresence s)

/-! ## RESET CENSUS (R66) -/

/-- Every record of a room's list becomes free. -/
def emptyRoomList (ids : List Nat) (s : State) : State := ids.foldl (fun s id => s.setRecord id .free) s

def opResetCensus (s : State) : State :=
  if roomArgOk s.window then
    let r := roomArg s.window
    let (h, s) := readRoomHeader r s
    if h = .undefined then refuse .notFound s
    else
      let s := scanIndexes s
      let ids := s.roomRecords r
      if ids.any (fun id => !(s.index id).sent) then refuse .inUse s
      else
        let (view, s) := readRoomRecord r s
        let s := emptyRoomList ids s
        let done : CommandResult := .okWith { arg0 := wholeWord ids.length }
        match view with
        | .undefined | .faulted => finish done s
        | .readable _ b => finish done (writeRoomBody r { b with escorts := 0, suspect := false } s)
  else refuse .badArgument s

def execResetCensus (s : State) : Outcome := .next (commandWrite 0x37 opResetCensus s)

end Sys2Proof.Machine
end

