-- ==== Sys2Proof/Machine/PairCommands.lean ====
section
/-! DEFINITION. SET PAIR WINDOW (R93), READ PAIR CONTEXT (R104) and the PAIR_EXPIRY row (R101). -/

namespace Sys2Proof.Machine

open Sys2Proof

/-! ## SET PAIR WINDOW -/

def opSetPairWindow (s : State) : State :=
  let n := s.window.arg0.toNat
  if 5 ≤ n ∧ n ≤ 120 then
    let (old, s) := readWindowSeconds s
    finish (.okWith { arg0 := wholeWord old }) { s with pairWindow := .of n }
  else refuse .badArgument s

def execSetPairWindow (s : State) : Outcome := .next (commandWrite 0x40 opSetPairWindow s)

/-! ## READ PAIR CONTEXT -/

/-- The pending closure: its cause and, where it has one, its reason (R182). -/
def closureField : Option ClosureCause → Word
  | none => 0
  | some c => put 0 4 c.code ||| put 8 5 (reasonCode c.reason)

/-- The five words of a context, with the present pair window (R182). -/
def contextWords (c : PairContext) (window : Nat) : Window :=
  { arg0 := putBit 0 (!c.held) ||| put 8 6 c.room ||| put 16 4 c.sequence.toNat ||| put 20 1 c.role.code
    arg1 := credentialLow c.credential
    arg2 := put 0 8 (credentialHigh c.credential) ||| put 8 7 c.seconds ||| put 16 7 window
    arg3 := handleWord c.handle
    arg4 := closureField c.closure }

/-- The station ID of a command: ARG0 bits 7-0. -/
def stationArg (w : Window) : Nat := field w.arg0 0 8

def stationArgOk (w : Window) : Bool := stationIdOk (stationArg w)

def opReadPairContext (s : State) : State :=
  if stationArgOk s.window then
    match (s.pairAt (stationArg s.window)).bind s.pair with
    | none => refuse .notFound s
    | some c =>
      let (window, s) := readWindowSeconds s
      finish (.okWith (contextWords c window)) s
  else refuse .badArgument s

def execReadPairContext (s : State) : Outcome := .next (commandWrite 0x41 opReadPairContext s)

/-! ## PAIR_EXPIRY -/

/-- An OPEN context whose count is 0 expires (R101): what its tick does; the row finds one only where no tick brought it to 0
(log 6). -/
def execPairExpiry (slot : Nat) (s : State) : Outcome :=
  .next (if s.awake then
    match s.pair slot with
    | none => s
    | some c => if c.held = false ∧ c.seconds = 0 then expirePair slot c s else s
  else s)

end Sys2Proof.Machine
end

