-- ==== Sys2Proof/Machine/BarCommands.lean ====
section
/-! DEFINITION. The commands of the Bar List: BAR CREDENTIAL, UNBAR CREDENTIAL, READ BAR LIST, CLEAR BAR LIST (R109 to R112). -/

namespace Sys2Proof.Machine

open Sys2Proof

/-- The credential of BAR and UNBAR CREDENTIAL. -/
def barArg (w : Window) : Credential := credentialArg w.arg0 w.arg1

/-- The blocks that take a bar notice at once; the Presence Pool takes it after the Decision Engine (R109). -/
def barReceivers : List Block := [.decisionEngine, .pairTable, .referralQueue]

/-- The range check, the list state and the search that BAR and UNBAR share. -/
def withBarSearch (act : Credential → BarHeader → BarSearch → State → State) (s : State) : State :=
  let c := barArg s.window
  if credentialOk c then
    let (h, s) := readBarHeader s
    if h.doubtful then refuse .faulted s
    else
      let (found, s) := searchBars c (barCount h s) 1 s
      act c h found s
  else refuse .badArgument s

/-! ## BAR CREDENTIAL (R109) -/

def barCredential (c : Credential) (h : BarHeader) (found : BarSearch) (s : State) : State :=
  match found with
  | .fault => refuse .faulted s
  | .found _ => refuse .already s
  | .absent position =>
    if Config.barPlaces ≤ h.count then refuse .tableFull s
    else
      { giveNotices barReceivers (.bar c) true (insertBar position c h s) with work := some (.bar ⟨0, 0, 0⟩) }

def execBarCredential (s : State) : Outcome := .next (commandWrite 0x48 (withBarSearch barCredential) s)

/-! ## UNBAR CREDENTIAL (R110) -/

def unbarCredential (c : Credential) (h : BarHeader) (found : BarSearch) (s : State) : State :=
  match found with
  | .fault => refuse .faulted s
  | .absent _ => refuse .notFound s
  | .found position =>
    { giveNotices [.presencePool] (.unbar c) true (removeBar position h s) with work := some (.unbar 0) }

def execUnbarCredential (s : State) : Outcome := .next (commandWrite 0x49 (withBarSearch unbarCredential) s)

/-! ## READ BAR LIST (R111) -/

/-- One bit for each position returned, set where it is unreadable (bit 22 for the first). -/
def unreadableField (page : List (Option Credential)) : Word :=
  (page.mapIdx (fun i c => putBit (22 + i) c.isNone)).foldl (· ||| ·) 0

def pageLow (page : List (Option Credential)) (i : Nat) : Word :=
  match page.getD i none with
  | none => 0
  | some c => credentialLow c

def pageHigh (page : List (Option Credential)) (i : Nat) : Nat :=
  match page.getD i none with
  | none => 0
  | some c => credentialHigh c

/-- The words of a page of the list (R182). -/
def barWords (h : BarHeader) (page : List (Option Credential)) (continuation : Nat) : Window :=
  { arg0 := put 0 9 h.count ||| put 9 3 page.length ||| putBit 12 h.doubtful ||| put 13 9 continuation |||
      unreadableField page
    arg1 := pageLow page 0
    arg2 := pageLow page 1
    arg3 := pageLow page 2
    arg4 := pageLow page 3
    arg5 := pageLow page 4
    arg6 := pageLow page 5
    arg7 := put 0 8 (pageHigh page 0) ||| put 8 8 (pageHigh page 1) ||| put 16 8 (pageHigh page 2) |||
      put 24 8 (pageHigh page 3)
    xres0 := put 0 8 (pageHigh page 4) ||| put 8 8 (pageHigh page 5) }

def opReadBarList (s : State) : State :=
  let start := field s.window.arg0 0 9
  if 1 ≤ start ∧ start ≤ Config.barPlaces then
    let (h, s) := readBarHeader s
    let count := barCount h s
    let (page, s) := readPositions h.faulted (min 6 (count + 1 - start)) start s
    let (h, s) := readBarHeader s
    finish (.okWith (barWords h page (if start + 6 ≤ count then start + 6 else 0))) s
  else refuse .badArgument s

def execReadBarList (s : State) : Outcome := .next (commandWrite 0x4A opReadBarList s)

/-! ## CLEAR BAR LIST (R112) -/

/-- One unbar notice for each credential collected (R112). DESIGN CHOICE (log 57): by rising list position, and the Presence
Pool takes them in that order. -/
def giveUnbars (cs : List Credential) (s : State) : State :=
  cs.foldl (fun s c => giveNotices [.presencePool] (.unbar c) true s) s

def opClearBarList (s : State) : State :=
  let (h, s) := readBarHeader s
  let (page, s) := readPositions h.faulted (barCount h s) 1 s
  { giveUnbars (page.filterMap id) (emptyBars s) with work := some (.clearBar h.count 0) }

def execClearBarList (s : State) : Outcome := .next (commandWrite 0x4B opClearBarList s)

end Sys2Proof.Machine
end

