-- ==== Sys2Proof/Machine/ReferralCommands.lean ====
section
/-! DEFINITION. The commands of the Referral Queue: SET REFERRAL TIMEOUT, TAKE REFERRAL, ANSWER REFERRAL, CLEAR HOT CARD (R117, R120, R121, R127), and the REFERRAL_TIMEOUT row (R119). -/

namespace Sys2Proof.Machine

open Sys2Proof

/-! ## SET REFERRAL TIMEOUT -/

def opSetReferralTimeout (s : State) : State :=
  let n := s.window.arg0.toNat
  if 10 ≤ n ∧ n ≤ 300 then
    let (old, s) := readTimeoutSeconds s
    finish (.okWith { arg0 := wholeWord old }) { s with referralTimeout := .of n }
  else refuse .badArgument s

def execSetReferralTimeout (s : State) : Outcome := .next (commandWrite 0x50 opSetReferralTimeout s)

/-! ## TAKE REFERRAL -/

/-- The words of an entry after TAKE REFERRAL (R181): state 1 TAKEN for an approval, 2 SHOWN for a hot card. -/
def referralWords (e : ReferralEntry) : Window :=
  let common := put 0 16 e.reference ||| put 19 5 e.station ||| put 24 6 e.room
  { arg0 := common |||
      (match e.approval? with
        | some _ => put 17 2 1
        | none => putBit 16 true ||| put 17 2 2)
    arg1 := credentialLow e.credential
    arg2 := put 0 8 (credentialHigh e.credential) ||| put 8 4 e.sequence.toNat |||
      (match e.approval? with
        | some a => put 16 9 a.seconds
        | none => 0)
    arg3 := minuteWord e.created
    arg4 := match e.approval? with
      | some a => handleWord a.handle
      | none => 0 }

/-- An approval handed to the desk. -/
def ReferralEntry.taken (e : ReferralEntry) : ReferralEntry :=
  match e.approval? with
  | none => e
  | some a => e.withApproval { a with state := .taken }

def opTakeReferral (s : State) : State :=
  match s.referrals.find? (fun e => !e.isApproval) with
  | some e => finish (.okWith (referralWords e)) (writeReferral { e with kind := .hotCard true } s)
  | none =>
    match s.referrals.find? ReferralEntry.isWaiting with
    | some e => finish (.okWith (referralWords e)) (writeReferral e.taken s)
    | none => refuse .notFound s

def execTakeReferral (s : State) : Outcome := .next (commandWrite 0x51 opTakeReferral s)

/-! ## ANSWER REFERRAL -/

/-- The answer code of ARG0 bits 17-16: `some true` for PERMIT, `some false` for DENY. -/
def answerArg (w : Window) : Option Bool :=
  match field w.arg0 16 2 with
  | 1 => some true
  | 2 => some false
  | _ => none

/-- The answer to an approval that is TAKEN (R121). -/
def answerTaken (e : ReferralEntry) (a : ApprovalView) (permit : Bool) (s : State) : State :=
  if permit then
    { writeReferral (e.withApproval { a with state := .answering }) s with work := some (.answer e.reference) }
  else finishOk (denyReservation .referralQueue e.station e.sequence .refusedByDesk (dropReferral e.reference s))

def opAnswerReferral (s : State) : State :=
  let reference := field s.window.arg0 0 16
  match answerArg s.window with
  | none => refuse .badArgument s
  | some permit =>
    if reference = 0 then refuse .badArgument s
    else
      match s.referral reference with
      | none => refuse .tooLate s
      | some e =>
        match e.approval? with
        | none => refuse .wrongState s
        | some a =>
          match a.state with
          | .taken => answerTaken e a permit s
          | .opening | .waiting | .answering => refuse .notTaken s

def execAnswerReferral (s : State) : Outcome := .next (commandWrite 0x52 opAnswerReferral s)

/-! ## CLEAR HOT CARD -/

def opClearHotCard (s : State) : State :=
  let reference := field s.window.arg0 0 16
  if reference = 0 then refuse .badArgument s
  else
    match s.referral reference with
    | none => refuse .notFound s
    | some e => if e.isApproval then refuse .notFound s else finishOk (dropReferral reference s)

def execClearHotCard (s : State) : Outcome := .next (commandWrite 0x53 opClearHotCard s)

/-! ## REFERRAL_TIMEOUT -/

/-- A WAITING or TAKEN approval whose count is 0 times out (R119): what its tick does; the row finds one only where no tick
brought it to 0 (log 6). -/
def execReferralTimeout (reference : Nat) (s : State) : Outcome :=
  .next (if s.awake then
    match s.referral reference with
    | none => s
    | some e =>
      match e.approval? with
      | none => s
      | some a => if a.state.closable ∧ a.seconds = 0 then timeoutApproval e s else s
  else s)

end Sys2Proof.Machine
end

