-- ==== Sys2Proof/Machine/LinkCommands.lean ====
section
/-! DEFINITION. The commands of the Station Link Controller: CONFIGURE, START, STOP and READ LINK, BIND, UNBIND, SET and READ STATION (R130 to R133, R147 to R150). -/

namespace Sys2Proof.Machine

open Sys2Proof

/-! ## CONFIGURE LINK (R130) -/

/-- The five settings of the arguments. -/
def configArg (w : Window) : LinkConfig :=
  ⟨field w.arg0 0 8, field w.arg0 8 8, field w.arg0 16 8, field w.arg0 24 8, w.arg1.getLsbD 0⟩

/-- The ranges of R130. -/
def LinkConfig.ok (c : LinkConfig) : Bool :=
  decide (1 ≤ c.stations) && decide (c.stations ≤ 31) && decide (16 ≤ c.turnTimer) && decide (c.turnTimer ≤ 255) &&
    decide (4 ≤ c.missedLimit) && decide (c.missedLimit ≤ 250) && decide (1 ≤ c.jabberRelease) &&
    decide (c.jabberRelease ≤ 255)

def opConfigureLink (s : State) : State :=
  if s.linkState = .stopped then
    if (configArg s.window).ok then finishOk { s with linkConfig := .of (configArg s.window) } else refuse .badArgument s
  else refuse .wrongState s

def execConfigureLink (s : State) : Outcome := .next (commandWrite 0x60 opConfigureLink s)

/-! ## START LINK and STOP LINK (R131, R132) -/

def opStartLink (s : State) : State :=
  if s.linkState = .stopped then
    finishOk { s with linkState := .running, cycle := 0, cyclePlace := .markDue }
  else refuse .wrongState s

def execStartLink (s : State) : Outcome := .next (commandWrite 0x61 opStartLink s)

/-- A station record at STOP LINK: SILENT unless FAULTED; no answer record, nothing in flight (R132). -/
def stopStation (st : Station) : Station :=
  if st.state = .faulted then { st with answer := none, inFlight := 0 }
  else { st with state := .silent, missed := 0, release := 0, answer := none, inFlight := 0 }

/-- The blocks that take the stop notice. -/
def stopReceivers : List Block := [.requestQueue, .decisionEngine, .pairTable, .referralQueue]

def opStopLink (s : State) : State :=
  let s := (Table.keys s.stations).foldl (fun s k => updateStation k stopStation s) s
  { giveNotices stopReceivers .stop true s with
    linkState := .stopped
    cyclePlace := .markDue
    work := some .stopLink }

def execStopLink (s : State) : Outcome := .next (commandWrite 0x62 opStopLink s)

/-! ## READ LINK (R133) -/

/-- The number of stations 1 to N in a link state. -/
def countStations (n : Nat) (which : StationState) (s : State) : Nat :=
  ((numbersFrom 1 n).filter (fun k => decide ((s.station k).state = which))).length

/-- The cycle number the next MARK will carry: the counter, and 0 in STOPPED, where the next MARK follows START LINK or a
reset (R131, R133). -/
def State.nextCycle (s : State) : BitVec 8 := if s.linkState = .stopped then 0 else s.cycle

def linkWords (c : LinkConfig) (s : State) : Window :=
  { arg0 := put 0 2 s.linkState.code ||| put 8 8 s.nextCycle.toNat
    arg1 := put 0 8 c.stations ||| put 8 8 c.turnTimer ||| put 16 8 c.missedLimit ||| put 24 8 c.jabberRelease
    arg2 := putBit 0 c.autoStart
    arg3 := put 0 8 (countStations c.stations .silent s) ||| put 8 8 (countStations c.stations .active s) |||
      put 16 8 (countStations c.stations .lost s) ||| put 24 8 (countStations c.stations .jabbering s)
    arg4 := put 0 8 (countStations c.stations .faulted s) }

def opReadLink (s : State) : State :=
  let (c, s) := readConfig s
  finish (.okWith (linkWords c s)) s

def execReadLink (s : State) : Outcome := .next (commandWrite 0x63 opReadLink s)

/-! ## BIND STATION (R147) -/

/-- The room number of BIND STATION: ARG1 bits 7-0. -/
def bindRoomArg (w : Window) : Nat := field w.arg1 0 8

/-- Checks 3 to 5 and the binding, for a room that can be read. -/
def bindStation (k r : Nat) (s : State) : State :=
  let (b, s) := readStationBody k s
  match b with
  | none => refuse .faulted s
  | some b =>
    if b.binding.isSome then refuse .inUse s
    else
      let (bound, s) := boundStations r s
      if 2 ≤ bound.length then refuse .inUse s else finishOk (writeStationBody k { b with binding := some r } s)

def opBindStation (s : State) : State :=
  let k := stationArg s.window
  let r := bindRoomArg s.window
  if stationIdOk k ∧ r < Config.rooms then
    let (view, s) := readRoomRecord r s
    match view with
    | .undefined => refuse .notFound s
    | .faulted => refuse .faulted s
    | .readable _ _ => bindStation k r s
  else refuse .badArgument s

def execBindStation (s : State) : Outcome := .next (commandWrite 0x64 opBindStation s)

/-! ## UNBIND STATION (R148) -/

/-- One question of the unbind check: whether the block holds work of the station. -/
def unbindAsk (k question : Nat) (s : State) : Bool :=
  match question with
  | 0 => s.requests.any (fun r => decide (r.station = k))
  | 1 =>
    (match s.seat with
      | none => false
      | some d => s.decidesRequest && decide (d.station = k))
  | 2 => (s.pairAt k).isSome
  | 3 => s.anyApproval (fun e _ => decide (e.station = k))
  | _ => s.verdicts.any (fun e => decide (e.station = k))

/-- UNBIND STATION ends: the hold is removed. -/
def endUnbind (c : ResultCode) (s : State) : State := refuse c { s with unbindHold := none }

/-- The station's record written afresh: a FAULTED station becomes SILENT. -/
def freshStation (st : Station) : Station :=
  if st.state = .faulted then { st with header := .of false, body := .of .empty, state := .silent, missed := 0 }
  else { st with header := .of false, body := .of .empty }

/-- The next question. -/
def unbindStep (k asked : Nat) (s : State) : State :=
  if unbindAsk k asked s then endUnbind .inUse s
  else if asked < 4 then { s with work := some (.unbind k (asked + 1)) }
  else endUnbind .ok (updateStation k freshStation s)

/-- The hold, before the first question. -/
def holdStation (k : Nat) (s : State) : State := { s with unbindHold := some k, work := some (.unbind k 0) }

def opUnbindStation (s : State) : State :=
  if stationArgOk s.window then
    let k := stationArg s.window
    let (b, s) := readStationBody k s
    match b with
    | none => holdStation k s
    | some b => if b.binding = none then refuse .notFound s else holdStation k s
  else refuse .badArgument s

/-! ## SET STATION (R149) -/

def opSetStation (s : State) : State :=
  let n := field s.window.arg1 0 8
  if stationArgOk s.window ∧ n ≤ 3 then
    let k := stationArg s.window
    let (b, s) := readStationBody k s
    match b with
    | none => refuse .faulted s
    | some b => finishOk (writeStationBody k { b with extraFrames := n } s)
  else refuse .badArgument s

def execSetStation (s : State) : Outcome := .next (commandWrite 0x66 opSetStation s)

/-! ## READ STATION (R150) -/

/-- The answer record (ARG1). -/
def answerWord : Option AnswerRecord → Word
  | none => 0
  | some a => putBit 31 true ||| put 0 4 a.sequence.toNat ||| put 4 3 a.verdict.code ||| put 8 5 (reasonCode a.reason) |||
      putBit 13 a.sent ||| putBit 14 a.isOpen

/-- The binding and the extra frames (ARG3), for a station that is not FAULTED. -/
def bindingWord : Option StationBody → Word
  | none => 0
  | some b => put 16 2 b.extraFrames |||
      (match b.binding with
        | none => 0
        | some r => putBit 8 true ||| put 0 6 r)

def stationWords (st : Station) (body : Option StationBody) (withinN : Bool) : Window :=
  { arg0 := put 0 3 st.state.code ||| put 4 3 (entranceCode st.entrance) ||| putBit 7 withinN ||| put 8 8 st.missed |||
      put 16 8 st.release
    arg1 := answerWord st.answer
    arg2 := put 0 16 st.inFlight.toNat
    arg3 := bindingWord body }

def opReadStation (s : State) : State :=
  if stationArgOk s.window then
    let k := stationArg s.window
    let (b, s) := readStationBody k s
    let (c, s) := readConfig s
    finish { code := if b.isSome then .ok else .faulted,
             words := stationWords (s.station k) b (decide (k ≤ c.stations)) } s
  else refuse .badArgument s

def execReadStation (s : State) : Outcome := .next (commandWrite 0x67 opReadStation s)

end Sys2Proof.Machine
end

