-- ==== Sys2Proof/Machine/SystemCommands.lean ====
section
/-! DEFINITION. The commands of the Mode Controller and the Integrity Checker, the two commands that reset the part, and the rows of the lines and of the tamper logic (R152, R154, R155, R165 to R168, R170, R171, R180). -/

namespace Sys2Proof.Machine

open Sys2Proof

/-! ## SET MODE and READ MODE (R154, R155) -/

/-- The argument of SET MODE: `some true` for FORCE LOCKDOWN, `some false` for FOLLOW LINES. -/
def modeArg (w : Window) : Option Bool :=
  match field w.arg0 0 2 with
  | 1 => some true
  | 2 => some false
  | _ => none

/-- The words of SET MODE. -/
def setModeWords (before after : BuildingMode) (c : Counts) : Window :=
  { arg0 := put 0 2 before.code ||| put 8 2 after.code
    arg1 := wholeWord c.withdrawn
    arg2 := wholeWord c.closed }

/-- The command waits for its own notice where the mode has changed to LOCKDOWN or FIRE; else its results stand. DESIGN CHOICE (log
60): the modes it returns are those right before and right after its own operation, whatever a line does while it waits. -/
def awaitMode (before : BuildingMode) (s : State) : State :=
  if s.mode = before ∨ s.mode = .normal then finish (.okWith (setModeWords before s.mode ⟨0, 0, 0⟩)) s
  else { s with work := some (.setMode before s.mode ⟨0, 0, 0⟩) }

def opSetMode (s : State) : State :=
  match modeArg s.window with
  | none => refuse .badArgument s
  | some force =>
    if s.override = force then refuse .already s
    else awaitMode s.mode (settleMode true true { s with override := force })

def execSetMode (s : State) : Outcome := .next (commandWrite 0x70 opSetMode s)

/-- The word of READ MODE. -/
def modeWord (s : State) : Word :=
  put 0 2 s.mode.code ||| putBit 8 s.fireLevel ||| putBit 9 s.lockdownLevel ||| putBit 10 s.override

def opReadMode (s : State) : State := finish (.okWith { arg0 := modeWord s }) s

def execReadMode (s : State) : Outcome := .next (commandWrite 0x71 opReadMode s)

/-! ## READ HEALTH and CLEAR HEALTH (R165, R166) -/

/-- The word of READ HEALTH. -/
def healthWord (h : Health) (t : Tamper) (line : Bool) : Word :=
  putBit 0 h.grantCorrected ||| putBit 1 h.grantUncorrectable ||| putBit 2 h.barCorrected |||
    putBit 3 h.barUncorrectable ||| putBit 4 h.siteCorrected ||| putBit 5 h.siteUncorrectable |||
    putBit 8 h.retainedLost ||| putBit 9 t.flag ||| putBit 10 t.clearing ||| putBit 11 t.reclear ||| putBit 12 line

/-- READ HEALTH (R165). DESIGN CHOICE (log 58): the tamper items are read before the flags, so a corrected read of them that
this command makes shows in the SITE corrected flag it returns, as a corrected read of the flags themselves does. -/
def opReadHealth (s : State) : State :=
  let (t, s) := readTamper s
  let (h, s) := readHealth s
  finish (.okWith { arg0 := healthWord h t s.tamperLine }) s

def execReadHealth (s : State) : Outcome := .next (commandWrite 0x78 opReadHealth s)

def opClearHealth (s : State) : State := finishOk { s with health := .of .clear }

def execClearHealth (s : State) : Outcome := .next (commandWrite 0x79 opClearHealth s)

/-! ## ACKNOWLEDGE TAMPER (R170) -/

def opAcknowledgeTamper (s : State) : State :=
  let (t, s) := readTamper s
  if t.flag then
    if t.clearing ∨ t.reclear ∨ s.tamperLine then refuse .wrongState s
    else finishOk (writeTamper { t with flag := false } s)
  else refuse .already s

def execAcknowledgeTamper (s : State) : Outcome := .next (commandWrite 0x7A opAcknowledgeTamper s)

/-! ## CLEAR RETAINED and DEVICE RESET (R171, R180) -/

/-- The reset of a command, from where it is under way to its end; CLEAR RETAINED writes the cleared values first. -/
def runReset (code : BitVec 8) (s : State) : State :=
  commandReset code (if code = 0x7B then clearRetained false s else s)

/-- A reset accepted: it is under way, with the port BUSY, and ends at its COMMAND_COMPLETION (log 51). -/
def startReset (code : BitVec 8) (s : State) : State := { s with work := some (.reset code) }

/-- CLEAR RETAINED accepted: a tamper clear in progress is abandoned, and the reset is under way (R171). -/
def opClearRetained (s : State) : State := startReset 0x7B (abandonClear s)

def execClearRetained (s : State) : Outcome := .next (commandWrite 0x7B opClearRetained s)

def opDeviceReset (s : State) : State := startReset 0x7F (cutByReset s)

def execDeviceReset (s : State) : Outcome := .next (commandWrite 0x7F opDeviceReset s)

/-! ## The lines -/

/-- LINE_LEVEL_CHANGE (R152): the pin changes; the Mode Controller takes it while it runs (log 20). -/
def execLineLevelChange (line : AlarmLine) (asserted : Bool) (s : State) : Outcome :=
  .next (
    let s := match line with
      | .fire => { s with firePin := asserted }
      | .lockdown => { s with lockdownPin := asserted }
    if s.awake then takeLine line asserted true s else s)

/-- TAMPER_ASSERTION (R167): a change from released to asserted, in every supply state. -/
def execTamperAssertion (s : State) : Outcome := .next (if s.tamperLine then s else assertTamper s)

/-- TAMPER_RELEASE (R167): no tamper item changes. -/
def execTamperRelease (s : State) : Outcome := .next { s with tamperLine := false }

/-- TAMPER_SLOT_FREE (R168): in every supply state, but while CLEAR RETAINED is under way (R171). -/
def execTamperSlotFree (s : State) : Outcome := .next (if s.clearingRetained then s else freeTamperSlot s)

end Sys2Proof.Machine
end

