-- ==== Sys2Proof/Machine/Notices.lean ====
section
/-! DEFINITION. The rows in which a block takes a notice: REVOKE, BAR, UNBAR, LOSS, STOP, FAULT, MODE, TAMPER and OVERSTAY (R20, R42, R109, R110, R132, R138, R140, R156, R168). What a notice did is added to the counts of the command that gave it. -/

namespace Sys2Proof.Machine

open Sys2Proof

/-! ## The counts of the command in progress -/

/-- What one block reports: verdicts withdrawn, contexts and approvals closed, records marked or cleared. -/
abbrev Report := Counts

def Report.withdrew (n : Nat) : Report := ⟨n, 0, 0⟩
def Report.closedBy (n : Nat) : Report := ⟨0, n, 0⟩
def Report.markedBy (n : Nat) : Report := ⟨0, 0, n⟩
def Report.nothing : Report := ⟨0, 0, 0⟩

def addCounts (a b : Counts) : Counts := ⟨a.withdrawn + b.withdrawn, a.closed + b.closed, a.marked + b.marked⟩

/-- The work of a command with a report added. -/
def CommandWork.add (w : CommandWork) (r : Report) : CommandWork :=
  match w with
  | .revoke c => .revoke (addCounts c r)
  | .bar c => .bar (addCounts c r)
  | .unbar n => .unbar (n + r.marked)
  | .clearBar removed n => .clearBar removed (n + r.marked)
  | .setMode before after c => .setMode before after (addCounts c r)
  | .handed code => .handed code
  | .ready res => .ready res
  | .retire h asked => .retire h asked
  | .unbind k asked => .unbind k asked
  | .find key cursor found => .find key cursor found
  | .stopLink => .stopLink
  | .answer n => .answer n
  | .reset code => .reset code

/-- The command that gave the notice is told. -/
def reportTo (o : Outstanding) (r : Report) (s : State) : State :=
  if o.ofCommand then { s with work := s.work.map (fun w => w.add r) } else s

/-- A block takes its oldest outstanding notice of a kind; nothing where none is outstanding or the part is off. -/
def onNotice (b : Block) (kind : Notice → Bool) (act : Outstanding → State → State) (s : State) : State :=
  if s.awake then
    match s.outstanding b kind with
    | none => s
    | some o => act o (takeNotice o s)
  else s

/-! ## REVOKE_NOTICE (R20) -/

def Notice.isRevoke : Notice → Bool
  | .revoke _ => true
  | .bar _ | .unbar _ | .overstay _ | .loss _ | .stop | .stationFault _ | .mode _ | .tamper => false

/-- What a block does with a revoke notice. -/
def blockRevoke (b : Block) (h : Handle) (s : State) : Report × State :=
  match b with
  | .decisionEngine =>
    let (n, s) := engineRevoke h s
    (.withdrew n, s)
  | .pairTable =>
    let (n, s) := closePairs (fun c => decide (c.handle = h)) .revokeNotice s
    (.closedBy n, s)
  | .referralQueue =>
    let (n, s) := closeApprovals (fun _ a => decide (a.handle = h)) .revokeNotice s
    (.closedBy n, s)
  | .presencePool =>
    let (n, s) := poolRevoke h s
    (.markedBy n, s)
  | .requestQueue => (.nothing, s)

def takeRevoke (b : Block) (o : Outstanding) (s : State) : State :=
  match o.notice with
  | .revoke h =>
    let (r, s) := blockRevoke b h s
    reportTo o r s
  | .bar _ | .unbar _ | .overstay _ | .loss _ | .stop | .stationFault _ | .mode _ | .tamper => s

def execRevokeNotice (b : Block) (s : State) : Outcome := .next (onNotice b Notice.isRevoke (takeRevoke b) s)

/-! ## BAR_NOTICE (R109) -/

def Notice.isBar : Notice → Bool
  | .bar _ => true
  | .revoke _ | .unbar _ | .overstay _ | .loss _ | .stop | .stationFault _ | .mode _ | .tamper => false

/-- What a block does with a bar notice. -/
def blockBar (b : Block) (c : Credential) (s : State) : Report × State :=
  match b with
  | .decisionEngine =>
    let (n, s) := engineBar c s
    (.withdrew n, s)
  | .pairTable =>
    let (n, s) := closePairs (fun p => decide (p.credential = c)) .barNotice s
    (.closedBy n, s)
  | .referralQueue =>
    let (n, s) := closeApprovals (fun e _ => decide (e.credential = c)) .barNotice s
    (.closedBy n, s)
  | .presencePool =>
    let (m, s) := poolBar c s
    (.markedBy m.toNat, s)
  | .requestQueue => (.nothing, s)

/-- The Presence Pool receives the notice once the Decision Engine has taken it. -/
def passBar (b : Block) (o : Outstanding) (s : State) : State :=
  if b = .decisionEngine then giveNotices [.presencePool] o.notice o.ofCommand s else s

def takeBar (b : Block) (o : Outstanding) (s : State) : State :=
  match o.notice with
  | .bar c =>
    let (r, s) := blockBar b c s
    passBar b o (reportTo o r s)
  | .revoke _ | .unbar _ | .overstay _ | .loss _ | .stop | .stationFault _ | .mode _ | .tamper => s

def execBarNotice (b : Block) (s : State) : Outcome := .next (onNotice b Notice.isBar (takeBar b) s)

/-! ## UNBAR_NOTICE (R110) -/

def Notice.isUnbar : Notice → Bool
  | .unbar _ => true
  | .revoke _ | .bar _ | .overstay _ | .loss _ | .stop | .stationFault _ | .mode _ | .tamper => false

def takeUnbar (o : Outstanding) (s : State) : State :=
  match o.notice with
  | .unbar c =>
    let (cleared, s) := poolUnbar c s
    reportTo o (.markedBy cleared.toNat) s
  | .revoke _ | .bar _ | .overstay _ | .loss _ | .stop | .stationFault _ | .mode _ | .tamper => s

def execUnbarNotice (s : State) : Outcome := .next (onNotice .presencePool Notice.isUnbar takeUnbar s)

/-! ## OVERSTAY_NOTICE (R42) -/

def Notice.isOverstay : Notice → Bool
  | .overstay _ => true
  | .revoke _ | .bar _ | .unbar _ | .loss _ | .stop | .stationFault _ | .mode _ | .tamper => false

/-- The Presence Pool marks the records that hold the handle; a permit in hand on it is reached too. -/
def takeOverstay (o : Outstanding) (s : State) : State :=
  match o.notice with
  | .overstay h => overstayHand h (poolOverstay h s)
  | .revoke _ | .bar _ | .unbar _ | .loss _ | .stop | .stationFault _ | .mode _ | .tamper => s

def execOverstayNotice (s : State) : Outcome := .next (onNotice .presencePool Notice.isOverstay takeOverstay s)

/-! ## LOSS_NOTICE (R140) -/

def Notice.isLoss : Notice → Bool
  | .loss _ => true
  | .revoke _ | .bar _ | .unbar _ | .overstay _ | .stop | .stationFault _ | .mode _ | .tamper => false

/-- What a block does with a loss notice. -/
def blockLoss (b : Block) (k : Nat) (s : State) : State :=
  match b with
  | .requestQueue => removeRequests (fun r => decide (r.station = k)) s
  | .decisionEngine => engineLoss k s
  | .pairTable => (closePairs (fun c => decide (c.station = k)) .stationLost s).2
  | .referralQueue => (closeApprovals (fun e _ => decide (e.station = k)) .stationLost s).2
  | .presencePool => s

def takeLoss (b : Block) (o : Outstanding) (s : State) : State :=
  match o.notice with
  | .loss k => blockLoss b k s
  | .revoke _ | .bar _ | .unbar _ | .overstay _ | .stop | .stationFault _ | .mode _ | .tamper => s

def execLossNotice (b : Block) (s : State) : Outcome := .next (onNotice b Notice.isLoss (takeLoss b) s)

/-! ## STOP_NOTICE (R132) -/

def Notice.isStop : Notice → Bool
  | .stop => true
  | .revoke _ | .bar _ | .unbar _ | .overstay _ | .loss _ | .stationFault _ | .mode _ | .tamper => false

/-- What a block does with the stop notice. -/
def blockStop (b : Block) (s : State) : State :=
  match b with
  | .requestQueue => removeRequests (fun _ => true) s
  | .decisionEngine => engineStop s
  | .pairTable => (closePairs (fun _ => true) .stopLink s).2
  | .referralQueue => (closeApprovals (fun _ _ => true) .stopLink s).2
  | .presencePool => s

def execStopNotice (b : Block) (s : State) : Outcome :=
  .next (onNotice b Notice.isStop (fun _ s => blockStop b s) s)

/-! ## FAULT_NOTICE (R138) -/

def Notice.isFault : Notice → Bool
  | .stationFault _ => true
  | .revoke _ | .bar _ | .unbar _ | .overstay _ | .loss _ | .stop | .mode _ | .tamper => false

/-- What a block does with a station fault notice. -/
def blockFault (b : Block) (k : Nat) (s : State) : State :=
  match b with
  | .pairTable => (closePairs (fun c => decide (c.station = k)) .stationFault s).2
  | .referralQueue => (closeApprovals (fun e _ => decide (e.station = k)) .stationFault s).2
  | .requestQueue | .decisionEngine | .presencePool => s

def takeFault (b : Block) (o : Outstanding) (s : State) : State :=
  match o.notice with
  | .stationFault k => blockFault b k s
  | .revoke _ | .bar _ | .unbar _ | .overstay _ | .loss _ | .stop | .mode _ | .tamper => s

def execFaultNotice (b : Block) (s : State) : Outcome := .next (onNotice b Notice.isFault (takeFault b) s)

/-! ## MODE_NOTICE (R156, R157) -/

def Notice.isMode : Notice → Bool
  | .mode _ => true
  | .revoke _ | .bar _ | .unbar _ | .overstay _ | .loss _ | .stop | .stationFault _ | .tamper => false

/-- What a block does with a mode notice, on the records that stand when it takes it. -/
def blockMode (b : Block) (m : BuildingMode) (s : State) : Report × State :=
  match b, modeCause m with
  | .decisionEngine, _ =>
    let (n, s) := engineMode m s
    (.withdrew n, s)
  | .pairTable, some cause =>
    let (n, s) := closePairs (fun _ => true) cause s
    (.closedBy n, s)
  | .referralQueue, some cause =>
    let (n, s) := closeApprovals (fun _ _ => true) cause s
    (.closedBy n, s)
  | .pairTable, none | .referralQueue, none | .requestQueue, _ | .presencePool, _ => (.nothing, s)

def takeMode (b : Block) (o : Outstanding) (s : State) : State :=
  match o.notice with
  | .mode m =>
    let (r, s) := blockMode b m s
    reportTo o r s
  | .revoke _ | .bar _ | .unbar _ | .overstay _ | .loss _ | .stop | .stationFault _ | .tamper => s

def execModeNotice (b : Block) (s : State) : Outcome := .next (onNotice b Notice.isMode (takeMode b) s)

/-! ## TAMPER_NOTICE (R168) -/

/-- What a block does with the tamper notice. -/
def blockTamper (b : Block) (s : State) : State :=
  match b with
  | .decisionEngine => engineTamper s
  | .pairTable => (closePairs (fun _ => true) .tamperNotice s).2
  | .referralQueue => (closeApprovals (fun _ _ => true) .tamperNotice s).2
  | .presencePool => poolTamper s
  | .requestQueue => s

/-- A block takes the tamper notice; the Presence Pool's part goes on in every supply state, made by the tamper logic
itself while the pool is off, but while CLEAR RETAINED is under way (R171). The clear may end with it. -/
def tamperNoticeStep (b : Block) (s : State) : State :=
  if s.awake ∨ (b = .presencePool ∧ s.clearingRetained = false) then
    match s.outstanding b Notice.isTamper with
    | none => s
    | some o => settleTamper (blockTamper b (takeNotice o s))
  else s

def execTamperNotice (b : Block) (s : State) : Outcome := .next (tamperNoticeStep b s)

end Sys2Proof.Machine
end

