-- ==== Sys2Proof/Machine/PortCommands.lean ====
section
/-! DEFINITION. The rows of the Command Port: BAD_COMMAND, COMMAND_COMPLETION, COMMAND_WRITE_WHILE_BUSY, REGISTER_WRITE, ATTENTION_READ, ATTENTION_MASK_WRITE (R172 to R178); and the commands that are sequences of operations, RETIRE GRANT, FIND GRANTS and UNBIND STATION (R21, R23, R148). -/

namespace Sys2Proof.Machine

open Sys2Proof

/-! ## The owner of a command -/

/-- What the owner of a code does on acceptance; an unknown code completes at once with BAD COMMAND (R174). -/
def commandOwner (code : BitVec 8) : State → State :=
  match code.toNat with
  | 0x10 => opAddGrant
  | 0x11 => opAmendGrant
  | 0x12 => opSuspendGrant
  | 0x13 => opResumeGrant
  | 0x14 => opRevokeGrant
  | 0x15 => opRetireGrant
  | 0x16 => opReadGrant
  | 0x17 => opFindGrants
  | 0x20 => opSetClock
  | 0x21 => opReadClock
  | 0x22 => opShiftHour
  | 0x23 => opTrimClock
  | 0x30 => opDefineRoom
  | 0x31 => moveRoom .closed
  | 0x32 => moveRoom .inService
  | 0x33 => opDeleteRoom
  | 0x34 => opReadRoom
  | 0x35 => opListPresence
  | 0x36 => opRemovePresence
  | 0x37 => opResetCensus
  | 0x40 => opSetPairWindow
  | 0x41 => opReadPairContext
  | 0x48 => withBarSearch barCredential
  | 0x49 => withBarSearch unbarCredential
  | 0x4A => opReadBarList
  | 0x4B => opClearBarList
  | 0x50 => opSetReferralTimeout
  | 0x51 => opTakeReferral
  | 0x52 => opAnswerReferral
  | 0x53 => opClearHotCard
  | 0x60 => opConfigureLink
  | 0x61 => opStartLink
  | 0x62 => opStopLink
  | 0x63 => opReadLink
  | 0x64 => opBindStation
  | 0x65 => opUnbindStation
  | 0x66 => opSetStation
  | 0x67 => opReadStation
  | 0x70 => opSetMode
  | 0x71 => opReadMode
  | 0x78 => opReadHealth
  | 0x79 => opClearHealth
  | 0x7A => opAcknowledgeTamper
  | 0x7B => opClearRetained
  | 0x7F => opDeviceReset
  | _ => completePort (.bare .badCommand)

/-! ## The operations a command still has to make (log 5) -/

/-- The next operation of the command in progress: the owner's first, or the next of a command that is a sequence of
operations. -/
def ownStep (w : CommandWork) (s : State) : State :=
  match w with
  | .handed code => commandOwner code { s with work := none }
  | .retire h asked => retireStep h asked s
  | .unbind k asked => unbindStep k asked s
  | .find key cursor found => findStep key cursor found s
  | .ready _ | .revoke _ | .bar _ | .unbar _ | .clearBar _ _ | .setMode _ _ _ | .stopLink | .answer _ | .reset _ => s

/-- So many operations of the command in progress. -/
def runOwn : Nat → State → State
  | 0, s => s
  | n + 1, s =>
    match s.work with
    | none => s
    | some w => runOwn n (ownStep w s)

/-- More operations than any such command makes: one for each slot, or five questions. -/
def ownBound : Nat := Config.slots + 6

def runOwnPaused (pause : Pause) (s : State) : State :=
  match pause with
  | none => runOwn ownBound s
  | some n => runOwn n s

/-- A command that is a sequence of operations, with so many of them made. -/
def sequenceCommand (code : BitVec 8) (op : State → State) (pause : Pause) (s : State) : State :=
  commandWrite code (fun s => runOwnPaused pause (op s)) s

def execRetireGrant (pause : Pause) (s : State) : Outcome := .next (sequenceCommand 0x15 opRetireGrant pause s)

def execFindGrants (pause : Pause) (s : State) : Outcome := .next (sequenceCommand 0x17 opFindGrants pause s)

def execUnbindStation (pause : Pause) (s : State) : Outcome := .next (sequenceCommand 0x65 opUnbindStation pause s)

/-! ## COMMAND_COMPLETION (R174, R176) -/

/-- Whether a notice of the command in progress is still outstanding. -/
def State.awaitsNotices (s : State) : Bool := s.notices.any (fun o => o.ofCommand)

/-- Whether STOP LINK still waits: for a notice, or for the end of the abandoned decision that holds the last context or
approval, since no reservation outlives the command (R90, R102, R132, log 48). -/
def State.awaitsStop (s : State) : Bool := s.awaitsNotices || decide (s.reservations ≠ 0)

/-- The three counts, each alone in its word. -/
def countWords (c : Counts) : Window :=
  { arg0 := wholeWord c.withdrawn
    arg1 := wholeWord c.closed
    arg2 := wholeWord c.marked }

/-- The result of the command in progress, where it has ended: `none` while it waits for its notices, for its answer
check, for an operation of its owner, or for its reset. -/
def workResult (s : State) : Option CommandResult :=
  match s.work with
  | none => none
  | some (.ready r) => some r
  | some (.revoke c) | some (.bar c) => if s.awaitsNotices then none else some (.okWith (countWords c))
  | some (.unbar n) => if s.awaitsNotices then none else some (.okWith { arg0 := putBit 0 (decide (0 < n)) })
  | some (.clearBar removed cleared) =>
    if s.awaitsNotices then none
    else some (.okWith { arg0 := wholeWord removed, arg1 := wholeWord cleared })
  | some (.setMode before after c) =>
    if s.awaitsNotices then none else some (.okWith (setModeWords before after c))
  | some .stopLink => if s.awaitsStop then none else some (.bare .ok)
  | some (.handed _) | some (.answer _) | some (.retire _ _) | some (.unbind _ _) | some (.find _ _ _)
  | some (.reset _) => none

/-- The command in progress goes on: one that still has operations of its own makes the next of them (log 5), a reset under
way is carried out (R180, log 51), and one that has its result completes. -/
def continueCommand (w : CommandWork) (s : State) : State :=
  match w.resetCode with
  | some code => runReset code s
  | none =>
    match workResult s with
    | none => ownStep w s
    | some r => completePort r s

/-- COMMAND_COMPLETION: the end of the command in progress, or the next operation made for it before it ends. -/
def completeCommand (s : State) : State :=
  if s.portOn then
    match s.work with
    | none => s
    | some w => continueCommand w s
  else s

def execCommandCompletion (s : State) : Outcome := .next (completeCommand s)

/-! ## Writes to COMMAND -/

/-- The code of a word written to COMMAND: bits 7-0; the others are ignored (R174). -/
def codeOf (word : Word) : BitVec 8 := word.truncate 8

/-- A write of a word to COMMAND (R174, R175). -/
def writeCommandWord (word : Word) (s : State) : State := commandWrite (codeOf word) (commandOwner (codeOf word)) s

/-- Whether a command may wait between its acceptance and its owner's first operation: an unknown code completes at once
(R174), and the two commands that reset the part hold the blocks still from their acceptance (R171, R180). -/
def waitsForOwner (code : BitVec 8) : Bool := hostCodes.contains code && !(code == 0x7B) && !(code == 0x7F)

/-- The port hands a command to its owner, which has not begun on it yet (R174, log 35). -/
def handCommand (code : BitVec 8) (s : State) : State :=
  if waitsForOwner code then { s with work := some (.handed code) } else commandOwner code s

/-- The acceptance of a word written to COMMAND, an operation of the port alone: the owner's operation is that of a later
COMMAND_COMPLETION. -/
def acceptCommandWord (word : Word) (s : State) : State := commandWrite (codeOf word) (handCommand (codeOf word)) s

/-- BAD_COMMAND (R174). -/
def execBadCommand (word : Word) (s : State) : Outcome := .next (writeCommandWord word s)

/-- COMMAND_WRITE_WHILE_BUSY (R175): ignored with OVERRUN; a port that is IDLE by then takes it as any write. -/
def execCommandWriteWhileBusy (word : Word) (s : State) : Outcome := .next (writeCommandWord word s)

/-! ## REGISTER_WRITE, ATTENTION_MASK_WRITE, ATTENTION_READ -/

/-- REGISTER_WRITE (R173 to R175): a write to COMMAND's address is the acceptance of a command alone (log 35), where the
command's own row goes on to its owner's operation; ATTENTION MASK has a row of its own, and a write to its address is that
row's event (log 34). -/
def execRegisterWrite (address : BitVec 7) (value : Word) (s : State) : Outcome :=
  .next (if s.portOn then
    if address = 0x02 then acceptCommandWord value s
    else if address = 0x04 then writeMask value s
    else writeArgument address value s
  else s)

/-- ATTENTION_MASK_WRITE (R178). -/
def execAttentionMaskWrite (value : Word) (s : State) : Outcome :=
  .next (if s.portOn then writeMask value s else s)

/-- ATTENTION_READ (R177): the whole transfer, or one of its parts. -/
def execAttentionRead (part : ReadPart) (s : State) : Outcome :=
  .next (if s.portOn then
    match part with
    | .whole => clearTaken (takeAttention s)
    | .addressByte => takeAttention s
    | .fourthByte => clearTaken s
    | .cutShort => dropTaken s
  else s)

end Sys2Proof.Machine
end

