-- ==== Sys2Proof/Machine/Supply.lean ====
section
/-! DEFINITION. The failure of the main supply (R160, R161): the operation on many records that it finds in progress keeps what it has reached, record by record, and everything that is not retained vanishes. -/

namespace Sys2Proof.Machine

open Sys2Proof

/-! ## What an operation does to one record after another (R160, log 56) -/

/-- A step of an operation that spans many records: what it does to the next one. -/
inductive RecordStep where
  /-- An UNSENT record of a permit leaves (R58). -/
  | removeUnsent (id : Nat)
  /-- A record leaves its list (R58). -/
  | remove (id : Nat)
  /-- The part of a removal that is one record's: it leaves, with the places behind it and the escort count (R54, R58). -/
  | takeOut (id : Nat)
  /-- UNESCORTED set on a record, or cleared (R57, R61). -/
  | setUnescorted (id : Nat)
  | clearUnescorted (id : Nat)
  /-- The use of a claim goes back to its grant (R14). -/
  | giveBack (claim : Claim)
  /-- A record is read, and made free on its own. -/
  | readRecord (id : Nat)
  | free (id : Nat)
  /-- The room whose list RESET CENSUS has emptied (R66). -/
  | resetRoom (room : Nat)
  /-- An entry of the Bar List is read, and the list emptied (R112). -/
  | readEntry (position : Nat)
  | emptyBars
  /-- A record is confirmed (R58). -/
  | confirm (id : Nat)
  /-- One entrant gets its record at the tail of the list, and the escort count (R57). -/
  | placeEntrant (room : Nat) (entrant : Entrant)
  /-- A room becomes census suspect (R62). -/
  | suspect (room : Nat)
  /-- A device reset cancels the trim (R26). -/
  | cancelTrim
  /-- CLEAR RETAINED writes an item's cleared value (R171). -/
  | clearClock
  | clearSlot (k : Nat)
  | clearRoom (room : Nat)
  | clearStation (k : Nat)
  | clearConfig
  | clearWindow
  | clearTimeout
  | clearHealth
  | clearTamper
  | clearDeferred
  deriving Repr

/-- The body of a room whose list RESET CENSUS has emptied. -/
def resetRoomBody (r : Nat) (s : State) : State :=
  let (view, s) := readRoomRecord r s
  match view with
  | .undefined | .faulted => s
  | .readable _ b => writeRoomBody r { b with escorts := 0, suspect := false } s

def RecordStep.run : RecordStep → State → State
  | .removeUnsent id, s => Machine.removeUnsent [id] s
  | .remove id, s => removeRecord id (scanIndexes s)
  | .takeOut id, s => (Machine.takeOut id (scanIndexes s)).2
  | .setUnescorted id, s => setUnescortedOn [id] s
  | .clearUnescorted id, s => clearUnescortedOn [id] s
  | .giveBack c, s => returnClaims [c] s
  | .readRecord id, s => (readPresenceBody id s).2
  | .free id, s => s.setRecord id .free
  | .resetRoom r, s => resetRoomBody r s
  | .readEntry p, s => (readPositions s.barHeader.value.faulted 1 p s).2
  | .emptyBars, s => Machine.emptyBars s
  | .confirm id, s => confirmRecord id s
  | .placeEntrant r e, s => (admissionWith placeRecords r [e] s).2
  | .suspect r, s => setSuspect r s
  | .cancelTrim, s => { s with trim := .of none }
  | .clearClock, s => { s with clock := .of .cleared, trim := .of none }
  | .clearSlot k, s => s.setSlot k .cleared
  | .clearRoom r, s => s.setRoom r .cleared
  | .clearStation k, s => updateStation k (fun st =>
      { st with header := Station.cleared.header, body := Station.cleared.body }) s
  | .clearConfig, s => { s with linkConfig := .of .cleared }
  | .clearWindow, s => { s with pairWindow := .of 20 }
  | .clearTimeout, s => { s with referralTimeout := .of 60 }
  | .clearHealth, s => { s with health := .of .clear }
  | .clearTamper, s => { s with tamper := .of .idle, markedTo := 0, notices := [] }
  | .clearDeferred, s => { s with deferred := .of 0, checkPattern := true }

/-- Steps made one after another. -/
def runSteps (steps : List RecordStep) (s : State) : State := steps.foldl (fun s x => x.run s) s

/-- The parts of a removal (R58, R61): the record leaves; then, with the last escort of an ESCORTED room gone, UNESCORTED is
set on one CONTRACTOR record after another. -/
def removalParts (id : Nat) (s : State) : List RecordStep :=
  let r := ((scanIndexes s).index id).room
  let (last, t) := Machine.takeOut id (scanIndexes s)
  .takeOut id :: (if last then (t.contractors r).map .setUnescorted else [])

/-- The parts of a step that a cut may come between: those of a removal. -/
def RecordStep.parts (x : RecordStep) (s : State) : List RecordStep :=
  match x with
  | .remove id => removalParts id s
  | .removeUnsent id =>
    if ((scanIndexes s).index id).inUse && !((scanIndexes s).index id).sent then removalParts id s else [x]
  | x => [x]

/-- So many parts of steps made one after another. -/
def runReached : Nat → List RecordStep → State → State
  | _, [], s => s
  | n, x :: xs, s =>
    let parts := x.parts s
    if parts.length ≤ n then runReached (n - parts.length) xs (runSteps parts s) else runSteps (parts.take n) s

/-! ## The steps of each operation -/

/-- A permit undone (R76, R87, R90): its records, then its uses. -/
def undoSteps (claims : List Claim) (records : List Nat) : List RecordStep :=
  records.map .removeUnsent ++ claims.map .giveBack

/-- The permits of the entries of a kind undone, from the oldest (log 47). -/
def entrySteps (which : VerdictEntry → Bool) (s : State) : List RecordStep :=
  (s.verdicts.filter which).flatMap (fun e =>
    match e.permit with
    | none => []
    | some p => undoSteps p.claims p.records)

/-- The entries that a notice to the Decision Engine withdraws or removes (R87 to R90, R156, R168). -/
def Notice.undoes : Notice → VerdictEntry → Bool
  | .revoke h, e => e.holds (PermitData.holdsHandle h)
  | .bar c, e => e.holds (PermitData.holdsCredential c)
  | .mode .lockdown, e => e.holds (fun _ => true)
  | .tamper, e => e.holds (fun _ => true)
  | .loss k, e => decide (e.station = k)
  | .stop, _ => true
  | .mode .fire, _ | .mode .normal, _ | .unbar _, _ | .overstay _, _ | .stationFault _, _ => false

/-- The Decision Engine's oldest notice of a kind, where it takes one that undoes permits. -/
def engineSteps (kind : Notice → Bool) (s : State) : List RecordStep :=
  match s.outstanding .decisionEngine kind with
  | none => []
  | some o => entrySteps o.notice.undoes s

/-- Put a record among others by its list place, the last place first. -/
def insertByPlace (s : State) (id : Nat) : List Nat → List Nat
  | [] => [id]
  | j :: rest => if (s.index j).place ≤ (s.index id).place then id :: j :: rest else j :: insertByPlace s id rest

/-- Records by list place, the last first, so that what is left of a list keeps its places (R54). -/
def lastFirst (s : State) (ids : List Nat) : List Nat := ids.foldr (insertByPlace s) []

/-- REMOVE PRESENCE, where it is not refused (R65). -/
def removePresenceSteps (s : State) : List RecordStep :=
  if removeArgumentsOk s.window then
    match (readRoomRecord (roomArg s.window) s).1 with
    | .undefined | .faulted => []
    | .readable _ _ =>
      match (findNamed s.window (scanIndexes s)).1 with
      | none => []
      | some id => if (s.index id).sent then [.remove id] else []
  else []

/-- RESET CENSUS, where it is not refused (R66): the list from its tail, then the room. -/
def censusSteps (s : State) : List RecordStep :=
  let r := roomArg s.window
  if roomArgOk s.window = true ∧ (s.room r).header.value ≠ .undefined ∧
      (s.roomRecords r).all (fun id => (s.index id).sent) then
    (lastFirst s (s.roomRecords r)).map .free ++ [.resetRoom r]
  else []

/-- CLEAR BAR LIST (R112): the credentials are collected, then the list is emptied. -/
def clearBarSteps (s : State) : List RecordStep :=
  (numbersFrom 1 (barCount s.barHeader.value s)).map .readEntry ++ [.emptyBars]

/-- The claim of an UNSENT record that can be read (R91 step 3). -/
def claimOfRecord (id : Nat) (s : State) : List Claim :=
  match (readPresenceBody id s).1 with
  | none => []
  | some b => (b.handle.map (fun h => (⟨h, (s.index id).useTaken⟩ : Claim))).toList

/-- DEVICE RESET (R91, R26): the claims in hand that have no record, each UNSENT record with its use, the trim. -/
def resetSteps (s : State) : List RecordStep :=
  (match s.seat with
    | none => []
    | some d => if d.records = [] then d.claims.map RecordStep.giveBack else []) ++
  (s.inUseRecords.filter (fun id => !(s.index id).sent)).flatMap (fun id =>
    [RecordStep.readRecord id, .remove id] ++ (claimOfRecord id s).map RecordStep.giveBack) ++
  [RecordStep.cancelTrim]

/-- CLEAR RETAINED (R171): the items in the order of its table, but the clock behind the slots, which are not left beside an
UNSET clock (R26); the records of each kind by number, but the presence records by list place, the last first. -/
def clearSteps (s : State) : List RecordStep :=
  (Table.keys s.grants).map RecordStep.clearSlot ++ [RecordStep.clearClock] ++ [RecordStep.emptyBars] ++
    (Table.keys s.rooms).map RecordStep.clearRoom ++
    (lastFirst s (Table.keys s.presence)).map RecordStep.free ++ (Table.keys s.stations).map RecordStep.clearStation ++
    [RecordStep.clearConfig, .clearWindow, .clearTimeout, .clearHealth, .clearTamper, .clearDeferred]

/-- The operation of the command in progress that comes next, where it spans many records. -/
def commandSteps (s : State) : List RecordStep :=
  match s.work with
  | some (.handed code) =>
    if code = 0x36 then removePresenceSteps s
    else if code = 0x37 then censusSteps s
    else if code = 0x4B then clearBarSteps s
    else []
  | some (.reset code) => if code = 0x7B then clearSteps s else resetSteps s
  | some (.ready _) | some (.retire _ _) | some (.unbind _ _) | some (.find _ _ _) | some (.revoke _) | some (.bar _)
  | some (.unbar _) | some (.clearBar _ _) | some (.setMode _ _ _) | some .stopLink | some (.answer _) | none => []

/-- An exit's removal (R78 to R80), where its locate finds a record. -/
def exitSteps (d : Decision) (s : State) : List RecordStep :=
  match (locate d.credential s).1 with
  | none => []
  | some id =>
    let r := (s.index id).room
    (match (readRoomRecord r s).1 with
      | .undefined | .faulted => []
      | .readable _ _ =>
        let entries := entrySteps (fun e => e.holds (PermitData.holdsRecord id)) s
        if (s.index id).sent then [.remove id]
        else if entries.isEmpty then .remove id :: (claimOfRecord id s).map .giveBack
        else entries) ++
    (if r = d.room then [] else [.suspect d.room, .suspect r])

/-- An admission that is granted (R57), entrant by entrant, and then the clearing of UNESCORTED, record by record; refused, it
undoes the claims. -/
def admissionSteps (d : Decision) (s : State) : List RecordStep :=
  let entrants := d.entrants ((completingContext d s).map Prod.snd)
  match (admission d.room entrants s).1 with
  | .error _ => undoSteps d.claims d.records
  | .ok _ =>
    entrants.map (RecordStep.placeEntrant d.room) ++
      (if clearsUnescorted (s.room d.room).body.value entrants then (s.roomRecords d.room).map RecordStep.clearUnescorted else [])

/-- The end of an answer check undoes the permit: with a pending closure, a failed check or a condition of the placement (R123). -/
def answerUndoes (d : Decision) (failed : Option DenyReason) (s : State) : Bool :=
  match d.work with
  | .request _ => false
  | .answer reference => (pendingClosure reference s).isSome || failed.isSome || (placementCondition d s).1.isSome

/-- The next operation of the decision in hand, where it spans many records: a permit undone, an admission, an exit's
removal. -/
def decisionSteps (s : State) : List RecordStep :=
  match s.seat with
  | none => []
  | some d =>
    if d.abandoned then undoSteps d.claims d.records
    else
      match d.phase with
      | .exitRemoval => exitSteps d s
      | .admission => admissionSteps d s
      | .escortRead =>
        (match (readRoomRecord d.room s).1 with
          | .undefined | .faulted => undoSteps d.claims d.records
          | .readable _ b => if b.escorts = 0 then undoSteps d.claims d.records else [])
      | .placement =>
        if (placementCondition d s).1.isSome then undoSteps d.claims d.records else []
      | .answerEnd failed => if answerUndoes d failed s then undoSteps d.claims d.records else []
      | .stationQuery | .sameCard | .exitStation | .exitPlacement | .station | .room | .mode | .tamper | .clock | .barState
      | .barTest | .locate | .search | .count | .pool | .classRule | .claim | .firstBar | .firstLocate | .firstSearch
      | .claimFirst | .claimSecond | .pairOpening | .approvalOpening | .claimRelease | .interim | .settling => []

/-- A MARK, where one is due or the link waits to send one (R86, R134, R142): the records of its permits confirmed. -/
def markSteps (s : State) : List RecordStep :=
  if (s.linkState = .running ∧ s.cyclePlace = .markDue) ∨ s.linkState = .recovering then
    (s.verdicts.take Config.markVerdicts).flatMap (fun e =>
      match e.permit with
      | none => []
      | some p => p.records.map .confirm)
  else []

/-- The steps of the operation that a cut names, while its block runs; the walks of the Presence Pool are cutWalk's. -/
def blockSteps (w : Walk) (s : State) : List RecordStep :=
  match w with
  | .decision => decisionSteps s
  | .mark => markSteps s
  | .engineRevoke => engineSteps Notice.isRevoke s
  | .engineBar => engineSteps Notice.isBar s
  | .engineMode => engineSteps Notice.isMode s
  | .engineTamper => engineSteps Notice.isTamper s
  | .engineLoss => engineSteps Notice.isLoss s
  | .engineStop => engineSteps Notice.isStop s
  | .command | .revoke | .bar | .unbar | .overstay | .tamper | .retire => []

/-- The steps of the operation that a cut names, where it is due: a command's, a reset under way included, while the port is
on, a block's while every block runs. -/
def operationSteps (w : Walk) (s : State) : List RecordStep :=
  if w = .command then (if s.portOn then commandSteps s else []) else if s.awake then blockSteps w s else []

/-! ## The cut (R160, R168, log 53, 56) -/

/-- An operation in progress reaches so many records, and no more: these in their new form, the rest in their old one.
Nothing where no such operation is due. -/
def cutOperation (cut : Option Cut) (s : State) : State :=
  match cut with
  | none => s
  | some c => runReached c.reached (operationSteps c.walk s) (cutWalk cut s)

/-- An operation on many records may be in progress. -/
def State.cutDue (s : State) : Bool :=
  s.askingPool || s.seat.isSome || s.resetting || decide (s.linkState ≠ .stopped) ||
    s.notices.any (fun o => (decide (o.receiver = .presencePool) && o.notice.walk.isSome) ||
      decide (o.receiver = .decisionEngine)) ||
    decide (s.work = some (.handed 0x36)) || decide (s.work = some (.handed 0x37)) || decide (s.work = some (.handed 0x4B))

/-- The failing supply cuts the operation in progress: which, and where, is the next free value (log 53). DESIGN CHOICE (log
56): these operations are cut, each between two of the steps above or of their parts. -/
def cutBySupply (s : State) : State :=
  if s.cutDue then cutOperation (Config.cutOf s.cuts) { s with cuts := s.cuts + 1 } else s

/-! ## MAIN_SUPPLY_FAIL (R161) -/

/-- The main supply fails: every item that is not retained vanishes; it stands here at its reset value (log 31). Claims in
hand return nothing (R91). An operation on many records keeps what it has reached (R160). -/
def execMainSupplyFail (s : State) : Outcome :=
  .next (match s.supply with
    | .full =>
      dropNotices (blankBlocks (vanishStations (emptyAttention { cutBySupply s with supply := .retainedOnly })))
    | .retainedOnly => s)

end Sys2Proof.Machine
end

