-- ==== Sys2Proof/Machine/Dispatch.lean ====
section
/-! DEFINITION. One arm per command: each calls its meaning. -/

namespace Sys2Proof.Machine

open Sys2Proof

/-- The effect of a command on everything but the queue. -/
def exec (i : Instr) (s : State) : Host.Outcome State Fault Refusal :=
  match i with
  | .addGrant => Sys2Proof.Machine.execAddGrant s
  | .amendGrant => Sys2Proof.Machine.execAmendGrant s
  | .suspendGrant => Sys2Proof.Machine.execSuspendGrant s
  | .resumeGrant => Sys2Proof.Machine.execResumeGrant s
  | .revokeGrant => Sys2Proof.Machine.execRevokeGrant s
  | .retireGrant pause => Sys2Proof.Machine.execRetireGrant pause s
  | .readGrant => Sys2Proof.Machine.execReadGrant s
  | .findGrants pause => Sys2Proof.Machine.execFindGrants pause s
  | .setClock => Sys2Proof.Machine.execSetClock s
  | .readClock => Sys2Proof.Machine.execReadClock s
  | .shiftHour => Sys2Proof.Machine.execShiftHour s
  | .trimClock => Sys2Proof.Machine.execTrimClock s
  | .defineRoom => Sys2Proof.Machine.execDefineRoom s
  | .closeRoom => Sys2Proof.Machine.execCloseRoom s
  | .openRoom => Sys2Proof.Machine.execOpenRoom s
  | .deleteRoom => Sys2Proof.Machine.execDeleteRoom s
  | .readRoom => Sys2Proof.Machine.execReadRoom s
  | .listPresence => Sys2Proof.Machine.execListPresence s
  | .removePresence => Sys2Proof.Machine.execRemovePresence s
  | .resetCensus => Sys2Proof.Machine.execResetCensus s
  | .setPairWindow => Sys2Proof.Machine.execSetPairWindow s
  | .readPairContext => Sys2Proof.Machine.execReadPairContext s
  | .barCredential => Sys2Proof.Machine.execBarCredential s
  | .unbarCredential => Sys2Proof.Machine.execUnbarCredential s
  | .readBarList => Sys2Proof.Machine.execReadBarList s
  | .clearBarList => Sys2Proof.Machine.execClearBarList s
  | .setReferralTimeout => Sys2Proof.Machine.execSetReferralTimeout s
  | .takeReferral => Sys2Proof.Machine.execTakeReferral s
  | .answerReferral => Sys2Proof.Machine.execAnswerReferral s
  | .clearHotCard => Sys2Proof.Machine.execClearHotCard s
  | .configureLink => Sys2Proof.Machine.execConfigureLink s
  | .startLink => Sys2Proof.Machine.execStartLink s
  | .stopLink => Sys2Proof.Machine.execStopLink s
  | .readLink => Sys2Proof.Machine.execReadLink s
  | .bindStation => Sys2Proof.Machine.execBindStation s
  | .unbindStation pause => Sys2Proof.Machine.execUnbindStation pause s
  | .setStation => Sys2Proof.Machine.execSetStation s
  | .readStation => Sys2Proof.Machine.execReadStation s
  | .setMode => Sys2Proof.Machine.execSetMode s
  | .readMode => Sys2Proof.Machine.execReadMode s
  | .readHealth => Sys2Proof.Machine.execReadHealth s
  | .clearHealth => Sys2Proof.Machine.execClearHealth s
  | .acknowledgeTamper => Sys2Proof.Machine.execAcknowledgeTamper s
  | .clearRetained => Sys2Proof.Machine.execClearRetained s
  | .deviceReset => Sys2Proof.Machine.execDeviceReset s
  | .badCommand word => Sys2Proof.Machine.execBadCommand word s
  | .commandCompletion => Sys2Proof.Machine.execCommandCompletion s
  | .commandWriteWhileBusy word => Sys2Proof.Machine.execCommandWriteWhileBusy word s
  | .registerWrite address value => Sys2Proof.Machine.execRegisterWrite address value s
  | .attentionRead part => Sys2Proof.Machine.execAttentionRead part s
  | .attentionMaskWrite value => Sys2Proof.Machine.execAttentionMaskWrite value s
  | .resetnLow => Sys2Proof.Machine.execResetnLow s
  | .resetnHigh => Sys2Proof.Machine.execResetnHigh s
  | .mainSupplyFail => Sys2Proof.Machine.execMainSupplyFail s
  | .supplyReturn backupHeld => Sys2Proof.Machine.execSupplyReturn backupHeld s
  | .lineLevelChange line asserted => Sys2Proof.Machine.execLineLevelChange line asserted s
  | .modeNotice block => Sys2Proof.Machine.execModeNotice block s
  | .tamperAssertion => Sys2Proof.Machine.execTamperAssertion s
  | .tamperNotice block => Sys2Proof.Machine.execTamperNotice block s
  | .tamperSlotFree => Sys2Proof.Machine.execTamperSlotFree s
  | .secondBoundary => Sys2Proof.Machine.execSecondBoundary s
  | .sweepVisit => Sys2Proof.Machine.execSweepVisit s
  | .overstayNotice => Sys2Proof.Machine.execOverstayNotice s
  | .pairExpiry slot => Sys2Proof.Machine.execPairExpiry slot s
  | .referralTimeout reference => Sys2Proof.Machine.execReferralTimeout reference s
  | .takeRequest pause => Sys2Proof.Machine.execTakeRequest pause s
  | .answerCheck pause => Sys2Proof.Machine.execAnswerCheck pause s
  | .revokeNotice block => Sys2Proof.Machine.execRevokeNotice block s
  | .barNotice block => Sys2Proof.Machine.execBarNotice block s
  | .unbarNotice => Sys2Proof.Machine.execUnbarNotice s
  | .lossNotice block => Sys2Proof.Machine.execLossNotice block s
  | .stopNotice block => Sys2Proof.Machine.execStopNotice block s
  | .faultNotice block => Sys2Proof.Machine.execFaultNotice block s
  | .mark carrier => Sys2Proof.Machine.execMark carrier s
  | .turnStart => Sys2Proof.Machine.execTurnStart s
  | .request station sequence side credential => Sys2Proof.Machine.execRequest station sequence side credential s
  | .report station entrance => Sys2Proof.Machine.execReport station entrance s
  | .idle station => Sys2Proof.Machine.execIdle station s
  | .discardedFrame line => Sys2Proof.Machine.execDiscardedFrame line s
  | .turnTimerExpiry => Sys2Proof.Machine.execTurnTimerExpiry s
  | .jabber => Sys2Proof.Machine.execJabber s
  | .lineDisturbance => Sys2Proof.Machine.execLineDisturbance s
  | .recoveryQuiet => Sys2Proof.Machine.execRecoveryQuiet s
  | .tamperRelease => Sys2Proof.Machine.execTamperRelease s

end Sys2Proof.Machine
end

