-- ==== Sys2Proof/Safety.lean ====
section
/-! DEFINITION. The words the statements are made of: when the port takes a command, when every stored item reads clean, and the invariant that every step keeps. -/

namespace Sys2Proof.Machine

open Sys2Proof

/-! ## Commands at the port -/

/-- The part runs and its port takes a command: it is on, and IDLE (R172, R174). -/
def State.accepts (s : State) : Bool := s.awake && !s.portBusy

/-- The state once a code is accepted: BUSY, OVERRUN clear, the code written into STATUS (R174). -/
def accepted (code : BitVec 8) (s : State) : State :=
  { s with portBusy := true, overrun := false, lastCommand := code }

/-- The state once an accepted command has its result; nothing else changes (R174). -/
def answered (code : BitVec 8) (r : CommandResult) (s : State) : State :=
  { accepted code s with work := some (.ready r) }

/-! ## Undamaged storage (R164) -/

def Stored.good {α : Type} (x : Stored α) : Bool := decide (x.condition = .good)

def Slot.undamaged (x : Slot) : Bool := x.header.clean && x.body.good
def Room.undamaged (x : Room) : Bool := x.header.clean && x.body.good
def PresenceRecord.undamaged (x : PresenceRecord) : Bool := x.index.clean && x.body.good
def Station.undamaged (x : Station) : Bool := x.header.clean && x.body.good

/-- Every item of the retained domain reads clean: no read is a corrected or an uncorrectable one. -/
def State.undamaged (s : State) : Bool :=
  s.clock.clean && s.trim.clean && s.barHeader.clean && s.pairWindow.clean && s.referralTimeout.clean &&
    s.linkConfig.clean && s.health.clean && s.tamper.clean && s.deferred.clean &&
    s.grants.all (fun p => p.2.undamaged) && s.rooms.all (fun p => p.2.undamaged) &&
    s.presence.all (fun p => p.2.undamaged) && s.barEntries.all Stored.good &&
    s.stations.all (fun p => p.2.undamaged)

/-! ## What a reader of undamaged storage finds -/

/-- What a reader of a room finds, as a function of the room. -/
def Room.view (x : Room) : RoomView :=
  match x.header.value with
  | .undefined => .undefined
  | .faulted => .faulted
  | .inService => .readable false x.body.value
  | .closed => .readable true x.body.value

/-- The first record of a list that can be read and holds a credential. -/
def State.locateIn (s : State) (c : Credential) (ids : List Nat) : Option Nat :=
  ids.find? (fun id => !(s.index id).faulted && decide ((s.record id).body.value.credential = c))

/-- The body of a station that is not FAULTED. -/
def Station.readable (x : Station) : Option StationBody := if x.header.value then none else some x.body.value

/-- The stations of a list that are bound to a room. -/
def State.boundAmong (s : State) (r : Nat) (ks : List Nat) : List Nat :=
  ks.filter (fun k => decide (((s.station k).readable.bind (·.binding)) = some r))

/-! ## The invariant -/

/-- Every table of numbered records is in its canonical form (log 28). -/
def State.tablesWf (s : State) : Bool :=
  Table.wf Slot.cleared s.grants && Table.wf Room.cleared s.rooms && Table.wf PresenceRecord.free s.presence &&
    Table.wf Station.cleared s.stations && Table.wf none s.pairs

/-- The causes that RETAINED-ONLY supply may defer (R163). -/
def deferrableBits : Word := 0x00001C02

/-- ATTENTION, its mask, the causes kept while RESETn is low and the deferred causes hold existing causes alone
(R163, R177, R178). -/
def State.latchesOk (s : State) : Bool :=
  (s.latches &&& ~~~causeBits == 0) && (s.attentionMask &&& ~~~causeBits == 0) &&
    (s.resetCauses &&& ~~~causeBits == 0) && (s.deferred.value &&& ~~~deferrableBits == 0)

/-- The Request Queue holds at most 16 entries, the Referral Queue at most 12 approvals and 4 hot cards, no two of them
with one reference number (R67, R113, R114). -/
def State.queuesOk (s : State) : Bool :=
  decide (s.requests.length ≤ Config.requestPlaces) && decide (s.approvals ≤ Config.approvals) &&
    decide (s.hotCards ≤ Config.hotCards) && decide ((s.referrals.map (·.reference)).Nodup)

/-- No grant has more uses remaining than its allowance (R6). -/
def GrantRecord.usesOk (g : GrantRecord) : Bool := g.uses.all (fun u => decide (u.remaining ≤ u.allowance))

def State.usesOk (s : State) : Bool := s.grants.all (fun p => p.2.body.value.usesOk)

/-- The Bar List stands in strict ascending order, within its places, and its header counts its entries (R105). -/
def State.barOk (s : State) : Bool :=
  decide (s.barHeader.value.count = s.barEntries.length) && decide (s.barEntries.length ≤ Config.barPlaces) &&
    decide (s.barEntries.Pairwise (fun a b => a.value.toNat < b.value.toNat))

/-- An APPROVAL in state ANSWERING. -/
def ReferralEntry.isAnswering (e : ReferralEntry) : Bool :=
  match e.kind with
  | .approval _ .answering _ _ => true
  | .approval _ .opening _ _ | .approval _ .waiting _ _ | .approval _ .taken _ _ | .hotCard _ => false

/-- The places of the Verdict Queue that a decision at an operation still holds: two until it opens a context or an approval, one until
that is answered with HOLD or REFER WAIT (R68, R94, R118). -/
def Phase.places : Phase → Nat
  | .settling | .answerEnd _ => 0
  | .claimRelease | .interim => 1
  | .stationQuery | .sameCard | .exitStation | .exitRemoval | .exitPlacement | .station | .room | .mode | .tamper | .clock
  | .barState | .barTest | .locate | .search | .count | .pool | .classRule | .claim | .firstBar | .firstLocate | .firstSearch
  | .claimFirst | .claimSecond | .admission | .escortRead | .placement | .pairOpening | .approvalOpening => 2

/-- The decision in hand: a request holds the places its operation needs, an answer check has its approval ANSWERING, and a completion is
made by another card than its context's (R68, R70, R122). -/
def State.seatOk (s : State) : Bool :=
  match s.seat with
  | none => true
  | some d =>
    (match d.work with
      | .request _ => decide (d.phase.places ≤ d.heldPlaces)
      | .answer n => s.referrals.any (fun e => decide (e.reference = n) && e.isAnswering)) &&
    (match d.holding with
      | .completing slot => (s.pair slot).all (fun c => decide (c.credential ≠ d.credential))
      | .none | .openingPair _ | .openingApproval _ => true)

/-- The entries, the reservations and the held places are at most the 48 of the Verdict Queue (R82); the contexts stand in slots 1-8
(R92). -/
def State.placesOk (s : State) : Bool :=
  decide (s.verdicts.length + s.reservations + s.heldPlaces ≤ Config.verdictPlaces) &&
    s.pairs.all (fun p => decide (1 ≤ p.1) && decide (p.1 ≤ Config.pairSlots)) && s.seatOk

/-- The presence records in use that are not faulted. -/
def State.readableRecords (s : State) : List Nat := s.inUseRecords.filter (fun id => !(s.index id).faulted)

/-- No credential appears in two presence records that are not faulted (R54). -/
def State.credentialsApart (s : State) : Bool :=
  decide ((s.readableRecords.map (fun id => (s.record id).body.value.credential)).Nodup)

/-- The invariant that every step keeps. -/
def State.inv (s : State) : Bool :=
  s.tablesWf && s.latchesOk && s.queuesOk && s.usesOk && s.barOk && s.placesOk && s.credentialsApart

/-! ## Words of the statements -/

/-! ## Verdicts that the statements speak of -/

/-- The words a command that waits for its notices completes OK with (R20, R109, R110, R112, R132, R154, R182). -/
def countsOf (w : CommandWork) : Option Window :=
  match w with
  | .revoke c | .bar c =>
    some { arg0 := BitVec.ofNat 32 c.withdrawn, arg1 := BitVec.ofNat 32 c.closed, arg2 := BitVec.ofNat 32 c.marked }
  | .unbar n => some { arg0 := if n = 0 then 0 else 1 }
  | .clearBar removed cleared => some { arg0 := BitVec.ofNat 32 removed, arg1 := BitVec.ofNat 32 cleared }
  | .setMode before after c =>
    some { arg0 := put 0 2 before.code ||| put 8 2 after.code
           arg1 := BitVec.ofNat 32 c.withdrawn
           arg2 := BitVec.ofNat 32 c.closed }
  | .stopLink => some {}
  | .handed _ | .ready _ | .retire _ _ | .unbind _ _ | .find _ _ _ | .answer _ | .reset _ => none

/-- A holder of a handle that RETIRE GRANT's question finds: unsent permits and the claims in hand, contexts, approvals, presence records
that can be read (R21). -/
def holdsAt (h : Handle) (question : Nat) (s : State) : Prop :=
  match question with
  | 0 => (∃ e ∈ s.verdicts, ∃ p, e.permit = some p ∧ ∃ c ∈ p.claims, c.handle = h) ∨
      ∃ d, s.seat = some d ∧ ∃ c ∈ d.claims, c.handle = h
  | 1 => ∃ slot c, 1 ≤ slot ∧ slot ≤ 8 ∧ s.pair slot = some c ∧ c.handle = h
  | 2 => ∃ e ∈ s.referrals, ∃ st n c, e.kind = .approval h st n c
  | _ => ∃ id ∈ s.inUseRecords, (s.index id).faulted = false ∧ (s.record id).body.value.handle = some h

/-- Work of a station that UNBIND STATION's question finds (R148). -/
def State.worksAt (s : State) (k : Nat) (question : Nat) : Prop :=
  match question with
  | 0 => ∃ r ∈ s.requests, r.station = k
  | 1 => ∃ d side, s.seat = some d ∧ d.work = .request side ∧ d.station = k
  | 2 => ∃ slot c, 1 ≤ slot ∧ slot ≤ 8 ∧ s.pair slot = some c ∧ c.station = k
  | 3 => ∃ e ∈ s.referrals, e.isApproval = true ∧ e.station = k
  | _ => ∃ e ∈ s.verdicts, e.station = k

/-- The answer record of a station once a reservation has become a final verdict (R144): one of another sequence that is not
open stays. -/
def convertedAnswer (q : Sequence) (v : Verdict) (r : Option DenyReason) (old : Option AnswerRecord) : Option AnswerRecord :=
  match old with
  | none => some ⟨q, v, r, false, false⟩
  | some a => if a.isOpen = false ∧ a.sequence ≠ q then some a else some ⟨q, v, r, false, false⟩

/-- The state with the reservation of a sequence turned into a DENY at the tail of the Verdict Queue (R85). -/
def converted (k : Nat) (q : Sequence) (r : DenyReason) (s : State) : State :=
  { s with
    verdicts := s.verdicts ++ [⟨k, q, .deny, some r, false, none⟩]
    stations := Table.set Station.cleared s.stations k
      { s.station k with answer := convertedAnswer q .deny (some r) (s.station k).answer } }

/-- The state with a decided verdict placed and reported (R75, R81); `v` is no interim verdict. -/
def placed (e : VerdictEntry) (s : State) : State :=
  { s with
    verdicts := s.verdicts ++ [e]
    stations := Table.set Station.cleared s.stations e.station
      { s.station e.station with answer := some ⟨e.sequence, e.verdict, e.reason, false, false⟩ } }

/-- The answer record of a station once a reservation has been freed without a verdict (R144): an open one is forgotten. -/
def freedAnswer (old : Option AnswerRecord) : Option AnswerRecord :=
  match old with
  | none => none
  | some a => if a.isOpen = true then none else some a

/-- The state with the reservation of a station freed without a verdict. -/
def freed (k : Nat) (s : State) : State :=
  { s with
    stations := Table.set Station.cleared s.stations k
      { s.station k with answer := freedAnswer (s.station k).answer } }

/-- The state once a block's reservation has ended with a DENY: converted, or freed where the station's part of the Verdict Queue has
been emptied already (R90, R102, R140; log 52). -/
def deniedAt (b : Block) (k : Nat) (q : Sequence) (r : DenyReason) (s : State) : State :=
  if s.endedAt b k then freed k s else converted k q r s

/-- So many uses have been given back to each grant that can be read, one for each claim that took one, up to its allowance (R14). -/
def givenBack (claims : List Claim) (s t : State) : Prop :=
  ∀ j st issue g, (s.slot j).header.value = ⟨st, issue⟩ → st ≠ .free → st ≠ .faulted → g = (s.slot j).body.value →
    (t.slot j).header.value.issue = issue ∧
    (t.slot j).body.value = { g with uses := g.uses.map (fun u => { u with
      remaining := if u.allowance ≤ u.remaining then u.remaining else
        min u.allowance (u.remaining + (claims.filter (fun c => c.useTaken && decide (c.handle = ⟨j, issue⟩))).length) }) }

/-- The claims of the permit entries of a kind. -/
def claimsOf (which : VerdictEntry → Bool) (s : State) : List Claim :=
  (s.verdicts.filter which).flatMap (fun e => match e.permit with
    | none => []
    | some p => p.claims)

/-- The records of the permit entries of a kind. -/
def recordsOf (which : VerdictEntry → Bool) (s : State) : List Nat :=
  (s.verdicts.filter which).flatMap (fun e => match e.permit with
    | none => []
    | some p => p.records)

/-- Of the records in use exactly the UNSENT ones of a list have been removed (R58). -/
def removedUnsent (ids : List Nat) (s t : State) : Prop :=
  ∀ id, (t.index id).inUse = ((s.index id).inUse && !(ids.contains id && !(s.index id).sent))

/-- The credentials of the Bar List in ascending order, each once (R105). -/
def State.barSorted (s : State) : Prop :=
  s.barEntries.Pairwise (fun a b => a.value.toNat < b.value.toNat) ∧ s.barHeader.value.count = s.barEntries.length

/-- The credential is one of the Bar List's. -/
def State.onBarList (s : State) (c : Credential) : Prop := ∃ e ∈ s.barEntries, e.value = c

/-! ## The link, as the statements speak of it -/

/-- The turn after a station's, or the next MARK after the last station (R134). -/
def State.turnAfter (s : State) (k : Nat) : CyclePlace :=
  if k < s.linkConfig.value.stations then .turnDue (k + 1) else .markDue

/-- The part is on, the link RUNNING, and the turn of a station open with so many frames left. -/
def State.inTurn (s : State) (k left : Nat) (heard : Bool) : Prop :=
  s.awake = true ∧ s.linkState = .running ∧ s.cyclePlace = .turnOpen k left heard

/-- The kind of a station's frame (R183). -/
def FrameContent.kind : FrameContent → Byte
  | .request _ _ _ => 0x02
  | .report _ => 0x03
  | .idle => 0x04

/-- The payload of a station's frame (R183): the two bits between side and sequence are ignored, so a station may send any. -/
def FrameContent.payload (ignored : BitVec 2) : FrameContent → List Byte
  | .request q side c =>
    [(match side with
      | .outside => 1#2
      | .inside => 2#2) ++ ignored ++ q,
      c.extractLsb' 32 8, c.extractLsb' 24 8, c.extractLsb' 16 8, c.extractLsb' 8 8, c.extractLsb' 0 8]
  | .report e => [match e with
      | .shut => 1#8
      | .opened => 2#8
      | .held => 3#8
      | .forced => 4#8]
  | .idle => []

/-- A frame as its station sends it, half-bit by half-bit (R183). -/
def FrameContent.sentBy (station : Byte) (ignored : BitVec 2) (c : FrameContent) : HalfBits :=
  onLine (frameBytes c.kind station (c.payload ignored))

/-- The row of a valid frame. -/
def FrameContent.row (station : Nat) : FrameContent → Instr
  | .request q side c => .request station q side c
  | .report e => .report station e
  | .idle => .idle station

/-- Some block holds work of a station (R148). -/
def State.holdsWorkOf (s : State) (k : Nat) : Prop :=
  (∃ r ∈ s.requests, r.station = k) ∨
  (∃ d side, s.seat = some d ∧ d.work = .request side ∧ d.station = k) ∨
  (∃ slot c, 1 ≤ slot ∧ slot ≤ 8 ∧ s.pair slot = some c ∧ c.station = k) ∨
  (∃ e ∈ s.referrals, e.isApproval = true ∧ e.station = k) ∨
  (∃ e ∈ s.verdicts, e.station = k)

/-- The station names of a command's arguments, in undamaged storage. -/
def namesStation (s : State) (k : Nat) : Prop :=
  s.accepts = true ∧ s.undamaged = true ∧ k = field s.window.arg0 0 8

/-- A missed turn of a station (R139, R140): its count rises where it is SILENT or ACTIVE, and at the limit it becomes LOST. -/
def missed (k : Nat) (s t : State) : Prop :=
  ((s.station k).state = .lost ∨ (s.station k).state = .jabbering ∨ (s.station k).state = .faulted →
    t.stations = s.stations ∧ t.notices = s.notices ∧ t.attention = s.attention) ∧
  ((s.station k).state = .silent ∨ (s.station k).state = .active →
    ((s.station k).missed + 1 < s.linkConfig.value.missedLimit →
      t.station k = { s.station k with missed := (s.station k).missed + 1 } ∧
      t.notices = s.notices ∧ t.attention = s.attention) ∧
    (s.linkConfig.value.missedLimit ≤ (s.station k).missed + 1 →
      t.station k = { s.station k with
        missed := s.linkConfig.value.missedLimit, state := .lost, answer := none, inFlight := 0 } ∧
      t.notices = s.notices ++ [⟨.requestQueue, .loss k, false⟩, ⟨.decisionEngine, .loss k, false⟩,
        ⟨.pairTable, .loss k, false⟩, ⟨.referralQueue, .loss k, false⟩] ∧
      t.attention = s.attention ||| Cause.stationLost.word))

/-- The record is one of the permits of the eight oldest entries and its confirmation reports a condition (R58, R86). -/
def State.alertsWhenSent (s : State) (id : Nat) : Prop :=
  (∃ e ∈ s.verdicts.take 8, ∃ p, e.permit = some p ∧ id ∈ p.records) ∧ (s.index id).inUse = true ∧
  (s.index id).faulted = false ∧
  ((s.record id).body.value.conditions.grantRevoked = true ∨ (s.record id).body.value.conditions.barred = true ∨
    (s.record id).body.value.conditions.grantCleared = true)

/-- What sending a MARK does: up to eight verdicts leave in order; their records become SENT; their sequences leave the
in-flight sets; JABBERING stations count down; the turns of a new cycle follow (R86, R134, R136, R141). Their answer records are marked sent, and a
confirmed record that GRANT REVOKED, CREDENTIAL BARRED or GRANT CLEARED stands on raises PRESENCE ALERT (R58, R144). -/
def markSentOver (s t : State) : Prop :=
  t.markSent = some ⟨s.cycle, s.mode, s.verdicts.take 8⟩ ∧ t.verdicts = s.verdicts.drop 8 ∧
  t.cycle = s.cycle + 1 ∧ t.linkState = .running ∧ t.cyclePlace = .turnDue 1 ∧
  (∀ id, (t.index id).sent = true ↔ (s.index id).sent = true ∨
    ((s.index id).inUse = true ∧ ∃ e ∈ s.verdicts.take 8, ∃ p, e.permit = some p ∧ id ∈ p.records)) ∧
  (∀ id, (t.index id).inUse = (s.index id).inUse ∧ (t.index id).room = (s.index id).room ∧
    (t.index id).place = (s.index id).place ∧ (t.record id).body = (s.record id).body) ∧
  (∀ k (q : Sequence), (t.station k).inFlight.getLsbD q.toNat = true ↔
    (s.station k).inFlight.getLsbD q.toNat = true ∧
      ¬ ∃ e ∈ s.verdicts.take 8, e.repeated = false ∧ e.station = k ∧ e.sequence = q) ∧
  (∀ k, (t.station k).state =
    (if (s.station k).state = .jabbering ∧ (s.station k).release = 0 then .silent else (s.station k).state) ∧
    (t.station k).release = (if (s.station k).state = .jabbering then (s.station k).release - 1 else (s.station k).release) ∧
    (t.station k).missed = (s.station k).missed ∧ (t.station k).entrance = (s.station k).entrance ∧
    (t.station k).body = (s.station k).body) ∧
  (∀ k, (t.station k).answer = (s.station k).answer.map (fun a =>
    if (s.verdicts.take 8).any (fun e => !e.repeated && decide (e.station = k) && decide (e.sequence = a.sequence)) then
      { a with sent := true } else a)) ∧
  ((∃ id, s.alertsWhenSent id) → t.attention = s.attention ||| Cause.presenceAlert.word) ∧
  ((¬ ∃ id, s.alertsWhenSent id) → t.attention = s.attention) ∧
  t.grants = s.grants ∧ t.rooms = s.rooms ∧ t.requests = s.requests ∧ t.seat = s.seat ∧ t.pairs = s.pairs ∧
  t.referrals = s.referrals ∧ t.notices = s.notices

/-! ## Modes, tamper and reset, as the statements speak of them -/

/-- The three mode notices of a change to LOCKDOWN or FIRE (R152). -/
def modeNotices (m : BuildingMode) (ofCommand : Bool) : List Outstanding :=
  [⟨.decisionEngine, .mode m, ofCommand⟩, ⟨.pairTable, .mode m, ofCommand⟩, ⟨.referralQueue, .mode m, ofCommand⟩]

/-- The four tamper notices (R168). -/
def tamperNotices : List Outstanding :=
  [⟨.decisionEngine, .tamper, false⟩, ⟨.pairTable, .tamper, false⟩, ⟨.referralQueue, .tamper, false⟩,
   ⟨.presencePool, .tamper, false⟩]

/-- What a device reset leaves of everything that is not retained, ATTENTION, the mode and the link state apart (R180). -/
def blocksReset (t : State) : Prop :=
  t.requests = [] ∧ t.seat = none ∧ t.verdicts = [] ∧ t.pairs = [] ∧ t.referrals = [] ∧ t.referenceCounter = 1 ∧
  t.retireHold = none ∧ t.unbindHold = none ∧ t.cycle = 0 ∧ t.cyclePlace = .markDue ∧ t.override = false ∧
  t.portBusy = false ∧ t.resultCode = .ok ∧ t.overrun = false ∧ t.window = {} ∧ t.attentionMask = 0 ∧ t.work = none ∧
  (∀ k, (t.station k).state = (if (t.station k).header.value then .faulted else .silent) ∧ (t.station k).missed = 0 ∧
    (t.station k).release = 0 ∧ (t.station k).entrance = none ∧ (t.station k).answer = none ∧ (t.station k).inFlight = 0)

/-- What a device reset keeps of the retained domain; of the presence records exactly the SENT ones (R91, R180). -/
def retainedKept (s t : State) : Prop :=
  t.clock = s.clock ∧ t.trim = .of none ∧ t.barHeader = s.barHeader ∧ t.barEntries = s.barEntries ∧
  t.pairWindow = s.pairWindow ∧ t.referralTimeout = s.referralTimeout ∧ t.linkConfig = s.linkConfig ∧
  t.health = s.health ∧ (∀ k, (t.station k).header = (s.station k).header ∧ (t.station k).body = (s.station k).body) ∧
  (∀ r, (t.room r).header = (s.room r).header) ∧
  (∀ id, (t.index id).inUse = ((s.index id).inUse && (s.index id).sent)) ∧
  (∀ id, (s.index id).inUse = true → (s.index id).sent = true →
    (t.index id).room = (s.index id).room ∧ (t.record id).body.value.credential = (s.record id).body.value.credential)

/-- The records a device reset removes: those in use that are UNSENT, in the order of their numbers (R91, log 40). -/
def State.unsentRecords (s : State) : List Nat := s.inUseRecords.filter (fun id => !(s.index id).sent)

/-- The claims whose uses a device reset gives back: those in hand that have admitted no record, and those the UNSENT records that can
be read name (R91). -/
def State.claimsGivenBack (s : State) : List Claim :=
  (match s.seat with
    | none => []
    | some d => if d.records = [] then d.claims else []) ++
  s.unsentRecords.filterMap (fun id =>
    if (s.index id).faulted then none
    else (s.record id).body.value.handle.map (fun h => ⟨h, (s.index id).useTaken⟩))

/-- A slot once uses have been given back to it, one for each claim that took one, up to its allowance; a SPENT grant is ACTIVE again,
or PENDING before its window (R14). -/
def State.slotAfterReturns (s : State) (claims : List Claim) (j : Nat) : Slot :=
  let x := s.slot j
  let n := (claims.filter (fun c => c.useTaken && decide (c.handle = ⟨j, x.header.value.issue⟩))).length
  match x.body.value.uses with
  | none => x
  | some u =>
    if x.header.value.state = .free ∨ x.header.value.state = .faulted ∨ n = 0 ∨ u.allowance ≤ u.remaining then x
    else
      ⟨.of ⟨if x.header.value.state = .spent then
          (if x.body.value.validFrom.atOrBefore s.clock.value.calendar.minute then .active else .pending)
        else x.header.value.state, x.header.value.issue⟩,
        .of { x.body.value with uses := some { u with remaining := min u.allowance (u.remaining + n) } }⟩

/-- A room's body once records have been removed: each ESCORT that leaves lowers the escort count of a room that can be read (R58). -/
def State.roomAfterRemovals (s : State) (removed : List Nat) (r : Nat) : RoomBody :=
  match (s.room r).view with
  | .undefined | .faulted => (s.room r).body.value
  | .readable _ b => { b with
      escorts := b.escorts -
        (removed.filter (fun id => decide ((s.index id).room = r) && decide ((s.index id).role = .escort))).length }

/-- The places in the lists once records have been removed one after another: those behind each in its room move up one (R58). -/
def State.placesAfterRemovals (s : State) (removed : List Nat) : Nat → Nat :=
  removed.foldl (fun place x => fun k =>
      if (s.index k).room = (s.index x).room ∧ place x < place k then place k - 1 else place k)
    (fun k => (s.index k).place)

/-- The body of a record that stays: UNESCORTED is set on a CONTRACTOR whose ESCORTED room loses its last ESCORT (R61). -/
def State.bodyAfterRemovals (s : State) (removed : List Nat) (id : Nat) : PresenceBody :=
  let b := (s.record id).body.value
  let r := (s.index id).room
  match (s.room r).view with
  | .undefined | .faulted => b
  | .readable _ room =>
    if room.cls = .escorted ∧ (s.index id).role = .contractor ∧ (s.index id).faulted = false ∧ 1 ≤ room.escorts ∧
        (s.roomAfterRemovals removed r).escorts = 0 then
      { b with conditions := { b.conditions with unescorted := true } }
    else b

/-- A device reset ends the tamper clear in progress: its last slot is free and no marking is owed, and notices to blocks that are
reset count as taken (R168, log 27). -/
def State.resetEndsClear (s : State) : Bool :=
  s.tamper.value.clearing && decide (1024 < s.tamper.value.cursor) &&
    !s.notices.any (fun o => decide (o.receiver = .presencePool) && o.notice.isTamper)

/-- The tamper items and the marking position after a device reset: a clear that ends begins again where a re-clear is owed (R168). -/
def State.tamperAfterReset (s : State) : Tamper × Nat :=
  let t := s.tamper.value
  if s.resetEndsClear then
    (if t.reclear then (⟨true, true, false, 1⟩, 0) else ({ t with clearing := false, cursor := 1 }, s.markedTo))
  else (t, s.markedTo)

/-- What a device reset does to the retained domain (R91, R180): the UNSENT records are removed and the uses they and the claims in hand
took are given back, a pending trim is cancelled (R26), and a tamper clear may end or begin again (R168, log 27); every other item, grant,
room and SENT record stays. -/
def resetKeeps (s t : State) : Prop :=
  t.clock = s.clock ∧ t.trim = .of none ∧ t.barHeader = s.barHeader ∧ t.barEntries = s.barEntries ∧
  t.pairWindow = s.pairWindow ∧ t.referralTimeout = s.referralTimeout ∧ t.linkConfig = s.linkConfig ∧
  t.health = s.health ∧ t.checkPattern = s.checkPattern ∧
  (t.tamper.value, t.markedTo) = s.tamperAfterReset ∧
  (∀ k, (t.station k).header = (s.station k).header ∧ (t.station k).body = (s.station k).body) ∧
  (∀ j, t.slot j = s.slotAfterReturns s.claimsGivenBack j) ∧
  (∀ r, (t.room r).header = (s.room r).header ∧ (t.room r).body.value = s.roomAfterRemovals s.unsentRecords r) ∧
  (∀ id, (s.index id).inUse = true → (s.index id).sent = false → t.record id = .free) ∧
  (∀ id, (s.index id).inUse = true → (s.index id).sent = true →
    t.index id = { s.index id with place := s.placesAfterRemovals s.unsentRecords id } ∧
    (t.record id).body.value = s.bodyAfterRemovals s.unsentRecords id) ∧
  (∀ id, (s.index id).inUse = false → t.record id = s.record id)

/-- Before a reset, a marking for the tamper notice has reached some records, where one is outstanding (R168, log 53). -/
def markedSome (s u : State) : Prop :=
  ((∀ o ∈ s.notices, o.receiver = .presencePool → o.notice ≠ .tamper) → u = s) ∧
  u = { s with
    presence := u.presence, markedTo := u.markedTo, cuts := u.cuts, attention := u.attention, deferred := u.deferred,
    resetCauses := u.resetCauses } ∧
  (∀ c : Cause, s.deferred.value.getLsbD c.bit = true → u.deferred.value.getLsbD c.bit = true) ∧
  ∀ id, (u.record id).index = (s.record id).index ∧
    ((u.record id).body.value = (s.record id).body.value ∨
      (s.index id).inUse = true ∧ (s.index id).faulted = false ∧ (u.record id).body.value =
        { (s.record id).body.value with
          handle := none, conditions := { (s.record id).body.value.conditions with grantCleared := true } })

/-- A cause stands latched, or is kept for RESETn's going high (R179, log 21). -/
def State.causeKept (s : State) (c : Cause) : Bool :=
  if s.resetLow then s.resetCauses.getLsbD c.bit else s.latched c

/-- The levels and the mode after the blocks resume: the pins as they stand (R153). -/
def linesTaken (t : State) : Prop :=
  t.fireLevel = t.firePin ∧ t.lockdownLevel = t.lockdownPin ∧
  t.mode = (if t.firePin then .fire else if t.lockdownPin || t.override then .lockdown else .normal)

/-! ## Notices, as the statements speak of them -/

/-- The row in which a block takes a notice. -/
def noticeRow (n : Notice) (b : Block) : Instr :=
  match n with
  | .revoke _ => .revokeNotice b
  | .bar _ => .barNotice b
  | .unbar _ => .unbarNotice
  | .overstay _ => .overstayNotice
  | .loss _ => .lossNotice b
  | .stop => .stopNotice b
  | .stationFault _ => .faultNotice b
  | .mode _ => .modeNotice b
  | .tamper => .tamperNotice b

/-- The notice is the oldest one outstanding for its block in its row, between `before` and `after`. -/
def State.oldest (s : State) (before : List Outstanding) (b : Block) (n : Notice) (ofCommand : Bool)
    (after : List Outstanding) : Prop :=
  s.notices = before ++ ⟨b, n, ofCommand⟩ :: after ∧
    ∀ o ∈ before, o.receiver = b → noticeRow o.notice b ≠ noticeRow n b

/-- The contexts a notice closes, and the cause (R102). -/
def pairClosure (n : Notice) : Option ((PairContext → Bool) × ClosureCause) :=
  match n with
  | .revoke h => some (fun c => decide (c.handle = h), .revokeNotice)
  | .bar x => some (fun c => decide (c.credential = x), .barNotice)
  | .loss k => some (fun c => decide (c.station = k), .stationLost)
  | .stationFault k => some (fun c => decide (c.station = k), .stationFault)
  | .stop => some (fun _ => true, .stopLink)
  | .mode .lockdown => some (fun _ => true, .lockdown)
  | .mode .fire => some (fun _ => true, .fire)
  | .tamper => some (fun _ => true, .tamperNotice)
  | .mode .normal | .unbar _ | .overstay _ => none

/-- The approvals a notice closes, by their entry and handle, and the cause (R124). -/
def approvalClosure (n : Notice) : Option ((ReferralEntry → Handle → Bool) × ClosureCause) :=
  match n with
  | .revoke h => some (fun _ g => decide (g = h), .revokeNotice)
  | .bar x => some (fun e _ => decide (e.credential = x), .barNotice)
  | .loss k => some (fun e _ => decide (e.station = k), .stationLost)
  | .stationFault k => some (fun e _ => decide (e.station = k), .stationFault)
  | .stop => some (fun _ _ => true, .stopLink)
  | .mode .lockdown => some (fun _ _ => true, .lockdown)
  | .mode .fire => some (fun _ _ => true, .fire)
  | .tamper => some (fun _ _ => true, .tamperNotice)
  | .mode .normal | .unbar _ | .overstay _ => none

/-- The DENY entries of the closed reservations of a block; a no-verdict cause leaves none (R85), nor does a station whose part of the
Verdict Queue has been emptied already (log 52). -/
def closureEntries (s : State) (b : Block) (cause : ClosureCause) (closed : List (Nat × Sequence)) : List VerdictEntry :=
  match cause.reason with
  | none => []
  | some r => (closed.filter (fun p => !s.endedAt b p.1)).map (fun p => ⟨p.1, p.2, .deny, some r, false, none⟩)

/-- The answer record of a station once a block has closed reservations for a cause, in turn, and reported each (R81, R144): the ones
that became a DENY, and the ones freed, by the kind of the cause or because the station's part of the Verdict Queue has been emptied
already (log 52). -/
def answerAfterClosures (s : State) (b : Block) (cause : ClosureCause) (closed : List (Nat × Sequence)) (k : Nat) :
    Option AnswerRecord :=
  (closed.filter (fun p => decide (p.1 = k))).foldl (fun a p => match cause.reason with
    | none => freedAnswer a
    | some r => if s.endedAt b k then freedAnswer a else convertedAnswer p.2 .deny (some r) a) (s.station k).answer

/-- The reservation of the context in a slot that a cause closes: the context is OPEN. -/
def closesPair (which : PairContext → Bool) (s : State) (slot : Nat) : Option (Nat × Sequence) :=
  (s.pair slot).bind (fun c => if which c = true ∧ c.held = false then some (c.station, c.sequence) else none)

/-- The reservation of an approval that a cause closes: it is WAITING or TAKEN. -/
def closesApproval (which : ReferralEntry → Handle → Bool) (e : ReferralEntry) : Option (Nat × Sequence) :=
  match e.kind with
  | .hotCard _ => none
  | .approval h st _ _ =>
    if which e h = true ∧ (st = .waiting ∨ st = .taken) then some (e.station, e.sequence) else none

/-- The entry a cause leaves in the queue, with the cause recorded on an OPENING or ANSWERING approval. -/
def afterClosure (which : ReferralEntry → Handle → Bool) (cause : ClosureCause) (e : ReferralEntry) : Option ReferralEntry :=
  match e.kind with
  | .hotCard _ => some e
  | .approval h st n c =>
    if which e h = true then
      (if st = .waiting ∨ st = .taken then none
        else some { e with kind := .approval h st n (recordClosure c cause) })
    else some e

/-- The permits a notice withdraws, and the reason (R87 to R89, R156, R168). -/
def withdrawal (n : Notice) : Option ((PermitData → Bool) × DenyReason) :=
  match n with
  | .revoke h => some (fun p => p.claims.any (fun c => decide (c.handle = h)), .revoked)
  | .bar x => some (fun p => p.credentials.contains x, .barred)
  | .mode .lockdown => some (fun _ => true, .lockdown)
  | .tamper => some (fun _ => true, .tamper)
  | .mode .fire | .mode .normal | .unbar _ | .overstay _ | .loss _ | .stationFault _ | .stop => none

/-- The entry after a withdrawal that reaches it: its place, station, sequence and origin stay (R87). -/
def afterWithdrawal (hit : PermitData → Bool) (r : DenyReason) (e : VerdictEntry) : VerdictEntry :=
  match e.permit with
  | none => e
  | some p => if hit p = true then ⟨e.station, e.sequence, .deny, some r, e.repeated, none⟩ else e

/-- The body of a presence record once a notice has reached it (R59, R60); a marking for the tamper notice that was cut short goes on
from where it stopped (R168). -/
def markedBody (n : Notice) (s : State) (id : Nat) : PresenceBody :=
  let b := (s.record id).body.value
  if (s.index id).inUse = true ∧ (s.index id).faulted = false then
    (match n with
      | .revoke h =>
        if b.handle = some h then { b with conditions := { b.conditions with grantRevoked := true } } else b
      | .overstay h => if b.handle = some h then { b with conditions := { b.conditions with overstay := true } } else b
      | .bar c =>
        if s.locateIn c s.inUseRecords = some id then { b with conditions := { b.conditions with barred := true } } else b
      | .unbar c =>
        if s.locateIn c s.inUseRecords = some id then { b with conditions := { b.conditions with barred := false } } else b
      | .tamper =>
        if s.markedTo ≤ id then { b with handle := none, conditions := { b.conditions with grantCleared := true } } else b
      | .loss _ | .stop | .stationFault _ | .mode _ => b)
  else b

/-- The body of a presence record once the walk of a notice has been cut short: marked where the walk marks and has reached it. -/
def cutBody (n : Notice) (cut : Option Cut) (s : State) (id : Nat) : PresenceBody :=
  match cut with
  | none => (s.record id).body.value
  | some c =>
    if n.walk = some c.walk ∧ c.walk ≠ .bar ∧ c.walk ≠ .unbar ∧ id ∈ s.inUseRecords.take c.reached then markedBody n s id
    else (s.record id).body.value

/-- Where a marking for the tamper notice that has been cut short goes on: behind the last record reached. -/
def cutPosition (n : Notice) (cut : Option Cut) (s : State) : Nat :=
  match cut with
  | none => 0
  | some c =>
    if n = .tamper ∧ c.walk = .tamper then ((s.inUseRecords.take c.reached).getLast?.map (· + 1)).getD 0 else 0

/-- The retained items, the tamper items and the deferred causes apart, are the same (R160). -/
def sameRetained (s t : State) : Prop :=
  t.clock = s.clock ∧ t.trim = s.trim ∧ t.grants = s.grants ∧ t.rooms = s.rooms ∧ t.presence = s.presence ∧
  t.barHeader = s.barHeader ∧ t.barEntries = s.barEntries ∧ t.pairWindow = s.pairWindow ∧
  t.referralTimeout = s.referralTimeout ∧ t.linkConfig = s.linkConfig ∧ t.health = s.health ∧
  ∀ k, (t.station k).header = (s.station k).header ∧ (t.station k).body = (s.station k).body

/-- What the undoing of a permit does in turn: its records leave, then its uses go back (R76, R87, R90). -/
def PermitData.parts (p : PermitData) : List (Nat ⊕ Claim) := p.records.map Sum.inl ++ p.claims.map Sum.inr

/-- What the undoing of the permits of the entries of a kind does in turn, from the oldest entry. -/
def State.partsOf (s : State) (which : VerdictEntry → Bool) : List (Nat ⊕ Claim) :=
  (s.verdicts.filter which).flatMap (fun e => match e.permit with
    | none => []
    | some p => p.parts)

/-- Of an undoing exactly these parts have been made: the records of them have left, the uses of them have gone back. -/
def undone (parts : List (Nat ⊕ Claim)) (s t : State) : Prop :=
  removedUnsent (parts.filterMap Sum.getLeft?) s t ∧ givenBack (parts.filterMap Sum.getRight?) s t

/-- The walk that a cut of the Decision Engine's taking of a notice names. -/
def Notice.engineWalk : Notice → Option Walk
  | .revoke _ => some .engineRevoke
  | .bar _ => some .engineBar
  | .mode _ => some .engineMode
  | .tamper => some .engineTamper
  | .loss _ => some .engineLoss
  | .stop => some .engineStop
  | .unbar _ | .overstay _ | .stationFault _ => none

/-- The body of a record in use has only got UNESCORTED, if it is a CONTRACTOR's (R61). -/
def unescortedOnly (s t : State) : Prop :=
  ∀ id, (t.index id).inUse = true → (t.record id).body.value = (s.record id).body.value ∨
    ((s.index id).role = .contractor ∧ (t.record id).body.value = { (s.record id).body.value with
      conditions := { (s.record id).body.value.conditions with unescorted := true } })

/-- Of an undoing so many parts have been made at most: with no ESCORT among its records, exactly so many. -/
def undoneInPart (n : Nat) (parts : List (Nat ⊕ Claim)) (s t : State) : Prop :=
  ∃ m, undone (parts.take m) s t ∧ unescortedOnly s t ∧ m ≤ n ∧
    ((∀ id ∈ parts.filterMap Sum.getLeft?, (s.index id).role ≠ .escort) → m = n)

/-- The records that stand behind others of the list leave it first: what is left keeps its places (R54). -/
def fromTheTail (ids : List Nat) (s : State) : Prop := ids.Pairwise (fun a b => (s.index b).place ≤ (s.index a).place)

/-- The records whose body a notice changes. -/
def State.changedBy (s : State) (n : Notice) : List Nat :=
  s.inUseRecords.filter (fun id => decide (markedBody n s id ≠ (s.record id).body.value))

/-- The records a notice's walk reports to its command: SENT ones marked, or records cleared (R20, R60, R110). -/
def State.countedBy (s : State) (n : Notice) : List Nat :=
  match n with
  | .revoke _ | .bar _ => (s.changedBy n).filter (fun id => (s.index id).sent)
  | .unbar _ => s.changedBy n
  | .overstay _ | .tamper | .loss _ | .stop | .stationFault _ | .mode _ => []

/-- A marking for the tamper notice sets GRANT CLEARED on a SENT record that did not have it (R59). -/
def State.clearsASentRecord (s : State) : Prop :=
  ∃ id ∈ s.inUseRecords, s.markedTo ≤ id ∧ (s.index id).faulted = false ∧ (s.index id).sent = true ∧
    (s.record id).body.value.conditions.grantCleared = false

/-- The credential is one of the decision in hand: the request's, or the first card's of a completion (R77). -/
def State.decides (s : State) (d : Decision) (c : Credential) : Prop :=
  d.credential = c ∨ ∃ k x, d.holding = .completing k ∧ s.pair k = some x ∧ x.credential = c

/-! ## Decisions, as the statements speak of them -/

/-- The decision in hand is that of a first request: it is at a check, with nothing claimed or opened. -/
def State.checking (s : State) (d : Decision) (p : Phase) : Prop :=
  s.awake = true ∧ s.undamaged = true ∧ s.seat = some d ∧ d.work = .request .outside ∧ d.abandoned = false ∧
    d.holding = .none ∧ d.phase = p

/-- The number so many after another in the cycle of reference numbers, 1 following 65535 (R114). -/
def numberAfter : Nat → Nat → Nat
  | 0, n => n
  | k + 1, n => numberAfter k (if n = 65535 then 1 else n + 1)

/-- The number that a new entry draws: the first from the counter's value on that no entry holds (R114). -/
def State.draws (s : State) (n : Nat) : Prop :=
  ∃ k, k ≤ 15 ∧ n = numberAfter k s.referenceCounter ∧ (∀ e ∈ s.referrals, e.reference ≠ n) ∧
    ∀ j, j < k → ∃ e ∈ s.referrals, e.reference = numberAfter j s.referenceCounter

/-- The answer check of an approval is in hand, at an operation (R122). -/
def State.answeringAt (s : State) (d : Decision) (n : Nat) (p : Phase) : Prop :=
  s.awake = true ∧ s.undamaged = true ∧ s.seat = some d ∧ d.work = .answer n ∧ d.holding = .none ∧ d.phase = p

/-- The request ends with DENY: its verdict is placed and the seat is IDLE (R71). -/
def deniedWith (d : Decision) (r : DenyReason) (s : State) : State :=
  { placed ⟨d.station, d.sequence, .deny, some r, false, none⟩ s with seat := none }

/-- The decision goes on to another operation. -/
def goesOn (d : Decision) (p : Phase) (s : State) : State := { s with seat := some { d with phase := p } }

/-- A request is in hand, at an operation. -/
def State.deciding (s : State) (d : Decision) (side : Side) (p : Phase) : Prop :=
  s.awake = true ∧ s.undamaged = true ∧ s.seat = some d ∧ d.work = .request side ∧ d.abandoned = false ∧ d.phase = p

/-- The slot of a handle once a claim has taken a use of its grant: the last one makes it SPENT (R13). -/
def useTaken (h : Handle) (g : GrantRecord) (s : State) : State :=
  { s with grants := Table.set Slot.cleared s.grants h.slot (match g.uses with
    | none => ⟨.of ⟨.active, h.issue⟩, .of g⟩
    | some u => ⟨.of ⟨if u.remaining - 1 = 0 then .spent else .active, h.issue⟩,
        .of { g with uses := some { u with remaining := u.remaining - 1 } }⟩) }

/-- The first of the conditions of a placement that holds: the withdrawal mark, the building mode, the tamper flag (R75). -/
def State.placementReason (s : State) (d : Decision) : Option DenyReason :=
  if d.mark = some .revoked then some .revoked
  else if d.mark = some .barred then some .barred
  else if s.mode = .lockdown then some .lockdown
  else if s.mode = .fire then some .fire
  else if s.tamper.value.flag then some .tamper else none

/-- The entry ends with DENY, its permit undone: its UNSENT records are removed and its uses given back (R76). -/
def undoneAndDenied (d : Decision) (r : DenyReason) (s t : State) : Prop :=
  t.seat = none ∧ t.verdicts = s.verdicts ++ [⟨d.station, d.sequence, .deny, some r, false, none⟩] ∧
  (t.station d.station).answer = some ⟨d.sequence, .deny, some r, false, false⟩ ∧
  removedUnsent d.records s t ∧ givenBack d.claims s t ∧ t.requests = s.requests

/-- No context and no approval has opened: the hand is given back, no verdict is placed and the seat is IDLE (log 52). -/
def nothingOpened (d : Decision) (s t : State) : Prop :=
  t.seat = none ∧ t.verdicts = s.verdicts ∧ (∀ k, (t.station k).answer = (s.station k).answer) ∧ t.pairs = s.pairs ∧
  t.referrals = s.referrals ∧ t.requests = s.requests ∧ removedUnsent d.records s t ∧ givenBack d.claims s t

/-- The HELD context of a slot after a decision that leaves it (R99, R102): its pending closure is carried out, at 0 seconds it expires,
else it is OPEN again. -/
def contextReturned (k : Nat) (c : PairContext) (s : State) : State :=
  match c.closure with
  | some x =>
    (match x.reason with
      | some r => deniedAt .pairTable c.station c.sequence r { s with pairs := Table.set none s.pairs k none }
      | none => freed c.station { s with pairs := Table.set none s.pairs k none })
  | none =>
    if c.seconds = 0 then
      deniedAt .pairTable c.station c.sequence .pairTimeout { s with pairs := Table.set none s.pairs k none }
    else { s with pairs := Table.set none s.pairs k (some { c with held := false }) }

/-- The first card of a completion has failed its re-check: its context has closed, with the reason or as its pending closure says, the
reservation freed where its station's part of the Verdict Queue has been emptied already (log 52), and
the request in hand is decided afresh as a first one (R100). -/
def firstFailed (d : Decision) (k : Nat) (c : PairContext) (r : DenyReason) (s : State) : State :=
  let freedSlot := { s with pairs := Table.set none s.pairs k none }
  let closed := match c.closure with
    | some x =>
      (match x.reason with
        | some r' => deniedAt .pairTable c.station c.sequence r' freedSlot
        | none => freed c.station freedSlot)
    | none => deniedAt .pairTable c.station c.sequence r freedSlot
  { closed with seat := some { d with
    mark := none, claims := [], records := [], overstayed := [], holding := .none, phase := .station, own := .start, first := .start } }

/-- A room that can be read has become census suspect (R62). -/
def State.suspectAfter (s : State) (r : Nat) (t : State) : Prop :=
  ∀ closed b, (s.room r).view = .readable closed b → (t.room r).body.value.suspect = true

/-- Of the records in use one alone has been removed. -/
def removedAlone (id : Nat) (s t : State) : Prop :=
  ∀ k, (t.index k).inUse = ((s.index k).inUse && decide (k ≠ id))

/-- The seat is IDLE, and the request stands at the head with two places free (R69). -/
def State.headIs (s : State) (r : Request) (rest : List Request) : Prop :=
  s.awake = true ∧ s.undamaged = true ∧ s.seat = none ∧ s.requests = r :: rest ∧ 2 ≤ s.freePlaces ∧
    ∀ e ∈ s.referrals, ∀ h n c, e.kind ≠ .approval h .answering n c

/-- Nothing is open at a station: no context and no approval (R70). -/
def State.nothingOpenAt (s : State) (k : Nat) : Prop :=
  (∀ slot c, 1 ≤ slot → slot ≤ 8 → s.pair slot = some c → c.station ≠ k) ∧
    ∀ e ∈ s.referrals, e.isApproval = true → e.station ≠ k

/-- The station is not FAULTED and is bound to a room. -/
def State.boundTo (s : State) (k r : Nat) : Prop :=
  (s.station k).header.value = false ∧ (s.station k).body.value.binding = some r

/-! ## Corrected reads -/

/-- What a corrected read does beside the rewriting of its item: the region's corrected flag and MEMORY WARNING (R164). -/
def correctedIn (region : Region) (s : State) : State :=
  { s with
    health := .of (match region with
      | .grant => { s.health.value with grantCorrected := true }
      | .bar => { s.health.value with barCorrected := true }
      | .site => { s.health.value with siteCorrected := true })
    attention := s.attention ||| Cause.memoryWarning.word }

/-- A row of the host's commands, in each of its forms: those that may stop between operations have one for each pause
(log 5). -/
def isHostCommand (c : Instr) : Prop :=
  (∃ code, hostCommandOf code = some c) ∨
    ∃ pause : Pause, c = .retireGrant pause ∨ c = .findGrants pause ∨ c = .unbindStation pause

/-- The state once the command in progress has completed with a result (R176). -/
def completedWith (r : CommandResult) (s : State) : State :=
  { s with
    window := r.words, resultCode := r.code, portBusy := false, work := none,
    attention := s.attention ||| Cause.commandDone.word }

/-- The state after so many rows of COMMAND_COMPLETION. -/
def afterCompletions : Nat → State → State
  | 0, s => s
  | n + 1, s =>
    match exec .commandCompletion s with
    | .next t => afterCompletions n t
    | .fault _ | .refused _ => s

/-- The body of the slot a handle names. -/
abbrev grantOf (s : State) (h : Handle) : GrantRecord := (s.slot h.slot).body.value

/-- The commands that name a grant, with their codes. -/
def handleCommands : List (Instr × BitVec 8) :=
  [(.amendGrant, 0x11), (.suspendGrant, 0x12), (.resumeGrant, 0x13), (.revokeGrant, 0x14),
   (.retireGrant none, 0x15), (.readGrant, 0x16)]

/-- The handle of the arguments names a slot that is in use, and the slot's state is `st`. -/
def namesGrant (s : State) (h : Handle) (st : GrantState) : Prop :=
  s.accepts = true ∧ s.undamaged = true ∧ h = handleArg s.window.arg0 ∧ 1 ≤ h.slot ∧ h.slot ≤ 1024 ∧
    st ≠ .free ∧ (s.slot h.slot).header.value = ⟨st, h.issue⟩

/-- Some block's record holds a handle: an unsent permit, a claim of the decision in hand, a pair context, an approval, or
a presence record that can be read. -/
def holderOf (h : Handle) (s : State) : Prop :=
  (∃ e ∈ s.verdicts, ∃ p, e.permit = some p ∧ ∃ c ∈ p.claims, c.handle = h) ∨
  (∃ d, s.seat = some d ∧ ∃ c ∈ d.claims, c.handle = h) ∨
  (∃ slot c, 1 ≤ slot ∧ slot ≤ 8 ∧ s.pair slot = some c ∧ c.handle = h) ∨
  (∃ e ∈ s.referrals, ∃ st n c, e.kind = .approval h st n c) ∨
  (∃ id ∈ s.inUseRecords, (s.index id).faulted = false ∧ (s.record id).body.value.handle = some h)

/-- Whether a listed slot qualifies for FIND GRANTS, and as what. -/
def qualifying (key : FindKey) (start : Nat) (p : Nat × Slot) : Option (Handle × GrantState) :=
  if start ≤ p.1 ∧ p.1 ≤ 1024 then
    (match p.2.header.value.state with
      | .free => none
      | .faulted => if key = .all then some (⟨p.1, p.2.header.value.issue⟩, .faulted) else none
      | st => if key.qualifies p.2.body.value then some (⟨p.1, p.2.header.value.issue⟩, st) else none)
  else none

/-- The notes of a search over the grants it has passed, each in the state it was read in (R12). -/
def notesOver (c : Credential) (key : Key) (t : Minute) (passed : List (GrantState × GrantRecord)) : Notes :=
  passed.foldl (fun n p => n.add p.1 p.2 c key t) .none

/-- Some matching grant of those passed meets a line of R12's table. -/
def metBy (c : Credential) (key : Key) (passed : List (GrantState × GrantRecord)) (line : GrantState → GrantRecord → Prop) :
    Prop :=
  ∃ p ∈ passed, p.2.matching c key = true ∧ line p.1 p.2

/-- What a second tick ends, in the order the model takes it (log 24): the OPEN contexts by slot, then the WAITING and TAKEN approvals
from the oldest, whose count it brings to 0. -/
def endedByTick (s : State) : List (Block × Nat × Sequence × DenyReason) :=
  (numbersFrom 1 8).filterMap (fun k => (s.pair k).bind (fun c =>
    if c.held = false ∧ c.seconds ≤ 1 then some (.pairTable, c.station, c.sequence, .pairTimeout) else none)) ++
  s.referrals.filterMap (fun e => match e.kind with
    | .approval _ st n _ =>
      if (st = .waiting ∨ st = .taken) ∧ n ≤ 1 then some (.referralQueue, e.station, e.sequence, .referralTimeout) else none
    | .hotCard _ => none)

/-- The state once each of the reservations has ended with its DENY. -/
def deniedEach (xs : List (Block × Nat × Sequence × DenyReason)) (s : State) : State :=
  xs.foldl (fun s x => deniedAt x.1 x.2.1 x.2.2.1 x.2.2.2 s) s

/-- A referral entry after a second tick that it outlives; `none` for an approval that times out. -/
def afterTick (e : ReferralEntry) : Option ReferralEntry :=
  match e.kind with
  | .approval h .waiting n cl => if n ≤ 1 then none else some { e with kind := .approval h .waiting (n - 1) cl }
  | .approval h .taken n cl => if n ≤ 1 then none else some { e with kind := .approval h .taken (n - 1) cl }
  | .approval _ .opening _ _ | .approval _ .answering _ _ | .hotCard _ => some e

/-- The state of the cursor after a visit (R40): the next slot, a further sweep that is owed, or none. -/
def sweepAfter (w : Sweep) (s : State) : Option Sweep :=
  if w.cursor < 1024 then some ⟨w.cursor + 1, w.minute⟩
  else if s.resweep then some ⟨1, s.clock.value.calendar.minute⟩ else none

/-- The room of a command's arguments, in range, in undamaged storage. -/
def namesRoom (s : State) (r : Nat) : Prop :=
  s.accepts = true ∧ s.undamaged = true ∧ r = roomArg s.window ∧ r < 64

/-- The commands that take a room number, with their codes. -/
def roomCommands : List (Instr × BitVec 8) :=
  [(.closeRoom, 0x31), (.openRoom, 0x32), (.deleteRoom, 0x33), (.readRoom, 0x34), (.listPresence, 0x35),
   (.removePresence, 0x36), (.resetCensus, 0x37)]

/-- Another room that can be read holds the key. -/
def keyTaken (s : State) (room : Nat) (key : Key) : Prop :=
  ∃ r, r < 64 ∧ r ≠ room ∧ ∃ closed b, (s.room r).view = .readable closed b ∧ b.key = key

/-- The words of the record at a place, in undamaged storage. -/
def wordsAt (s : State) (r place : Nat) : Option PresenceWords :=
  (s.recordAt r place).map (fun id =>
    presenceWords (s.index id) (if (s.index id).faulted then none else some (s.record id).body.value))

/-- The record REMOVE PRESENCE names: by list place, or by credential where it stands in the room's list (R65). -/
def namedRecord (s : State) (r : Nat) : Option Nat :=
  if s.window.arg0.getLsbD 8 then s.recordAt r s.window.arg1.toNat
  else (s.locateIn (s.window.arg2.truncate 8 ++ s.window.arg1 : BitVec 40) s.inUseRecords).filter
    (fun id => decide ((s.index id).room = r))

/-- A CONTRACTOR record of a room's list that can be read: the last escort's leaving marks it (R61). -/
def State.leftAlone (s : State) (r k : Nat) : Bool :=
  (s.index k).inUse && decide ((s.index k).room = r) && decide ((s.index k).role = .contractor) && !(s.index k).faulted

end Sys2Proof.Machine
end

