-- ==== Sys2Proof/Certificates/Slice0/Obligations.lean ====
section
/-! DEFINITION. The statements for the provers, one def Obligations.<Name> : Prop each, in the order of OBLIGATIONS.json. The words they use are in Safety.lean. -/

open Sys2Proof Sys2Proof.Machine

/-- A step takes the command at the front and runs its meaning on the queue's rest. On an empty queue the block idles
(the model's choice, log 2). -/
def Obligations.StepRunsTheFrontCommand : Prop :=
  (∀ (c : Instr) (rest : List Instr) (s : State),
     step { s with pending := c :: rest } = exec c { s with pending := rest }) ∧
  (∀ s : State, s.pending = [] → step s = .next s)

/-- Every command answers a next state and leaves the queue of waiting commands (the model's own: log 2) as it was. That
a row whose event cannot occur answers a next state too is the model's choice (logs 3 and 34); a host command
completes in a row of its own, COMMAND_COMPLETION. -/
def Obligations.EveryCommandAnswersANextState : Prop :=
  ∀ (c : Instr) (s : State), ∃ t, exec c s = .next t ∧ t.pending = s.pending

/-- The invariant holds right after reset. -/
def Obligations.InvariantAtReset : Prop :=
  State.reset.inv = true

/-- Every step keeps the invariant: the tables canonical; the latches within the causes that exist; the queues within
their places, the entries, reservations and held places of the Verdict Queue within its 48; uses remaining at most
the allowance; the Bar List in strict order, of the length its header counts; no credential in two presence records
that are not faulted. -/
def Obligations.StepKeepsTheInvariant : Prop :=
  ∀ s t : State, s.inv = true → step s = .next t → t.inv = true

/-- With RESETn low or the supply RETAINED-ONLY the port takes nothing and drives nothing. A write to COMMAND while BUSY
is ignored and sets OVERRUN, whatever its code. -/
def Obligations.PortOffOrBusyTakesNoCommand : Prop :=
  (∀ (s : State), s.portOn = false →
     (∀ c : Instr, isHostCommand c → exec c s = .next s) ∧
     (∀ (word : Word) (address : BitVec 7) (part : ReadPart),
       exec (.badCommand word) s = .next s ∧ exec (.commandWriteWhileBusy word) s = .next s ∧
       exec (.registerWrite address word) s = .next s ∧ exec (.attentionMaskWrite word) s = .next s ∧
       exec (.attentionRead part) s = .next s ∧ exec .commandCompletion s = .next s ∧
       s.readTransfer address = none)) ∧
  (∀ (s : State), s.portOn = true → s.portBusy = true →
     (∀ c : Instr, isHostCommand c → exec c s = .next { s with overrun := true }) ∧
     (∀ word, exec (.commandWriteWhileBusy word) s = .next { s with overrun := true }) ∧
     (∀ word, exec (.badCommand word) s = .next { s with overrun := true }))

/-- The completion writes all twelve result words and the result code, makes the port IDLE and raises COMMAND DONE; a
command that still waits for notices or for its answer check stays in progress, and without a command nothing
happens (log 3). STOP LINK waits, with all its notices taken, for the last reservation, that of an abandoned
decision's HELD context or approval, too (log 48). SET MODE returns the modes around its own operation (log 60). A
RETIRE GRANT or UNBIND STATION with questions left asks the next one, an operation of its own (log 5): IN USE where
a block holds anything, the next question where none does, and OK after the last. A slot freed meanwhile is OK. A
row that makes so many operations of its command leaves the rest to rows of COMMAND_COMPLETION, and some number of
these brings the machine to where the row that makes all operations brings it (log 5). An unknown code completes at
once with BAD COMMAND: every result word reads 0, and the code stands in STATUS. -/
def Obligations.CompletionsWriteTheResult : Prop :=
  (∀ (s : State), s.portOn = true →
     (s.work = none → exec .commandCompletion s = .next s) ∧
     (∀ r, s.work = some (.ready r) → exec .commandCompletion s = .next (completedWith r s)) ∧
     (∀ n, s.work = some (.answer n) → exec .commandCompletion s = .next s) ∧
     (∀ w words, s.work = some w → countsOf w = some words →
       ((∃ o ∈ s.notices, o.ofCommand = true) ∨ (w = .stopLink ∧ s.reservations ≠ 0) →
         exec .commandCompletion s = .next s) ∧
       ((∀ o ∈ s.notices, o.ofCommand = false) → (w = .stopLink → s.reservations = 0) →
         exec .commandCompletion s = .next (completedWith { code := .ok, words := words } s)))) ∧
  (∀ (s : State), s.portOn = true → s.undamaged = true → s.tablesWf = true →
     (∀ h asked, s.work = some (.retire h asked) → asked ≤ 3 →
       ((s.slot h.slot).header.value.state = .free →
         exec .commandCompletion s = .next { s with retireHold := none, work := some (.ready (.bare .ok)) }) ∧
       ((s.slot h.slot).header.value.state ≠ .free → holdsAt h asked s →
         exec .commandCompletion s = .next { s with retireHold := none, work := some (.ready (.bare .inUse)) }) ∧
       ((s.slot h.slot).header.value.state ≠ .free → ¬ holdsAt h asked s → asked < 3 →
         exec .commandCompletion s = .next { s with work := some (.retire h (asked + 1)) }) ∧
       ((s.slot h.slot).header.value.state ≠ .free → ¬ holdsAt h asked s → asked = 3 →
         exec .commandCompletion s = .next { s with
           retireHold := none, work := some (.ready (.bare .ok)),
           grants := Table.set Slot.cleared s.grants h.slot
             ⟨.of ⟨.free, (s.slot h.slot).header.value.issue⟩, .of .empty⟩ })) ∧
     (∀ k asked, s.work = some (.unbind k asked) → asked ≤ 4 →
       (s.worksAt k asked →
         exec .commandCompletion s = .next { s with unbindHold := none, work := some (.ready (.bare .inUse)) }) ∧
       (¬ s.worksAt k asked → asked < 4 →
         exec .commandCompletion s = .next { s with work := some (.unbind k (asked + 1)) }) ∧
       (¬ s.worksAt k asked → asked = 4 →
         exec .commandCompletion s = .next { s with
           unbindHold := none, work := some (.ready (.bare .ok)),
           stations := Table.set Station.cleared s.stations k
             (if (s.station k).state = .faulted then
               { s.station k with header := .of false, body := .of ⟨none, 0⟩, state := .silent, missed := 0 }
             else { s.station k with header := .of false, body := .of ⟨none, 0⟩ }) }))) ∧
  (∀ (s : State) (n : Nat) (row : Pause → Instr),
     row = Instr.retireGrant ∨ row = Instr.findGrants ∨ row = Instr.unbindStation →
     ∃ t k, exec (row (some n)) s = .next t ∧ exec (row none) s = .next (afterCompletions k t)) ∧
  (∀ (word : Word) (s : State), hostCodes.contains (word.truncate 8) = false →
     s.portOn = true → s.portBusy = false →
     exec (.badCommand word) s = .next { s with
       overrun := false, lastCommand := word.truncate 8, window := {}, resultCode := .badCommand,
       portBusy := false, work := none, attention := s.attention ||| Cause.commandDone.word })

/-- A write to ARG0-ARG7 is stored while IDLE and sets OVERRUN while BUSY; a write to a read word or to an address
without a word is ignored without a flag. A write to COMMAND may be its acceptance alone (the model's form of the
time a command takes: log 35): the port is BUSY, OVERRUN clear, the code in STATUS, and the command handed to its
owner. The owner's operation is then that of the next COMMAND_COMPLETION, the same that the command's own row makes
at once, and other rows may come between. An unknown code and the two resets do not wait; while BUSY the write sets
OVERRUN. A write to ATTENTION MASK is taken in either port state, ignores bits 31-15 and touches no latch. -/
def Obligations.RegisterAndMaskWrites : Prop :=
  (∀ (address : BitVec 7) (v : Word) (s : State), s.portOn = true → address ≠ 0x02 → address ≠ 0x04 →
     (address.toNat < 8 ∨ 15 < address.toNat → exec (.registerWrite address v) s = .next s) ∧
     (8 ≤ address.toNat → address.toNat ≤ 15 → s.portBusy = true →
       exec (.registerWrite address v) s = .next { s with overrun := true }) ∧
     (8 ≤ address.toNat → address.toNat ≤ 15 → s.portBusy = false →
       ∃ w, exec (.registerWrite address v) s = .next { s with window := w } ∧
         ({ s with window := w } : State).readWord address = v ∧
         ∀ other : BitVec 7, other ≠ address →
           ({ s with window := w } : State).readWord other = s.readWord other)) ∧
  ((∀ (s : State) (word : Word) (code : BitVec 8), code = word.truncate 8 →
     (s.portOn = true → s.portBusy = true → exec (.registerWrite 0x02 word) s = .next { s with overrun := true }) ∧
     (s.accepts = true → hostCodes.contains code = true → code ≠ 0x7B → code ≠ 0x7F →
       exec (.registerWrite 0x02 word) s = .next { accepted code s with work := some (.handed code) }) ∧
     (hostCodes.contains code = false → exec (.registerWrite 0x02 word) s = exec (.badCommand word) s) ∧
     (code = 0x7B → exec (.registerWrite 0x02 word) s = exec .clearRetained s) ∧
     (code = 0x7F → exec (.registerWrite 0x02 word) s = exec .deviceReset s)) ∧
   (∀ (s : State) (code : BitVec 8), s.portOn = true → s.work = some (.handed code) →
     exec .commandCompletion s = .next (commandOwner code { s with work := none })) ∧
   (∀ (s : State) (code : BitVec 8) (c : Instr), s.accepts = true → hostCommandOf code = some c →
     exec (match c with
       | .retireGrant _ => .retireGrant (some 0)
       | .findGrants _ => .findGrants (some 0)
       | .unbindStation _ => .unbindStation (some 0)
       | c => c) s = .next (commandOwner code (accepted code s)))) ∧
  (∀ (v : Word) (s : State), s.portOn = true →
     exec (.attentionMaskWrite v) s = .next { s with attentionMask := v &&& 0x00007FFF })

/-- ATN is asserted exactly while some cause is both latched and enabled; REFER exactly while an approval is WAITING;
both are low while the port is off. A read returns IDENT, STATUS, the latches, the mask, the twelve argument and
result words, and 0 at COMMAND and at every address without a word. The revision in IDENT is that of the first
silicon (log 15). STATUS holds the last code in bits 23-16, OVERRUN in bit 8, the result code in bits 7-4 and BUSY
in bit 0. While the port is on a read shifts out the 32 bits of its word, most significant first; the 40 bits of a
write transfer, address byte first with bit 7 set, each byte most significant bit first, ask for the write of their
word, and bits after them for nothing. -/
def Obligations.AtnFollowsLatchesAndMask : Prop :=
  (∀ (s : State), s.latchesOk = true →
     (s.atn = true ↔ s.portOn = true ∧ ∃ c : Cause, s.latched c = true ∧ s.attentionMask.getLsbD c.bit = true) ∧
     (s.refer = true ↔ s.portOn = true ∧ ∃ e ∈ s.referrals, ∃ h n c, e.kind = .approval h .waiting n c)) ∧
  (∀ (s : State),
     s.readWord 0x00 = 0x0B032801 ∧ s.readWord 0x02 = 0 ∧ s.readWord 0x04 = s.attentionMask ∧
     (∀ c : Cause, (s.readWord 0x03).getLsbD c.bit = s.latched c) ∧
     [0x08#7, 0x09, 0x0A, 0x0B, 0x0C, 0x0D, 0x0E, 0x0F, 0x10, 0x11, 0x12, 0x13].map s.readWord =
       [s.window.arg0, s.window.arg1, s.window.arg2, s.window.arg3, s.window.arg4, s.window.arg5, s.window.arg6,
         s.window.arg7, s.window.xres0, s.window.xres1, s.window.xres2, s.window.xres3] ∧
     (∀ a : BitVec 7, (5 ≤ a.toNat ∧ a.toNat ≤ 7) ∨ 0x13 < a.toNat → s.readWord a = 0) ∧
     (s.readWord 0x01).extractLsb' 16 8 = s.lastCommand ∧ (s.readWord 0x01).getLsbD 8 = s.overrun ∧
     (s.readWord 0x01).extractLsb' 4 4 = s.resultCode.code ∧ (s.readWord 0x01).getLsbD 0 = s.portBusy ∧
     s.readWord 0x01 &&& 0xFF00FE0E = 0 ∧
     [ResultCode.ok, .badCommand, .badArgument, .staleHandle, .notFound, .tableFull, .inUse, .already, .wrongState,
       .tooLate, .notTaken, .overtaken, .clockUnset, .busy, .faulted].map ResultCode.code =
       [0, 1, 2, 3, 4, 5, 6, 7, 8, 9, 10, 11, 12, 13, 14]) ∧
  ((∀ (s : State) (a : BitVec 7), s.portOn = true →
     s.readBits a = some ((List.range 32).map (fun i => (s.readWord a).getLsbD (31 - i)))) ∧
   (∀ (a : BitVec 7) (v : Word) (rest : List Bool),
     commandOfBits (true :: (List.range 7).map (fun i => a.getLsbD (6 - i)) ++
       (List.range 32).map (fun i => v.getLsbD (31 - i)) ++ rest) = some (commandOfWrite a v)))

/-- A read of ATTENTION returns the latched causes and clears exactly the latches it took. A cause raised after the
address byte stays latched, even one that the read returns; until the fourth data byte the causes taken stand too,
and a read cut short clears nothing. -/
def Obligations.AttentionReadClearsWhatItTook : Prop :=
  ∀ (s : State), s.portOn = true →
    exec (.attentionRead .whole) s = .next { s with spiOut := s.latches, attention := 0, attentionTaken := none } ∧
    exec (.attentionRead .fourthByte) s = .next { s with attentionTaken := none } ∧
    exec (.attentionRead .cutShort) s = .next { s with attention := s.latches, attentionTaken := none } ∧
    ∃ t, exec (.attentionRead .addressByte) s = .next t ∧ t.spiOut = s.latches ∧ t.latches = s.latches ∧
      t = { s with spiOut := t.spiOut, attention := t.attention, attentionTaken := t.attentionTaken } ∧
      (s.resetting = false → ∀ c : Cause,
        (raise c t).latches = s.latches ||| c.word ∧
        (∃ u, exec (.attentionRead .fourthByte) (raise c t) = .next u ∧ u.latches = c.word) ∧
        (∃ u, exec (.attentionRead .cutShort) (raise c t) = .next u ∧ u.latches = s.latches ||| c.word))

/-- ADD GRANT places the grant in the lowest FREE slot, with the slot's next issue number. ADD GRANT's refusals, in the
order of its checks; a refused command changes no slot. -/
def Obligations.AddGrantPlacesOrRefuses : Prop :=
  (∀ (s : State) (k : Nat) (g : GrantRecord) (now : Minute) (issue : BitVec 8) (st : GrantState),
     s.accepts = true → s.undamaged = true → addArgumentsOk s.window = true →
     s.clock.value.isSet = true → now = s.clock.value.calendar.minute →
     g = addedGrant s.window now → g.validUntil.atOrBefore now = false →
     1 ≤ k → k ≤ 1024 → (s.slot k).header.value.state = .free →
     (∀ j, 1 ≤ j → j < k → (s.slot j).header.value.state ≠ .free) →
     issue = (s.slot k).header.value.issue + 1 →
     st = (if g.validFrom.atOrBefore now then .active else .pending) →
     exec .addGrant s = .next { answered 0x10 (.okWith { arg7 := handleWordWith ⟨k, issue⟩ st }) s with
       grants := Table.set Slot.cleared s.grants k ⟨.of ⟨st, issue⟩, .of g⟩ } ∧
     g.pattern = s.window.arg2.extractLsb' 0 16 &&& g.mask ∧
     (∀ u, g.uses = some u → u.remaining = u.allowance) ∧
     g.hoursState = (match g.hours with
       | none => .absent
       | some d => if d.openAt now then .inHours else .outHours)) ∧
  (∀ (s : State), s.accepts = true → s.undamaged = true →
     (addArgumentsOk s.window = false → exec .addGrant s = .next (answered 0x10 (.bare .badArgument) s)) ∧
     (addArgumentsOk s.window = true → s.clock.value.isSet = false →
       exec .addGrant s = .next (answered 0x10 (.bare .clockUnset) s)) ∧
     (addArgumentsOk s.window = true → s.clock.value.isSet = true →
       (minuteArg s.window.arg4).atOrBefore s.clock.value.calendar.minute = true →
       exec .addGrant s = .next (answered 0x10 (.bare .badArgument) s)) ∧
     (addArgumentsOk s.window = true → s.clock.value.isSet = true →
       (minuteArg s.window.arg4).atOrBefore s.clock.value.calendar.minute = false →
       (∀ k, 1 ≤ k → k ≤ 1024 → (s.slot k).header.value.state ≠ .free) →
       exec .addGrant s = .next (answered 0x10 (.bare .tableFull) s)))

/-- A handle is checked before anything else: slot range, FREE, issue number. -/
def Obligations.HandlesAreCheckedFirst : Prop :=
  ∀ (s : State) (h : Handle) (p : Instr × BitVec 8), p ∈ handleCommands →
    s.accepts = true → (s.slot h.slot).header.clean = true → h = handleArg s.window.arg0 →
    (h.slot = 0 ∨ 1024 < h.slot → exec p.1 s = .next (answered p.2 (.bare .badArgument) s)) ∧
    (1 ≤ h.slot → h.slot ≤ 1024 → (s.slot h.slot).header.value.state = .free →
      exec p.1 s = .next (answered p.2 (.bare .staleHandle) s)) ∧
    (1 ≤ h.slot → h.slot ≤ 1024 → (s.slot h.slot).header.value.state ≠ .free →
      (s.slot h.slot).header.value.issue ≠ h.issue →
      exec p.1 s = .next (answered p.2 (.bare .staleHandle) s))

/-- What AMEND, SUSPEND, RESUME and REVOKE are refused with in each state that refuses them. That AMEND GRANT is refused
FAULTED and WRONG STATE before its arguments are looked at, those with an encoding without a meaning among them, is
log 14. -/
def Obligations.GrantCommandsRefusedByState : Prop :=
  ∀ (s : State) (h : Handle) (st : GrantState), namesGrant s h st →
    (st = .faulted → ∀ p ∈ [(Instr.amendGrant, (0x11 : BitVec 8)), (.suspendGrant, 0x12), (.resumeGrant, 0x13),
        (.revokeGrant, 0x14)], exec p.1 s = .next (answered p.2 (.bare .faulted) s)) ∧
    (st = .lapsed ∨ st = .revoked → exec .amendGrant s = .next (answered 0x11 (.bare .wrongState) s)) ∧
    (st = .lapsed ∨ st = .revoked → exec .suspendGrant s = .next (answered 0x12 (.bare .wrongState) s)) ∧
    (st = .suspended → exec .suspendGrant s = .next (answered 0x12 (.bare .already) s)) ∧
    (st ≠ .suspended → st ≠ .faulted → exec .resumeGrant s = .next (answered 0x13 (.bare .wrongState) s)) ∧
    (st = .lapsed → exec .revokeGrant s = .next (answered 0x14 (.bare .wrongState) s)) ∧
    (st = .revoked → exec .revokeGrant s = .next (answered 0x14 (.bare .already) s))

/-- AMEND GRANT writes each amendment that is not "keep" and settles the state. AMEND GRANT is refused BAD ARGUMENT for
a field without a meaning or an amendment outside its limits. -/
def Obligations.AmendGrantWritesAndSettles : Prop :=
  (∀ (s : State) (h : Handle) (st st' : GrantState) (a : Amendments) (g : GrantRecord), namesGrant s h st →
     st = .pending ∨ st = .active ∨ st = .spent ∨ st = .suspended →
     amendmentsArg s.window = some a → a.ok (grantOf s h) = true → g = a.apply (grantOf s h) →
     st' = (if st = .pending ∨ st = .active then (if g.hasUse then st else .spent)
       else if st = .spent ∧ g.hasUse = true then
         (if g.validFrom.atOrBefore s.clock.value.calendar.minute then .active else .pending)
       else st) →
     exec .amendGrant s = .next { answered 0x11 (.okWith { arg0 := handleWordWith h st' }) s with
       grants := Table.set Slot.cleared s.grants h.slot ⟨.of ⟨st', h.issue⟩, .of g⟩ } ∧
     g.credential = (grantOf s h).credential ∧ g.role = (grantOf s h).role ∧ g.company = (grantOf s h).company ∧
     g.pattern = (grantOf s h).pattern ∧ g.mask = (grantOf s h).mask ∧ g.validFrom = (grantOf s h).validFrom ∧
     g.suspendedFrom = (grantOf s h).suspendedFrom) ∧
  (∀ (s : State) (h : Handle) (st : GrantState), namesGrant s h st →
     st = .pending ∨ st = .active ∨ st = .spent ∨ st = .suspended →
     amendmentsArg s.window = none ∨ (∃ a, amendmentsArg s.window = some a ∧ a.ok (grantOf s h) = false) →
     exec .amendGrant s = .next (answered 0x11 (.bare .badArgument) s))

/-- SUSPEND GRANT remembers the state; RESUME GRANT returns to it, or to SPENT when no use remains. REVOKE GRANT writes
REVOKED and gives the revoke notice to four blocks; the command stays in progress. -/
def Obligations.SuspendResumeAndRevoke : Prop :=
  (∀ (s : State) (h : Handle) (st : GrantState), namesGrant s h st →
     (st = .pending ∨ st = .active ∨ st = .spent →
       exec .suspendGrant s = .next { answered 0x12 (.bare .ok) s with
         grants := Table.set Slot.cleared s.grants h.slot ⟨.of ⟨.suspended, h.issue⟩,
           .of { grantOf s h with suspendedFrom := some (if st = .pending then .pending else .active) }⟩ }) ∧
     (st = .suspended → ∀ st' : GrantState,
       st' = (if (grantOf s h).uses.any (fun u => decide (u.remaining = 0)) then .spent
         else if (grantOf s h).suspendedFrom = some .pending then .pending else .active) →
       exec .resumeGrant s = .next { answered 0x13 (.okWith { arg0 := handleWordWith h st' }) s with
         grants := Table.set Slot.cleared s.grants h.slot ⟨.of ⟨st', h.issue⟩,
           .of { grantOf s h with suspendedFrom := none }⟩ })) ∧
  (∀ (s : State) (h : Handle) (st : GrantState), namesGrant s h st →
     st = .pending ∨ st = .active ∨ st = .spent ∨ st = .suspended →
     exec .revokeGrant s = .next { accepted 0x14 s with
       grants := Table.set Slot.cleared s.grants h.slot ⟨.of ⟨.revoked, h.issue⟩,
         .of { grantOf s h with suspendedFrom := none }⟩,
       notices := s.notices ++ [⟨.decisionEngine, .revoke h, true⟩, ⟨.pairTable, .revoke h, true⟩,
         ⟨.referralQueue, .revoke h, true⟩, ⟨.presencePool, .revoke h, true⟩],
       work := some (.revoke ⟨0, 0, 0⟩) })

/-- RETIRE GRANT frees the slot, keeping its issue number, when no record holds the handle, whatever the slot's state;
otherwise it is refused IN USE and the slot is left as it was. -/
def Obligations.RetireGrantFreesOrRefuses : Prop :=
  ∀ (s : State) (h : Handle) (st : GrantState), namesGrant s h st →
    (¬ holderOf h s →
      exec (.retireGrant none) s = .next { answered 0x15 (.bare .ok) s with
        retireHold := none,
        grants := Table.set Slot.cleared s.grants h.slot ⟨.of ⟨.free, h.issue⟩, .of .empty⟩ }) ∧
    (holderOf h s →
      exec (.retireGrant none) s = .next { answered 0x15 (.bare .inUse) s with retireHold := none }) ∧
    exec (.retireGrant (some 0)) s = .next { accepted 0x15 s with
      retireHold := some h.slot, work := some (.retire h 0) }

/-- READ GRANT returns the record of a slot that can be read; for a FAULTED slot ARG7 alone, with state 7. FIND GRANTS
collects the first six qualifying slots in ascending order and changes nothing. A FIND GRANTS with slots left reads
the next of them in an operation of its own (R8, R24; log 5); it ends with six grants found or after slot 1024, as
one that is not interrupted. -/
def Obligations.ReadAndFindGrants : Prop :=
  (∀ (s : State) (h : Handle) (st : GrantState), namesGrant s h st →
     (st ≠ .faulted →
       exec .readGrant s = .next (answered 0x16 (.okWith (grantWords h st (grantOf s h))) s)) ∧
     (st = .faulted →
       exec .readGrant s = .next (answered 0x16 { code := .faulted, words := { arg7 := handleWordWith h .faulted } } s))) ∧
  (∀ (s : State), s.accepts = true → s.undamaged = true → s.tablesWf = true →
     (findArg s.window = none → exec (.findGrants none) s = .next (answered 0x17 (.bare .badArgument) s)) ∧
     (∀ key start found, findArg s.window = some (key, start) →
       found = (s.grants.filterMap (qualifying key start)).take 6 →
       exec (.findGrants none) s = .next (answered 0x17 (.okWith (findWords found
         (if found.length = 6 then (match found.getLast? with
           | some p => if p.1.slot < 1024 then p.1.slot + 1 else 0
           | none => 0) else 0))) s))) ∧
  (∀ (s : State) (key : FindKey) (cursor : Nat) (before found : List (Handle × GrantState)), s.portOn = true →
     s.undamaged = true → s.tablesWf = true → s.work = some (.find key cursor before) → 1 ≤ cursor → cursor ≤ 1024 →
     before.length < 6 →
     found = before ++ (s.grants.filterMap (qualifying key cursor)).filter (fun p => decide (p.1.slot = cursor)) →
     (found.length < 6 → cursor < 1024 →
       exec .commandCompletion s = .next { s with work := some (.find key (cursor + 1) found) }) ∧
     (found.length = 6 ∨ cursor = 1024 →
       exec .commandCompletion s = .next { s with work := some (.ready (.okWith (findWords found
         (if found.length = 6 ∧ cursor < 1024 then cursor + 1 else 0)))) }))

/-- A claim is granted exactly on the slot named, still usable at t and under no retire hold; it takes one use of an
allowance, and the last use makes the grant SPENT. Refused, it changes nothing. A returned use is added back to the
grant, up to its allowance; a SPENT grant becomes ACTIVE, or PENDING before its window, and any other state is kept.
It is dropped on a FREE or FAULTED slot, on another issue number, without an allowance, and at the allowance. -/
def Obligations.UsesAreTakenAndReturned : Prop :=
  (∀ (s : State) (h : Handle) (c : Credential) (key : Key) (t : Minute) (g : GrantRecord) (st : GrantState)
     (issue : BitVec 8), s.undamaged = true → (s.slot h.slot).header.value = ⟨st, issue⟩ →
     (s.slot h.slot).body.value = g →
     (g.usable st c key t = true → issue = h.issue → s.retireHold ≠ some h.slot →
       claimSlot h c key t s = (match g.uses with
         | none => (.granted ⟨h, false⟩, writeSlot h.slot ⟨.active, issue⟩ g s)
         | some u => (.granted ⟨h, true⟩,
             writeSlot h.slot ⟨if u.remaining - 1 = 0 then .spent else .active, issue⟩
               { g with uses := some { u with remaining := u.remaining - 1 } } s))) ∧
     (g.usable st c key t = false ∨ issue ≠ h.issue ∨ s.retireHold = some h.slot →
       st ≠ .free → st ≠ .faulted → claimSlot h c key t s = (.refused (some (st, g)), s)) ∧
     (st = .free ∨ st = .faulted → claimSlot h c key t s = (.refused none, s))) ∧
  (∀ (s : State) (h : Handle) (g : GrantRecord) (st : GrantState) (issue : BitVec 8), s.undamaged = true →
     s.tablesWf = true →
     (s.slot h.slot).header.value = ⟨st, issue⟩ → (s.slot h.slot).body.value = g →
     (st = .free ∨ st = .faulted ∨ issue ≠ h.issue ∨ g.uses = none → returnUse h s = s) ∧
     (∀ u, g.uses = some u → u.allowance ≤ u.remaining → returnUse h s = s) ∧
     (∀ u st', g.uses = some u → u.remaining < u.allowance → st ≠ .free → st ≠ .faulted → issue = h.issue →
       st' = (if st = .spent then
         (if g.validFrom.atOrBefore s.clock.value.calendar.minute then .active else .pending) else st) →
       (returnUse h s).slot h.slot = ⟨(if st = .spent then .of ⟨st', issue⟩ else (s.slot h.slot).header),
         .of { g with uses := some { u with remaining := u.remaining + 1 } }⟩ ∧
       (∀ j, j ≠ h.slot → (returnUse h s).slot j = s.slot j)))

/-- A grant is usable exactly under R10's six conditions, with the open spans of R37. -/
def Obligations.UsableUnderSixConditions : Prop :=
  ∀ (g : GrantRecord) (st : GrantState) (c : Credential) (key : Key) (t : Minute),
    (g.usable st c key t = true ↔
      (st = .pending ∨ st = .active) ∧ g.credential = c ∧
      (∀ i : Fin 16, g.mask.getLsbD i = true → key.getLsbD i = g.pattern.getLsbD i) ∧
      (g.validFrom.order ≤ t.order ∧ t.order < g.validUntil.order) ∧
      (∀ h, g.hours = some h → h.openAt t = true) ∧
      (∀ u, g.uses = some u → 1 ≤ u.remaining)) ∧
    (∀ h : DailyHours, h.openMinute ≠ h.closeMinute →
      (h.openMinute < h.closeMinute → (h.openAt t = true ↔
        h.days.getLsbD t.weekday = true ∧ h.openMinute ≤ t.hour * 60 + t.minute ∧
          t.hour * 60 + t.minute < h.closeMinute)) ∧
      (h.closeMinute < h.openMinute → (h.openAt t = true ↔
        (h.days.getLsbD t.weekday = true ∧ h.openMinute ≤ t.hour * 60 + t.minute) ∨
          (h.days.getLsbD (if t.weekday = 0 then 6 else t.weekday - 1) = true ∧
            t.hour * 60 + t.minute < h.closeMinute))) ∧
      h.stateAt t = (if h.openAt t then .inHours else .outHours))

/-- The notes of a search hold a line of R12's table once some matching grant meets it, and keep it: the reason is the
first line that any of the grants passed meets, in the table's order, and NO GRANT where none does. A read of an
entry's search that finds no usable grant adds the slot's grant, in its present state, to the notes; after slot 1024
the search ends, and in that same operation the entry is denied with the reason of the notes and the seat is freed
(log 33). -/
def Obligations.DenyReasonIsTheFirstLine : Prop :=
  (∀ (c : Credential) (key : Key) (t : Minute) (passed : List (GrantState × GrantRecord))
     (suspended spent outHours outWindow revoked : Prop),
     (suspended ↔ metBy c key passed (fun st g => st = .suspended ∧ g.inWindow t = true)) →
     (spent ↔ metBy c key passed (fun st g => st = .spent ∧ g.inWindow t = true)) →
     (outHours ↔ metBy c key passed (fun st g => (st = .pending ∨ st = .active) ∧ g.inWindow t = true ∧
       g.inHoursAt t = false)) →
     (outWindow ↔ metBy c key passed (fun st g => (st = .pending ∨ st = .active) ∧ g.inWindow t = false)) →
     (revoked ↔ metBy c key passed (fun st _ => st = .revoked)) →
     (suspended → (notesOver c key t passed).reason = .suspended) ∧
     (¬ suspended → spent → (notesOver c key t passed).reason = .usesSpent) ∧
     (¬ suspended → ¬ spent → outHours → (notesOver c key t passed).reason = .outsideHours) ∧
     (¬ suspended → ¬ spent → ¬ outHours → outWindow → (notesOver c key t passed).reason = .outsideWindow) ∧
     (¬ suspended → ¬ spent → ¬ outHours → ¬ outWindow → revoked → (notesOver c key t passed).reason = .revoked) ∧
     (¬ suspended → ¬ spent → ¬ outHours → ¬ outWindow → ¬ revoked →
       (notesOver c key t passed).reason = .noGrant)) ∧
  (∀ (s : State) (d : Decision) (passed : List (GrantState × GrantRecord)) (now : Slot), s.checking d .search →
     d.own.notes = notesOver d.credential d.key d.time passed → now = s.slot d.own.cursor →
     (d.own.cursor ≤ 1024 → now.body.value.usable now.header.value.state d.credential d.key d.time = false →
       exec (.takeRequest (some 1)) s = .next (goesOn { d with own := { d.own with
         cursor := d.own.cursor + 1,
         notes := notesOver d.credential d.key d.time (passed ++ [(now.header.value.state, now.body.value)]) } } .search s)) ∧
     (1024 < d.own.cursor →
       exec (.takeRequest (some 1)) s =
         .next (deniedWith d (notesOver d.credential d.key d.time passed).reason s)))

/-- SET CLOCK writes the calendar, makes the clock SET, cancels a pending trim, restarts the second and tells the Window
Sweep to sweep: at once if none is in flight, else by the re-sweep flag. Refused, it changes nothing. READ CLOCK
returns the calendar, its weekday, the clock state and the trim pending flag, and changes nothing. SHIFT HOUR moves
the calendar 60 minutes with the second kept and tells the Window Sweep to sweep; its refusals change nothing. TRIM
CLOCK stores an amount of -500 to +500 where none is pending; BUSY leaves the pending amount. -/
def Obligations.ClockIsSetReadShiftedAndTrimmed : Prop :=
  (∀ (s : State) (m : Minute) (sec : Nat), s.accepts = true →
     m = minuteArg s.window.arg0 → sec = field s.window.arg1 0 6 →
     (m.ok = false ∨ 59 < sec → exec .setClock s = .next (answered 0x20 (.bare .badArgument) s)) ∧
     (m.ok = true → sec ≤ 59 →
       exec .setClock s = .next { answered 0x20 (.bare .ok) s with
         clock := .of ⟨⟨m, sec⟩, true⟩, trim := .of none, secondLength := 1000,
         sweep := some (s.sweep.getD ⟨1, m⟩), resweep := s.resweep || s.sweep.isSome })) ∧
  (∀ (s : State) (c : Calendar), s.accepts = true → s.undamaged = true → c = s.clock.value.calendar →
     exec .readClock s = .next (answered 0x21 (.okWith
       { arg0 := minuteWord c.minute,
         arg1 := put 0 6 c.second ||| put 8 3 c.minute.weekday ||| putBit 16 s.clock.value.isSet |||
           putBit 17 s.trim.value.isSome }) s)) ∧
  (∀ (s : State) (now : Calendar), s.accepts = true → s.undamaged = true → now = s.clock.value.calendar →
     (s.window.arg0 ≠ 1 → s.window.arg0 ≠ -1 → exec .shiftHour s = .next (answered 0x22 (.bare .badArgument) s)) ∧
     (s.window.arg0 = 1 ∨ s.window.arg0 = -1 → s.clock.value.isSet = false →
       exec .shiftHour s = .next (answered 0x22 (.bare .clockUnset) s)) ∧
     (s.window.arg0 = 1 ∨ s.window.arg0 = -1 → s.clock.value.isSet = true →
       (if s.window.arg0 = 1 then now.hourLater else now.hourEarlier) = none →
       exec .shiftHour s = .next (answered 0x22 (.bare .badArgument) s)) ∧
     (∀ c, s.window.arg0 = 1 ∨ s.window.arg0 = -1 → s.clock.value.isSet = true →
       (if s.window.arg0 = 1 then now.hourLater else now.hourEarlier) = some c →
       exec .shiftHour s = .next { answered 0x22 (.bare .ok) s with
         clock := .of ⟨c, true⟩,
         sweep := some (s.sweep.getD ⟨1, c.minute⟩), resweep := s.resweep || s.sweep.isSome } ∧
       c.second = now.second)) ∧
  (∀ (s : State) (ms : Int), s.accepts = true → s.undamaged = true → ms = s.window.arg0.toInt →
     (ms < -500 ∨ 500 < ms → exec .trimClock s = .next (answered 0x23 (.bare .badArgument) s)) ∧
     (-500 ≤ ms → ms ≤ 500 → s.trim.value ≠ none → exec .trimClock s = .next (answered 0x23 (.bare .busy) s)) ∧
     (-500 ≤ ms → ms ≤ 500 → s.trim.value = none →
       exec .trimClock s = .next { answered 0x23 (.bare .ok) s with trim := .of (some ms) }))

/-- A second boundary advances the calendar one second in every supply state; a pending trim gives the length of the
second that begins and is cleared. While the blocks run, each context, WAITING and TAKEN approval counts down, and
one that the tick brings to 0 ends in it with its DENY (a HELD context waits); second 0 with the clock SET tells the
Window Sweep. That every tick is delivered in the boundary's own step is the model's choice (log 6), as is the order
(log 24). A reservation that ends keeps an answer record of another sequence that is not open (log 19), and is freed
where its station's entries are gone already (log 52). -/
def Obligations.SecondBoundaryAdvancesTheClock : Prop :=
  ∀ (s : State) (c : Calendar), s.undamaged = true → s.tablesWf = true → s.queuesOk = true →
    c = s.clock.value.calendar.nextSecond →
    ∃ t, exec .secondBoundary s = .next t ∧
      t.clock = .of ⟨c, s.clock.value.isSet⟩ ∧
      (s.trim.value = none → t.trim = s.trim ∧ t.secondLength = 1000) ∧
      (∀ ms, s.trim.value = some ms → t.trim = .of none ∧ t.secondLength = (1000 - ms).toNat) ∧
      (s.awake = false → t.pairs = s.pairs ∧ t.referrals = s.referrals ∧ t.verdicts = s.verdicts ∧
        t.stations = s.stations ∧ t.sweep = s.sweep ∧ t.resweep = s.resweep) ∧
      (s.awake = true →
        (∀ k, 1 ≤ k → k ≤ 8 → t.pair k = (s.pair k).bind (fun p =>
          if p.held = false ∧ p.seconds ≤ 1 then none else some { p with seconds := p.seconds - 1 })) ∧
        t.referrals = s.referrals.filterMap afterTick ∧
        t.verdicts = (deniedEach (endedByTick s) s).verdicts ∧ t.stations = (deniedEach (endedByTick s) s).stations ∧
        (c.second = 0 → s.clock.value.isSet = true →
          t.sweep = some (s.sweep.getD ⟨1, c.minute⟩) ∧ t.resweep = (s.resweep || s.sweep.isSome)) ∧
        (c.second ≠ 0 ∨ s.clock.value.isSet = false → t.sweep = s.sweep ∧ t.resweep = s.resweep)) ∧
      t.grants = s.grants ∧ t.rooms = s.rooms ∧ t.presence = s.presence ∧ t.barEntries = s.barEntries ∧
      t.requests = s.requests ∧ t.seat = s.seat ∧ t.notices = s.notices ∧
      t.mode = s.mode ∧ t.tamper = s.tamper ∧ t.attention = s.attention ∧ t.window = s.window

/-- Advancing a second keeps the calendar inside its range, and the day after a day is the next weekday. -/
def Obligations.CalendarStaysInRange : Prop :=
  ∀ (c : Calendar), c.minute.ok = true → c.second ≤ 59 →
    c.nextSecond.minute.ok = true ∧ c.nextSecond.second ≤ 59 ∧
    (c.second < 59 → c.nextSecond = { c with second := c.second + 1 }) ∧
    (c.second = 59 → c.minute.minute < 59 →
      c.nextSecond = ⟨{ c.minute with minute := c.minute.minute + 1 }, 0⟩) ∧
    (c.minute = ⟨2099, 12, 31, 23, 59⟩ → c.second = 59 → c.nextSecond = ⟨⟨2000, 1, 1, 0, 0⟩, 0⟩) ∧
    (∀ d, c.hourLater = some d → d.minute.ok = true ∧ d.hourEarlier = some c) ∧
    ((⟨2000, 1, 1, 0, 0⟩ : Minute).weekday = 5) ∧
    (c.minute.nextDay ≠ ⟨2000, 1, 1, c.minute.hour, c.minute.minute⟩ →
      c.minute.nextDay.weekday = (c.minute.weekday + 1) % 7)

/-- A sweep visit at slot k with sweep minute T: PENDING becomes ACTIVE at its valid from; a live grant at its valid
until lapses and its holders get an overstay notice; otherwise its hours are compared. A slot that is not live is
passed. -/
def Obligations.SweepVisitFollowsTheWindows : Prop :=
  ∀ (s : State) (w : Sweep) (st : GrantState) (issue : BitVec 8) (g : GrantRecord),
    s.awake = true → s.undamaged = true → s.tablesWf = true → s.sweep = some w → 1 ≤ w.cursor → w.cursor ≤ 1024 →
    (s.slot w.cursor).header.value = ⟨st, issue⟩ → g = (s.slot w.cursor).body.value →
    ∃ t, exec .sweepVisit s = .next t ∧ t.sweep = sweepAfter w s ∧
      t.resweep = (if w.cursor < 1024 then s.resweep else false) ∧
      (∀ j, j ≠ w.cursor → t.slot j = s.slot j) ∧
      (st = .free ∨ st = .faulted ∨ st = .lapsed ∨ st = .revoked →
        t.slot w.cursor = s.slot w.cursor ∧ t.notices = s.notices) ∧
      (st = .pending ∨ st = .active ∨ st = .spent ∨ st = .suspended → g.validUntil.atOrBefore w.minute = true →
        (t.slot w.cursor).header.value = ⟨.lapsed, issue⟩ ∧
        (t.slot w.cursor).body.value = { g with suspendedFrom := none } ∧
        t.notices = s.notices ++ [⟨.presencePool, .overstay ⟨w.cursor, issue⟩, false⟩]) ∧
      (st = .pending ∨ st = .active ∨ st = .spent ∨ st = .suspended → g.validUntil.atOrBefore w.minute = false →
        (t.slot w.cursor).header.value =
          ⟨if st = .pending ∧ g.validFrom.atOrBefore w.minute = true then .active else st, issue⟩ ∧
        (g.hours = none → (t.slot w.cursor).body.value = g ∧ t.notices = s.notices) ∧
        (∀ d, g.hours = some d →
          (t.slot w.cursor).body.value = { g with hoursState := d.stateAt w.minute } ∧
          t.notices = (if g.hoursState = .inHours ∧ d.openAt w.minute = false then
            s.notices ++ [⟨.presencePool, .overstay ⟨w.cursor, issue⟩, false⟩] else s.notices))) ∧
      t.rooms = s.rooms ∧ t.presence = s.presence ∧ t.verdicts = s.verdicts ∧ t.pairs = s.pairs ∧
      t.referrals = s.referrals ∧ t.clock = s.clock ∧ t.attention = s.attention

/-- A room number outside 0-63 is refused BAD ARGUMENT; an UNDEFINED room is refused NOT FOUND, except by READ ROOM,
which returns its state alone. CLOSE ROOM and OPEN ROOM write the state of a room that can be read, or are refused
ALREADY or FAULTED. -/
def Obligations.RoomArgumentsCloseAndOpen : Prop :=
  (∀ (s : State) (p : Instr × BitVec 8), p ∈ roomCommands → s.accepts = true → s.undamaged = true →
     (64 ≤ roomArg s.window → exec p.1 s = .next (answered p.2 (.bare .badArgument) s)) ∧
     (defineArg s.window = none → exec .defineRoom s = .next (answered 0x30 (.bare .badArgument) s)) ∧
     (p.1 = .closeRoom ∨ p.1 = .openRoom ∨ p.1 = .deleteRoom ∨ p.1 = .resetCensus →
       ∀ r, namesRoom s r → (s.room r).header.value = .undefined →
       exec p.1 s = .next (answered p.2 (.bare .notFound) s)) ∧
     (p.1 = .readRoom → ∀ r, namesRoom s r → (s.room r).header.value = .undefined →
       exec p.1 s = .next (answered p.2 (.bare .ok) s))) ∧
  (∀ (s : State) (r : Nat), namesRoom s r →
     ((s.room r).header.value = .inService →
       exec .closeRoom s = .next { answered 0x31 (.bare .ok) s with
         rooms := Table.set Room.cleared s.rooms r { s.room r with header := .of .closed } } ∧
       exec .openRoom s = .next (answered 0x32 (.bare .already) s)) ∧
     ((s.room r).header.value = .closed →
       exec .openRoom s = .next { answered 0x32 (.bare .ok) s with
         rooms := Table.set Room.cleared s.rooms r { s.room r with header := .of .inService } } ∧
       exec .closeRoom s = .next (answered 0x31 (.bare .already) s)) ∧
     ((s.room r).header.value = .faulted →
       exec .closeRoom s = .next (answered 0x31 (.bare .faulted) s) ∧
       exec .openRoom s = .next (answered 0x32 (.bare .faulted) s)))

/-- DEFINE ROOM creates an UNDEFINED room IN SERVICE with no escort and no suspicion, amends one that can be read,
keeping its state, list and counts, and is refused otherwise. -/
def Obligations.DefineRoomCreatesOrAmends : Prop :=
  ∀ (s : State) (d : RoomDefinition), s.accepts = true → s.undamaged = true → defineArg s.window = some d →
    (keyTaken s d.room d.key → (s.room d.room).header.value ≠ .faulted →
      exec .defineRoom s = .next (answered 0x30 (.bare .badArgument) s)) ∧
    ((s.room d.room).header.value = .faulted → exec .defineRoom s = .next (answered 0x30 (.bare .faulted) s)) ∧
    (¬ keyTaken s d.room d.key → (s.room d.room).header.value = .undefined →
      exec .defineRoom s = .next { answered 0x30 (.bare .ok) s with
        rooms := Table.set Room.cleared s.rooms d.room ⟨.of .inService, .of ⟨d.key, d.cls, d.limit, 0, false⟩⟩ }) ∧
    (∀ closed b, ¬ keyTaken s d.room d.key → (s.room d.room).view = .readable closed b →
      (d.limit < s.occupancy d.room → exec .defineRoom s = .next (answered 0x30 (.bare .inUse) s)) ∧
      (s.occupancy d.room ≤ d.limit → d.cls ≠ b.cls →
        s.anyPair (fun c => decide (c.room = d.room)) = true ∨
          s.anyApproval (fun e _ => decide (e.room = d.room)) = true →
        exec .defineRoom s = .next (answered 0x30 (.bare .inUse) s)) ∧
      (s.occupancy d.room ≤ d.limit →
        d.cls = b.cls ∨ (s.anyPair (fun c => decide (c.room = d.room)) = false ∧
          s.anyApproval (fun e _ => decide (e.room = d.room)) = false) →
        exec .defineRoom s = .next { answered 0x30 (.bare .ok) s with
          rooms := Table.set Room.cleared s.rooms d.room
            { s.room d.room with body := .of { b with key := d.key, cls := d.cls, limit := d.limit } } }))

/-- DELETE ROOM returns a room without occupants and bound stations to UNDEFINED, a FAULTED one too; otherwise IN USE. -/
def Obligations.DeleteRoomNeedsAnEmptyRoom : Prop :=
  ∀ (s : State) (r : Nat), namesRoom s r → (s.room r).header.value ≠ .undefined →
    (s.occupancy r = 0 → (∀ k, 1 ≤ k → k ≤ 31 → (s.station k).readable.bind (·.binding) ≠ some r) →
      exec .deleteRoom s = .next { answered 0x33 (.bare .ok) s with
        rooms := Table.set Room.cleared s.rooms r .cleared }) ∧
    (s.occupancy r ≠ 0 ∨ (∃ k, 1 ≤ k ∧ k ≤ 31 ∧ (s.station k).readable.bind (·.binding) = some r) →
      exec .deleteRoom s = .next (answered 0x33 (.bare .inUse) s))

/-- READ ROOM returns the definition, the occupancy count and the bound stations, the lower station ID first (log 50);
for a FAULTED room no body field. LIST PRESENCE returns the records at two places, the occupancy count and the
continuation, and changes nothing; it accepts a FAULTED room. -/
def Obligations.ReadRoomAndListPresence : Prop :=
  (∀ (s : State) (r : Nat) (bound : List Nat), namesRoom s r →
     bound = s.boundAmong r (numbersFrom 1 31) →
     (∀ closed b, (s.room r).view = .readable closed b →
       exec .readRoom s = .next (answered 0x34 (.okWith
         { arg0 := put 0 2 (if closed then 2 else 1) ||| put 16 6 (s.occupancy r) |||
             (put 4 2 b.cls.code ||| putBit 6 b.suspect ||| put 8 6 b.limit ||| put 24 6 b.escorts),
           arg1 := put 0 16 b.key.toNat, arg2 := boundWord bound s }) s)) ∧
     ((s.room r).header.value = .faulted →
       exec .readRoom s = .next (answered 0x34 { code := .faulted, words :=
         { arg0 := put 0 2 3 ||| put 16 6 (s.occupancy r) ||| 0, arg1 := 0, arg2 := boundWord bound s } } s))) ∧
  (∀ (s : State) (r place : Nat), namesRoom s r → place = field s.window.arg1 0 8 →
     (place = 0 ∨ 32 < place → exec .listPresence s = .next (answered 0x35 (.bare .badArgument) s)) ∧
     (1 ≤ place → place ≤ 32 → (s.room r).header.value = .undefined →
       exec .listPresence s = .next (answered 0x35 (.bare .notFound) s)) ∧
     (1 ≤ place → place ≤ 32 → (s.room r).header.value ≠ .undefined →
       exec .listPresence s = .next (answered 0x35 (.okWith (pageWords (s.occupancy r)
         (if place + 2 ≤ s.occupancy r then place + 2 else 0) (wordsAt s r place) (wordsAt s r (place + 1)))) s)))

/-- REMOVE PRESENCE, by list place or by credential, frees a SENT record: the records behind it move up one place, an
ESCORT leaving lowers the escort count, and the last one leaving an ESCORTED room sets UNESCORTED, with PRESENCE
ALERT, on every CONTRACTOR record that can be read; other rooms are untouched, no use is returned. An UNSENT record
is refused IN USE, a record not found NOT FOUND, and each fault of the arguments and of the room as R65 says. RESET
CENSUS empties the room's list and clears its census suspect flag; it is refused IN USE while a record is UNSENT. -/
def Obligations.PresenceIsRemovedByTheHost : Prop :=
  (∀ (s : State) (r : Nat), s.accepts = true → s.undamaged = true → s.tablesWf = true → r = roomArg s.window →
     (64 ≤ r ∨ (s.window.arg0.getLsbD 8 = true ∧ (s.window.arg1 = 0 ∨ 32 < s.window.arg1.toNat)) ∨
         (s.window.arg0.getLsbD 8 = false ∧ (s.window.arg2.truncate 8 ++ s.window.arg1 : BitVec 40) = 0) →
       exec .removePresence s = .next (answered 0x36 (.bare .badArgument) s)) ∧
     (r < 64 → (s.window.arg0.getLsbD 8 = true → 1 ≤ s.window.arg1.toNat ∧ s.window.arg1.toNat ≤ 32) →
       (s.window.arg0.getLsbD 8 = false → (s.window.arg2.truncate 8 ++ s.window.arg1 : BitVec 40) ≠ 0) →
       ((s.room r).header.value = .undefined → exec .removePresence s = .next (answered 0x36 (.bare .notFound) s)) ∧
       ((s.room r).header.value = .faulted → exec .removePresence s = .next (answered 0x36 (.bare .faulted) s)) ∧
       (∀ closed b, (s.room r).view = .readable closed b →
         (namedRecord s r = none → exec .removePresence s = .next (answered 0x36 (.bare .notFound) s)) ∧
         (∀ id, namedRecord s r = some id → (s.index id).sent = false →
           exec .removePresence s = .next (answered 0x36 (.bare .inUse) s)) ∧
         (∀ id, namedRecord s r = some id → (s.index id).sent = true →
           ∃ t, exec .removePresence s = .next t ∧
             t.work = some (.ready (.okWith { arg0 := put 0 1 (s.index id).role.code })) ∧
             t.record id = .free ∧
             (∀ k, k ≠ id → (t.index k).place =
               (if (s.index k).inUse = true ∧ (s.index k).room = r ∧ (s.index id).place < (s.index k).place
                 then (s.index k).place - 1 else (s.index k).place)) ∧
             (∀ k, k ≠ id → (t.index k).inUse = (s.index k).inUse ∧ (t.index k).room = (s.index k).room ∧
               (t.index k).role = (s.index k).role ∧ (t.index k).sent = (s.index k).sent) ∧
             ((s.index id).role = .contractor → t.rooms = s.rooms ∧ t.attention = s.attention) ∧
             ((s.index id).role = .escort → (t.room r).body.value.escorts = b.escorts - 1) ∧
             ((s.index id).role = .contractor ∨ b.cls ≠ .escorted ∨ b.escorts ≠ 1 →
               t.attention = s.attention ∧ ∀ k, k ≠ id → (t.record k).body = (s.record k).body) ∧
             ((s.index id).role = .escort → b.cls = .escorted → b.escorts = 1 →
               (∀ k, k ≠ id → (t.record k).body.value = (if s.leftAlone r k then
                 { (s.record k).body.value with
                   conditions := { (s.record k).body.value.conditions with unescorted := true } }
                 else (s.record k).body.value)) ∧
               ((∃ k, k ≠ id ∧ s.leftAlone r k = true ∧ (s.record k).body.value.conditions.unescorted = false) →
                 t.attention = s.attention ||| Cause.presenceAlert.word) ∧
               ((∀ k, k ≠ id → s.leftAlone r k = true → (s.record k).body.value.conditions.unescorted = true) →
                 t.attention = s.attention)) ∧
             (∀ q, q ≠ r → t.room q = s.room q) ∧
             t.grants = s.grants ∧ t.verdicts = s.verdicts ∧ t.stations = s.stations ∧ t.pairs = s.pairs)))) ∧
  (∀ (s : State) (r : Nat), namesRoom s r → s.tablesWf = true → (s.room r).header.value ≠ .undefined →
     ((∃ id ∈ s.roomRecords r, (s.index id).sent = false) →
       exec .resetCensus s = .next (answered 0x37 (.bare .inUse) s)) ∧
     ((∀ id ∈ s.roomRecords r, (s.index id).sent = true) →
       ∃ t, exec .resetCensus s = .next t ∧
         t.work = some (.ready (.okWith { arg0 := BitVec.ofNat 32 (s.occupancy r) })) ∧
         (∀ id, t.record id = (if (s.index id).inUse = true ∧ (s.index id).room = r then .free else s.record id)) ∧
         t.occupancy r = 0 ∧
         ((s.room r).header.value = .faulted → t.rooms = s.rooms) ∧
         ((s.room r).header.value ≠ .faulted →
           (t.room r).body.value = { (s.room r).body.value with escorts := 0, suspect := false }) ∧
         (∀ q, q ≠ r → t.room q = s.room q) ∧
         t.grants = s.grants ∧ t.verdicts = s.verdicts ∧ t.stations = s.stations ∧ t.attention = s.attention))

/-- An admission of one record is refused in the order of R57's checks (ROOM FAULT for an UNDEFINED room too: log 11);
granted, the record stands UNSENT at the tail of the room's list with the present calendar minute and no conditions
but the OVERSTAY, with PRESENCE ALERT, of a notice taken since the claim (log 59), and an ESCORT raises the escort
count and, in an ESCORTED room, clears UNESCORTED on every record that can be read. An admission of two records, for
a completed pair, is one: it is refused for either credential, and needs two places in the room and in the pool;
granted, the records stand at the tail in the order named. -/
def Obligations.AdmissionPlacesARecord : Prop :=
  (∀ (s : State) (r : Nat) (e : Entrant), s.undamaged = true → s.tablesWf = true →
     ((∀ closed b, (s.room r).view ≠ .readable closed b) → admission r [e] s = (.error .roomFault, s)) ∧
     (∀ closed b, (s.room r).view = .readable closed b →
       (s.locateIn e.credential s.inUseRecords ≠ none → admission r [e] s = (.error .passback, s)) ∧
       (s.locateIn e.credential s.inUseRecords = none → b.limit < s.occupancy r + 1 →
         admission r [e] s = (.error .roomFull, s)) ∧
       (s.locateIn e.credential s.inUseRecords = none → s.occupancy r + 1 ≤ b.limit → s.freeRecords 1 = [] →
         admission r [e] s = (.error .presenceFull, s)) ∧
       (∀ id, s.locateIn e.credential s.inUseRecords = none → s.occupancy r + 1 ≤ b.limit → s.freeRecords 1 = [id] →
         ∃ t, admission r [e] s = (.ok [id], t) ∧
           (t.record id).index.value = ⟨true, r, s.occupancy r + 1, e.role, false, e.useTaken, false⟩ ∧
           (t.record id).body.value.credential = e.credential ∧ (t.record id).body.value.handle = some e.handle ∧
           (t.record id).body.value.entered = s.clock.value.calendar.minute ∧
           (t.record id).body.value.station = e.station ∧ (t.record id).body.value.partner = e.partner ∧
           (t.record id).body.value.conditions = ⟨e.overstay, false, false, false, false⟩ ∧
           (∀ k, k ≠ id → (t.record k).index = (s.record k).index) ∧
           (e.role = .contractor → t.rooms = s.rooms) ∧
           (e.role = .escort → (t.room r).body.value = { b with escorts := b.escorts + 1 }) ∧
           (∀ k, k ≠ id → (t.record k).body.value = (if e.role = .escort ∧ b.cls = .escorted ∧
               (s.index k).inUse = true ∧ (s.index k).room = r ∧ (s.index k).faulted = false then
             { (s.record k).body.value with
               conditions := { (s.record k).body.value.conditions with unescorted := false } }
             else (s.record k).body.value)) ∧
           (e.overstay = false → t.attention = s.attention) ∧
           (e.overstay = true → s.awake = true → t.attention = s.attention ||| Cause.presenceAlert.word) ∧
           t.grants = s.grants ∧ t.verdicts = s.verdicts))) ∧
  (∀ (s : State) (r : Nat) (e1 e2 : Entrant) (closed : Bool) (b : RoomBody) (n : Nat), s.undamaged = true →
     s.tablesWf = true → (s.room r).view = .readable closed b →
     n = (if e1.role = .escort then 1 else 0) + (if e2.role = .escort then 1 else 0) →
     (s.locateIn e1.credential s.inUseRecords ≠ none ∨ s.locateIn e2.credential s.inUseRecords ≠ none →
       admission r [e1, e2] s = (.error .passback, s)) ∧
     (s.locateIn e1.credential s.inUseRecords = none → s.locateIn e2.credential s.inUseRecords = none →
       (b.limit < s.occupancy r + 2 → admission r [e1, e2] s = (.error .roomFull, s)) ∧
       (s.occupancy r + 2 ≤ b.limit → (s.freeRecords 2).length < 2 → admission r [e1, e2] s = (.error .presenceFull, s)) ∧
       (∀ id1 id2, s.occupancy r + 2 ≤ b.limit → s.freeRecords 2 = [id1, id2] →
         ∃ t, admission r [e1, e2] s = (.ok [id1, id2], t) ∧
           (t.record id1).index.value = ⟨true, r, s.occupancy r + 1, e1.role, false, e1.useTaken, false⟩ ∧
           (t.record id2).index.value = ⟨true, r, s.occupancy r + 2, e2.role, false, e2.useTaken, false⟩ ∧
           (t.record id1).body.value = ⟨e1.credential, some e1.handle, s.clock.value.calendar.minute, e1.station,
             e1.partner, ⟨e1.overstay, false, false, false, false⟩⟩ ∧
           (t.record id2).body.value = ⟨e2.credential, some e2.handle, s.clock.value.calendar.minute, e2.station,
             e2.partner, ⟨e2.overstay, false, false, false, false⟩⟩ ∧
           (∀ k, k ≠ id1 → k ≠ id2 → (t.record k).index = (s.record k).index) ∧
           (n = 0 → t.rooms = s.rooms) ∧ (t.room r).body.value = { b with escorts := b.escorts + n } ∧
           (∀ q, q ≠ r → t.room q = s.room q) ∧
           (e1.overstay = false → e2.overstay = false → t.attention = s.attention) ∧
           (e1.overstay = true ∨ e2.overstay = true → s.awake = true →
             t.attention = s.attention ||| Cause.presenceAlert.word) ∧
           t.grants = s.grants ∧ t.verdicts = s.verdicts)))

/-- SET PAIR WINDOW takes 5 to 120 seconds and returns the window before; READ PAIR CONTEXT returns the open context of
a station and changes nothing. That ARG3 shows the handle without state bits is the model's choice (log 44). SET
REFERRAL TIMEOUT takes 10 to 300 seconds and returns the timeout before. -/
def Obligations.WaitingTimesAreSet : Prop :=
  (∀ (s : State) (n k : Nat), s.accepts = true → s.pairWindow.clean = true → n = s.window.arg0.toNat →
     k = field s.window.arg0 0 8 →
     (n < 5 ∨ 120 < n → exec .setPairWindow s = .next (answered 0x40 (.bare .badArgument) s)) ∧
     (5 ≤ n → n ≤ 120 →
       exec .setPairWindow s = .next { answered 0x40 (.okWith { arg0 := BitVec.ofNat 32 s.pairWindow.value }) s with
         pairWindow := .of n }) ∧
     (k = 0 ∨ 31 < k → exec .readPairContext s = .next (answered 0x41 (.bare .badArgument) s)) ∧
     (1 ≤ k → k ≤ 31 → (∀ slot c, 1 ≤ slot → slot ≤ 8 → s.pair slot = some c → c.station ≠ k) →
       exec .readPairContext s = .next (answered 0x41 (.bare .notFound) s)) ∧
     (∀ slot c, 1 ≤ k → k ≤ 31 → 1 ≤ slot → slot ≤ 8 → s.pair slot = some c → c.station = k →
       (∀ j b, 1 ≤ j → j < slot → s.pair j = some b → b.station ≠ k) →
       exec .readPairContext s = .next (answered 0x41 (.okWith
         { arg0 := putBit 0 (!c.held) ||| put 8 6 c.room ||| put 16 4 c.sequence.toNat ||| put 20 1 c.role.code,
           arg1 := credentialLow c.credential,
           arg2 := put 0 8 (credentialHigh c.credential) ||| put 8 7 c.seconds ||| put 16 7 s.pairWindow.value,
           arg3 := handleWord c.handle,
           arg4 := match c.closure with
             | none => 0
             | some x => put 0 4 x.code ||| put 8 5 (reasonCode x.reason) }) s))) ∧
  (∀ (s : State) (n : Nat), s.accepts = true → s.referralTimeout.clean = true → n = s.window.arg0.toNat →
     (n < 10 ∨ 300 < n → exec .setReferralTimeout s = .next (answered 0x50 (.bare .badArgument) s)) ∧
     (10 ≤ n → n ≤ 300 →
       exec .setReferralTimeout s = .next { answered 0x50
           (.okWith { arg0 := BitVec.ofNat 32 s.referralTimeout.value }) s with
         referralTimeout := .of n }))

/-- The rows PAIR_EXPIRY and REFERRAL_TIMEOUT end what stands at 0 seconds as its tick does (log 6): an OPEN context
with DENY PAIR TIMEOUT, a WAITING or TAKEN approval with DENY REFERRAL TIMEOUT; each leaves its block and its
reservation becomes the verdict, or is freed where the station's part of the Verdict Queue has been emptied (log
52). An answer record of another sequence that is not open stays as it is (log 19). A HELD context, an OPENING or
ANSWERING approval, a hot card and any entry with seconds left stay, and a row that finds no entry does nothing (log
3). -/
def Obligations.ExpiryAndTimeoutDeny : Prop :=
  ∀ (s : State), s.awake = true →
    (∀ slot c, s.pair slot = some c →
      (c.held = false → c.seconds = 0 →
        exec (.pairExpiry slot) s = .next (deniedAt .pairTable c.station c.sequence .pairTimeout
          { s with pairs := Table.set none s.pairs slot none })) ∧
      (c.held = true ∨ 0 < c.seconds → exec (.pairExpiry slot) s = .next s)) ∧
    (∀ slot, s.pair slot = none → exec (.pairExpiry slot) s = .next s) ∧
    (∀ l1 l2 e h st n cl, s.referrals = l1 ++ e :: l2 → (∀ x ∈ l1 ++ l2, x.reference ≠ e.reference) →
      e.kind = .approval h st n cl →
      (st = .waiting ∨ st = .taken → n = 0 →
        exec (.referralTimeout e.reference) s = .next (deniedAt .referralQueue e.station e.sequence .referralTimeout
          { s with referrals := l1 ++ l2 })) ∧
      (st = .opening ∨ st = .answering ∨ 0 < n → exec (.referralTimeout e.reference) s = .next s)) ∧
    (∀ n, (∀ e ∈ s.referrals, e.reference ≠ n ∨ ∃ shown, e.kind = .hotCard shown) →
      exec (.referralTimeout n) s = .next s)

/-- TAKE REFERRAL gives the oldest hot card and marks it SHOWN; where there is none, the oldest WAITING approval, which
becomes TAKEN and keeps its seconds; else NOT FOUND. ARG4 shows the handle without state bits (the model's choice,
log 44). CLEAR HOT CARD removes the hot card of a reference number, and nothing else. -/
def Obligations.TakeReferralAndClearHotCard : Prop :=
  ∀ (s : State), s.accepts = true →
    (∀ l1 l2 e shown, s.referrals = l1 ++ e :: l2 → (∀ x ∈ l1 ++ l2, x.reference ≠ e.reference) →
      e.kind = .hotCard shown →
      ((∀ x ∈ l1, x.isApproval = true) →
        exec .takeReferral s = .next { answered 0x51 (.okWith
          { arg0 := put 0 16 e.reference ||| put 19 5 e.station ||| put 24 6 e.room ||| (putBit 16 true ||| put 17 2 2),
            arg1 := credentialLow e.credential,
            arg2 := put 0 8 (credentialHigh e.credential) ||| put 8 4 e.sequence.toNat ||| 0,
            arg3 := minuteWord e.created, arg4 := 0 }) s with
          referrals := l1 ++ { e with kind := .hotCard true } :: l2 }) ∧
      (field s.window.arg0 0 16 = e.reference → e.reference ≠ 0 →
        exec .clearHotCard s = .next { answered 0x53 (.bare .ok) s with referrals := l1 ++ l2 })) ∧
    (∀ l1 l2 e h n cl, s.referrals = l1 ++ e :: l2 → (∀ x ∈ l1 ++ l2, x.reference ≠ e.reference) →
      (∀ x ∈ s.referrals, x.isApproval = true) → (∀ x ∈ l1, x.isWaiting = false) →
      e.kind = .approval h .waiting n cl →
      exec .takeReferral s = .next { answered 0x51 (.okWith
        { arg0 := put 0 16 e.reference ||| put 19 5 e.station ||| put 24 6 e.room ||| put 17 2 1,
          arg1 := credentialLow e.credential,
          arg2 := put 0 8 (credentialHigh e.credential) ||| put 8 4 e.sequence.toNat ||| put 16 9 n,
          arg3 := minuteWord e.created, arg4 := handleWord h }) s with
        referrals := l1 ++ { e with kind := .approval h .taken n cl } :: l2 }) ∧
    ((∀ x ∈ s.referrals, x.isApproval = true ∧ x.isWaiting = false) →
      exec .takeReferral s = .next (answered 0x51 (.bare .notFound) s)) ∧
    (field s.window.arg0 0 16 = 0 → exec .clearHotCard s = .next (answered 0x53 (.bare .badArgument) s)) ∧
    (field s.window.arg0 0 16 ≠ 0 →
      (∀ x ∈ s.referrals, x.reference = field s.window.arg0 0 16 → x.isApproval = true) →
      exec .clearHotCard s = .next (answered 0x53 (.bare .notFound) s))

/-- ANSWER REFERRAL on a TAKEN approval: DENY converts its reservation into DENY REFUSED BY DESK and removes it (the
answer record of another sequence that is not open stays: log 19; the reservation is freed where the station's part
of the Verdict Queue has been emptied: log 52); PERMIT makes it ANSWERING, and the command waits for the answer
check. The refusals leave the queue as it was. -/
def Obligations.AnswerReferralOnATakenApproval : Prop :=
  ∀ (s : State) (n answer : Nat), s.accepts = true → n = field s.window.arg0 0 16 → answer = field s.window.arg0 16 2 →
    (n = 0 ∨ (answer ≠ 1 ∧ answer ≠ 2) → exec .answerReferral s = .next (answered 0x52 (.bare .badArgument) s)) ∧
    (n ≠ 0 → answer = 1 ∨ answer = 2 →
      ((∀ x ∈ s.referrals, x.reference ≠ n) → exec .answerReferral s = .next (answered 0x52 (.bare .tooLate) s)) ∧
      (∀ l1 l2 e, s.referrals = l1 ++ e :: l2 → (∀ x ∈ l1 ++ l2, x.reference ≠ n) → e.reference = n →
        (∀ shown, e.kind = .hotCard shown → exec .answerReferral s = .next (answered 0x52 (.bare .wrongState) s)) ∧
        (∀ h st m cl, e.kind = .approval h st m cl →
          (st ≠ .taken → exec .answerReferral s = .next (answered 0x52 (.bare .notTaken) s)) ∧
          (st = .taken → answer = 2 →
            exec .answerReferral s = .next (deniedAt .referralQueue e.station e.sequence .refusedByDesk
              { answered 0x52 (.bare .ok) s with referrals := l1 ++ l2 })) ∧
          (st = .taken → answer = 1 →
            exec .answerReferral s = .next { accepted 0x52 s with
              referrals := l1 ++ { e with kind := .approval h .answering m cl } :: l2,
              work := some (.answer n) }))))

/-- BAR CREDENTIAL inserts a credential in its order and gives three bar notices; UNBAR CREDENTIAL removes it and gives
the Presence Pool an unbar notice; both stay in progress. Their refusals, in the order of the checks, leave the list
as it was. The membership test answers FAULT for a DOUBTFUL list, else whether the credential is on it, and changes
nothing. -/
def Obligations.BarListIsKeptInOrder : Prop :=
  (∀ (s : State) (c : Credential), s.accepts = true → s.undamaged = true →
     c = (s.window.arg1.truncate 8 ++ s.window.arg0 : BitVec 40) →
     (c = 0 → exec .barCredential s = .next (answered 0x48 (.bare .badArgument) s) ∧
       exec .unbarCredential s = .next (answered 0x49 (.bare .badArgument) s)) ∧
     (c ≠ 0 → s.barHeader.value.doubtful = true →
       exec .barCredential s = .next (answered 0x48 (.bare .faulted) s) ∧
       exec .unbarCredential s = .next (answered 0x49 (.bare .faulted) s)) ∧
     (c ≠ 0 → s.barHeader.value.doubtful = false → s.barSorted →
       (s.onBarList c → exec .barCredential s = .next (answered 0x48 (.bare .already) s) ∧
         exec .unbarCredential s = .next { accepted 0x49 s with
           barEntries := s.barEntries.filter (fun e => decide (e.value ≠ c)),
           barHeader := .of { s.barHeader.value with count := s.barEntries.length - 1 },
           notices := s.notices ++ [⟨.presencePool, .unbar c, true⟩],
           work := some (.unbar 0) }) ∧
       (¬ s.onBarList c → exec .unbarCredential s = .next (answered 0x49 (.bare .notFound) s) ∧
         (256 ≤ s.barEntries.length → exec .barCredential s = .next (answered 0x48 (.bare .tableFull) s)) ∧
         (s.barEntries.length < 256 →
           exec .barCredential s = .next { accepted 0x48 s with
             barEntries := s.barEntries.filter (fun e => decide (e.value.toNat < c.toNat)) ++
               Stored.of c :: s.barEntries.filter (fun e => decide (c.toNat < e.value.toNat)),
             barHeader := .of { s.barHeader.value with count := s.barEntries.length + 1 },
             notices := s.notices ++ [⟨.decisionEngine, .bar c, true⟩, ⟨.pairTable, .bar c, true⟩,
               ⟨.referralQueue, .bar c, true⟩],
             work := some (.bar ⟨0, 0, 0⟩) })))) ∧
  (∀ (s : State) (c : Credential), s.undamaged = true →
     (s.barHeader.value.doubtful = true → membership c s = (.fault, s)) ∧
     (s.barHeader.value.doubtful = false → s.barSorted →
       (s.onBarList c → membership c s = (.barred, s)) ∧ (¬ s.onBarList c → membership c s = (.notBarred, s))))

/-- READ BAR LIST answers up to six positions from its start, 1 to 256, a faulted one without its credential, with the
continuation, and changes nothing. CLEAR BAR LIST empties the list, makes it GOOD, and gives an unbar notice for
each credential that can be read, by rising list position (the model's choice, log 57). -/
def Obligations.ReadAndClearBarList : Prop :=
  ∀ (s : State) (start : Nat) (seen : List (Option Credential)), s.accepts = true → s.undamaged = true →
    s.barHeader.value.count = s.barEntries.length → start = field s.window.arg0 0 9 →
    seen = s.barEntries.mapIdx (fun i e => if s.barHeader.value.faulted.contains (i + 1) then none else some e.value) →
    (start = 0 ∨ 256 < start → exec .readBarList s = .next (answered 0x4A (.bare .badArgument) s)) ∧
    (1 ≤ start → start ≤ 256 →
      exec .readBarList s = .next (answered 0x4A (.okWith (barWords s.barHeader.value ((seen.drop (start - 1)).take 6)
        (if start + 6 ≤ s.barEntries.length then start + 6 else 0))) s)) ∧
    exec .clearBarList s = .next { accepted 0x4B s with
      barEntries := [], barHeader := .of ⟨0, false, []⟩,
      notices := s.notices ++ (seen.filterMap id).map (fun c => ⟨.presencePool, .unbar c, true⟩),
      work := some (.clearBar s.barEntries.length 0) }

/-- CONFIGURE LINK and START LINK need a STOPPED link: the one stores five settings in their ranges, the other runs the
link from cycle 0 with a MARK due. STOP LINK, in every link state: every station but a FAULTED one becomes SILENT
with nothing in flight and no answer record, its entrance state kept; four blocks get the stop notice; the link is
STOPPED. -/
def Obligations.LinkIsConfiguredStartedAndStopped : Prop :=
  (∀ (s : State) (n turn missedLimit release : Nat), s.accepts = true →
     n = field s.window.arg0 0 8 → turn = field s.window.arg0 8 8 → missedLimit = field s.window.arg0 16 8 →
     release = field s.window.arg0 24 8 →
     (s.linkState ≠ .stopped → exec .configureLink s = .next (answered 0x60 (.bare .wrongState) s) ∧
       exec .startLink s = .next (answered 0x61 (.bare .wrongState) s)) ∧
     (s.linkState = .stopped → n < 1 ∨ 31 < n ∨ turn < 16 ∨ missedLimit < 4 ∨ 250 < missedLimit ∨ release < 1 →
       exec .configureLink s = .next (answered 0x60 (.bare .badArgument) s)) ∧
     (s.linkState = .stopped → 1 ≤ n → n ≤ 31 → 16 ≤ turn → 4 ≤ missedLimit → missedLimit ≤ 250 → 1 ≤ release →
       exec .configureLink s = .next { answered 0x60 (.bare .ok) s with
         linkConfig := .of ⟨n, turn, missedLimit, release, s.window.arg1.getLsbD 0⟩ }) ∧
     (s.linkState = .stopped →
       exec .startLink s = .next { answered 0x61 (.bare .ok) s with
         linkState := .running, cycle := 0, cyclePlace := .markDue })) ∧
  (∀ (s : State), s.accepts = true → s.tablesWf = true →
     ∃ table, exec .stopLink s = .next { accepted 0x62 s with
         stations := table, linkState := .stopped, cyclePlace := .markDue,
         notices := s.notices ++ [⟨.requestQueue, .stop, true⟩, ⟨.decisionEngine, .stop, true⟩,
           ⟨.pairTable, .stop, true⟩, ⟨.referralQueue, .stop, true⟩],
         work := some .stopLink } ∧
       ∀ k, ({ s with stations := table } : State).station k =
         (if (s.station k).state = .faulted then { s.station k with answer := none, inFlight := 0 }
           else { s.station k with state := .silent, missed := 0, release := 0, answer := none, inFlight := 0 }))

/-- READ LINK and READ STATION return the link's and a station's items and change nothing; the cycle number is that of
the next MARK, 0 in STOPPED, where the next MARK follows START LINK or a reset; a FAULTED station's result is
FAULTED and shows no binding. -/
def Obligations.ReadLinkAndReadStation : Prop :=
  ∀ (s : State) (k : Nat) (c : LinkConfig), namesStation s k → c = s.linkConfig.value →
    (∀ n : StationState → Nat,
      (∀ x, n x = ((List.range c.stations).filter (fun i => decide ((s.station (i + 1)).state = x))).length) →
      exec .readLink s = .next (answered 0x63 (.okWith
        { arg0 := put 0 2 s.linkState.code ||| put 8 8 (if s.linkState = .stopped then 0 else s.cycle.toNat),
          arg1 := put 0 8 c.stations ||| put 8 8 c.turnTimer ||| put 16 8 c.missedLimit ||| put 24 8 c.jabberRelease,
          arg2 := putBit 0 c.autoStart,
          arg3 := put 0 8 (n .silent) ||| put 8 8 (n .active) ||| put 16 8 (n .lost) ||| put 24 8 (n .jabbering),
          arg4 := put 0 8 (n .faulted) }) s)) ∧
    (k = 0 ∨ 31 < k → exec .readStation s = .next (answered 0x67 (.bare .badArgument) s)) ∧
    (1 ≤ k → k ≤ 31 →
      exec .readStation s = .next (answered 0x67
        { code := if (s.station k).header.value then .faulted else .ok,
          words :=
            { arg0 := put 0 3 (s.station k).state.code ||| put 4 3 (entranceCode (s.station k).entrance) |||
                putBit 7 (decide (k ≤ c.stations)) ||| put 8 8 (s.station k).missed ||| put 16 8 (s.station k).release,
              arg1 := answerWord (s.station k).answer,
              arg2 := put 0 16 (s.station k).inFlight.toNat,
              arg3 := if (s.station k).header.value then 0 else
                put 16 2 (s.station k).body.value.extraFrames |||
                  (match (s.station k).body.value.binding with
                    | none => 0
                    | some r => putBit 8 true ||| put 0 6 r) } } s))

/-- BIND STATION binds an unbound station to a room that can be read and has fewer than two; SET STATION stores up to
three extra frames. Their refusals, in the order of the checks, change nothing. -/
def Obligations.BindAndSetStation : Prop :=
  ∀ (s : State) (k r n : Nat), namesStation s k → r = field s.window.arg1 0 8 → n = field s.window.arg1 0 8 →
    (k = 0 ∨ 31 < k ∨ 64 ≤ r → exec .bindStation s = .next (answered 0x64 (.bare .badArgument) s)) ∧
    (k = 0 ∨ 31 < k ∨ 3 < n → exec .setStation s = .next (answered 0x66 (.bare .badArgument) s)) ∧
    (1 ≤ k → k ≤ 31 → r < 64 →
      ((s.room r).header.value = .undefined → exec .bindStation s = .next (answered 0x64 (.bare .notFound) s)) ∧
      ((s.room r).header.value = .faulted → exec .bindStation s = .next (answered 0x64 (.bare .faulted) s)) ∧
      ((s.room r).header.value = .inService ∨ (s.room r).header.value = .closed →
        ((s.station k).header.value = true → exec .bindStation s = .next (answered 0x64 (.bare .faulted) s)) ∧
        ((s.station k).header.value = false → (s.station k).body.value.binding ≠ none →
          exec .bindStation s = .next (answered 0x64 (.bare .inUse) s)) ∧
        ((s.station k).header.value = false → (s.station k).body.value.binding = none →
          2 ≤ (s.boundAmong r (numbersFrom 1 31)).length →
          exec .bindStation s = .next (answered 0x64 (.bare .inUse) s)) ∧
        ((s.station k).header.value = false → (s.station k).body.value.binding = none →
          (s.boundAmong r (numbersFrom 1 31)).length < 2 →
          exec .bindStation s = .next { answered 0x64 (.bare .ok) s with
            stations := Table.set Station.cleared s.stations k
              { s.station k with body := .of { (s.station k).body.value with binding := some r } } }))) ∧
    (1 ≤ k → k ≤ 31 → n ≤ 3 →
      ((s.station k).header.value = true → exec .setStation s = .next (answered 0x66 (.bare .faulted) s)) ∧
      ((s.station k).header.value = false →
        exec .setStation s = .next { answered 0x66 (.bare .ok) s with
          stations := Table.set Station.cleared s.stations k
            { s.station k with body := .of { (s.station k).body.value with extraFrames := n } } }))

/-- UNBIND STATION of a bound or FAULTED station: refused IN USE while some block holds work of the station, else the
binding and the extra frames are cleared and a FAULTED station becomes SILENT. The hold stands from before the first
question to the end. -/
def Obligations.UnbindStationNeedsNoWork : Prop :=
  ∀ (s : State) (k : Nat), namesStation s k →
    (k = 0 ∨ 31 < k → exec (.unbindStation none) s = .next (answered 0x65 (.bare .badArgument) s)) ∧
    (1 ≤ k → k ≤ 31 →
      ((s.station k).header.value = false → (s.station k).body.value.binding = none →
        exec (.unbindStation none) s = .next (answered 0x65 (.bare .notFound) s)) ∧
      ((s.station k).header.value = true ∨ (s.station k).body.value.binding ≠ none →
        (s.holdsWorkOf k →
          exec (.unbindStation none) s = .next { answered 0x65 (.bare .inUse) s with unbindHold := none }) ∧
        (¬ s.holdsWorkOf k →
          exec (.unbindStation none) s = .next { answered 0x65 (.bare .ok) s with
            unbindHold := none,
            stations := Table.set Station.cleared s.stations k
              (if (s.station k).state = .faulted then
                { s.station k with header := .of false, body := .of ⟨none, 0⟩, state := .silent, missed := 0 }
              else { s.station k with header := .of false, body := .of ⟨none, 0⟩ }) }) ∧
        exec (.unbindStation (some 0)) s = .next { accepted 0x65 s with
          unbindHold := some k, work := some (.unbind k 0) }))

/-- A MARK that is due is sent by a RUNNING link, or by a RECOVERING one after the quiet; with carrier on the line the
link becomes RECOVERING and nothing is sent. -/
def Obligations.MarkHandsOverEightVerdicts : Prop :=
  ∀ (s : State), s.awake = true → s.undamaged = true → s.tablesWf = true →
    (s.linkState = .running → s.cyclePlace = .markDue →
      (∃ t, exec (.mark false) s = .next t ∧ markSentOver s t) ∧
      exec (.mark true) s = .next { s with linkState := .recovering, cyclePlace := .markDue }) ∧
    (s.linkState = .recovering → ∃ t, exec .recoveryQuiet s = .next t ∧ markSentOver s t) ∧
    (s.linkState = .stopped → ∀ carrier, exec (.mark carrier) s = .next s ∧ exec .recoveryQuiet s = .next s)

/-- A turn starts with 1 frame and the station's extra frames; it is skipped for a JABBERING or a FAULTED station. It
ends at the turn timer: heard, nothing changes; else it is missed. Jabber makes the turn's station JABBERING with
the release count and raises JABBER; a disturbance counts the turn as missed. Both make the link RECOVERING with a
MARK due. A station that has become FAULTED in its turn keeps its record (log 17). -/
def Obligations.TurnsStartEndAndFail : Prop :=
  (∀ (s : State) (k : Nat), s.awake = true → s.undamaged = true → s.tablesWf = true → s.linkState = .running →
     (s.cyclePlace = .turnDue k →
       ((s.station k).state = .jabbering ∨ (s.station k).header.value = true →
         exec .turnStart s = .next { s with cyclePlace := s.turnAfter k }) ∧
       ((s.station k).state ≠ .jabbering → (s.station k).header.value = false →
         exec .turnStart s = .next { s with
           cyclePlace := .turnOpen k (1 + (s.station k).body.value.extraFrames) false })) ∧
     (∀ left, s.cyclePlace = .turnOpen k left true →
       exec .turnTimerExpiry s = .next { s with cyclePlace := s.turnAfter k }) ∧
     (∀ left, s.cyclePlace = .turnOpen k left false →
       ∃ t, exec .turnTimerExpiry s = .next { t with cyclePlace := s.turnAfter k } ∧ missed k s t ∧
         t = { s with stations := t.stations, notices := t.notices, attention := t.attention } ∧
         ∀ j, j ≠ k → t.station j = s.station j)) ∧
  (∀ (s : State) (k left : Nat) (heard : Bool), s.inTurn k left heard → s.undamaged = true → s.tablesWf = true →
     (exec .jabber s = .next { s with
       linkState := .recovering, cyclePlace := .markDue, attention := s.attention ||| Cause.jabber.word,
       stations := Table.set Station.cleared s.stations k
         (if (s.station k).state = .faulted then s.station k
           else { s.station k with state := .jabbering, release := s.linkConfig.value.jabberRelease }) }) ∧
     (∃ t, exec .lineDisturbance s = .next { t with linkState := .recovering, cyclePlace := .markDue } ∧ missed k s t ∧
       t = { s with stations := t.stations, notices := t.notices, attention := t.attention } ∧
       ∀ j, j ≠ k → t.station j = s.station j))

/-- A valid REQUEST of the turn's station: ignored while the station is held, in flight, or a repeat of an unsent
answer; a repeat of a sent answer gets a REPEAT entry where a place is free; else it joins the Request Queue, or is
dropped with INTAKE OVERRUN. -/
def Obligations.RequestIntakeClassifies : Prop :=
  ∀ (s : State) (k left : Nat) (heard : Bool) (q : Sequence) (side : Side) (c : Credential),
    s.inTurn k left heard → s.undamaged = true → s.tablesWf = true → (s.station k).state ≠ .faulted →
    ∃ t, exec (.request k q side c) s = .next t ∧
      t.cyclePlace = (if left ≤ 1 then s.turnAfter k else .turnOpen k (left - 1) true) ∧
      (t.station k).state = .active ∧ (t.station k).missed = 0 ∧
      t = { s with
        cyclePlace := t.cyclePlace, stations := t.stations, requests := t.requests, verdicts := t.verdicts,
        attention := t.attention } ∧
      (∀ j, j ≠ k → t.station j = s.station j) ∧
      (s.unbindHold = some k ∨ (s.station k).inFlight.getLsbD q.toNat = true ∨
          (∃ a, (s.station k).answer = some a ∧ a.sequence = q ∧ a.sent = false) →
        t.requests = s.requests ∧ t.verdicts = s.verdicts ∧ t.attention = s.attention ∧
          (t.station k).inFlight = (s.station k).inFlight) ∧
      (s.unbindHold ≠ some k → (s.station k).inFlight.getLsbD q.toNat = false →
        (∀ a, (s.station k).answer = some a → a.sequence = q → a.sent = true →
          t.requests = s.requests ∧ t.attention = s.attention ∧
          (0 < s.freePlaces → t.verdicts = s.verdicts ++
            [⟨k, q, a.verdict, if a.verdict = .deny then a.reason else none, true, none⟩]) ∧
          (s.freePlaces = 0 → t.verdicts = s.verdicts)) ∧
        ((∀ a, (s.station k).answer = some a → a.sequence ≠ q) →
          t.verdicts = s.verdicts ∧
          (s.requests.length < 16 → t.requests = s.requests ++ [⟨k, q, side, c⟩] ∧ t.attention = s.attention ∧
            (t.station k).inFlight = (s.station k).inFlight ||| BitVec.twoPow 16 q.toNat) ∧
          (16 ≤ s.requests.length → t.requests = s.requests ∧
            t.attention = s.attention ||| Cause.intakeOverrun.word)))

/-- A REPORT stores the entrance state, and ENTRANCE FORCED is raised when it becomes FORCED outside FIRE (the first
FORCED after no state at all too: log 49); an IDLE only marks the station heard. A frame that names another station,
or is of a station that has become FAULTED in its turn (log 17), uses up one frame of the turn and does nothing
else. A carrier is read half-bit by half-bit: one without a start delimiter is a disturbance; one that is a frame as
R183 has it sent, with any value in the two bits that are ignored, is that frame, whatever follows its end
delimiter; every other uses up one frame of the turn and does nothing else (a broken preamble too: log 61). -/
def Obligations.ReportsAndOtherFrames : Prop :=
  ∀ (s : State) (k left : Nat) (heard : Bool), s.inTurn k left heard → s.undamaged = true → s.tablesWf = true →
    (∀ c ∈ [Instr.report k .shut, .report k .opened, .report k .held, .report k .forced, .idle k],
      (s.station k).state ≠ .faulted → ∃ t, exec c s = .next t ∧
        t.cyclePlace = (if left ≤ 1 then s.turnAfter k else .turnOpen k (left - 1) true) ∧
        t.station k = { s.station k with
          state := .active, missed := 0,
          entrance := (match c with
            | .report _ e => some e
            | _ => (s.station k).entrance) } ∧
        (∀ j, j ≠ k → t.station j = s.station j) ∧
        t.attention = (if c = .report k .forced ∧ (s.station k).entrance ≠ some .forced ∧ s.mode ≠ .fire then
          s.attention ||| Cause.entranceForced.word else s.attention) ∧
        t = { s with cyclePlace := t.cyclePlace, stations := t.stations, attention := t.attention }) ∧
    (∀ c (unheard : Nat → Prop), (∀ j, unheard j ↔ j ≠ k ∨ (s.station k).state = .faulted) →
      (∃ j q side cred, unheard j ∧ c = Instr.request j q side cred) ∨ (∃ j e, unheard j ∧ c = Instr.report j e) ∨
        (∃ j, unheard j ∧ c = Instr.idle j) ∨
        (∃ line, c = Instr.discardedFrame line ∧ startDelimiter <:+: line ∧
          ∀ j ignored f behind, line ≠ FrameContent.sentBy j ignored f ++ behind) →
      (1 < left → exec c s = .next { s with cyclePlace := .turnOpen k (left - 1) heard }) ∧
      (left ≤ 1 → exec c s = exec .turnTimerExpiry s)) ∧
    (∀ line, ¬ startDelimiter <:+: line → exec (.discardedFrame line) s = exec .lineDisturbance s) ∧
    (∀ j ignored f behind,
      exec (.discardedFrame (FrameContent.sentBy j ignored f ++ behind)) s = exec (f.row j.toNat) s)

/-- SET MODE moves the override and derives the mode again: FIRE over LOCKDOWN over NORMAL. A change raises MODE CHANGE;
one to LOCKDOWN or FIRE gives a mode notice to three blocks and the command waits for it, with the mode right after
its operation as the one it will return (the model's choice, log 60). READ MODE changes nothing. -/
def Obligations.SetModeMovesTheOverride : Prop :=
  ∀ (s : State) (n : Nat) (force : Bool) (m : BuildingMode), s.accepts = true → n = field s.window.arg0 0 2 →
    m = (if s.fireLevel then .fire else if s.lockdownLevel || force then .lockdown else .normal) →
    (n ≠ 1 → n ≠ 2 → exec .setMode s = .next (answered 0x70 (.bare .badArgument) s)) ∧
    (n = (if force then 1 else 2) → s.override = force → exec .setMode s = .next (answered 0x70 (.bare .already) s)) ∧
    (n = (if force then 1 else 2) → s.override ≠ force → m = s.mode →
      exec .setMode s = .next { answered 0x70 (.okWith { arg0 := put 0 2 s.mode.code ||| put 8 2 s.mode.code }) s with
        override := force }) ∧
    (n = (if force then 1 else 2) → s.override ≠ force → m ≠ s.mode → m = .normal →
      exec .setMode s = .next { answered 0x70 (.okWith { arg0 := put 0 2 s.mode.code ||| put 8 2 0 }) s with
        override := force, mode := .normal, attention := s.attention ||| Cause.modeChange.word }) ∧
    (n = (if force then 1 else 2) → s.override ≠ force → m ≠ s.mode → m ≠ .normal →
      exec .setMode s = .next { accepted 0x70 s with
        override := force, mode := m, attention := s.attention ||| Cause.modeChange.word,
        notices := s.notices ++ modeNotices m true,
        work := some (.setMode s.mode m ⟨0, 0, 0⟩) }) ∧
    exec .readMode s = .next (answered 0x71 (.okWith
      { arg0 := put 0 2 s.mode.code ||| putBit 8 s.fireLevel ||| putBit 9 s.lockdownLevel ||| putBit 10 s.override }) s)

/-- A line is taken at its new level and the mode derived again; a change raises MODE CHANGE, and one to LOCKDOWN or
FIRE gives a mode notice. While the Mode Controller is off only the pin changes (RETAINED-ONLY supply: R151; RESETn
low: R179; a reset of a command under way: R171, log 51), for a pin and the level that the controller has taken are
two things of the model (log 20), and that the lines are taken as they stand when the reset ends (R153) is stated with
the resets. -/
def Obligations.LineLevelsDeriveTheMode : Prop :=
  ∀ (s : State) (line : AlarmLine) (b : Bool) (pin u : State) (m : BuildingMode),
    pin = (if line = .fire then { s with firePin := b } else { s with lockdownPin := b }) →
    u = (if line = .fire then { pin with fireLevel := b } else { pin with lockdownLevel := b }) →
    m = (if u.fireLevel then .fire else if u.lockdownLevel || u.override then .lockdown else .normal) →
    (s.awake = false → exec (.lineLevelChange line b) s = .next pin) ∧
    (s.awake = true → m = s.mode → exec (.lineLevelChange line b) s = .next u) ∧
    (s.awake = true → m ≠ s.mode →
      exec (.lineLevelChange line b) s = .next { u with
        mode := m, attention := s.attention ||| Cause.modeChange.word,
        notices := if m = .normal then s.notices else s.notices ++ modeNotices m false })

/-- READ HEALTH shows the flags and changes nothing; CLEAR HEALTH clears the six flags and retained-lost; ACKNOWLEDGE
TAMPER clears the tamper flag only once the clear has ended and the line is released. Refused, it changes nothing
but what its read of the tamper items corrects. -/
def Obligations.HealthAndTamperCommands : Prop :=
  ∀ (s u : State) (h : Health) (t : Tamper), s.accepts = true → h = s.health.value → t = s.tamper.value →
    u = (readTamper (accepted 0x7A s)).2 →
    (s.tamper.clean = true → u = accepted 0x7A s) ∧
    (s.health.clean = true → s.tamper.clean = true →
      exec .readHealth s = .next (answered 0x78 (.okWith
        { arg0 := putBit 0 h.grantCorrected ||| putBit 1 h.grantUncorrectable ||| putBit 2 h.barCorrected |||
            putBit 3 h.barUncorrectable ||| putBit 4 h.siteCorrected ||| putBit 5 h.siteUncorrectable |||
            putBit 8 h.retainedLost ||| putBit 9 t.flag ||| putBit 10 t.clearing ||| putBit 11 t.reclear |||
            putBit 12 s.tamperLine }) s)) ∧
    exec .clearHealth s = .next { answered 0x79 (.bare .ok) s with
      health := .of ⟨false, false, false, false, false, false, false⟩ } ∧
    (t.flag = false → exec .acknowledgeTamper s = .next { u with work := some (.ready (.bare .already)) }) ∧
    (t.flag = true → t.clearing = true ∨ t.reclear = true ∨ s.tamperLine = true →
      exec .acknowledgeTamper s = .next { u with work := some (.ready (.bare .wrongState)) }) ∧
    (t.flag = true → t.clearing = false → t.reclear = false → s.tamperLine = false →
      exec .acknowledgeTamper s = .next { u with
        tamper := .of { t with flag := false }, work := some (.ready (.bare .ok)) })

/-- An assertion of the tamper line starts a clear: flag set, CLEARING from slot 1, TAMPER raised, kept while RESETn is
low or a reset is under way, or deferred, notices given to the blocks that run. While CLEARING it is owed; a line
already asserted and a release change no tamper item. While CLEARING, in every supply state, the slot at the cursor
becomes FREE with its issue number kept, and the cursor moves on; after slot 1024, with every tamper notice taken
and no clear owed, the clear ends and the flag stays. That the cursor reads 1025 while a notice is outstanding, and
1 in IDLE, is the model's choice (log 16), and so is it that nothing is freed while CLEAR RETAINED is under way (log
51). -/
def Obligations.TamperClearEmptiesTheGrantTable : Prop :=
  (∀ (s : State), s.tamper.clean = true → s.deferred.clean = true →
     (s.tamperLine = true → exec .tamperAssertion s = .next s) ∧
     (s.tamperLine = false → s.tamper.value.clearing = true →
       exec .tamperAssertion s = .next { s with
         tamperLine := true, tamper := .of { s.tamper.value with reclear := true } }) ∧
     (s.tamperLine = false → s.tamper.value.clearing = false → s.awake = true →
       exec .tamperAssertion s = .next { s with
         tamperLine := true, tamper := .of ⟨true, true, false, 1⟩, markedTo := 0,
         attention := s.attention ||| Cause.tamper.word, notices := s.notices ++ tamperNotices }) ∧
     (s.tamperLine = false → s.tamper.value.clearing = false → s.supply = .full → s.awake = false →
       exec .tamperAssertion s = .next { s with
         tamperLine := true, tamper := .of ⟨true, true, false, 1⟩, markedTo := 0,
         resetCauses := s.resetCauses ||| Cause.tamper.word,
         notices := s.notices ++ [⟨.presencePool, .tamper, false⟩] }) ∧
     (s.tamperLine = false → s.tamper.value.clearing = false → s.supply = .retainedOnly →
       exec .tamperAssertion s = .next { s with
         tamperLine := true, tamper := .of ⟨true, true, false, 1⟩, markedTo := 0,
         deferred := .of (s.deferred.value ||| Cause.tamper.word),
         notices := s.notices ++ [⟨.presencePool, .tamper, false⟩] }) ∧
     exec .tamperRelease s = .next { s with tamperLine := false }) ∧
  (∀ (s : State) (t : Tamper), s.undamaged = true → s.tablesWf = true → t = s.tamper.value →
     (t.clearing = false ∨ 1024 < t.cursor ∨ s.work = some (.reset 0x7B) → exec .tamperSlotFree s = .next s) ∧
     (t.clearing = true → s.work ≠ some (.reset 0x7B) → t.cursor ≤ 1024 →
       ∃ u, exec .tamperSlotFree s = .next u ∧
         (u.slot t.cursor) = ⟨.of ⟨.free, (s.slot t.cursor).header.value.issue⟩, .of .empty⟩ ∧
         (∀ j, j ≠ t.cursor → u.slot j = s.slot j) ∧
         u.rooms = s.rooms ∧ u.presence = s.presence ∧ u.barEntries = s.barEntries ∧ u.stations = s.stations ∧
         u.clock = s.clock ∧ u.verdicts = s.verdicts ∧
         (t.cursor < 1024 → u.tamper = .of { t with cursor := t.cursor + 1 }) ∧
         (t.cursor = 1024 → (∃ o ∈ s.notices, o.notice = .tamper) →
           u.tamper = .of { t with cursor := 1025 }) ∧
         (t.cursor = 1024 → (∀ o ∈ s.notices, o.notice ≠ .tamper) → t.reclear = false →
           u.tamper = .of { t with clearing := false, cursor := 1 }) ∧
         (t.cursor = 1024 → (∀ o ∈ s.notices, o.notice ≠ .tamper) → t.reclear = true →
           u.tamper = .of ⟨true, true, false, 1⟩)))

/-- CLEAR RETAINED, at its completion, clears every retained item and resets every block: the machine is the one right
after reset, but for its pins, the lines as they stand, the code in STATUS, COMMAND DONE and a MODE CHANGE. Every
outstanding notice is dropped (log 7); the length of the second under way, the last MARK and the model's own count
of cuts stay (logs 43, 41 and 53). A reset under way (the model's form of its duration, log 51): CLEAR RETAINED and
DEVICE RESET, accepted, leave the port BUSY and every block quiet, with the causes raised meanwhile kept for the
reset's end; nothing else changes, but for a tamper clear in progress, which CLEAR RETAINED abandons, what its read
of the tamper items corrects, and a marking for the tamper notice that DEVICE RESET cuts short. A write to COMMAND
meanwhile only sets OVERRUN, which the reset clears. -/
def Obligations.ClearRetainedClearsEverything : Prop :=
  (∀ (s : State), s.portOn = true → s.work = some (.reset 0x7B) →
     exec .commandCompletion s = .next { State.reset with
       firePin := s.firePin, lockdownPin := s.lockdownPin, tamperLine := s.tamperLine, markSent := s.markSent,
       spiOut := s.spiOut, secondLength := s.secondLength, pending := s.pending, cuts := s.cuts,
       fireLevel := s.firePin, lockdownLevel := s.lockdownPin,
       mode := if s.firePin then .fire else if s.lockdownPin then .lockdown else .normal,
       lastCommand := 0x7B,
       attention := s.resetCauses ||| Cause.commandDone.word |||
         (if s.firePin || s.lockdownPin then Cause.modeChange.word else 0) }) ∧
  (∀ (s : State) (row : Instr) (code : BitVec 8), s.accepts = true →
     (row = .clearRetained ∧ code = 0x7B) ∨ (row = .deviceReset ∧ code = 0x7F) →
     ∃ t, exec row s = .next t ∧ t.portBusy = true ∧ t.overrun = false ∧ t.lastCommand = code ∧
       t.work = some (.reset code) ∧ t.awake = false ∧
       (row = .deviceReset → (∀ o ∈ s.notices, o.receiver = .presencePool → o.notice ≠ .tamper) →
         t = { accepted code s with work := some (.reset code) }) ∧
       (row = .clearRetained → s.tamper.value.clearing = false →
         t = { (readTamper (accepted code s)).2 with work := some (.reset code) }) ∧
       (s.tamper.clean = true → (readTamper (accepted code s)).2 = accepted code s) ∧
       (row = .clearRetained → s.tamper.value.clearing = true →
         t = { (readTamper (accepted code s)).2 with
           work := some (.reset code), tamper := .of ⟨s.tamper.value.flag, false, false, 1⟩, markedTo := 0,
           notices := s.notices.filter (fun o => decide (o.notice ≠ .tamper)) }) ∧
       (row = .clearRetained → ∀ b, exec (.tamperNotice b) t = .next t) ∧
       (∀ c : Cause, (raise c t) = { t with resetCauses := t.resetCauses ||| c.word }) ∧
       (∀ word, exec (.commandWriteWhileBusy word) t = .next { t with overrun := true }) ∧
       ∃ u, exec .commandCompletion { t with overrun := true } = .next u ∧ u.overrun = false ∧ u.portBusy = false ∧
         u.lastCommand = code)

/-- DEVICE RESET, at its completion, keeps the retained items: the UNSENT presence records leave, the uses they and
the claims in hand took are given back, and every other grant, room and SENT record stays as it was, but for what the
removals do to places, escort counts and UNESCORTED. A pending trim is cancelled (R26). The tamper items stay too, but
where the reset ends the clear in progress: all slots freed, no marking owed, and the notices to the blocks that the
reset empties counted as taken (log 27). Then the clear is IDLE, the flag as it was, or begins again from its first
step where one is owed. A marking for the tamper notice is cut at the acceptance (log 53). Every block takes its reset
value, the lines are taken, the link starts where auto-start is set and a sweep where the clock is SET; ATTENTION is
emptied and COMMAND DONE latched beside the causes the reset itself raises and those raised while it was under way. -/
def Obligations.DeviceResetKeepsTheRetainedItems : Prop :=
  ∀ (s : State), s.accepts = true → s.undamaged = true → s.tablesWf = true →
    ∃ u t, exec .deviceReset s = .next u ∧ markedSome { accepted 0x7F s with work := some (.reset 0x7F) } u ∧
      exec .commandCompletion u = .next t ∧ blocksReset t ∧ resetKeeps u t ∧ t.deferred = s.deferred ∧ linesTaken t ∧
      t.lastCommand = 0x7F ∧ t.latched .commandDone = true ∧
      (∀ c : Cause, t.latched c = true → c = .commandDone ∨ c = .modeChange ∨ c = .tamper ∨ c = .presenceAlert ∨
        s.resetCauses.getLsbD c.bit = true) ∧
      (∀ c : Cause, s.resetCauses.getLsbD c.bit = true → t.latched c = true) ∧
      t.linkState = (if s.linkConfig.value.autoStart then .running else .stopped) ∧
      t.sweep = (if s.clock.value.isSet then some ⟨1, s.clock.value.calendar.minute⟩ else none) ∧ t.resweep = false ∧
      t.firePin = s.firePin ∧ t.lockdownPin = s.lockdownPin ∧ t.tamperLine = s.tamperLine ∧ t.pending = s.pending

/-- RESETn low resets the part, keeps the retained items as a device reset does, the UNSENT records removed, the uses
given back, a pending trim cancelled and a tamper clear with nothing left to do ended (log 27), and keeps it quiet:
the port, the link and the lines are not served and ATTENTION is empty. RESETn high resumes the blocks and latches the
causes raised meanwhile (kept apart until then: log 21). A row that finds the pin at its level does nothing (log 3).
At a main supply failure every item that is not retained is lost and the retained items stay, claims in hand and
UNSENT records included, as the operation it cuts short has left them (logs 53, 56); the part is then off. The lost
items stand at their reset values (the model's choice, log 31); a failure in RETAINED-ONLY supply does nothing (log
3). A failure of the main supply, or a device reset, may cut a walk of the Presence Pool short: whether, and where, is
the free value Config.cutOf, for each of whose values this holds. The records in use it has reached are marked, the
others stand as they were; a locate, and RETIRE GRANT's question, only read. A marking for the tamper notice is then
completed from where it stopped: its position and its notice stay. The failure cuts other operations on many records
likewise (log 56): a withdrawal or removal by the Decision Engine, and the permit of a decision in hand, between two
records or uses; RESET CENSUS from the tail of the list, the room last; CLEAR BAR LIST before or after the whole list;
DEVICE RESET's removals and returns; CLEAR RETAINED in the order of R171's table, but the clock behind the slots,
which so never stand beside an UNSET clock; the confirmations of a MARK. Within a removal or an admission (its claim
may carry OVERSTAY, log 59) the failure cuts the setting or the clearing of UNESCORTED between two records: the record
that left or entered, and the escort count, come first, then the records of the list by rising number. -/
def Obligations.ResetPinAndSupplyFailure : Prop :=
  (∀ (s : State), s.supply = .full → s.undamaged = true → s.tablesWf = true →
     (s.resetLow = true → exec .resetnLow s = .next s) ∧
     (s.resetLow = false → exec .resetnHigh s = .next s) ∧
     (s.resetLow = false →
       ∃ u t, markedSome { s with resetLow := true } u ∧ exec .resetnLow s = .next t ∧ blocksReset t ∧ retainedKept s t ∧
         resetKeeps u t ∧ t.deferred = s.deferred ∧ t.resetLow = true ∧ t.awake = false ∧
         t.atn = false ∧ t.latches = 0 ∧ t.lastCommand = 0 ∧ t.linkState = .stopped ∧ t.sweep = none ∧
         t.mode = .normal ∧ t.fireLevel = false ∧ t.lockdownLevel = false) ∧
     (s.resetLow = true → s.resetting = false →
       ∃ t, exec .resetnHigh s = .next t ∧ t.resetLow = false ∧ t.awake = true ∧ t.resetCauses = 0 ∧
         (∀ c : Cause, s.latched c = true ∨ s.resetCauses.getLsbD c.bit = true → t.latched c = true) ∧
         linesTaken t ∧
         t.linkState = (if s.linkConfig.value.autoStart then .running else s.linkState) ∧
         (s.clock.value.isSet = true → s.sweep = none → t.sweep = some ⟨1, s.clock.value.calendar.minute⟩) ∧
         t = { s with
           resetLow := t.resetLow, attention := t.attention, resetCauses := t.resetCauses, linkState := t.linkState,
           mode := t.mode, fireLevel := t.fireLevel, lockdownLevel := t.lockdownLevel, sweep := t.sweep,
           resweep := t.resweep })) ∧
  (∀ (s reached : State), s.undamaged = true → s.tablesWf = true →
     reached = (if s.cutDue then cutOperation (Config.cutOf s.cuts) s else s) →
     (s.cutDue = false ∨ Config.cutOf s.cuts = none → reached = s) ∧
     (s.supply = .retainedOnly → exec .mainSupplyFail s = .next s) ∧
     (s.supply = .full →
       ∃ t, exec .mainSupplyFail s = .next t ∧ t.supply = .retainedOnly ∧ t.awake = false ∧ blocksReset t ∧
         t.latches = 0 ∧ t.linkState = .stopped ∧ t.sweep = none ∧ t.mode = .normal ∧ sameRetained reached t ∧
         (reached.tamper.value.clearing = false → t.tamper = reached.tamper ∧ t.deferred = reached.deferred))) ∧
  (∀ (s : State) (n : Notice) (cmd : Bool) (l1 l2 : List Outstanding),
     s.awake = true → s.undamaged = true → s.tablesWf = true → s.markedTo = 0 → s.oldest l1 .presencePool n cmd l2 →
     (∀ cut : Cut, n.walk = some cut.walk → ∀ t, t = cutWalk (some cut) s →
       (∀ id, (t.record id).index = (s.record id).index ∧ (t.record id).body.value = cutBody n (some cut) s id) ∧
       t.markedTo = cutPosition n (some cut) s) ∧
     ((∀ o ∈ l1 ++ l2, o.receiver ≠ .presencePool ∧ o.receiver ≠ .decisionEngine) → s.seat = none → s.work = none →
       s.linkState = .stopped →
       ∃ t, exec .mainSupplyFail s = .next t ∧
         (∀ id, (t.record id).index = (s.record id).index ∧
           (t.record id).body.value = cutBody n (Config.cutOf s.cuts) s id) ∧
         t.markedTo = cutPosition n (Config.cutOf s.cuts) s) ∧
     (n = .tamper → (∀ id ∈ s.inUseRecords, (s.index id).sent = true) →
       ∃ t cut, exec .resetnLow s = .next t ∧ cut = (Config.cutOf s.cuts).map (fun c => (⟨.tamper, c.reached⟩ : Cut)) ∧
         (∀ id, (t.record id).body.value = cutBody n cut s id) ∧ t.markedTo = cutPosition n cut s ∧
         ∃ o ∈ t.notices, o.receiver = .presencePool ∧ o.notice = .tamper)) ∧
  (∀ (s t : State) (w : Walk) (n : Nat), s.undamaged = true → s.tablesWf = true → t = cutOperation (some ⟨w, n⟩) s →
     (∀ x cmd l1 l2 which, s.awake = true → s.oldest l1 .decisionEngine x cmd l2 → x.engineWalk = some w →
       (∃ hit r, withdrawal x = some (hit, r) ∧ which = fun e => e.permit.any hit) ∨
         (∃ k, x = .loss k ∧ which = fun e => decide (e.station = k)) ∨ (x = .stop ∧ which = fun _ => true) →
       undoneInPart n (s.partsOf which) s t) ∧
     (∀ d, s.awake = true → w = .decision → s.seat = some d →
       d.abandoned = true ∨ (d.phase = .placement ∧ s.placementReason d ≠ none) ∨
         (∃ n r, d.work = .answer n ∧ d.phase = .answerEnd (some r)) ∨
         (d.phase = .escortRead ∧ ∀ closed b, (s.room d.room).view = .readable closed b → b.escorts = 0) →
       undoneInPart n (PermitData.parts ⟨d.claims, [], d.records⟩) s t) ∧
     (w = .retire → t = s) ∧
     (w = .command → s.portOn = true →
       (∀ r, s.work = some (.handed 0x37) → r = field s.window.arg0 0 8 → r ≤ 63 → (s.room r).header.value ≠ .undefined →
         (∀ id, (s.index id).inUse = true → (s.index id).room = r → (s.index id).sent = true) →
         ∃ ids, fromTheTail ids s ∧ ids.Nodup ∧
           (∀ id, id ∈ ids ↔ (s.index id).inUse = true ∧ (s.index id).room = r) ∧
           (∀ id, t.record id = if id ∈ ids.take n then .free else s.record id) ∧
           (∀ j, j ≠ r ∨ n ≤ ids.length → t.room j = s.room j) ∧
           (∀ closed b, (s.room r).view = .readable closed b → ids.length < n →
             (t.room r).body.value = { b with escorts := 0, suspect := false }) ∧ t.grants = s.grants) ∧
       (s.work = some (.handed 0x4B) →
         t = if n ≤ min s.barHeader.value.count s.barEntries.length then s
           else { s with barEntries := [], barHeader := .of ⟨0, false, []⟩ }) ∧
       (s.work = some (.reset 0x7F) →
         ∃ m k, removedUnsent (s.unsentRecords.take m) s t ∧ givenBack (s.claimsGivenBack.take k) s t ∧
           t.clock = s.clock ∧ t.barEntries = s.barEntries ∧ t.linkConfig = s.linkConfig ∧ t.tamper = s.tamper ∧
           (m = 0 ∨ s.seat.any (fun d => d.records.isEmpty) = false ∨ (s.seat.map (·.claims.length)).getD 0 ≤ k)) ∧
       (s.work = some (.reset 0x7B) →
         (∀ j, t.slot j = s.slot j ∨ t.slot j = .cleared) ∧ (∀ r, t.room r = s.room r ∨ t.room r = .cleared) ∧
         (∀ id, t.record id = s.record id ∨ t.record id = .free) ∧
         (t.barEntries = s.barEntries ∧ t.barHeader = s.barHeader ∨ t.barEntries = [] ∧ t.barHeader = .of ⟨0, false, []⟩) ∧
         (t.clock = s.clock ∨ t.clock = .of ⟨⟨⟨2000, 1, 1, 0, 0⟩, 0⟩, false⟩ ∧ t.grants = []) ∧
         (t.barEntries ≠ s.barEntries → t.grants = []) ∧ (t.rooms ≠ s.rooms → t.barEntries = []) ∧
         (t.presence ≠ s.presence → t.rooms = []) ∧ (t.linkConfig ≠ s.linkConfig → t.presence = []) ∧
         (∀ x y, t.record x ≠ s.record x → t.record y = s.record y → (s.index y).inUse = true →
           (s.index y).place ≤ (s.index x).place))) ∧
     (w = .mark → s.awake = true → s.linkState = .running → s.cyclePlace = .markDue → ∀ records,
       records = (s.verdicts.take 8).flatMap (fun e => match e.permit with
         | none => []
         | some p => p.records) →
       ∀ id, t.slot id = s.slot id ∧ (t.index id).inUse = (s.index id).inUse ∧
         ((t.index id).sent = true ↔ (s.index id).sent = true ∨ ((s.index id).inUse = true ∧ id ∈ records.take n)))) ∧
  (∀ (s t : State) (w : Walk) (n r id : Nat) (closed : Bool) (b : RoomBody), s.undamaged = true → s.tablesWf = true →
     t = cutOperation (some ⟨w, n⟩) s → (s.room r).view = .readable closed b → b.cls = .escorted →
     (w = .command → s.portOn = true → s.work = some (.handed 0x36) → r = roomArg s.window → r < 64 →
       (s.window.arg0.getLsbD 8 = true → 1 ≤ s.window.arg1.toNat ∧ s.window.arg1.toNat ≤ 32) →
       (s.window.arg0.getLsbD 8 = false → (s.window.arg2.truncate 8 ++ s.window.arg1 : BitVec 40) ≠ 0) →
       namedRecord s r = some id → (s.index id).sent = true → (s.index id).role = .escort → b.escorts = 1 →
       (n = 0 → t = s) ∧
       (1 ≤ n → t.record id = .free ∧ (t.room r).body.value = { b with escorts := 0 } ∧ ∀ k, k ≠ id →
         (t.record k).body.value = (if k ∈ (s.contractors r).take (n - 1) ∧ (s.index k).faulted = false then
           { (s.record k).body.value with conditions := { (s.record k).body.value.conditions with unescorted := true } }
         else (s.record k).body.value))) ∧
     (∀ d c h, w = .decision → s.awake = true → s.seat = some d → d.abandoned = false → d.phase = .admission → d.room = r →
       d.holding = .none → d.claims = [c] → d.own.found = some (h, .escort) →
       (admission r [⟨d.credential, .escort, c.handle, c.useTaken, d.station, none, decide (c.handle ∈ d.overstayed)⟩] s).1 = .ok [id] →
       (n = 0 → t = s) ∧
       (1 ≤ n → (t.index id).inUse = true ∧ (t.room r).body.value = { b with escorts := b.escorts + 1 } ∧ ∀ k, k ≠ id →
         (t.record k).body.value = (if k ∈ (s.roomRecords r).take (n - 1) ∧ (s.index k).faulted = false then
           { (s.record k).body.value with conditions := { (s.record k).body.value.conditions with unescorted := false } }
         else (s.record k).body.value))))

/-- At the return of the main supply the check pattern decides: held, the retained items stay as a device reset leaves
them, the UNSENT records removed, their uses given back, a pending trim cancelled and a tamper clear ended, or begun
again, where nothing of it is left to do (log 27); lost, every item is cleared and retained-lost is set. The deferred
causes and SUPPLY RETURN are latched and the blocks resume; with RESETn low they stay quiet, and the causes are kept,
until it goes high (log 36). That the row says whether the backup cell held, which decides the pattern's test, is
log 30; in FULL supply it does nothing (log 3). A marking for the tamper notice may have come further meanwhile (log
53). -/
def Obligations.SupplyReturnTestsThePattern : Prop :=
  ∀ (s : State) (held : Bool), s.undamaged = true → s.tablesWf = true →
    (s.supply = .full → exec (.supplyReturn held) s = .next s) ∧
    (s.supply = .retainedOnly →
      ∃ u t, markedSome s u ∧ exec (.supplyReturn held) s = .next t ∧ t.supply = .full ∧ t.resetLow = s.resetLow ∧
        t.awake = !s.resetLow ∧ blocksReset t ∧ t.causeKept .supplyReturn = true ∧ t.deferred.value = 0 ∧
        t.lastCommand = 0 ∧ t.checkPattern = true ∧ t.resweep = false ∧
        (s.resetLow = false → linesTaken t) ∧
        (s.resetLow = true → t.latches = 0 ∧ t.mode = .normal ∧ t.fireLevel = false ∧ t.lockdownLevel = false) ∧
        (held = true → s.checkPattern = true → resetKeeps u t ∧
          (∀ c : Cause, u.deferred.value.getLsbD c.bit = true → t.causeKept c = true) ∧
          t.linkState = (if s.linkConfig.value.autoStart && !s.resetLow then .running else .stopped) ∧
          t.sweep = (if s.clock.value.isSet && !s.resetLow then some ⟨1, s.clock.value.calendar.minute⟩ else none)) ∧
        (held = false ∨ s.checkPattern = false →
          t.health.value = ⟨false, false, false, false, false, false, true⟩ ∧ t.grants = [] ∧ t.rooms = [] ∧
          t.presence = [] ∧ t.barEntries = [] ∧ t.barHeader.value = ⟨0, false, []⟩ ∧ t.stations = [] ∧
          t.clock.value = ⟨⟨⟨2000, 1, 1, 0, 0⟩, 0⟩, false⟩ ∧ t.pairWindow.value = 20 ∧ t.referralTimeout.value = 60 ∧
          t.linkConfig.value = ⟨8, 48, 24, 16, false⟩ ∧ t.tamper.value = ⟨false, false, false, 1⟩ ∧
          t.linkState = .stopped ∧ t.sweep = none))

/-- The Pair Table takes a notice: the OPEN contexts it reaches close, their reservations turning into DENY entries at
the tail, in slot order (the model's choice, log 24), or freed for a no-verdict cause, or where the station's part
of the Verdict Queue has been emptied already (log 52); a HELD one records the cause. The station table is told of
each: the answer record becomes the DENY, or leaves where it is open; one of another sequence that is not open stays
(log 19). The Referral Queue takes a notice: the WAITING and TAKEN approvals it reaches leave, oldest first (log
24), their reservations turning into DENY entries or freed; an OPENING or ANSWERING one records the cause; hot cards
stay. A no-verdict cause replaces a recorded reason, else the first cause stands. The answer records follow
likewise. -/
def Obligations.ContextsAndApprovalsCloseOnNotices : Prop :=
  (∀ (s : State) (n : Notice) (cmd : Bool) (l1 l2 : List Outstanding) (which : PairContext → Bool) (cause : ClosureCause)
     (closed : List (Nat × Sequence)),
     s.awake = true → s.undamaged = true → s.tablesWf = true → s.oldest l1 .pairTable n cmd l2 →
     pairClosure n = some (which, cause) → closed = (numbersFrom 1 8).filterMap (closesPair which s) →
     ∃ t, exec (noticeRow n .pairTable) s = .next t ∧
       (∀ slot, 1 ≤ slot → slot ≤ 8 → t.pair slot = (match s.pair slot with
         | none => none
         | some c => if which c = true then
             (if c.held then some { c with closure := recordClosure c.closure cause } else none) else some c)) ∧
       t.verdicts = s.verdicts ++ closureEntries s .pairTable cause closed ∧
       (∀ k, t.station k = { s.station k with answer := answerAfterClosures s .pairTable cause closed k }) ∧
       (n ≠ .tamper → t.notices = l1 ++ l2 ∧ t.attention = s.attention) ∧
       ((∃ h, n = .revoke h) ∨ (∃ c, n = .bar c) ∨ (∃ m, n = .mode m) → cmd = true →
         t.work = s.work.map (fun w => w.add ⟨0, closed.length, 0⟩)) ∧
       t.referrals = s.referrals ∧ t.requests = s.requests ∧ t.seat = s.seat ∧ t.grants = s.grants ∧
       t.rooms = s.rooms ∧ t.presence = s.presence) ∧
  ((∀ (s : State) (n : Notice) (cmd : Bool) (l1 l2 : List Outstanding) (which : ReferralEntry → Handle → Bool)
     (cause : ClosureCause) (closed : List (Nat × Sequence)),
     s.awake = true → s.undamaged = true → s.queuesOk = true → s.oldest l1 .referralQueue n cmd l2 →
     approvalClosure n = some (which, cause) → closed = s.referrals.filterMap (closesApproval which) →
     ∃ t, exec (noticeRow n .referralQueue) s = .next t ∧
       t.referrals = s.referrals.filterMap (afterClosure which cause) ∧
       t.verdicts = s.verdicts ++ closureEntries s .referralQueue cause closed ∧
       (∀ k, t.station k = { s.station k with answer := answerAfterClosures s .referralQueue cause closed k }) ∧
       (n ≠ .tamper → t.notices = l1 ++ l2 ∧ t.attention = s.attention) ∧
       ((∃ h, n = .revoke h) ∨ (∃ c, n = .bar c) ∨ (∃ m, n = .mode m) → cmd = true →
         t.work = s.work.map (fun w => w.add ⟨0, closed.length, 0⟩)) ∧
       t.pairs = s.pairs ∧ t.requests = s.requests ∧ t.seat = s.seat ∧ t.grants = s.grants ∧
       t.rooms = s.rooms ∧ t.presence = s.presence) ∧
   (∀ new, recordClosure none new = some new) ∧
   (∀ old new : ClosureCause, recordClosure (some old) new =
     (if old.reason ≠ none ∧ new.reason = none then some new else some old)))

/-- The Decision Engine takes a notice: every unsent permit it reaches becomes a DENY in its place, and the command that
gave the notice counts them; a loss or stop notice removes entries outright and abandons the decision in hand; a
revoke notice marks it for its claims, a bar notice for the request's credential or the first card's of a
completion. A bar notice goes on to the Presence Pool. Either way exactly the UNSENT records of the permits reached
are removed, and each use they took is given back. The Request Queue drops the requests of a lost station, or all,
and their sequences leave the in-flight sets. A row whose notice is not outstanding does nothing (the model's
choice, log 3), and a notice waits for none of another kind (log 55). -/
def Obligations.EngineAndQueueTakeNotices : Prop :=
  ∀ (s : State), s.awake = true → s.undamaged = true → s.tablesWf = true →
    (∀ n cmd l1 l2 hit r, s.oldest l1 .decisionEngine n cmd l2 → withdrawal n = some (hit, r) →
      ∃ t, exec (noticeRow n .decisionEngine) s = .next t ∧
        t.verdicts = s.verdicts.map (afterWithdrawal hit r) ∧
        removedUnsent (recordsOf (fun e => e.permit.any hit) s) s t ∧
        givenBack (claimsOf (fun e => e.permit.any hit) s) s t ∧
        t.work = (if cmd = true ∧ n ≠ .tamper then
          s.work.map (fun w => w.add ⟨(s.verdicts.filter (fun e => e.permit.any hit)).length, 0, 0⟩) else s.work) ∧
        (∀ c, n = .bar c → t.notices = l1 ++ l2 ++ [⟨.presencePool, .bar c, cmd⟩]) ∧
        ((∃ h, n = .revoke h) ∨ (∃ m, n = .mode m) → t.notices = l1 ++ l2) ∧
        (∀ h, n = .revoke h → t.seat = s.seat.map (fun d =>
          if (d.claims.any (fun c => decide (c.handle = h))) = true ∧ d.mark = none then
            { d with mark := some .revoked } else d)) ∧
        (∀ c d, n = .bar c → s.seat = some d →
          (s.decides d c → d.mark = none → t.seat = some { d with mark := some .barred }) ∧
          (¬ s.decides d c ∨ d.mark ≠ none → t.seat = some d)) ∧
        ((∃ m, n = .mode m) ∨ n = .tamper ∨ s.seat = none → t.seat = s.seat) ∧
        t.pairs = s.pairs ∧ t.referrals = s.referrals ∧ t.requests = s.requests) ∧
    (∀ cmd l1 l2, s.oldest l1 .decisionEngine (.mode .fire) cmd l2 →
      exec (.modeNotice .decisionEngine) s = .next { s with
        notices := l1 ++ l2, work := if cmd then s.work.map (fun w => w.add ⟨0, 0, 0⟩) else s.work }) ∧
    (∀ n cmd l1 l2 gone, s.oldest l1 .decisionEngine n cmd l2 →
      (∃ k, n = .loss k ∧ gone = fun j => decide (j = k)) ∨ (n = .stop ∧ gone = fun _ => true) →
      ∃ t, exec (noticeRow n .decisionEngine) s = .next t ∧
        t.verdicts = s.verdicts.filter (fun e => !gone e.station) ∧
        removedUnsent (recordsOf (fun e => gone e.station) s) s t ∧ givenBack (claimsOf (fun e => gone e.station) s) s t ∧
        t.seat = s.seat.map (fun d => if gone d.station then { d with abandoned := true } else d) ∧
        t.pairs = s.pairs ∧ t.referrals = s.referrals ∧ t.requests = s.requests ∧ t.notices = l1 ++ l2) ∧
    (∀ n cmd l1 l2 gone, s.oldest l1 .requestQueue n cmd l2 →
      (∃ k, n = .loss k ∧ gone = fun j => decide (j = k)) ∨ (n = .stop ∧ gone = fun _ => true) →
      ∃ t, exec (noticeRow n .requestQueue) s = .next t ∧ t.requests = s.requests.filter (fun r => !gone r.station) ∧
        t = { s with notices := l1 ++ l2, requests := t.requests, stations := t.stations } ∧
        (∀ k, t.station k = { s.station k with inFlight := (t.station k).inFlight } ∧
          ∀ q : Sequence, (t.station k).inFlight.getLsbD q.toNat = true ↔
            (s.station k).inFlight.getLsbD q.toNat = true ∧
              ¬ ∃ r ∈ s.requests, gone r.station = true ∧ r.station = k ∧ r.sequence = q)) ∧
    (∀ n b, (∀ o ∈ s.notices, o.receiver = b → noticeRow o.notice b ≠ noticeRow n b) →
      b = .presencePool ∨ ((∀ c, n ≠ .unbar c) ∧ ∀ h, n ≠ .overstay h) →
      exec (noticeRow n b) s = .next s)

/-- The Presence Pool takes a revoke, overstay, bar, unbar or tamper notice: exactly the conditions it names change, on
records in use that can be read; no record leaves, moves or changes its index part. A condition newly set on a SENT
record raises PRESENCE ALERT, OVERSTAY on an UNSENT one too; clearing raises nothing. The command that gave the
notice counts the SENT records marked, or the records cleared. A marking for the tamper notice that a reset cut
short goes on from where it stopped, and then starts afresh. An overstay notice reaches the claims in hand whose
records are yet to be admitted, too: each gets its record with OVERSTAY, and PRESENCE ALERT, at its admission (that
the decision in hand keeps it meanwhile is log 59). -/
def Obligations.PresencePoolTakesNotices : Prop :=
  ∀ (s : State) (n : Notice) (cmd : Bool) (l1 l2 : List Outstanding), s.awake = true → s.undamaged = true →
    s.tablesWf = true → s.oldest l1 .presencePool n cmd l2 →
    (∃ h, n = .revoke h) ∨ (∃ h, n = .overstay h) ∨ (∃ c, n = .bar c) ∨ (∃ c, n = .unbar c) ∨ n = .tamper →
    ∃ t, exec (noticeRow n .presencePool) s = .next t ∧
      (∀ id, (t.record id).index = (s.record id).index ∧ (t.record id).body.value = markedBody n s id) ∧
      (n ≠ .tamper → t.notices = l1 ++ l2) ∧ (n = .tamper → t.markedTo = 0) ∧
      ((∃ h, n = .revoke h) ∨ (∃ c, n = .bar c) →
        (∃ id, markedBody n s id ≠ (s.record id).body.value ∧ (s.index id).sent = true) →
        t.attention = s.attention ||| Cause.presenceAlert.word) ∧
      ((∃ h, n = .revoke h) ∨ (∃ c, n = .bar c) ∨ (∃ c, n = .unbar c) →
        (∀ id, markedBody n s id ≠ (s.record id).body.value → (s.index id).sent = false) →
        t.attention = s.attention) ∧
      (∀ c, n = .unbar c → t.attention = s.attention) ∧
      (∀ h, n = .overstay h →
        t.attention = (if s.changedBy n = [] then s.attention else s.attention ||| Cause.presenceAlert.word)) ∧
      (n = .tamper → (s.clearsASentRecord → t.latched .presenceAlert = true) ∧
        (¬ s.clearsASentRecord → t.latched .presenceAlert = s.latched .presenceAlert)) ∧
      ((∃ h, n = .revoke h) ∨ (∃ c, n = .bar c) ∨ (∃ c, n = .unbar c) → cmd = true →
        t.work = s.work.map (fun w => w.add ⟨0, 0, (s.countedBy n).length⟩)) ∧
      (cmd = false ∨ (∃ h, n = .overstay h) ∨ n = .tamper → t.work = s.work) ∧
      ((∀ h, n ≠ .overstay h) ∨ s.seat = none → t.seat = s.seat) ∧
      (∀ h d, n = .overstay h → s.seat = some d → ∃ reached,
        t.seat = some { d with overstayed := reached } ∧
        ∀ g, g ∈ reached ↔ g ∈ d.overstayed ∨ (g = h ∧ d.records = [] ∧ ∃ c ∈ d.claims, c.handle = h)) ∧
      t.rooms = s.rooms ∧ t.grants = s.grants ∧ t.verdicts = s.verdicts ∧ t.pairs = s.pairs ∧
      t.referrals = s.referrals

/-- An IDLE seat takes the head of the Request Queue where two places are free and no answer check waits, with the
present calendar minute and two held places; else nothing happens. It is abandoned from the start where the Decision
Engine has taken the notice that is to remove the entry (log 52). An abandoned request ends without a verdict and
its sequence leaves the in-flight set, but where the queue holds another request with it. Before any check an entry
asks for the open context at its station: the same card goes on to its HOLD, another card makes the context HELD and
completes it. Where there is no context, and for every exit, what is open at the station is superseded: contexts and
approvals leave without a verdict, an ANSWERING approval at once, with TOO LATE (the model's reading, log 54). -/
def Obligations.SeatTakesTheHead : Prop :=
  (∀ (s : State), s.awake = true → s.undamaged = true →
     (∀ r rest, s.headIs r rest →
       ∃ d : Decision, exec (.takeRequest (some 0)) s = .next { s with requests := rest, seat := some d } ∧
         d.work = .request r.side ∧ d.station = r.station ∧ d.sequence = r.sequence ∧ d.credential = r.credential ∧
         d.time = s.clock.value.calendar.minute ∧ d.heldPlaces = 2 ∧ d.claims = [] ∧ d.records = [] ∧ d.overstayed = [] ∧ d.mark = none ∧
         d.abandoned = s.endedAt .requestQueue r.station ∧ d.holding = .none ∧ d.phase = .stationQuery) ∧
     (∀ pause, s.seat = none → s.requests = [] ∨ s.freePlaces < 2 ∨
         (∃ e ∈ s.referrals, ∃ h n c, e.kind = .approval h .answering n c) →
       exec (.takeRequest pause) s = .next s) ∧
     (∀ d side, s.seat = some d → d.work = .request side → d.abandoned = true → d.holding = .none → d.claims = [] →
       d.records = [] →
       ((∃ r ∈ s.requests, r.station = d.station ∧ r.sequence = d.sequence) →
         exec (.takeRequest none) s = .next { s with seat := none }) ∧
       ((∀ r ∈ s.requests, r.station = d.station → r.sequence ≠ d.sequence) →
         exec (.takeRequest none) s = .next { s with
           seat := none,
           stations := Table.set Station.cleared s.stations d.station { s.station d.station with
             inFlight := (s.station d.station).inFlight &&& ~~~(BitVec.twoPow 16 d.sequence.toNat) } }))) ∧
  (∀ (s : State) (d : Decision) (side : Side) (go : Outcome), s.deciding d side .stationQuery → s.tablesWf = true →
     s.queuesOk = true → go = exec (.takeRequest (some 1)) s →
     (∀ k c, side = .outside → 1 ≤ k → k ≤ 8 → s.pair k = some c → c.station = d.station →
       (∀ j b, 1 ≤ j → j < k → s.pair j = some b → b.station ≠ d.station) →
       (c.credential = d.credential → go = .next (goesOn d .sameCard s)) ∧
       (c.credential ≠ d.credential → go = .next (goesOn { d with holding := .completing k } .station
         { s with pairs := Table.set none s.pairs k (some { c with held := true }) }))) ∧
     (side = .inside ∨ (∀ slot c, 1 ≤ slot → slot ≤ 8 → s.pair slot = some c → c.station ≠ d.station) →
       (∀ slot c, s.pair slot = some c → c.station = d.station → c.held = false) →
       (∀ e ∈ s.referrals, e.station = d.station → ∀ h n cl, e.kind ≠ .approval h .opening n cl) →
       (∀ e ∈ s.referrals, ∀ e' ∈ s.referrals, ∀ h n cl h' n' cl', e.kind = .approval h .answering n cl →
         e'.kind = .approval h' .answering n' cl' → e = e') →
       ∃ t, go = .next t ∧
         t.seat = some { d with phase := (match side with
           | .inside => .exitStation
           | .outside => .station) } ∧
         (∀ slot, 1 ≤ slot → slot ≤ 8 → t.pair slot = (s.pair slot).filter (fun c => decide (c.station ≠ d.station))) ∧
         t.referrals = s.referrals.filter (fun e => !(e.isApproval && decide (e.station = d.station))) ∧
         t.verdicts = s.verdicts ∧
         (s.nothingOpenAt d.station → t.stations = s.stations) ∧
         (¬ s.nothingOpenAt d.station →
           (t.station d.station).answer = freedAnswer (s.station d.station).answer) ∧
         ((∃ e ∈ s.referrals, e.station = d.station ∧ ∃ h n cl, e.kind = .approval h .answering n cl) →
           (∃ n, s.work = some (.answer n)) → t.work = some (.ready { code := .tooLate })) ∧
         ((∀ e ∈ s.referrals, e.station = d.station → ∀ h n cl, e.kind ≠ .approval h .answering n cl) →
           t.work = s.work) ∧
         t.grants = s.grants ∧ t.rooms = s.rooms ∧ t.presence = s.presence ∧ t.requests = s.requests ∧
         t.attention = s.attention))

/-- Each check of an entry, one operation: where it fails, DENY with its own reason is placed and the seat is IDLE; else
the decision goes on to the next check (the operations of the model: log 33). An UNDEFINED room denies ROOM FAULT
(log 11), and so does one that cannot be read when its limit or its escorts are (log 12). The search reads one slot
at a time, with the key read with the room (log 13); a refused claim goes back to it with the slot's present state
in the notes, and a refused admission undoes the permit. A HOT CARD draws the first number from the counter on that
no entry holds. The checks of a completion, with its context HELD: where a check of the request's own card fails,
from the station on, it is denied and the context goes back to OPEN, to its pending closure, or at 0 seconds to its
expiry; where the first card's re-check fails, the context closes with the reason and the request is decided afresh.
A reservation that ends so keeps an answer record of another sequence that is not open (log 19), and is freed where
its station's entries are gone already (log 52). Two records and two claims are asked for; a refused second claim
gives the first back, a refused admission both. An admission asks for a record with OVERSTAY where an overstay notice
has reached its claim (log 59). -/
def Obligations.EntryChecksDenyWithTheirReason : Prop :=
  (∀ (s : State) (d : Decision) (p : Phase) (go : Outcome), s.checking d p → s.tablesWf = true →
     go = exec (.takeRequest (some 1)) s →
     (p = .station →
       ((s.station d.station).header.value = true → go = .next (deniedWith d .stationFault s)) ∧
       ((s.station d.station).header.value = false → (s.station d.station).body.value.binding = none →
         go = .next (deniedWith d .stationUnbound s)) ∧
       (∀ r, s.boundTo d.station r → go = .next (goesOn { d with room := r } .room s))) ∧
     (p = .room →
       ((s.room d.room).header.value = .undefined ∨ (s.room d.room).header.value = .faulted →
         go = .next (deniedWith d .roomFault s)) ∧
       ((s.room d.room).header.value = .closed →
         go = .next (deniedWith d .roomClosed s)) ∧
       (∀ b, (s.room d.room).header.value = .inService → b = (s.room d.room).body.value →
         go = .next (goesOn { d with key := b.key, cls := b.cls, limit := b.limit } .mode s))) ∧
     (p = .mode →
       (s.mode = .lockdown → go = .next (deniedWith d .lockdown s)) ∧
       (s.mode = .fire → go = .next (deniedWith d .fire s)) ∧
       (s.mode = .normal → go = .next (goesOn d .tamper s))) ∧
     (p = .tamper →
       (s.tamper.value.flag = true → go = .next (deniedWith d .tamper s)) ∧
       (s.tamper.value.flag = false → go = .next (goesOn d .clock s))) ∧
     (p = .clock →
       (s.clock.value.isSet = false → go = .next (deniedWith d .clockUnset s)) ∧
       (s.clock.value.isSet = true → go = .next (goesOn d .barState s))) ∧
     (p = .barState →
       (s.barHeader.value.doubtful = true → go = .next (deniedWith d .barListFault s)) ∧
       (s.barHeader.value.doubtful = false → go = .next (goesOn d .barTest s))) ∧
     (p = .barTest → s.barSorted →
       (s.barHeader.value.doubtful = true → go = .next (deniedWith d .barListFault s)) ∧
       (s.barHeader.value.doubtful = false → ¬ s.onBarList d.credential → go = .next (goesOn d .locate s)) ∧
       (s.barHeader.value.doubtful = false → s.onBarList d.credential → 4 ≤ s.hotCards →
         go = .next (deniedWith d .barred { s with attention := s.attention ||| Cause.hotCardOverflow.word })) ∧
       (s.barHeader.value.doubtful = false → s.onBarList d.credential → s.hotCards < 4 →
         ∀ n, s.draws n →
         go = .next (deniedWith d .barred { s with
           attention := s.attention ||| Cause.hotCard.word,
           referenceCounter := numberAfter 1 n,
           referrals := s.referrals ++ [⟨n, d.station, d.credential, d.room, d.sequence,
             s.clock.value.calendar.minute, .hotCard false⟩] }))) ∧
     (p = .locate →
       (s.locateIn d.credential s.inUseRecords ≠ none → go = .next (deniedWith d .passback s)) ∧
       (s.locateIn d.credential s.inUseRecords = none → go = .next (goesOn { d with own := .start } .search s))) ∧
     (p = .count → ∀ closed b, (s.room d.room).view = .readable closed b →
       (b.limit < s.occupancy d.room + 1 → go = .next (deniedWith d .roomFull s)) ∧
       (s.occupancy d.room + 1 ≤ b.limit → go = .next (goesOn d .pool s))) ∧
     (p = .count → (s.room d.room).view = .undefined ∨ (s.room d.room).view = .faulted →
       go = .next (deniedWith d .roomFault s)) ∧
     (p = .pool →
       (s.freeRecords 1 = [] → go = .next (deniedWith d .presenceFull s)) ∧
       (s.freeRecords 1 ≠ [] → go = .next (goesOn d .classRule s))) ∧
     (p = .classRule → ∀ closed b, (s.room d.room).view = .readable closed b →
       (d.cls ≠ .escorted ∨ d.own.role = .escort ∨ 1 ≤ b.escorts → go = .next (goesOn d .claim s)) ∧
       (d.cls = .escorted → d.own.role = .contractor → b.escorts = 0 → go = .next (deniedWith d .noEscort s))) ∧
     (p = .classRule → d.cls = .escorted → d.own.role = .contractor →
       (s.room d.room).view = .undefined ∨ (s.room d.room).view = .faulted →
       go = .next (deniedWith d .roomFault s)) ∧
     (p = .search → ∀ (st : GrantState) (issue : BitVec 8) (g : GrantRecord),
       (s.slot d.own.cursor).header.value = ⟨st, issue⟩ → g = (s.slot d.own.cursor).body.value →
       (1024 < d.own.cursor → go = .next (deniedWith d d.own.notes.reason s)) ∧
       (d.own.cursor ≤ 1024 → g.usable st d.credential d.key d.time = true →
         go = .next (goesOn { d with own :=
           ⟨d.own.cursor + 1, d.own.notes, some (⟨d.own.cursor, issue⟩, g.role)⟩ } .count s)) ∧
       (d.own.cursor ≤ 1024 → g.usable st d.credential d.key d.time = false →
         go = .next (goesOn { d with own := { d.own with
           cursor := d.own.cursor + 1, notes := d.own.notes.add st g d.credential d.key d.time } } .search s))) ∧
     (p = .claim → ∀ (h : Handle) (role : Role) (st : GrantState) (issue : BitVec 8) (g : GrantRecord),
       d.own.found = some (h, role) → (s.slot h.slot).header.value = ⟨st, issue⟩ → g = (s.slot h.slot).body.value →
       (g.usable st d.credential d.key d.time = true → issue = h.issue → s.retireHold ≠ some h.slot →
         go = .next (goesOn { d with claims := [⟨h, g.uses.isSome⟩] } (match d.cls with
           | .opened | .escorted => .admission
           | .paired => .pairOpening
           | .referred => .approvalOpening) (useTaken h g s))) ∧
       (g.usable st d.credential d.key d.time = false ∨ issue ≠ h.issue ∨ s.retireHold = some h.slot →
         go = .next (goesOn { d with own := { d.own with
           found := none, notes := d.own.notes.add st g d.credential d.key d.time } } .search s))) ∧
     (∀ c h role reason, p = .admission → d.claims = [c] → d.own.found = some (h, role) →
       (admission d.room [⟨d.credential, role, c.handle, c.useTaken, d.station, none, decide (c.handle ∈ d.overstayed)⟩] s).1 = .error reason →
       ∃ t, go = .next t ∧ undoneAndDenied d reason s t)) ∧
  (∀ (s : State) (d : Decision) (k : Nat) (c : PairContext) (p : Phase) (go : Outcome), s.deciding d .outside p →
     d.holding = .completing k → s.pair k = some c → c.held = true → s.tablesWf = true →
     go = exec (.takeRequest (some 1)) s →
     (p = .station →
       ((s.station d.station).header.value = true → go = .next (contextReturned k c (deniedWith d .stationFault s))) ∧
       ((s.station d.station).header.value = false → (s.station d.station).body.value.binding = none →
         go = .next (contextReturned k c (deniedWith d .stationUnbound s))) ∧
       (∀ r, s.boundTo d.station r → go = .next (goesOn { d with room := r } .room s))) ∧
     (p = .room →
       ((s.room d.room).header.value = .undefined ∨ (s.room d.room).header.value = .faulted →
         go = .next (contextReturned k c (deniedWith d .roomFault s))) ∧
       ((s.room d.room).header.value = .closed → go = .next (contextReturned k c (deniedWith d .roomClosed s))) ∧
       (∀ b, (s.room d.room).header.value = .inService → b = (s.room d.room).body.value →
         go = .next (goesOn { d with key := b.key, cls := b.cls, limit := b.limit } .mode s))) ∧
     (p = .mode →
       (∀ r, (s.mode = .lockdown ∧ r = DenyReason.lockdown) ∨ (s.mode = .fire ∧ r = DenyReason.fire) →
         go = .next (contextReturned k c (deniedWith d r s))) ∧
       (s.mode = .normal → go = .next (goesOn d .tamper s))) ∧
     (p = .tamper →
       (s.tamper.value.flag = true → go = .next (contextReturned k c (deniedWith d .tamper s))) ∧
       (s.tamper.value.flag = false → go = .next (goesOn d .clock s))) ∧
     (p = .clock →
       (s.clock.value.isSet = false → go = .next (contextReturned k c (deniedWith d .clockUnset s))) ∧
       (s.clock.value.isSet = true → go = .next (goesOn d .barState s))) ∧
     (p = .barState →
       (s.barHeader.value.doubtful = true → go = .next (contextReturned k c (deniedWith d .barListFault s))) ∧
       (s.barHeader.value.doubtful = false → go = .next (goesOn d .barTest s))) ∧
     (p = .barTest → s.barSorted →
       (s.barHeader.value.doubtful = true → go = .next (contextReturned k c (deniedWith d .barListFault s))) ∧
       (s.barHeader.value.doubtful = false → ¬ s.onBarList d.credential → go = .next (goesOn d .locate s)) ∧
       (s.barHeader.value.doubtful = false → s.onBarList d.credential → 4 ≤ s.hotCards →
         go = .next (contextReturned k c (deniedWith d .barred { s with
           attention := s.attention ||| Cause.hotCardOverflow.word }))) ∧
       (s.barHeader.value.doubtful = false → s.onBarList d.credential → s.hotCards < 4 →
         ∀ n, s.draws n →
         go = .next (contextReturned k c (deniedWith d .barred { s with
           attention := s.attention ||| Cause.hotCard.word,
           referenceCounter := numberAfter 1 n,
           referrals := s.referrals ++ [⟨n, d.station, d.credential, d.room, d.sequence,
             s.clock.value.calendar.minute, .hotCard false⟩] })))) ∧
     (p = .locate →
       (s.locateIn d.credential s.inUseRecords ≠ none → go = .next (contextReturned k c (deniedWith d .passback s))) ∧
       (s.locateIn d.credential s.inUseRecords = none → go = .next (goesOn { d with own := .start } .search s))) ∧
     (p = .search → ∀ (st : GrantState) (issue : BitVec 8) (g : GrantRecord),
       (s.slot d.own.cursor).header.value = ⟨st, issue⟩ → g = (s.slot d.own.cursor).body.value →
       (1024 < d.own.cursor → go = .next (contextReturned k c (deniedWith d d.own.notes.reason s))) ∧
       (d.own.cursor ≤ 1024 → g.usable st d.credential d.key d.time = true →
         go = .next (goesOn { d with own :=
           ⟨d.own.cursor + 1, d.own.notes, some (⟨d.own.cursor, issue⟩, g.role)⟩ }
             (if d.first.found = none then .firstBar else .count) s)) ∧
       (d.own.cursor ≤ 1024 → g.usable st d.credential d.key d.time = false →
         go = .next (goesOn { d with own := { d.own with
           cursor := d.own.cursor + 1, notes := d.own.notes.add st g d.credential d.key d.time } } .search s))) ∧
     (p = .firstBar → s.barSorted →
       (s.barHeader.value.doubtful = true → go = .next (firstFailed d k c .barListFault s)) ∧
       (s.barHeader.value.doubtful = false → s.onBarList c.credential → go = .next (firstFailed d k c .barred s)) ∧
       (s.barHeader.value.doubtful = false → ¬ s.onBarList c.credential → go = .next (goesOn d .firstLocate s))) ∧
     (p = .firstLocate →
       (s.locateIn c.credential s.inUseRecords ≠ none → go = .next (firstFailed d k c .passback s)) ∧
       (s.locateIn c.credential s.inUseRecords = none → go = .next (goesOn { d with first := .start } .firstSearch s))) ∧
     (p = .firstSearch → ∀ (st : GrantState) (issue : BitVec 8) (g : GrantRecord),
       (s.slot d.first.cursor).header.value = ⟨st, issue⟩ → g = (s.slot d.first.cursor).body.value →
       (1024 < d.first.cursor → go = .next (firstFailed d k c d.first.notes.reason s)) ∧
       (d.first.cursor ≤ 1024 → g.usable st c.credential d.key d.time = true →
         go = .next (goesOn { d with first :=
           ⟨d.first.cursor + 1, d.first.notes, some (⟨d.first.cursor, issue⟩, g.role)⟩ } .count s)) ∧
       (d.first.cursor ≤ 1024 → g.usable st c.credential d.key d.time = false →
         go = .next (goesOn { d with first := { d.first with
           cursor := d.first.cursor + 1, notes := d.first.notes.add st g c.credential d.key d.time } } .firstSearch s))) ∧
     (p = .count → ∀ closed b, (s.room d.room).view = .readable closed b →
       (b.limit < s.occupancy d.room + 2 → go = .next (contextReturned k c (deniedWith d .roomFull s))) ∧
       (s.occupancy d.room + 2 ≤ b.limit → go = .next (goesOn d .pool s))) ∧
     (p = .count → (s.room d.room).view = .undefined ∨ (s.room d.room).view = .faulted →
       go = .next (contextReturned k c (deniedWith d .roomFault s))) ∧
     (p = .pool →
       (2 ≤ (s.freeRecords 2).length → go = .next (goesOn d .claimFirst s)) ∧
       ((s.freeRecords 2).length < 2 → go = .next (contextReturned k c (deniedWith d .presenceFull s)))) ∧
     (∀ (h : Handle) (role : Role) (st : GrantState) (issue : BitVec 8) (g : GrantRecord),
       (s.slot h.slot).header.value = ⟨st, issue⟩ → g = (s.slot h.slot).body.value →
       (p = .claimFirst → d.first.found = some (h, role) →
         (g.usable st c.credential d.key d.time = true → issue = h.issue → s.retireHold ≠ some h.slot →
           go = .next (goesOn { d with claims := [⟨h, g.uses.isSome⟩] } .claimSecond (useTaken h g s))) ∧
         (g.usable st c.credential d.key d.time = false ∨ issue ≠ h.issue ∨ s.retireHold = some h.slot →
           go = .next (goesOn { d with first := { d.first with
             found := none, notes := d.first.notes.add st g c.credential d.key d.time } } .firstSearch s))) ∧
       (p = .claimSecond → d.own.found = some (h, role) → d.records = [] →
         (g.usable st d.credential d.key d.time = true → issue = h.issue → s.retireHold ≠ some h.slot →
           go = .next (goesOn { d with claims := d.claims ++ [⟨h, g.uses.isSome⟩] } .admission (useTaken h g s))) ∧
         (g.usable st d.credential d.key d.time = false ∨ issue ≠ h.issue ∨ s.retireHold = some h.slot →
           ∃ t, go = .next t ∧ t.seat = some { d with
               claims := [], overstayed := [], phase := .search, own := { d.own with
                 found := none, notes := d.own.notes.add st g d.credential d.key d.time } } ∧
             givenBack d.claims s t ∧ t.pairs = s.pairs ∧ t.verdicts = s.verdicts ∧ t.presence = s.presence))) ∧
     (∀ c1 c2 h1 h2 role1 role2 ids t, p = .admission → d.claims = [c1, c2] → d.first.found = some (h1, role1) →
       d.own.found = some (h2, role2) →
       admission d.room [⟨c.credential, role1, c1.handle, c1.useTaken, c.station, some d.credential, decide (c1.handle ∈ d.overstayed)⟩,
         ⟨d.credential, role2, c2.handle, c2.useTaken, c.station, some c.credential, decide (c2.handle ∈ d.overstayed)⟩] s = (.ok ids, t) →
       go = .next (goesOn { d with records := ids } .placement t)) ∧
     (∀ c1 c2 h1 h2 role1 role2 reason, p = .admission → d.claims = [c1, c2] → d.records = [] →
       d.first.found = some (h1, role1) → d.own.found = some (h2, role2) →
       (admission d.room [⟨c.credential, role1, c1.handle, c1.useTaken, c.station, some d.credential, decide (c1.handle ∈ d.overstayed)⟩,
         ⟨d.credential, role2, c2.handle, c2.useTaken, c.station, some c.credential, decide (c2.handle ∈ d.overstayed)⟩] s).1 = .error reason →
       ∃ t, go = .next t ∧ t = { contextReturned k c (deniedWith d reason s) with grants := t.grants } ∧
         givenBack d.claims s t) ∧
     (p = .placement → s.placementReason d = none →
       go = .next { placed ⟨d.station, d.sequence, .permitPair, none, false,
         some ⟨d.claims, [c.credential, d.credential], d.records⟩⟩ s with
           pairs := Table.set none s.pairs k none, seat := none }) ∧
     (∀ r, p = .placement → s.placementReason d = some r →
       ∃ t, go = .next t ∧ t.seat = none ∧ t.pairs = Table.set none s.pairs k none ∧
         t.verdicts = s.verdicts ++ [⟨d.station, d.sequence, .deny, some r, false, none⟩] ∧
         (t.station d.station).answer = some ⟨d.sequence, .deny, some r, false, false⟩ ∧
         removedUnsent d.records s t ∧ givenBack d.claims s t))

/-- An exit, taken whole, in every building mode. At a FAULTED or unbound station it is denied. Else EXIT is placed: the
credential's record leaves from a room that can be read, an UNSENT one with its permit's entry removed outright,
every UNSENT record of the entry and each use it took; no record leaves a room that cannot be read. Where no record
is found, or it stands in another room, the exit is stray: the rooms that can be read become census suspect and
STRAY EXIT is raised. -/
def Obligations.ExitPlacesItsVerdict : Prop :=
  ∀ (s : State) (r : Request) (rest : List Request), s.headIs r rest → s.endedAt .requestQueue r.station = false →
    s.tablesWf = true → r.side = .inside → s.nothingOpenAt r.station →
    ((s.station r.station).header.value = true → exec (.takeRequest none) s =
      .next (placed ⟨r.station, r.sequence, .deny, some .stationFault, false, none⟩ { s with requests := rest })) ∧
    ((s.station r.station).header.value = false → (s.station r.station).body.value.binding = none →
      exec (.takeRequest none) s =
        .next (placed ⟨r.station, r.sequence, .deny, some .stationUnbound, false, none⟩ { s with requests := rest })) ∧
    (∀ room found, s.boundTo r.station room → found = s.locateIn r.credential s.inUseRecords →
      ∃ t, exec (.takeRequest none) s = .next t ∧ t.seat = none ∧ t.requests = rest ∧
        (t.station r.station).answer = some ⟨r.sequence, .exit, none, false, false⟩ ∧
        t.pairs = s.pairs ∧ t.referrals = s.referrals ∧ t.mode = s.mode ∧
        (found = none → t.presence = s.presence ∧ t.grants = s.grants ∧
          t.verdicts = s.verdicts ++ [⟨r.station, r.sequence, .exit, none, false, none⟩] ∧
          t.attention = s.attention ||| Cause.strayExit.word ∧ s.suspectAfter room t) ∧
        (∀ id at_, found = some id → at_ = (s.index id).room →
          (at_ = room → t.latched .strayExit = s.latched .strayExit) ∧
          (at_ ≠ room → t.latched .strayExit = true ∧ s.suspectAfter room t ∧ s.suspectAfter at_ t) ∧
          ((s.room at_).view = .undefined ∨ (s.room at_).view = .faulted →
            t.presence = s.presence ∧ t.grants = s.grants ∧
            t.verdicts = s.verdicts ++ [⟨r.station, r.sequence, .exit, none, false, none⟩]) ∧
          (∀ closed b, (s.room at_).view = .readable closed b →
            t.record id = .free ∧
            (at_ = room → (t.room at_).body.value.suspect = b.suspect) ∧
            ((s.index id).sent = true →
              ((s.index id).role = .escort → (t.room at_).body.value.escorts = b.escorts - 1) ∧
              removedAlone id s t ∧ t.grants = s.grants ∧
              t.verdicts = s.verdicts ++ [⟨r.station, r.sequence, .exit, none, false, none⟩]) ∧
            ((s.index id).sent = false → (∃ e ∈ s.verdicts, ∃ p, e.permit = some p ∧ id ∈ p.records) →
              t.verdicts = s.verdicts.filter (fun e => !(e.permit.any (fun p => p.records.contains id))) ++
                [⟨r.station, r.sequence, .exit, none, false, none⟩] ∧
              removedUnsent (recordsOf (fun e => e.permit.any (fun p => p.records.contains id)) s) s t ∧
              givenBack (claimsOf (fun e => e.permit.any (fun p => p.records.contains id)) s) s t))))

/-- An entry at an OPEN room whose every check passes, taken whole: the lowest-numbered usable grant gives its claim,
the record is admitted UNSENT at the tail of the room's list, and PERMIT is placed with them. What follows a granted
claim. An admission asks for a record with OVERSTAY where an overstay notice has reached its claim (log 59). The
admission at an ESCORTED room of a CONTRACTOR is followed by a re-read of the escort count: with none left, or the
room's record unreadable or UNDEFINED (log 11), the permit is undone and the entry denied. Such a failed re-read, a
condition of the placement and an opening with no slot free each undo, deny and end the decision in one operation (log
33). The placement is turned into DENY by a withdrawal mark, the building mode or the tamper flag, the first that
holds, and the permit is undone; else it places PERMIT. A first card at a PAIRED room, from its opening to the end:
the context stands OPEN in the lowest FREE slot with the pair window, the claim's use is given back, and HOLD is
placed, reported open. With no slot free, and where a condition of the placement holds, the claim is given back and
the entry denied. With the loss or stop that will abandon the decision taken by the table already, no context opens
(log 52). The same card again gets HOLD with PAIR SAME CARD in its answer record, and the context waits on. A closure
that reaches the HELD context while it is being opened is carried out once HOLD stands in the Verdict Queue: the
context leaves, and its reservation becomes a DENY behind the HOLD, or is freed for a no-verdict cause or where its
station's entries are gone already (log 52); the answer record of another sequence that is not open stays (log 19). -/
def Obligations.PermitAtAnOpenRoom : Prop :=
  (∀ (s : State) (r : Request) (rest : List Request) (room k id : Nat) (b : RoomBody) (g : GrantRecord) (st : GrantState)
     (issue : BitVec 8) (now : Minute),
     s.headIs r rest → s.endedAt .requestQueue r.station = false → s.tablesWf = true → r.side = .outside →
     s.nothingOpenAt r.station → s.boundTo r.station room → (s.room room).header.value = .inService → b = (s.room room).body.value → b.cls = .opened →
     s.mode = .normal → s.tamper.value.flag = false → s.clock.value.isSet = true → now = s.clock.value.calendar.minute →
     s.barHeader.value.doubtful = false → s.barSorted → ¬ s.onBarList r.credential →
     s.locateIn r.credential s.inUseRecords = none →
     1 ≤ k → k ≤ 1024 → (s.slot k).header.value = ⟨st, issue⟩ → g = (s.slot k).body.value →
     g.usable st r.credential b.key now = true → s.retireHold ≠ some k →
     (∀ j, 1 ≤ j → j < k →
       (s.slot j).body.value.usable (s.slot j).header.value.state r.credential b.key now = false) →
     s.occupancy room + 1 ≤ b.limit → s.freeRecords 1 = [id] →
     ∃ t, exec (.takeRequest none) s = .next t ∧ t.seat = none ∧ t.requests = rest ∧
       t.verdicts = s.verdicts ++ [⟨r.station, r.sequence, .permit, none, false,
         some ⟨[⟨⟨k, issue⟩, g.uses.isSome⟩], [r.credential], [id]⟩⟩] ∧
       (t.station r.station).answer = some ⟨r.sequence, .permit, none, false, false⟩ ∧
       (t.record id).index.value = ⟨true, room, s.occupancy room + 1, g.role, false, g.uses.isSome, false⟩ ∧
       (t.record id).body.value = ⟨r.credential, some ⟨k, issue⟩, now, r.station, none, .none⟩ ∧
       (∀ u, g.uses = some u →
         (t.slot k).body.value = { g with uses := some { u with remaining := u.remaining - 1 } } ∧
         (t.slot k).header.value = ⟨if u.remaining - 1 = 0 then .spent else .active, issue⟩) ∧
       (g.uses = none → (t.slot k).body.value = g ∧ (t.slot k).header.value = ⟨.active, issue⟩) ∧
       (∀ j, j ≠ k → t.slot j = s.slot j) ∧ (∀ j, j ≠ id → (t.record j).index = (s.record j).index) ∧
       t.pairs = s.pairs ∧ t.referrals = s.referrals ∧ t.attention = s.attention ∧ t.notices = s.notices) ∧
  (∀ (s : State) (d : Decision) (p : Phase) (go : Outcome), s.checking d p → s.tablesWf = true →
     go = exec (.takeRequest (some 1)) s →
     (∀ c h role ids t, p = .admission → d.claims = [c] → d.own.found = some (h, role) →
       admission d.room [⟨d.credential, role, c.handle, c.useTaken, d.station, none, decide (c.handle ∈ d.overstayed)⟩] s = (.ok ids, t) →
       go = .next (goesOn { d with records := ids }
         (if d.cls = .escorted ∧ role = .contractor then .escortRead else .placement) t)) ∧
     (p = .escortRead → ∀ closed b, (s.room d.room).view = .readable closed b → 1 ≤ b.escorts →
       go = .next (goesOn d .placement s)) ∧
     (∀ r, p = .escortRead →
       (r = DenyReason.noEscort ∧ ∃ closed b, (s.room d.room).view = .readable closed b ∧ b.escorts = 0) ∨
         (r = DenyReason.roomFault ∧ ((s.room d.room).view = .undefined ∨ (s.room d.room).view = .faulted)) →
       ∃ t, go = .next t ∧ undoneAndDenied d r s t) ∧
     (p = .placement → s.placementReason d = none →
       go = .next { placed ⟨d.station, d.sequence, .permit, none, false, some ⟨d.claims, [d.credential], d.records⟩⟩ s with
         seat := none }) ∧
     (∀ r, p = .placement → s.placementReason d = some r → ∃ t, go = .next t ∧ undoneAndDenied d r s t)) ∧
  (∀ (s : State) (d : Decision) (p : Phase), s.checking d p → s.tablesWf = true →
     (∀ k window, p = .pairOpening → s.closedAt .pairTable d.station = false → s.placementReason d = none → 1 ≤ k → k ≤ 8 →
       s.pair k = none → (∀ j, 1 ≤ j → j < k → s.pair j ≠ none) → window = s.pairWindow.value → d.records = [] →
       ∃ t, exec (.takeRequest none) s = .next t ∧ t.seat = none ∧
         t.pair k = some ⟨false, d.station, d.room, d.credential, (d.claims.map (·.handle)).headD ⟨0, 0⟩, d.own.role,
           d.sequence, window, none⟩ ∧
         (∀ j, j ≠ k → t.pair j = s.pair j) ∧
         t.verdicts = s.verdicts ++ [⟨d.station, d.sequence, .hold, none, false, none⟩] ∧
         (t.station d.station).answer = some ⟨d.sequence, .hold, none, false, true⟩ ∧
         givenBack d.claims s t ∧ t.presence = s.presence ∧ t.referrals = s.referrals ∧ t.attention = s.attention) ∧
     (∀ r, p = .pairOpening →
       s.placementReason d = some r ∨ (s.placementReason d = none ∧ r = .pairBusy ∧ ∀ j, 1 ≤ j → j ≤ 8 → s.pair j ≠ none) →
       ∃ t, exec (.takeRequest (some 1)) s = .next t ∧ undoneAndDenied d r s t ∧ t.pairs = s.pairs) ∧
     (p = .pairOpening → s.closedAt .pairTable d.station = true → s.placementReason d = none →
       (∃ j, 1 ≤ j ∧ j ≤ 8 ∧ s.pair j = none) →
       ∃ t, exec (.takeRequest (some 1)) s = .next t ∧ nothingOpened d s t) ∧
     (p = .sameCard → exec (.takeRequest (some 1)) s = .next { s with
       seat := none, verdicts := s.verdicts ++ [⟨d.station, d.sequence, .hold, none, false, none⟩],
       stations := Table.set Station.cleared s.stations d.station { s.station d.station with
         answer := some ⟨d.sequence, .hold, some .pairSameCard, false, true⟩ } })) ∧
  (∀ (s : State) (d : Decision) (k : Nat) (c : PairContext) (cause : ClosureCause) (p : Phase), s.deciding d .outside p →
     s.tablesWf = true → d.holding = .openingPair k → s.pair k = some c → c.closure = some cause →
     c.station = d.station → c.sequence = d.sequence →
     (p = .claimRelease ∨ p = .interim → d.records = [] →
       ∃ t, exec (.takeRequest none) s = .next t ∧ t.seat = none ∧ t.pairs = Table.set none s.pairs k none ∧
         t.verdicts = s.verdicts ++ ⟨d.station, d.sequence, .hold, none, false, none⟩ ::
           closureEntries s .pairTable cause [(d.station, d.sequence)] ∧
         (t.station d.station).answer = (if s.endedAt .pairTable d.station then none
           else cause.reason.map (fun r => ⟨d.sequence, .deny, some r, false, false⟩)) ∧
         (p = .claimRelease → givenBack d.claims s t) ∧ t.presence = s.presence ∧ t.referrals = s.referrals ∧
         t.attention = s.attention) ∧
     (p = .settling → ∃ t, exec (.takeRequest (some 1)) s = .next t ∧
       t = { s with seat := none, pairs := Table.set none s.pairs k none, verdicts := t.verdicts, stations := t.stations } ∧
       t.verdicts = s.verdicts ++ closureEntries s .pairTable cause [(d.station, d.sequence)] ∧
       ∀ j, t.station j = { s.station j with
         answer := answerAfterClosures s .pairTable cause [(d.station, d.sequence)] j }))

/-- An entry at a REFERRED room, from its opening to the end: the approval stands WAITING with the referral timeout at
the tail, the claim's use is given back, REFER WAIT is placed, reported open, and REFERRAL WAITING raised. With 12
approvals, and where a condition of the placement holds, the claim is given back and the entry denied. With the loss
or stop that will abandon the decision taken by the queue already, no approval opens (log 52). A closure that reaches
the OPENING approval is carried out once REFER WAIT stands in the Verdict Queue, likewise: the approval leaves without
becoming WAITING. The checks of an answer check, one operation each (log 33): each that fails goes to the check's end
with its own reason. A CLOSED room is no failure, a room that cannot be read or is UNDEFINED (log 11) is; the limit is
the one read with the room (log 13); a bar hit asks for no HOT CARD; a refused claim goes back to the search, and a
refused admission undoes the permit. An admission asks for a record with OVERSTAY where an overstay notice has reached
its claim (log 59). The end of an answer check that gives no PERMIT undoes the permit in hand, removes the approval
and leaves the seat IDLE. With a no-verdict closure pending, or abandoned, it frees the reservation and answers TOO
LATE; with another closure pending, a failed check or a condition of the placement, the first of these that holds, it
turns the reservation into DENY and answers OVERTAKEN with the reason. An answer check is taken by an IDLE seat before
any request. In LOCKDOWN or FIRE it ends with DENY and OVERTAKEN; an approval with a no-verdict closure, or of a
station whose part of the Verdict Queue has been emptied (log 52), ends without a verdict, TOO LATE; a check that has
passed places PERMIT with OK. The answer record of another sequence that is not open stays (log 19). -/
def Obligations.AnswerCheckEndsTheApproval : Prop :=
  (∀ (s : State) (d : Decision), s.checking d .approvalOpening → s.tablesWf = true →
     (∀ n timeout, s.closedAt .referralQueue d.station = false → s.placementReason d = none → s.approvals < 12 →
       s.draws n → timeout = s.referralTimeout.value → d.records = [] →
       ∃ t, exec (.takeRequest none) s = .next t ∧ t.seat = none ∧
         t.referrals = s.referrals ++ [⟨n, d.station, d.credential, d.room, d.sequence, s.clock.value.calendar.minute,
           .approval ((d.claims.map (·.handle)).headD ⟨0, 0⟩) .waiting timeout none⟩] ∧
         t.referenceCounter = numberAfter 1 n ∧
         t.verdicts = s.verdicts ++ [⟨d.station, d.sequence, .referWait, none, false, none⟩] ∧
         (t.station d.station).answer = some ⟨d.sequence, .referWait, none, false, true⟩ ∧
         givenBack d.claims s t ∧ t.presence = s.presence ∧ t.pairs = s.pairs ∧ t.refer = true ∧
         t.attention = s.attention ||| Cause.referralWaiting.word) ∧
     (∀ r, s.placementReason d = some r ∨ (s.placementReason d = none ∧ r = .referralBusy ∧ 12 ≤ s.approvals) →
       ∃ t, exec (.takeRequest (some 1)) s = .next t ∧ undoneAndDenied d r s t ∧ t.referrals = s.referrals) ∧
     (s.closedAt .referralQueue d.station = true → s.placementReason d = none → s.approvals < 12 →
       ∃ t, exec (.takeRequest (some 1)) s = .next t ∧ nothingOpened d s t)) ∧
  (∀ (s : State) (d : Decision) (l1 l2 : List ReferralEntry) (e : ReferralEntry) (h : Handle) (n : Nat) (cause : ClosureCause)
     (p : Phase), s.deciding d .outside p → s.tablesWf = true → d.holding = .openingApproval e.reference →
     s.referrals = l1 ++ e :: l2 → (∀ x ∈ l1 ++ l2, x.reference ≠ e.reference) → e.kind = .approval h .opening n (some cause) →
     e.station = d.station → e.sequence = d.sequence →
     (p = .claimRelease ∨ p = .interim → d.records = [] →
       ∃ t, exec (.takeRequest none) s = .next t ∧ t.seat = none ∧ t.referrals = l1 ++ l2 ∧
         t.verdicts = s.verdicts ++ ⟨d.station, d.sequence, .referWait, none, false, none⟩ ::
           closureEntries s .referralQueue cause [(d.station, d.sequence)] ∧
         (t.station d.station).answer = (if s.endedAt .referralQueue d.station then none
           else cause.reason.map (fun r => ⟨d.sequence, .deny, some r, false, false⟩)) ∧
         (p = .claimRelease → givenBack d.claims s t) ∧ t.presence = s.presence ∧ t.pairs = s.pairs ∧
         t.attention = s.attention) ∧
     (p = .settling → ∃ t, exec (.takeRequest (some 1)) s = .next t ∧
       t = { s with seat := none, referrals := l1 ++ l2, verdicts := t.verdicts, stations := t.stations } ∧
       t.verdicts = s.verdicts ++ closureEntries s .referralQueue cause [(d.station, d.sequence)] ∧
       ∀ j, t.station j = { s.station j with
         answer := answerAfterClosures s .referralQueue cause [(d.station, d.sequence)] j })) ∧
  (∀ (s : State) (d : Decision) (n : Nat) (p : Phase) (go : Outcome) (fails : DenyReason → Prop), s.answeringAt d n p →
     d.abandoned = false → s.tablesWf = true → go = exec (.answerCheck (some 1)) s →
     (∀ r, fails r ↔ go = .next (goesOn d (.answerEnd (some r)) s)) →
     (p = .room →
       ((s.room d.room).view = .undefined ∨ (s.room d.room).view = .faulted → fails .roomFault) ∧
       (∀ closed b, (s.room d.room).view = .readable closed b →
         go = .next (goesOn { d with key := b.key, cls := b.cls, limit := b.limit } .mode s))) ∧
     (p = .mode → (s.mode = .lockdown → fails .lockdown) ∧ (s.mode = .fire → fails .fire) ∧
       (s.mode = .normal → go = .next (goesOn d .tamper s))) ∧
     (p = .tamper → (s.tamper.value.flag = true → fails .tamper) ∧
       (s.tamper.value.flag = false → go = .next (goesOn d .clock s))) ∧
     (p = .clock → (s.clock.value.isSet = false → fails .clockUnset) ∧
       (s.clock.value.isSet = true → go = .next (goesOn d .barState s))) ∧
     (p = .barState → (s.barHeader.value.doubtful = true → fails .barListFault) ∧
       (s.barHeader.value.doubtful = false → go = .next (goesOn d .barTest s))) ∧
     (p = .barTest → s.barSorted → (s.barHeader.value.doubtful = true → fails .barListFault) ∧
       (s.barHeader.value.doubtful = false → s.onBarList d.credential → fails .barred) ∧
       (s.barHeader.value.doubtful = false → ¬ s.onBarList d.credential → go = .next (goesOn d .locate s))) ∧
     (p = .locate → (s.locateIn d.credential s.inUseRecords ≠ none → fails .passback) ∧
       (s.locateIn d.credential s.inUseRecords = none → go = .next (goesOn { d with own := .start } .search s))) ∧
     (p = .search → ∀ (st : GrantState) (issue : BitVec 8) (g : GrantRecord),
       (s.slot d.own.cursor).header.value = ⟨st, issue⟩ → g = (s.slot d.own.cursor).body.value →
       (1024 < d.own.cursor → fails d.own.notes.reason) ∧
       (d.own.cursor ≤ 1024 → g.usable st d.credential d.key d.time = true →
         go = .next (goesOn { d with own :=
           ⟨d.own.cursor + 1, d.own.notes, some (⟨d.own.cursor, issue⟩, g.role)⟩ } .count s)) ∧
       (d.own.cursor ≤ 1024 → g.usable st d.credential d.key d.time = false →
         go = .next (goesOn { d with own := { d.own with
           cursor := d.own.cursor + 1, notes := d.own.notes.add st g d.credential d.key d.time } } .search s))) ∧
     (p = .count → (d.limit < s.occupancy d.room + 1 → fails .roomFull) ∧
       (s.occupancy d.room + 1 ≤ d.limit → go = .next (goesOn d .pool s))) ∧
     (p = .pool → (s.freeRecords 1 = [] → fails .presenceFull) ∧
       (s.freeRecords 1 ≠ [] → go = .next (goesOn d .claim s))) ∧
     (p = .claim → ∀ (h : Handle) (role : Role) (st : GrantState) (issue : BitVec 8) (g : GrantRecord),
       d.own.found = some (h, role) → (s.slot h.slot).header.value = ⟨st, issue⟩ → g = (s.slot h.slot).body.value →
       (g.usable st d.credential d.key d.time = true → issue = h.issue → s.retireHold ≠ some h.slot →
         go = .next (goesOn { d with claims := [⟨h, g.uses.isSome⟩] } .admission (useTaken h g s))) ∧
       (g.usable st d.credential d.key d.time = false ∨ issue ≠ h.issue ∨ s.retireHold = some h.slot →
         go = .next (goesOn { d with own := { d.own with
           found := none, notes := d.own.notes.add st g d.credential d.key d.time } } .search s))) ∧
     (∀ c h role ids t, p = .admission → d.claims = [c] → d.own.found = some (h, role) →
       admission d.room [⟨d.credential, role, c.handle, c.useTaken, d.station, none, decide (c.handle ∈ d.overstayed)⟩] s = (.ok ids, t) →
       go = .next (goesOn { d with records := ids } (.answerEnd none) t)) ∧
     (∀ c h role reason, p = .admission → d.claims = [c] → d.own.found = some (h, role) →
       (admission d.room [⟨d.credential, role, c.handle, c.useTaken, d.station, none, decide (c.handle ∈ d.overstayed)⟩] s).1 = .error reason →
       ∃ t, go = .next t ∧ t.seat = some { d with claims := [], records := [], overstayed := [], phase := .answerEnd (some reason) } ∧
         removedUnsent d.records s t ∧ givenBack d.claims s t ∧ t.verdicts = s.verdicts ∧ t.referrals = s.referrals)) ∧
  (∀ (s : State) (d : Decision) (l1 l2 : List ReferralEntry) (e : ReferralEntry) (h : Handle) (n : Nat) (cl : Option ClosureCause)
     (failed : Option DenyReason), s.answeringAt d e.reference (.answerEnd failed) → s.tablesWf = true →
     s.referrals = l1 ++ e :: l2 → (∀ x ∈ l1 ++ l2, x.reference ≠ e.reference) → e.kind = .approval h .answering n cl →
     s.work = some (.answer e.reference) → d.station = e.station → d.sequence = e.sequence →
     (d.abandoned = true ∨ (∃ c, cl = some c ∧ c.reason = none) →
       ∃ t, exec (.answerCheck (some 1)) s = .next t ∧ t.seat = none ∧ t.referrals = l1 ++ l2 ∧
         t.work = some (.ready { code := .tooLate }) ∧ t.verdicts = s.verdicts ∧
         (t.station e.station).answer = freedAnswer (s.station e.station).answer ∧
         removedUnsent d.records s t ∧ givenBack d.claims s t) ∧
     (∀ r, d.abandoned = false → (∃ c, cl = some c ∧ c.reason = some r) ∨ (cl = none ∧ failed = some r) ∨
         (cl = none ∧ failed = none ∧ s.placementReason d = some r) →
       ∃ t, exec (.answerCheck (some 1)) s = .next t ∧ t.seat = none ∧ t.referrals = l1 ++ l2 ∧
         t.work = some (.ready { code := .overtaken, words := { arg0 := put 0 5 r.code } }) ∧
         t.verdicts = s.verdicts ++ [⟨e.station, e.sequence, .deny, some r, false, none⟩] ∧
         (t.station e.station).answer = convertedAnswer e.sequence .deny (some r) (s.station e.station).answer ∧
         removedUnsent d.records s t ∧ givenBack d.claims s t)) ∧
  (∀ (s : State) (l1 l2 : List ReferralEntry) (e : ReferralEntry) (h : Handle) (n : Nat) (cl : Option ClosureCause),
     s.awake = true → s.undamaged = true → s.tablesWf = true → s.referrals = l1 ++ e :: l2 →
     (∀ x ∈ l1 ++ l2, x.reference ≠ e.reference ∧ ∀ g m c, x.kind ≠ .approval g .answering m c) →
     e.kind = .approval h .answering n cl → s.work = some (.answer e.reference) →
     (s.seat = none → s.endedAt .referralQueue e.station = true →
       exec (.answerCheck none) s = .next (freed e.station { s with
         referrals := l1 ++ l2, work := some (.ready { code := .tooLate }) })) ∧
     (s.seat = none → s.endedAt .referralQueue e.station = false →
       (∀ r m, cl = none → (s.mode = .lockdown ∧ r = DenyReason.lockdown) ∨ (s.mode = .fire ∧ r = DenyReason.fire) →
         (s.room e.room).view = .readable m (s.room e.room).body.value →
         exec (.answerCheck none) s = .next (converted e.station e.sequence r { s with
           referrals := l1 ++ l2, work := some (.ready { code := .overtaken, words := { arg0 := put 0 5 r.code } }) })) ∧
       (∀ c, cl = some c → c.reason = none →
         exec (.answerCheck none) s = .next (freed e.station { s with
           referrals := l1 ++ l2, work := some (.ready { code := .tooLate }) })) ∧
       (∀ c r, cl = some c → c.reason = some r →
         exec (.answerCheck none) s = .next (converted e.station e.sequence r { s with
           referrals := l1 ++ l2, work := some (.ready { code := .overtaken, words := { arg0 := put 0 5 r.code } }) }))) ∧
     (∀ d, s.seat = some d → d.work = .answer e.reference → d.abandoned = false → d.phase = .answerEnd none →
       d.station = e.station → d.sequence = e.sequence → d.mark = none → s.mode = .normal → s.tamper.value.flag = false →
       cl = none →
       ∃ t, exec (.answerCheck (some 1)) s = .next t ∧ t.seat = none ∧ t.referrals = l1 ++ l2 ∧
         t.work = some (.ready { code := .ok }) ∧
         t.verdicts = s.verdicts ++ [⟨e.station, e.sequence, .permit, none, false,
           some ⟨d.claims, [d.credential], d.records⟩⟩] ∧
         (t.station e.station).answer = convertedAnswer e.sequence .permit none (s.station e.station).answer ∧
         t.grants = s.grants ∧ t.presence = s.presence ∧ t.pairs = s.pairs ∧ t.attention = s.attention))

/-- An item in three copies, of any kind, reads as the value two copies agree on; where no two agree, as the copy with
the fewest corrections, the lower-numbered one first. A read that is not clean rewrites the copies with the value
used, sets the region's corrected flag and raises MEMORY WARNING. A read of the health flags that is not clean shows
the flag that it sets (log 58). The reader that finds an uncorrectable body marks its own item and nothing else: a
room or a presence record becomes faulted, a station FAULTED with its two notices given, the Bar List DOUBTFUL at
that position; the region's flag is set and MEMORY ERROR raised. A correctable entry is rewritten. The reader that
finds an uncorrectable grant body: the slot becomes FAULTED with its issue number kept, the GRANT uncorrectable flag
is set, MEMORY ERROR is raised, and the command completes FAULTED; SUSPEND, RESUME and REVOKE too read the body
before they look at the state (log 45). -/
def Obligations.IntegrityCheckMarksItsItem : Prop :=
  ((∀ (α : Type) (_ : DecidableEq α) (v : Voted α),
     (v.copy1.value = v.copy2.value → v.value = v.copy1.value) ∧
     (v.copy1.value = v.copy3.value → v.value = v.copy1.value) ∧
     (v.copy2.value = v.copy3.value → v.value = v.copy2.value) ∧
     (v.copy1.value ≠ v.copy2.value → v.copy1.value ≠ v.copy3.value → v.copy2.value ≠ v.copy3.value →
       (v.copy1.corrections ≤ v.copy2.corrections → v.copy1.corrections ≤ v.copy3.corrections →
         v.value = v.copy1.value) ∧
       (v.copy2.corrections < v.copy1.corrections → v.copy2.corrections ≤ v.copy3.corrections →
         v.value = v.copy2.value) ∧
       (v.copy3.corrections < v.copy1.corrections → v.copy3.corrections < v.copy2.corrections →
         v.value = v.copy3.value))) ∧
   (∀ s : State, s.awake = true → s.clock.clean = false → s.health.clean = true →
     ∃ t, readClockItem s = (s.clock.value, t) ∧ t.clock = .of s.clock.value ∧
       t.health.value = { s.health.value with siteCorrected := true } ∧
       t.attention = s.attention ||| Cause.memoryWarning.word ∧
       t = { s with clock := t.clock, health := t.health, attention := t.attention }) ∧
   (∀ (s : State) (k : Nat), s.awake = true → s.health.clean = true →
     ((s.slot k).header.clean = false → readSlotHeader k s = ((s.slot k).header.value, correctedIn .grant { s with
       grants := Table.set Slot.cleared s.grants k { s.slot k with header := .of (s.slot k).header.value } })) ∧
     ((s.room k).header.clean = false → readRoomHeader k s = ((s.room k).header.value, correctedIn .site { s with
       rooms := Table.set Room.cleared s.rooms k { s.room k with header := .of (s.room k).header.value } })) ∧
     ((s.record k).index.clean = false → readIndex k s = ((s.record k).index.value, correctedIn .site { s with
       presence := Table.set PresenceRecord.free s.presence k
         { s.record k with index := .of (s.record k).index.value } })) ∧
     ((s.station k).header.clean = false → readStationHeader k s = ((s.station k).header.value, correctedIn .site { s with
       stations := Table.set Station.cleared s.stations k
         { s.station k with header := .of (s.station k).header.value } })) ∧
     (s.barHeader.clean = false → readBarHeader s = (s.barHeader.value, correctedIn .bar { s with
       barHeader := .of s.barHeader.value })) ∧
     (s.linkConfig.clean = false → readConfig s = (s.linkConfig.value, correctedIn .site { s with
       linkConfig := .of s.linkConfig.value })) ∧
     (s.trim.clean = false → readTrim s = (s.trim.value, correctedIn .site { s with trim := .of s.trim.value })) ∧
     (s.pairWindow.clean = false → readWindowSeconds s = (s.pairWindow.value, correctedIn .site { s with
       pairWindow := .of s.pairWindow.value })) ∧
     (s.referralTimeout.clean = false → readTimeoutSeconds s = (s.referralTimeout.value, correctedIn .site { s with
       referralTimeout := .of s.referralTimeout.value })) ∧
     (s.tamper.clean = false → readTamper s = (s.tamper.value, correctedIn .site { s with
       tamper := .of s.tamper.value })) ∧
     (s.deferred.clean = false → readDeferred s = (s.deferred.value, correctedIn .site { s with
       deferred := .of s.deferred.value }))) ∧
   (∀ s : State, s.awake = true → s.health.clean = false →
     readHealth s = ({ s.health.value with siteCorrected := true }, correctedIn .site s))) ∧
  (∀ (s : State), s.awake = true → s.health.clean = true → s.tablesWf = true →
     (∀ r st, (s.room r).header = .of st → st = .inService ∨ st = .closed → (s.room r).body.condition = .uncorrectable →
       ∃ t, readRoomRecord r s = (.faulted, t) ∧ (t.room r).header.value = .faulted ∧
         (∀ q, q ≠ r → t.room q = s.room q) ∧ t.health.value = { s.health.value with siteUncorrectable := true } ∧
         t.attention = s.attention ||| Cause.memoryError.word) ∧
     (∀ id i, (s.record id).index = .of i → i.faulted = false → (s.record id).body.condition = .uncorrectable →
       (s.room i.room).undamaged = true →
       ∃ t, readPresenceBody id s = (none, t) ∧ (t.record id).index.value = { i with faulted := true } ∧
         (∀ j, j ≠ id → t.record j = s.record j) ∧
         (∀ closed b, (s.room i.room).view = .readable closed b →
           (t.room i.room).body.value = { b with suspect := true }) ∧
         t.health.value = { s.health.value with siteUncorrectable := true } ∧
         t.attention = s.attention ||| Cause.memoryError.word) ∧
     (∀ k, (s.station k).header = .of false → (s.station k).body.condition = .uncorrectable →
       ∃ t, readStationBody k s = (none, t) ∧ (t.station k).header.value = true ∧ (t.station k).state = .faulted ∧
         (∀ j, j ≠ k → t.station j = s.station j) ∧
         t.notices = s.notices ++ [⟨.pairTable, .stationFault k, false⟩, ⟨.referralQueue, .stationFault k, false⟩] ∧
         t.health.value = { s.health.value with siteUncorrectable := true } ∧
         t.attention = s.attention ||| Cause.memoryError.word) ∧
     (∀ p e, s.barEntries[p - 1]? = some e → e.condition = .uncorrectable → p ∉ s.barHeader.value.faulted →
       ∃ t, readBarEntry p s = (none, t) ∧ t.barHeader.value.doubtful = true ∧
         t.barHeader.value.count = s.barHeader.value.count ∧
         (∀ q, q ∈ t.barHeader.value.faulted ↔ q = p ∨ q ∈ s.barHeader.value.faulted) ∧ t.barEntries = s.barEntries ∧
         t.health.value = { s.health.value with barUncorrectable := true } ∧
         t.attention = s.attention ||| Cause.memoryError.word) ∧
     (∀ p e, s.barEntries[p - 1]? = some e → e.condition = .correctable →
       ∃ t, readBarEntry p s = (some e.value, t) ∧ t.barEntries = s.barEntries.set (p - 1) (.of e.value) ∧
         t.barHeader = s.barHeader ∧ t.health.value = { s.health.value with barCorrected := true } ∧
         t.attention = s.attention ||| Cause.memoryWarning.word)) ∧
  (∀ (s : State) (h : Handle) (st : GrantState) (p : Instr × BitVec 8),
     p ∈ [(Instr.amendGrant, (0x11 : BitVec 8)), (.suspendGrant, 0x12), (.resumeGrant, 0x13), (.revokeGrant, 0x14),
       (.readGrant, 0x16)] →
     s.accepts = true → s.tablesWf = true → h = handleArg s.window.arg0 → 1 ≤ h.slot → h.slot ≤ 1024 →
     st ≠ .free → st ≠ .faulted → (s.slot h.slot).header = .of ⟨st, h.issue⟩ →
     (s.slot h.slot).body.condition = .uncorrectable → s.health.clean = true →
     ∃ t r, exec p.1 s = .next t ∧ t.work = some (.ready r) ∧ r.code = .faulted ∧
       (t.slot h.slot).header.value = ⟨.faulted, h.issue⟩ ∧ t.health.value.grantUncorrectable = true ∧
       t.attention = s.attention ||| Cause.memoryError.word ∧
       (∀ j, j ≠ h.slot → t.slot j = s.slot j) ∧
       t.rooms = s.rooms ∧ t.presence = s.presence ∧ t.notices = s.notices)
end

