-- ==== Sys2Proof/Laws/Effects.lean ====
section
/-! SUPPORT. What shared operations do, in the words of the statements: a command that is accepted, a verdict placed or converted, a reservation freed, a search among numbers, an overstay notice that reaches the decision in hand. -/

namespace Sys2Proof.Machine

open Sys2Proof

theorem portOn_iff (s : State) : s.portOn = true ↔ s.supply = .full ∧ s.resetLow = false := by
  simp [State.portOn]

theorem awake_iff (s : State) : s.awake = true ↔ s.portOn = true ∧ s.resetting = false := by
  simp [State.awake]

theorem accepts_iff (s : State) : s.accepts = true ↔ s.awake = true ∧ s.portBusy = false := by
  simp [State.accepts]

/-- An accepted command is its owner's work on the state with the code accepted. -/
theorem commandWrite_of_accepts {s : State} (h : s.accepts = true) (code : BitVec 8) (owner : State → State) :
    commandWrite code owner s = owner (accepted code s) := by
  have hb := (accepts_iff s).mp h
  simp [commandWrite, ((awake_iff s).mp hb.1).1, hb.2, accepted]

/-- A command that may wait for its owner's operation is accepted and handed to it, and nothing else is done (log 35). -/
theorem acceptCommandWord_of_waits {s : State} (h : s.accepts = true) {word : Word}
    (hw : waitsForOwner (codeOf word) = true) :
    acceptCommandWord word s = { accepted (codeOf word) s with work := some (.handed (codeOf word)) } := by
  simp [acceptCommandWord, commandWrite_of_accepts h, handCommand, hw]

/-- A command that does not wait is accepted with its owner's operation. -/
theorem acceptCommandWord_of_not_waits {word : Word} (hw : waitsForOwner (codeOf word) = false) (s : State) :
    acceptCommandWord word s = writeCommandWord word s := by
  have : handCommand (codeOf word) = commandOwner (codeOf word) := by
    funext s
    simp [handCommand, hw]
  simp [acceptCommandWord, writeCommandWord, this]

/-- A command whose work makes no operation of its own stays as it is. -/
theorem runOwn_of_fixed (n : Nat) (s : State) (h : ∀ w, s.work = some w → ownStep w s = s) : runOwn n s = s := by
  induction n with
  | zero => rfl
  | succ n ih =>
    unfold runOwn
    split
    · rfl
    · rename_i w hw
      rw [h w hw]
      exact ih

/-- Operations made one after another. -/
theorem runOwn_add (m n : Nat) (s : State) : runOwn (m + n) s = runOwn n (runOwn m s) := by
  induction m generalizing s with
  | zero => simp [runOwn]
  | succ m ih =>
    rw [Nat.succ_add]
    cases h : s.work with
    | none =>
      simp only [runOwn, h]
      exact (runOwn_of_fixed n s (fun w hw => by simp [h] at hw)).symm
    | some w =>
      simp only [runOwn, h]
      exact ih _

/-- A command that has neither its result nor a reset under way makes its next operation. -/
theorem completeCommand_of_owed {s : State} {w : CommandWork} (hp : s.portOn = true) (hw : s.work = some w)
    (hc : w.resetCode = none) (hr : workResult s = none) : completeCommand s = ownStep w s := by
  simp [completeCommand, continueCommand, hp, hw, hc, hr]

/-- A command that has been handed to its owner gets the owner's operation. -/
theorem completeCommand_of_handed {s : State} {code : BitVec 8} (hp : s.portOn = true) (hw : s.work = some (.handed code)) :
    completeCommand s = commandOwner code { s with work := none } := by
  rw [completeCommand_of_owed hp hw rfl (by simp [workResult, hw])]
  rfl

/-- A command that has its result completes with it. -/
theorem completeCommand_of_result {s : State} {w : CommandWork} {r : CommandResult} (hp : s.portOn = true)
    (hw : s.work = some w) (hc : w.resetCode = none) (hr : workResult s = some r) :
    completeCommand s = completePort r s := by
  simp [completeCommand, continueCommand, hp, hw, hc, hr]

theorem mem_numbersFrom {low count k : Nat} : k ∈ numbersFrom low count ↔ low ≤ k ∧ k < low + count := by
  simp only [numbersFrom, List.mem_map, List.mem_range]
  constructor
  · rintro ⟨x, hx, rfl⟩
    omega
  · intro h
    exact ⟨k - low, by omega, by omega⟩

/-- The first number that satisfies a test is the one found. -/
theorem find_numbersFrom {p : Nat → Bool} {low count k : Nat} (h1 : low ≤ k) (h2 : k < low + count) (hk : p k = true)
    (hlt : ∀ j, low ≤ j → j < k → p j = false) : (numbersFrom low count).find? p = some k := by
  have hsplit : numbersFrom low count =
      numbersFrom low (k - low) ++ k :: numbersFrom (k + 1) (count - (k - low) - 1) := by
    apply List.ext_getElem
    · simp [numbersFrom]
      omega
    · intro i h1 h2
      simp only [numbersFrom, List.length_map, List.length_range] at h1
      rw [List.getElem_append]
      split
      · simp [numbersFrom]
      · rename_i hh
        simp only [numbersFrom, List.length_map, List.length_range] at hh ⊢
        rw [List.getElem_cons]
        split <;> simp <;> omega
  rw [hsplit, List.find?_append, List.find?_eq_none.2]
  · simp [hk]
  · intro x hx
    rw [mem_numbersFrom] at hx
    simp [hlt x hx.1 (by omega)]

/-- A conversion into a DENY, in the words of the statements. -/
theorem convertDeny_eq_converted (k : Nat) (q : Sequence) (r : DenyReason) (s : State) :
    convertDeny k q r s = converted k q r s := by
  simp only [convertDeny, reportConverted, updateStation, State.setStation, appendEntry, converted, answerOf,
    Verdict.isInterim]
  have : ({ s with verdicts := s.verdicts ++ [⟨k, q, .deny, some r, false, none⟩] } : State).station k = s.station k := rfl
  rw [this]
  congr 2
  cases h : (s.station k).answer with
  | none => simp [convertedAnswer]
  | some a =>
    simp only [convertedAnswer, AnswerRecord.keptAgainst, Bool.and_eq_true, Bool.not_eq_true', decide_eq_true_eq]
    split
    · rw [← h]
    · rfl

/-- A reservation freed, in the words of the statements. -/
theorem reportFreed_eq_freed (k : Nat) (s : State) : reportFreed k s = freed k s := by
  simp only [reportFreed, updateStation, State.setStation, freed]
  congr 2
  cases h : (s.station k).answer with
  | none => simp [freedAnswer, ← h]
  | some a =>
    simp only [freedAnswer]
    split
    · rfl
    · rw [← h]

/-- A final verdict placed, in the words of the statements. -/
theorem placeVerdict_eq_placed (k : Nat) (q : Sequence) (v : Verdict) (r : Option DenyReason) (s : State)
    (hv : v.isInterim = false) : placeVerdict k q v r s = placed ⟨k, q, v, r, false, none⟩ s := by
  simp only [placeVerdict, reportPlaced, updateStation, State.setStation, appendEntry, placed, answerOf, hv]
  rfl

/-! ## Operations that a supply failure cuts short (Supply.lean) -/

@[simp] theorem runSteps_nil (s : State) : runSteps [] s = s := rfl

@[simp] theorem runSteps_cons (x : RecordStep) (xs : List RecordStep) (s : State) :
    runSteps (x :: xs) s = runSteps xs (x.run s) := rfl

theorem runSteps_append (xs ys : List RecordStep) (s : State) : runSteps (xs ++ ys) s = runSteps ys (runSteps xs s) :=
  List.foldl_append ..

theorem setUnescortedOn_cons (id : Nat) (ids : List Nat) (s : State) :
    setUnescortedOn (id :: ids) s = setUnescortedOn ids (setUnescortedOn [id] s) := by
  simp only [setUnescortedOn, forReadable]
  split <;> rfl

theorem clearUnescortedOn_cons (id : Nat) (ids : List Nat) (s : State) :
    clearUnescortedOn (id :: ids) s = clearUnescortedOn ids (clearUnescortedOn [id] s) := by
  simp only [clearUnescortedOn, forReadable]
  split <;> rfl

theorem runSteps_setUnescorted (ids : List Nat) (s : State) :
    runSteps (ids.map .setUnescorted) s = setUnescortedOn ids s := by
  induction ids generalizing s with
  | nil => rfl
  | cons id ids ih => rw [setUnescortedOn_cons, ← ih]; rfl

theorem runSteps_clearUnescorted (ids : List Nat) (s : State) :
    runSteps (ids.map .clearUnescorted) s = clearUnescortedOn ids s := by
  induction ids generalizing s with
  | nil => rfl
  | cons id ids ih => rw [clearUnescortedOn_cons, ← ih]; rfl

/-- The parts of a removal are the removal. -/
theorem runSteps_removalParts (id : Nat) (s : State) : runSteps (removalParts id s) s = removeRecord id (scanIndexes s) := by
  unfold removalParts removeRecord
  dsimp only
  rw [runSteps_cons]
  split
  · rw [runSteps_setUnescorted]; rfl
  · rfl

/-- The parts of a step are the step. -/
theorem RecordStep.run_parts (x : RecordStep) (s : State) : runSteps (x.parts s) s = x.run s := by
  unfold RecordStep.parts
  split
  · exact runSteps_removalParts _ s
  · split
    · rename_i h
      rw [runSteps_removalParts]
      simp only [RecordStep.run, Machine.removeUnsent, List.foldl_cons, List.foldl_nil, if_pos h]
    · rfl
  · rfl

/-- A cut behind the last step leaves the operation whole. -/
theorem runReached_of_all (steps : List RecordStep) (s : State) : ∃ n, runReached n steps s = runSteps steps s := by
  induction steps generalizing s with
  | nil => exact ⟨0, rfl⟩
  | cons x xs ih =>
    obtain ⟨n, hn⟩ := ih (x.run s)
    refine ⟨(x.parts s).length + n, ?_⟩
    unfold runReached
    simp [RecordStep.run_parts, hn]

@[simp] theorem cutOperation_none (s : State) : cutOperation none s = s := rfl

/-- A cut of a walk of the Presence Pool, or of a block's operation that is not due, does what cutWalk does. -/
theorem cutOperation_of_no_steps {c : Cut} {s : State} (h : operationSteps c.walk s = []) :
    cutOperation (some c) s = cutWalk (some c) s := by
  simp [cutOperation, h, runReached]

/-- The failure reads no free value where no operation on many records may be in progress. -/
theorem cutBySupply_of_not_due {s : State} (h : s.cutDue = false) : cutBySupply s = s := by
  simp [cutBySupply, h]

theorem insertByPlace_perm (s : State) (id : Nat) (ids : List Nat) : (insertByPlace s id ids).Perm (id :: ids) := by
  induction ids with
  | nil => exact .refl _
  | cons j rest ih =>
    unfold insertByPlace
    split
    · exact .refl _
    · exact (ih.cons j).trans (.swap id j rest)

/-- The list by places, the last first, holds the same records. -/
theorem lastFirst_perm (s : State) (ids : List Nat) : (lastFirst s ids).Perm ids := by
  induction ids with
  | nil => exact .refl _
  | cons j rest ih => exact (insertByPlace_perm s j _).trans (ih.cons j)

theorem insertByPlace_fromTheTail (s : State) (id : Nat) {ids : List Nat} (h : fromTheTail ids s) :
    fromTheTail (insertByPlace s id ids) s := by
  induction ids with
  | nil => simp [insertByPlace, fromTheTail]
  | cons j rest ih =>
    obtain ⟨hj, hr⟩ := List.pairwise_cons.mp h
    unfold insertByPlace
    split
    · rename_i hle
      exact List.pairwise_cons.mpr ⟨fun x hx => by
        rcases List.mem_cons.mp hx with rfl | hx
        · exact hle
        · exact Nat.le_trans (hj x hx) hle, h⟩
    · rename_i hle
      refine List.pairwise_cons.mpr ⟨fun x hx => ?_, ih hr⟩
      rcases List.mem_cons.mp ((insertByPlace_perm s id rest).mem_iff.mp hx) with rfl | hx
      · omega
      · exact hj x hx

/-- The records behind others of the list come first. -/
theorem lastFirst_fromTheTail (s : State) (ids : List Nat) : fromTheTail (lastFirst s ids) s := by
  induction ids with
  | nil => exact List.Pairwise.nil
  | cons j _ ih => exact insertByPlace_fromTheTail s j ih

/-! ## An overstay notice and the decision in hand -/

/-- A decision that an overstay notice has reached: the handle is among those of its claims whose records are yet to be admitted,
and nothing else changes (R42). -/
theorem Decision.overstay_spec (h : Handle) (d : Decision) :
    ∃ reached, d.overstay h = { d with overstayed := reached } ∧
      ∀ g, g ∈ reached ↔ g ∈ d.overstayed ∨ (g = h ∧ d.records = [] ∧ ∃ c ∈ d.claims, c.handle = h) := by
  have ha : d.awaitsRecord h = true ↔ d.records = [] ∧ ∃ c ∈ d.claims, c.handle = h := by simp [Decision.awaitsRecord]
  unfold Decision.overstay
  split
  · rename_i hc
    refine ⟨_, rfl, fun g => ?_⟩
    simp only [List.mem_cons, ← ha, hc.1, and_true]
    exact or_comm
  · rename_i hc
    refine ⟨_, rfl, fun g => ⟨Or.inl, ?_⟩⟩
    rintro (hg | ⟨rfl, hg⟩)
    · exact hg
    · by_contra hn
      exact hc ⟨ha.mpr hg, hn⟩

@[simp] theorem overstayHand_seat (h : Handle) (s : State) : (overstayHand h s).seat = s.seat.map (Decision.overstay h) := rfl

/-- The notice changes nothing but the decision in hand, beside the records. -/
theorem overstayHand_eq (h : Handle) (s : State) : overstayHand h s = { s with seat := (overstayHand h s).seat } := rfl

end Sys2Proof.Machine
end

