-- ==== Sys2Proof/Laws/Frames.lean ====
section
/-! SUPPORT. The line half-bit by half-bit: what the receiver reads of a frame as R183 has it sent, and that it reads nothing else as one. -/

namespace Sys2Proof.Machine

open Sys2Proof

/-! ## One byte -/

theorem manchesterByte_byteHalfBits (b : Byte) : manchesterByte (byteHalfBits b) = some b := by
  revert b
  decide +kernel

theorem byteHalfBits_ne_endDelimiter (b : Byte) : byteHalfBits b ≠ endDelimiter := by
  revert b
  decide +kernel

theorem byteHalfBits_length (b : Byte) : (byteHalfBits b).length = 16 := rfl

theorem manchesterBits_eq : ∀ {h : HalfBits} {bits : List Bool}, manchesterBits h = some bits → h = bits.flatMap halfBits
  | [], bits, e => by
    cases e
    rfl
  | [_], _, e => by cases e
  | h1 :: h2 :: rest, bits, e => by
    unfold manchesterBits at e
    split at e <;> cases e
    rename_i b bs hb hbs
    rw [manchesterBits_eq hbs]
    cases h1 <;> cases h2 <;> simp_all [bitOfHalves, halfBits]

theorem flatMap_halfBits_length (bits : List Bool) : (bits.flatMap halfBits).length = 2 * bits.length := by
  induction bits with
  | nil => rfl
  | cons b bits ih =>
    simp only [List.flatMap_cons, List.length_append, List.length_cons, ih]
    simp [halfBits]
    omega

/-- The bits that a byte is made of are its own. -/
theorem byteBits_of_head {b : Byte} : ∀ {bits : List Bool}, bits.length ≤ 8 → (bytesOfBits bits).head? = some b → byteBits b = bits
  | [b7, b6, b5, b4, b3, b2, b1, b0], _, h => by
    obtain rfl := Option.some.inj h
    clear h
    revert b7 b6 b5 b4 b3 b2 b1 b0
    decide
  | [], _, h | [_], _, h | [_, _], _, h | [_, _, _], _, h | [_, _, _, _], _, h | [_, _, _, _, _], _, h
  | [_, _, _, _, _, _], _, h | [_, _, _, _, _, _, _], _, h => by cases h
  | _ :: _ :: _ :: _ :: _ :: _ :: _ :: _ :: _ :: _, hl, _ => by
    simp only [List.length_cons] at hl
    omega

/-- Sixteen half-bits that read as a byte are the byte's. -/
theorem manchesterByte_eq {h : HalfBits} {b : Byte} (hl : h.length ≤ 16) (e : manchesterByte h = some b) :
    h = byteHalfBits b := by
  obtain ⟨bits, hb, hr⟩ := Option.bind_eq_some_iff.mp e
  obtain rfl := manchesterBits_eq hb
  rw [flatMap_halfBits_length] at hl
  rw [byteHalfBits, byteBits_of_head (by omega) hr]

/-! ## The bytes up to the end delimiter -/

theorem bytesToEnd_sent (bytes : List Byte) (behind : HalfBits) (count : Nat) (h : bytes.length < count) :
    bytesToEnd count (bytes.flatMap byteHalfBits ++ endDelimiter ++ behind) = (bytes, true) := by
  induction bytes generalizing count with
  | nil =>
    obtain ⟨count, rfl⟩ := Nat.exists_eq_add_of_lt h
    simp [bytesToEnd, show endDelimiter.length = 16 from rfl]
  | cons b bytes ih =>
    match count, h with
    | count + 1, h =>
      have hs : (b :: bytes).flatMap byteHalfBits ++ endDelimiter ++ behind =
          byteHalfBits b ++ (bytes.flatMap byteHalfBits ++ endDelimiter ++ behind) := by simp
      rw [bytesToEnd, hs, List.take_left' (byteHalfBits_length b), List.drop_left' (byteHalfBits_length b),
        if_neg (byteHalfBits_ne_endDelimiter b), manchesterByte_byteHalfBits, ih count (Nat.lt_of_succ_lt_succ h)]

theorem bytesToEnd_eq {count : Nat} {line : HalfBits} {bytes : List Byte} (h : bytesToEnd count line = (bytes, true)) :
    ∃ behind, line = bytes.flatMap byteHalfBits ++ endDelimiter ++ behind := by
  induction count generalizing line bytes with
  | zero => cases h
  | succ count ih =>
    rw [bytesToEnd] at h
    split at h
    · rename_i he
      cases h
      exact ⟨line.drop 16, by simpa [he] using (List.take_append_drop 16 line).symm⟩
    · split at h
      · cases h
      · rename_i b hb
        obtain ⟨hb', hr⟩ := Prod.mk.inj h
        obtain ⟨behind, hl⟩ := ih (Prod.ext rfl hr)
        refine ⟨behind, ?_⟩
        rw [← hb', List.flatMap_cons, List.append_assoc, List.append_assoc, ← List.append_assoc _ endDelimiter, ← hl,
          ← manchesterByte_eq (List.length_take_le ..) hb, List.take_append_drop]

/-! ## The start delimiter -/

theorem atStart_eq {line before behind : HalfBits} (h : atStart line = some (before, behind)) :
    line = before ++ startDelimiter ++ behind := by
  induction line generalizing before with
  | nil => cases h
  | cons x rest ih =>
    rw [atStart] at h
    split at h
    · rename_i hp
      obtain ⟨rfl, rfl⟩ := Prod.mk.inj (Option.some.inj h)
      obtain ⟨t, ht⟩ := List.isPrefixOf_iff_prefix.mp hp
      rw [← ht]
      simp [List.drop_left' (show startDelimiter.length = 16 from rfl)]
    · split at h
      · cases h
      · rename_i p q hr
        obtain ⟨rfl, rfl⟩ := Prod.mk.inj (Option.some.inj h)
        simp [ih hr]

theorem atStart_none {line : HalfBits} : atStart line = none ↔ ¬ startDelimiter <:+: line := by
  induction line with
  | nil => simp [atStart, startDelimiter]
  | cons x rest ih =>
    rw [List.infix_cons_iff, ← List.isPrefixOf_iff_prefix, not_or, ← ih, atStart]
    split
    · rename_i hp
      simp [hp]
    · rename_i hp
      simp only [hp]
      split <;> simp_all

theorem atStart_sent (behind : HalfBits) : atStart (preamble ++ startDelimiter ++ behind) = some (preamble, behind) := rfl

/-! ## The carrier -/

/-- A carrier without a start delimiter is no frame (R142). -/
theorem receiveLine_none {line : HalfBits} : receiveLine line = none ↔ ¬ startDelimiter <:+: line := by
  rw [← atStart_none, receiveLine]
  split <;> simp_all

/-- Of a frame as sent the receiver has every byte, whatever follows its end delimiter (R183). -/
theorem receiveLine_onLine (bytes : List Byte) (behind : HalfBits) :
    receiveLine (onLine bytes ++ behind) = some ⟨true, bytes, true⟩ := by
  have hl : bytes.length < (bytes.flatMap byteHalfBits ++ endDelimiter ++ behind).length := by
    have : ∀ bs : List Byte, bs.length ≤ (bs.flatMap byteHalfBits).length := fun bs => by
      induction bs with
      | nil => exact Nat.le_refl _
      | cons b bs ih =>
        simp only [List.flatMap_cons, List.length_append, List.length_cons, byteHalfBits_length]
        omega
    have := this bytes
    simp only [List.length_append, show endDelimiter.length = 16 from rfl]
    omega
  have he : onLine bytes ++ behind = preamble ++ startDelimiter ++ (bytes.flatMap byteHalfBits ++ endDelimiter ++ behind) := by
    simp [onLine]
  rw [he, receiveLine, atStart_sent]
  simp only [bytesToEnd_sent bytes behind _ hl, decide_true]

/-- A carrier that is received whole is the frame of its bytes, as R183 has it sent. -/
theorem receiveLine_whole {line : HalfBits} {bytes : List Byte} (h : receiveLine line = some ⟨true, bytes, true⟩) :
    ∃ behind, line = onLine bytes ++ behind := by
  rw [receiveLine] at h
  split at h
  · cases h
  · rename_i before behind hs
    injection h with h
    injection h with hp hb he
    obtain ⟨rest, hr⟩ := bytesToEnd_eq (Prod.ext hb he)
    refine ⟨rest, ?_⟩
    rw [atStart_eq hs, of_decide_eq_true hp, hr]
    simp [onLine]

end Sys2Proof.Machine
end

