-- ==== Sys2Proof/Laws/Table.lean ====
section
/-! SUPPORT. Tables of numbered records: reading after writing, and the canonical form that every write keeps. -/

namespace Sys2Proof.Machine

open Sys2Proof

section
variable {α : Type} [DecidableEq α] (d : α)

omit [DecidableEq α] in
theorem Table.get_nil (k : Nat) : Table.get d ([] : Table α) k = d := rfl

theorem Table.wfFrom_weaken {low low' : Option Nat} {t : Table α} (h : Table.wfFrom d low t = true)
    (hle : ∀ l', low' = some l' → ∃ l, low = some l ∧ l' ≤ l) : Table.wfFrom d low' t = true := by
  cases t with
  | nil => rfl
  | cons p rest =>
    obtain ⟨j, w⟩ := p
    simp only [Table.wfFrom, Bool.and_eq_true, decide_eq_true_eq] at h ⊢
    refine ⟨⟨?_, h.1.2⟩, h.2⟩
    cases low' with
    | none => rfl
    | some l' =>
      obtain ⟨l, hl, hle'⟩ := hle l' rfl
      subst hl
      have := h.1.1
      simp only [decide_eq_true_eq] at this ⊢
      omega

/-- Below the first number of a canonical table, every number reads as the default. -/
theorem Table.get_below {low : Nat} {t : Table α} (h : Table.wfFrom d (some low) t = true) {k : Nat} (hk : k ≤ low) :
    Table.get d t k = d := by
  induction t generalizing low with
  | nil => rfl
  | cons p rest ih =>
    obtain ⟨j, w⟩ := p
    simp only [Table.wfFrom, Bool.and_eq_true, decide_eq_true_eq] at h
    have hj : ¬ j = k := by omega
    simp only [Table.get, hj, if_false]
    exact ih h.2 (by omega)

theorem Table.get_set_from {low : Option Nat} {t : Table α} (h : Table.wfFrom d low t = true) (k : Nat) (v : α)
    (j : Nat) : Table.get d (Table.set d t k v) j = if j = k then v else Table.get d t j := by
  induction t generalizing low with
  | nil =>
    by_cases hv : v = d <;> by_cases hj : j = k <;> simp [Table.set, Table.get, hv, hj]
    intro hkj
    exact absurd hkj.symm hj
  | cons p rest ih =>
    obtain ⟨i, w⟩ := p
    simp only [Table.wfFrom, Bool.and_eq_true, decide_eq_true_eq] at h
    have hbelow : ∀ m, m ≤ i → Table.get d rest m = d := fun m hm => Table.get_below d h.2 hm
    have ih' := ih h.2
    by_cases hki : k < i
    · by_cases hv : v = d
      · by_cases hj : j = k
        · subst hj hv
          have : ¬ i = j := by omega
          simp [Table.set, hki, Table.get, this, hbelow j (by omega)]
        · simp [Table.set, hki, hv, hj]
      · by_cases hj : j = k
        · simp [Table.set, hki, hv, Table.get, hj]
        · have : ¬ k = j := fun e => hj e.symm
          simp [Table.set, hki, hv, Table.get, hj, this]
    · by_cases hke : k = i
      · subst hke
        by_cases hv : v = d
        · by_cases hj : j = k
          · subst hj hv
            simp [Table.set, hbelow j (le_refl _)]
          · have : ¬ k = j := fun e => hj e.symm
            simp [Table.set, hv, Table.get, hj, this]
        · by_cases hj : j = k
          · simp [Table.set, hv, Table.get, hj]
          · have : ¬ k = j := fun e => hj e.symm
            simp [Table.set, hv, Table.get, hj, this]
      · have hne : ¬ k = i := hke
        simp only [Table.set, hki, hne, if_false, Table.get]
        by_cases hij : i = j
        · have : ¬ j = k := by omega
          simp [hij, this]
        · simp only [hij, if_false]
          exact ih'

/-- Reading after writing, on a canonical table. -/
theorem Table.get_set {t : Table α} (h : Table.wf d t = true) (k : Nat) (v : α) (j : Nat) :
    Table.get d (Table.set d t k v) j = if j = k then v else Table.get d t j := Table.get_set_from d h k v j

theorem Table.wfFrom_set {low : Option Nat} {t : Table α} (h : Table.wfFrom d low t = true) (k : Nat) (v : α)
    (hk : ∀ l, low = some l → l < k) : Table.wfFrom d low (Table.set d t k v) = true := by
  induction t generalizing low with
  | nil =>
    by_cases hv : v = d
    · simp [Table.set, hv, Table.wfFrom]
    · cases low with
      | none => simp [Table.set, hv, Table.wfFrom]
      | some l => simp [Table.set, hv, Table.wfFrom, hk l rfl]
  | cons p rest ih =>
    obtain ⟨i, w⟩ := p
    have h0 := h
    simp only [Table.wfFrom, Bool.and_eq_true, decide_eq_true_eq] at h
    by_cases hki : k < i
    · by_cases hv : v = d
      · simpa [Table.set, hki, hv] using h0
      · have h1 : Table.wfFrom d (some k) ((i, w) :: rest) = true := by
          simp only [Table.wfFrom, Bool.and_eq_true, decide_eq_true_eq]
          exact ⟨⟨hki, h.1.2⟩, h.2⟩
        simp only [Table.set, hki, if_true, hv, if_false]
        rw [Table.wfFrom.eq_def]
        simp only [Bool.and_eq_true, decide_eq_true_eq]
        refine ⟨⟨?_, hv⟩, h1⟩
        cases low with
        | none => rfl
        | some l => simpa using hk l rfl
    · by_cases hke : k = i
      · subst hke
        by_cases hv : v = d
        · simp only [Table.set, lt_irrefl, if_false, if_true, hv]
          refine Table.wfFrom_weaken d h.2 ?_
          intro l' hl'
          exact ⟨k, rfl, (hk l' hl').le⟩
        · simp only [Table.set, lt_irrefl, if_false, if_true, hv, Table.wfFrom, Bool.and_eq_true,
            decide_eq_true_eq]
          exact ⟨⟨h.1.1, hv⟩, h.2⟩
      · simp only [Table.set, hki, hke, if_false, Table.wfFrom, Bool.and_eq_true, decide_eq_true_eq]
        refine ⟨h.1, ih h.2 ?_⟩
        intro l hl
        cases hl
        omega

/-- A write keeps the canonical form. -/
theorem Table.wf_set {t : Table α} (h : Table.wf d t = true) (k : Nat) (v : α) :
    Table.wf d (Table.set d t k v) = true :=
  Table.wfFrom_set d h k v (by intro l hl; cases hl)

omit [DecidableEq α] in
/-- A property that the default and every listed record have, every number's record has. -/
theorem Table.get_of_all (p : α → Bool) (hd : p d = true) {t : Table α} (h : t.all (fun e => p e.2) = true) (k : Nat) :
    p (Table.get d t k) = true := by
  induction t with
  | nil => exact hd
  | cons e rest ih =>
    obtain ⟨j, w⟩ := e
    simp only [List.all_cons, Bool.and_eq_true] at h
    by_cases hj : j = k
    · simpa [Table.get, hj] using h.1
    · simpa [Table.get, hj] using ih h.2

/-- A property that every listed record and the record written have, every listed record has after the write. -/
theorem Table.all_set (p : α → Bool) {t : Table α} (h : t.all (fun e => p e.2) = true) (k : Nat) (v : α) (hv : p v = true) :
    (Table.set d t k v).all (fun e => p e.2) = true := by
  induction t with
  | nil => unfold Table.set; split <;> simp [hv]
  | cons e rest ih =>
    obtain ⟨j, w⟩ := e
    simp only [List.all_cons, Bool.and_eq_true] at h
    have ih := ih h.2
    unfold Table.set
    (repeat' split) <;> simp only [List.all_cons, Bool.and_eq_true, hv, h, ih, and_self]

omit [DecidableEq α] in
/-- A number that is not listed reads as the default. -/
theorem Table.get_of_not_mem {t : Table α} {k : Nat} (h : k ∉ Table.keys t) : Table.get d t k = d := by
  induction t with
  | nil => rfl
  | cons e rest ih =>
    obtain ⟨j, w⟩ := e
    simp only [Table.keys, List.map_cons, List.mem_cons, not_or] at h
    simp only [Table.get, if_neg (Ne.symm h.1)]
    exact ih h.2

theorem Table.keys_pairwise {low : Option Nat} {t : Table α} (h : Table.wfFrom d low t = true) :
    (Table.keys t).Pairwise (· < ·) ∧ ∀ l, low = some l → ∀ j ∈ Table.keys t, l < j := by
  induction t generalizing low with
  | nil => exact ⟨List.Pairwise.nil, fun _ _ _ hj => absurd hj (by simp [Table.keys])⟩
  | cons e rest ih =>
    obtain ⟨i, w⟩ := e
    simp only [Table.wfFrom, Bool.and_eq_true] at h
    have hr := ih h.2
    have hlow : ∀ l, low = some l → l < i := by
      intro l hl
      subst hl
      simpa using h.1.1
    refine ⟨List.pairwise_cons.mpr ⟨fun j hj => hr.2 i rfl j hj, hr.1⟩, fun l hl j hj => ?_⟩
    simp only [Table.keys, List.map_cons, List.mem_cons] at hj
    rcases hj with rfl | hj
    · exact hlow l hl
    · exact lt_trans (hlow l hl) (hr.2 i rfl j hj)

variable {d} in
/-- The listed numbers of a canonical table rise, so that no number is listed twice. -/
theorem Table.keys_nodup {t : Table α} (h : Table.wf d t = true) : (Table.keys t).Nodup :=
  (Table.keys_pairwise d h).1.imp Nat.ne_of_lt

end

end Sys2Proof.Machine
end

