-- ==== Sys2Proof/Laws/Keeps.lean ====
section
/-! SUPPORT. Every operation keeps what the stored items satisfy, and the queue: the relation, its record form, and the operations of Flags.lean and Retained.lean. -/

namespace Sys2Proof.Machine

open Sys2Proof

/-! ## The parts of the invariant that the stored items make -/

/-- A presence record in use that is not faulted. -/
def PresenceRecord.held (x : PresenceRecord) : Bool := x.index.value.inUse && !x.index.value.faulted

/-- No credential stands in two records that are in use and not faulted (R54). -/
def State.apart (s : State) : Prop :=
  ∀ i j, (s.record i).held = true → (s.record j).held = true →
    (s.record i).body.value.credential = (s.record j).body.value.credential → i = j

/-- The invariant without State.placesOk, by name. -/
structure Stores (s : State) : Prop where
  slots : Table.wf Slot.cleared s.grants = true
  rooms : Table.wf Room.cleared s.rooms = true
  records : Table.wf PresenceRecord.free s.presence = true
  stations : Table.wf Station.cleared s.stations = true
  pairs : Table.wf none s.pairs = true
  latches : s.latches &&& ~~~causeBits = 0
  mask : s.attentionMask &&& ~~~causeBits = 0
  resets : s.resetCauses &&& ~~~causeBits = 0
  deferred : s.deferred.value &&& ~~~deferrableBits = 0
  requests : s.requests.length ≤ Config.requestPlaces
  approvals : s.approvals ≤ Config.approvals
  hotCards : s.hotCards ≤ Config.hotCards
  references : (s.referrals.map (·.reference)).Nodup
  uses : s.usesOk = true
  bar : s.barOk = true
  apart : s.apart

/-- With the table canonical, the records of State.readableRecords are those that are held. -/
theorem mem_readableRecords {s : State} (id : Nat) : id ∈ s.readableRecords ↔ (s.record id).held = true := by
  simp only [State.readableRecords, State.inUseRecords, List.mem_filter, PresenceRecord.held, Bool.and_eq_true, State.index]
  refine ⟨fun h => ⟨h.1.2, h.2⟩, fun h => ⟨⟨?_, h.1⟩, h.2⟩⟩
  by_contra hn
  have : s.record id = PresenceRecord.free := Table.get_of_not_mem _ hn
  rw [this] at h
  exact absurd h.1 (by decide)

theorem credentialsApart_iff {s : State} (hw : Table.wf PresenceRecord.free s.presence = true) :
    s.credentialsApart = true ↔ s.apart := by
  have hn : s.readableRecords.Nodup := ((Table.keys_nodup hw).filter _).filter _
  rw [State.credentialsApart, decide_eq_true_eq, List.nodup_map_iff_inj_on hn]
  simp only [mem_readableRecords, State.apart]
  exact ⟨fun h i j hi hj => h i hi j hj, fun h i hi j hj => h i j hi hj⟩

/-- The invariant in two parts. -/
theorem inv_iff (s : State) : s.inv = true ↔ Stores s ∧ s.placesOk = true := by
  simp only [State.inv, State.tablesWf, State.latchesOk, State.queuesOk, Bool.and_eq_true, beq_iff_eq, decide_eq_true_eq]
  constructor
  · rintro ⟨⟨⟨⟨⟨⟨⟨⟨⟨⟨h1, h2⟩, h3⟩, h4⟩, h5⟩, ⟨⟨h6, h7⟩, h8⟩, h9⟩, ⟨⟨h10, h11⟩, h12⟩, h13⟩, h14⟩, h15⟩, hp⟩, h16⟩
    exact ⟨⟨h1, h2, h3, h4, h5, h6, h7, h8, h9, h10, h11, h12, h13, h14, h15, (credentialsApart_iff h3).mp h16⟩, hp⟩
  · rintro ⟨h, hp⟩
    exact ⟨⟨⟨⟨⟨⟨⟨⟨⟨⟨h.slots, h.rooms⟩, h.records⟩, h.stations⟩, h.pairs⟩, ⟨⟨h.latches, h.mask⟩, h.resets⟩, h.deferred⟩,
      ⟨⟨h.requests, h.approvals⟩, h.hotCards⟩, h.references⟩, h.uses⟩, h.bar⟩, hp⟩, (credentialsApart_iff h.records).mpr h.apart⟩

/-! ## The relation -/

/-- The fields that Stores and the queue are made of, as written into a state. -/
def State.guarded (a : State) (grants : Table Slot) (rooms : Table Room) (presence : Table PresenceRecord)
    (stations : Table Station) (pairs : Table (Option PairContext)) (attention : Word) (attentionTaken : Option Word)
    (attentionMask resetCauses : Word) (deferred : Voted Word) (requests : List Request) (referrals : List ReferralEntry)
    (barHeader : Voted BarHeader) (barEntries : List (Stored Credential)) (pending : List Instr) : State :=
  { a with
    grants := grants
    rooms := rooms
    presence := presence
    stations := stations
    pairs := pairs
    attention := attention
    attentionTaken := attentionTaken
    attentionMask := attentionMask
    resetCauses := resetCauses
    deferred := deferred
    requests := requests
    referrals := referrals
    barHeader := barHeader
    barEntries := barEntries
    pending := pending }

/-- From `a` to `t` the queue is the same, and Stores is kept. -/
def Keeps (a t : State) : Prop := t.pending = a.pending ∧ (Stores a → Stores t)

/-- From `a` to a state with these fields: the queue is the same, and Stores is kept. -/
def KeepsFields (a : State) (grants : Table Slot) (rooms : Table Room) (presence : Table PresenceRecord)
    (stations : Table Station) (pairs : Table (Option PairContext)) (attention : Word) (attentionTaken : Option Word)
    (attentionMask resetCauses : Word) (deferred : Voted Word) (requests : List Request) (referrals : List ReferralEntry)
    (barHeader : Voted BarHeader) (barEntries : List (Stored Credential)) (pending : List Instr) : Prop :=
  Keeps a (a.guarded grants rooms presence stations pairs attention attentionTaken attentionMask resetCauses deferred
    requests referrals barHeader barEntries pending)

/-- Stores looks at the guarded fields alone. -/
theorem stores_guarded (a t : State) (h : Stores t) :
    Stores (a.guarded t.grants t.rooms t.presence t.stations t.pairs t.attention t.attentionTaken t.attentionMask
      t.resetCauses t.deferred t.requests t.referrals t.barHeader t.barEntries t.pending) :=
  ⟨h.slots, h.rooms, h.records, h.stations, h.pairs, h.latches, h.mask, h.resets, h.deferred, h.requests, h.approvals,
    h.hotCards, h.references, h.uses, h.bar, h.apart⟩

theorem stores_of_guarded (a t : State)
    (h : Stores (a.guarded t.grants t.rooms t.presence t.stations t.pairs t.attention t.attentionTaken t.attentionMask
      t.resetCauses t.deferred t.requests t.referrals t.barHeader t.barEntries t.pending)) : Stores t :=
  ⟨h.slots, h.rooms, h.records, h.stations, h.pairs, h.latches, h.mask, h.resets, h.deferred, h.requests, h.approvals,
    h.hotCards, h.references, h.uses, h.bar, h.apart⟩

@[simp] theorem keepsFields_of_state (a t : State) :
    KeepsFields a t.grants t.rooms t.presence t.stations t.pairs t.attention t.attentionTaken t.attentionMask t.resetCauses
      t.deferred t.requests t.referrals t.barHeader t.barEntries t.pending ↔ Keeps a t :=
  ⟨fun h => ⟨h.1, fun i => stores_of_guarded a t (h.2 i)⟩, fun h => ⟨h.1, fun i => stores_guarded a t (h.2 i)⟩⟩

/-- A state written out is kept where its guarded fields are. -/
@[simp] theorem keeps_mk (a : State) (f1 f2 f3 f4 f5 f6 f7 f8 f9 f10 f11 f12 f13 f14 f15 f16 f17 f18 f19 f20 f21 f22 f23 f24
    f25 f26 f27 f28 f29 f30 f31 f32 f33 f34 f35 f36 f37 f38 f39 f40 f41 f42 f43 f44 f45 f46 f47 f48 f49 f50 f51 f52 f53 f54) :
    Keeps a ⟨f1, f2, f3, f4, f5, f6, f7, f8, f9, f10, f11, f12, f13, f14, f15, f16, f17, f18, f19, f20, f21, f22, f23, f24,
      f25, f26, f27, f28, f29, f30, f31, f32, f33, f34, f35, f36, f37, f38, f39, f40, f41, f42, f43, f44, f45, f46, f47, f48,
      f49, f50, f51, f52, f53, f54⟩ ↔
    KeepsFields a f12 f16 f17 f34 f25 f49 f8 f50 f51 f42 f22 f27 f20 f21 f54 :=
  (keepsFields_of_state a ⟨f1, f2, f3, f4, f5, f6, f7, f8, f9, f10, f11, f12, f13, f14, f15, f16, f17, f18, f19, f20, f21,
    f22, f23, f24, f25, f26, f27, f28, f29, f30, f31, f32, f33, f34, f35, f36, f37, f38, f39, f40, f41, f42, f43, f44, f45,
    f46, f47, f48, f49, f50, f51, f52, f53, f54⟩).symm

theorem Keeps.refl (s : State) : Keeps s s := ⟨rfl, id⟩

theorem Keeps.trans {s t u : State} (h : Keeps s t) (k : Keeps t u) : Keeps s u := ⟨k.1.trans h.1, fun i => k.2 (h.2 i)⟩

set_option linter.unusedTactic false
set_option linter.unnecessarySeqFocus false
set_option linter.unusedSimpArgs false

variable {a s : State}

/-! ## Writes of one guarded field -/

/-- Writing a slot, where the uses it holds are within their allowance. -/
theorem setSlot_keeps (k : Nat) (v : Slot) (hv : Stores a → v.body.value.usesOk = true) (h : Keeps a s) :
    Keeps a (s.setSlot k v) :=
  ⟨h.1, fun ia => { h.2 ia with
    slots := Table.wf_set _ (h.2 ia).slots _ _
    uses := Table.all_set _ (fun x : Slot => x.body.value.usesOk) (h.2 ia).uses k v (hv ia) }⟩

theorem slot_usesOk (i : Stores s) (k : Nat) : (s.slot k).body.value.usesOk = true :=
  Table.get_of_all _ (fun x : Slot => x.body.value.usesOk) (by decide) i.uses k

@[simp] theorem setRoom_keeps (k : Nat) (v : Room) (h : Keeps a s) : Keeps a (s.setRoom k v) :=
  h.trans ⟨rfl, fun i => { i with rooms := Table.wf_set _ i.rooms _ _ }⟩

/-- A presence record written adds no credential where it is not held or holds the credential of a record that was held. -/
theorem apart_setRecord (i : Stores s) (k : Nat) (v : PresenceRecord)
    (hv : v.held = true → ∀ j, (s.record j).held = true → (s.record j).body.value.credential = v.body.value.credential → j = k) :
    (s.setRecord k v).apart := by
  have hr : ∀ j, (s.setRecord k v).record j = if j = k then v else s.record j := Table.get_set _ i.records k v
  intro x y hx hy he
  rw [hr] at hx hy
  rw [hr, hr] at he
  by_cases h1 : x = k <;> by_cases h2 : y = k <;> simp only [h1, h2, if_true, if_false] at hx hy he
  · rw [h1, h2]
  · rw [h1]
    exact (hv hx y hy he.symm).symm
  · rw [h2]
    exact hv hy x hx he
  · exact i.apart x y hx hy he

/-- Writing a presence record that no other record's credential stands against. -/
theorem setRecord_keeps (k : Nat) (v : PresenceRecord)
    (hv : Stores a → v.held = true → ∀ j, (s.record j).held = true →
      (s.record j).body.value.credential = v.body.value.credential → j = k) (h : Keeps a s) : Keeps a (s.setRecord k v) :=
  ⟨h.1, fun ia => { h.2 ia with
    records := Table.wf_set _ (h.2 ia).records _ _
    apart := apart_setRecord (h.2 ia) k v (hv ia) }⟩

/-- Writing a presence record that holds no credential but its own. -/
theorem setRecord_keeps_own (k : Nat) (v : PresenceRecord)
    (hv : Stores a → v.held = true → (s.record k).held = true ∧ v.body.value.credential = (s.record k).body.value.credential)
    (h : Keeps a s) : Keeps a (s.setRecord k v) :=
  setRecord_keeps k v (fun i hh j hj he => (h.2 i).apart j k hj (hv i hh).1 (he.trans (hv i hh).2)) h

@[simp] theorem freeRecord_keeps (k : Nat) (h : Keeps a s) : Keeps a (s.setRecord k .free) :=
  setRecord_keeps k _ (fun _ hh => absurd hh (by decide)) h

@[simp] theorem setStation_keeps (k : Nat) (v : Station) (h : Keeps a s) : Keeps a (s.setStation k v) :=
  h.trans ⟨rfl, fun i => { i with stations := Table.wf_set _ i.stations _ _ }⟩

@[simp] theorem setPair_keeps (k : Nat) (v : Option PairContext) (h : Keeps a s) : Keeps a (s.setPair k v) :=
  h.trans ⟨rfl, fun i => { i with pairs := Table.wf_set _ i.pairs _ _ }⟩

@[simp] theorem updateStation_keeps (k : Nat) (f : Station → Station) (h : Keeps a s) : Keeps a (updateStation k f s) :=
  setStation_keeps k _ h

/-- The Bar List written with the same count and the same credentials. -/
theorem bars_keep (hd : Voted BarHeader) (es : List (Stored Credential)) (h : Keeps a s)
    (hc : hd.value.count = s.barHeader.value.count) (he : es.map (·.value) = s.barEntries.map (·.value)) :
    Keeps a { s with barHeader := hd, barEntries := es } := by
  refine h.trans ⟨rfl, fun i => { i with bar := ?_ }⟩
  have hb := i.bar
  have hl : es.length = s.barEntries.length := by simpa using congrArg List.length he
  have hp : ∀ l : List (Stored Credential), l.Pairwise (fun a b => a.value.toNat < b.value.toNat) ↔
      (l.map (·.value)).Pairwise (fun a b => a.toNat < b.toNat) := fun l => by rw [List.pairwise_map]
  simp only [State.barOk, Bool.and_eq_true, decide_eq_true_eq, hp, he, hl, hc] at hb ⊢
  exact hb

/-! ## Latches -/

theorem or_masked (u v m : Word) (hu : u &&& m = 0) (hv : v &&& m = 0) : (u ||| v) &&& m = 0 := by
  rw [BitVec.and_comm, BitVec.and_or_distrib_left, BitVec.and_comm, hu, BitVec.and_comm, hv]
  rfl

theorem or_masked_left {u v m : Word} (h : (u ||| v) &&& m = 0) : u &&& m = 0 := by
  have : u = u &&& (u ||| v) := by
    ext i
    simp only [BitVec.getElem_and, BitVec.getElem_or]
    cases u[i] <;> simp
  rw [this, BitVec.and_assoc, h]
  simp

/-- Latches written together keep the relation where they hold causes that exist. -/
theorem latches_keep (u : Word) (k : Option Word) (m r : Word) (d : Voted Word) (h : Keeps a s)
    (hl : Stores s → (u ||| k.getD 0) &&& ~~~causeBits = 0 ∧ m &&& ~~~causeBits = 0 ∧ r &&& ~~~causeBits = 0 ∧
      d.value &&& ~~~deferrableBits = 0) :
    Keeps a { s with attention := u, attentionTaken := k, attentionMask := m, resetCauses := r, deferred := d } :=
  h.trans ⟨rfl, fun i => { i with
    latches := (hl i).1
    mask := (hl i).2.1
    resets := (hl i).2.2.1
    deferred := (hl i).2.2.2 }⟩

theorem Cause.word_exists (c : Cause) : c.word &&& ~~~causeBits = 0 := by cases c <;> decide

theorem Cause.word_deferrable (c : Cause) (h : c.deferrable = true) : c.word &&& ~~~deferrableBits = 0 := by
  cases c <;> first | decide | exact absurd h (by decide)

@[simp] theorem voted_of_value {α : Type} [DecidableEq α] (v : α) : (Voted.of v).value = v := by simp [Voted.value]

@[simp] theorem markSiteCorrected_keeps (h : Keeps a s) : Keeps a s.markSiteCorrected := by
  simp [State.markSiteCorrected, h]

/-- The latches with more causes that exist. -/
theorem latches_or (i : Stores s) (w : Word) (hw : w &&& ~~~causeBits = 0) :
    (s.attention ||| w ||| s.attentionTaken.getD 0) &&& ~~~causeBits = 0 := by
  rw [BitVec.or_assoc, BitVec.or_comm w, ← BitVec.or_assoc]
  exact or_masked _ _ _ i.latches hw

@[simp] theorem raise_keeps (c : Cause) (h : Keeps a s) : Keeps a (raise c s) := by
  unfold raise
  split
  · split
    · exact latches_keep s.attention s.attentionTaken s.attentionMask _ s.deferred h fun i =>
        ⟨i.latches, i.mask, or_masked _ _ _ i.resets c.word_exists, i.deferred⟩
    · exact latches_keep _ s.attentionTaken s.attentionMask s.resetCauses s.deferred h fun i =>
        ⟨latches_or i _ c.word_exists, i.mask, i.resets, i.deferred⟩
  · split
    · rename_i hd
      split
      · exact latches_keep s.attention s.attentionTaken s.attentionMask s.resetCauses _ h fun i => by
          refine ⟨i.latches, i.mask, i.resets, ?_⟩
          rw [voted_of_value]
          exact or_masked _ _ _ i.deferred (c.word_deferrable hd)
      · apply markSiteCorrected_keeps
        exact latches_keep s.attention s.attentionTaken s.attentionMask s.resetCauses _ h fun i => by
          refine ⟨i.latches, i.mask, i.resets, ?_⟩
          rw [voted_of_value]
          exact or_masked _ _ _ (or_masked _ _ _ i.deferred (c.word_deferrable hd)) (by decide)
    · exact h

@[simp] theorem raiseIf_keeps (b : Bool) (c : Cause) (h : Keeps a s) : Keeps a (raiseIf b c s) := by
  unfold raiseIf; split <;> simp (maxDischargeDepth := 9) [h]

@[simp] theorem raiseTimes_keeps (n : Nat) (c : Cause) (h : Keeps a s) : Keeps a (raiseTimes n c s) := by
  unfold raiseTimes; split <;> simp (maxDischargeDepth := 9) [h]

@[simp] theorem readHealth_keeps (h : Keeps a s) : Keeps a (readHealth s).2 := by
  unfold readHealth; split <;> simp (maxDischargeDepth := 9) [h]

@[simp] theorem noteCorrected_keeps (r : Region) (h : Keeps a s) : Keeps a (noteCorrected r s) := by
  unfold noteCorrected; simp (maxDischargeDepth := 9) [h]

@[simp] theorem noteUncorrectable_keeps (r : Region) (h : Keeps a s) : Keeps a (noteUncorrectable r s) := by
  unfold noteUncorrectable; simp (maxDischargeDepth := 9) [h]

/-- A read by vote keeps the relation where writing the item back does. -/
@[simp] theorem readVoted_keeps {α : Type} [DecidableEq α] (region : Region) (item : Voted α) (put : Voted α → State → State)
    (hp : Keeps a (put (.of item.value) s)) (h : Keeps a s) : Keeps a (readVoted region item put s).2 := by
  unfold readVoted; split <;> simp [h, hp]

@[simp] theorem readDeferred_keeps (h : Keeps a s) : Keeps a (readDeferred s).2 :=
  readVoted_keeps _ _ _ (latches_keep s.attention s.attentionTaken s.attentionMask s.resetCauses _ h fun i => by
    rw [voted_of_value]
    exact ⟨i.latches, i.mask, i.resets, i.deferred⟩) h

/-- A fold keeps the relation where its step does. -/
theorem foldl_keeps {α : Type} (f : State → α → State) (l : List α) (hf : ∀ {s : State} (x : α), Keeps a s → Keeps a (f s x))
    (h : Keeps a s) : Keeps a (l.foldl f s) := by
  induction l generalizing s with
  | nil => exact h
  | cons x l ih => exact ih (hf x h)

/-! ## Request Queue and Referral Queue -/

/-- The reference and the kind of each entry: what the invariant looks at. -/
def State.entryKinds (s : State) : List (Nat × Bool) := s.referrals.map (fun e => (e.reference, e.isApproval))

theorem entryKinds_parts (s : State) :
    s.referrals.map (·.reference) = s.entryKinds.map Prod.fst ∧ s.approvals = s.entryKinds.countP (·.2) ∧
      s.hotCards = s.entryKinds.countP (fun p => !p.2) := by
  refine ⟨by simp [State.entryKinds, Function.comp_def], ?_, ?_⟩ <;>
    simp [State.entryKinds, State.approvals, State.hotCards, List.countP_eq_length_filter, List.filter_map,
      Function.comp_def]

/-- Fewer requests and fewer entries keep the relation. -/
theorem queues_keep (rs : List Request) (es : List ReferralEntry) (h : Keeps a s)
    (hr : Stores s → rs.length ≤ Config.requestPlaces)
    (he : Stores s → (es.map (fun e => (e.reference, e.isApproval))).Sublist s.entryKinds) :
    Keeps a { s with requests := rs, referrals := es } := by
  refine h.trans ⟨rfl, fun i => ?_⟩
  have he := he i
  have hs := entryKinds_parts s
  have ht := entryKinds_parts { s with requests := rs, referrals := es }
  refine { i with requests := hr i, approvals := ?_, hotCards := ?_, references := ?_ }
  · rw [ht.2.1]
    exact le_trans (List.Sublist.countP_le he) (hs.2.1 ▸ i.approvals)
  · rw [ht.2.2]
    exact le_trans (List.Sublist.countP_le he) (hs.2.2 ▸ i.hotCards)
  · have := i.references
    rw [hs.1] at this
    show (({ s with requests := rs, referrals := es } : State).referrals.map (·.reference)).Nodup
    rw [ht.1]
    exact this.sublist (he.map _)

/-! ## Retained.lean -/

@[simp] theorem readClockItem_keeps (hk : Keeps a s) : Keeps a (readClockItem s).2 := by
  unfold readClockItem
  try dsimp only
  (repeat' split) <;> simp (maxDischargeDepth := 30) [hk]

@[simp] theorem readTrim_keeps (hk : Keeps a s) : Keeps a (readTrim s).2 := by
  unfold readTrim
  try dsimp only
  (repeat' split) <;> simp (maxDischargeDepth := 30) [hk]

@[simp] theorem presentMinute_keeps (hk : Keeps a s) : Keeps a (presentMinute s).2 := by
  unfold presentMinute
  try dsimp only
  (repeat' split) <;> simp (maxDischargeDepth := 30) [hk]

@[simp] theorem readWindowSeconds_keeps (hk : Keeps a s) : Keeps a (readWindowSeconds s).2 := by
  unfold readWindowSeconds
  try dsimp only
  (repeat' split) <;> simp (maxDischargeDepth := 30) [hk]

@[simp] theorem readTimeoutSeconds_keeps (hk : Keeps a s) : Keeps a (readTimeoutSeconds s).2 := by
  unfold readTimeoutSeconds
  try dsimp only
  (repeat' split) <;> simp (maxDischargeDepth := 30) [hk]

@[simp] theorem readConfig_keeps (hk : Keeps a s) : Keeps a (readConfig s).2 := by
  unfold readConfig
  try dsimp only
  (repeat' split) <;> simp (maxDischargeDepth := 30) [hk]

@[simp] theorem readTamper_keeps (hk : Keeps a s) : Keeps a (readTamper s).2 := by
  unfold readTamper
  try dsimp only
  (repeat' split) <;> simp (maxDischargeDepth := 30) [hk]

@[simp] theorem writeTamper_keeps (t : Tamper) (hk : Keeps a s) : Keeps a (writeTamper t s) := by
  unfold writeTamper
  try dsimp only
  (repeat' split) <;> simp (maxDischargeDepth := 30) [hk]

@[simp] theorem readBarHeader_keeps (hk : Keeps a s) : Keeps a (readBarHeader s).2 :=
  readVoted_keeps _ _ _ (bars_keep _ s.barEntries hk (by rw [voted_of_value]) rfl) hk

@[simp] theorem readSlotHeader_keeps (k : Nat) (hk : Keeps a s) : Keeps a (readSlotHeader k s).2 :=
  readVoted_keeps _ _ _ (setSlot_keeps k _ (fun i => slot_usesOk (hk.2 i) k) hk) hk

@[simp] theorem writeSlotHeader_keeps (k : Nat) (h : SlotHeader) (hk : Keeps a s) : Keeps a (writeSlotHeader k h s) :=
  setSlot_keeps k _ (fun i => slot_usesOk (hk.2 i) k) hk

theorem writeSlotBody_keeps (k : Nat) (g : GrantRecord) (hg : Stores a → g.usesOk = true) (hk : Keeps a s) :
    Keeps a (writeSlotBody k g s) :=
  setSlot_keeps k _ hg hk

theorem writeSlot_keeps (k : Nat) (h : SlotHeader) (g : GrantRecord) (hg : Stores a → g.usesOk = true) (hk : Keeps a s) :
    Keeps a (writeSlot k h g s) :=
  setSlot_keeps k _ hg hk

@[simp] theorem readSlotBody_keeps (k : Nat) (hk : Keeps a s) : Keeps a (readSlotBody k s).2 := by
  unfold readSlotBody
  split
  · exact hk
  · exact noteCorrected_keeps _ (writeSlotBody_keeps k _ (fun i => slot_usesOk (hk.2 i) k) hk)
  · exact noteUncorrectable_keeps _ (writeSlotHeader_keeps k _ hk)

/-- A body that has been read is the slot's. -/
theorem readSlotBody_some {k : Nat} {g : GrantRecord} (h : (readSlotBody k s).1 = some g) : (s.slot k).body.value = g := by
  unfold readSlotBody at h
  split at h <;> simp_all

/-- A body that has been read has its uses within its allowance. -/
theorem readSlotBody_usesOk {k : Nat} {g : GrantRecord} (h : (readSlotBody k s).1 = some g) (i : Stores s) :
    g.usesOk = true := readSlotBody_some h ▸ slot_usesOk i k

@[simp] theorem readRoomHeader_keeps (r : Nat) (hk : Keeps a s) : Keeps a (readRoomHeader r s).2 := by
  unfold readRoomHeader
  try dsimp only
  (repeat' split) <;> simp (maxDischargeDepth := 30) [hk]

@[simp] theorem writeRoomHeader_keeps (r : Nat) (h : RoomState) (hk : Keeps a s) : Keeps a (writeRoomHeader r h s) := by
  unfold writeRoomHeader
  try dsimp only
  (repeat' split) <;> simp (maxDischargeDepth := 30) [hk]

@[simp] theorem writeRoomBody_keeps (r : Nat) (b : RoomBody) (hk : Keeps a s) : Keeps a (writeRoomBody r b s) := by
  unfold writeRoomBody
  try dsimp only
  (repeat' split) <;> simp (maxDischargeDepth := 30) [hk]

@[simp] theorem readRoomRecord_keeps (r : Nat) (hk : Keeps a s) : Keeps a (readRoomRecord r s).2 := by
  unfold readRoomRecord
  try dsimp only
  (repeat' split) <;> simp (maxDischargeDepth := 30) [hk]

@[simp] theorem setSuspect_keeps (r : Nat) (hk : Keeps a s) : Keeps a (setSuspect r s) := by
  unfold setSuspect
  try dsimp only
  (repeat' split) <;> simp (maxDischargeDepth := 30) [hk]

@[simp] theorem readIndex_keeps (id : Nat) (hk : Keeps a s) : Keeps a (readIndex id s).2 :=
  readVoted_keeps _ _ _ (setRecord_keeps_own id _ (fun _ h => ⟨by simpa [PresenceRecord.held] using h, rfl⟩) hk) hk

/-- Writing an index part that puts no record in use and clears no faulted flag. -/
theorem writeIndex_keeps (id : Nat) (i : PresenceIndex)
    (hi : Stores a → i.inUse = true → i.faulted = false → (s.record id).held = true) (hk : Keeps a s) : Keeps a (writeIndex id i s) :=
  setRecord_keeps_own id _ (fun ia h => by
    simp only [PresenceRecord.held, voted_of_value, Bool.and_eq_true, Bool.not_eq_true'] at h
    exact ⟨hi ia h.1 h.2, rfl⟩) hk

/-- Writing a body with the record's own credential. -/
theorem writePresenceBody_keeps (id : Nat) (b : PresenceBody)
    (hb : Stores a → b.credential = (s.record id).body.value.credential) (hk : Keeps a s) : Keeps a (writePresenceBody id b s) :=
  setRecord_keeps_own id _ (fun ia h => ⟨h, hb ia⟩) hk

@[simp] theorem readPresenceBody_keeps (id : Nat) (hk : Keeps a s) : Keeps a (readPresenceBody id s).2 := by
  unfold readPresenceBody
  dsimp only
  have h := readIndex_keeps id hk
  split
  · exact h
  · split
    · exact h
    · exact noteCorrected_keeps _ (writePresenceBody_keeps id _ (fun _ => rfl) h)
    · exact setSuspect_keeps _ (noteUncorrectable_keeps _ (writeIndex_keeps id _ (fun _ _ hf => absurd hf (by simp)) h))

@[simp] theorem readBarEntry_keeps (position : Nat) (hk : Keeps a s) : Keeps a (readBarEntry position s).2 := by
  unfold readBarEntry
  split
  · exact hk
  · rename_i e he
    split
    · exact hk
    · refine noteCorrected_keeps _ (bars_keep s.barHeader _ hk rfl ?_)
      rw [List.map_set]
      refine List.ext_getElem? fun n => ?_
      rw [List.getElem?_set]
      split
      · rename_i hn
        subst hn
        have := (List.getElem?_eq_some_iff.mp he).1
        have hv := (List.getElem?_eq_some_iff.mp he).2
        simp [this, hv]
      · rfl
    · exact noteUncorrectable_keeps _ (bars_keep _ s.barEntries hk (by simp) rfl)

@[simp] theorem readStationHeader_keeps (k : Nat) (hk : Keeps a s) : Keeps a (readStationHeader k s).2 := by
  unfold readStationHeader
  try dsimp only
  (repeat' split) <;> simp (maxDischargeDepth := 30) [hk]

@[simp] theorem giveNotices_keeps (receivers : List Block) (n : Notice) (ofCommand : Bool) (hk : Keeps a s) :
    Keeps a (giveNotices receivers n ofCommand s) := by
  unfold giveNotices
  try dsimp only
  (repeat' split) <;> simp (maxDischargeDepth := 30) [hk]

@[simp] theorem readStationBody_keeps (k : Nat) (hk : Keeps a s) : Keeps a (readStationBody k s).2 := by
  unfold readStationBody
  try dsimp only
  (repeat' split) <;> simp (maxDischargeDepth := 30) [hk]

@[simp] theorem writeStationBody_keeps (k : Nat) (b : StationBody) (hk : Keeps a s) :
    Keeps a (writeStationBody k b s) := by
  unfold writeStationBody
  try dsimp only
  (repeat' split) <;> simp (maxDischargeDepth := 30) [hk]

@[simp] theorem boundStationsFrom_keeps (r : Nat) (ks : List Nat) (hk : Keeps a s) :
    Keeps a (boundStationsFrom r ks s).2 := by
  induction ks generalizing s with
  | nil => exact hk
  | cons k ks ih =>
    unfold boundStationsFrom
    dsimp only
    (repeat' split) <;> exact ih (readStationBody_keeps k hk)

@[simp] theorem boundStations_keeps (r : Nat) (hk : Keeps a s) : Keeps a (boundStations r s).2 := by
  unfold boundStations
  try dsimp only
  (repeat' split) <;> simp (maxDischargeDepth := 30) [hk]

end Sys2Proof.Machine
end

