-- ==== Sys2Proof/Laws/KeepsBlocks.lean ====
section
/-! SUPPORT. The operations of the blocks keep what the stored items satisfy, and the queue: the port, the tables, the queues, the modes and the sweep. -/

namespace Sys2Proof.Machine

open Sys2Proof

set_option linter.unusedTactic false
set_option linter.unnecessarySeqFocus false
set_option linter.unusedSimpArgs false

variable {a s : State}

/-! ## Port.lean -/

@[simp] theorem finish_keeps (r : CommandResult) (hk : Keeps a s) : Keeps a (finish r s) := by
  unfold finish
  try dsimp only
  (repeat' split) <;> simp (maxDischargeDepth := 30) [hk]

@[simp] theorem refuse_keeps (c : ResultCode) (hk : Keeps a s) : Keeps a (refuse c s) := by
  unfold refuse
  try dsimp only
  (repeat' split) <;> simp (maxDischargeDepth := 30) [hk]

@[simp] theorem finishOk_keeps (hk : Keeps a s) : Keeps a (finishOk s) := by
  unfold finishOk
  try dsimp only
  (repeat' split) <;> simp (maxDischargeDepth := 30) [hk]

/-- A write to COMMAND keeps the relation where its owner does. -/
theorem commandWrite_keeps (code : BitVec 8) (owner : State → State)
    (ho : ∀ {s : State}, Keeps a s → Keeps a (owner s)) (hk : Keeps a s) : Keeps a (commandWrite code owner s) := by
  unfold commandWrite
  (repeat' split) <;> first | exact hk | (simp [hk]) | (apply ho; simp [hk])

@[simp] theorem completePort_keeps (r : CommandResult) (hk : Keeps a s) : Keeps a (completePort r s) := by
  unfold completePort
  try dsimp only
  (repeat' split) <;> simp (maxDischargeDepth := 30) [hk]

@[simp] theorem writeArgument_keeps (address : BitVec 7) (v : Word) (hk : Keeps a s) :
    Keeps a (writeArgument address v s) := by
  unfold writeArgument
  try dsimp only
  (repeat' split) <;> simp (maxDischargeDepth := 30) [hk]

@[simp] theorem writeMask_keeps (v : Word) (hk : Keeps a s) : Keeps a (writeMask v s) :=
  latches_keep s.attention s.attentionTaken _ s.resetCauses s.deferred hk fun i =>
    ⟨i.latches, by rw [BitVec.and_assoc]; simp, i.resets, i.deferred⟩

@[simp] theorem takeAttention_keeps (hk : Keeps a s) : Keeps a (takeAttention s) := by
  have := latches_keep 0 (some s.latches) s.attentionMask s.resetCauses s.deferred hk fun i =>
    ⟨by simpa using i.latches, i.mask, i.resets, i.deferred⟩
  simpa [takeAttention] using this

@[simp] theorem clearTaken_keeps (hk : Keeps a s) : Keeps a (clearTaken s) :=
  latches_keep s.attention none s.attentionMask s.resetCauses s.deferred hk fun i =>
    ⟨by simpa using or_masked_left i.latches, i.mask, i.resets, i.deferred⟩

@[simp] theorem dropTaken_keeps (hk : Keeps a s) : Keeps a (dropTaken s) :=
  latches_keep s.latches none s.attentionMask s.resetCauses s.deferred hk fun i =>
    ⟨by simpa using i.latches, i.mask, i.resets, i.deferred⟩

/-! ## Grants.lean -/

@[simp] theorem checkHandle_keeps (h : Handle) (hk : Keeps a s) : Keeps a (checkHandle h s).2 := by
  unfold checkHandle
  try dsimp only
  (repeat' split) <;> simp (maxDischargeDepth := 30) [hk]

@[simp] theorem searchRead_keeps (c : Credential) (key : Key) (t : Minute) (f : Search) (hk : Keeps a s) :
    Keeps a (searchRead c key t f s).2 := by
  unfold searchRead
  try dsimp only
  (repeat' split) <;> simp (maxDischargeDepth := 30) [hk]

/-- One use taken, the rest are within the allowance. -/
theorem takeUse_usesOk {g : GrantRecord} (h : g.usesOk = true) : (takeUse g).2.1.usesOk = true := by
  unfold takeUse
  split
  · exact h
  · rename_i u hu
    simp only [GrantRecord.usesOk, hu, Option.all_some, decide_eq_true_eq] at h ⊢
    omega

@[simp] theorem claimSlot_keeps (h : Handle) (c : Credential) (key : Key) (t : Minute) (hk : Keeps a s) :
    Keeps a (claimSlot h c key t s).2 := by
  unfold claimSlot
  dsimp only
  have h1 := readSlotHeader_keeps h.slot hk
  (repeat' split) <;> first
    | exact h1
    | exact readSlotBody_keeps h.slot h1
    | exact writeSlot_keeps _ _ _ (fun ia => takeUse_usesOk (readSlotBody_usesOk (by assumption) (h1.2 ia)))
        (readSlotBody_keeps h.slot h1)

@[simp] theorem returnUse_keeps (h : Handle) (hk : Keeps a s) : Keeps a (returnUse h s) := by
  unfold returnUse
  dsimp only
  have h1 := readSlotHeader_keeps h.slot hk
  have h2 := readSlotBody_keeps h.slot h1
  have hok : ∀ (g : GrantRecord) (u : Uses), ¬ u.allowance ≤ u.remaining →
      ({ g with uses := some { u with remaining := u.remaining + 1 } } : GrantRecord).usesOk = true := fun g u hu => by
    simp only [GrantRecord.usesOk, Option.all_some, decide_eq_true_eq]
    omega
  (repeat' split) <;> first
    | exact hk
    | exact h1
    | exact h2
    | exact writeSlot_keeps _ _ _ (fun _ => hok _ _ (by assumption)) (presentMinute_keeps h2)
    | exact writeSlotBody_keeps _ _ (fun _ => hok _ _ (by assumption)) h2

@[simp] theorem returnClaims_keeps (claims : List Claim) (hk : Keeps a s) : Keeps a (returnClaims claims s) := by
  unfold returnClaims
  refine foldl_keeps _ _ (fun x h => ?_) (by simp [hk])
  (repeat' split) <;> simp (maxDischargeDepth := 30) [h]

@[simp] theorem findFreeSlot_keeps (count k : Nat) (hk : Keeps a s) : Keeps a (findFreeSlot count k s).2 := by
  induction count generalizing k s with
  | zero => exact hk
  | succ n ih =>
    unfold findFreeSlot
    dsimp only
    split
    · exact readSlotHeader_keeps k hk
    · exact ih _ (readSlotHeader_keeps k hk)

/-! ## Presence.lean -/

@[simp] theorem scanIndexes_keeps (hk : Keeps a s) : Keeps a (scanIndexes s) := by
  unfold scanIndexes
  refine foldl_keeps _ _ (fun x h => ?_) (by simp [hk])
  (repeat' split) <;> simp (maxDischargeDepth := 30) [h]

theorem setCondition_keeps (name : ConditionName) (id : Nat) (b : PresenceBody)
    (hb : Stores a → b.credential = (s.record id).body.value.credential) (hk : Keeps a s) :
    Keeps a (setCondition name id b s).2 := by
  unfold setCondition
  split
  · exact hk
  · exact raiseIf_keeps _ _ (writePresenceBody_keeps id _ hb hk)

theorem clearCondition_keeps (name : ConditionName) (id : Nat) (b : PresenceBody)
    (hb : Stores a → b.credential = (s.record id).body.value.credential) (hk : Keeps a s) :
    Keeps a (clearCondition name id b s).2 := by
  unfold clearCondition
  split
  · exact writePresenceBody_keeps id _ hb hk
  · exact hk

/-! ### What a read of a presence body leaves of the records -/

/-- From `s` to `t` no record gets held, and those held keep their credentials. -/
def Thins (s t : State) : Prop :=
  ∀ j, (t.record j).held = true →
    (s.record j).held = true ∧ (t.record j).body.value.credential = (s.record j).body.value.credential

theorem Thins.refl (s : State) : Thins s s := fun _ h => ⟨h, rfl⟩

theorem Thins.trans {s t u : State} (h : Thins s t) (k : Thins t u) : Thins s u := fun j hj =>
  ⟨(h j (k j hj).1).1, (k j hj).2.trans (h j (k j hj).1).2⟩

/-- With the same records nothing is thinned. -/
theorem Thins.of_presence {s t : State} (h : t.presence = s.presence) : Thins s t := by
  have : ∀ j, t.record j = s.record j := fun j => by rw [State.record, State.record, h]
  exact fun j hj => by rw [this] at hj ⊢; exact ⟨hj, rfl⟩

theorem Thins.setRecord (i : Stores s) (k : Nat) (v : PresenceRecord)
    (hv : v.held = true → (s.record k).held = true ∧ v.body.value.credential = (s.record k).body.value.credential) :
    Thins s (s.setRecord k v) := by
  have hr : ∀ j, (s.setRecord k v).record j = if j = k then v else s.record j := Table.get_set _ i.records k v
  intro j hj
  rw [hr] at hj ⊢
  split at hj
  · rename_i h
    rw [if_pos h, h]
    exact hv hj
  · rename_i h
    rw [if_neg h]
    exact ⟨hj, rfl⟩

theorem raise_presence (c : Cause) (s : State) : (raise c s).presence = s.presence := by
  unfold raise; (repeat' split) <;> rfl

theorem noteCorrected_presence (r : Region) (s : State) : (noteCorrected r s).presence = s.presence := by
  unfold noteCorrected readHealth
  dsimp only
  split <;> simp [raise_presence, State.markSiteCorrected]

theorem noteUncorrectable_presence (r : Region) (s : State) : (noteUncorrectable r s).presence = s.presence := by
  unfold noteUncorrectable readHealth
  dsimp only
  split <;> simp [raise_presence, State.markSiteCorrected]

theorem readRoomRecord_presence (r : Nat) (s : State) : (readRoomRecord r s).2.presence = s.presence := by
  unfold readRoomRecord readRoomHeader readVoted
  dsimp only
  (repeat' split) <;>
    simp [noteCorrected_presence, noteUncorrectable_presence, State.setRoom, writeRoomBody, writeRoomHeader]

theorem setSuspect_presence (r : Nat) (s : State) : (setSuspect r s).presence = s.presence := by
  unfold setSuspect
  dsimp only
  split <;> simp [readRoomRecord_presence, writeRoomBody, State.setRoom]

/-- Reading an index part by vote leaves every record's value. -/
theorem readIndex_record (i : Stores s) (id j : Nat) :
    ((readIndex id s).2.record j).index.value = (s.record j).index.value ∧
      ((readIndex id s).2.record j).body = (s.record j).body := by
  unfold readIndex readVoted
  split
  · exact ⟨rfl, rfl⟩
  · have hr : ∀ v : PresenceRecord, (noteCorrected .site (s.setRecord id v)).record j = if j = id then v else s.record j := by
      intro v
      rw [State.record, noteCorrected_presence]
      exact Table.get_set _ i.records id v j
    rw [hr]
    split
    · rename_i h
      subst h
      exact ⟨voted_of_value _, rfl⟩
    · exact ⟨rfl, rfl⟩

theorem readIndex_fst (id : Nat) (s : State) : (readIndex id s).1 = (s.record id).index.value := by
  unfold readIndex readVoted; split <;> rfl

theorem readIndex_thins (i : Stores s) (id : Nat) : Thins s (readIndex id s).2 := fun j hj => by
  have h := readIndex_record i id j
  simp only [PresenceRecord.held, h.1] at hj ⊢
  exact ⟨hj, by rw [h.2]⟩

theorem scanIndexes_thins (i : Stores s) : Thins s (scanIndexes s) := by
  suffices h : ∀ (l : List Nat) (t : State), Stores t → Thins s t → Thins s (l.foldl (fun s id => (readIndex id s).2) t) from
    h _ _ i (.refl s)
  intro l
  induction l with
  | nil => exact fun t _ h => h
  | cons x l ih => exact fun t it h => ih _ ((readIndex_keeps x (.refl t)).2 it) (h.trans (readIndex_thins it x))

/-- A read of a body thins the records, answers the record's own credential, and leaves a record it cannot read not held. -/
theorem readPresenceBody_effect (i : Stores s) (id : Nat) :
    Thins s (readPresenceBody id s).2 ∧
      (match (readPresenceBody id s).1 with
        | some b => b.credential = ((readPresenceBody id s).2.record id).body.value.credential
        | none => ((readPresenceBody id s).2.record id).held = false) := by
  have i1 := (readIndex_keeps id (.refl s)).2 i
  have ht := readIndex_thins i id
  have hx := readIndex_record i id id
  have hf := readIndex_fst id s
  unfold readPresenceBody
  dsimp only
  split
  · rename_i h
    rw [hf] at h
    exact ⟨ht, by simp [PresenceRecord.held, hx.1, h]⟩
  · split
    · exact ⟨ht, rfl⟩
    · have hp : ∀ w, (noteCorrected .site (writePresenceBody id w (readIndex id s).2)).presence =
          (writePresenceBody id w (readIndex id s).2).presence := fun w => noteCorrected_presence _ _
      refine ⟨(ht.trans (.setRecord i1 id
        { (readIndex id s).2.record id with body := .of ((readIndex id s).2.record id).body.value }
        fun h => ⟨h, rfl⟩)).trans (.of_presence (hp _)), ?_⟩
      have hw := (Table.get_set PresenceRecord.free i1.records id
        { (readIndex id s).2.record id with body := .of ((readIndex id s).2.record id).body.value } id).trans (if_pos rfl)
      have he : (noteCorrected .site (writePresenceBody id ((readIndex id s).2.record id).body.value (readIndex id s).2)).record id =
          { (readIndex id s).2.record id with body := .of ((readIndex id s).2.record id).body.value } := by
        rw [State.record, hp]
        exact hw
      rw [he]
    · have hp : ∀ w, (setSuspect (readIndex id s).1.room (noteUncorrectable .site (writeIndex id w (readIndex id s).2))).presence =
          (writeIndex id w (readIndex id s).2).presence := fun w => by rw [setSuspect_presence, noteUncorrectable_presence]
      refine ⟨(ht.trans (.setRecord i1 id
        { (readIndex id s).2.record id with index := .of { (readIndex id s).1 with faulted := true } }
        fun h => ?_)).trans (.of_presence (hp _)), ?_⟩
      · simp [PresenceRecord.held] at h
      · dsimp only
        rw [State.record, hp]
        have := (Table.get_set PresenceRecord.free i1.records id
          { (readIndex id s).2.record id with index := .of { (readIndex id s).1 with faulted := true } } id).trans (if_pos rfl)
        rw [writeIndex, State.setRecord, this]
        simp [PresenceRecord.held]

/-- A body that has been read holds the record's credential. -/
theorem readPresenceBody_credential {id : Nat} {b : PresenceBody} (h : (readPresenceBody id s).1 = some b) (i : Stores s) :
    b.credential = ((readPresenceBody id s).2.record id).body.value.credential := by
  have := (readPresenceBody_effect i id).2
  rw [h] at this
  exact this

/-- A walk over readable records keeps the relation where its act does on a record's own body. -/
theorem forReadable_keeps (act : Nat → PresenceBody → State → Bool × State) (ids : List Nat)
    (ha : ∀ {s : State} (id : Nat) (b : PresenceBody), (Stores a → b.credential = (s.record id).body.value.credential) →
      Keeps a s → Keeps a (act id b s).2) (hk : Keeps a s) :
    Keeps a (forReadable act ids s).2 := by
  induction ids generalizing s with
  | nil => exact hk
  | cons id ids ih =>
    have h := readPresenceBody_keeps id hk
    unfold forReadable
    try dsimp only
    split
    · exact ih h
    · exact ih (ha id _ (fun ia => readPresenceBody_credential (by assumption) (hk.2 ia)) h)

@[simp] theorem locateFrom_keeps (c : Credential) (ids : List Nat) (hk : Keeps a s) :
    Keeps a (locateFrom c ids s).2 := by
  induction ids generalizing s with
  | nil => exact hk
  | cons id ids ih =>
    unfold locateFrom
    dsimp only
    split <;> exact ih (readPresenceBody_keeps id hk)

@[simp] theorem locate_keeps (c : Credential) (hk : Keeps a s) : Keeps a (locate c s).2 := by
  unfold locate
  try dsimp only
  (repeat' split) <;> simp (maxDischargeDepth := 30) [hk]

@[simp] theorem updateRoomBody_keeps (r : Nat) (f : RoomBody → RoomBody) (hk : Keeps a s) :
    Keeps a (updateRoomBody r f s) := by
  unfold updateRoomBody
  try dsimp only
  (repeat' split) <;> simp (maxDischargeDepth := 30) [hk]

@[simp] theorem setUnescortedOn_keeps (ids : List Nat) (hk : Keeps a s) : Keeps a (setUnescortedOn ids s) :=
  forReadable_keeps _ _ (fun id b hb h => setCondition_keeps _ id b hb h) hk

@[simp] theorem clearUnescortedOn_keeps (ids : List Nat) (hk : Keeps a s) : Keeps a (clearUnescortedOn ids s) :=
  forReadable_keeps _ _ (fun id b hb h => clearCondition_keeps _ id b hb h) hk

@[simp] theorem markUnescorted_keeps (r : Nat) (hk : Keeps a s) : Keeps a (markUnescorted r s) := setUnescortedOn_keeps _ hk

@[simp] theorem clearUnescorted_keeps (r : Nat) (hk : Keeps a s) : Keeps a (clearUnescorted r s) := clearUnescortedOn_keeps _ hk

/-- An index part written with another place. -/
theorem writePlace_keeps (k place : Nat) (hk : Keeps a s) : Keeps a (writeIndex k { s.index k with place := place } s) :=
  writeIndex_keeps k _ (fun _ hu hf => by simp_all [PresenceRecord.held, State.index]) hk

@[simp] theorem unlinkRecord_keeps (id : Nat) (hk : Keeps a s) : Keeps a (unlinkRecord id s) := by
  unfold unlinkRecord
  try dsimp only
  refine foldl_keeps _ _ (fun x h => ?_) (freeRecord_keeps id hk)
  try dsimp only
  split
  · exact writePlace_keeps x _ h
  · exact h

@[simp] theorem takeOut_keeps (id : Nat) (hk : Keeps a s) : Keeps a (takeOut id s).2 := by
  unfold takeOut
  try dsimp only
  (repeat' split) <;> simp (maxDischargeDepth := 30) [hk]

@[simp] theorem removeRecord_keeps (id : Nat) (hk : Keeps a s) : Keeps a (removeRecord id s) := by
  unfold removeRecord
  try dsimp only
  (repeat' split) <;> simp (maxDischargeDepth := 30) [hk]

@[simp] theorem removeUnsent_keeps (ids : List Nat) (hk : Keeps a s) : Keeps a (removeUnsent ids s) := by
  unfold removeUnsent
  try dsimp only
  refine foldl_keeps _ _ (fun x h => ?_) (by simp [hk])
  (repeat' split) <;> simp (maxDischargeDepth := 30) [h]

@[simp] theorem anyLocated_keeps (es : List Entrant) (hk : Keeps a s) : Keeps a (anyLocated es s).2 := by
  induction es generalizing s with
  | nil => exact hk
  | cons e es ih => exact ih (locate_keeps e.credential hk)

theorem locateFrom_effect (i : Stores s) (c : Credential) (ids : List Nat) :
    Thins s (locateFrom c ids s).2 ∧ ((locateFrom c ids s).1 = none → ∀ j ∈ ids, ((locateFrom c ids s).2.record j).held = true →
      ((locateFrom c ids s).2.record j).body.value.credential ≠ c) := by
  induction ids generalizing s with
  | nil => exact ⟨.refl s, fun _ _ h => absurd h List.not_mem_nil⟩
  | cons id ids ih =>
    have i1 := (readPresenceBody_keeps id (.refl s)).2 i
    have h1 := readPresenceBody_effect i id
    have h2 := ih i1
    unfold locateFrom
    dsimp only
    split
    · rename_i hb
      rw [hb] at h1
      refine ⟨h1.1.trans h2.1, fun hn j hj hh => ?_⟩
      rcases List.mem_cons.mp hj with rfl | hj
      · have hn := (h2.1 j hh).1
        rw [show ((readPresenceBody j s).2.record j).held = false from h1.2] at hn
        cases hn
      · exact h2.2 hn j hj hh
    · rename_i b hb
      rw [hb] at h1
      refine ⟨h1.1.trans h2.1, fun hn j hj hh => ?_⟩
      split at hn
      · cases hn
      · rename_i hc
        rcases List.mem_cons.mp hj with rfl | hj
        · rw [(h2.1 j hh).2, ← show b.credential = _ from h1.2]
          exact hc
        · exact h2.2 hn j hj hh

/-- A locate that finds nothing leaves no record that is held with the credential. -/
theorem locate_effect (i : Stores s) (c : Credential) :
    Thins s (locate c s).2 ∧ ((locate c s).1 = none → ∀ j, ((locate c s).2.record j).held = true →
      ((locate c s).2.record j).body.value.credential ≠ c) := by
  have i1 := (scanIndexes_keeps (.refl s)).2 i
  have h := locateFrom_effect i1 c (scanIndexes s).inUseRecords
  refine ⟨(scanIndexes_thins i).trans h.1, fun hn j hj => h.2 hn j ?_ hj⟩
  have := (mem_readableRecords (s := scanIndexes s) j).mpr (h.1 j hj).1
  exact List.mem_of_mem_filter this

theorem anyLocated_effect (i : Stores s) (es : List Entrant) :
    Thins s (anyLocated es s).2 ∧ ((anyLocated es s).1 = false → ∀ e ∈ es, ∀ j, ((anyLocated es s).2.record j).held = true →
      ((anyLocated es s).2.record j).body.value.credential ≠ e.credential) := by
  induction es generalizing s with
  | nil => exact ⟨.refl s, fun _ _ h => absurd h List.not_mem_nil⟩
  | cons e es ih =>
    have i1 := (locate_keeps e.credential (.refl s)).2 i
    have h1 := locate_effect i e.credential
    have h2 := ih i1
    unfold anyLocated
    dsimp only
    refine ⟨h1.1.trans h2.1, fun hn x hx j hj => ?_⟩
    simp only [Bool.or_eq_false_iff, Option.isSome_eq_false_iff, Option.isNone_iff_eq_none] at hn
    rcases List.mem_cons.mp hx with rfl | hx
    · rw [(h2.1 j hj).2]
      exact h1.2 hn.1 j (h2.1 j hj).1
    · exact h2.2 hn.2 x hx j hj

/-- New records whose credentials no record holds, each another's. -/
theorem fillRecords_keeps (r : Nat) (now : Minute) (ids : List Nat) (es : List Entrant) (place : Nat)
    (hd : Stores a → (es.map (·.credential)).Nodup)
    (hn : Stores a → ∀ e ∈ es, ∀ j, (s.record j).held = true → (s.record j).body.value.credential ≠ e.credential)
    (hk : Keeps a s) : Keeps a (fillRecords r now ids es place s) := by
  induction ids generalizing es place s with
  | nil => unfold fillRecords; exact hk
  | cons id ids ih =>
    cases es with
    | nil => exact hk
    | cons e es =>
      refine ih es (place + 1) (fun ia => (List.nodup_cons.mp (hd ia)).2) (fun ia x hx j hj => ?_)
        (setRecord_keeps id _ (fun ia _ j hj he => absurd he (hn ia e List.mem_cons_self j hj)) hk)
      rw [show ∀ v, (s.setRecord id v).record j = if j = id then v else s.record j from
        fun v => Table.get_set _ (hk.2 ia).records id v j] at hj ⊢
      split at hj
      · rename_i h
        rw [if_pos h]
        intro he
        exact (List.nodup_cons.mp (hd ia)).1 (List.mem_map.mpr ⟨x, hx, he.symm⟩)
      · rename_i h
        rw [if_neg h]
        exact hn ia x (List.mem_cons_of_mem _ hx) j hj

theorem presentMinute_presence (s : State) : (presentMinute s).2.presence = s.presence := by
  unfold presentMinute readClockItem readVoted
  dsimp only
  split <;> simp [noteCorrected_presence]

theorem placeRecords_keeps (r : Nat) (b : RoomBody) (es : List Entrant) (hd : Stores a → (es.map (·.credential)).Nodup)
    (hn : Stores a → ∀ e ∈ es, ∀ j, (s.record j).held = true → (s.record j).body.value.credential ≠ e.credential)
    (hk : Keeps a s) : Keeps a (placeRecords r b es s).2 := by
  have h := fillRecords_keeps r (presentMinute s).1 ((presentMinute s).2.freeRecords es.length) es
    ((presentMinute s).2.occupancy r + 1) hd
    (fun ia e he j hj => by rw [State.record, presentMinute_presence] at hj ⊢; exact hn ia e he j hj) (presentMinute_keeps hk)
  unfold placeRecords
  dsimp only
  (repeat' split) <;> simp (maxDischargeDepth := 30) [h]

theorem admitAll_keeps (r : Nat) (b : RoomBody) (es : List Entrant) (hd : Stores a → (es.map (·.credential)).Nodup)
    (hn : Stores a → ∀ e ∈ es, ∀ j, (s.record j).held = true → (s.record j).body.value.credential ≠ e.credential)
    (hk : Keeps a s) : Keeps a (admitAll r b es s).2 := by
  have h := placeRecords_keeps r b es hd hn hk
  unfold admitAll
  dsimp only
  split <;> simp [h]

/-- An admission of credentials that differ: each has been looked for and not found. -/
theorem admissionWith_keeps (act : Nat → RoomBody → List Entrant → State → List Nat × State)
    (ha : ∀ {s : State} (r : Nat) (b : RoomBody) (es : List Entrant), (Stores a → (es.map (·.credential)).Nodup) →
      (Stores a → ∀ e ∈ es, ∀ j, (s.record j).held = true → (s.record j).body.value.credential ≠ e.credential) →
      Keeps a s → Keeps a (act r b es s).2)
    (r : Nat) (es : List Entrant) (hd : Stores a → (es.map (·.credential)).Nodup) (hk : Keeps a s) :
    Keeps a (admissionWith act r es s).2 := by
  have h1 := readRoomRecord_keeps r (scanIndexes_keeps hk)
  have h2 := anyLocated_keeps es h1
  unfold admissionWith
  dsimp only
  split
  · exact h1
  · exact h1
  · split
    · exact h2
    · rename_i hf
      split
      · exact h2
      · split
        · exact h2
        · exact ha _ _ _ hd
            (fun ia e he j hj => (anyLocated_effect (h1.2 ia) es).2 (by simpa using hf) e he j hj) h2

theorem admission_keeps (r : Nat) (es : List Entrant) (hd : Stores a → (es.map (·.credential)).Nodup) (hk : Keeps a s) :
    Keeps a (admission r es s).2 := admissionWith_keeps _ admitAll_keeps r es hd hk

@[simp] theorem confirmRecord_keeps (id : Nat) (hk : Keeps a s) : Keeps a (confirmRecord id s) := by
  unfold confirmRecord
  dsimp only
  have h1 := readIndex_keeps id hk
  have h2 := readPresenceBody_keeps id h1
  have h3 : Keeps a (writeIndex id { (readPresenceBody id (readIndex id s).2).2.index id with sent := true }
      (readPresenceBody id (readIndex id s).2).2) :=
    writeIndex_keeps id _ (fun _ hu hf => by simp_all [PresenceRecord.held, State.index]) h2
  split
  · split
    · exact h3
    · exact raiseIf_keeps _ _ h3
  · exact h1

/-- A walk over the holders of a handle keeps the relation where its act does on a record's own body. -/
theorem forHoldersIn_keeps (h : Handle) (act : Nat → PresenceBody → State → Bool × State) (ids : List Nat)
    (ha : ∀ {s : State} (id : Nat) (b : PresenceBody), (Stores a → b.credential = (s.record id).body.value.credential) →
      Keeps a s → Keeps a (act id b s).2) (hk : Keeps a s) :
    Keeps a (forHoldersIn h act ids s).2 := by
  refine forReadable_keeps _ _ (fun id b hb hs => ?_) hk
  split
  · exact ha id b hb hs
  · exact hs

theorem forHolders_keeps (h : Handle) (act : Nat → PresenceBody → State → Bool × State)
    (ha : ∀ {s : State} (id : Nat) (b : PresenceBody), (Stores a → b.credential = (s.record id).body.value.credential) →
      Keeps a s → Keeps a (act id b s).2) (hk : Keeps a s) :
    Keeps a (forHolders h act s).2 := forHoldersIn_keeps h act _ ha (scanIndexes_keeps hk)

@[simp] theorem poolOverstay_keeps (h : Handle) (hk : Keeps a s) : Keeps a (poolOverstay h s) :=
  forHolders_keeps h _ (fun id b hb hs => setCondition_keeps _ id b hb hs) hk

@[simp] theorem poolRevoke_keeps (h : Handle) (hk : Keeps a s) : Keeps a (poolRevoke h s).2 :=
  forHolders_keeps h _ (fun id b hb hs => setCondition_keeps _ id b hb hs) hk

@[simp] theorem poolHolds_keeps (h : Handle) (hk : Keeps a s) : Keeps a (poolHolds h s).2 :=
  forHolders_keeps h _ (fun _ _ _ hs => hs) hk

@[simp] theorem poolBar_keeps (c : Credential) (hk : Keeps a s) : Keeps a (poolBar c s).2 := by
  unfold poolBar
  dsimp only
  split
  · exact locate_keeps c hk
  · exact setCondition_keeps _ _ _ (fun _ => rfl) (locate_keeps c hk)

@[simp] theorem poolUnbar_keeps (c : Credential) (hk : Keeps a s) : Keeps a (poolUnbar c s).2 := by
  unfold poolUnbar
  dsimp only
  split
  · exact locate_keeps c hk
  · exact clearCondition_keeps _ _ _ (fun _ => rfl) (locate_keeps c hk)

@[simp] theorem markCleared_keeps (ids : List Nat) (hk : Keeps a s) : Keeps a (markCleared ids s) := by
  refine forReadable_keeps _ _ (fun {s} id b hb hs => ?_) hk
  refine setCondition_keeps _ id _ (fun ia => ?_) (writePresenceBody_keeps id _ hb hs)
  have hw : ∀ v, (s.setRecord id v).record id = v := fun v =>
    (Table.get_set PresenceRecord.free (hs.2 ia).records id v id).trans (if_pos rfl)
  rw [writePresenceBody, hw]

@[simp] theorem poolTamper_keeps (hk : Keeps a s) : Keeps a (poolTamper s) := by
  have := markCleared_keeps (scanIndexes s).unmarked (scanIndexes_keeps hk)
  simpa [poolTamper] using this

@[simp] theorem markSome_keeps (reached : Nat) (hk : Keeps a s) : Keeps a (markSome reached s) := by
  have := markCleared_keeps ((scanIndexes s).unmarked.take reached) (scanIndexes_keeps hk)
  simpa [markSome] using this

@[simp] theorem readBodies_keeps (ids : List Nat) (hk : Keeps a s) : Keeps a (readBodies ids s) :=
  forReadable_keeps _ _ (fun _ _ _ hs => hs) hk

/-! ## Verdicts.lean -/

@[simp] theorem reportPlaced_keeps (k : Nat) (q : Sequence) (v : Verdict) (r : Option DenyReason) (hk : Keeps a s) :
    Keeps a (reportPlaced k q v r s) := by
  unfold reportPlaced
  try dsimp only
  (repeat' split) <;> simp (maxDischargeDepth := 30) [hk]

@[simp] theorem reportConverted_keeps (k : Nat) (q : Sequence) (v : Verdict) (r : Option DenyReason) (hk : Keeps a s) :
    Keeps a (reportConverted k q v r s) := by
  unfold reportConverted
  try dsimp only
  (repeat' split) <;> simp (maxDischargeDepth := 30) [hk]

@[simp] theorem reportWithdrawn_keeps (k : Nat) (q : Sequence) (r : DenyReason) (hk : Keeps a s) :
    Keeps a (reportWithdrawn k q r s) := by
  unfold reportWithdrawn
  try dsimp only
  (repeat' split) <;> simp (maxDischargeDepth := 30) [hk]

@[simp] theorem reportRemoved_keeps (k : Nat) (q : Sequence) (hk : Keeps a s) : Keeps a (reportRemoved k q s) := by
  unfold reportRemoved
  try dsimp only
  (repeat' split) <;> simp (maxDischargeDepth := 30) [hk]

@[simp] theorem forgetRequest_keeps (k : Nat) (q : Sequence) (hk : Keeps a s) : Keeps a (forgetRequest k q s) := by
  unfold forgetRequest
  split <;> simp [hk]

@[simp] theorem removeRequests_keeps (which : Request → Bool) (hk : Keeps a s) : Keeps a (removeRequests which s) := by
  refine foldl_keeps _ _ (fun r h => forgetRequest_keeps _ _ h) ?_
  have := queues_keep (s.requests.filter (fun r => !which r)) s.referrals hk
    (fun i => le_trans (List.length_filter_le _ _) i.requests) (fun _ => List.Sublist.refl _)
  simpa using this

@[simp] theorem reportFreed_keeps (k : Nat) (hk : Keeps a s) : Keeps a (reportFreed k s) := by
  unfold reportFreed
  try dsimp only
  (repeat' split) <;> simp (maxDischargeDepth := 30) [hk]

@[simp] theorem reportSent_keeps (e : VerdictEntry) (hk : Keeps a s) : Keeps a (reportSent e s) := by
  unfold reportSent
  try dsimp only
  (repeat' split) <;> simp (maxDischargeDepth := 30) [hk]

@[simp] theorem appendEntry_keeps (e : VerdictEntry) (hk : Keeps a s) : Keeps a (appendEntry e s) := by
  unfold appendEntry
  try dsimp only
  (repeat' split) <;> simp (maxDischargeDepth := 30) [hk]

@[simp] theorem placeVerdict_keeps (k : Nat) (q : Sequence) (v : Verdict) (r : Option DenyReason) (hk : Keeps a s) :
    Keeps a (placeVerdict k q v r s) := by
  unfold placeVerdict
  try dsimp only
  (repeat' split) <;> simp (maxDischargeDepth := 30) [hk]

@[simp] theorem convertDeny_keeps (k : Nat) (q : Sequence) (r : DenyReason) (hk : Keeps a s) :
    Keeps a (convertDeny k q r s) := by
  unfold convertDeny
  try dsimp only
  (repeat' split) <;> simp (maxDischargeDepth := 30) [hk]

@[simp] theorem undoData_keeps (claims : List Claim) (records : List Nat) (hk : Keeps a s) :
    Keeps a (undoData claims records s) := by
  unfold undoData
  try dsimp only
  (repeat' split) <;> simp (maxDischargeDepth := 30) [hk]

@[simp] theorem undoPermitData_keeps (p : Option PermitData) (hk : Keeps a s) : Keeps a (undoPermitData p s) := by
  unfold undoPermitData
  try dsimp only
  (repeat' split) <;> simp (maxDischargeDepth := 30) [hk]

@[simp] theorem withdrawWhere_keeps (which : PermitData → Bool) (r : DenyReason) (hk : Keeps a s) :
    Keeps a ((withdrawWhere which r s).2) := by
  unfold withdrawWhere
  try dsimp only
  refine foldl_keeps _ _ (fun x h => ?_) (by simp [hk])
  (repeat' split) <;> simp (maxDischargeDepth := 30) [h]

@[simp] theorem removeEntries_keeps (which : VerdictEntry → Bool) (hk : Keeps a s) :
    Keeps a (removeEntries which s) := by
  unfold removeEntries
  try dsimp only
  refine foldl_keeps _ _ (fun x h => ?_) (by simp [hk])
  (repeat' split) <;> simp (maxDischargeDepth := 30) [h]

@[simp] theorem sendEntry_keeps (e : VerdictEntry) (hk : Keeps a s) : Keeps a (sendEntry e s) :=
  reportSent_keeps e (foldl_keeps _ _ (fun id h => confirmRecord_keeps id h) hk)

@[simp] theorem handOver_keeps (hk : Keeps a s) : Keeps a ((handOver s).2) := by
  unfold handOver
  try dsimp only
  refine foldl_keeps _ _ (fun x h => ?_) (by simp [hk])
  simp [h]

@[simp] theorem updateSeat_keeps (f : Decision → Decision) (hk : Keeps a s) : Keeps a (updateSeat f s) := by
  unfold updateSeat
  try dsimp only
  (repeat' split) <;> simp (maxDischargeDepth := 30) [hk]

@[simp] theorem overstayHand_keeps (h : Handle) (hk : Keeps a s) : Keeps a (overstayHand h s) := updateSeat_keeps _ hk

@[simp] theorem engineRevoke_keeps (h : Handle) (hk : Keeps a s) : Keeps a (engineRevoke h s).2 := by
  unfold engineRevoke
  try dsimp only
  (repeat' split) <;> simp (maxDischargeDepth := 30) [hk]

@[simp] theorem engineBar_keeps (c : Credential) (hk : Keeps a s) : Keeps a (engineBar c s).2 := by
  unfold engineBar
  try dsimp only
  (repeat' split) <;> simp (maxDischargeDepth := 30) [hk]

@[simp] theorem engineMode_keeps (m : BuildingMode) (hk : Keeps a s) : Keeps a (engineMode m s).2 := by
  unfold engineMode
  try dsimp only
  (repeat' split) <;> simp (maxDischargeDepth := 30) [hk]

@[simp] theorem engineTamper_keeps (hk : Keeps a s) : Keeps a (engineTamper s) := by
  unfold engineTamper
  try dsimp only
  (repeat' split) <;> simp (maxDischargeDepth := 30) [hk]

@[simp] theorem engineLoss_keeps (k : Nat) (hk : Keeps a s) : Keeps a (engineLoss k s) := by
  unfold engineLoss
  try dsimp only
  (repeat' split) <;> simp (maxDischargeDepth := 30) [hk]

@[simp] theorem engineStop_keeps (hk : Keeps a s) : Keeps a (engineStop s) := by
  unfold engineStop
  try dsimp only
  (repeat' split) <;> simp (maxDischargeDepth := 30) [hk]

/-! ## Contexts.lean -/

@[simp] theorem denyReservation_keeps (b : Block) (k : Nat) (q : Sequence) (r : DenyReason) (hk : Keeps a s) :
    Keeps a (denyReservation b k q r s) := by
  unfold denyReservation
  split <;> simp [hk]

@[simp] theorem closeReservation_keeps (b : Block) (k : Nat) (q : Sequence) (cause : ClosureCause) (hk : Keeps a s) :
    Keeps a (closeReservation b k q cause s) := by
  unfold closeReservation
  split <;> simp [hk]

@[simp] theorem closePair_keeps (slot : Nat) (c : PairContext) (cause : ClosureCause) (hk : Keeps a s) :
    Keeps a (closePair slot c cause s) := by
  unfold closePair
  try dsimp only
  (repeat' split) <;> simp (maxDischargeDepth := 30) [hk]

@[simp] theorem expirePair_keeps (slot : Nat) (c : PairContext) (hk : Keeps a s) : Keeps a (expirePair slot c s) := by
  unfold expirePair
  try dsimp only
  (repeat' split) <;> simp (maxDischargeDepth := 30) [hk]

@[simp] theorem closeSlot_keeps (which : PairContext → Bool) (cause : ClosureCause) (slot : Nat) (hk : Keeps a s) :
    Keeps a (closeSlot which cause slot s).2 := by
  unfold closeSlot
  try dsimp only
  (repeat' split) <;> simp (maxDischargeDepth := 30) [hk]

@[simp] theorem closeSlots_keeps (which : PairContext → Bool) (cause : ClosureCause) (ks : List Nat) (hk : Keeps a s) :
    Keeps a (closeSlots which cause ks s).2 := by
  induction ks generalizing s with
  | nil => exact hk
  | cons k ks ih => exact ih (closeSlot_keeps which cause k hk)

@[simp] theorem closePairs_keeps (which : PairContext → Bool) (cause : ClosureCause) (hk : Keeps a s) :
    Keeps a (closePairs which cause s).2 := by
  unfold closePairs
  try dsimp only
  (repeat' split) <;> simp (maxDischargeDepth := 30) [hk]

@[simp] theorem returnToOpen_keeps (slot : Nat) (hk : Keeps a s) : Keeps a (returnToOpen slot s) := by
  unfold returnToOpen
  try dsimp only
  (repeat' split) <;> simp (maxDischargeDepth := 30) [hk]

@[simp] theorem abandonContext_keeps (slot : Nat) (hk : Keeps a s) : Keeps a (abandonContext slot s) := by
  unfold abandonContext
  (repeat' split) <;> simp (maxDischargeDepth := 30) [hk]

@[simp] theorem tickSlot_keeps (slot : Nat) (hk : Keeps a s) : Keeps a (tickSlot s slot) := by
  unfold tickSlot
  (repeat' split) <;> simp (maxDischargeDepth := 30) [hk]

@[simp] theorem tickPairs_keeps (hk : Keeps a s) : Keeps a (tickPairs s) :=
  foldl_keeps _ _ (fun x h => tickSlot_keeps x h) hk

@[simp] theorem dropReferral_keeps (n : Nat) (hk : Keeps a s) : Keeps a (dropReferral n s) :=
  queues_keep s.requests _ hk (fun i => i.requests) (fun _ => List.filter_sublist.map _)

/-- An entry fits a state: the entries of its reference there are of its kind. -/
def State.fits (s : State) (e : ReferralEntry) : Prop := ∀ p ∈ s.entryKinds, p.1 = e.reference → p.2 = e.isApproval

theorem entryKinds_writeReferral (new : ReferralEntry) (hf : s.fits new) : (writeReferral new s).entryKinds = s.entryKinds := by
  simp only [State.entryKinds, writeReferral, List.map_map]
  refine List.map_congr_left fun e he => ?_
  simp only [Function.comp_apply]
  split
  · rename_i h
    have := hf (e.reference, e.isApproval) (List.mem_map_of_mem he) h
    exact Prod.ext h.symm this.symm
  · rfl

/-- In a state that satisfies the invariant every entry of the queue fits. -/
theorem fits_of_mem {e : ReferralEntry} (hi : Stores s) (he : e ∈ s.referrals) : s.fits e := by
  intro p hp h
  obtain ⟨x, hx, rfl⟩ := List.mem_map.mp hp
  have := hi.references
  rw [List.inj_on_of_nodup_map this hx he h]

/-- An entry that fits is written without harm. -/
theorem writeReferral_keeps (new : ReferralEntry) (hf : Stores a → s.fits new) (hk : Keeps a s) :
    Keeps a (writeReferral new s) := by
  refine ⟨hk.1, fun i => ?_⟩
  have hw := entryKinds_writeReferral new (hf i)
  refine (queues_keep (a := s) s.requests (writeReferral new s).referrals (.refl s) (fun i => i.requests)
    (fun _ => ?_)).2 (hk.2 i)
  exact (show (writeReferral new s).entryKinds.Sublist s.entryKinds by rw [hw])

/-- An approval written with another approval part fits where the old one does. -/
theorem fits_withApproval {e : ReferralEntry} {v w : ApprovalView} (ha : e.approval? = some v) (hf : s.fits e) :
    s.fits (e.withApproval w) := by
  intro p hp h
  rw [hf p hp h]
  cases e with
  | mk r k c m q t kind => cases kind <;> simp_all [ReferralEntry.approval?, ReferralEntry.withApproval, ReferralEntry.isApproval]

theorem reportFreed_referrals (k : Nat) : (reportFreed k s).referrals = s.referrals := rfl

theorem convertDeny_referrals (k : Nat) (q : Sequence) (r : DenyReason) :
    (convertDeny k q r s).referrals = s.referrals := rfl

theorem denyReservation_referrals (b : Block) (k : Nat) (q : Sequence) (r : DenyReason) :
    (denyReservation b k q r s).referrals = s.referrals := by
  unfold denyReservation; split <;> rfl

theorem closeReservation_referrals (b : Block) (k : Nat) (q : Sequence) (cause : ClosureCause) :
    (closeReservation b k q cause s).referrals = s.referrals := by
  unfold closeReservation; split
  · exact denyReservation_referrals _ _ _ _
  · rfl

theorem reachedApproval_some {which : ReferralEntry → ApprovalView → Bool} {e : ReferralEntry} {v : ApprovalView}
    (h : reachedApproval which e = some v) : e.approval? = some v := by
  unfold reachedApproval at h
  split at h
  · cases h
  · split at h <;> simp_all

/-- A closure on an entry that fits keeps the relation, and adds no entry. -/
theorem closeEntry_keeps (which : ReferralEntry → ApprovalView → Bool) (cause : ClosureCause) (e : ReferralEntry)
    (hf : Stores a → s.fits e) (hk : Keeps a s) :
    Keeps a (closeEntry which cause e s).2 ∧
      (Stores a → (closeEntry which cause e s).2.entryKinds ⊆ s.entryKinds) := by
  unfold closeEntry
  split
  · exact ⟨hk, fun _ => List.Subset.refl _⟩
  · rename_i v hv
    split
    · refine ⟨closeReservation_keeps _ _ _ _ (dropReferral_keeps _ hk), fun _ => ?_⟩
      simp only [State.entryKinds, closeReservation_referrals]
      exact (List.filter_sublist.map _).subset
    · have hw := fun i => fits_withApproval (w := { v with closure := recordClosure v.closure cause })
        (reachedApproval_some hv) (hf i)
      exact ⟨writeReferral_keeps _ hw hk, fun i => by rw [entryKinds_writeReferral _ (hw i)]; exact List.Subset.refl _⟩

theorem closeEntries_keeps (which : ReferralEntry → ApprovalView → Bool) (cause : ClosureCause) (es : List ReferralEntry)
    (hf : Stores a → ∀ e ∈ es, s.fits e) (hk : Keeps a s) : Keeps a (closeEntries which cause es s).2 := by
  induction es generalizing s with
  | nil => exact hk
  | cons e es ih =>
    have h := closeEntry_keeps which cause e (fun i => hf i e List.mem_cons_self) hk
    exact ih (fun i x hx p hp => hf i x (List.mem_cons_of_mem _ hx) p (h.2 i hp)) h.1

@[simp] theorem closeApprovals_keeps (which : ReferralEntry → ApprovalView → Bool) (cause : ClosureCause) (hk : Keeps a s) :
    Keeps a (closeApprovals which cause s).2 :=
  closeEntries_keeps which cause _ (fun i _ he => fits_of_mem (hk.2 i) he) hk

@[simp] theorem timeoutApproval_keeps (e : ReferralEntry) (hk : Keeps a s) : Keeps a (timeoutApproval e s) := by
  unfold timeoutApproval
  simp [hk]

/-- A tick on an entry that fits keeps the relation, and adds no entry. -/
theorem tickEntry_keeps (e : ReferralEntry) (hf : Stores a → s.fits e) (hk : Keeps a s) :
    Keeps a (tickEntry s e) ∧ (Stores a → (tickEntry s e).entryKinds ⊆ s.entryKinds) := by
  unfold tickEntry
  split
  · exact ⟨hk, fun _ => List.Subset.refl _⟩
  · rename_i v hv
    split
    · split
      · refine ⟨timeoutApproval_keeps _ hk, fun _ => ?_⟩
        simp only [State.entryKinds, timeoutApproval, denyReservation_referrals]
        exact (List.filter_sublist.map _).subset
      · have hw := fun i => fits_withApproval (w := { v with seconds := v.seconds - 1 }) hv (hf i)
        exact ⟨writeReferral_keeps _ hw hk, fun i => by rw [entryKinds_writeReferral _ (hw i)]; exact List.Subset.refl _⟩
    · exact ⟨hk, fun _ => List.Subset.refl _⟩

theorem tickEntries_keeps (es : List ReferralEntry) (hf : Stores a → ∀ e ∈ es, s.fits e) (hk : Keeps a s) :
    Keeps a (es.foldl tickEntry s) := by
  induction es generalizing s with
  | nil => exact hk
  | cons e es ih =>
    have h := tickEntry_keeps e (fun i => hf i e List.mem_cons_self) hk
    exact ih (fun i x hx p hp => hf i x (List.mem_cons_of_mem _ hx) p (h.2 i hp)) h.1

@[simp] theorem tickReferrals_keeps (hk : Keeps a s) : Keeps a (tickReferrals s) :=
  tickEntries_keeps _ (fun i _ he => fits_of_mem (hk.2 i) he) hk

theorem raise_referrals (c : Cause) : (raise c s).referrals = s.referrals := by
  unfold raise; (repeat' split) <;> rfl

theorem noteCorrected_referrals (r : Region) : (noteCorrected r s).referrals = s.referrals := by
  unfold noteCorrected readHealth
  dsimp only
  split <;> simp [raise_referrals, State.markSiteCorrected]

/-- The clock's reading leaves the Referral Queue. -/
theorem presentMinute_referrals : (presentMinute s).2.referrals = s.referrals := by
  unfold presentMinute readClockItem readVoted
  dsimp only
  split <;> simp [noteCorrected_referrals]

/-- Whether an entry holds a reference. -/
theorem referral_isSome (n : Nat) : (s.referral n).isSome = true ↔ n ∈ s.referrals.map (·.reference) := by
  simp [State.referral, List.find?_isSome]

theorem freeReference_held (tries n : Nat) (h : (s.referral (freeReference s tries n)).isSome = true) :
    ∀ i ≤ tries, (s.referral (nextReference^[i] n)).isSome = true := by
  induction tries generalizing n with
  | zero =>
    intro i hi
    rw [Nat.le_zero.mp hi]
    exact h
  | succ t ih =>
    unfold freeReference at h
    split at h
    · rename_i hn
      intro i hi
      cases i with
      | zero => exact hn
      | succ i => exact ih _ h i (by omega)
    · rename_i hn
      exact absurd h hn

theorem nextReference_iterate (n i : Nat) (hi : i ≤ 16) :
    nextReference^[i] n = if 65535 < n then n + i else if n + i ≤ 65535 then n + i else n + i - 65535 := by
  induction i with
  | zero => simp; omega
  | succ i ih =>
    rw [Function.iterate_succ_apply', ih (by omega)]
    unfold nextReference
    (repeat' split) <;> omega

/-- With at most 15 entries the number found is free. -/
theorem freeReference_free (n : Nat) (hl : s.referrals.length ≤ 15) :
    freeReference s 16 n ∉ s.referrals.map (·.reference) := by
  intro h
  have held := freeReference_held 16 n ((referral_isSome _).mpr h)
  have hsub : (List.range 17).map (fun i => nextReference^[i] n) ⊆ s.referrals.map (·.reference) := by
    intro x hx
    obtain ⟨i, hi, rfl⟩ := List.mem_map.mp hx
    exact (referral_isSome _).mp (held i (by have := List.mem_range.mp hi; omega))
  have hnd : ((List.range 17).map (fun i => nextReference^[i] n)).Nodup := by
    refine (List.nodup_range).map_on fun i hi j hj e => ?_
    have hi := List.mem_range.mp hi
    have hj := List.mem_range.mp hj
    rw [nextReference_iterate n i (by omega), nextReference_iterate n j (by omega)] at e
    split at e
    · omega
    · (repeat' split at e) <;> omega
  have := (List.subperm_of_subset hnd hsub).length_le
  simp at this
  omega

theorem referrals_length : s.referrals.length = s.approvals + s.hotCards := by
  rw [State.approvals, State.hotCards, ← List.length_eq_length_filter_add]

/-- Whether there is room for an entry of a kind. -/
def State.roomFor (s : State) (e : ReferralEntry) : Prop :=
  if e.isApproval then s.approvals < Config.approvals else s.hotCards < Config.hotCards

theorem createEntry_keeps (k : Nat) (c : Credential) (room : Nat) (q : Sequence) (kind : ReferralKind)
    (hc : ∀ e : ReferralEntry, e.kind = kind → s.roomFor e) (hk : Keeps a s) :
    Keeps a (createEntry k c room q kind s).2 := by
  refine (presentMinute_keeps hk).trans ⟨rfl, fun i => ?_⟩
  unfold createEntry
  dsimp only
  have hr := @presentMinute_referrals s
  have hroom := hc ⟨freeReference (presentMinute s).2 16 (presentMinute s).2.referenceCounter, k, c, room, q,
    (presentMinute s).1, kind⟩ rfl
  have hA : (presentMinute s).2.approvals = s.approvals := by simp only [State.approvals, hr]
  have hH : (presentMinute s).2.hotCards = s.hotCards := by simp only [State.hotCards, hr]
  have i4 := i.approvals
  have i5 := i.hotCards
  have hlen := @referrals_length (presentMinute s).2
  simp only [Config.approvals, Config.hotCards] at i4 i5
  have hl : (presentMinute s).2.referrals.length ≤ 15 := by
    unfold State.roomFor at hroom
    split at hroom <;> simp only [Config.approvals, Config.hotCards] at hroom <;> omega
  have hfree := freeReference_free (s := (presentMinute s).2) (presentMinute s).2.referenceCounter hl
  refine { i with approvals := ?_, hotCards := ?_, references := ?_ }
  · unfold State.roomFor at hroom
    simp only [State.approvals, List.filter_append, List.length_append, Config.approvals] at hroom hA i4 ⊢
    split at hroom
    · rename_i h
      rw [List.filter_cons_of_pos h]
      simp
      omega
    · rename_i h
      rw [List.filter_cons_of_neg h]
      simp
      omega
  · unfold State.roomFor at hroom
    simp only [State.hotCards, List.filter_append, List.length_append, Config.hotCards] at hroom hH i5 ⊢
    split at hroom
    · rename_i h
      rw [List.filter_cons_of_neg (by simp [h])]
      simp
      omega
    · rename_i h
      rw [List.filter_cons_of_pos (by simpa using h)]
      simp
      omega
  · simp only [List.map_append, List.map_cons, List.map_nil]
    refine List.nodup_append.mpr ⟨i.references, List.nodup_singleton _, ?_⟩
    intro x hx y hy e
    simp only [List.mem_singleton] at hy
    subst hy
    exact hfree (e ▸ hx)

@[simp] theorem createHotCard_keeps (k : Nat) (c : Credential) (room : Nat) (q : Sequence) (hk : Keeps a s) :
    Keeps a (createHotCard k c room q s) := by
  unfold createHotCard
  split
  · rename_i h
    refine raise_keeps _ (createEntry_keeps k c room q _ (fun e he => ?_) hk)
    simpa [State.roomFor, ReferralEntry.isApproval, he] using h
  · exact raise_keeps _ hk

/-! ## Bars.lean -/

@[simp] theorem searchBars_keeps (c : Credential) (count position : Nat) (hk : Keeps a s) :
    Keeps a (searchBars c count position s).2 := by
  induction count generalizing position s with
  | zero => exact hk
  | succ n ih =>
    have h := readBarEntry_keeps position hk
    unfold searchBars
    dsimp only
    (repeat' split) <;> first | exact h | exact ih _ h

@[simp] theorem membership_keeps (c : Credential) (hk : Keeps a s) : Keeps a (membership c s).2 := by
  unfold membership
  try dsimp only
  (repeat' split) <;> simp (maxDischargeDepth := 30) [hk]

/-- A credential inserted where it belongs, below the last place. -/
theorem insertBar_keeps (p : Nat) (c : Credential) (h : BarHeader) (hk : Keeps a s)
    (hc : Stores a → h.count = s.barHeader.value.count ∧ s.barEntries.length < Config.barPlaces ∧
      (∀ e ∈ s.barEntries.take (p - 1), e.value.toNat < c.toNat) ∧ ∀ e ∈ s.barEntries.drop (p - 1), c.toNat < e.value.toNat) :
    Keeps a (insertBar p c h s) := by
  refine ⟨hk.1, fun ia => { hk.2 ia with bar := ?_ }⟩
  have hb := (hk.2 ia).bar
  obtain ⟨h1, h2, h3, h4⟩ := hc ia
  simp only [State.barOk, Bool.and_eq_true, decide_eq_true_eq] at hb ⊢
  obtain ⟨⟨b1, b2⟩, b3⟩ := hb
  have hl : (s.barEntries.take (p - 1) ++ Stored.of c :: s.barEntries.drop (p - 1)).length = s.barEntries.length + 1 := by
    have := congrArg List.length (List.take_append_drop (p - 1) s.barEntries)
    simp only [List.length_append, List.length_cons] at this ⊢
    omega
  rw [← List.take_append_drop (p - 1) s.barEntries, List.pairwise_append] at b3
  refine ⟨⟨?_, ?_⟩, ?_⟩
  · simp only [insertBar, voted_of_value, hl, h1, b1]
  · simp only [insertBar, hl]
    omega
  · rw [show (insertBar p c h s).barEntries = s.barEntries.take (p - 1) ++ Stored.of c :: s.barEntries.drop (p - 1) from rfl,
      List.pairwise_append, List.pairwise_cons]
    refine ⟨b3.1, ⟨h4, b3.2.1⟩, fun x hx y hy => ?_⟩
    rcases List.mem_cons.mp hy with rfl | hy
    · exact h3 x hx
    · exact b3.2.2 x hx y hy

/-- The entry of a position that the list reaches is removed. -/
theorem removeBar_keeps (p : Nat) (h : BarHeader) (hk : Keeps a s)
    (hc : Stores a → h.count = s.barHeader.value.count ∧ p - 1 < s.barEntries.length) :
    Keeps a (removeBar p h s) := by
  refine ⟨hk.1, fun ia => { hk.2 ia with bar := ?_ }⟩
  have hb := (hk.2 ia).bar
  obtain ⟨h1, h2⟩ := hc ia
  simp only [State.barOk, Bool.and_eq_true, decide_eq_true_eq] at hb ⊢
  simp only [removeBar, voted_of_value, List.length_eraseIdx_of_lt h2, h1]
  exact ⟨⟨by omega, by omega⟩, hb.2.sublist (List.eraseIdx_sublist _ _)⟩

@[simp] theorem readPositions_keeps (faulted : List Nat) (count position : Nat) (hk : Keeps a s) :
    Keeps a (readPositions faulted count position s).2 := by
  induction count generalizing position s with
  | zero => exact hk
  | succ n ih =>
    unfold readPositions
    dsimp only
    split
    · exact ih _ hk
    · exact ih _ (readBarEntry_keeps position hk)

@[simp] theorem emptyBars_keeps (hk : Keeps a s) : Keeps a (emptyBars s) :=
  hk.trans ⟨rfl, fun i => { i with bar := by simp [State.barOk, emptyBars, BarHeader.cleared] }⟩

/-! ## Modes.lean -/

@[simp] theorem takeNotice_keeps (o : Outstanding) (hk : Keeps a s) : Keeps a (takeNotice o s) := by
  unfold takeNotice
  try dsimp only
  (repeat' split) <;> simp (maxDischargeDepth := 30) [hk]

@[simp] theorem settleMode_keeps (give ofCommand : Bool) (hk : Keeps a s) : Keeps a (settleMode give ofCommand s) := by
  unfold settleMode
  try dsimp only
  (repeat' split) <;> simp (maxDischargeDepth := 30) [hk]

@[simp] theorem takeLine_keeps (line : AlarmLine) (asserted give : Bool) (hk : Keeps a s) :
    Keeps a (takeLine line asserted give s) := by
  unfold takeLine
  try dsimp only
  (repeat' split) <;> simp (maxDischargeDepth := 30) [hk]

@[simp] theorem resetMode_keeps (hk : Keeps a s) : Keeps a (resetMode s) := by
  unfold resetMode
  try dsimp only
  (repeat' split) <;> simp (maxDischargeDepth := 30) [hk]

@[simp] theorem takeLinesAfterReset_keeps (hk : Keeps a s) : Keeps a (takeLinesAfterReset s) := by
  unfold takeLinesAfterReset
  try dsimp only
  (repeat' split) <;> simp (maxDischargeDepth := 30) [hk]

@[simp] theorem startTamperClear_keeps (hk : Keeps a s) : Keeps a (startTamperClear s) := by
  unfold startTamperClear
  try dsimp only
  (repeat' split) <;> simp (maxDischargeDepth := 30) [hk]

@[simp] theorem settleTamper_keeps (hk : Keeps a s) : Keeps a (settleTamper s) := by
  unfold settleTamper
  try dsimp only
  (repeat' split) <;> simp (maxDischargeDepth := 30) [hk]

@[simp] theorem assertTamper_keeps (hk : Keeps a s) : Keeps a (assertTamper s) := by
  unfold assertTamper
  try dsimp only
  (repeat' split) <;> simp (maxDischargeDepth := 30) [hk]

@[simp] theorem freeTamperSlot_keeps (hk : Keeps a s) : Keeps a (freeTamperSlot s) := by
  unfold freeTamperSlot
  dsimp only
  split
  · exact settleTamper_keeps (writeTamper_keeps _ (writeSlot_keeps _ _ _ (fun _ => by decide)
      (readSlotHeader_keeps _ (readTamper_keeps hk))))
  · exact readTamper_keeps hk

@[simp] theorem sweepTrigger_keeps (hk : Keeps a s) : Keeps a (sweepTrigger s) := by
  unfold sweepTrigger
  try dsimp only
  (repeat' split) <;> simp (maxDischargeDepth := 30) [hk]

@[simp] theorem giveOverstay_keeps (h : Handle) (hk : Keeps a s) : Keeps a (giveOverstay h s) := by
  unfold giveOverstay
  try dsimp only
  (repeat' split) <;> simp (maxDischargeDepth := 30) [hk]

theorem compareHours_keeps (h : Handle) (g : GrantRecord) (t : Minute) (hg : Stores a → g.usesOk = true) (hk : Keeps a s) :
    Keeps a (compareHours h g t s) := by
  unfold compareHours
  split
  · exact hk
  · dsimp only
    (repeat' split) <;> first
      | exact writeSlotBody_keeps _ _ hg (giveOverstay_keeps h hk)
      | exact writeSlotBody_keeps _ _ hg hk
      | exact giveOverstay_keeps h hk
      | exact hk

theorem visitGrant_keeps (k : Nat) (header : SlotHeader) (g : GrantRecord) (t : Minute) (hg : Stores a → g.usesOk = true)
    (hk : Keeps a s) : Keeps a (visitGrant k header g t s) := by
  have hs : ∀ st : GrantState, Keeps a (if st = header.state then s else writeSlotHeader k ⟨st, header.issue⟩ s) := by
    intro st
    split
    · exact hk
    · exact writeSlotHeader_keeps k _ hk
  unfold visitGrant
  dsimp only
  generalize (if header.state = .pending ∧ g.validFrom.atOrBefore t = true then GrantState.active else header.state) = st
  split
  · split
    · exact giveOverstay_keeps _ (writeSlot_keeps _ _ _ hg (hs st))
    · exact compareHours_keeps _ _ _ hg (hs st)
  · exact hs st

@[simp] theorem visitSlot_keeps (k : Nat) (t : Minute) (hk : Keeps a s) : Keeps a (visitSlot k t s) := by
  unfold visitSlot
  dsimp only
  have h1 := readSlotHeader_keeps k hk
  have h2 := readSlotBody_keeps k h1
  (repeat' split) <;> first
    | exact h1
    | exact h2
    | exact visitGrant_keeps _ _ _ _ (fun ia => readSlotBody_usesOk (by assumption) (h1.2 ia)) h2

@[simp] theorem endSweep_keeps (hk : Keeps a s) : Keeps a (endSweep s) := by
  unfold endSweep
  try dsimp only
  (repeat' split) <;> simp (maxDischargeDepth := 30) [hk]

@[simp] theorem sweepStep_keeps (hk : Keeps a s) : Keeps a (sweepStep s) := by
  unfold sweepStep
  try dsimp only
  (repeat' split) <;> simp (maxDischargeDepth := 30) [hk]

end Sys2Proof.Machine
end

