-- ==== Sys2Proof/Laws/KeepsDecision.lean ====
section
/-! SUPPORT. The operations of a decision, of a reset and of the link keep what the stored items satisfy, and the queue. -/

namespace Sys2Proof.Machine

open Sys2Proof

set_option linter.unusedTactic false
set_option linter.unnecessarySeqFocus false
set_option linter.unusedSimpArgs false

variable {a s : State}

/-! ## Decision.lean -/

@[simp] theorem setSeat_keeps (d : Decision) (hk : Keeps a s) : Keeps a (setSeat d s) := by
  unfold setSeat
  try dsimp only
  (repeat' split) <;> simp (maxDischargeDepth := 30) [hk]

@[simp] theorem endDecision_keeps (hk : Keeps a s) : Keeps a (endDecision s) := by
  unfold endDecision
  try dsimp only
  (repeat' split) <;> simp (maxDischargeDepth := 30) [hk]

@[simp] theorem goOn_keeps (d : Decision) (p : Phase) (hk : Keeps a s) : Keeps a (goOn d p s) := by
  unfold goOn
  try dsimp only
  (repeat' split) <;> simp (maxDischargeDepth := 30) [hk]

@[simp] theorem undoHand_keeps (d : Decision) (hk : Keeps a s) : Keeps a (undoHand d s).2 := by
  unfold undoHand
  try dsimp only
  (repeat' split) <;> simp (maxDischargeDepth := 30) [hk]

@[simp] theorem failCheck_keeps (d : Decision) (r : DenyReason) (hk : Keeps a s) : Keeps a (failCheck d r s) := by
  unfold failCheck
  try dsimp only
  (repeat' split) <;> simp (maxDischargeDepth := 30) [hk]

@[simp] theorem undoAndFail_keeps (d : Decision) (r : DenyReason) (hk : Keeps a s) : Keeps a (undoAndFail d r s) := by
  unfold undoAndFail
  try dsimp only
  (repeat' split) <;> simp (maxDischargeDepth := 30) [hk]

@[simp] theorem firstFails_keeps (d : Decision) (r : DenyReason) (hk : Keeps a s) : Keeps a (firstFails d r s) := by
  unfold firstFails
  try dsimp only
  (repeat' split) <;> simp (maxDischargeDepth := 30) [hk]

@[simp] theorem placementCondition_keeps (d : Decision) (hk : Keeps a s) : Keeps a (placementCondition d s).2 := by
  unfold placementCondition
  try dsimp only
  (repeat' split) <;> simp (maxDischargeDepth := 30) [hk]



@[simp] theorem finishAnswer_keeps (r : CommandResult) (hk : Keeps a s) : Keeps a (finishAnswer r s) := by
  unfold finishAnswer
  (repeat' split) <;> simp (maxDischargeDepth := 30) [hk]

@[simp] theorem endAnswering_keeps (k : Nat) (hk : Keeps a s) : Keeps a (endAnswering k s) := by
  unfold endAnswering
  (repeat' split) <;> simp (maxDischargeDepth := 30) [hk]

@[simp] theorem supersede_keeps (k : Nat) (hk : Keeps a s) : Keeps a (supersede k s) := by
  unfold supersede
  simp (maxDischargeDepth := 30) [hk]

@[simp] theorem opStationQuery_keeps (d : Decision) (side : Side) (hk : Keeps a s) :
    Keeps a (opStationQuery d side s) := by
  unfold opStationQuery
  try dsimp only
  (repeat' split) <;> simp (maxDischargeDepth := 30) [hk]

@[simp] theorem opSameCard_keeps (d : Decision) (hk : Keeps a s) : Keeps a (opSameCard d s) := by
  unfold opSameCard
  try dsimp only
  (repeat' split) <;> simp (maxDischargeDepth := 30) [hk]

@[simp] theorem opExitStation_keeps (d : Decision) (hk : Keeps a s) : Keeps a (opExitStation d s) := by
  unfold opExitStation
  try dsimp only
  (repeat' split) <;> simp (maxDischargeDepth := 30) [hk]

@[simp] theorem removeReturning_keeps (id : Nat) (hk : Keeps a s) : Keeps a (removeReturning id s) := by
  unfold removeReturning
  try dsimp only
  (repeat' split) <;> simp (maxDischargeDepth := 30) [hk]

@[simp] theorem exitRemove_keeps (id : Nat) (hk : Keeps a s) : Keeps a (exitRemove id s) := by
  unfold exitRemove
  try dsimp only
  (repeat' split) <;> simp (maxDischargeDepth := 30) [hk]

@[simp] theorem strayExit_keeps (room : Nat) (other : Option Nat) (hk : Keeps a s) :
    Keeps a (strayExit room other s) := by
  unfold strayExit
  try dsimp only
  (repeat' split) <;> simp (maxDischargeDepth := 30) [hk]

@[simp] theorem opExitRemoval_keeps (d : Decision) (hk : Keeps a s) : Keeps a (opExitRemoval d s) := by
  unfold opExitRemoval
  try dsimp only
  (repeat' split) <;> simp (maxDischargeDepth := 30) [hk]

@[simp] theorem opExitPlacement_keeps (d : Decision) (hk : Keeps a s) : Keeps a (opExitPlacement d s) := by
  unfold opExitPlacement
  try dsimp only
  (repeat' split) <;> simp (maxDischargeDepth := 30) [hk]

@[simp] theorem opStation_keeps (d : Decision) (hk : Keeps a s) : Keeps a (opStation d s) := by
  unfold opStation
  try dsimp only
  (repeat' split) <;> simp (maxDischargeDepth := 30) [hk]

@[simp] theorem opRoom_keeps (d : Decision) (hk : Keeps a s) : Keeps a (opRoom d s) := by
  unfold opRoom
  try dsimp only
  (repeat' split) <;> simp (maxDischargeDepth := 30) [hk]

@[simp] theorem opMode_keeps (d : Decision) (hk : Keeps a s) : Keeps a (opMode d s) := by
  unfold opMode
  try dsimp only
  (repeat' split) <;> simp (maxDischargeDepth := 30) [hk]

@[simp] theorem opTamper_keeps (d : Decision) (hk : Keeps a s) : Keeps a (opTamper d s) := by
  unfold opTamper
  try dsimp only
  (repeat' split) <;> simp (maxDischargeDepth := 30) [hk]

@[simp] theorem opClock_keeps (d : Decision) (hk : Keeps a s) : Keeps a (opClock d s) := by
  unfold opClock
  try dsimp only
  (repeat' split) <;> simp (maxDischargeDepth := 30) [hk]

@[simp] theorem opBarState_keeps (d : Decision) (hk : Keeps a s) : Keeps a (opBarState d s) := by
  unfold opBarState
  try dsimp only
  (repeat' split) <;> simp (maxDischargeDepth := 30) [hk]

@[simp] theorem opBarTest_keeps (d : Decision) (hk : Keeps a s) : Keeps a (opBarTest d s) := by
  unfold opBarTest
  try dsimp only
  (repeat' split) <;> simp (maxDischargeDepth := 30) [hk]

@[simp] theorem opLocate_keeps (d : Decision) (hk : Keeps a s) : Keeps a (opLocate d s) := by
  unfold opLocate
  try dsimp only
  (repeat' split) <;> simp (maxDischargeDepth := 30) [hk]

@[simp] theorem opSearch_keeps (d : Decision) (hk : Keeps a s) : Keeps a (opSearch d s) := by
  unfold opSearch
  try dsimp only
  (repeat' split) <;> simp (maxDischargeDepth := 30) [hk]

@[simp] theorem opFirstBar_keeps (d : Decision) (hk : Keeps a s) : Keeps a (opFirstBar d s) := by
  unfold opFirstBar
  try dsimp only
  (repeat' split) <;> simp (maxDischargeDepth := 30) [hk]

@[simp] theorem opFirstLocate_keeps (d : Decision) (hk : Keeps a s) : Keeps a (opFirstLocate d s) := by
  unfold opFirstLocate
  try dsimp only
  (repeat' split) <;> simp (maxDischargeDepth := 30) [hk]

@[simp] theorem opFirstSearch_keeps (d : Decision) (hk : Keeps a s) : Keeps a (opFirstSearch d s) := by
  unfold opFirstSearch
  try dsimp only
  (repeat' split) <;> simp (maxDischargeDepth := 30) [hk]

@[simp] theorem stepNineLimit_keeps (d : Decision) (hk : Keeps a s) : Keeps a (stepNineLimit d s).2 := by
  unfold stepNineLimit
  try dsimp only
  (repeat' split) <;> simp (maxDischargeDepth := 30) [hk]

@[simp] theorem opCount_keeps (d : Decision) (hk : Keeps a s) : Keeps a (opCount d s) := by
  unfold opCount
  try dsimp only
  (repeat' split) <;> simp (maxDischargeDepth := 30) [hk]

@[simp] theorem opPool_keeps (d : Decision) (hk : Keeps a s) : Keeps a (opPool d s) := by
  unfold opPool
  try dsimp only
  (repeat' split) <;> simp (maxDischargeDepth := 30) [hk]

@[simp] theorem opClassRule_keeps (d : Decision) (hk : Keeps a s) : Keeps a (opClassRule d s) := by
  unfold opClassRule
  try dsimp only
  (repeat' split) <;> simp (maxDischargeDepth := 30) [hk]

@[simp] theorem opClaim_keeps (d : Decision) (hk : Keeps a s) : Keeps a (opClaim d s) := by
  unfold opClaim
  try dsimp only
  (repeat' split) <;> simp (maxDischargeDepth := 30) [hk]

@[simp] theorem opClaimFirst_keeps (d : Decision) (hk : Keeps a s) : Keeps a (opClaimFirst d s) := by
  unfold opClaimFirst
  try dsimp only
  (repeat' split) <;> simp (maxDischargeDepth := 30) [hk]

@[simp] theorem opClaimSecond_keeps (d : Decision) (hk : Keeps a s) : Keeps a (opClaimSecond d s) := by
  unfold opClaimSecond
  try dsimp only
  (repeat' split) <;> simp (maxDischargeDepth := 30) [hk]

/-- A completion is made by another card than its context's. -/
def Decision.apartIn (d : Decision) (s : State) : Prop :=
  ∀ p, completingContext d s = some p → p.2.credential ≠ d.credential

theorem entrants_nodup (d : Decision) (h : d.apartIn s) :
    ((d.entrants ((completingContext d s).map Prod.snd)).map (·.credential)).Nodup := by
  unfold Decision.entrants
  split
  · simp
  · rename_i ctx _ hc
    obtain ⟨p, hp, rfl⟩ := Option.map_eq_some_iff.mp hc
    simpa using h p hp
  · simp

theorem opAdmission_keeps (d : Decision) (hd : Stores a → d.apartIn s) (hk : Keeps a s) : Keeps a (opAdmission d s) := by
  have h := admission_keeps d.room (d.entrants ((completingContext d s).map Prod.snd)) (fun ia => entrants_nodup d (hd ia)) hk
  unfold opAdmission
  dsimp only
  split <;> simp (maxDischargeDepth := 30) [h]

@[simp] theorem opEscortRead_keeps (d : Decision) (hk : Keeps a s) : Keeps a (opEscortRead d s) := by
  unfold opEscortRead
  try dsimp only
  (repeat' split) <;> simp (maxDischargeDepth := 30) [hk]

@[simp] theorem opPlacement_keeps (d : Decision) (hk : Keeps a s) : Keeps a (opPlacement d s) := by
  unfold opPlacement
  try dsimp only
  (repeat' split) <;> simp (maxDischargeDepth := 30) [hk]

@[simp] theorem endAbandoned_keeps (d : Decision) (hk : Keeps a s) : Keeps a (endAbandoned d s) := by
  unfold endAbandoned
  dsimp only
  split <;> simp (maxDischargeDepth := 30) [hk]

@[simp] theorem opPairOpening_keeps (d : Decision) (hk : Keeps a s) : Keeps a (opPairOpening d s) := by
  unfold opPairOpening
  try dsimp only
  (repeat' split) <;> simp (maxDischargeDepth := 30) [hk]

@[simp] theorem opApprovalOpening_keeps (d : Decision) (hk : Keeps a s) : Keeps a (opApprovalOpening d s) := by
  unfold opApprovalOpening
  dsimp only
  (repeat' split) <;> first
    | simp (maxDischargeDepth := 30) [hk]; done
    | (rename_i h _
       refine goOn_keeps _ _ (createEntry_keeps _ _ _ _ _ (fun e he => ?_) (placementCondition_keeps d hk))
       simpa [State.roomFor, ReferralEntry.isApproval, he] using h)

@[simp] theorem opClaimRelease_keeps (d : Decision) (hk : Keeps a s) : Keeps a (opClaimRelease d s) := by
  unfold opClaimRelease
  try dsimp only
  (repeat' split) <;> simp (maxDischargeDepth := 30) [hk]

@[simp] theorem opInterim_keeps (d : Decision) (hk : Keeps a s) : Keeps a (opInterim d s) := by
  unfold opInterim
  try dsimp only
  (repeat' split) <;> simp (maxDischargeDepth := 30) [hk]

@[simp] theorem settlePair_keeps (slot : Nat) (hk : Keeps a s) : Keeps a (settlePair slot s) := by
  unfold settlePair
  try dsimp only
  (repeat' split) <;> simp (maxDischargeDepth := 30) [hk]

theorem readTimeoutSeconds_referrals : (readTimeoutSeconds s).2.referrals = s.referrals := by
  unfold readTimeoutSeconds readVoted
  split <;> simp [noteCorrected_referrals]

theorem referral_mem {n : Nat} {e : ReferralEntry} (h : s.referral n = some e) : e ∈ s.referrals :=
  List.mem_of_find?_eq_some h

@[simp] theorem settleApproval_keeps (n : Nat) (hk : Keeps a s) : Keeps a (settleApproval n s) := by
  unfold settleApproval
  split
  · exact hk
  · rename_i e he
    split
    · exact hk
    · rename_i v hv
      split
      · simp (maxDischargeDepth := 30) [hk]
      · dsimp only
        have hk' := readTimeoutSeconds_keeps hk
        refine raise_keeps _ (writeReferral_keeps _ (fun i => fits_withApproval hv (fits_of_mem (hk'.2 i) ?_)) hk')
        rw [readTimeoutSeconds_referrals]
        exact referral_mem he

@[simp] theorem opSettling_keeps (d : Decision) (hk : Keeps a s) : Keeps a (opSettling d s) := by
  unfold opSettling
  try dsimp only
  (repeat' split) <;> simp (maxDischargeDepth := 30) [hk]

@[simp] theorem answerFreed_keeps (d : Decision) (reference : Nat) (hk : Keeps a s) :
    Keeps a (answerFreed d reference s) := by
  unfold answerFreed
  try dsimp only
  (repeat' split) <;> simp (maxDischargeDepth := 30) [hk]

@[simp] theorem answerDenied_keeps (d : Decision) (reference : Nat) (r : DenyReason) (hk : Keeps a s) :
    Keeps a (answerDenied d reference r s) := by
  unfold answerDenied
  try dsimp only
  (repeat' split) <;> simp (maxDischargeDepth := 30) [hk]

@[simp] theorem answerPermitted_keeps (d : Decision) (reference : Nat) (hk : Keeps a s) :
    Keeps a (answerPermitted d reference s) := by
  unfold answerPermitted
  try dsimp only
  (repeat' split) <;> simp (maxDischargeDepth := 30) [hk]

@[simp] theorem opAnswerEnd_keeps (d : Decision) (reference : Nat) (failed : Option DenyReason) (hk : Keeps a s) :
    Keeps a (opAnswerEnd d reference failed s) := by
  unfold opAnswerEnd
  try dsimp only
  (repeat' split) <;> simp (maxDischargeDepth := 30) [hk]

theorem requestOp_keeps (d : Decision) (side : Side) (hd : Stores a → d.apartIn s) (hk : Keeps a s) :
    Keeps a (requestOp d side s) := by
  unfold requestOp
  split <;> first | exact opAdmission_keeps d hd hk | simp (maxDischargeDepth := 30) [hk]

theorem answerOp_keeps (d : Decision) (reference : Nat) (hd : Stores a → d.apartIn s) (hk : Keeps a s) :
    Keeps a (answerOp d reference s) := by
  unfold answerOp
  split <;> first | exact opAdmission_keeps d hd hk | simp (maxDischargeDepth := 30) [hk]

theorem decisionOp_keeps (hd : Stores a → ∀ d, s.seat = some d → d.apartIn s) (hk : Keeps a s) : Keeps a (decisionOp s) := by
  unfold decisionOp
  split
  · exact hk
  · rename_i d hs
    (repeat' split) <;> first
      | exact requestOp_keeps d _ (fun ia => hd ia d hs) hk
      | exact answerOp_keeps d _ (fun ia => hd ia d hs) hk
      | simp (maxDischargeDepth := 30) [hk]





theorem presentMinute_requests : (presentMinute s).2.requests = s.requests := by
  cases s
  unfold presentMinute readClockItem readVoted noteCorrected readHealth raise State.markSiteCorrected
  dsimp only
  (repeat' split) <;> rfl

@[simp] theorem takeHead_keeps (hk : Keeps a s) : Keeps a (takeHead s) := by
  unfold takeHead
  split
  · rename_i r rest _ _ hr
    split
    · dsimp only
      have := queues_keep rest (presentMinute s).2.referrals (presentMinute_keeps hk)
        (fun i => by
          have := i.requests
          rw [presentMinute_requests, hr] at this
          exact le_trans (Nat.le_succ _) this)
        (fun _ => List.Sublist.refl _)
      simpa using this
    · exact hk
  all_goals exact hk

@[simp] theorem takeAnswer_keeps (hk : Keeps a s) : Keeps a (takeAnswer s) := by
  unfold takeAnswer
  try dsimp only
  (repeat' split) <;> simp (maxDischargeDepth := 30) [hk]

/-! ## Reset.lean -/

@[simp] theorem resetStation_keeps (k : Nat) (hk : Keeps a s) : Keeps a (resetStation k s) := by
  unfold resetStation
  try dsimp only
  (repeat' split) <;> simp (maxDischargeDepth := 30) [hk]

@[simp] theorem resetStations_keeps (hk : Keeps a s) : Keeps a (resetStations s) := by
  unfold resetStations
  refine foldl_keeps _ _ (fun x h => ?_) (by simp [hk])
  exact resetStation_keeps x h

@[simp] theorem vanishStations_keeps (hk : Keeps a s) : Keeps a (vanishStations s) :=
  foldl_keeps _ _ (fun x h => updateStation_keeps x _ h) hk

@[simp] theorem dropNotices_keeps (hk : Keeps a s) : Keeps a (dropNotices s) := by
  unfold dropNotices
  simp (maxDischargeDepth := 30) [hk]

@[simp] theorem blankBlocks_keeps (hk : Keeps a s) : Keeps a (blankBlocks s) :=
  resetMode_keeps (hk.trans ⟨rfl, fun i => { i with
    pairs := rfl
    mask := by simp
    requests := Nat.zero_le _
    approvals := Nat.zero_le _
    hotCards := Nat.zero_le _
    references := List.nodup_nil }⟩)

@[simp] theorem emptyAttention_keeps (hk : Keeps a s) : Keeps a (emptyAttention s) :=
  latches_keep 0 none s.attentionMask 0 s.deferred hk fun i => ⟨by simp, i.mask, by simp, i.deferred⟩

@[simp] theorem walkPart_keeps (n : Notice) (reached : Nat) (hk : Keeps a s) : Keeps a (walkPart n reached s) := by
  have h := scanIndexes_keeps hk
  unfold walkPart
  dsimp only
  split <;> first
    | exact forHoldersIn_keeps _ _ _ (fun id b hb hs => setCondition_keeps _ id b hb hs) h
    | exact readBodies_keeps _ h
    | exact markSome_keeps _ hk
    | exact hk

@[simp] theorem cutWalk_keeps (cut : Option Cut) (hk : Keeps a s) : Keeps a (cutWalk cut s) := by
  unfold cutWalk
  (repeat' split) <;> simp (maxDischargeDepth := 30) [hk]

@[simp] theorem cutMarking_keeps (marked : Option Nat) (hk : Keeps a s) : Keeps a (cutMarking marked s) :=
  cutWalk_keeps _ hk

@[simp] theorem cutByReset_keeps (hk : Keeps a s) : Keeps a (cutByReset s) := by
  unfold cutByReset
  split <;> simp [hk]

@[simp] theorem returnSeatClaims_keeps (hk : Keeps a s) : Keeps a (returnSeatClaims s) := by
  unfold returnSeatClaims
  try dsimp only
  (repeat' split) <;> simp (maxDischargeDepth := 30) [hk]

@[simp] theorem removeAllUnsent_keeps (hk : Keeps a s) : Keeps a (removeAllUnsent s) := by
  unfold removeAllUnsent
  try dsimp only
  refine foldl_keeps _ _ (fun x h => ?_) (by simp [hk])
  exact removeReturning_keeps x h

@[simp] theorem deviceReset_keeps (hk : Keeps a s) : Keeps a (deviceReset s) := by
  unfold deviceReset
  have h1 := returnSeatClaims_keeps (emptyAttention_keeps hk)
  have h2 := dropNotices_keeps (blankBlocks_keeps (resetStations_keeps (removeAllUnsent_keeps
    (s := { returnSeatClaims (emptyAttention s) with requests := [], seat := none, verdicts := [] })
    (h1.trans ⟨rfl, fun i => { i with requests := Nat.zero_le _ }⟩))))
  simpa using h2

@[simp] theorem resumeBlocks_keeps (hk : Keeps a s) : Keeps a (resumeBlocks s) := by
  unfold resumeBlocks
  try dsimp only
  (repeat' split) <;> simp (maxDischargeDepth := 30) [hk]

/-- Causes that exist are latched. -/
theorem latchCauses_keeps (w : Word) (hw : Stores a → w &&& ~~~causeBits = 0) (hk : Keeps a s) :
    Keeps a (latchCauses w s) := by
  refine ⟨by unfold latchCauses; split <;> exact hk.1, fun ia => ?_⟩
  have is := hk.2 ia
  unfold latchCauses
  split
  · exact { is with resets := or_masked _ _ _ is.resets (hw ia) }
  · exact { is with latches := latches_or is _ (hw ia) }

theorem resets_keep (hk : Keeps a s) (ia : Stores a) : s.resetCauses &&& ~~~causeBits = 0 := (hk.2 ia).resets

@[simp] theorem commandReset_keeps (code : BitVec 8) (hk : Keeps a s) : Keeps a (commandReset code s) := by
  unfold commandReset
  refine raise_keeps _ (resumeBlocks_keeps (latchCauses_keeps _ (resets_keep hk) ?_))
  have := deviceReset_keeps (a := a) (s := { s with work := none }) (by simpa using hk)
  simpa using this

@[simp] theorem clearRetained_keeps (lost : Bool) (hk : Keeps a s) : Keeps a (clearRetained lost s) :=
  hk.trans ⟨rfl, fun i => { i with
    slots := rfl
    rooms := rfl
    records := rfl
    stations := rfl
    deferred := by simp [clearRetained]
    uses := rfl
    bar := by simp [State.barOk, clearRetained, BarHeader.cleared]
    apart := fun j _ hj => absurd (show PresenceRecord.free.held = true from hj) (by decide) }⟩

theorem deferrable_exists (w : Word) (h : w &&& ~~~deferrableBits = 0) : w &&& ~~~causeBits = 0 := by
  rw [show ~~~causeBits = ~~~deferrableBits &&& ~~~causeBits by decide, ← BitVec.and_assoc, h]
  simp

@[simp] theorem latchDeferred_keeps (hk : Keeps a s) : Keeps a (latchDeferred s) := by
  unfold latchDeferred
  dsimp only
  have h1 := readDeferred_keeps hk
  have hv : (readDeferred s).1 = s.deferred.value := by
    unfold readDeferred readVoted; split <;> rfl
  refine latchCauses_keeps _ (fun ia => ?_) (h1.trans ⟨rfl, fun i => { i with deferred := by simp }⟩)
  rw [hv]
  exact deferrable_exists _ (hk.2 ia).deferred

@[simp] theorem testPattern_keeps (backupHeld : Bool) (hk : Keeps a s) : Keeps a (testPattern backupHeld s) := by
  unfold testPattern
  try dsimp only
  (repeat' split) <;> simp (maxDischargeDepth := 30) [hk]

@[simp] theorem applyTrim_keeps (hk : Keeps a s) : Keeps a (applyTrim s) := by
  unfold applyTrim
  try dsimp only
  (repeat' split) <;> simp (maxDischargeDepth := 30) [hk]

@[simp] theorem deliverTick_keeps (minuteBoundary : Bool) (hk : Keeps a s) :
    Keeps a (deliverTick minuteBoundary s) := by
  unfold deliverTick
  try dsimp only
  (repeat' split) <;> simp (maxDischargeDepth := 30) [hk]

/-! ## Line.lean -/

@[simp] theorem releaseJabbers_keeps (hk : Keeps a s) : Keeps a (releaseJabbers s) := by
  unfold releaseJabbers
  refine foldl_keeps _ _ (fun x h => ?_) (by simp [hk])
  exact updateStation_keeps x _ h

@[simp] theorem sendMark_keeps (hk : Keeps a s) : Keeps a (sendMark s) := by
  unfold sendMark
  try dsimp only
  (repeat' split) <;> simp (maxDischargeDepth := 30) [hk]

@[simp] theorem enterRecovering_keeps (hk : Keeps a s) : Keeps a (enterRecovering s) := by
  unfold enterRecovering
  try dsimp only
  (repeat' split) <;> simp (maxDischargeDepth := 30) [hk]

@[simp] theorem nextTurn_keeps (k : Nat) (hk : Keeps a s) : Keeps a (nextTurn k s) := by
  unfold nextTurn
  try dsimp only
  (repeat' split) <;> simp (maxDischargeDepth := 30) [hk]

@[simp] theorem startTurn_keeps (k : Nat) (hk : Keeps a s) : Keeps a (startTurn k s) := by
  unfold startTurn
  try dsimp only
  (repeat' split) <;> simp (maxDischargeDepth := 30) [hk]

@[simp] theorem loseStation_keeps (k : Nat) (hk : Keeps a s) : Keeps a (loseStation k s) := by
  unfold loseStation
  try dsimp only
  (repeat' split) <;> simp (maxDischargeDepth := 30) [hk]

@[simp] theorem missTurn_keeps (k : Nat) (hk : Keeps a s) : Keeps a (missTurn k s) := by
  unfold missTurn
  try dsimp only
  (repeat' split) <;> simp (maxDischargeDepth := 30) [hk]

@[simp] theorem endTurn_keeps (k : Nat) (heard : Bool) (hk : Keeps a s) : Keeps a (endTurn k heard s) := by
  unfold endTurn
  try dsimp only
  (repeat' split) <;> simp (maxDischargeDepth := 30) [hk]

@[simp] theorem frameDone_keeps (k left : Nat) (heard : Bool) (hk : Keeps a s) :
    Keeps a (frameDone k left heard s) := by
  unfold frameDone
  try dsimp only
  (repeat' split) <;> simp (maxDischargeDepth := 30) [hk]

@[simp] theorem hearStation_keeps (k : Nat) (hk : Keeps a s) : Keeps a (hearStation k s) := by
  unfold hearStation
  try dsimp only
  (repeat' split) <;> simp (maxDischargeDepth := 30) [hk]

@[simp] theorem answerRepeat_keeps (k : Nat) (r : AnswerRecord) (hk : Keeps a s) : Keeps a (answerRepeat k r s) := by
  unfold answerRepeat
  split <;> simp [hk]

@[simp] theorem placeRequest_keeps (r : Request) (hk : Keeps a s) : Keeps a (placeRequest r s) := by
  unfold placeRequest
  split
  · rename_i h
    refine updateStation_keeps _ _ ?_
    have := queues_keep (s.requests ++ [r]) s.referrals hk (fun _ => by simpa using h) (fun _ => List.Sublist.refl _)
    simpa using this
  · simp [hk]

@[simp] theorem intake_keeps (r : Request) (hk : Keeps a s) : Keeps a (intake r s) := by
  unfold intake
  try dsimp only
  (repeat' split) <;> simp (maxDischargeDepth := 30) [hk]

@[simp] theorem acceptReport_keeps (k : Nat) (e : Entrance) (hk : Keeps a s) : Keeps a (acceptReport k e s) := by
  unfold acceptReport
  try dsimp only
  (repeat' split) <;> simp (maxDischargeDepth := 30) [hk]

@[simp] theorem acceptContent_keeps (k : Nat) (c : FrameContent) (hk : Keeps a s) : Keeps a (acceptContent k c s) := by
  unfold acceptContent
  try dsimp only
  (repeat' split) <;> simp (maxDischargeDepth := 30) [hk]

@[simp] theorem receiveFrame_keeps (f : Option (Nat × FrameContent)) (hk : Keeps a s) : Keeps a (receiveFrame f s) := by
  unfold receiveFrame
  try dsimp only
  (repeat' split) <;> simp (maxDischargeDepth := 30) [hk]

/-- What is done to an open turn keeps the relation where the act does. -/
theorem onOpenTurn_keeps (f : Nat → Bool → State → State)
    (hf : ∀ {s : State} (k : Nat) (heard : Bool), Keeps a s → Keeps a (f k heard s)) (hk : Keeps a s) :
    Keeps a (onOpenTurn f s) := by
  unfold onOpenTurn
  (repeat' split) <;> first | exact hk | exact hf _ _ hk

@[simp] theorem jabberTurn_keeps (k : Nat) (hk : Keeps a s) : Keeps a (jabberTurn k s) := by
  unfold jabberTurn
  try dsimp only
  (repeat' split) <;> simp (maxDischargeDepth := 30) [hk]

/-- The causes kept while RESETn is low are latched. -/
theorem latchResetCauses_keeps (hk : Keeps a s) :
    Keeps a { s with resetLow := false, attention := s.attention ||| s.resetCauses, resetCauses := 0 } := by
  have := latches_keep (s.attention ||| s.resetCauses) s.attentionTaken s.attentionMask 0 s.deferred hk fun i =>
    ⟨latches_or i _ i.resets, i.mask, by simp, i.deferred⟩
  simpa using this

end Sys2Proof.Machine
end

