-- ==== Sys2Proof/Laws/KeepsCommands.lean ====
section
/-! SUPPORT. What a command does on acceptance, and what a block does with a notice, keeps what the stored items satisfy, and the queue. -/

namespace Sys2Proof.Machine

open Sys2Proof

set_option linter.unusedTactic false
set_option linter.unnecessarySeqFocus false
set_option linter.unusedSimpArgs false

variable {a s : State}

/-! ## GrantCommands.lean -/

theorem addedGrant_usesOk (w : Window) (now : Minute) : (addedGrant w now).usesOk = true := by
  simp only [GrantRecord.usesOk, addedGrant]
  split <;> simp

@[simp] theorem opAddGrant_keeps (hk : Keeps a s) : Keeps a (opAddGrant s) := by
  unfold opAddGrant
  dsimp only
  (repeat' split) <;> first
    | simp (maxDischargeDepth := 30) [hk]; done
    | exact finish_keeps _ (writeSlot_keeps _ _ _ (fun _ => addedGrant_usesOk _ _) (by simp (maxDischargeDepth := 30) [hk]))

/-- A command on a grant keeps the relation where its act does on a grant whose uses are within their allowance. -/
theorem withGrant_keeps (h : Handle) (act : SlotHeader → GrantRecord → State → State)
    (ha : ∀ {s : State} (x : SlotHeader) (g : GrantRecord), (Stores a → g.usesOk = true) → Keeps a s → Keeps a (act x g s))
    (hk : Keeps a s) : Keeps a (withGrant h act s) := by
  have h1 := checkHandle_keeps h hk
  unfold withGrant
  dsimp only
  (repeat' split) <;> first
    | simp (maxDischargeDepth := 30) [hk]; done
    | exact ha _ _ (fun ia => readSlotBody_usesOk (by assumption) (h1.2 ia)) (readSlotBody_keeps _ h1)

@[simp] theorem settleAmended_keeps (st : GrantState) (g : GrantRecord) (hk : Keeps a s) :
    Keeps a (settleAmended st g s).2 := by
  unfold settleAmended
  try dsimp only
  (repeat' split) <;> simp (maxDischargeDepth := 30) [hk]

/-- Amendments that pass the checks leave the uses within their allowance. -/
theorem apply_usesOk {x : Amendments} {g : GrantRecord} (hx : x.ok g = true) (hg : g.usesOk = true) :
    (x.apply g).usesOk = true := by
  obtain ⟨u, h, n⟩ := x
  cases u <;> rcases h with _ | _ | h <;> rcases n with _ | _ | n <;>
    simp_all [Amendments.apply, Amendments.ok, GrantRecord.usesOk]

theorem amendGrant_keeps (h : Handle) (w : Window) (header : SlotHeader) (g : GrantRecord)
    (hg : Stores a → g.usesOk = true) (hk : Keeps a s) : Keeps a (amendGrant h w header g s) := by
  unfold amendGrant
  dsimp only
  (repeat' split) <;> first
    | simp (maxDischargeDepth := 30) [hk]; done
    | exact finish_keeps _ (writeSlot_keeps _ _ _ (fun ia => apply_usesOk (by assumption) (hg ia)) (settleAmended_keeps _ _ hk))

@[simp] theorem opAmendGrant_keeps (hk : Keeps a s) :
    Keeps a (opAmendGrant s) := withGrant_keeps _ _ (fun x g hg h => amendGrant_keeps _ _ x g hg h) hk

theorem suspendGrant_keeps (h : Handle) (header : SlotHeader) (g : GrantRecord) (hg : Stores a → g.usesOk = true)
    (hk : Keeps a s) : Keeps a (suspendGrant h header g s) := by
  unfold suspendGrant
  split <;> first
    | exact refuse_keeps _ hk
    | exact finishOk_keeps (writeSlot_keeps _ _ _ hg hk)

@[simp] theorem opSuspendGrant_keeps (hk : Keeps a s) :
    Keeps a (opSuspendGrant s) := withGrant_keeps _ _ (fun x g hg h => suspendGrant_keeps _ x g hg h) hk

theorem resumeGrant_keeps (h : Handle) (header : SlotHeader) (g : GrantRecord) (hg : Stores a → g.usesOk = true)
    (hk : Keeps a s) : Keeps a (resumeGrant h header g s) := by
  unfold resumeGrant
  split <;> first
    | exact refuse_keeps _ hk
    | exact finish_keeps _ (writeSlot_keeps _ _ _ hg hk)

@[simp] theorem opResumeGrant_keeps (hk : Keeps a s) :
    Keeps a (opResumeGrant s) := withGrant_keeps _ _ (fun x g hg h => resumeGrant_keeps _ x g hg h) hk

theorem revokeGrant_keeps (h : Handle) (header : SlotHeader) (g : GrantRecord) (hg : Stores a → g.usesOk = true)
    (hk : Keeps a s) : Keeps a (revokeGrant h header g s) := by
  have hw := giveNotices_keeps revokeReceivers (.revoke h) true
    (writeSlot_keeps h.slot ⟨.revoked, header.issue⟩ { g with suspendedFrom := none } hg hk)
  unfold revokeGrant
  split <;> first
    | exact refuse_keeps _ hk
    | simpa using hw

@[simp] theorem opRevokeGrant_keeps (hk : Keeps a s) :
    Keeps a (opRevokeGrant s) := withGrant_keeps _ _ (fun x g hg h => revokeGrant_keeps _ x g hg h) hk

@[simp] theorem opReadGrant_keeps (hk : Keeps a s) : Keeps a (opReadGrant s) := by
  unfold opReadGrant
  try dsimp only
  (repeat' split) <;> simp (maxDischargeDepth := 30) [hk]

@[simp] theorem retireAsk_keeps (h : Handle) (question : Nat) (hk : Keeps a s) :
    Keeps a (retireAsk h question s).2 := by
  unfold retireAsk
  try dsimp only
  (repeat' split) <;> simp (maxDischargeDepth := 30) [hk]

@[simp] theorem endRetire_keeps (c : ResultCode) (hk : Keeps a s) : Keeps a (endRetire c s) := by
  unfold endRetire
  try dsimp only
  (repeat' split) <;> simp (maxDischargeDepth := 30) [hk]

@[simp] theorem retireStep_keeps (h : Handle) (asked : Nat) (hk : Keeps a s) : Keeps a (retireStep h asked s) := by
  unfold retireStep
  dsimp only
  (repeat' split) <;> first
    | simp (maxDischargeDepth := 30) [hk]; done
    | exact endRetire_keeps _ (writeSlot_keeps _ _ _ (fun _ => by decide) (by simp (maxDischargeDepth := 30) [hk]))

@[simp] theorem opRetireGrant_keeps (hk : Keeps a s) : Keeps a (opRetireGrant s) := by
  unfold opRetireGrant
  try dsimp only
  (repeat' split) <;> simp (maxDischargeDepth := 30) [hk]

@[simp] theorem endFind_keeps (found : List (Handle × GrantState)) (hk : Keeps a s) : Keeps a (endFind found s) := by
  unfold endFind
  try dsimp only
  (repeat' split) <;> simp (maxDischargeDepth := 30) [hk]

@[simp] theorem findRead_keeps (key : FindKey) (k : Nat) (hk : Keeps a s) : Keeps a (findRead key k s).2 := by
  unfold findRead
  try dsimp only
  (repeat' split) <;> simp (maxDischargeDepth := 30) [hk]

@[simp] theorem findStep_keeps (key : FindKey) (cursor : Nat) (found : List (Handle × GrantState)) (hk : Keeps a s) :
    Keeps a (findStep key cursor found s) := by
  unfold findStep
  try dsimp only
  (repeat' split) <;> simp (maxDischargeDepth := 30) [hk]

@[simp] theorem opFindGrants_keeps (hk : Keeps a s) : Keeps a (opFindGrants s) := by
  unfold opFindGrants
  try dsimp only
  (repeat' split) <;> simp (maxDischargeDepth := 30) [hk]

/-! ## ClockCommands.lean -/

@[simp] theorem writeClock_keeps (c : Calendar) (hk : Keeps a s) : Keeps a (writeClock c s) := by
  unfold writeClock
  try dsimp only
  (repeat' split) <;> simp (maxDischargeDepth := 30) [hk]

@[simp] theorem opSetClock_keeps (hk : Keeps a s) : Keeps a (opSetClock s) := by
  unfold opSetClock
  try dsimp only
  (repeat' split) <;> simp (maxDischargeDepth := 30) [hk]

@[simp] theorem opReadClock_keeps (hk : Keeps a s) : Keeps a (opReadClock s) := by
  unfold opReadClock
  try dsimp only
  (repeat' split) <;> simp (maxDischargeDepth := 30) [hk]

@[simp] theorem opShiftHour_keeps (hk : Keeps a s) : Keeps a (opShiftHour s) := by
  unfold opShiftHour
  try dsimp only
  (repeat' split) <;> simp (maxDischargeDepth := 30) [hk]

@[simp] theorem opTrimClock_keeps (hk : Keeps a s) : Keeps a (opTrimClock s) := by
  unfold opTrimClock
  try dsimp only
  (repeat' split) <;> simp (maxDischargeDepth := 30) [hk]

/-! ## RoomCommands.lean -/

@[simp] theorem scanKeys_keeps (room : Nat) (key : Key) (rs : List Nat) (hk : Keeps a s) :
    Keeps a (scanKeys room key rs s).2 := by
  induction rs generalizing s with
  | nil => exact hk
  | cons r rs ih =>
    unfold scanKeys
    dsimp only
    (repeat' split) <;> first | exact ih hk | exact ih (readRoomRecord_keeps r hk)

@[simp] theorem amendRoom_keeps (d : RoomDefinition) (b : RoomBody) (hk : Keeps a s) : Keeps a (amendRoom d b s) := by
  unfold amendRoom
  try dsimp only
  (repeat' split) <;> simp (maxDischargeDepth := 30) [hk]

@[simp] theorem createRoom_keeps (d : RoomDefinition) (hk : Keeps a s) : Keeps a (createRoom d s) := by
  unfold createRoom
  try dsimp only
  (repeat' split) <;> simp (maxDischargeDepth := 30) [hk]

@[simp] theorem opDefineRoom_keeps (hk : Keeps a s) : Keeps a (opDefineRoom s) := by
  unfold opDefineRoom
  try dsimp only
  (repeat' split) <;> simp (maxDischargeDepth := 30) [hk]

@[simp] theorem moveRoom_keeps (wanted : RoomState) (hk : Keeps a s) : Keeps a (moveRoom wanted s) := by
  unfold moveRoom
  try dsimp only
  (repeat' split) <;> simp (maxDischargeDepth := 30) [hk]

@[simp] theorem opDeleteRoom_keeps (hk : Keeps a s) : Keeps a (opDeleteRoom s) := by
  unfold opDeleteRoom
  try dsimp only
  (repeat' split) <;> simp (maxDischargeDepth := 30) [hk]

@[simp] theorem opReadRoom_keeps (hk : Keeps a s) : Keeps a (opReadRoom s) := by
  unfold opReadRoom
  try dsimp only
  (repeat' split) <;> simp (maxDischargeDepth := 30) [hk]

@[simp] theorem readPlace_keeps (r place : Nat) (hk : Keeps a s) : Keeps a (readPlace r place s).2 := by
  unfold readPlace
  try dsimp only
  (repeat' split) <;> simp (maxDischargeDepth := 30) [hk]

@[simp] theorem opListPresence_keeps (hk : Keeps a s) : Keeps a (opListPresence s) := by
  unfold opListPresence
  try dsimp only
  (repeat' split) <;> simp (maxDischargeDepth := 30) [hk]

@[simp] theorem findNamed_keeps (w : Window) (hk : Keeps a s) : Keeps a (findNamed w s).2 := by
  unfold findNamed
  try dsimp only
  (repeat' split) <;> simp (maxDischargeDepth := 30) [hk]

@[simp] theorem opRemovePresence_keeps (hk : Keeps a s) : Keeps a (opRemovePresence s) := by
  unfold opRemovePresence
  try dsimp only
  (repeat' split) <;> simp (maxDischargeDepth := 30) [hk]

@[simp] theorem emptyRoomList_keeps (ids : List Nat) (hk : Keeps a s) : Keeps a (emptyRoomList ids s) := by
  unfold emptyRoomList
  refine foldl_keeps _ _ (fun x h => ?_) (by simp [hk])
  exact freeRecord_keeps x h

@[simp] theorem opResetCensus_keeps (hk : Keeps a s) : Keeps a (opResetCensus s) := by
  unfold opResetCensus
  try dsimp only
  (repeat' split) <;> simp (maxDischargeDepth := 30) [hk]

/-! ## PairCommands.lean -/

@[simp] theorem opSetPairWindow_keeps (hk : Keeps a s) : Keeps a (opSetPairWindow s) := by
  unfold opSetPairWindow
  try dsimp only
  (repeat' split) <;> simp (maxDischargeDepth := 30) [hk]

@[simp] theorem opReadPairContext_keeps (hk : Keeps a s) : Keeps a (opReadPairContext s) := by
  unfold opReadPairContext
  try dsimp only
  (repeat' split) <;> simp (maxDischargeDepth := 30) [hk]

/-! ## BarCommands.lean -/

/-- The credentials of the list, and the count, as every read of an entry leaves them. -/
theorem readBarEntry_bars (p : Nat) (s : State) :
    (readBarEntry p s).2.barEntries.map (·.value) = s.barEntries.map (·.value) ∧
      (readBarEntry p s).2.barHeader.value.count = s.barHeader.value.count ∧
      ∀ e, (readBarEntry p s).1 = some e → (s.barEntries.map (·.value))[p - 1]? = some e := by
  have hc : ∀ (r : Region) (t : State), (noteCorrected r t).barEntries = t.barEntries ∧
      (noteCorrected r t).barHeader = t.barHeader := fun r t => by
    unfold noteCorrected readHealth raise State.markSiteCorrected
    dsimp only
    (repeat' split) <;> exact ⟨rfl, rfl⟩
  have hu : ∀ (r : Region) (t : State), (noteUncorrectable r t).barEntries = t.barEntries ∧
      (noteUncorrectable r t).barHeader = t.barHeader := fun r t => by
    unfold noteUncorrectable readHealth raise State.markSiteCorrected
    dsimp only
    (repeat' split) <;> exact ⟨rfl, rfl⟩
  unfold readBarEntry
  split
  · exact ⟨rfl, rfl, fun _ h => absurd h (by simp)⟩
  · rename_i e he
    have hv := (List.getElem?_eq_some_iff.mp he).2
    have hl := (List.getElem?_eq_some_iff.mp he).1
    split
    · refine ⟨rfl, rfl, fun x hx => ?_⟩
      simp_all
    · refine ⟨?_, by rw [(hc _ _).2], fun x hx => ?_⟩
      · rw [(hc _ _).1]
        simp only [List.map_set]
        refine List.ext_getElem? fun n => ?_
        rw [List.getElem?_set]
        split
        · rename_i hn
          subst hn
          simp [hl, hv]
        · rfl
      · simp_all
    · exact ⟨by rw [(hu _ _).1], by rw [(hu _ _).2]; simp, fun _ h => absurd h (by simp)⟩

/-- What a search finds: the position of the credential, or that of the first greater one. -/
theorem searchBars_effect (c : Credential) (n p : Nat) (s : State) (hp : 1 ≤ p) :
    (searchBars c n p s).2.barEntries.map (·.value) = s.barEntries.map (·.value) ∧
      (searchBars c n p s).2.barHeader.value.count = s.barHeader.value.count ∧
      (match (searchBars c n p s).1 with
        | .fault => True
        | .found q => q - 1 < s.barEntries.length
        | .absent q => p ≤ q ∧ q ≤ p + n ∧
            (∀ i, p ≤ i → i < q → ∃ v, (s.barEntries.map (·.value))[i - 1]? = some v ∧ v.toNat < c.toNat) ∧
            (q < p + n → ∃ v, (s.barEntries.map (·.value))[q - 1]? = some v ∧ c.toNat < v.toNat)) := by
  induction n generalizing p s with
  | zero => exact ⟨rfl, rfl, le_refl _, le_refl _, fun i h1 h2 => by omega, fun h => by omega⟩
  | succ n ih =>
    obtain ⟨h1, h2, h3⟩ := readBarEntry_bars p s
    unfold searchBars
    dsimp only
    split
    · exact ⟨h1, h2, trivial⟩
    · rename_i e he
      have h3 := h3 e he
      split
      · have := (List.getElem?_eq_some_iff.mp h3).1
        exact ⟨h1, h2, by simpa using this⟩
      · rename_i hne
        split
        · rename_i hlt
          exact ⟨h1, h2, le_refl _, by omega, fun i hi hj => by omega, fun _ => ⟨e, h3, hlt⟩⟩
        · rename_i hge
          have hlt : e.toNat < c.toNat := by
            have : e.toNat ≠ c.toNat := fun h => hne (BitVec.eq_of_toNat_eq h)
            omega
          obtain ⟨g1, g2, g3⟩ := ih (p + 1) (readBarEntry p s).2 (by omega)
          refine ⟨g1.trans h1, g2.trans h2, ?_⟩
          have hl : (readBarEntry p s).2.barEntries.length = s.barEntries.length := by simpa using congrArg List.length h1
          generalize (searchBars c n (p + 1) (readBarEntry p s).2).1 = r at g3 ⊢
          cases r with
          | fault => trivial
          | found q => rw [hl] at g3; exact g3
          | absent q =>
            rw [h1] at g3
            obtain ⟨k1, k2, k3, k4⟩ := g3
            refine ⟨by omega, by omega, fun i hi hj => ?_, fun hq => k4 (by omega)⟩
            by_cases h : i = p
            · exact h ▸ ⟨e, h3, hlt⟩
            · exact k3 i (by omega) hj

/-- What BAR and UNBAR CREDENTIAL know of the list when they change it. -/
def BarSearch.fits (f : BarSearch) (c : Credential) (h : BarHeader) (s : State) : Prop :=
  h.count = s.barHeader.value.count ∧ s.barEntries.length = h.count ∧
    match f with
    | .fault => True
    | .found q => q - 1 < s.barEntries.length
    | .absent q => (∀ e ∈ s.barEntries.take (q - 1), e.value.toNat < c.toNat) ∧
        ∀ e ∈ s.barEntries.drop (q - 1), c.toNat < e.value.toNat

theorem readBarHeader_fst (s : State) : (readBarHeader s).1 = s.barHeader.value := by
  unfold readBarHeader readVoted; split <;> rfl

theorem readBarHeader_bars (s : State) : (readBarHeader s).2.barEntries = s.barEntries ∧
    (readBarHeader s).2.barHeader.value = s.barHeader.value := by
  cases s
  unfold readBarHeader readVoted noteCorrected readHealth raise State.markSiteCorrected
  dsimp only
  (repeat' split) <;> simp

theorem searchBars_fits (c : Credential) (i : Stores s) :
    (searchBars c (barCount (readBarHeader s).1 (readBarHeader s).2) 1 (readBarHeader s).2).1.fits c (readBarHeader s).1
      (searchBars c (barCount (readBarHeader s).1 (readBarHeader s).2) 1 (readBarHeader s).2).2 := by
  have hb := i.bar
  simp only [State.barOk, Bool.and_eq_true, decide_eq_true_eq] at hb
  obtain ⟨⟨b1, b2⟩, b3⟩ := hb
  have hh := readBarHeader_bars s
  have hf := readBarHeader_fst s
  have hn : barCount (readBarHeader s).1 (readBarHeader s).2 = s.barEntries.length := by
    rw [barCount, hf, hh.1, b1]
    exact Nat.min_self _
  rw [hn]
  obtain ⟨e1, e2, e3⟩ := searchBars_effect c s.barEntries.length 1 (readBarHeader s).2 (le_refl _)
  rw [hh.1] at e1 e3
  rw [hh.2] at e2
  have hl : (searchBars c s.barEntries.length 1 (readBarHeader s).2).2.barEntries.length = s.barEntries.length := by
    simpa using congrArg List.length e1
  refine ⟨by rw [hf, e2], by rw [hl, hf, b1], ?_⟩
  generalize hr : searchBars c s.barEntries.length 1 (readBarHeader s).2 = r at e1 e3 hl ⊢
  obtain ⟨f, t⟩ := r
  dsimp only at e1 e3 hl ⊢
  cases f with
  | fault => trivial
  | found q => rw [hl]; exact e3
  | absent q =>
    obtain ⟨k1, k2, k3, k4⟩ := e3
    have hp : (s.barEntries.map (·.value)).Pairwise (fun a b => a.toNat < b.toNat) := by
      rw [List.pairwise_map]; exact b3
    have ht : ∀ x : Stored Credential, ∀ l : List (Stored Credential), x ∈ l → x.value ∈ l.map (·.value) :=
      fun x l h => List.mem_map_of_mem h
    constructor
    · intro e he
      have := ht e _ he
      rw [List.map_take, e1] at this
      obtain ⟨n, hn, hv⟩ := List.mem_iff_getElem.mp this
      simp only [List.length_take, List.length_map] at hn
      obtain ⟨v, hv2, hlt⟩ := k3 (n + 1) (by omega) (by omega)
      simp only [Nat.add_sub_cancel] at hv2
      rw [List.getElem_take] at hv
      have := (List.getElem?_eq_some_iff.mp hv2).2
      rw [← hv, this]
      exact hlt
    · intro e he
      have := ht e _ he
      rw [List.map_drop, e1] at this
      obtain ⟨n, hn, hv⟩ := List.mem_iff_getElem.mp this
      simp only [List.length_drop, List.length_map] at hn
      obtain ⟨v, hv2, hlt⟩ := k4 (by omega)
      rw [List.getElem_drop] at hv
      have h2 := List.getElem?_eq_some_iff.mp hv2
      rw [← hv]
      by_cases h0 : n = 0
      · subst h0
        simp only [Nat.add_zero]
        rw [h2.2]
        exact hlt
      · have := List.pairwise_iff_getElem.mp hp (q - 1) (q - 1 + n) h2.1 (by simp; omega) (by omega)
        rw [h2.2] at this
        omega

/-- A command on a barred credential keeps the relation where its act does on what the search found. -/
theorem withBarSearch_keeps (act : Credential → BarHeader → BarSearch → State → State)
    (ha : ∀ {s : State} (c : Credential) (x : BarHeader) (f : BarSearch), (Stores a → f.fits c x s) → Keeps a s →
      Keeps a (act c x f s))
    (hk : Keeps a s) : Keeps a (withBarSearch act s) := by
  unfold withBarSearch
  dsimp only
  (repeat' split) <;> first
    | simp (maxDischargeDepth := 30) [hk]; done
    | exact ha _ _ _ (fun ia => searchBars_fits _ (hk.2 ia)) (searchBars_keeps _ _ _ (readBarHeader_keeps hk))

theorem barCredential_keeps (c : Credential) (h : BarHeader) (f : BarSearch) (hf : Stores a → f.fits c h s)
    (hk : Keeps a s) : Keeps a (barCredential c h f s) := by
  unfold barCredential
  split
  · exact refuse_keeps _ hk
  · exact refuse_keeps _ hk
  · split
    · exact refuse_keeps _ hk
    · rename_i q hn
      have := giveNotices_keeps barReceivers (.bar c) true (insertBar_keeps q c h hk fun ia =>
        ⟨(hf ia).1, by have := (hf ia).2.1; omega, (hf ia).2.2.1, (hf ia).2.2.2⟩)
      simpa using this

theorem unbarCredential_keeps (c : Credential) (h : BarHeader) (f : BarSearch) (hf : Stores a → f.fits c h s)
    (hk : Keeps a s) : Keeps a (unbarCredential c h f s) := by
  unfold unbarCredential
  split
  · exact refuse_keeps _ hk
  · exact refuse_keeps _ hk
  · rename_i q
    have := giveNotices_keeps [.presencePool] (.unbar c) true (removeBar_keeps q h hk fun ia => ⟨(hf ia).1, (hf ia).2.2⟩)
    simpa using this

@[simp] theorem opReadBarList_keeps (hk : Keeps a s) : Keeps a (opReadBarList s) := by
  unfold opReadBarList
  try dsimp only
  (repeat' split) <;> simp (maxDischargeDepth := 30) [hk]

@[simp] theorem giveUnbars_keeps (cs : List Credential) (hk : Keeps a s) : Keeps a (giveUnbars cs s) := by
  unfold giveUnbars
  refine foldl_keeps _ _ (fun x h => ?_) (by simp [hk])
  exact giveNotices_keeps _ _ _ h

@[simp] theorem opClearBarList_keeps (hk : Keeps a s) : Keeps a (opClearBarList s) := by
  unfold opClearBarList
  try dsimp only
  (repeat' split) <;> simp (maxDischargeDepth := 30) [hk]

/-! ## ReferralCommands.lean -/

@[simp] theorem opSetReferralTimeout_keeps (hk : Keeps a s) : Keeps a (opSetReferralTimeout s) := by
  unfold opSetReferralTimeout
  try dsimp only
  (repeat' split) <;> simp (maxDischargeDepth := 30) [hk]

@[simp] theorem opTakeReferral_keeps (hk : Keeps a s) : Keeps a (opTakeReferral s) := by
  unfold opTakeReferral
  split
  · rename_i e he
    refine finish_keeps _ (writeReferral_keeps _ (fun i p hp h => ?_) hk)
    rw [fits_of_mem (hk.2 i) (List.mem_of_find?_eq_some he) p hp h]
    have := List.find?_some he
    simpa [ReferralEntry.isApproval] using this
  · split
    · rename_i e he
      refine finish_keeps _ (writeReferral_keeps _ (fun i => ?_) hk)
      have hm := fits_of_mem (hk.2 i) (List.mem_of_find?_eq_some he)
      unfold ReferralEntry.taken
      split
      · exact hm
      · rename_i v hv
        exact fits_withApproval hv hm
    · simp [hk]

theorem answerTaken_keeps (e : ReferralEntry) (v : ApprovalView) (permit : Bool) (he : e ∈ s.referrals)
    (hv : e.approval? = some v) (hk : Keeps a s) : Keeps a (answerTaken e v permit s) := by
  unfold answerTaken
  split
  · have := writeReferral_keeps (e.withApproval { v with state := .answering })
      (fun i => fits_withApproval hv (fits_of_mem (hk.2 i) he)) hk
    simpa using this
  · simp (maxDischargeDepth := 30) [hk]

@[simp] theorem opAnswerReferral_keeps (hk : Keeps a s) : Keeps a (opAnswerReferral s) := by
  unfold opAnswerReferral
  dsimp only
  split
  · simp [hk]
  · split
    · simp [hk]
    · split
      · simp [hk]
      · rename_i e he
        split
        · simp [hk]
        · rename_i v hv
          split
          · exact answerTaken_keeps e v _ (referral_mem he) hv hk
          all_goals simp [hk]

@[simp] theorem opClearHotCard_keeps (hk : Keeps a s) : Keeps a (opClearHotCard s) := by
  unfold opClearHotCard
  try dsimp only
  (repeat' split) <;> simp (maxDischargeDepth := 30) [hk]

/-! ## LinkCommands.lean -/

@[simp] theorem opConfigureLink_keeps (hk : Keeps a s) : Keeps a (opConfigureLink s) := by
  unfold opConfigureLink
  try dsimp only
  (repeat' split) <;> simp (maxDischargeDepth := 30) [hk]

@[simp] theorem opStartLink_keeps (hk : Keeps a s) : Keeps a (opStartLink s) := by
  unfold opStartLink
  try dsimp only
  (repeat' split) <;> simp (maxDischargeDepth := 30) [hk]

@[simp] theorem opStopLink_keeps (hk : Keeps a s) : Keeps a (opStopLink s) := by
  unfold opStopLink
  dsimp only
  have := giveNotices_keeps stopReceivers .stop true
    (foldl_keeps (fun s k => updateStation k stopStation s) (Table.keys s.stations) (fun k h => updateStation_keeps k _ h) hk)
  simpa using this

@[simp] theorem opReadLink_keeps (hk : Keeps a s) : Keeps a (opReadLink s) := by
  unfold opReadLink
  try dsimp only
  (repeat' split) <;> simp (maxDischargeDepth := 30) [hk]

@[simp] theorem bindStation_keeps (k r : Nat) (hk : Keeps a s) : Keeps a (bindStation k r s) := by
  unfold bindStation
  try dsimp only
  (repeat' split) <;> simp (maxDischargeDepth := 30) [hk]

@[simp] theorem opBindStation_keeps (hk : Keeps a s) : Keeps a (opBindStation s) := by
  unfold opBindStation
  try dsimp only
  (repeat' split) <;> simp (maxDischargeDepth := 30) [hk]

@[simp] theorem endUnbind_keeps (c : ResultCode) (hk : Keeps a s) : Keeps a (endUnbind c s) := by
  unfold endUnbind
  try dsimp only
  (repeat' split) <;> simp (maxDischargeDepth := 30) [hk]

@[simp] theorem unbindStep_keeps (k asked : Nat) (hk : Keeps a s) : Keeps a (unbindStep k asked s) := by
  unfold unbindStep
  try dsimp only
  (repeat' split) <;> simp (maxDischargeDepth := 30) [hk]

@[simp] theorem holdStation_keeps (k : Nat) (hk : Keeps a s) : Keeps a (holdStation k s) := by
  unfold holdStation
  try dsimp only
  (repeat' split) <;> simp (maxDischargeDepth := 30) [hk]

@[simp] theorem opUnbindStation_keeps (hk : Keeps a s) : Keeps a (opUnbindStation s) := by
  unfold opUnbindStation
  try dsimp only
  (repeat' split) <;> simp (maxDischargeDepth := 30) [hk]

@[simp] theorem opSetStation_keeps (hk : Keeps a s) : Keeps a (opSetStation s) := by
  unfold opSetStation
  try dsimp only
  (repeat' split) <;> simp (maxDischargeDepth := 30) [hk]

@[simp] theorem opReadStation_keeps (hk : Keeps a s) : Keeps a (opReadStation s) := by
  unfold opReadStation
  try dsimp only
  (repeat' split) <;> simp (maxDischargeDepth := 30) [hk]

/-! ## SystemCommands.lean -/

@[simp] theorem awaitMode_keeps (before : BuildingMode) (hk : Keeps a s) : Keeps a (awaitMode before s) := by
  unfold awaitMode
  try dsimp only
  (repeat' split) <;> simp (maxDischargeDepth := 30) [hk]

@[simp] theorem opSetMode_keeps (hk : Keeps a s) : Keeps a (opSetMode s) := by
  unfold opSetMode
  try dsimp only
  (repeat' split) <;> simp (maxDischargeDepth := 30) [hk]

@[simp] theorem opReadMode_keeps (hk : Keeps a s) : Keeps a (opReadMode s) := by
  unfold opReadMode
  try dsimp only
  (repeat' split) <;> simp (maxDischargeDepth := 30) [hk]

@[simp] theorem opReadHealth_keeps (hk : Keeps a s) : Keeps a (opReadHealth s) := by
  unfold opReadHealth
  try dsimp only
  (repeat' split) <;> simp (maxDischargeDepth := 30) [hk]

@[simp] theorem opClearHealth_keeps (hk : Keeps a s) : Keeps a (opClearHealth s) := by
  unfold opClearHealth
  try dsimp only
  (repeat' split) <;> simp (maxDischargeDepth := 30) [hk]

@[simp] theorem opAcknowledgeTamper_keeps (hk : Keeps a s) : Keeps a (opAcknowledgeTamper s) := by
  unfold opAcknowledgeTamper
  try dsimp only
  (repeat' split) <;> simp (maxDischargeDepth := 30) [hk]

@[simp] theorem runReset_keeps (code : BitVec 8) (hk : Keeps a s) : Keeps a (runReset code s) := by
  unfold runReset
  split <;> simp [hk]

@[simp] theorem startReset_keeps (code : BitVec 8) (hk : Keeps a s) : Keeps a (startReset code s) := by
  unfold startReset
  simp [hk]

@[simp] theorem abandonClear_keeps (hk : Keeps a s) : Keeps a (abandonClear s) := by
  unfold abandonClear
  dsimp only
  split <;> simp [hk]

@[simp] theorem opClearRetained_keeps (hk : Keeps a s) : Keeps a (opClearRetained s) :=
  startReset_keeps _ (abandonClear_keeps hk)

@[simp] theorem opDeviceReset_keeps (hk : Keeps a s) : Keeps a (opDeviceReset s) :=
  startReset_keeps _ (cutByReset_keeps hk)

/-! ## Notices.lean -/

@[simp] theorem reportTo_keeps (o : Outstanding) (r : Report) (hk : Keeps a s) : Keeps a (reportTo o r s) := by
  unfold reportTo
  try dsimp only
  (repeat' split) <;> simp (maxDischargeDepth := 30) [hk]

/-- The taking of a notice keeps the relation where the act does. -/
theorem onNotice_keeps (b : Block) (kind : Notice → Bool) (act : Outstanding → State → State)
    (ha : ∀ {s : State} (o : Outstanding), Keeps a s → Keeps a (act o s)) (hk : Keeps a s) :
    Keeps a (onNotice b kind act s) := by
  unfold onNotice
  (repeat' split) <;> first | exact hk | exact ha _ (takeNotice_keeps _ hk)

@[simp] theorem blockRevoke_keeps (b : Block) (h : Handle) (hk : Keeps a s) : Keeps a (blockRevoke b h s).2 := by
  unfold blockRevoke
  try dsimp only
  (repeat' split) <;> simp (maxDischargeDepth := 30) [hk]

@[simp] theorem takeRevoke_keeps (b : Block) (o : Outstanding) (hk : Keeps a s) : Keeps a (takeRevoke b o s) := by
  unfold takeRevoke
  try dsimp only
  (repeat' split) <;> simp (maxDischargeDepth := 30) [hk]

@[simp] theorem blockBar_keeps (b : Block) (c : Credential) (hk : Keeps a s) : Keeps a (blockBar b c s).2 := by
  unfold blockBar
  try dsimp only
  (repeat' split) <;> simp (maxDischargeDepth := 30) [hk]

@[simp] theorem passBar_keeps (b : Block) (o : Outstanding) (hk : Keeps a s) : Keeps a (passBar b o s) := by
  unfold passBar
  try dsimp only
  (repeat' split) <;> simp (maxDischargeDepth := 30) [hk]

@[simp] theorem takeBar_keeps (b : Block) (o : Outstanding) (hk : Keeps a s) : Keeps a (takeBar b o s) := by
  unfold takeBar
  try dsimp only
  (repeat' split) <;> simp (maxDischargeDepth := 30) [hk]

@[simp] theorem takeUnbar_keeps (o : Outstanding) (hk : Keeps a s) : Keeps a (takeUnbar o s) := by
  unfold takeUnbar
  try dsimp only
  (repeat' split) <;> simp (maxDischargeDepth := 30) [hk]

@[simp] theorem takeOverstay_keeps (o : Outstanding) (hk : Keeps a s) : Keeps a (takeOverstay o s) := by
  unfold takeOverstay
  try dsimp only
  (repeat' split) <;> simp (maxDischargeDepth := 30) [hk]

@[simp] theorem blockLoss_keeps (b : Block) (k : Nat) (hk : Keeps a s) : Keeps a (blockLoss b k s) := by
  unfold blockLoss
  split <;> simp (maxDischargeDepth := 30) [hk]

@[simp] theorem takeLoss_keeps (b : Block) (o : Outstanding) (hk : Keeps a s) : Keeps a (takeLoss b o s) := by
  unfold takeLoss
  try dsimp only
  (repeat' split) <;> simp (maxDischargeDepth := 30) [hk]

@[simp] theorem blockStop_keeps (b : Block) (hk : Keeps a s) : Keeps a (blockStop b s) := by
  unfold blockStop
  split <;> simp (maxDischargeDepth := 30) [hk]

@[simp] theorem blockFault_keeps (b : Block) (k : Nat) (hk : Keeps a s) : Keeps a (blockFault b k s) := by
  unfold blockFault
  try dsimp only
  (repeat' split) <;> simp (maxDischargeDepth := 30) [hk]

@[simp] theorem takeFault_keeps (b : Block) (o : Outstanding) (hk : Keeps a s) : Keeps a (takeFault b o s) := by
  unfold takeFault
  try dsimp only
  (repeat' split) <;> simp (maxDischargeDepth := 30) [hk]

@[simp] theorem blockMode_keeps (b : Block) (m : BuildingMode) (hk : Keeps a s) : Keeps a (blockMode b m s).2 := by
  unfold blockMode
  try dsimp only
  (repeat' split) <;> simp (maxDischargeDepth := 30) [hk]

@[simp] theorem takeMode_keeps (b : Block) (o : Outstanding) (hk : Keeps a s) : Keeps a (takeMode b o s) := by
  unfold takeMode
  try dsimp only
  (repeat' split) <;> simp (maxDischargeDepth := 30) [hk]

@[simp] theorem blockTamper_keeps (b : Block) (hk : Keeps a s) : Keeps a (blockTamper b s) := by
  unfold blockTamper
  try dsimp only
  (repeat' split) <;> simp (maxDischargeDepth := 30) [hk]

@[simp] theorem tamperNoticeStep_keeps (b : Block) (hk : Keeps a s) : Keeps a (tamperNoticeStep b s) := by
  unfold tamperNoticeStep
  try dsimp only
  (repeat' split) <;> simp (maxDischargeDepth := 30) [hk]

/-! ## PortCommands.lean -/

@[simp] theorem withBarSearch_bar_keeps (hk : Keeps a s) : Keeps a (withBarSearch barCredential s) :=
  withBarSearch_keeps _ (fun c x f hf h => barCredential_keeps c x f hf h) hk

@[simp] theorem withBarSearch_unbar_keeps (hk : Keeps a s) : Keeps a (withBarSearch unbarCredential s) :=
  withBarSearch_keeps _ (fun c x f hf h => unbarCredential_keeps c x f hf h) hk

/-- What the owner of any code does keeps the relation. -/
@[simp] theorem commandOwner_keeps (code : BitVec 8) (hk : Keeps a s) : Keeps a (commandOwner code s) := by
  generalize hf : commandOwner code = f
  unfold commandOwner at hf
  split at hf <;> subst hf
  all_goals simp [hk]

@[simp] theorem ownStep_keeps (w : CommandWork) (hk : Keeps a s) : Keeps a (ownStep w s) := by
  unfold ownStep
  try dsimp only
  (repeat' split) <;> simp (maxDischargeDepth := 30) [hk]

@[simp] theorem runOwn_keeps (n : Nat) (hk : Keeps a s) : Keeps a (runOwn n s) := by
  induction n generalizing s with
  | zero => exact hk
  | succ n ih =>
    unfold runOwn
    split
    · exact hk
    · exact ih (ownStep_keeps _ hk)

@[simp] theorem runOwnPaused_keeps (pause : Pause) (hk : Keeps a s) : Keeps a (runOwnPaused pause s) := by
  unfold runOwnPaused
  try dsimp only
  (repeat' split) <;> simp (maxDischargeDepth := 30) [hk]

theorem sequenceCommand_keeps (code : BitVec 8) (op : State → State) (pause : Pause)
    (ho : ∀ {s : State}, Keeps a s → Keeps a (op s)) (hk : Keeps a s) : Keeps a (sequenceCommand code op pause s) :=
  commandWrite_keeps code _ (fun h => runOwnPaused_keeps pause (ho h)) hk

@[simp] theorem continueCommand_keeps (w : CommandWork) (hk : Keeps a s) : Keeps a (continueCommand w s) := by
  unfold continueCommand
  (repeat' split) <;> simp (maxDischargeDepth := 30) [hk]

@[simp] theorem completeCommand_keeps (hk : Keeps a s) : Keeps a (completeCommand s) := by
  unfold completeCommand
  (repeat' split) <;> simp (maxDischargeDepth := 30) [hk]

@[simp] theorem writeCommandWord_keeps (word : Word) (hk : Keeps a s) : Keeps a (writeCommandWord word s) :=
  commandWrite_keeps _ _ (fun h => commandOwner_keeps _ h) hk

@[simp] theorem handCommand_keeps (code : BitVec 8) (hk : Keeps a s) : Keeps a (handCommand code s) := by
  unfold handCommand
  split <;> simp [hk]

@[simp] theorem acceptCommandWord_keeps (word : Word) (hk : Keeps a s) : Keeps a (acceptCommandWord word s) :=
  commandWrite_keeps _ _ (fun h => handCommand_keeps _ h) hk

/-! ## Supply.lean -/

@[simp] theorem resetRoomBody_keeps (r : Nat) (hk : Keeps a s) : Keeps a (resetRoomBody r s) := by
  unfold resetRoomBody
  dsimp only
  split <;> simp (maxDischargeDepth := 30) [hk]

/-- Any one step of an operation on many records keeps the relation. -/
@[simp] theorem RecordStep.run_keeps (x : RecordStep) (hk : Keeps a s) : Keeps a (x.run s) := by
  cases x with
  | placeEntrant r e => exact admissionWith_keeps _ placeRecords_keeps r [e] (fun _ => by simp) hk
  | clearSlot k => exact setSlot_keeps k _ (fun _ => by decide) hk
  | clearDeferred => exact hk.trans ⟨rfl, fun i => { i with deferred := by simp [RecordStep.run] }⟩
  | _ => simp [RecordStep.run, hk]

@[simp] theorem runSteps_keeps (steps : List RecordStep) (hk : Keeps a s) : Keeps a (runSteps steps s) :=
  foldl_keeps _ _ (fun x h => RecordStep.run_keeps x h) hk

@[simp] theorem runReached_keeps (n : Nat) (steps : List RecordStep) (hk : Keeps a s) : Keeps a (runReached n steps s) := by
  induction steps generalizing n s with
  | nil => unfold runReached; exact hk
  | cons x xs ih =>
    unfold runReached
    dsimp only
    split
    · exact ih _ (runSteps_keeps _ hk)
    · exact runSteps_keeps _ hk

@[simp] theorem cutOperation_keeps (cut : Option Cut) (hk : Keeps a s) : Keeps a (cutOperation cut s) := by
  unfold cutOperation
  split <;> simp [hk]

@[simp] theorem cutBySupply_keeps (hk : Keeps a s) : Keeps a (cutBySupply s) := by
  unfold cutBySupply
  split <;> simp [hk]

end Sys2Proof.Machine
end

