-- ==== Sys2Proof/Laws/State.lean ====
section
/-! SUPPORT. What each named update of State leaves unchanged, field by field, and what it writes: simp lemmas, so that no proof unfolds an update. -/

namespace Sys2Proof.Machine

open Sys2Proof

/-- The fields that `State.setSlot` leaves unchanged. -/
@[simp] theorem setSlot_frame (s : State) (k : Nat) (v : Slot) :
    (s.setSlot k v).supply = s.supply ∧ (s.setSlot k v).resetLow = s.resetLow ∧
    (s.setSlot k v).firePin = s.firePin ∧ (s.setSlot k v).lockdownPin = s.lockdownPin ∧
    (s.setSlot k v).tamperLine = s.tamperLine ∧ (s.setSlot k v).markSent = s.markSent ∧
    (s.setSlot k v).spiOut = s.spiOut ∧ (s.setSlot k v).attentionTaken = s.attentionTaken ∧
    (s.setSlot k v).clock = s.clock ∧ (s.setSlot k v).trim = s.trim ∧
    (s.setSlot k v).secondLength = s.secondLength ∧ (s.setSlot k v).retireHold = s.retireHold ∧
    (s.setSlot k v).sweep = s.sweep ∧ (s.setSlot k v).resweep = s.resweep ∧ (s.setSlot k v).rooms = s.rooms ∧
    (s.setSlot k v).markedTo = s.markedTo ∧ (s.setSlot k v).cuts = s.cuts ∧
    (s.setSlot k v).presence = s.presence ∧ (s.setSlot k v).barHeader = s.barHeader ∧
    (s.setSlot k v).barEntries = s.barEntries ∧ (s.setSlot k v).requests = s.requests ∧
    (s.setSlot k v).seat = s.seat ∧ (s.setSlot k v).verdicts = s.verdicts ∧ (s.setSlot k v).pairs = s.pairs ∧
    (s.setSlot k v).pairWindow = s.pairWindow ∧ (s.setSlot k v).referrals = s.referrals ∧
    (s.setSlot k v).referenceCounter = s.referenceCounter ∧
    (s.setSlot k v).referralTimeout = s.referralTimeout ∧ (s.setSlot k v).linkConfig = s.linkConfig ∧
    (s.setSlot k v).linkState = s.linkState ∧ (s.setSlot k v).cycle = s.cycle ∧
    (s.setSlot k v).cyclePlace = s.cyclePlace ∧ (s.setSlot k v).stations = s.stations ∧
    (s.setSlot k v).unbindHold = s.unbindHold ∧ (s.setSlot k v).mode = s.mode ∧
    (s.setSlot k v).fireLevel = s.fireLevel ∧ (s.setSlot k v).lockdownLevel = s.lockdownLevel ∧
    (s.setSlot k v).override = s.override ∧ (s.setSlot k v).health = s.health ∧
    (s.setSlot k v).tamper = s.tamper ∧ (s.setSlot k v).deferred = s.deferred ∧
    (s.setSlot k v).checkPattern = s.checkPattern ∧ (s.setSlot k v).portBusy = s.portBusy ∧
    (s.setSlot k v).resultCode = s.resultCode ∧ (s.setSlot k v).overrun = s.overrun ∧
    (s.setSlot k v).lastCommand = s.lastCommand ∧ (s.setSlot k v).window = s.window ∧
    (s.setSlot k v).attention = s.attention ∧ (s.setSlot k v).attentionMask = s.attentionMask ∧
    (s.setSlot k v).resetCauses = s.resetCauses ∧ (s.setSlot k v).work = s.work ∧
    (s.setSlot k v).notices = s.notices ∧ (s.setSlot k v).pending = s.pending := by
  refine ⟨rfl, rfl, rfl, rfl, rfl, rfl, rfl, rfl, rfl, rfl, rfl, rfl, rfl, rfl, rfl, rfl, rfl, rfl, rfl, rfl, rfl, rfl, rfl, rfl, rfl, rfl, rfl, rfl, rfl, rfl, rfl, rfl, rfl, rfl, rfl, rfl, rfl, rfl, rfl, rfl, rfl, rfl, rfl, rfl, rfl, rfl, rfl, rfl, rfl, rfl, rfl, rfl, rfl⟩

/-- The fields that `State.setRoom` leaves unchanged. -/
@[simp] theorem setRoom_frame (s : State) (k : Nat) (v : Room) :
    (s.setRoom k v).supply = s.supply ∧ (s.setRoom k v).resetLow = s.resetLow ∧
    (s.setRoom k v).firePin = s.firePin ∧ (s.setRoom k v).lockdownPin = s.lockdownPin ∧
    (s.setRoom k v).tamperLine = s.tamperLine ∧ (s.setRoom k v).markSent = s.markSent ∧
    (s.setRoom k v).spiOut = s.spiOut ∧ (s.setRoom k v).attentionTaken = s.attentionTaken ∧
    (s.setRoom k v).clock = s.clock ∧ (s.setRoom k v).trim = s.trim ∧
    (s.setRoom k v).secondLength = s.secondLength ∧ (s.setRoom k v).grants = s.grants ∧
    (s.setRoom k v).retireHold = s.retireHold ∧ (s.setRoom k v).sweep = s.sweep ∧
    (s.setRoom k v).resweep = s.resweep ∧
    (s.setRoom k v).markedTo = s.markedTo ∧ (s.setRoom k v).cuts = s.cuts ∧ (s.setRoom k v).presence = s.presence ∧
    (s.setRoom k v).barHeader = s.barHeader ∧ (s.setRoom k v).barEntries = s.barEntries ∧
    (s.setRoom k v).requests = s.requests ∧ (s.setRoom k v).seat = s.seat ∧
    (s.setRoom k v).verdicts = s.verdicts ∧ (s.setRoom k v).pairs = s.pairs ∧
    (s.setRoom k v).pairWindow = s.pairWindow ∧ (s.setRoom k v).referrals = s.referrals ∧
    (s.setRoom k v).referenceCounter = s.referenceCounter ∧
    (s.setRoom k v).referralTimeout = s.referralTimeout ∧ (s.setRoom k v).linkConfig = s.linkConfig ∧
    (s.setRoom k v).linkState = s.linkState ∧ (s.setRoom k v).cycle = s.cycle ∧
    (s.setRoom k v).cyclePlace = s.cyclePlace ∧ (s.setRoom k v).stations = s.stations ∧
    (s.setRoom k v).unbindHold = s.unbindHold ∧ (s.setRoom k v).mode = s.mode ∧
    (s.setRoom k v).fireLevel = s.fireLevel ∧ (s.setRoom k v).lockdownLevel = s.lockdownLevel ∧
    (s.setRoom k v).override = s.override ∧ (s.setRoom k v).health = s.health ∧
    (s.setRoom k v).tamper = s.tamper ∧ (s.setRoom k v).deferred = s.deferred ∧
    (s.setRoom k v).checkPattern = s.checkPattern ∧ (s.setRoom k v).portBusy = s.portBusy ∧
    (s.setRoom k v).resultCode = s.resultCode ∧ (s.setRoom k v).overrun = s.overrun ∧
    (s.setRoom k v).lastCommand = s.lastCommand ∧ (s.setRoom k v).window = s.window ∧
    (s.setRoom k v).attention = s.attention ∧ (s.setRoom k v).attentionMask = s.attentionMask ∧
    (s.setRoom k v).resetCauses = s.resetCauses ∧ (s.setRoom k v).work = s.work ∧
    (s.setRoom k v).notices = s.notices ∧ (s.setRoom k v).pending = s.pending := by
  refine ⟨rfl, rfl, rfl, rfl, rfl, rfl, rfl, rfl, rfl, rfl, rfl, rfl, rfl, rfl, rfl, rfl, rfl, rfl, rfl, rfl, rfl, rfl, rfl, rfl, rfl, rfl, rfl, rfl, rfl, rfl, rfl, rfl, rfl, rfl, rfl, rfl, rfl, rfl, rfl, rfl, rfl, rfl, rfl, rfl, rfl, rfl, rfl, rfl, rfl, rfl, rfl, rfl, rfl⟩

/-- The fields that `State.setRecord` leaves unchanged. -/
@[simp] theorem setRecord_frame (s : State) (k : Nat) (v : PresenceRecord) :
    (s.setRecord k v).supply = s.supply ∧ (s.setRecord k v).resetLow = s.resetLow ∧
    (s.setRecord k v).firePin = s.firePin ∧ (s.setRecord k v).lockdownPin = s.lockdownPin ∧
    (s.setRecord k v).tamperLine = s.tamperLine ∧ (s.setRecord k v).markSent = s.markSent ∧
    (s.setRecord k v).spiOut = s.spiOut ∧ (s.setRecord k v).attentionTaken = s.attentionTaken ∧
    (s.setRecord k v).clock = s.clock ∧ (s.setRecord k v).trim = s.trim ∧
    (s.setRecord k v).secondLength = s.secondLength ∧ (s.setRecord k v).grants = s.grants ∧
    (s.setRecord k v).retireHold = s.retireHold ∧ (s.setRecord k v).sweep = s.sweep ∧
    (s.setRecord k v).resweep = s.resweep ∧ (s.setRecord k v).rooms = s.rooms ∧
    (s.setRecord k v).markedTo = s.markedTo ∧ (s.setRecord k v).cuts = s.cuts ∧
    (s.setRecord k v).barHeader = s.barHeader ∧ (s.setRecord k v).barEntries = s.barEntries ∧
    (s.setRecord k v).requests = s.requests ∧ (s.setRecord k v).seat = s.seat ∧
    (s.setRecord k v).verdicts = s.verdicts ∧ (s.setRecord k v).pairs = s.pairs ∧
    (s.setRecord k v).pairWindow = s.pairWindow ∧ (s.setRecord k v).referrals = s.referrals ∧
    (s.setRecord k v).referenceCounter = s.referenceCounter ∧
    (s.setRecord k v).referralTimeout = s.referralTimeout ∧ (s.setRecord k v).linkConfig = s.linkConfig ∧
    (s.setRecord k v).linkState = s.linkState ∧ (s.setRecord k v).cycle = s.cycle ∧
    (s.setRecord k v).cyclePlace = s.cyclePlace ∧ (s.setRecord k v).stations = s.stations ∧
    (s.setRecord k v).unbindHold = s.unbindHold ∧ (s.setRecord k v).mode = s.mode ∧
    (s.setRecord k v).fireLevel = s.fireLevel ∧ (s.setRecord k v).lockdownLevel = s.lockdownLevel ∧
    (s.setRecord k v).override = s.override ∧ (s.setRecord k v).health = s.health ∧
    (s.setRecord k v).tamper = s.tamper ∧ (s.setRecord k v).deferred = s.deferred ∧
    (s.setRecord k v).checkPattern = s.checkPattern ∧ (s.setRecord k v).portBusy = s.portBusy ∧
    (s.setRecord k v).resultCode = s.resultCode ∧ (s.setRecord k v).overrun = s.overrun ∧
    (s.setRecord k v).lastCommand = s.lastCommand ∧ (s.setRecord k v).window = s.window ∧
    (s.setRecord k v).attention = s.attention ∧ (s.setRecord k v).attentionMask = s.attentionMask ∧
    (s.setRecord k v).resetCauses = s.resetCauses ∧ (s.setRecord k v).work = s.work ∧
    (s.setRecord k v).notices = s.notices ∧ (s.setRecord k v).pending = s.pending := by
  refine ⟨rfl, rfl, rfl, rfl, rfl, rfl, rfl, rfl, rfl, rfl, rfl, rfl, rfl, rfl, rfl, rfl, rfl, rfl, rfl, rfl, rfl, rfl, rfl, rfl, rfl, rfl, rfl, rfl, rfl, rfl, rfl, rfl, rfl, rfl, rfl, rfl, rfl, rfl, rfl, rfl, rfl, rfl, rfl, rfl, rfl, rfl, rfl, rfl, rfl, rfl, rfl, rfl, rfl⟩

/-- The fields that `State.setStation` leaves unchanged. -/
@[simp] theorem setStation_frame (s : State) (k : Nat) (v : Station) :
    (s.setStation k v).supply = s.supply ∧ (s.setStation k v).resetLow = s.resetLow ∧
    (s.setStation k v).firePin = s.firePin ∧ (s.setStation k v).lockdownPin = s.lockdownPin ∧
    (s.setStation k v).tamperLine = s.tamperLine ∧ (s.setStation k v).markSent = s.markSent ∧
    (s.setStation k v).spiOut = s.spiOut ∧ (s.setStation k v).attentionTaken = s.attentionTaken ∧
    (s.setStation k v).clock = s.clock ∧ (s.setStation k v).trim = s.trim ∧
    (s.setStation k v).secondLength = s.secondLength ∧ (s.setStation k v).grants = s.grants ∧
    (s.setStation k v).retireHold = s.retireHold ∧ (s.setStation k v).sweep = s.sweep ∧
    (s.setStation k v).resweep = s.resweep ∧ (s.setStation k v).rooms = s.rooms ∧
    (s.setStation k v).markedTo = s.markedTo ∧ (s.setStation k v).cuts = s.cuts ∧
    (s.setStation k v).presence = s.presence ∧ (s.setStation k v).barHeader = s.barHeader ∧
    (s.setStation k v).barEntries = s.barEntries ∧ (s.setStation k v).requests = s.requests ∧
    (s.setStation k v).seat = s.seat ∧ (s.setStation k v).verdicts = s.verdicts ∧
    (s.setStation k v).pairs = s.pairs ∧ (s.setStation k v).pairWindow = s.pairWindow ∧
    (s.setStation k v).referrals = s.referrals ∧ (s.setStation k v).referenceCounter = s.referenceCounter ∧
    (s.setStation k v).referralTimeout = s.referralTimeout ∧ (s.setStation k v).linkConfig = s.linkConfig ∧
    (s.setStation k v).linkState = s.linkState ∧ (s.setStation k v).cycle = s.cycle ∧
    (s.setStation k v).cyclePlace = s.cyclePlace ∧ (s.setStation k v).unbindHold = s.unbindHold ∧
    (s.setStation k v).mode = s.mode ∧ (s.setStation k v).fireLevel = s.fireLevel ∧
    (s.setStation k v).lockdownLevel = s.lockdownLevel ∧ (s.setStation k v).override = s.override ∧
    (s.setStation k v).health = s.health ∧ (s.setStation k v).tamper = s.tamper ∧
    (s.setStation k v).deferred = s.deferred ∧ (s.setStation k v).checkPattern = s.checkPattern ∧
    (s.setStation k v).portBusy = s.portBusy ∧ (s.setStation k v).resultCode = s.resultCode ∧
    (s.setStation k v).overrun = s.overrun ∧ (s.setStation k v).lastCommand = s.lastCommand ∧
    (s.setStation k v).window = s.window ∧ (s.setStation k v).attention = s.attention ∧
    (s.setStation k v).attentionMask = s.attentionMask ∧ (s.setStation k v).resetCauses = s.resetCauses ∧
    (s.setStation k v).work = s.work ∧ (s.setStation k v).notices = s.notices ∧
    (s.setStation k v).pending = s.pending := by
  refine ⟨rfl, rfl, rfl, rfl, rfl, rfl, rfl, rfl, rfl, rfl, rfl, rfl, rfl, rfl, rfl, rfl, rfl, rfl, rfl, rfl, rfl, rfl, rfl, rfl, rfl, rfl, rfl, rfl, rfl, rfl, rfl, rfl, rfl, rfl, rfl, rfl, rfl, rfl, rfl, rfl, rfl, rfl, rfl, rfl, rfl, rfl, rfl, rfl, rfl, rfl, rfl, rfl, rfl⟩

/-- The fields that `State.setPair` leaves unchanged. -/
@[simp] theorem setPair_frame (s : State) (k : Nat) (v : Option PairContext) :
    (s.setPair k v).supply = s.supply ∧ (s.setPair k v).resetLow = s.resetLow ∧
    (s.setPair k v).firePin = s.firePin ∧ (s.setPair k v).lockdownPin = s.lockdownPin ∧
    (s.setPair k v).tamperLine = s.tamperLine ∧ (s.setPair k v).markSent = s.markSent ∧
    (s.setPair k v).spiOut = s.spiOut ∧ (s.setPair k v).attentionTaken = s.attentionTaken ∧
    (s.setPair k v).clock = s.clock ∧ (s.setPair k v).trim = s.trim ∧
    (s.setPair k v).secondLength = s.secondLength ∧ (s.setPair k v).grants = s.grants ∧
    (s.setPair k v).retireHold = s.retireHold ∧ (s.setPair k v).sweep = s.sweep ∧
    (s.setPair k v).resweep = s.resweep ∧ (s.setPair k v).rooms = s.rooms ∧
    (s.setPair k v).markedTo = s.markedTo ∧ (s.setPair k v).cuts = s.cuts ∧
    (s.setPair k v).presence = s.presence ∧ (s.setPair k v).barHeader = s.barHeader ∧
    (s.setPair k v).barEntries = s.barEntries ∧ (s.setPair k v).requests = s.requests ∧
    (s.setPair k v).seat = s.seat ∧ (s.setPair k v).verdicts = s.verdicts ∧
    (s.setPair k v).pairWindow = s.pairWindow ∧ (s.setPair k v).referrals = s.referrals ∧
    (s.setPair k v).referenceCounter = s.referenceCounter ∧
    (s.setPair k v).referralTimeout = s.referralTimeout ∧ (s.setPair k v).linkConfig = s.linkConfig ∧
    (s.setPair k v).linkState = s.linkState ∧ (s.setPair k v).cycle = s.cycle ∧
    (s.setPair k v).cyclePlace = s.cyclePlace ∧ (s.setPair k v).stations = s.stations ∧
    (s.setPair k v).unbindHold = s.unbindHold ∧ (s.setPair k v).mode = s.mode ∧
    (s.setPair k v).fireLevel = s.fireLevel ∧ (s.setPair k v).lockdownLevel = s.lockdownLevel ∧
    (s.setPair k v).override = s.override ∧ (s.setPair k v).health = s.health ∧
    (s.setPair k v).tamper = s.tamper ∧ (s.setPair k v).deferred = s.deferred ∧
    (s.setPair k v).checkPattern = s.checkPattern ∧ (s.setPair k v).portBusy = s.portBusy ∧
    (s.setPair k v).resultCode = s.resultCode ∧ (s.setPair k v).overrun = s.overrun ∧
    (s.setPair k v).lastCommand = s.lastCommand ∧ (s.setPair k v).window = s.window ∧
    (s.setPair k v).attention = s.attention ∧ (s.setPair k v).attentionMask = s.attentionMask ∧
    (s.setPair k v).resetCauses = s.resetCauses ∧ (s.setPair k v).work = s.work ∧
    (s.setPair k v).notices = s.notices ∧ (s.setPair k v).pending = s.pending := by
  refine ⟨rfl, rfl, rfl, rfl, rfl, rfl, rfl, rfl, rfl, rfl, rfl, rfl, rfl, rfl, rfl, rfl, rfl, rfl, rfl, rfl, rfl, rfl, rfl, rfl, rfl, rfl, rfl, rfl, rfl, rfl, rfl, rfl, rfl, rfl, rfl, rfl, rfl, rfl, rfl, rfl, rfl, rfl, rfl, rfl, rfl, rfl, rfl, rfl, rfl, rfl, rfl, rfl, rfl⟩

/-- The fields that `accepted` leaves unchanged. -/
@[simp] theorem accepted_frame (code : BitVec 8) (s : State) :
    (accepted code s).supply = s.supply ∧ (accepted code s).resetLow = s.resetLow ∧
    (accepted code s).firePin = s.firePin ∧ (accepted code s).lockdownPin = s.lockdownPin ∧
    (accepted code s).tamperLine = s.tamperLine ∧ (accepted code s).markSent = s.markSent ∧
    (accepted code s).spiOut = s.spiOut ∧ (accepted code s).attentionTaken = s.attentionTaken ∧
    (accepted code s).clock = s.clock ∧ (accepted code s).trim = s.trim ∧
    (accepted code s).secondLength = s.secondLength ∧ (accepted code s).grants = s.grants ∧
    (accepted code s).retireHold = s.retireHold ∧ (accepted code s).sweep = s.sweep ∧
    (accepted code s).resweep = s.resweep ∧ (accepted code s).rooms = s.rooms ∧
    (accepted code s).markedTo = s.markedTo ∧ (accepted code s).cuts = s.cuts ∧
    (accepted code s).presence = s.presence ∧ (accepted code s).barHeader = s.barHeader ∧
    (accepted code s).barEntries = s.barEntries ∧ (accepted code s).requests = s.requests ∧
    (accepted code s).seat = s.seat ∧ (accepted code s).verdicts = s.verdicts ∧
    (accepted code s).pairs = s.pairs ∧ (accepted code s).pairWindow = s.pairWindow ∧
    (accepted code s).referrals = s.referrals ∧ (accepted code s).referenceCounter = s.referenceCounter ∧
    (accepted code s).referralTimeout = s.referralTimeout ∧ (accepted code s).linkConfig = s.linkConfig ∧
    (accepted code s).linkState = s.linkState ∧ (accepted code s).cycle = s.cycle ∧
    (accepted code s).cyclePlace = s.cyclePlace ∧ (accepted code s).stations = s.stations ∧
    (accepted code s).unbindHold = s.unbindHold ∧ (accepted code s).mode = s.mode ∧
    (accepted code s).fireLevel = s.fireLevel ∧ (accepted code s).lockdownLevel = s.lockdownLevel ∧
    (accepted code s).override = s.override ∧ (accepted code s).health = s.health ∧
    (accepted code s).tamper = s.tamper ∧ (accepted code s).deferred = s.deferred ∧
    (accepted code s).checkPattern = s.checkPattern ∧ (accepted code s).resultCode = s.resultCode ∧
    (accepted code s).window = s.window ∧ (accepted code s).attention = s.attention ∧
    (accepted code s).attentionMask = s.attentionMask ∧ (accepted code s).resetCauses = s.resetCauses ∧
    (accepted code s).work = s.work ∧ (accepted code s).notices = s.notices ∧
    (accepted code s).pending = s.pending := by
  refine ⟨rfl, rfl, rfl, rfl, rfl, rfl, rfl, rfl, rfl, rfl, rfl, rfl, rfl, rfl, rfl, rfl, rfl, rfl, rfl, rfl, rfl, rfl, rfl, rfl, rfl, rfl, rfl, rfl, rfl, rfl, rfl, rfl, rfl, rfl, rfl, rfl, rfl, rfl, rfl, rfl, rfl, rfl, rfl, rfl, rfl, rfl, rfl, rfl, rfl, rfl, rfl⟩

/-- The fields that `finish` leaves unchanged. -/
@[simp] theorem finish_frame (r : CommandResult) (s : State) :
    (finish r s).supply = s.supply ∧ (finish r s).resetLow = s.resetLow ∧ (finish r s).firePin = s.firePin ∧
    (finish r s).lockdownPin = s.lockdownPin ∧ (finish r s).tamperLine = s.tamperLine ∧
    (finish r s).markSent = s.markSent ∧ (finish r s).spiOut = s.spiOut ∧
    (finish r s).attentionTaken = s.attentionTaken ∧ (finish r s).clock = s.clock ∧
    (finish r s).trim = s.trim ∧ (finish r s).secondLength = s.secondLength ∧ (finish r s).grants = s.grants ∧
    (finish r s).retireHold = s.retireHold ∧ (finish r s).sweep = s.sweep ∧ (finish r s).resweep = s.resweep ∧
    (finish r s).rooms = s.rooms ∧
    (finish r s).markedTo = s.markedTo ∧ (finish r s).cuts = s.cuts ∧ (finish r s).presence = s.presence ∧ (finish r s).barHeader = s.barHeader ∧
    (finish r s).barEntries = s.barEntries ∧ (finish r s).requests = s.requests ∧ (finish r s).seat = s.seat ∧
    (finish r s).verdicts = s.verdicts ∧ (finish r s).pairs = s.pairs ∧
    (finish r s).pairWindow = s.pairWindow ∧ (finish r s).referrals = s.referrals ∧
    (finish r s).referenceCounter = s.referenceCounter ∧ (finish r s).referralTimeout = s.referralTimeout ∧
    (finish r s).linkConfig = s.linkConfig ∧ (finish r s).linkState = s.linkState ∧
    (finish r s).cycle = s.cycle ∧ (finish r s).cyclePlace = s.cyclePlace ∧
    (finish r s).stations = s.stations ∧ (finish r s).unbindHold = s.unbindHold ∧ (finish r s).mode = s.mode ∧
    (finish r s).fireLevel = s.fireLevel ∧ (finish r s).lockdownLevel = s.lockdownLevel ∧
    (finish r s).override = s.override ∧ (finish r s).health = s.health ∧ (finish r s).tamper = s.tamper ∧
    (finish r s).deferred = s.deferred ∧ (finish r s).checkPattern = s.checkPattern ∧
    (finish r s).portBusy = s.portBusy ∧ (finish r s).resultCode = s.resultCode ∧
    (finish r s).overrun = s.overrun ∧ (finish r s).lastCommand = s.lastCommand ∧
    (finish r s).window = s.window ∧ (finish r s).attention = s.attention ∧
    (finish r s).attentionMask = s.attentionMask ∧ (finish r s).resetCauses = s.resetCauses ∧
    (finish r s).notices = s.notices ∧ (finish r s).pending = s.pending := by
  refine ⟨rfl, rfl, rfl, rfl, rfl, rfl, rfl, rfl, rfl, rfl, rfl, rfl, rfl, rfl, rfl, rfl, rfl, rfl, rfl, rfl, rfl, rfl, rfl, rfl, rfl, rfl, rfl, rfl, rfl, rfl, rfl, rfl, rfl, rfl, rfl, rfl, rfl, rfl, rfl, rfl, rfl, rfl, rfl, rfl, rfl, rfl, rfl, rfl, rfl, rfl, rfl, rfl, rfl⟩

/-- The fields that `giveNotices` leaves unchanged. -/
@[simp] theorem giveNotices_frame (bs : List Block) (n : Notice) (b : Bool) (s : State) :
    (giveNotices bs n b s).supply = s.supply ∧ (giveNotices bs n b s).resetLow = s.resetLow ∧
    (giveNotices bs n b s).firePin = s.firePin ∧ (giveNotices bs n b s).lockdownPin = s.lockdownPin ∧
    (giveNotices bs n b s).tamperLine = s.tamperLine ∧ (giveNotices bs n b s).markSent = s.markSent ∧
    (giveNotices bs n b s).spiOut = s.spiOut ∧ (giveNotices bs n b s).attentionTaken = s.attentionTaken ∧
    (giveNotices bs n b s).clock = s.clock ∧ (giveNotices bs n b s).trim = s.trim ∧
    (giveNotices bs n b s).secondLength = s.secondLength ∧ (giveNotices bs n b s).grants = s.grants ∧
    (giveNotices bs n b s).retireHold = s.retireHold ∧ (giveNotices bs n b s).sweep = s.sweep ∧
    (giveNotices bs n b s).resweep = s.resweep ∧ (giveNotices bs n b s).rooms = s.rooms ∧
    (giveNotices bs n b s).markedTo = s.markedTo ∧ (giveNotices bs n b s).cuts = s.cuts ∧
    (giveNotices bs n b s).presence = s.presence ∧ (giveNotices bs n b s).barHeader = s.barHeader ∧
    (giveNotices bs n b s).barEntries = s.barEntries ∧ (giveNotices bs n b s).requests = s.requests ∧
    (giveNotices bs n b s).seat = s.seat ∧ (giveNotices bs n b s).verdicts = s.verdicts ∧
    (giveNotices bs n b s).pairs = s.pairs ∧ (giveNotices bs n b s).pairWindow = s.pairWindow ∧
    (giveNotices bs n b s).referrals = s.referrals ∧
    (giveNotices bs n b s).referenceCounter = s.referenceCounter ∧
    (giveNotices bs n b s).referralTimeout = s.referralTimeout ∧
    (giveNotices bs n b s).linkConfig = s.linkConfig ∧ (giveNotices bs n b s).linkState = s.linkState ∧
    (giveNotices bs n b s).cycle = s.cycle ∧ (giveNotices bs n b s).cyclePlace = s.cyclePlace ∧
    (giveNotices bs n b s).stations = s.stations ∧ (giveNotices bs n b s).unbindHold = s.unbindHold ∧
    (giveNotices bs n b s).mode = s.mode ∧ (giveNotices bs n b s).fireLevel = s.fireLevel ∧
    (giveNotices bs n b s).lockdownLevel = s.lockdownLevel ∧ (giveNotices bs n b s).override = s.override ∧
    (giveNotices bs n b s).health = s.health ∧ (giveNotices bs n b s).tamper = s.tamper ∧
    (giveNotices bs n b s).deferred = s.deferred ∧ (giveNotices bs n b s).checkPattern = s.checkPattern ∧
    (giveNotices bs n b s).portBusy = s.portBusy ∧ (giveNotices bs n b s).resultCode = s.resultCode ∧
    (giveNotices bs n b s).overrun = s.overrun ∧ (giveNotices bs n b s).lastCommand = s.lastCommand ∧
    (giveNotices bs n b s).window = s.window ∧ (giveNotices bs n b s).attention = s.attention ∧
    (giveNotices bs n b s).attentionMask = s.attentionMask ∧
    (giveNotices bs n b s).resetCauses = s.resetCauses ∧ (giveNotices bs n b s).work = s.work ∧
    (giveNotices bs n b s).pending = s.pending := by
  refine ⟨rfl, rfl, rfl, rfl, rfl, rfl, rfl, rfl, rfl, rfl, rfl, rfl, rfl, rfl, rfl, rfl, rfl, rfl, rfl, rfl, rfl, rfl, rfl, rfl, rfl, rfl, rfl, rfl, rfl, rfl, rfl, rfl, rfl, rfl, rfl, rfl, rfl, rfl, rfl, rfl, rfl, rfl, rfl, rfl, rfl, rfl, rfl, rfl, rfl, rfl, rfl, rfl, rfl⟩

/-- The fields that `takeNotice` leaves unchanged. -/
@[simp] theorem takeNotice_frame (o : Outstanding) (s : State) :
    (takeNotice o s).supply = s.supply ∧ (takeNotice o s).resetLow = s.resetLow ∧
    (takeNotice o s).firePin = s.firePin ∧ (takeNotice o s).lockdownPin = s.lockdownPin ∧
    (takeNotice o s).tamperLine = s.tamperLine ∧ (takeNotice o s).markSent = s.markSent ∧
    (takeNotice o s).spiOut = s.spiOut ∧ (takeNotice o s).attentionTaken = s.attentionTaken ∧
    (takeNotice o s).clock = s.clock ∧ (takeNotice o s).trim = s.trim ∧
    (takeNotice o s).secondLength = s.secondLength ∧ (takeNotice o s).grants = s.grants ∧
    (takeNotice o s).retireHold = s.retireHold ∧ (takeNotice o s).sweep = s.sweep ∧
    (takeNotice o s).resweep = s.resweep ∧ (takeNotice o s).rooms = s.rooms ∧
    (takeNotice o s).markedTo = s.markedTo ∧ (takeNotice o s).cuts = s.cuts ∧
    (takeNotice o s).presence = s.presence ∧ (takeNotice o s).barHeader = s.barHeader ∧
    (takeNotice o s).barEntries = s.barEntries ∧ (takeNotice o s).requests = s.requests ∧
    (takeNotice o s).seat = s.seat ∧ (takeNotice o s).verdicts = s.verdicts ∧
    (takeNotice o s).pairs = s.pairs ∧ (takeNotice o s).pairWindow = s.pairWindow ∧
    (takeNotice o s).referrals = s.referrals ∧ (takeNotice o s).referenceCounter = s.referenceCounter ∧
    (takeNotice o s).referralTimeout = s.referralTimeout ∧ (takeNotice o s).linkConfig = s.linkConfig ∧
    (takeNotice o s).linkState = s.linkState ∧ (takeNotice o s).cycle = s.cycle ∧
    (takeNotice o s).cyclePlace = s.cyclePlace ∧ (takeNotice o s).stations = s.stations ∧
    (takeNotice o s).unbindHold = s.unbindHold ∧ (takeNotice o s).mode = s.mode ∧
    (takeNotice o s).fireLevel = s.fireLevel ∧ (takeNotice o s).lockdownLevel = s.lockdownLevel ∧
    (takeNotice o s).override = s.override ∧ (takeNotice o s).health = s.health ∧
    (takeNotice o s).tamper = s.tamper ∧ (takeNotice o s).deferred = s.deferred ∧
    (takeNotice o s).checkPattern = s.checkPattern ∧ (takeNotice o s).portBusy = s.portBusy ∧
    (takeNotice o s).resultCode = s.resultCode ∧ (takeNotice o s).overrun = s.overrun ∧
    (takeNotice o s).lastCommand = s.lastCommand ∧ (takeNotice o s).window = s.window ∧
    (takeNotice o s).attention = s.attention ∧ (takeNotice o s).attentionMask = s.attentionMask ∧
    (takeNotice o s).resetCauses = s.resetCauses ∧ (takeNotice o s).work = s.work ∧
    (takeNotice o s).pending = s.pending := by
  refine ⟨rfl, rfl, rfl, rfl, rfl, rfl, rfl, rfl, rfl, rfl, rfl, rfl, rfl, rfl, rfl, rfl, rfl, rfl, rfl, rfl, rfl, rfl, rfl, rfl, rfl, rfl, rfl, rfl, rfl, rfl, rfl, rfl, rfl, rfl, rfl, rfl, rfl, rfl, rfl, rfl, rfl, rfl, rfl, rfl, rfl, rfl, rfl, rfl, rfl, rfl, rfl, rfl, rfl⟩

/-- The fields that `appendEntry` leaves unchanged. -/
@[simp] theorem appendEntry_frame (e : VerdictEntry) (s : State) :
    (appendEntry e s).supply = s.supply ∧ (appendEntry e s).resetLow = s.resetLow ∧
    (appendEntry e s).firePin = s.firePin ∧ (appendEntry e s).lockdownPin = s.lockdownPin ∧
    (appendEntry e s).tamperLine = s.tamperLine ∧ (appendEntry e s).markSent = s.markSent ∧
    (appendEntry e s).spiOut = s.spiOut ∧ (appendEntry e s).attentionTaken = s.attentionTaken ∧
    (appendEntry e s).clock = s.clock ∧ (appendEntry e s).trim = s.trim ∧
    (appendEntry e s).secondLength = s.secondLength ∧ (appendEntry e s).grants = s.grants ∧
    (appendEntry e s).retireHold = s.retireHold ∧ (appendEntry e s).sweep = s.sweep ∧
    (appendEntry e s).resweep = s.resweep ∧ (appendEntry e s).rooms = s.rooms ∧
    (appendEntry e s).markedTo = s.markedTo ∧ (appendEntry e s).cuts = s.cuts ∧
    (appendEntry e s).presence = s.presence ∧ (appendEntry e s).barHeader = s.barHeader ∧
    (appendEntry e s).barEntries = s.barEntries ∧ (appendEntry e s).requests = s.requests ∧
    (appendEntry e s).seat = s.seat ∧ (appendEntry e s).pairs = s.pairs ∧
    (appendEntry e s).pairWindow = s.pairWindow ∧ (appendEntry e s).referrals = s.referrals ∧
    (appendEntry e s).referenceCounter = s.referenceCounter ∧
    (appendEntry e s).referralTimeout = s.referralTimeout ∧ (appendEntry e s).linkConfig = s.linkConfig ∧
    (appendEntry e s).linkState = s.linkState ∧ (appendEntry e s).cycle = s.cycle ∧
    (appendEntry e s).cyclePlace = s.cyclePlace ∧ (appendEntry e s).stations = s.stations ∧
    (appendEntry e s).unbindHold = s.unbindHold ∧ (appendEntry e s).mode = s.mode ∧
    (appendEntry e s).fireLevel = s.fireLevel ∧ (appendEntry e s).lockdownLevel = s.lockdownLevel ∧
    (appendEntry e s).override = s.override ∧ (appendEntry e s).health = s.health ∧
    (appendEntry e s).tamper = s.tamper ∧ (appendEntry e s).deferred = s.deferred ∧
    (appendEntry e s).checkPattern = s.checkPattern ∧ (appendEntry e s).portBusy = s.portBusy ∧
    (appendEntry e s).resultCode = s.resultCode ∧ (appendEntry e s).overrun = s.overrun ∧
    (appendEntry e s).lastCommand = s.lastCommand ∧ (appendEntry e s).window = s.window ∧
    (appendEntry e s).attention = s.attention ∧ (appendEntry e s).attentionMask = s.attentionMask ∧
    (appendEntry e s).resetCauses = s.resetCauses ∧ (appendEntry e s).work = s.work ∧
    (appendEntry e s).notices = s.notices ∧ (appendEntry e s).pending = s.pending := by
  refine ⟨rfl, rfl, rfl, rfl, rfl, rfl, rfl, rfl, rfl, rfl, rfl, rfl, rfl, rfl, rfl, rfl, rfl, rfl, rfl, rfl, rfl, rfl, rfl, rfl, rfl, rfl, rfl, rfl, rfl, rfl, rfl, rfl, rfl, rfl, rfl, rfl, rfl, rfl, rfl, rfl, rfl, rfl, rfl, rfl, rfl, rfl, rfl, rfl, rfl, rfl, rfl, rfl, rfl⟩

/-- The fields that `updateSeat` leaves unchanged. -/
@[simp] theorem updateSeat_frame (f : Decision → Decision) (s : State) :
    (updateSeat f s).supply = s.supply ∧ (updateSeat f s).resetLow = s.resetLow ∧
    (updateSeat f s).firePin = s.firePin ∧ (updateSeat f s).lockdownPin = s.lockdownPin ∧
    (updateSeat f s).tamperLine = s.tamperLine ∧ (updateSeat f s).markSent = s.markSent ∧
    (updateSeat f s).spiOut = s.spiOut ∧ (updateSeat f s).attentionTaken = s.attentionTaken ∧
    (updateSeat f s).clock = s.clock ∧ (updateSeat f s).trim = s.trim ∧
    (updateSeat f s).secondLength = s.secondLength ∧ (updateSeat f s).grants = s.grants ∧
    (updateSeat f s).retireHold = s.retireHold ∧ (updateSeat f s).sweep = s.sweep ∧
    (updateSeat f s).resweep = s.resweep ∧ (updateSeat f s).rooms = s.rooms ∧
    (updateSeat f s).markedTo = s.markedTo ∧ (updateSeat f s).cuts = s.cuts ∧
    (updateSeat f s).presence = s.presence ∧ (updateSeat f s).barHeader = s.barHeader ∧
    (updateSeat f s).barEntries = s.barEntries ∧ (updateSeat f s).requests = s.requests ∧
    (updateSeat f s).verdicts = s.verdicts ∧ (updateSeat f s).pairs = s.pairs ∧
    (updateSeat f s).pairWindow = s.pairWindow ∧ (updateSeat f s).referrals = s.referrals ∧
    (updateSeat f s).referenceCounter = s.referenceCounter ∧
    (updateSeat f s).referralTimeout = s.referralTimeout ∧ (updateSeat f s).linkConfig = s.linkConfig ∧
    (updateSeat f s).linkState = s.linkState ∧ (updateSeat f s).cycle = s.cycle ∧
    (updateSeat f s).cyclePlace = s.cyclePlace ∧ (updateSeat f s).stations = s.stations ∧
    (updateSeat f s).unbindHold = s.unbindHold ∧ (updateSeat f s).mode = s.mode ∧
    (updateSeat f s).fireLevel = s.fireLevel ∧ (updateSeat f s).lockdownLevel = s.lockdownLevel ∧
    (updateSeat f s).override = s.override ∧ (updateSeat f s).health = s.health ∧
    (updateSeat f s).tamper = s.tamper ∧ (updateSeat f s).deferred = s.deferred ∧
    (updateSeat f s).checkPattern = s.checkPattern ∧ (updateSeat f s).portBusy = s.portBusy ∧
    (updateSeat f s).resultCode = s.resultCode ∧ (updateSeat f s).overrun = s.overrun ∧
    (updateSeat f s).lastCommand = s.lastCommand ∧ (updateSeat f s).window = s.window ∧
    (updateSeat f s).attention = s.attention ∧ (updateSeat f s).attentionMask = s.attentionMask ∧
    (updateSeat f s).resetCauses = s.resetCauses ∧ (updateSeat f s).work = s.work ∧
    (updateSeat f s).notices = s.notices ∧ (updateSeat f s).pending = s.pending := by
  refine ⟨rfl, rfl, rfl, rfl, rfl, rfl, rfl, rfl, rfl, rfl, rfl, rfl, rfl, rfl, rfl, rfl, rfl, rfl, rfl, rfl, rfl, rfl, rfl, rfl, rfl, rfl, rfl, rfl, rfl, rfl, rfl, rfl, rfl, rfl, rfl, rfl, rfl, rfl, rfl, rfl, rfl, rfl, rfl, rfl, rfl, rfl, rfl, rfl, rfl, rfl, rfl, rfl, rfl⟩

/-- The fields that `dropReferral` leaves unchanged. -/
@[simp] theorem dropReferral_frame (n : Nat) (s : State) :
    (dropReferral n s).supply = s.supply ∧ (dropReferral n s).resetLow = s.resetLow ∧
    (dropReferral n s).firePin = s.firePin ∧ (dropReferral n s).lockdownPin = s.lockdownPin ∧
    (dropReferral n s).tamperLine = s.tamperLine ∧ (dropReferral n s).markSent = s.markSent ∧
    (dropReferral n s).spiOut = s.spiOut ∧ (dropReferral n s).attentionTaken = s.attentionTaken ∧
    (dropReferral n s).clock = s.clock ∧ (dropReferral n s).trim = s.trim ∧
    (dropReferral n s).secondLength = s.secondLength ∧ (dropReferral n s).grants = s.grants ∧
    (dropReferral n s).retireHold = s.retireHold ∧ (dropReferral n s).sweep = s.sweep ∧
    (dropReferral n s).resweep = s.resweep ∧ (dropReferral n s).rooms = s.rooms ∧
    (dropReferral n s).markedTo = s.markedTo ∧ (dropReferral n s).cuts = s.cuts ∧
    (dropReferral n s).presence = s.presence ∧ (dropReferral n s).barHeader = s.barHeader ∧
    (dropReferral n s).barEntries = s.barEntries ∧ (dropReferral n s).requests = s.requests ∧
    (dropReferral n s).seat = s.seat ∧ (dropReferral n s).verdicts = s.verdicts ∧
    (dropReferral n s).pairs = s.pairs ∧ (dropReferral n s).pairWindow = s.pairWindow ∧
    (dropReferral n s).referenceCounter = s.referenceCounter ∧
    (dropReferral n s).referralTimeout = s.referralTimeout ∧ (dropReferral n s).linkConfig = s.linkConfig ∧
    (dropReferral n s).linkState = s.linkState ∧ (dropReferral n s).cycle = s.cycle ∧
    (dropReferral n s).cyclePlace = s.cyclePlace ∧ (dropReferral n s).stations = s.stations ∧
    (dropReferral n s).unbindHold = s.unbindHold ∧ (dropReferral n s).mode = s.mode ∧
    (dropReferral n s).fireLevel = s.fireLevel ∧ (dropReferral n s).lockdownLevel = s.lockdownLevel ∧
    (dropReferral n s).override = s.override ∧ (dropReferral n s).health = s.health ∧
    (dropReferral n s).tamper = s.tamper ∧ (dropReferral n s).deferred = s.deferred ∧
    (dropReferral n s).checkPattern = s.checkPattern ∧ (dropReferral n s).portBusy = s.portBusy ∧
    (dropReferral n s).resultCode = s.resultCode ∧ (dropReferral n s).overrun = s.overrun ∧
    (dropReferral n s).lastCommand = s.lastCommand ∧ (dropReferral n s).window = s.window ∧
    (dropReferral n s).attention = s.attention ∧ (dropReferral n s).attentionMask = s.attentionMask ∧
    (dropReferral n s).resetCauses = s.resetCauses ∧ (dropReferral n s).work = s.work ∧
    (dropReferral n s).notices = s.notices ∧ (dropReferral n s).pending = s.pending := by
  refine ⟨rfl, rfl, rfl, rfl, rfl, rfl, rfl, rfl, rfl, rfl, rfl, rfl, rfl, rfl, rfl, rfl, rfl, rfl, rfl, rfl, rfl, rfl, rfl, rfl, rfl, rfl, rfl, rfl, rfl, rfl, rfl, rfl, rfl, rfl, rfl, rfl, rfl, rfl, rfl, rfl, rfl, rfl, rfl, rfl, rfl, rfl, rfl, rfl, rfl, rfl, rfl, rfl, rfl⟩

/-- The fields that `writeReferral` leaves unchanged. -/
@[simp] theorem writeReferral_frame (e : ReferralEntry) (s : State) :
    (writeReferral e s).supply = s.supply ∧ (writeReferral e s).resetLow = s.resetLow ∧
    (writeReferral e s).firePin = s.firePin ∧ (writeReferral e s).lockdownPin = s.lockdownPin ∧
    (writeReferral e s).tamperLine = s.tamperLine ∧ (writeReferral e s).markSent = s.markSent ∧
    (writeReferral e s).spiOut = s.spiOut ∧ (writeReferral e s).attentionTaken = s.attentionTaken ∧
    (writeReferral e s).clock = s.clock ∧ (writeReferral e s).trim = s.trim ∧
    (writeReferral e s).secondLength = s.secondLength ∧ (writeReferral e s).grants = s.grants ∧
    (writeReferral e s).retireHold = s.retireHold ∧ (writeReferral e s).sweep = s.sweep ∧
    (writeReferral e s).resweep = s.resweep ∧ (writeReferral e s).rooms = s.rooms ∧
    (writeReferral e s).markedTo = s.markedTo ∧ (writeReferral e s).cuts = s.cuts ∧
    (writeReferral e s).presence = s.presence ∧ (writeReferral e s).barHeader = s.barHeader ∧
    (writeReferral e s).barEntries = s.barEntries ∧ (writeReferral e s).requests = s.requests ∧
    (writeReferral e s).seat = s.seat ∧ (writeReferral e s).verdicts = s.verdicts ∧
    (writeReferral e s).pairs = s.pairs ∧ (writeReferral e s).pairWindow = s.pairWindow ∧
    (writeReferral e s).referenceCounter = s.referenceCounter ∧
    (writeReferral e s).referralTimeout = s.referralTimeout ∧ (writeReferral e s).linkConfig = s.linkConfig ∧
    (writeReferral e s).linkState = s.linkState ∧ (writeReferral e s).cycle = s.cycle ∧
    (writeReferral e s).cyclePlace = s.cyclePlace ∧ (writeReferral e s).stations = s.stations ∧
    (writeReferral e s).unbindHold = s.unbindHold ∧ (writeReferral e s).mode = s.mode ∧
    (writeReferral e s).fireLevel = s.fireLevel ∧ (writeReferral e s).lockdownLevel = s.lockdownLevel ∧
    (writeReferral e s).override = s.override ∧ (writeReferral e s).health = s.health ∧
    (writeReferral e s).tamper = s.tamper ∧ (writeReferral e s).deferred = s.deferred ∧
    (writeReferral e s).checkPattern = s.checkPattern ∧ (writeReferral e s).portBusy = s.portBusy ∧
    (writeReferral e s).resultCode = s.resultCode ∧ (writeReferral e s).overrun = s.overrun ∧
    (writeReferral e s).lastCommand = s.lastCommand ∧ (writeReferral e s).window = s.window ∧
    (writeReferral e s).attention = s.attention ∧ (writeReferral e s).attentionMask = s.attentionMask ∧
    (writeReferral e s).resetCauses = s.resetCauses ∧ (writeReferral e s).work = s.work ∧
    (writeReferral e s).notices = s.notices ∧ (writeReferral e s).pending = s.pending := by
  refine ⟨rfl, rfl, rfl, rfl, rfl, rfl, rfl, rfl, rfl, rfl, rfl, rfl, rfl, rfl, rfl, rfl, rfl, rfl, rfl, rfl, rfl, rfl, rfl, rfl, rfl, rfl, rfl, rfl, rfl, rfl, rfl, rfl, rfl, rfl, rfl, rfl, rfl, rfl, rfl, rfl, rfl, rfl, rfl, rfl, rfl, rfl, rfl, rfl, rfl, rfl, rfl, rfl, rfl⟩

/-- The fields that `writeTamper` leaves unchanged. -/
@[simp] theorem writeTamper_frame (t : Tamper) (s : State) :
    (writeTamper t s).supply = s.supply ∧ (writeTamper t s).resetLow = s.resetLow ∧
    (writeTamper t s).firePin = s.firePin ∧ (writeTamper t s).lockdownPin = s.lockdownPin ∧
    (writeTamper t s).tamperLine = s.tamperLine ∧ (writeTamper t s).markSent = s.markSent ∧
    (writeTamper t s).spiOut = s.spiOut ∧ (writeTamper t s).attentionTaken = s.attentionTaken ∧
    (writeTamper t s).clock = s.clock ∧ (writeTamper t s).trim = s.trim ∧
    (writeTamper t s).secondLength = s.secondLength ∧ (writeTamper t s).grants = s.grants ∧
    (writeTamper t s).retireHold = s.retireHold ∧ (writeTamper t s).sweep = s.sweep ∧
    (writeTamper t s).resweep = s.resweep ∧ (writeTamper t s).rooms = s.rooms ∧
    (writeTamper t s).markedTo = s.markedTo ∧ (writeTamper t s).cuts = s.cuts ∧
    (writeTamper t s).presence = s.presence ∧ (writeTamper t s).barHeader = s.barHeader ∧
    (writeTamper t s).barEntries = s.barEntries ∧ (writeTamper t s).requests = s.requests ∧
    (writeTamper t s).seat = s.seat ∧ (writeTamper t s).verdicts = s.verdicts ∧
    (writeTamper t s).pairs = s.pairs ∧ (writeTamper t s).pairWindow = s.pairWindow ∧
    (writeTamper t s).referrals = s.referrals ∧ (writeTamper t s).referenceCounter = s.referenceCounter ∧
    (writeTamper t s).referralTimeout = s.referralTimeout ∧ (writeTamper t s).linkConfig = s.linkConfig ∧
    (writeTamper t s).linkState = s.linkState ∧ (writeTamper t s).cycle = s.cycle ∧
    (writeTamper t s).cyclePlace = s.cyclePlace ∧ (writeTamper t s).stations = s.stations ∧
    (writeTamper t s).unbindHold = s.unbindHold ∧ (writeTamper t s).mode = s.mode ∧
    (writeTamper t s).fireLevel = s.fireLevel ∧ (writeTamper t s).lockdownLevel = s.lockdownLevel ∧
    (writeTamper t s).override = s.override ∧ (writeTamper t s).health = s.health ∧
    (writeTamper t s).deferred = s.deferred ∧ (writeTamper t s).checkPattern = s.checkPattern ∧
    (writeTamper t s).portBusy = s.portBusy ∧ (writeTamper t s).resultCode = s.resultCode ∧
    (writeTamper t s).overrun = s.overrun ∧ (writeTamper t s).lastCommand = s.lastCommand ∧
    (writeTamper t s).window = s.window ∧ (writeTamper t s).attention = s.attention ∧
    (writeTamper t s).attentionMask = s.attentionMask ∧ (writeTamper t s).resetCauses = s.resetCauses ∧
    (writeTamper t s).work = s.work ∧ (writeTamper t s).notices = s.notices ∧
    (writeTamper t s).pending = s.pending := by
  refine ⟨rfl, rfl, rfl, rfl, rfl, rfl, rfl, rfl, rfl, rfl, rfl, rfl, rfl, rfl, rfl, rfl, rfl, rfl, rfl, rfl, rfl, rfl, rfl, rfl, rfl, rfl, rfl, rfl, rfl, rfl, rfl, rfl, rfl, rfl, rfl, rfl, rfl, rfl, rfl, rfl, rfl, rfl, rfl, rfl, rfl, rfl, rfl, rfl, rfl, rfl, rfl, rfl, rfl⟩

/-- The fields that `State.markSiteCorrected` leaves unchanged. -/
@[simp] theorem markSiteCorrected_frame (s : State) :
    s.markSiteCorrected.supply = s.supply ∧ s.markSiteCorrected.resetLow = s.resetLow ∧
    s.markSiteCorrected.firePin = s.firePin ∧ s.markSiteCorrected.lockdownPin = s.lockdownPin ∧
    s.markSiteCorrected.tamperLine = s.tamperLine ∧ s.markSiteCorrected.markSent = s.markSent ∧
    s.markSiteCorrected.spiOut = s.spiOut ∧ s.markSiteCorrected.attentionTaken = s.attentionTaken ∧
    s.markSiteCorrected.clock = s.clock ∧ s.markSiteCorrected.trim = s.trim ∧
    s.markSiteCorrected.secondLength = s.secondLength ∧ s.markSiteCorrected.grants = s.grants ∧
    s.markSiteCorrected.retireHold = s.retireHold ∧ s.markSiteCorrected.sweep = s.sweep ∧
    s.markSiteCorrected.resweep = s.resweep ∧ s.markSiteCorrected.rooms = s.rooms ∧
    s.markSiteCorrected.markedTo = s.markedTo ∧ s.markSiteCorrected.cuts = s.cuts ∧
    s.markSiteCorrected.presence = s.presence ∧ s.markSiteCorrected.barHeader = s.barHeader ∧
    s.markSiteCorrected.barEntries = s.barEntries ∧ s.markSiteCorrected.requests = s.requests ∧
    s.markSiteCorrected.seat = s.seat ∧ s.markSiteCorrected.verdicts = s.verdicts ∧
    s.markSiteCorrected.pairs = s.pairs ∧ s.markSiteCorrected.pairWindow = s.pairWindow ∧
    s.markSiteCorrected.referrals = s.referrals ∧ s.markSiteCorrected.referenceCounter = s.referenceCounter ∧
    s.markSiteCorrected.referralTimeout = s.referralTimeout ∧ s.markSiteCorrected.linkConfig = s.linkConfig ∧
    s.markSiteCorrected.linkState = s.linkState ∧ s.markSiteCorrected.cycle = s.cycle ∧
    s.markSiteCorrected.cyclePlace = s.cyclePlace ∧ s.markSiteCorrected.stations = s.stations ∧
    s.markSiteCorrected.unbindHold = s.unbindHold ∧ s.markSiteCorrected.mode = s.mode ∧
    s.markSiteCorrected.fireLevel = s.fireLevel ∧ s.markSiteCorrected.lockdownLevel = s.lockdownLevel ∧
    s.markSiteCorrected.override = s.override ∧ s.markSiteCorrected.tamper = s.tamper ∧
    s.markSiteCorrected.deferred = s.deferred ∧ s.markSiteCorrected.checkPattern = s.checkPattern ∧
    s.markSiteCorrected.portBusy = s.portBusy ∧ s.markSiteCorrected.resultCode = s.resultCode ∧
    s.markSiteCorrected.overrun = s.overrun ∧ s.markSiteCorrected.lastCommand = s.lastCommand ∧
    s.markSiteCorrected.window = s.window ∧ s.markSiteCorrected.attention = s.attention ∧
    s.markSiteCorrected.attentionMask = s.attentionMask ∧ s.markSiteCorrected.resetCauses = s.resetCauses ∧
    s.markSiteCorrected.work = s.work ∧ s.markSiteCorrected.notices = s.notices ∧
    s.markSiteCorrected.pending = s.pending := by
  refine ⟨rfl, rfl, rfl, rfl, rfl, rfl, rfl, rfl, rfl, rfl, rfl, rfl, rfl, rfl, rfl, rfl, rfl, rfl, rfl, rfl, rfl, rfl, rfl, rfl, rfl, rfl, rfl, rfl, rfl, rfl, rfl, rfl, rfl, rfl, rfl, rfl, rfl, rfl, rfl, rfl, rfl, rfl, rfl, rfl, rfl, rfl, rfl, rfl, rfl, rfl, rfl, rfl, rfl⟩

/-- The fields that `raise` leaves unchanged. -/
@[simp] theorem raise_frame (c : Cause) (s : State) :
    (raise c s).supply = s.supply ∧ (raise c s).resetLow = s.resetLow ∧ (raise c s).firePin = s.firePin ∧
    (raise c s).lockdownPin = s.lockdownPin ∧ (raise c s).tamperLine = s.tamperLine ∧
    (raise c s).markSent = s.markSent ∧ (raise c s).spiOut = s.spiOut ∧
    (raise c s).attentionTaken = s.attentionTaken ∧ (raise c s).clock = s.clock ∧ (raise c s).trim = s.trim ∧
    (raise c s).secondLength = s.secondLength ∧ (raise c s).grants = s.grants ∧
    (raise c s).retireHold = s.retireHold ∧ (raise c s).sweep = s.sweep ∧ (raise c s).resweep = s.resweep ∧
    (raise c s).rooms = s.rooms ∧
    (raise c s).markedTo = s.markedTo ∧ (raise c s).cuts = s.cuts ∧ (raise c s).presence = s.presence ∧
    (raise c s).barHeader = s.barHeader ∧
    (raise c s).barEntries = s.barEntries ∧ (raise c s).requests = s.requests ∧ (raise c s).seat = s.seat ∧
    (raise c s).verdicts = s.verdicts ∧ (raise c s).pairs = s.pairs ∧ (raise c s).pairWindow = s.pairWindow ∧
    (raise c s).referrals = s.referrals ∧ (raise c s).referenceCounter = s.referenceCounter ∧
    (raise c s).referralTimeout = s.referralTimeout ∧ (raise c s).linkConfig = s.linkConfig ∧
    (raise c s).linkState = s.linkState ∧ (raise c s).cycle = s.cycle ∧ (raise c s).cyclePlace = s.cyclePlace ∧
    (raise c s).stations = s.stations ∧ (raise c s).unbindHold = s.unbindHold ∧ (raise c s).mode = s.mode ∧
    (raise c s).fireLevel = s.fireLevel ∧ (raise c s).lockdownLevel = s.lockdownLevel ∧
    (raise c s).override = s.override ∧ (raise c s).tamper = s.tamper ∧
    (raise c s).checkPattern = s.checkPattern ∧ (raise c s).portBusy = s.portBusy ∧
    (raise c s).resultCode = s.resultCode ∧ (raise c s).overrun = s.overrun ∧
    (raise c s).lastCommand = s.lastCommand ∧ (raise c s).window = s.window ∧
    (raise c s).attentionMask = s.attentionMask ∧ (raise c s).work = s.work ∧ (raise c s).notices = s.notices ∧
    (raise c s).pending = s.pending := by
  unfold raise
  refine ⟨?_, ?_, ?_, ?_, ?_, ?_, ?_, ?_, ?_, ?_, ?_, ?_, ?_, ?_, ?_, ?_, ?_, ?_, ?_, ?_, ?_, ?_, ?_, ?_, ?_, ?_, ?_, ?_, ?_, ?_, ?_, ?_, ?_, ?_, ?_, ?_, ?_, ?_, ?_, ?_, ?_, ?_, ?_, ?_, ?_, ?_, ?_, ?_, ?_, ?_⟩ <;>
    (split <;> [split <;> rfl; (split <;> [split <;> rfl; rfl])])

/-- A slot that has been written. -/
theorem slot_setSlot {s : State} (h : Table.wf Slot.cleared s.grants = true) (k j : Nat) (v : Slot) :
    (s.setSlot k v).slot j = if j = k then v else s.slot j := Table.get_set _ h k v j

/-- A room that has been written. -/
theorem room_setRoom {s : State} (h : Table.wf Room.cleared s.rooms = true) (k j : Nat) (v : Room) :
    (s.setRoom k v).room j = if j = k then v else s.room j := Table.get_set _ h k v j

/-- A presence record that has been written. -/
theorem record_setRecord {s : State} (h : Table.wf PresenceRecord.free s.presence = true) (k j : Nat)
    (v : PresenceRecord) : (s.setRecord k v).record j = if j = k then v else s.record j := Table.get_set _ h k v j

/-- A station record that has been written. -/
theorem station_setStation {s : State} (h : Table.wf Station.cleared s.stations = true) (k j : Nat) (v : Station) :
    (s.setStation k v).station j = if j = k then v else s.station j := Table.get_set _ h k v j

/-- A context slot that has been written. -/
theorem pair_setPair {s : State} (h : Table.wf none s.pairs = true) (k j : Nat) (v : Option PairContext) :
    (s.setPair k v).pair j = if j = k then v else s.pair j := Table.get_set _ h k v j

end Sys2Proof.Machine
end

