-- ==== Sys2Proof/Laws/Undamaged.lean ====
section
/-! SUPPORT. In undamaged storage every read answers the item's value and changes nothing. -/

namespace Sys2Proof.Machine

open Sys2Proof

/-- The parts of State.undamaged, by name. -/
structure Undamaged (s : State) : Prop where
  clock : s.clock.clean = true
  trim : s.trim.clean = true
  barHeader : s.barHeader.clean = true
  pairWindow : s.pairWindow.clean = true
  referralTimeout : s.referralTimeout.clean = true
  linkConfig : s.linkConfig.clean = true
  health : s.health.clean = true
  tamper : s.tamper.clean = true
  deferred : s.deferred.clean = true
  grants : s.grants.all (fun p => p.2.undamaged) = true
  rooms : s.rooms.all (fun p => p.2.undamaged) = true
  presence : s.presence.all (fun p => p.2.undamaged) = true
  barEntries : s.barEntries.all Stored.good = true
  stations : s.stations.all (fun p => p.2.undamaged) = true

theorem Undamaged.of {s : State} (h : s.undamaged = true) : Undamaged s := by
  simp only [State.undamaged, Bool.and_eq_true] at h
  obtain ⟨⟨⟨⟨⟨⟨⟨⟨⟨⟨⟨⟨⟨h1, h2⟩, h3⟩, h4⟩, h5⟩, h6⟩, h7⟩, h8⟩, h9⟩, h10⟩, h11⟩, h12⟩, h13⟩, h14⟩ := h
  exact ⟨h1, h2, h3, h4, h5, h6, h7, h8, h9, h10, h11, h12, h13, h14⟩

/-- Accepting a command touches no stored item. -/
@[simp] theorem accepted_undamaged (code : BitVec 8) (s : State) : (accepted code s).undamaged = s.undamaged := rfl

/-! ## Copies -/

section
variable {α : Type} [DecidableEq α]

theorem readVoted_clean {region : Region} {item : Voted α} {put : Voted α → State → State} {s : State}
    (h : item.clean = true) : readVoted region item put s = (item.value, s) := by
  simp [readVoted, h]

/-- An item written afresh reads as what was written. -/
@[simp] theorem Voted.value_of (v : α) : (Voted.of v).value = v := by simp [Voted.value]

/-- An item written afresh reads clean. -/
@[simp] theorem Voted.clean_of (v : α) : (Voted.of v).clean = true := by simp [Voted.clean]

end

/-! ## Single items -/

theorem readClockItem_undamaged {s : State} (h : s.undamaged = true) : readClockItem s = (s.clock.value, s) :=
  readVoted_clean (Undamaged.of h).clock

theorem presentMinute_undamaged {s : State} (h : s.undamaged = true) :
    presentMinute s = (s.clock.value.calendar.minute, s) := by
  simp [presentMinute, readClockItem_undamaged h]

theorem readTrim_undamaged {s : State} (h : s.undamaged = true) : readTrim s = (s.trim.value, s) :=
  readVoted_clean (Undamaged.of h).trim

theorem readWindowSeconds_undamaged {s : State} (h : s.undamaged = true) :
    readWindowSeconds s = (s.pairWindow.value, s) := readVoted_clean (Undamaged.of h).pairWindow

theorem readTimeoutSeconds_undamaged {s : State} (h : s.undamaged = true) :
    readTimeoutSeconds s = (s.referralTimeout.value, s) := readVoted_clean (Undamaged.of h).referralTimeout

theorem readConfig_undamaged {s : State} (h : s.undamaged = true) : readConfig s = (s.linkConfig.value, s) :=
  readVoted_clean (Undamaged.of h).linkConfig

theorem readTamper_undamaged {s : State} (h : s.undamaged = true) : readTamper s = (s.tamper.value, s) :=
  readVoted_clean (Undamaged.of h).tamper

theorem readDeferred_undamaged {s : State} (h : s.undamaged = true) : readDeferred s = (s.deferred.value, s) :=
  readVoted_clean (Undamaged.of h).deferred

theorem readBarHeader_undamaged {s : State} (h : s.undamaged = true) : readBarHeader s = (s.barHeader.value, s) :=
  readVoted_clean (Undamaged.of h).barHeader

theorem readHealth_undamaged {s : State} (h : s.undamaged = true) : readHealth s = (s.health.value, s) := by
  simp [readHealth, (Undamaged.of h).health]

/-! ## Grant slots -/

theorem slot_undamaged {s : State} (h : s.undamaged = true) (k : Nat) : (s.slot k).undamaged = true :=
  Table.get_of_all _ Slot.undamaged (by decide) (Undamaged.of h).grants k

theorem readSlotHeader_undamaged {s : State} (h : s.undamaged = true) (k : Nat) :
    readSlotHeader k s = ((s.slot k).header.value, s) := by
  have := slot_undamaged h k
  simp only [Slot.undamaged, Bool.and_eq_true] at this
  exact readVoted_clean this.1

theorem readSlotBody_undamaged {s : State} (h : s.undamaged = true) (k : Nat) :
    readSlotBody k s = (some (s.slot k).body.value, s) := by
  have := slot_undamaged h k
  simp only [Slot.undamaged, Stored.good, Bool.and_eq_true, decide_eq_true_eq] at this
  simp [readSlotBody, this.2]

theorem checkHandle_undamaged {s : State} (h : s.undamaged = true) (g : Handle) :
    checkHandle g s =
      (if 1 ≤ g.slot ∧ g.slot ≤ Config.slots then
        (if (s.slot g.slot).header.value.state = .free then .error .staleHandle
          else if (s.slot g.slot).header.value.issue ≠ g.issue then .error .staleHandle
          else .ok (s.slot g.slot).header.value)
        else .error .badArgument, s) := by
  simp only [checkHandle, readSlotHeader_undamaged h]
  split_ifs <;> rfl

/-- The lowest-numbered FREE slot of a range, as a function of the headers alone. -/
theorem findFreeSlot_undamaged {s : State} (h : s.undamaged = true) (count k : Nat) :
    findFreeSlot count k s =
      ((numbersFrom k count).find? (fun j => decide ((s.slot j).header.value.state = .free)), s) := by
  induction count generalizing k with
  | zero => rfl
  | succ n ih =>
    have hsplit : numbersFrom k (n + 1) = k :: numbersFrom (k + 1) n := by
      simp only [numbersFrom, List.range_succ_eq_map, List.map_cons, List.map_map, Nat.add_zero]
      congr 1
      apply List.map_congr_left
      intro a _
      simp only [Function.comp_apply]
      omega
    simp only [findFreeSlot, readSlotHeader_undamaged h, hsplit, List.find?_cons]
    by_cases hf : (s.slot k).header.value.state = .free
    · simp [hf]
    · simp [hf, ih]

/-! ## Rooms -/

theorem room_undamaged {s : State} (h : s.undamaged = true) (r : Nat) : (s.room r).undamaged = true :=
  Table.get_of_all _ Room.undamaged (by decide) (Undamaged.of h).rooms r

theorem readRoomHeader_undamaged {s : State} (h : s.undamaged = true) (r : Nat) :
    readRoomHeader r s = ((s.room r).header.value, s) := by
  have := room_undamaged h r
  simp only [Room.undamaged, Bool.and_eq_true] at this
  exact readVoted_clean this.1

theorem readRoomRecord_undamaged {s : State} (h : s.undamaged = true) (r : Nat) :
    readRoomRecord r s = ((s.room r).view, s) := by
  have := room_undamaged h r
  simp only [Room.undamaged, Stored.good, Bool.and_eq_true, decide_eq_true_eq] at this
  unfold readRoomRecord
  simp only [readRoomHeader_undamaged h, Room.view]
  split <;> rename_i hs <;> simp [hs, this.2]

/-! ## Presence records -/

theorem record_undamaged {s : State} (h : s.undamaged = true) (id : Nat) : (s.record id).undamaged = true :=
  Table.get_of_all _ PresenceRecord.undamaged (by decide) (Undamaged.of h).presence id

theorem readIndex_undamaged {s : State} (h : s.undamaged = true) (id : Nat) :
    readIndex id s = ((s.record id).index.value, s) := by
  have := record_undamaged h id
  simp only [PresenceRecord.undamaged, Bool.and_eq_true] at this
  exact readVoted_clean this.1

theorem scanIndexes_undamaged {s : State} (h : s.undamaged = true) : scanIndexes s = s := by
  unfold scanIndexes
  induction Table.keys s.presence with
  | nil => rfl
  | cons id ids ih => simpa [readIndex_undamaged h] using ih

/-- A presence body reads unless its faulted flag is set. -/
theorem readPresenceBody_undamaged {s : State} (h : s.undamaged = true) (id : Nat) :
    readPresenceBody id s = (if (s.index id).faulted then none else some (s.record id).body.value, s) := by
  have := record_undamaged h id
  simp only [PresenceRecord.undamaged, Stored.good, Bool.and_eq_true, decide_eq_true_eq] at this
  simp only [readPresenceBody, readIndex_undamaged h, State.index, this.2]
  by_cases hf : (s.record id).index.value.faulted = true <;> simp [hf]

theorem locateFrom_undamaged {s : State} (h : s.undamaged = true) (c : Credential) (ids : List Nat) :
    locateFrom c ids s = (s.locateIn c ids, s) := by
  induction ids with
  | nil => rfl
  | cons id ids ih =>
    simp only [locateFrom, readPresenceBody_undamaged h, ih, State.locateIn, List.find?_cons]
    by_cases hf : (s.index id).faulted = true
    · simp [hf]
    · by_cases hc : (s.record id).body.value.credential = c <;> simp [hf, hc]

theorem locate_undamaged {s : State} (h : s.undamaged = true) (c : Credential) :
    locate c s = (s.locateIn c s.inUseRecords, s) := by
  simp [locate, scanIndexes_undamaged h, locateFrom_undamaged h]

/-! ## Bar List entries -/

theorem readBarEntry_undamaged {s : State} (h : s.undamaged = true) (position : Nat) :
    readBarEntry position s = ((s.barEntries[position - 1]?).map Stored.value, s) := by
  have hall := (Undamaged.of h).barEntries
  unfold readBarEntry
  split
  · rename_i hn
    simp [hn]
  · rename_i e he
    have hg := List.all_eq_true.mp hall e (List.mem_of_getElem? he)
    simp only [Stored.good, decide_eq_true_eq] at hg
    simp [he, hg]

/-! ## Station records -/

theorem station_undamaged {s : State} (h : s.undamaged = true) (k : Nat) : (s.station k).undamaged = true :=
  Table.get_of_all _ Station.undamaged (by decide) (Undamaged.of h).stations k

theorem readStationHeader_undamaged {s : State} (h : s.undamaged = true) (k : Nat) :
    readStationHeader k s = ((s.station k).header.value, s) := by
  have := station_undamaged h k
  simp only [Station.undamaged, Bool.and_eq_true] at this
  exact readVoted_clean this.1

theorem readStationBody_undamaged {s : State} (h : s.undamaged = true) (k : Nat) :
    readStationBody k s = ((s.station k).readable, s) := by
  have := station_undamaged h k
  simp only [Station.undamaged, Stored.good, Bool.and_eq_true, decide_eq_true_eq] at this
  simp only [readStationBody, readStationHeader_undamaged h, this.2, Station.readable]
  by_cases hf : (s.station k).header.value = true <;> simp [hf]

theorem boundStationsFrom_undamaged {s : State} (h : s.undamaged = true) (r : Nat) (ks : List Nat) :
    boundStationsFrom r ks s = (s.boundAmong r ks, s) := by
  induction ks with
  | nil => rfl
  | cons k ks ih =>
    simp only [boundStationsFrom, readStationBody_undamaged h, ih, State.boundAmong, List.filter_cons]
    cases hb : (s.station k).readable with
    | none => simp
    | some b =>
      by_cases hr : b.binding = some r <;> simp [hr]

theorem boundStations_undamaged {s : State} (h : s.undamaged = true) (r : Nat) :
    boundStations r s = (s.boundAmong r (numbersFrom 1 Config.stations), s) := boundStationsFrom_undamaged h r _

end Sys2Proof.Machine
end

