-- ==== Sys2Proof/Tests/Slice0.lean ====
section
/-! SUPPORT. Own tests on small states: ill-formed operands refused by the check; for each obligation a concrete state and operands that meet its hypotheses, clause by clause; one step of a few commands. -/

namespace Sys2Proof.Tests

open Sys2Proof Sys2Proof.Machine

-- one theorem at a time: each thread of its own would take its whole stack from the memory limit
set_option Elab.async false

/-! ## The check of operands refuses an ill-formed term -/

theorem test_badCommand_known_code : (Instr.badCommand 0x10).wellFormed = false := by decide
theorem test_registerWrite_mask_address : (Instr.registerWrite 0x04 0).wellFormed = false := by decide
theorem test_modeNotice_block : (Instr.modeNotice .presencePool).wellFormed = false := by decide
theorem test_tamperNotice_block : (Instr.tamperNotice .requestQueue).wellFormed = false := by decide
theorem test_revokeNotice_block : (Instr.revokeNotice .requestQueue).wellFormed = false := by decide
theorem test_barNotice_block : (Instr.barNotice .requestQueue).wellFormed = false := by decide
theorem test_lossNotice_block : (Instr.lossNotice .presencePool).wellFormed = false := by decide
theorem test_stopNotice_block : (Instr.stopNotice .presencePool).wellFormed = false := by decide
theorem test_faultNotice_block : (Instr.faultNotice .decisionEngine).wellFormed = false := by decide
theorem test_pairExpiry_slot : (Instr.pairExpiry 9).wellFormed = false ∧ (Instr.pairExpiry 0).wellFormed = false := by decide
theorem test_referralTimeout_reference :
    (Instr.referralTimeout 0).wellFormed = false ∧ (Instr.referralTimeout 65536).wellFormed = false := by decide
theorem test_request_station : (Instr.request 32 0 .outside 1).wellFormed = false := by decide
theorem test_report_station : (Instr.report 0 .shut).wellFormed = false := by decide
theorem test_idle_station : (Instr.idle 32).wellFormed = false := by decide

/-! ## What a transfer asks for -/

theorem test_transfer_writes_command : commandOfTransfer [0x82, 0, 0, 0, 0x10] = some .addGrant := by decide
theorem test_transfer_writes_argument :
    commandOfTransfer [0x88, 0x12, 0x34, 0x56, 0x78] = some (.registerWrite 0x08 0x12345678) := by decide
theorem test_transfer_cut_short : commandOfTransfer [0x82, 0, 0, 0] = none := by decide

/-! ## Small states -/

/-- 1 January 2026, 10:00, a Thursday. -/
def now : Minute := ⟨2026, 1, 1, 10, 0⟩

/-- The clock SET. -/
def timed (s : State) : State := { s with clock := .of ⟨⟨now, 0⟩, true⟩ }

def args (w : Window) (s : State) : State := { s with window := w }

/-- A usable grant of credential 5 that covers every room, with 2 of 3 uses left. -/
def grant : GrantRecord :=
  ⟨5, .contractor, 7, 0, 0, ⟨2025, 1, 1, 0, 0⟩, ⟨2027, 1, 1, 0, 0⟩, none, .absent, some ⟨3, 2⟩, none⟩

/-- That grant in slot 1, issue number 1. -/
def granted (st : GrantState) (s : State) : State := s.setSlot 1 ⟨.of ⟨st, 1⟩, .of grant⟩

/-- The handle of slot 1, issue number 1, with other argument words. -/
def handle1 (w : Window) : Window := { w with arg0 := 0x00010001 }

/-- Room 3, of a class, with its escorts. -/
def roomed (cls : RoomClass) (st : RoomState) (s : State) : State :=
  s.setRoom 3 ⟨.of st, .of ⟨9, cls, 2, 0, false⟩⟩

/-- A record of credential 5 in room 3. -/
def inside (sent : Bool) (s : State) : State :=
  s.setRecord 1 ⟨.of ⟨true, 3, 1, .contractor, sent, true, false⟩, .of ⟨5, some ⟨1, 1⟩, now, 4, none, .none⟩⟩

/-- Station 4 bound to room 3, in a link state. -/
def bound (st : StationState) (s : State) : State :=
  s.setStation 4 { Station.cleared with body := .of ⟨some 3, 1⟩, state := st }

/-- An open context of credential 5 at station 4. -/
def context (held : Bool) (seconds : Nat) : PairContext := ⟨held, 4, 3, 5, ⟨1, 1⟩, .contractor, 2, seconds, none⟩

def approval (st : ApprovalState) (seconds : Nat) (c : Option ClosureCause) : ReferralEntry :=
  ⟨7, 4, 5, 3, 2, now, .approval ⟨1, 1⟩ st seconds c⟩

def hotCard : ReferralEntry := ⟨8, 4, 6, 3, 2, now, .hotCard false⟩

/-- A permit of credential 5 for station 4 on slot 1 and record 1. -/
def permit : VerdictEntry := ⟨4, 2, .permit, none, false, some ⟨[⟨⟨1, 1⟩, true⟩], [5], [1]⟩⟩

/-- A running link with the turn of station 4 open. -/
def turn (left : Nat) (heard : Bool) (s : State) : State :=
  { s with linkState := .running, cyclePlace := .turnOpen 4 left heard }

/-! ## The queue, the port and the latches -/

theorem test_completion_writes_a_window :
    (match execCommandCompletion { State.reset with portBusy := true, work := some (.unbar 1) } with
      | .next t => decide (t = { State.reset with window := { arg0 := 1 }, attention := 1 })
      | .fault _ | .refused _ => false) = true := by decide +kernel

/-- A cause raised again between the address byte and the fourth data byte stays latched. -/
theorem test_attention_read_keeps_a_cause_raised_again :
    (match execAttentionRead .addressByte { State.reset with attention := 3 } with
      | .next t => (match execAttentionRead .fourthByte (raise .presenceAlert t) with
        | .next u => decide (t.spiOut = 3) && decide (u.latches = 2)
        | .fault _ | .refused _ => false)
      | .fault _ | .refused _ => false) = true := by decide +kernel

/-! ## The Grant Table -/

/-- Arguments of ADD GRANT: credential 5, all of 2025 and 2026, 3 uses. -/
def addArgs : Window :=
  { arg0 := 5, arg3 := minuteWord ⟨2025, 1, 1, 0, 0⟩, arg4 := minuteWord ⟨2027, 1, 1, 0, 0⟩, arg6 := 0x80000300 }

theorem test_addGrant_effect :
    execAddGrant (timed (args addArgs State.reset)) =
      .next { answered 0x10 (.okWith { arg7 := 0x02010001 }) (timed (args addArgs State.reset)) with
        grants := [(1, ⟨.of ⟨.active, 1⟩, .of { grant with company := 0, uses := some ⟨3, 3⟩ }⟩)] } := by rfl

/-- Every slot in use. -/
def fullTable (s : State) : State :=
  { s with grants := (numbersFrom 1 1024).map (fun k => (k, ⟨.of ⟨.active, 1⟩, .of grant⟩)) }

theorem get_of_map {α : Type} (d v : α) (l : List Nat) (k : Nat) (h : k ∈ l) :
    Table.get d (l.map (fun j => (j, v))) k = v := by
  induction l with
  | nil => cases h
  | cons a l ih =>
    simp only [List.map_cons, Table.get]
    split
    · rfl
    · rename_i hne
      exact ih ((List.mem_cons.mp h).resolve_left (fun e => hne e.symm))

theorem test_addGrant_tableFull :
    (fullTable (timed (args addArgs State.reset))).accepts = true ∧
    (fullTable (timed (args addArgs State.reset))).undamaged = true ∧
    ∀ k, 1 ≤ k → k ≤ 1024 → ((fullTable (timed (args addArgs State.reset))).slot k).header.value.state ≠ .free := by
  refine ⟨by decide, ?_, ?_⟩
  · have : (fullTable (timed (args addArgs State.reset))).grants.all (fun p => p.2.undamaged) = true := by
      simp only [fullTable, List.all_map, List.all_eq_true]
      intro k _
      simp only [Function.comp_apply]
      decide
    have hrest : (timed (args addArgs State.reset)).undamaged = true := by decide
    simp only [State.undamaged, Bool.and_eq_true] at hrest ⊢
    obtain ⟨⟨⟨⟨⟨a, _⟩, b⟩, c⟩, d⟩, e⟩ := hrest
    exact ⟨⟨⟨⟨⟨a, this⟩, b⟩, c⟩, d⟩, e⟩
  · intro k h1 h2
    have hm : k ∈ numbersFrom 1 1024 := by
      simp only [numbersFrom, List.mem_map, List.mem_range]
      exact ⟨k - 1, by omega, by omega⟩
    have : (fullTable (timed (args addArgs State.reset))).slot k = ⟨.of ⟨.active, 1⟩, .of grant⟩ := by
      simp only [State.slot, fullTable]
      exact get_of_map _ _ _ k hm
    rw [this]
    decide

theorem test_retire_holder :
    holderOf ⟨1, 1⟩ { granted .active (args (handle1 {}) State.reset) with verdicts := [permit] } ∧
    ¬ holderOf ⟨1, 1⟩ (granted .active (args (handle1 {}) State.reset)) := by
  refine ⟨Or.inl ⟨permit, by decide, _, rfl, ⟨⟨1, 1⟩, true⟩, by decide, rfl⟩, ?_⟩
  rintro (⟨_, h, _⟩ | ⟨_, h, _⟩ | ⟨_, _, _, _, h, _⟩ | ⟨_, h, _⟩ | ⟨_, h, _⟩) <;> cases h

theorem test_daily_hours :
    (⟨8, 540, 600⟩ : DailyHours).openMinute < (⟨8, 540, 600⟩ : DailyHours).closeMinute ∧
    (⟨8, 540, 600⟩ : DailyHours).openAt now = false ∧ (⟨8, 540, 601⟩ : DailyHours).openAt now = true ∧
    (⟨4, 1380, 601⟩ : DailyHours).openAt now = true ∧ now.weekday = 3 := by decide

/-- A grant that was read SUSPENDED, and one read REVOKED. -/
def passedGrants : List (GrantState × GrantRecord) := [(.suspended, grant), (.revoked, grant)]

/-- An entry's decision at its search, with the notes of the grants passed. -/
def searcher (cursor : Nat) : Decision :=
  { Decision.ofRequest ⟨4, 2, .outside, 5⟩ now with
    phase := .search, room := 3, key := 9, own := ⟨cursor, notesOver 5 9 now passedGrants, none⟩ }

def searching (cursor : Nat) (st : GrantState) : State :=
  { granted st (timed State.reset) with seat := some (searcher cursor) }

theorem test_search_denies_with_the_first_line :
    (notesOver 5 9 now passedGrants).reason = .suspended ∧
    (notesOver 5 9 now [(.revoked, grant), (.spent, grant)]).reason = .usesSpent ∧
    (notesOver 5 9 now []).reason = .noGrant := by decide +kernel

/-! ## The clock and the sweep -/

theorem test_setClock_effect :
    execSetClock (args { arg0 := minuteWord now, arg1 := 59 } State.reset) =
      .next { answered 0x20 (.bare .ok) (args { arg0 := minuteWord now, arg1 := 59 } State.reset) with
        clock := .of ⟨⟨now, 59⟩, true⟩, sweep := some ⟨1, now⟩ } := by rfl

/-- A sweep at slot 1 with a sweep minute. -/
def sweeping (m : Minute) (s : State) : State := { s with sweep := some ⟨1, m⟩ }

theorem test_sweep_lapses :
    execSweepVisit (sweeping ⟨2027, 1, 1, 0, 0⟩ (granted .active State.reset)) =
      .next { granted .lapsed State.reset with
        sweep := some ⟨2, ⟨2027, 1, 1, 0, 0⟩⟩, notices := [⟨.presencePool, .overstay ⟨1, 1⟩, false⟩] } := by rfl

/-- The tick that brings an approval to 0 ends it. -/
theorem test_tick_times_out :
    (match execSecondBoundary { State.reset with referrals := [hotCard, approval .taken 1 none] } with
      | .next t => decide (t.referrals = [hotCard]) && decide (t.verdicts = [⟨4, 2, .deny, some .referralTimeout, false, none⟩])
      | .fault _ | .refused _ => false) = true := by decide +kernel

/-! ## Rooms and presence -/

/-- Arguments that name room 3. -/
def room3 : Window := { arg0 := 3 }

/-- Arguments of DEFINE ROOM: room 3, key 9, a class and a limit. -/
def defineArgs (cls limit : Word) : Window := { arg0 := 3, arg1 := 9, arg2 := cls, arg3 := limit }

/-- Every presence record in use, in room 2, by credentials of their own; room 3 open. -/
def fullPool : State :=
  { roomed .opened .inService State.reset with presence := (numbersFrom 1 512).map (fun k =>
      (k, ⟨.of ⟨true, 2, k, .contractor, true, false, false⟩, .of { PresenceBody.empty with credential := BitVec.ofNat 40 (k + 600) }⟩)) }

/-- An ESCORTED room with its one escort, credential 5, and a contractor, credential 6. -/
def escortIn (unescorted : Bool) (w : Window) : State :=
  (((args w State.reset).setRoom 3 ⟨.of .inService, .of ⟨9, .escorted, 4, 1, false⟩⟩).setRecord 1
    ⟨.of ⟨true, 3, 1, .escort, true, false, false⟩, .of ⟨5, none, now, 4, none, .none⟩⟩).setRecord 2
    ⟨.of ⟨true, 3, 2, .contractor, true, false, false⟩,
      .of ⟨6, none, now, 4, none, { Conditions.none with unescorted := unescorted }⟩⟩

/-- The last escort leaves. -/
theorem test_lastEscort_leaves :
    (match execRemovePresence (escortIn false { arg0 := 3, arg1 := 5 }) with
      | .next t => decide (t.attention = 2) && decide ((t.record 2).body.value.conditions.unescorted = true) &&
          decide ((t.index 2).place = 1) && decide ((t.room 3).body.value.escorts = 0)
      | .fault _ | .refused _ => false) = true := by decide +kernel

/-- Room 3 ESCORTED with so many escorts inside. -/
def escortRoom (n : Nat) : State := State.reset.setRoom 3 ⟨.of .inService, .of ⟨9, .escorted, 4, n, false⟩⟩

/-! ## The Pair Table and the Referral Queue -/

/-- A context in slot 1. -/
def paired (held : Bool) (seconds : Nat) (s : State) : State := s.setPair 1 (some (context held seconds))

theorem test_pairExpiry_effect :
    execPairExpiry 1 (paired false 0 State.reset) =
      .next (converted 4 2 .pairTimeout State.reset) := by rfl

/-! ## The Bar List -/

/-- Credentials 2 and 4 on the list. -/
def barred24 (s : State) : State :=
  { s with barHeader := .of ⟨2, false, []⟩, barEntries := [.of 2, .of 4] }

/-- Credentials 1 to 256 on the list. -/
def barFull (s : State) : State :=
  { s with barHeader := .of ⟨256, false, []⟩
           barEntries := (List.range 256).map (fun i => Stored.of (BitVec.ofNat 40 (i + 1))) }

theorem test_bar_full : (barFull State.reset).barSorted ∧ ¬ (barFull State.reset).onBarList 1000 ∧
    256 ≤ (barFull State.reset).barEntries.length := by
  refine ⟨⟨?_, ?_⟩, ?_, ?_⟩
  · simp only [barFull, List.pairwise_map]
    refine List.Pairwise.imp_of_mem ?_ List.pairwise_lt_range
    intro a b ha hb hab
    simp only [List.mem_range] at ha hb
    simp only [BitVec.toNat_ofNat]
    rw [Nat.mod_eq_of_lt (by omega), Nat.mod_eq_of_lt (by omega)]
    omega
  · simp [barFull, Voted.value]
  · rintro ⟨e, h, he⟩
    simp only [barFull, List.mem_map, List.mem_range] at h
    obtain ⟨i, hi, rfl⟩ := h
    have := congrArg BitVec.toNat he
    simp only [BitVec.toNat_ofNat] at this
    rw [Nat.mod_eq_of_lt (by omega)] at this
    simp at this
    omega
  · simp [barFull]

theorem test_barCredential_effect :
    execBarCredential (args { arg0 := 3 } (barred24 State.reset)) =
      .next { accepted 0x48 (args { arg0 := 3 } (barred24 State.reset)) with
        barHeader := .of ⟨3, false, []⟩, barEntries := [.of 2, .of 3, .of 4],
        notices := [⟨.decisionEngine, .bar 3, true⟩, ⟨.pairTable, .bar 3, true⟩, ⟨.referralQueue, .bar 3, true⟩],
        work := some (.bar ⟨0, 0, 0⟩) } := by rfl

/-! ## The Station Link -/

theorem test_bind_cases :
    (State.reset.station 4).header.value = false ∧ (State.reset.station 4).body.value.binding = none ∧
    ((bound .active State.reset).station 4).body.value.binding ≠ none ∧
    (({ State.reset with stations := [(4, { Station.cleared with header := .of true, state := .faulted })] } : State).station
      4).header.value = true ∧
    ((roomed .opened .inService State.reset).boundAmong 3 (numbersFrom 1 31)).length < 2 ∧
    2 ≤ (({ bound .active State.reset with
        stations := [(4, { Station.cleared with body := .of ⟨some 3, 0⟩ }),
          (5, { Station.cleared with body := .of ⟨some 3, 0⟩ })] } : State).boundAmong 3 (numbersFrom 1 31)).length := by
  decide

theorem test_mark_effect :
    execMark false { State.reset with linkState := .running, verdicts := [⟨4, 2, .deny, some .fire, true, none⟩] } =
      .next { State.reset with
        linkState := .running, cycle := 1, cyclePlace := .turnDue 1,
        markSent := some ⟨0, .normal, [⟨4, 2, .deny, some .fire, true, none⟩]⟩ } := by rfl

theorem test_mark_bytes :
    coveredBytes 0x01 0x00 (⟨0, .normal, []⟩ : Mark).payload = [0x01, 0x00, 0x03, 0x00, 0x00, 0x00] ∧
    entryBytes ⟨4, 2, .deny, some .fire, false, none⟩ = [0x25, 0x20, 0x14] := by decide

theorem test_crc_check_value : crc16 [0x31, 0x32, 0x33, 0x34, 0x35, 0x36, 0x37, 0x38, 0x39] = 0x29B1 := by
  decide +kernel

theorem test_missed_limit :
    ({ bound .active State.reset with linkConfig := .of ⟨8, 48, 4, 16, false⟩ } : State).linkConfig.value.missedLimit ≤
      3 + 1 := by decide

/-- A station released from jabber with its count at the limit becomes LOST again, and the count stays there. -/
theorem test_missed_count_stays_at_the_limit :
    (match execTurnTimerExpiry (turn 1 false
        ((bound .silent { State.reset with linkConfig := .of ⟨8, 48, 4, 16, false⟩ }).setStation 4
          { Station.cleared with body := .of ⟨some 3, 1⟩, missed := 4 })) with
      | .next t => decide ((t.station 4).missed = 4) && decide ((t.station 4).state = .lost)
      | .fault _ | .refused _ => false) = true := by decide +kernel

/-- Station 4 with an answer record for sequence 2. -/
def answeredAt (sent : Bool) (s : State) : State :=
  s.setStation 4 { Station.cleared with answer := some ⟨2, .deny, some .fire, sent, false⟩, state := .active }

theorem test_intake_cases :
    ((answeredAt false State.reset).station 4).answer = some ⟨2, .deny, some .fire, false, false⟩ ∧
    ((answeredAt true State.reset).station 4).answer = some ⟨2, .deny, some .fire, true, false⟩ ∧
    ((answeredAt true State.reset).station 4).inFlight.getLsbD (2 : Sequence).toNat = false ∧
    ({ Station.cleared with inFlight := 4 } : Station).inFlight.getLsbD (2 : Sequence).toNat = true ∧
    State.reset.unbindHold ≠ some 4 ∧ ({ State.reset with unbindHold := some 4 } : State).unbindHold = some 4 ∧
    0 < State.reset.freePlaces ∧
    ({ State.reset with verdicts := List.replicate 48 permit } : State).freePlaces = 0 ∧
    (List.replicate 15 (⟨4, 1, .outside, 5⟩ : Request)).length < 16 ∧
    16 ≤ (List.replicate 16 (⟨4, 1, .outside, 5⟩ : Request)).length := by decide

theorem test_frames_of_others :
    readFrame ⟨true, [], true⟩ = none ∧ readFrame ⟨true, [4, 5, 0] ++ crcBytes [4, 5, 0], true⟩ = some (5, .idle) ∧
    readFrame ⟨true, [4, 5, 0, 0, 0], true⟩ = none ∧ (5 : Nat) ≠ 4 ∧ 1 < (2 : Nat) := by decide +kernel

/-- The half-bits of bit times in eights, sixteen levels written as one number, the first one its highest bit. -/
def levels (ws : List (BitVec 16)) : HalfBits := ws.flatMap (fun w => (List.range 16).map (fun i => w.getLsbD (15 - i)))

/-- IDLE of station 4, coded by hand from R183: preamble, start delimiter, 0x04, 0x04, 0x00, CRC 0xDC98, end delimiter. -/
def idleLine : HalfBits := levels [0x9999, 0x9999, 0x99B2, 0x5565, 0x5565, 0x5555, 0xA6A5, 0x9695, 0x999C]

/-- REQUEST of station 4 from OUTSIDE with sequence 2, credential 5 and ones in the ignored bits, CRC 0xEE24. -/
def requestLine : HalfBits :=
  levels [0x9999, 0x9999, 0x99B2, 0x5559, 0x5565, 0x5569, 0x6A59, 0x5555, 0x5555, 0x5555, 0x5555, 0x5566, 0xA9A9, 0x5965, 0x999C]

theorem test_lines_are_read :
    (receiveLine idleLine).bind readFrame = some (4, .idle) ∧
    (receiveLine requestLine).bind readFrame = some (4, .request 2 .outside 5) ∧
    FrameContent.sentBy 4 0 .idle = idleLine ∧ FrameContent.sentBy 4 3 (.request 2 .outside 5) = requestLine := by decide +kernel

/-- A broken preamble, a byte with a code violation, no end delimiter, and a carrier that ends within a byte: received, and
discarded. -/
theorem test_broken_lines_are_discarded :
    ∀ line ∈ [levels [0x9999, 0x9995, 0x99B2, 0x5565, 0x5565, 0x5555, 0xA6A5, 0x9695, 0x999C],
        levels [0x9999, 0x9999, 0x99B2, 0x5565, 0x5575, 0x5555, 0xA6A5, 0x9695, 0x999C],
        levels [0x9999, 0x9999, 0x99B2, 0x5565, 0x5565, 0x5555, 0xA6A5, 0x9695], idleLine.take 140],
      (receiveLine line).isSome = true ∧ (receiveLine line).bind readFrame = none := by
  decide +kernel

/-- Without the violation in its start delimiter a carrier ends the turn and the cycle; a frame of another station uses up a frame. -/
theorem test_carrier_in_a_turn :
    ((receiveCarrier (levels [0x9999, 0x9999, 0x9999, 0x5565, 0x5565, 0x5555, 0xA6A5, 0x9695, 0x999C])
        (turn 2 false (bound .active State.reset))).linkState = .recovering) ∧
    receiveCarrier idleLine (turn 2 false (bound .active State.reset)) = turn 1 true (bound .active State.reset) ∧
    receiveCarrier (FrameContent.sentBy 5 0 .idle) (turn 2 false (bound .active State.reset)) =
      turn 1 false (bound .active State.reset) := by
  decide +kernel

/-! ## Modes, tamper and reset -/

theorem test_tamper_slot :
    execTamperSlotFree { granted .active State.reset with tamper := .of ⟨true, true, false, 1⟩ } =
      .next { State.reset with
        grants := [(1, ⟨.of ⟨.free, 1⟩, .of .empty⟩)], tamper := .of ⟨true, true, false, 2⟩ } := by rfl

theorem test_clearRetained_is_under_way :
    execClearRetained (granted .active (timed State.reset)) =
      .next { granted .active (timed State.reset) with portBusy := true, lastCommand := 0x7B, work := some (.reset 0x7B) } := by rfl

/-- A tamper clear in progress is abandoned at the acceptance; nothing goes on with it, nor with one started meanwhile. -/
theorem test_clearRetained_abandons_the_clear :
    (match execClearRetained { granted .active State.reset with
        tamper := .of ⟨true, true, true, 5⟩, markedTo := 3, notices := [⟨.presencePool, .tamper, false⟩, ⟨.pairTable, .loss 4, false⟩] } with
      | .next t => decide (t.tamper = .of ⟨true, false, false, 1⟩) && decide (t.markedTo = 0) &&
          decide (t.notices = [⟨.pairTable, .loss 4, false⟩]) && (match execTamperAssertion t with
            | .next u => decide (u.tamper.value.clearing = true) && decide (freeTamperSlot u ≠ u) && (match execTamperSlotFree u with
              | .next v => decide (v = u)
              | .fault _ | .refused _ => false)
            | .fault _ | .refused _ => false)
      | .fault _ | .refused _ => false) = true := by decide +kernel

theorem test_clearRetained_with_fire :
    execCommandCompletion { granted .active (timed State.reset) with
        firePin := true, verdicts := [permit], attention := 2, portBusy := true, work := some (.reset 0x7B) } =
      .next { State.reset with
        firePin := true, fireLevel := true, mode := .fire, lastCommand := 0x7B, attention := 0x00004001 } := by rfl

/-- The UNSENT record leaves and its use goes back. -/
theorem test_deviceReset_returns_the_use :
    execCommandCompletion { inside false (granted .active State.reset) with portBusy := true, work := some (.reset 0x7F) } =
      .next { State.reset with
        grants := [(1, ⟨.of ⟨.active, 1⟩, .of { grant with uses := some ⟨3, 3⟩ }⟩)],
        lastCommand := 0x7F, attention := 1 } := by rfl

/-- An UNSENT escort and, behind it, a SENT contractor in an ESCORTED room, both of the grant of handle 1. -/
def mixed : State :=
  ((granted .active (escortRoom 1)).setRecord 1
      ⟨.of ⟨true, 3, 1, .escort, false, true, false⟩, .of ⟨6, some ⟨1, 1⟩, now, 4, none, .none⟩⟩).setRecord 2
    ⟨.of ⟨true, 3, 2, .contractor, true, true, false⟩, .of ⟨5, some ⟨1, 1⟩, now, 4, none, .none⟩⟩

/-- The escort leaves and its use goes back; the contractor moves up and is UNESCORTED. -/
theorem test_deviceReset_moves_the_rest :
    (match execCommandCompletion { mixed with portBusy := true, work := some (.reset 0x7F) } with
      | .next t => decide (t.record 1 = .free) && decide ((t.index 2).place = 1) &&
          decide ((t.record 2).body.value.conditions.unescorted = true) && decide ((t.room 3).body.value.escorts = 0) &&
          decide (t.slot 1 = mixed.slotAfterReturns mixed.claimsGivenBack 1) &&
          decide ((t.slot 1).body.value.uses = some ⟨3, 3⟩)
      | .fault _ | .refused _ => false) = true := by decide +kernel

/-- The UNSENT record of credential 5 in a room, with the permit that holds it. -/
def permitted (room : Nat) (s : State) : State :=
  { s.setRecord 1 ⟨.of ⟨true, room, 1, .contractor, false, true, false⟩, .of ⟨5, some ⟨1, 1⟩, now, 4, none, .none⟩⟩ with
    verdicts := [permit] }

/-- Two records in use, both of the grant of handle 1. -/
def twoInside : State :=
  (inside true State.reset).setRecord 2
    ⟨.of ⟨true, 3, 2, .contractor, true, true, false⟩, .of ⟨6, some ⟨1, 1⟩, now, 4, none, .none⟩⟩

/-- A supply failure cuts a revoke notice's walk after the first of two records. -/
theorem test_cut_walk :
    (let t := cutWalk (some ⟨.revoke, 1⟩) { twoInside with notices := [⟨.presencePool, .revoke ⟨1, 1⟩, false⟩] };
      decide ((t.record 1).body.value.conditions.grantRevoked = true) &&
        decide ((t.record 2).body.value.conditions.grantRevoked = false)) = true := by decide +kernel

/-- A supply failure with no walk due reads no free value. -/
theorem test_supply_failure_without_a_walk :
    execMainSupplyFail twoInside = .next { twoInside with supply := .retainedOnly } := by rfl

/-- The removal of a lost station's two entries is cut behind the first one's record and use; RESET CENSUS behind the record at
the tail. -/
theorem test_cut_operations :
    (let s := { (permitted 3 (granted .active (timed State.reset))).setRecord 2
          ⟨.of ⟨true, 3, 2, .contractor, false, true, false⟩, .of ⟨6, some ⟨1, 1⟩, now, 4, none, .none⟩⟩ with
        verdicts := [permit, ⟨4, 3, .permit, none, false, some ⟨[⟨⟨1, 1⟩, true⟩], [6], [2]⟩⟩]
        notices := [⟨.decisionEngine, .loss 4, false⟩] };
      let t := cutOperation (some ⟨.engineLoss, 2⟩) s;
      let u := cutOperation (some ⟨.command, 1⟩) { twoInside.setRoom 3 ⟨.of .inService, .of ⟨9, .opened, 2, 0, true⟩⟩ with
        work := some (.handed 0x37), window := { arg0 := 3 } };
      decide (t.record 1 = .free) && decide ((t.index 2).inUse = true) && decide ((t.slot 1).body.value.uses = some ⟨3, 3⟩) &&
        decide (t.verdicts = s.verdicts) && decide ((u.index 1).inUse = true) && decide (u.record 2 = .free) &&
        decide ((u.room 3).body.value.suspect = true)) = true := by decide +kernel

/-- The host's removal of the last escort is cut before the contractor is marked, and behind it; CLEAR RETAINED leaves the clock
behind the slots. -/
theorem test_cut_parts :
    (let s := { escortIn false { arg0 := 3, arg1 := 5 } with work := some (.handed 0x36) };
      let t := cutOperation (some ⟨.command, 1⟩) s;
      let u := { granted .active (timed State.reset) with work := some (.reset 0x7B) };
      decide (t.record 1 = .free) && decide ((t.room 3).body.value.escorts = 0) &&
        decide ((t.record 2).body.value.conditions.unescorted = false) &&
        decide (((cutOperation (some ⟨.command, 2⟩) s).record 2).body.value.conditions.unescorted = true) &&
        decide (cutOperation (some ⟨.command, 1⟩) u = { u with grants := [] }) &&
        decide ((cutOperation (some ⟨.command, 2⟩) u).clock.value.isSet = false)) = true := by decide +kernel

/-- A device reset cuts the tamper marking after the first of two records; the next reception goes on from the second. -/
theorem test_marking_goes_on :
    (let t := cutMarking (some 1) { twoInside with
        tamper := .of ⟨true, true, false, 1⟩, notices := [⟨.presencePool, .tamper, false⟩] };
      decide (t.markedTo = 2) && decide ((t.record 1).body.value.handle = none) &&
        decide ((t.record 2).body.value.handle = some ⟨1, 1⟩) &&
        (match execTamperNotice .presencePool t with
          | .next u => decide ((u.record 2).body.value.handle = none) && decide (u.markedTo = 0)
          | .fault _ | .refused _ => false)) = true := by decide +kernel

/-! ## Notices -/

theorem test_oldest_notice : ∀ b ∈ [Block.pairTable, .referralQueue, .decisionEngine, .requestQueue, .presencePool],
    ({ State.reset with notices := [⟨.pairTable, .mode .fire, false⟩, ⟨b, .loss 4, false⟩] } : State).oldest
      [⟨.pairTable, .mode .fire, false⟩] b (.loss 4) false [] := by
  intro b _
  refine ⟨rfl, ?_⟩
  intro o h hb he
  simp only [List.mem_singleton] at h
  subst h
  cases he

theorem test_notice_closures :
    (pairClosure (.revoke ⟨1, 1⟩)).isSome = true ∧ (pairClosure .stop).isSome = true ∧
    (approvalClosure (.mode .fire)).isSome = true ∧ (withdrawal (.bar 5)).isSome = true ∧ (withdrawal .tamper).isSome = true ∧
    noticeRow (.unbar 5) .presencePool = .unbarNotice ∧ noticeRow (.overstay ⟨1, 1⟩) .presencePool = .overstayNotice ∧
    State.reset.queuesOk = true := by decide

theorem test_loss_closes_a_context :
    execLossNotice .pairTable { paired false 5 State.reset with notices := [⟨.pairTable, .loss 4, false⟩] } =
      .next State.reset := by rfl

theorem test_revoke_withdraws :
    (match execRevokeNotice .decisionEngine { inside false (granted .revoked State.reset) with
        verdicts := [permit], notices := [⟨.decisionEngine, .revoke ⟨1, 1⟩, false⟩] } with
      | .next t => decide (t.verdicts = [⟨4, 2, .deny, some .revoked, false, none⟩]) && decide (t.presence = []) &&
          decide ((t.slot 1).body.value.uses = some ⟨3, 3⟩)
      | .fault _ | .refused _ => false) = true := by decide

theorem test_marked_body :
    markedBody (.revoke ⟨1, 1⟩) (inside true State.reset) 1 ≠ ((inside true State.reset).record 1).body.value ∧
    ((inside true State.reset).index 1).sent = true ∧
    ((inside false State.reset).index 1).sent = false := by decide

/-! ## Decisions -/

/-- A request of credential 5 at station 4, whose room 3 is of a class, with a grant in slot 1. -/
def asking (side : Side) (s : State) : State :=
  { granted .active (roomed .opened .inService (bound .active (timed s))) with requests := [⟨4, 2, side, 5⟩] }

theorem test_head : (asking .outside State.reset).headIs ⟨4, 2, .outside, 5⟩ [] ∧
    (asking .inside State.reset).headIs ⟨4, 2, .inside, 5⟩ [] := by
  refine ⟨⟨by decide, by decide, by decide, by decide, by decide, ?_⟩, by decide, by decide, by decide, by decide,
    by decide, ?_⟩ <;> (intro e h; cases h)

theorem test_nothing_open : (asking .outside State.reset).nothingOpenAt 4 ∧ (asking .outside State.reset).boundTo 4 3 := by
  refine ⟨⟨?_, ?_⟩, by decide, by decide⟩
  · intro slot c _ _ h
    cases h
  · intro e h
    cases h

theorem test_seat_not_taken :
    (List.replicate 47 permit).length = 47 ∧
    ({ asking .outside State.reset with verdicts := List.replicate 47 permit } : State).freePlaces < 2 ∧
    (approval .answering 5 none).kind = .approval ⟨1, 1⟩ .answering 5 none ∧ State.reset.requests = [] := by decide

/-- A decision in hand at a check. -/
def deciding (p : Phase) (s : State) : State :=
  { asking .outside s with
    requests := []
    seat := some { Decision.ofRequest ⟨4, 2, .outside, 5⟩ now with phase := p, room := 3 } }

theorem test_checking : ∀ p ∈ [Phase.station, .room, .mode, .tamper, .clock, .barState, .barTest, .locate, .count, .pool,
    .classRule], (deciding p State.reset).tablesWf = true ∧
      (deciding p State.reset).checking { Decision.ofRequest ⟨4, 2, .outside, 5⟩ now with phase := p, room := 3 } p := by
  intro p h
  unfold State.checking
  fin_cases h <;> decide

theorem test_check_cases :
    (asking .outside State.reset).boundTo 4 3 ∧ ((roomed .escorted .closed State.reset).room 3).header.value = .closed ∧
    4 ≤ ({ State.reset with referrals := List.replicate 4 hotCard } : State).hotCards ∧
    (roomed .escorted .inService State.reset).occupancy 3 + 1 ≤ 2 ∧
    ((roomed .escorted .inService State.reset).room 3).view = .readable false ⟨9, .escorted, 2, 0, false⟩ ∧
    State.reset.freeRecords 1 ≠ [] ∧ State.reset.hotCards < 4 := by
  unfold State.boundTo
  decide

theorem test_permit_effect :
    (match execTakeRequest none (asking .outside State.reset) with
      | .next t => decide (t.verdicts = [permit]) && decide (t.presence = (inside false State.reset).presence) &&
          decide ((t.slot 1).body.value.uses = some ⟨3, 1⟩) && decide (t.seat = none)
      | .fault _ | .refused _ => false) = true := by decide

theorem test_answer_check_closed :
    execAnswerCheck none { State.reset with
        referrals := [approval .answering 5 (some .fire)], work := some (.answer 7) } =
      .next (converted 4 2 .fire { State.reset with work := some (.ready (.overtakenWith .fire)) }) := by rfl

/-- A decision of the request at station 4, for room 3 of a class. -/
def hand (side : Side) (p : Phase) (cls : RoomClass) : Decision :=
  { Decision.ofRequest ⟨4, 2, side, 5⟩ now with phase := p, room := 3, key := 9, cls := cls, limit := 2 }

/-- That decision in hand. -/
def handed (d : Decision) (s : State) : State := { s with seat := some d }

/-- Room 3 with its grant in slot 1, station 4 bound to it, the clock SET. -/
def site (cls : RoomClass) : State := granted .active (roomed cls .inService (bound .active (timed State.reset)))

/-- A context of another card at station 4. -/
def other (held : Bool) : PairContext := { context held 5 with credential := 6 }

theorem pair_of_one (v : Option PairContext) (s : State) (h : s.pairs = []) (slot : Nat) (c : PairContext)
    (hc : (s.setPair 1 v).pair slot = some c) : slot = 1 ∧ v = some c := by
  by_cases h1 : slot = 1
  · subst h1
    cases v <;> simp_all [State.setPair, State.pair, Table.set, Table.get]
  · cases v <;> simp_all [State.setPair, State.pair, Table.set, Table.get]

/-- With the station's loss taken by the Pair Table and not by the Decision Engine a context does not open (log 52), and what R94's
table denies is denied all the same. -/
theorem test_opening_after_the_loss :
    (let d := { hand .outside .pairOpening .paired with claims := [⟨⟨1, 1⟩, true⟩] };
      let s := { handed d (site .paired) with notices := [⟨.decisionEngine, .loss 4, false⟩] };
      (match execTakeRequest (some 1) s with
        | .next t => decide (t.pairs = []) && decide (t.verdicts = []) && decide (t.seat = none) &&
            decide ((t.slot 1).body.value.uses = some ⟨3, 3⟩)
        | .fault _ | .refused _ => false) &&
      (match execTakeRequest (some 1) { s with mode := .lockdown } with
        | .next t => decide (t.verdicts = [⟨4, 2, .deny, some .lockdown, false, none⟩])
        | .fault _ | .refused _ => false)) = true := by decide +kernel

/-- The decision goes on once the approval that was being answered has ended, TOO LATE (log 54). -/
theorem test_answering_superseded :
    (match execTakeRequest (some 1) { handed (hand .outside .stationQuery .paired) (site .paired) with
        referrals := [approval .answering 5 none], work := some (.answer 7) } with
      | .next t => decide (t.referrals = []) && decide (t.work = some (.ready { code := .tooLate })) &&
          decide (t.seat = some (hand .outside .station .paired))
      | .fault _ | .refused _ => false) = true := by decide +kernel

/-- The example under R178: a barred card presented while TAKE REFERRAL is in progress is the hot card it returns. -/
theorem test_hot_card_while_in_progress :
    (match execRegisterWrite 0x02 0x51 { deciding .barTest State.reset with barHeader := .of ⟨1, false, []⟩, barEntries := [.of 5] } with
      | .next t => decide (t.portBusy = true) && decide (t.attention = 0) && (match execTakeRequest (some 1) t with
        | .next u => decide (u.portBusy = true) && decide (u.attention = 4) && decide ((completeCommand (completeCommand u)).portBusy = false) &&
            decide ((completeCommand (completeCommand u)).resultCode = .ok) &&
            decide ((completeCommand (completeCommand u)).attention = 5)
        | .fault _ | .refused _ => false)
      | .fault _ | .refused _ => false) = true := by decide +kernel

/-- A completion in hand at a check, its context HELD in slot 1. -/
def completer (p : Phase) : Decision :=
  { hand .outside p .paired with
    credential := 6, holding := .completing 1, own := ⟨1025, .none, some (⟨1, 1⟩, .contractor)⟩
    first := ⟨1025, .none, some (⟨1, 1⟩, .contractor)⟩ }

def completing (p : Phase) (c : PairContext) : State :=
  handed (completer p) ((site .paired).setPair 1 (some c))

/-- With the station's entries gone the reservation of a first card that fails its re-check is freed (log 52). -/
theorem test_first_fails_after_the_loss :
    (match execTakeRequest (some 1) { completing .firstBar (context true 5) with
        barHeader := .of ⟨1, false, []⟩, barEntries := [.of 5], notices := [⟨.pairTable, .loss 4, false⟩] } with
      | .next t => decide (t.pairs = []) && decide (t.verdicts = []) && decide (t.seat.map (·.phase) = some .station)
      | .fault _ | .refused _ => false) = true := by decide +kernel

/-- A closure that waits while a context opens turns its reservation into a DENY behind the HOLD. -/
theorem test_closure_follows_the_hold :
    (match execTakeRequest none (handed { hand .outside .claimRelease .paired with
        holding := .openingPair 1, claims := [⟨⟨1, 1⟩, true⟩] }
          ((site .paired).setPair 1 (some { context true 5 with closure := some .fire }))) with
      | .next t => decide (t.verdicts = [⟨4, 2, .hold, none, false, none⟩, ⟨4, 2, .deny, some .fire, false, none⟩]) &&
          decide (t.pairs = []) && decide ((t.slot 1).body.value.uses = some ⟨3, 3⟩)
      | .fault _ | .refused _ => false) = true := by decide +kernel

/-- Two entries that hold the counter's number and the next one. -/
def numbered (s : State) : State :=
  { s with referenceCounter := 65534, referrals := [{ hotCard with reference := 65534 }, { hotCard with reference := 65535 }] }

theorem test_draws (s : State) : (numbered s).draws 1 := by
  refine ⟨2, by decide, rfl, ?_, ?_⟩
  · intro e h
    simp only [numbered, List.mem_cons, List.not_mem_nil, or_false] at h
    rcases h with rfl | rfl <;> decide
  intro j hj
  match j, hj with
  | 0, _ => exact ⟨_, .head _, rfl⟩
  | 1, _ => exact ⟨_, .tail _ (.head _), rfl⟩

/-- An approval's reference number skips those that entries hold (R114). -/
theorem test_reference_in_use :
    (match execTakeRequest (some 1) (numbered (handed (hand .outside .approvalOpening .referred) (site .referred))) with
      | .next t => decide (t.referrals.map (·.reference) = [65534, 65535, 1]) && decide (t.referenceCounter = 2)
      | .fault _ | .refused _ => false) = true := by decide +kernel

/-- A completed pair, from its claims to its verdict. -/
theorem test_pair_completes :
    (match execTakeRequest none (handed { completer .claimFirst with own := ⟨1025, .none, some (⟨2, 1⟩, .contractor)⟩ }
        (((site .paired).setSlot 2 ⟨.of ⟨.active, 1⟩, .of { grant with credential := 6 }⟩).setPair 1 (some (context true 5)))) with
      | .next t => decide (t.verdicts = [⟨4, 2, .permitPair, none, false,
            some ⟨[⟨⟨1, 1⟩, true⟩, ⟨⟨2, 1⟩, true⟩], [5, 6], [1, 2]⟩⟩]) && decide (t.pairs = []) && decide (t.seat = none)
      | .fault _ | .refused _ => false) = true := by decide +kernel

/-- An exit of a credential whose entry has not been sent: its permit goes with its use. -/
theorem test_exit_of_an_unsent_record :
    (match execTakeRequest none (permitted 3 (asking .inside State.reset)) with
      | .next t => decide (t.verdicts = [⟨4, 2, .exit, none, false, none⟩]) && decide (t.presence = []) &&
          decide ((t.slot 1).body.value.uses = some ⟨3, 3⟩) && decide (t.attention = 0)
      | .fault _ | .refused _ => false) = true := by decide +kernel

/-! ## One witness for each obligation: every hypothesis of each clause, together, on one state -/

theorem witness_StepRunsTheFrontCommand : State.reset.pending = [] := by decide +kernel

theorem witness_StepKeepsTheInvariant :
    State.reset.inv = true ∧ ∃ t, step { State.reset with pending := [.tamperAssertion] } = .next t := ⟨by decide, _, rfl⟩

theorem witness_PortOffOrBusyTakesNoCommand :
    (isHostCommand .addGrant ∧ isHostCommand .deviceReset ∧ (∀ n ∈ [none, some 0], isHostCommand (.findGrants n)) ∧
      ({ State.reset with supply := .retainedOnly } : State).portOn = false ∧
      ({ State.reset with resetLow := true } : State).portOn = false) ∧
    (({ State.reset with portBusy := true } : State).portOn = true ∧
      ({ State.reset with portBusy := true } : State).portBusy = true) := by
  exact ⟨⟨Or.inl ⟨0x10, rfl⟩, Or.inl ⟨0x7F, rfl⟩, fun n _ => Or.inr ⟨n, by simp⟩, rfl, rfl⟩, rfl, rfl⟩

/-- A state with a command in progress. -/
def working (w : CommandWork) (s : State) : State := { s with portBusy := true, work := some w }

/-- STOP LINK waits for the end of the abandoned decision that holds the last context, and then completes (R90, R102). -/
theorem test_stopLink_waits_for_the_context :
    (let s := working .stopLink (handed { hand .outside .room .paired with abandoned := true, holding := .completing 1 }
        ((site .paired).setPair 1 (some { context true 5 with closure := some .stopLink })));
      decide (completeCommand s = s) && (match execTakeRequest (some 1) s with
        | .next t => decide (t.pairs = []) && decide ((completeCommand t).portBusy = false)
        | .fault _ | .refused _ => false)) = true := by decide +kernel

theorem witness_CompletionsWriteTheResult :
    State.reset.work = none ∧ ((working (.ready (.bare .ok)) State.reset).portOn = true ∧ (working (.answer 1) State.reset).portOn = true) ∧
    (∀ w ∈ [CommandWork.revoke ⟨1, 2, 3⟩, .bar ⟨0, 0, 0⟩, .unbar 0, .unbar 1, .clearBar 1 1, .stopLink,
        .setMode .normal .fire ⟨1, 1, 0⟩],
      (working w State.reset).portOn = true ∧ (working w State.reset).work = some w ∧ (countsOf w).isSome = true ∧
        (∀ o ∈ (working w State.reset).notices, o.ofCommand = false) ∧
        (∃ o ∈ (working w { State.reset with notices := [⟨.pairTable, .stop, true⟩] }).notices, o.ofCommand = true)) ∧
    (State.reset.reservations = 0 ∧ (paired true 5 State.reset).reservations ≠ 0) ∧
    (hostCodes.contains ((0x1FF : Word).truncate 8) = false ∧ State.reset.portOn = true ∧ State.reset.portBusy = false) := by
  decide +kernel

/-- RETIRE GRANT and UNBIND STATION with questions left: the slot in use or freed meanwhile, a holder or none. -/
theorem witness_CompletionsWriteTheResult_questions :
    (∀ asked ∈ [0, 2, 3], ∀ s ∈ [State.reset, granted .active State.reset],
      (working (.retire ⟨1, 1⟩ asked) s).portOn = true ∧ (working (.retire ⟨1, 1⟩ asked) s).undamaged = true ∧
      (working (.retire ⟨1, 1⟩ asked) s).tablesWf = true ∧ asked ≤ 3) ∧
    ((State.reset.slot 1).header.value.state = .free ∧ ((granted .active State.reset).slot 1).header.value.state ≠ .free) ∧
    (∀ q, q ≤ 3 → ¬ holdsAt ⟨1, 1⟩ q (granted .active State.reset)) ∧
    holdsAt ⟨1, 1⟩ 3 (inside true (granted .active State.reset)) ∧
    (∀ asked ∈ [0, 3, 4], (working (.unbind 4 asked) (bound .active State.reset)).portOn = true ∧
      (working (.unbind 4 asked) (bound .active State.reset)).undamaged = true ∧
      (working (.unbind 4 asked) (bound .active State.reset)).tablesWf = true ∧ asked ≤ 4) ∧
    (∀ q, q ≤ 4 → ¬ (bound .active State.reset).worksAt 4 q) ∧
    ({ bound .active State.reset with verdicts := [permit] } : State).worksAt 4 4 := by
  refine ⟨by decide +kernel, by decide, ?_, ⟨1, by decide, by decide, by decide⟩, by decide +kernel, ?_,
    permit, by decide, rfl⟩
  · intro q hq
    match q, hq with
    | 0, _ => rintro (⟨_, h, _⟩ | ⟨_, h, _⟩) <;> cases h
    | 1, _ => rintro ⟨_, _, _, _, h, _⟩; cases h
    | 2, _ => rintro ⟨_, h, _⟩; cases h
    | 3, _ => rintro ⟨_, h, _⟩; cases h
  · intro q hq
    match q, hq with
    | 0, _ => rintro ⟨_, h, _⟩; cases h
    | 1, _ => rintro ⟨_, _, h, _⟩; cases h
    | 2, _ => rintro ⟨_, _, _, _, h, _⟩; cases h
    | 3, _ => rintro ⟨_, h, _⟩; cases h
    | 4, _ => rintro ⟨_, h, _⟩; cases h

theorem witness_RegisterAndMaskWrites :
    (∀ a ∈ [(0x00 : BitVec 7), 0x07, 0x10, 0x7F], State.reset.portOn = true ∧ a ≠ 0x02 ∧ a ≠ 0x04 ∧
      (a.toNat < 8 ∨ 15 < a.toNat)) ∧
    (∀ a ∈ [(0x08 : BitVec 7), 0x0F], a ≠ 0x02 ∧ a ≠ 0x04 ∧ 8 ≤ a.toNat ∧ a.toNat ≤ 15 ∧
      State.reset.portBusy = false ∧ ({ State.reset with portBusy := true } : State).portBusy = true) := by decide +kernel

theorem witness_RegisterAndMaskWrites_acceptance :
    (∀ word ∈ [(0x00000051 : Word), 0xFFFFFF15, 0x65], State.reset.accepts = true ∧ hostCodes.contains (word.truncate 8) = true ∧
      word.truncate 8 ≠ (0x7B : BitVec 8) ∧ word.truncate 8 ≠ (0x7F : BitVec 8) ∧ (hostCommandOf (word.truncate 8)).isSome = true ∧
      (working (.handed (word.truncate 8)) State.reset).portOn = true ∧
      (working (.handed (word.truncate 8)) State.reset).portBusy = true ∧
      (working (.handed (word.truncate 8)) State.reset).work = some (.handed (word.truncate 8))) ∧
    hostCodes.contains ((0x1FF : Word).truncate 8) = false ∧ (0x10B : Word).truncate 8 = (0x0B : BitVec 8) := by
  simp only [List.forall_mem_cons, List.not_mem_nil, IsEmpty.forall_iff, implies_true]
  decide +kernel

theorem witness_AtnFollowsLatchesAndMask :
    State.reset.latchesOk = true ∧ State.reset.portOn = true ∧ ({ State.reset with resetLow := true } : State).portOn = false ∧
    (∀ a ∈ [(5 : BitVec 7), 7, 0x14, 0x7F], (5 ≤ a.toNat ∧ a.toNat ≤ 7) ∨ 0x13 < a.toNat) := by decide +kernel

theorem witness_AttentionReadClearsWhatItTook :
    ∀ taken ∈ [none, some (3 : Word)],
      ({ State.reset with attentionTaken := taken, attention := 7 } : State).portOn = true ∧
      ({ State.reset with attentionTaken := taken, attention := 7 } : State).resetting = false := by
  simp only [List.forall_mem_cons, List.not_mem_nil, IsEmpty.forall_iff, implies_true]
  decide +kernel

/-- ADD GRANT's arguments in a state with the clock SET. -/
def adding (w : Window) : State := timed (args w State.reset)

theorem witness_AddGrantPlacesOrRefuses :
    ((adding addArgs).accepts = true ∧ (adding addArgs).undamaged = true ∧ addArgumentsOk (adding addArgs).window = true ∧
      (adding addArgs).clock.value.isSet = true ∧
      (addedGrant (adding addArgs).window now).validUntil.atOrBefore (adding addArgs).clock.value.calendar.minute = false ∧
      ((adding addArgs).slot 1).header.value.state = .free) ∧
    ((adding {}).accepts = true ∧ (adding {}).undamaged = true ∧ addArgumentsOk (adding {}).window = false) ∧
    ((args addArgs State.reset).accepts = true ∧ (args addArgs State.reset).undamaged = true ∧
      addArgumentsOk (args addArgs State.reset).window = true ∧ (args addArgs State.reset).clock.value.isSet = false) ∧
    (∃ w, (adding w).accepts = true ∧ (adding w).undamaged = true ∧ addArgumentsOk (adding w).window = true ∧
      (adding w).clock.value.isSet = true ∧
      (minuteArg (adding w).window.arg4).atOrBefore (adding w).clock.value.calendar.minute = true) ∧
    (addArgumentsOk (fullTable (adding addArgs)).window = true ∧ (fullTable (adding addArgs)).clock.value.isSet = true ∧
      (minuteArg (fullTable (adding addArgs)).window.arg4).atOrBefore now = false) := by
  refine ⟨by decide, by decide, by decide, ⟨{ addArgs with arg4 := minuteWord now }, by decide⟩, by decide⟩

theorem witness_HandlesAreCheckedFirst : ∀ p ∈ handleCommands,
    (∀ w ∈ [(0x00010000 : Word), 0x00010401], (args { arg0 := w } State.reset).accepts = true ∧
      ((args { arg0 := w } State.reset).slot (handleArg w).slot).header.clean = true ∧
      ((handleArg w).slot = 0 ∨ 1024 < (handleArg w).slot)) ∧
    (∀ w ∈ [(0x00010001 : Word), 0x00010400], ((args { arg0 := w } State.reset).slot (handleArg w).slot).header.clean = true ∧
      1 ≤ (handleArg w).slot ∧ (handleArg w).slot ≤ 1024 ∧
      ((args { arg0 := w } State.reset).slot (handleArg w).slot).header.value.state = .free) ∧
    (((granted .active (args { arg0 := 0x00020001 } State.reset)).slot 1).header.clean = true ∧
      ((granted .active (args { arg0 := 0x00020001 } State.reset)).slot 1).header.value.state ≠ .free ∧
      ((granted .active (args { arg0 := 0x00020001 } State.reset)).slot 1).header.value.issue ≠ (handleArg 0x00020001).issue) := by
  intro p hp
  simp only [List.forall_mem_cons, List.not_mem_nil, IsEmpty.forall_iff, implies_true]
  decide +kernel

/-- namesGrant, in every state of a slot. -/
theorem witness_GrantCommandsRefusedByState : ∀ st ∈ [GrantState.pending, .active, .spent, .suspended, .lapsed, .revoked,
    .faulted], namesGrant (granted st (args (handle1 {}) State.reset)) ⟨1, 1⟩ st := by
  intro st h
  unfold namesGrant
  fin_cases h <;> decide

theorem witness_AmendGrantWritesAndSettles : ∀ st ∈ [GrantState.pending, .active, .spent, .suspended],
    (namesGrant (granted st (args (handle1 { arg1 := 0x11 , arg2 := minuteWord ⟨2028, 1, 1, 0, 0⟩ }) State.reset)) ⟨1, 1⟩ st ∧
      amendmentsArg (handle1 { arg1 := 0x11, arg2 := minuteWord ⟨2028, 1, 1, 0, 0⟩ }) =
        some ⟨some ⟨2028, 1, 1, 0, 0⟩, none, some none⟩ ∧
      (⟨some ⟨2028, 1, 1, 0, 0⟩, none, some none⟩ : Amendments).ok grant = true) ∧
    (namesGrant (granted st (args (handle1 { arg1 := 3 }) State.reset)) ⟨1, 1⟩ st ∧
      amendmentsArg (handle1 { arg1 := 3 }) = none) := by
  intro st h
  unfold namesGrant
  fin_cases h <;> decide

theorem witness_RetireGrantFreesOrRefuses :
    (namesGrant (granted .active (args (handle1 {}) State.reset)) ⟨1, 1⟩ .active ∧
      ¬ holderOf ⟨1, 1⟩ (granted .active (args (handle1 {}) State.reset))) ∧
    (namesGrant { granted .active (args (handle1 {}) State.reset) with verdicts := [permit] } ⟨1, 1⟩ .active ∧
      holderOf ⟨1, 1⟩ { granted .active (args (handle1 {}) State.reset) with verdicts := [permit] }) :=
  ⟨⟨by unfold namesGrant; decide, test_retire_holder.2⟩, by unfold namesGrant; decide, test_retire_holder.1⟩

theorem witness_ReadAndFindGrants :
    ((args { arg0 := 0 } State.reset).accepts = true ∧ (args { arg0 := 0 } State.reset).undamaged = true ∧
      (args { arg0 := 0 } State.reset).tablesWf = true ∧ findArg { arg0 := 0 } = none) ∧
    ((granted .active (args { arg0 := 0x00010002 } State.reset)).accepts = true ∧
      (granted .active (args { arg0 := 0x00010002 } State.reset)).undamaged = true ∧
      (granted .active (args { arg0 := 0x00010002 } State.reset)).tablesWf = true ∧
      findArg (granted .active (args { arg0 := 0x00010002 } State.reset)).window = some (.all, 1)) := by decide +kernel

theorem witness_ReadAndFindGrants_goes_on :
    (∀ before ∈ [[], List.replicate 5 ((⟨1, 1⟩ : Handle), GrantState.active)], ∀ cursor ∈ [1, 1024],
      ({ granted .active State.reset with work := some (.find .all cursor before) } : State).portOn = true ∧
      ({ granted .active State.reset with work := some (.find .all cursor before) } : State).undamaged = true ∧
      ({ granted .active State.reset with work := some (.find .all cursor before) } : State).tablesWf = true ∧
      1 ≤ cursor ∧ cursor ≤ 1024 ∧ before.length < 6) ∧ (1 : Nat) < 1024 ∧
    (([] : List (Handle × GrantState)) ++ ((granted .active State.reset).grants.filterMap (qualifying .all 1)).filter
      (fun p => decide (p.1.slot = 1))).length < 6 ∧
    (List.replicate 5 ((⟨1, 1⟩ : Handle), GrantState.active) ++
      ((granted .active State.reset).grants.filterMap (qualifying .all 1)).filter
        (fun p => decide (p.1.slot = 1))).length = 6 := by decide +kernel

theorem witness_UsesAreTakenAndReturned :
    (∀ st ∈ [GrantState.active, .pending], (granted st State.reset).undamaged = true ∧
      ((granted st State.reset).slot 1).header.value = ⟨st, 1⟩ ∧ ((granted st State.reset).slot 1).body.value = grant ∧
      grant.usable st 5 9 now = true ∧ (granted st State.reset).retireHold ≠ some 1) ∧
    (((granted .spent State.reset).slot 1).header.value = ⟨.spent, 1⟩ ∧ grant.usable .spent 5 9 now = false) ∧
    (State.reset.undamaged = true ∧ (State.reset.slot 1).header.value = ⟨.free, 0⟩) ∧
    ((granted .spent State.reset).undamaged = true ∧ (granted .spent State.reset).tablesWf = true ∧
      grant.uses = some ⟨3, 2⟩ ∧ (2 : Nat) < 3) ∧
    ((State.reset.setSlot 1 ⟨.of ⟨.active, 1⟩, .of { grant with uses := some ⟨3, 3⟩ }⟩).undamaged = true ∧
      (State.reset.setSlot 1 ⟨.of ⟨.active, 1⟩, .of { grant with uses := some ⟨3, 3⟩ }⟩).tablesWf = true ∧ (3 : Nat) ≤ 3) := by
  decide +kernel

theorem witness_UsableUnderSixConditions :
    (540 : Nat) ≠ 600 ∧ (⟨8, 540, 600⟩ : DailyHours).openMinute < (⟨8, 540, 600⟩ : DailyHours).closeMinute ∧
    (⟨4, 1380, 601⟩ : DailyHours).closeMinute < (⟨4, 1380, 601⟩ : DailyHours).openMinute := by decide +kernel

theorem witness_DenyReasonIsTheFirstLine :
    metBy 5 9 passedGrants (fun st g => st = .suspended ∧ g.inWindow now = true) ∧
    metBy 5 9 passedGrants (fun st _ => st = .revoked) ∧
    ¬ metBy 5 9 [] (fun st _ => st = .revoked) ∧
    metBy 5 9 [(.active, { grant with hours := some ⟨8, 540, 600⟩ })] (fun st g => (st = .pending ∨ st = .active) ∧
      g.inWindow now = true ∧ g.inHoursAt now = false) ∧
    (∀ cursor ∈ [1, 1024, 1025], (searching cursor .spent).checking (searcher cursor) .search ∧
      (searcher cursor).own.notes = notesOver 5 9 now passedGrants ∧ (searcher cursor).credential = 5 ∧
      (searcher cursor).key = 9 ∧ (searcher cursor).time = now ∧
      ((searching cursor .spent).slot cursor).body.value.usable
        ((searching cursor .spent).slot cursor).header.value.state 5 9 now = false) := by
  refine ⟨⟨(.suspended, grant), by decide, by decide⟩, ⟨(.revoked, grant), by decide, by decide⟩, ?_,
    ⟨(.active, { grant with hours := some ⟨8, 540, 600⟩ }), by decide, by decide⟩, ?_⟩
  · rintro ⟨_, h, _⟩
    cases h
  · unfold State.checking
    decide +kernel

theorem witness_ClockIsSetReadShiftedAndTrimmed :
    (∀ w ∈ [({ arg0 := minuteWord ⟨2026, 2, 29, 0, 0⟩ } : Window), { arg0 := minuteWord now, arg1 := 60 }],
      (args w State.reset).accepts = true ∧ ((minuteArg w.arg0).ok = false ∨ 59 < field w.arg1 0 6)) ∧
    ((args { arg0 := minuteWord now, arg1 := 59 } State.reset).accepts = true ∧ (minuteArg (minuteWord now)).ok = true ∧
      field (59 : Word) 0 6 ≤ 59) ∧
    ((adding { arg0 := 2 }).accepts = true ∧ (adding { arg0 := 2 }).undamaged = true ∧ (2 : Word) ≠ 1 ∧ (2 : Word) ≠ -1) ∧
    ((args { arg0 := 1 } State.reset).undamaged = true ∧ (args { arg0 := 1 } State.reset).clock.value.isSet = false) ∧
    ((adding { arg0 := -1 }).undamaged = true ∧ (adding { arg0 := -1 }).clock.value.isSet = true ∧
      (adding { arg0 := -1 }).clock.value.calendar.hourEarlier = some ⟨⟨2026, 1, 1, 9, 0⟩, 0⟩) ∧
    (({ args { arg0 := 1 } State.reset with clock := .of ⟨⟨⟨2099, 12, 31, 23, 0⟩, 0⟩, true⟩ } : State).clock.value.isSet =
        true ∧ (⟨⟨2099, 12, 31, 23, 0⟩, 0⟩ : Calendar).hourLater = none) ∧
    (∀ v ∈ [(-501 : Word), 501], (args { arg0 := v } State.reset).undamaged = true ∧ (v.toInt < -500 ∨ 500 < v.toInt)) ∧
    (∀ v ∈ [(-500 : Word), 500], (args { arg0 := v } State.reset).accepts = true ∧
      (args { arg0 := v } State.reset).undamaged = true ∧ -500 ≤ v.toInt ∧ v.toInt ≤ 500 ∧
      (args { arg0 := v } State.reset).trim.value = none ∧
      ({ args { arg0 := v } State.reset with trim := .of (some 1) } : State).undamaged = true ∧
      ({ args { arg0 := v } State.reset with trim := .of (some 1) } : State).trim.value ≠ none) := by
  simp only [List.forall_mem_cons, List.not_mem_nil, IsEmpty.forall_iff, implies_true]
  decide +kernel

theorem witness_SecondBoundaryAdvancesTheClock :
    (∀ s ∈ [State.reset, timed State.reset, { State.reset with trim := .of (some 500) },
        { State.reset with supply := .retainedOnly }, { State.reset with resetLow := true },
        { State.reset with clock := .of ⟨⟨now, 59⟩, true⟩ }, paired false 1 State.reset, paired false 2 State.reset,
        paired true 0 State.reset, { State.reset with referrals := [hotCard, approval .taken 1 none] }],
      s.undamaged = true ∧ s.tablesWf = true ∧ s.queuesOk = true) := by decide +kernel

theorem witness_CalendarStaysInRange : ∀ c ∈ [(⟨⟨2099, 12, 31, 23, 59⟩, 59⟩ : Calendar), ⟨now, 58⟩, ⟨now, 59⟩],
    c.minute.ok = true ∧ c.second ≤ 59 := by decide +kernel

theorem witness_SweepVisitFollowsTheWindows : ∀ st ∈ [GrantState.pending, .active, .spent, .suspended, .lapsed, .revoked,
    .faulted], ∀ m ∈ [now, ⟨2027, 1, 1, 0, 0⟩],
    (sweeping m (granted st State.reset)).awake = true ∧ (sweeping m (granted st State.reset)).undamaged = true ∧
    (sweeping m (granted st State.reset)).tablesWf = true ∧
    ((sweeping m (granted st State.reset)).slot 1).header.value = ⟨st, 1⟩ := by decide +kernel

theorem witness_RoomArgumentsCloseAndOpen : ∀ p ∈ roomCommands,
    ((args { arg0 := 64 } State.reset).accepts = true ∧ (args { arg0 := 64 } State.reset).undamaged = true ∧
      64 ≤ roomArg (args { arg0 := 64 } State.reset).window) ∧
    (namesRoom (args { arg0 := 63 } State.reset) 63 ∧ ((args { arg0 := 63 } State.reset).room 63).header.value = .undefined) ∧
    (∀ st ∈ [RoomState.inService, .closed, .faulted], namesRoom (roomed .opened st (args room3 State.reset)) 3 ∧
      ((roomed .opened st (args room3 State.reset)).room 3).header.value = st) := by
  unfold namesRoom
  decide +kernel

theorem witness_DefineRoomCreatesOrAmends :
    (∀ s ∈ [args (defineArgs 0 1) State.reset, roomed .opened .faulted (args (defineArgs 0 1) State.reset),
        roomed .opened .inService (args (defineArgs 0 32) State.reset)],
      s.accepts = true ∧ s.undamaged = true ∧ (defineArg s.window).isSome = true) ∧
    (¬ keyTaken (args (defineArgs 0 1) State.reset) 3 9 ∧
      ((args (defineArgs 0 1) State.reset).room 3).header.value = .undefined) ∧
    (keyTaken (roomed .opened .inService (args { (defineArgs 0 1) with arg0 := 4 } State.reset)) 4 9 ∧
      ((roomed .opened .inService (args { (defineArgs 0 1) with arg0 := 4 } State.reset)).room 4).header.value ≠ .faulted) ∧
    (((roomed .opened .inService (args (defineArgs 1 2) State.reset)).room 3).view = .readable false ⟨9, .opened, 2, 0, false⟩ ∧
      (roomed .opened .inService (args (defineArgs 1 2) State.reset)).occupancy 3 ≤ 2 ∧
      ({ roomed .opened .inService (args (defineArgs 1 2) State.reset) with
        pairs := [(1, some (context false 5))] } : State).anyPair (fun c => decide (c.room = 3)) = true) := by
  refine ⟨by decide, ⟨?_, by decide⟩, ⟨⟨3, by decide, by decide, false, ⟨9, .opened, 2, 0, false⟩, by decide, rfl⟩,
    by decide⟩, by decide⟩
  rintro ⟨r, _, _, closed, b, h, _⟩
  exact absurd h (by simp [State.room, args, State.reset, Table.get, Room.cleared, Room.view, Voted.value])

theorem witness_DeleteRoomNeedsAnEmptyRoom :
    (namesRoom (roomed .opened .inService (args room3 State.reset)) 3 ∧
      (roomed .opened .inService (args room3 State.reset)).occupancy 3 = 0 ∧
      (∀ k, 1 ≤ k → k ≤ 31 →
        ((roomed .opened .inService (args room3 State.reset)).station k).readable.bind (·.binding) ≠ some 3)) ∧
    (namesRoom (inside true (roomed .opened .faulted (args room3 State.reset))) 3 ∧
      (inside true (roomed .opened .faulted (args room3 State.reset))).occupancy 3 ≠ 0) := by
  unfold namesRoom
  refine ⟨⟨by decide, by decide, fun k _ _ => ?_⟩, by decide⟩
  simp [State.station, roomed, args, State.setRoom, State.reset, Table.get, Station.cleared, Station.readable, Voted.value,
    StationBody.empty]

theorem witness_ReadRoomAndListPresence :
    (∀ st ∈ [RoomState.inService, .closed, .faulted], namesRoom (inside true (roomed .opened st (args room3 State.reset))) 3) ∧
    (∀ p ∈ [(1 : Word), 32], namesRoom (roomed .opened .inService (args { room3 with arg1 := p } State.reset)) 3 ∧
      1 ≤ field p 0 8 ∧ field p 0 8 ≤ 32) ∧
    (∀ p ∈ [(0 : Word), 33], namesRoom (roomed .opened .inService (args { room3 with arg1 := p } State.reset)) 3 ∧
      (field p 0 8 = 0 ∨ 32 < field p 0 8)) := by
  unfold namesRoom
  simp only [List.forall_mem_cons, List.not_mem_nil, IsEmpty.forall_iff, implies_true]
  decide +kernel

theorem witness_PresenceIsRemovedByTheHost :
    (∀ sent ∈ [true, false], ∀ w ∈ [({ arg0 := 0x103, arg1 := 1 } : Window), { arg0 := 3, arg1 := 5 }],
      (inside sent (roomed .opened .inService (args w State.reset))).accepts = true ∧
      (inside sent (roomed .opened .inService (args w State.reset))).undamaged = true ∧
      (inside sent (roomed .opened .inService (args w State.reset))).tablesWf = true ∧
      ((inside sent (roomed .opened .inService (args w State.reset))).room 3).view =
        .readable false ⟨9, .opened, 2, 0, false⟩ ∧
      namedRecord (inside sent (roomed .opened .inService (args w State.reset))) 3 = some 1 ∧
      ((inside sent (roomed .opened .inService (args w State.reset))).index 1).sent = sent) ∧
    (∀ w ∈ [({ arg0 := 0x103, arg1 := 2 } : Window), { arg0 := 0x103, arg1 := 32 }, { arg0 := 3, arg1 := 6 }],
      namedRecord (inside true (roomed .opened .inService (args w State.reset))) 3 = none) ∧
    (namesRoom (inside false (roomed .opened .inService (args room3 State.reset))) 3 ∧
      ((inside false (roomed .opened .inService (args room3 State.reset))).room 3).header.value ≠ .undefined ∧
      ∃ id ∈ (inside false (roomed .opened .inService (args room3 State.reset))).roomRecords 3,
        ((inside false (roomed .opened .inService (args room3 State.reset))).index id).sent = false) ∧
    (namesRoom (inside true (roomed .opened .faulted (args room3 State.reset))) 3 ∧
      ((inside true (roomed .opened .faulted (args room3 State.reset))).room 3).header.value ≠ .undefined ∧
      ∀ id ∈ (inside true (roomed .opened .faulted (args room3 State.reset))).roomRecords 3,
        ((inside true (roomed .opened .faulted (args room3 State.reset))).index id).sent = true) := by
  unfold namesRoom
  decide +kernel

theorem witness_PresenceIsRemovedByTheHost_lastEscort : ∀ b ∈ [true, false],
    (escortIn b { arg0 := 3, arg1 := 5 }).accepts = true ∧ (escortIn b { arg0 := 3, arg1 := 5 }).undamaged = true ∧
    (escortIn b { arg0 := 3, arg1 := 5 }).tablesWf = true ∧
    ((escortIn b { arg0 := 3, arg1 := 5 }).room 3).view = .readable false ⟨9, .escorted, 4, 1, false⟩ ∧
    namedRecord (escortIn b { arg0 := 3, arg1 := 5 }) 3 = some 1 ∧
    ((escortIn b { arg0 := 3, arg1 := 5 }).index 1).sent = true ∧
    ((escortIn b { arg0 := 3, arg1 := 5 }).index 1).role = .escort ∧
    (escortIn b { arg0 := 3, arg1 := 5 }).leftAlone 3 2 = true ∧
    ((escortIn b { arg0 := 3, arg1 := 5 }).record 2).body.value.conditions.unescorted = b := by decide +kernel

theorem witness_AdmissionPlacesARecord :
    (State.reset.undamaged = true ∧ State.reset.tablesWf = true ∧ (State.reset.room 3).view = .undefined) ∧
    ((roomed .opened .inService State.reset).undamaged = true ∧ (roomed .opened .inService State.reset).tablesWf = true ∧
      ((roomed .opened .inService State.reset).room 3).view = .readable false ⟨9, .opened, 2, 0, false⟩ ∧
      (roomed .opened .inService State.reset).locateIn 5 (roomed .opened .inService State.reset).inUseRecords = none ∧
      (roomed .opened .inService State.reset).occupancy 3 + 1 ≤ 2 ∧
      (roomed .opened .inService State.reset).freeRecords 1 = [1]) ∧
    ((inside true (roomed .opened .inService State.reset)).locateIn 5
      (inside true (roomed .opened .inService State.reset)).inUseRecords ≠ none) := by decide +kernel

theorem witness_AdmissionPlacesARecord_ofAnEscort :
    (escortIn true {}).undamaged = true ∧ (escortIn true {}).tablesWf = true ∧
    ((escortIn true {}).room 3).view = .readable false ⟨9, .escorted, 4, 1, false⟩ ∧
    (escortIn true {}).locateIn 7 (escortIn true {}).inUseRecords = none ∧
    (escortIn true {}).occupancy 3 + 1 ≤ 4 ∧ (escortIn true {}).freeRecords 1 = [3] ∧
    (2 : Nat) ≠ 3 ∧ ((escortIn true {}).index 2).inUse = true ∧ ((escortIn true {}).index 2).faulted = false := by
  decide +kernel

theorem witness_AdmissionPlacesARecord_overstays :
    (⟨7, .contractor, ⟨1, 1⟩, true, 4, none, true⟩ : Entrant).overstay = true ∧
    (⟨7, .contractor, ⟨1, 1⟩, true, 4, none, false⟩ : Entrant).overstay = false ∧ (escortIn true {}).awake = true := by decide +kernel

theorem witness_AdmissionPlacesARecord_ofAPair :
    ((escortIn true {}).locateIn 5 (escortIn true {}).inUseRecords ≠ none) ∧
    ((escortIn true {}).locateIn 7 (escortIn true {}).inUseRecords = none ∧
      (escortIn true {}).locateIn 8 (escortIn true {}).inUseRecords = none ∧
      (escortIn true {}).occupancy 3 + 2 ≤ 4 ∧ (escortIn true {}).freeRecords 2 = [3, 4]) ∧
    ((roomed .opened .inService (inside true State.reset)).undamaged = true ∧
      (roomed .opened .inService (inside true State.reset)).tablesWf = true ∧
      ((roomed .opened .inService (inside true State.reset)).room 3).view = .readable false ⟨9, .opened, 2, 0, false⟩ ∧
      2 < (roomed .opened .inService (inside true State.reset)).occupancy 3 + 2) := by decide +kernel

theorem witness_AdmissionPlacesARecord_poolFull :
    fullPool.undamaged = true ∧ fullPool.tablesWf = true ∧
    (fullPool.room 3).view = .readable false ⟨9, .opened, 2, 0, false⟩ ∧ fullPool.occupancy 3 + 2 ≤ 2 ∧
    fullPool.locateIn 5 fullPool.inUseRecords = none ∧ fullPool.freeRecords 1 = [] ∧ fullPool.freeRecords 2 = [] := by
  decide +kernel

theorem witness_WaitingTimesAreSet :
    (∀ v ∈ [(4 : Word), 5, 120, 121], (args { arg0 := v } State.reset).accepts = true ∧
      (args { arg0 := v } State.reset).pairWindow.clean = true) ∧
    (∀ v ∈ [(9 : Word), 10, 300, 301], (args { arg0 := v } State.reset).accepts = true ∧
      (args { arg0 := v } State.reset).referralTimeout.clean = true) ∧
    ((paired false 5 (args { arg0 := 4 } State.reset)).accepts = true ∧ field (4 : Word) 0 8 = 4 ∧
      (paired false 5 (args { arg0 := 4 } State.reset)).pair 1 = some (context false 5) ∧ (context false 5).station = 4) := by
  simp only [List.forall_mem_cons, List.not_mem_nil, IsEmpty.forall_iff, implies_true]
  decide +kernel

theorem witness_ExpiryAndTimeoutDeny :
    (∀ held ∈ [true, false], ∀ n ∈ [0, 1], (paired held n State.reset).awake = true ∧
      (paired held n State.reset).pair 1 = some (context held n)) ∧
    (∀ st ∈ [ApprovalState.opening, .waiting, .taken, .answering], ∀ n ∈ [0, 1],
      ({ State.reset with referrals := [hotCard, approval st n none] } : State).awake = true ∧
      ({ State.reset with referrals := [hotCard, approval st n none] } : State).referrals =
        [hotCard] ++ approval st n none :: [] ∧
      (∀ x ∈ [hotCard] ++ [], x.reference ≠ (approval st n none).reference)) := by decide +kernel

theorem witness_TakeReferralAndClearHotCard :
    (({ args { arg0 := 8 } State.reset with referrals := [approval .waiting 5 none, hotCard] } : State).accepts = true ∧
      (∀ x ∈ [approval .waiting 5 none] ++ [], x.reference ≠ hotCard.reference ∧ x.isApproval = true) ∧
      field (8 : Word) 0 16 = hotCard.reference) ∧
    (({ State.reset with referrals := [approval .taken 5 none, { approval .waiting 9 none with reference := 9 }] } :
        State).accepts = true ∧
      (∀ x ∈ [approval .taken 5 none] ++ [], x.reference ≠ 9 ∧ x.isWaiting = false) ∧
      (∀ x ∈ [approval .taken 5 none, { approval .waiting 9 none with reference := 9 }], x.isApproval = true)) ∧
    (∀ x ∈ [approval .taken 5 none], x.isApproval = true ∧ x.isWaiting = false) := by decide +kernel

theorem witness_AnswerReferralOnATakenApproval :
    (∀ w ∈ [(0x00010000 : Word), 0x00000007, 0x00030007], (args { arg0 := w } State.reset).accepts = true ∧
      (field w 0 16 = 0 ∨ (field w 16 2 ≠ 1 ∧ field w 16 2 ≠ 2))) ∧
    (∀ w ∈ [(0x00010007 : Word), 0x00020007], ∀ st ∈ [ApprovalState.opening, .waiting, .taken, .answering],
      ({ args { arg0 := w } State.reset with referrals := [hotCard, approval st 5 none] } : State).accepts = true ∧
      field w 0 16 = (approval st 5 none).reference ∧ (field w 16 2 = 1 ∨ field w 16 2 = 2) ∧
      (∀ x ∈ [hotCard] ++ [], x.reference ≠ 7)) := by
  refine ⟨?_, ?_⟩
  · simp only [List.forall_mem_cons, List.not_mem_nil, IsEmpty.forall_iff, implies_true]
    decide +kernel
  · intro w hw st hst
    simp only [List.mem_cons, List.not_mem_nil, or_false] at hw hst
    rcases hw with rfl | rfl <;> rcases hst with rfl | rfl | rfl | rfl <;> decide +kernel

theorem witness_BarListIsKeptInOrder :
    ((barred24 (args { arg0 := 4 } State.reset)).accepts = true ∧ (barred24 (args { arg0 := 4 } State.reset)).undamaged = true ∧
      (barred24 (args { arg0 := 4 } State.reset)).barHeader.value.doubtful = false ∧
      (barred24 (args { arg0 := 4 } State.reset)).barSorted ∧ (barred24 (args { arg0 := 4 } State.reset)).onBarList 4) ∧
    ((barred24 (args { arg0 := 3 } State.reset)).accepts = true ∧ (barred24 (args { arg0 := 3 } State.reset)).barSorted ∧
      ¬ (barred24 (args { arg0 := 3 } State.reset)).onBarList 3 ∧
      (barred24 (args { arg0 := 3 } State.reset)).barEntries.length < 256) ∧
    ((barFull State.reset).barSorted ∧ ¬ (barFull State.reset).onBarList 1000 ∧
      256 ≤ (barFull State.reset).barEntries.length) ∧
    (({ args { arg0 := 4 } State.reset with barHeader := .of ⟨0, true, []⟩ } : State).undamaged = true ∧
      ({ args { arg0 := 4 } State.reset with barHeader := .of ⟨0, true, []⟩ } : State).barHeader.value.doubtful = true) := by
  refine ⟨⟨by decide, by decide, by decide, ⟨by simp [barred24], by decide⟩, .of 4, by decide, rfl⟩,
    ⟨by decide, ⟨by simp [barred24], by decide⟩, ?_, by decide⟩, test_bar_full, by decide⟩
  rintro ⟨e, h, he⟩
  simp only [barred24, List.mem_cons, List.not_mem_nil, or_false] at h
  rcases h with rfl | rfl <;> cases he

theorem witness_ReadAndClearBarList : ∀ v ∈ [(0 : Word), 1, 256, 257],
    (barred24 (args { arg0 := v } State.reset)).accepts = true ∧ (barred24 (args { arg0 := v } State.reset)).undamaged = true ∧
    (barred24 (args { arg0 := v } State.reset)).barHeader.value.count =
      (barred24 (args { arg0 := v } State.reset)).barEntries.length ∧
    (field v 0 9 = 0 ∨ 256 < field v 0 9 ∨ (1 ≤ field v 0 9 ∧ field v 0 9 ≤ 256)) := by
  simp only [List.forall_mem_cons, List.not_mem_nil, IsEmpty.forall_iff, implies_true]
  decide +kernel

theorem witness_LinkIsConfiguredStartedAndStopped :
    (({ State.reset with linkState := .running } : State).accepts = true ∧
      ({ State.reset with linkState := .running } : State).linkState ≠ .stopped) ∧
    (∀ w ∈ [(0x01041000 : Word), 0x01041020, 0x01040F01, 0x01031001, 0x01FB1001, 0x00041001],
      (args { arg0 := w } State.reset).linkState = .stopped ∧
      (field w 0 8 < 1 ∨ 31 < field w 0 8 ∨ field w 8 8 < 16 ∨ field w 16 8 < 4 ∨ 250 < field w 16 8 ∨ field w 24 8 < 1)) ∧
    (∀ w ∈ [(0x01041001 : Word), 0xFFFAFF1F], (args { arg0 := w } State.reset).accepts = true ∧
      1 ≤ field w 0 8 ∧ field w 0 8 ≤ 31 ∧ 16 ≤ field w 8 8 ∧ 4 ≤ field w 16 8 ∧ field w 16 8 ≤ 250 ∧ 1 ≤ field w 24 8) ∧
    ((bound .active State.reset).accepts = true ∧ (bound .active State.reset).tablesWf = true) := by
  simp only [List.forall_mem_cons, List.not_mem_nil, IsEmpty.forall_iff, implies_true]
  decide +kernel

theorem witness_ReadLinkAndReadStation : ∀ v ∈ [(0 : Word), 1, 31, 32],
    namesStation (bound .active (args { arg0 := v } State.reset)) (field v 0 8) := by
  unfold namesStation
  simp only [List.forall_mem_cons, List.not_mem_nil, IsEmpty.forall_iff, implies_true]
  decide +kernel

theorem witness_BindAndSetStation :
    (∀ w ∈ [({ arg0 := 0 } : Window), { arg0 := 32 }, { arg0 := 4, arg1 := 64 }],
      namesStation (args w State.reset) (field w.arg0 0 8)) ∧
    (namesStation (args { arg0 := 31, arg1 := 63 } State.reset) 31 ∧
      ((args { arg0 := 31, arg1 := 63 } State.reset).room 63).header.value = .undefined) ∧
    (namesStation (roomed .opened .faulted (args { arg0 := 4, arg1 := 3 } State.reset)) 4 ∧
      ((roomed .opened .faulted (args { arg0 := 4, arg1 := 3 } State.reset)).room 3).header.value = .faulted) ∧
    (namesStation (roomed .opened .inService (args { arg0 := 4, arg1 := 3 } State.reset)) 4 ∧
      ((roomed .opened .inService (args { arg0 := 4, arg1 := 3 } State.reset)).station 4).header.value = false ∧
      ((roomed .opened .inService (args { arg0 := 4, arg1 := 3 } State.reset)).station 4).body.value.binding = none ∧
      ((roomed .opened .inService (args { arg0 := 4, arg1 := 3 } State.reset)).boundAmong 3 (numbersFrom 1 31)).length < 2) ∧
    (namesStation (bound .active (args { arg0 := 4, arg1 := 3 } State.reset)) 4 ∧
      ((bound .active (args { arg0 := 4, arg1 := 3 } State.reset)).station 4).body.value.binding ≠ none ∧
      field (3 : Word) 0 8 ≤ 3) := by
  unfold namesStation
  decide +kernel

theorem witness_UnbindStationNeedsNoWork :
    (∀ v ∈ [(0 : Word), 32], namesStation (args { arg0 := v } State.reset) (field v 0 8)) ∧
    (namesStation (args { arg0 := 1 } State.reset) 1 ∧ ((args { arg0 := 1 } State.reset).station 1).header.value = false ∧
      ((args { arg0 := 1 } State.reset).station 1).body.value.binding = none) ∧
    (namesStation (bound .active (args { arg0 := 4 } State.reset)) 4 ∧
      ((bound .active (args { arg0 := 4 } State.reset)).station 4).body.value.binding ≠ none ∧
      ¬ (bound .active (args { arg0 := 4 } State.reset)).holdsWorkOf 4) ∧
    ({ bound .active (args { arg0 := 4 } State.reset) with requests := [⟨4, 1, .outside, 5⟩] } : State).holdsWorkOf 4 := by
  unfold namesStation
  simp only [List.forall_mem_cons, List.not_mem_nil, IsEmpty.forall_iff, implies_true]
  refine ⟨by decide, by decide, ⟨by decide, by decide, ?_⟩, Or.inl ⟨⟨4, 1, .outside, 5⟩, by decide, rfl⟩⟩
  rintro (⟨_, h, _⟩ | ⟨_, _, h, _⟩ | ⟨_, _, _, _, h, _⟩ | ⟨_, h, _⟩ | ⟨_, h, _⟩) <;> cases h

/-- A permit to send, with its record UNSENT. -/
def sending (l : LinkState) : State :=
  { inside false (bound .active State.reset) with linkState := l, verdicts := [permit] }

theorem witness_MarkHandsOverEightVerdicts : ∀ l ∈ [LinkState.running, .recovering, .stopped],
    (sending l).awake = true ∧ (sending l).undamaged = true ∧ (sending l).tablesWf = true ∧ (sending l).linkState = l ∧
    (sending l).cyclePlace = .markDue := by decide +kernel

/-- The permit to send with a condition on its record, or with none. -/
def alerting (c : Conditions) : State :=
  (sending .running).setRecord 1 ⟨.of ⟨true, 3, 1, .contractor, false, true, false⟩, .of ⟨5, some ⟨1, 1⟩, now, 4, none, c⟩⟩

theorem witness_MarkHandsOverEightVerdicts_alerts :
    (alerting { Conditions.none with grantRevoked := true }).alertsWhenSent 1 ∧
    (alerting { Conditions.none with barred := true }).alertsWhenSent 1 ∧
    (alerting { Conditions.none with grantCleared := true }).alertsWhenSent 1 ∧
    ¬ ∃ id, (alerting .none).alertsWhenSent id := by
  refine ⟨⟨⟨permit, by decide, _, rfl, by decide⟩, by decide, by decide, by decide⟩,
    ⟨⟨permit, by decide, _, rfl, by decide⟩, by decide, by decide, by decide⟩,
    ⟨⟨permit, by decide, _, rfl, by decide⟩, by decide, by decide, by decide⟩, ?_⟩
  rintro ⟨id, ⟨e, he, p, hp, hid⟩, _, _, hc⟩
  have he' : e = permit := List.mem_singleton.mp he
  subst he'
  cases hp
  have hid' : id = 1 := List.mem_singleton.mp hid
  subst hid'
  revert hc
  decide

theorem witness_TurnsStartEndAndFail :
    (∀ st ∈ [StationState.silent, .active, .lost, .jabbering, .faulted], ∀ heard ∈ [true, false],
      (turn 1 heard (bound st State.reset)).inTurn 4 1 heard ∧ (turn 1 heard (bound st State.reset)).undamaged = true ∧
      (turn 1 heard (bound st State.reset)).tablesWf = true ∧
      ((turn 1 heard (bound st State.reset)).station 4).state = st) ∧
    (∀ st ∈ [StationState.active, .jabbering],
      ({ bound st State.reset with linkState := .running, cyclePlace := .turnDue 4 } : State).awake = true ∧
      ({ bound st State.reset with linkState := .running, cyclePlace := .turnDue 4 } : State).undamaged = true ∧
      ({ bound st State.reset with linkState := .running, cyclePlace := .turnDue 4 } : State).tablesWf = true) ∧
    ((23 : Nat) + 1 = State.reset.linkConfig.value.missedLimit) := by
  unfold State.inTurn
  decide +kernel

theorem witness_RequestIntakeClassifies :
    (∀ left ∈ [1, 2], ∀ s ∈ [State.reset, answeredAt false State.reset, answeredAt true State.reset,
        { State.reset with unbindHold := some 4 }, { State.reset with requests := List.replicate 16 ⟨4, 1, .outside, 5⟩ },
        { answeredAt true State.reset with verdicts := List.replicate 48 permit }],
      (turn left false s).inTurn 4 left false ∧ (turn left false s).undamaged = true ∧ (turn left false s).tablesWf = true) := by
  unfold State.inTurn
  decide +kernel

theorem witness_ReportsAndOtherFrames : ∀ st ∈ [StationState.silent, .active, .lost, .faulted], ∀ left ∈ [1, 2],
    (turn left true (bound st State.reset)).inTurn 4 left true ∧
    (turn left true (bound st State.reset)).undamaged = true ∧ (turn left true (bound st State.reset)).tablesWf = true ∧
    ((turn left true (bound st State.reset)).station 4).state = st ∧
    (5 : Nat) ≠ 4 ∧ ¬ startDelimiter <:+: preamble ∧ startDelimiter <:+: startDelimiter ∧
    (∀ j ignored f behind, startDelimiter ≠ FrameContent.sentBy j ignored f ++ behind) := by
  unfold State.inTurn
  intro st hst left h
  have hf : ∀ j ignored f behind, startDelimiter ≠ FrameContent.sentBy j ignored f ++ behind := fun j ignored f behind h => by
    have := congrArg List.length h
    simp [FrameContent.sentBy, onLine, startDelimiter, preamble, byteHalfBits, byteBits, halfBits] at this
  fin_cases hst <;> fin_cases h <;>
    exact ⟨by decide, by decide, by decide, by decide, by decide, by decide, List.infix_rfl, hf⟩

theorem witness_SetModeMovesTheOverride :
    (∀ v ∈ [(0 : Word), 3], (args { arg0 := v } State.reset).accepts = true ∧ field v 0 2 ≠ 1 ∧ field v 0 2 ≠ 2) ∧
    (field (2 : Word) 0 2 = 2 ∧ (args { arg0 := 2 } State.reset).override = false) ∧
    (field (1 : Word) 0 2 = 1 ∧ (args { arg0 := 1 } State.reset).override ≠ true ∧ (.lockdown : BuildingMode) ≠ .normal ∧
      (.lockdown : BuildingMode) ≠ (args { arg0 := 1 } State.reset).mode) ∧
    (({ args { arg0 := 1 } State.reset with fireLevel := true, mode := .fire } : State).accepts = true ∧
      (.fire : BuildingMode) = ({ args { arg0 := 1 } State.reset with fireLevel := true, mode := .fire } : State).mode) ∧
    (({ args { arg0 := 2 } State.reset with override := true, mode := .lockdown } : State).override ≠ false ∧
      (.normal : BuildingMode) ≠ ({ args { arg0 := 2 } State.reset with override := true, mode := .lockdown } : State).mode) := by
  simp only [List.forall_mem_cons, List.not_mem_nil, IsEmpty.forall_iff, implies_true]
  decide +kernel

theorem witness_LineLevelsDeriveTheMode :
    ({ State.reset with supply := .retainedOnly } : State).awake = false ∧ State.reset.awake = true ∧
    (.normal : BuildingMode) = State.reset.mode ∧ (.fire : BuildingMode) ≠ State.reset.mode := by decide +kernel

theorem witness_HealthAndTamperCommands : ∀ t ∈ [Tamper.idle, ⟨true, true, false, 5⟩, ⟨true, false, true, 1⟩, ⟨true, false, false, 1⟩],
    ({ State.reset with tamper := .of t } : State).accepts = true ∧ ({ State.reset with tamper := .of t } : State).tamper.clean = true ∧
    ({ State.reset with tamper := .of t } : State).health.clean = true ∧
    ({ State.reset with tamper := .of t } : State).tamper.value = t := by decide +kernel

theorem witness_TamperClearEmptiesTheGrantTable :
    (∀ s ∈ [State.reset, { State.reset with tamperLine := true }, { State.reset with tamper := .of ⟨true, true, false, 5⟩ },
        { State.reset with supply := .retainedOnly }, { State.reset with resetLow := true },
        working (.reset 0x7F) State.reset], s.tamper.clean = true ∧ s.deferred.clean = true) ∧
    ((working (.reset 0x7F) State.reset).supply = .full ∧ (working (.reset 0x7F) State.reset).awake = false ∧
      ({ State.reset with resetLow := true } : State).awake = false) ∧
    (∀ t ∈ [Tamper.idle, ⟨true, true, false, 1025⟩, ⟨true, true, false, 1⟩, ⟨true, true, false, 1024⟩, ⟨true, true, true, 1024⟩],
      ({ granted .active State.reset with tamper := .of t } : State).undamaged = true ∧
      ({ granted .active State.reset with tamper := .of t } : State).tablesWf = true ∧
      ({ granted .active State.reset with tamper := .of t } : State).tamper.value = t) ∧
    (∀ o ∈ State.reset.notices, o.notice ≠ .tamper) ∧
    State.reset.work ≠ some (.reset 0x7B) ∧ (working (.reset 0x7B) State.reset).work = some (.reset 0x7B) ∧
    ∃ o ∈ ({ State.reset with notices := [⟨.presencePool, .tamper, false⟩] } : State).notices, o.notice = .tamper := by
  decide +kernel

theorem witness_ClearRetainedClearsEverything :
    ((working (.reset 0x7B) (inside true (granted .active State.reset))).portOn = true ∧
      (working (.reset 0x7B) (inside true (granted .active State.reset))).work = some (.reset 0x7B)) ∧
    (inside true (granted .active State.reset)).accepts = true ∧
    (∀ t ∈ [Tamper.idle, ⟨true, true, false, 5⟩], ({ State.reset with tamper := .of t } : State).accepts = true ∧
      ({ State.reset with tamper := .of t } : State).tamper.clean = true) ∧
    (∀ o ∈ (inside true (granted .active State.reset)).notices, o.receiver = .presencePool → o.notice ≠ .tamper) := by
  decide +kernel

theorem witness_ResetsAndSupply :
    (∀ s ∈ [inside false (granted .active State.reset), { State.reset with resetLow := true },
        { State.reset with supply := .retainedOnly }, { State.reset with supply := .retainedOnly, checkPattern := false }],
      s.undamaged = true ∧ s.tablesWf = true) ∧
    (inside false (granted .active State.reset)).accepts = true ∧
    ({ State.reset with resetLow := true } : State).supply = .full ∧
    ({ State.reset with supply := .retainedOnly } : State).seat = none := by decide +kernel

/-- A device reset and a supply return with UNSENT and SENT records, claims in hand, deferred causes, a tamper marking due or a clear
that ends, and RESETn high or low. -/
theorem witness_ResetsAndSupply_retained :
    (∀ s ∈ [mixed, { mixed with notices := [⟨.presencePool, .tamper, false⟩], tamper := .of ⟨true, true, false, 1025⟩ },
        { mixed with tamper := .of ⟨true, true, true, 1025⟩ },
        { mixed with seat := some { hand .outside .claimFirst .paired with claims := [⟨⟨1, 1⟩, true⟩] } }],
      s.accepts = true ∧ s.undamaged = true ∧ s.tablesWf = true ∧
      (s.index 1).inUse = true ∧ (s.index 1).sent = false ∧ (s.index 2).inUse = true ∧ (s.index 2).sent = true ∧
      (s.index 3).inUse = false) ∧
    (∀ low ∈ [true, false], ∀ pattern ∈ [true, false],
      ({ mixed with supply := .retainedOnly, resetLow := low, checkPattern := pattern, deferred := .of 0x1000 } : State).supply =
        .retainedOnly ∧
      ({ mixed with supply := .retainedOnly, resetLow := low, checkPattern := pattern, deferred := .of 0x1000 } : State).undamaged =
        true ∧
      ({ mixed with supply := .retainedOnly, resetLow := low, checkPattern := pattern, deferred := .of 0x1000 } : State).tablesWf =
        true) ∧
    (0x1000 : Word).getLsbD Cause.tamper.bit = true ∧ mixed.supply = .full := by
  simp only [List.forall_mem_cons, List.not_mem_nil, IsEmpty.forall_iff, implies_true]
  decide +kernel

theorem witness_ResetPinAndSupplyFailure_cutWalks :
    (∀ n ∈ [Notice.revoke ⟨1, 1⟩, .bar 5, .unbar 5, .overstay ⟨1, 1⟩, .tamper],
      ({ inside true State.reset with notices := [⟨.presencePool, n, false⟩] } : State).awake = true ∧
      ({ inside true State.reset with notices := [⟨.presencePool, n, false⟩] } : State).undamaged = true ∧
      ({ inside true State.reset with notices := [⟨.presencePool, n, false⟩] } : State).tablesWf = true ∧
      ({ inside true State.reset with notices := [⟨.presencePool, n, false⟩] } : State).markedTo = 0 ∧
      ({ inside true State.reset with notices := [⟨.presencePool, n, false⟩] } : State).oldest [] .presencePool n false [] ∧
      (∃ w, n.walk = some w)) ∧ (∀ o ∈ ([] : List Outstanding) ++ [], o.receiver ≠ .presencePool ∧ o.receiver ≠ .decisionEngine) ∧
    ((inside true State.reset).seat = none ∧ (inside true State.reset).work = none ∧
      (inside true State.reset).linkState = .stopped) ∧
    (inside true State.reset).cutDue = false ∧
    (∀ id ∈ (inside true State.reset).inUseRecords, ((inside true State.reset).index id).sent = true) := by
  refine ⟨?_, by decide, by decide, by decide, by decide⟩
  intro n hn
  refine ⟨rfl, rfl, rfl, rfl, ⟨rfl, fun o h => by cases h⟩, ?_⟩
  simp only [List.mem_cons, List.not_mem_nil, or_false] at hn
  rcases hn with rfl | rfl | rfl | rfl | rfl <;> exact ⟨_, rfl⟩

/-- Operations on many records that a failure can cut: of the Decision Engine, of a decision, of commands, of a MARK. -/
theorem witness_ResetPinAndSupplyFailure_cutOperations :
    (∀ n ∈ [Notice.revoke ⟨1, 1⟩, .bar 5, .mode .lockdown, .tamper, .loss 4, .stop],
      ({ permitted 3 State.reset with notices := [⟨.decisionEngine, n, false⟩] } : State).awake = true ∧
      ({ permitted 3 State.reset with notices := [⟨.decisionEngine, n, false⟩] } : State).undamaged = true ∧
      ({ permitted 3 State.reset with notices := [⟨.decisionEngine, n, false⟩] } : State).tablesWf = true ∧
      ({ permitted 3 State.reset with notices := [⟨.decisionEngine, n, false⟩] } : State).oldest [] .decisionEngine n false [] ∧
      (∃ w, n.engineWalk = some w)) ∧
    (∀ d ∈ [{ hand .outside .room .opened with abandoned := true }, { hand .outside .placement .opened with mark := some .revoked },
        { hand .outside (.answerEnd (some .barred)) .referred with work := .answer 7 }, hand .outside .escortRead .escorted],
      (handed d (permitted 3 State.reset)).awake = true ∧ (handed d (permitted 3 State.reset)).undamaged = true ∧
      (handed d (permitted 3 State.reset)).tablesWf = true ∧
      (d.abandoned = true ∨ (d.phase = .placement ∧ (handed d (permitted 3 State.reset)).placementReason d ≠ none) ∨
        (d.work = .answer 7 ∧ d.phase = .answerEnd (some .barred)) ∨
        (d.phase = .escortRead ∧ (State.reset.room d.room).view = .undefined))) ∧
    (∀ w ∈ [CommandWork.handed 0x37, .handed 0x4B, .reset 0x7F, .reset 0x7B], ∀ r ∈ [0, 3, 63],
      let s := working w { twoInside.setRoom r ⟨.of .inService, .of ⟨9, .opened, 2, 0, true⟩⟩ with
        window := { arg0 := BitVec.ofNat 32 r } };
      s.portOn = true ∧ s.undamaged = true ∧ s.tablesWf = true ∧ s.work = some w ∧ r = field s.window.arg0 0 8 ∧
        (s.room r).header.value ≠ .undefined ∧ ∀ id ∈ s.inUseRecords, (s.index id).room = r → (s.index id).sent = true) ∧
    (let s := { permitted 3 State.reset with linkState := .running };
      s.awake = true ∧ s.undamaged = true ∧ s.tablesWf = true ∧ s.linkState = .running ∧ s.cyclePlace = .markDue) := by
  refine ⟨?_, by decide +kernel, by decide +kernel, by decide +kernel⟩
  intro n hn
  refine ⟨rfl, rfl, rfl, ⟨rfl, fun o h => by cases h⟩, ?_⟩
  simp only [List.mem_cons, List.not_mem_nil, or_false] at hn
  rcases hn with rfl | rfl | rfl | rfl | rfl | rfl <;> exact ⟨_, rfl⟩

/-- A removal of the last escort by the host, named by its credential and by its place, and the admission of an escort. -/
theorem witness_ResetPinAndSupplyFailure_cutUnescorted :
    (∀ w ∈ [({ arg0 := 3, arg1 := 5 } : Window), { arg0 := 0x103, arg1 := 1 }],
      let s := working (.handed 0x36) (escortIn false w);
      s.undamaged = true ∧ s.tablesWf = true ∧ s.portOn = true ∧ s.work = some (.handed 0x36) ∧ roomArg s.window = 3 ∧
        (s.room 3).view = .readable false ⟨9, .escorted, 4, 1, false⟩ ∧
        (s.window.arg0.getLsbD 8 = true → 1 ≤ s.window.arg1.toNat ∧ s.window.arg1.toNat ≤ 32) ∧
        (s.window.arg0.getLsbD 8 = false → (s.window.arg2.truncate 8 ++ s.window.arg1 : BitVec 40) ≠ 0) ∧
        namedRecord s 3 = some 1 ∧ (s.index 1).sent = true ∧ (s.index 1).role = .escort ∧ s.contractors 3 = [2]) ∧
    (let d := { hand .outside .admission .escorted with
        credential := 8, claims := [⟨⟨1, 1⟩, true⟩], own := ⟨2, .none, some (⟨1, 1⟩, .escort)⟩ };
      let s := handed d (escortIn true {});
      s.undamaged = true ∧ s.tablesWf = true ∧ s.awake = true ∧ s.seat = some d ∧ d.abandoned = false ∧ d.holding = .none ∧
        (s.room 3).view = .readable false ⟨9, .escorted, 4, 1, false⟩ ∧
        (admission 3 [⟨8, .escort, ⟨1, 1⟩, true, 4, none, false⟩] s).1 = .ok [3] ∧ s.roomRecords 3 = [1, 2]) := by
  decide +kernel

theorem witness_NoticesAreTaken : ∀ b ∈ [Block.pairTable, .referralQueue, .decisionEngine, .requestQueue],
    ({ State.reset with notices := [⟨.pairTable, .mode .fire, false⟩, ⟨b, .loss 4, false⟩] } : State).awake = true ∧
    ({ State.reset with notices := [⟨.pairTable, .mode .fire, false⟩, ⟨b, .loss 4, false⟩] } : State).undamaged = true ∧
    ({ State.reset with notices := [⟨.pairTable, .mode .fire, false⟩, ⟨b, .loss 4, false⟩] } : State).tablesWf = true ∧
    ({ State.reset with notices := [⟨.pairTable, .mode .fire, false⟩, ⟨b, .loss 4, false⟩] } : State).queuesOk = true ∧
    ({ State.reset with notices := [⟨.pairTable, .mode .fire, false⟩, ⟨b, .loss 4, false⟩] } : State).oldest
      [⟨.pairTable, .mode .fire, false⟩] b (.loss 4) false [] ∧
    (pairClosure (.loss 4)).isSome = true ∧ (approvalClosure (.loss 4)).isSome = true := by
  intro b hb
  refine ⟨rfl, rfl, rfl, rfl, test_oldest_notice b (by fin_cases hb <;> decide), rfl, rfl⟩

theorem witness_EngineAndPoolNotices : ∀ b ∈ [Block.decisionEngine, .presencePool],
    ({ inside true State.reset with notices := [⟨b, .revoke ⟨1, 1⟩, true⟩] } : State).awake = true ∧
    ({ inside true State.reset with notices := [⟨b, .revoke ⟨1, 1⟩, true⟩] } : State).undamaged = true ∧
    ({ inside true State.reset with notices := [⟨b, .revoke ⟨1, 1⟩, true⟩] } : State).tablesWf = true ∧
    ({ inside true State.reset with notices := [⟨b, .revoke ⟨1, 1⟩, true⟩] } : State).oldest [] b (.revoke ⟨1, 1⟩) true [] ∧
    (withdrawal (.revoke ⟨1, 1⟩)).isSome = true := by
  intro b _
  exact ⟨rfl, rfl, rfl, ⟨rfl, fun o h => by cases h⟩, rfl⟩

/-- Every kind of notice to the Decision Engine and the Presence Pool, of a command or not. -/
theorem witness_EngineAndPoolNotices_kinds :
    ∀ n ∈ [Notice.revoke ⟨1, 1⟩, .bar 5, .unbar 5, .overstay ⟨1, 1⟩, .mode .lockdown, .mode .fire, .tamper], ∀ cmd ∈ [true, false],
    ∀ b ∈ [Block.decisionEngine, .presencePool],
      ({ working (.revoke ⟨0, 0, 0⟩) mixed with verdicts := [permit], notices := [⟨b, n, cmd⟩] } : State).awake = true ∧
      ({ working (.revoke ⟨0, 0, 0⟩) mixed with verdicts := [permit], notices := [⟨b, n, cmd⟩] } : State).undamaged = true ∧
      ({ working (.revoke ⟨0, 0, 0⟩) mixed with verdicts := [permit], notices := [⟨b, n, cmd⟩] } : State).tablesWf = true ∧
      ({ working (.revoke ⟨0, 0, 0⟩) mixed with verdicts := [permit], notices := [⟨b, n, cmd⟩] } : State).oldest [] b n cmd [] ∧
      (n ∈ [Notice.revoke ⟨1, 1⟩, .bar 5, .mode .lockdown, .tamper] → (withdrawal n).isSome = true) := by
  intro n hn cmd _ b _
  refine ⟨rfl, rfl, rfl, ⟨rfl, fun o h => by cases h⟩, ?_⟩
  fin_cases hn <;> decide

/-- The decision in hand is marked for its own card or the first card of a completion, or not at all. -/
theorem witness_EngineAndPoolNotices_decides :
    (completing .firstBar (context true 5)).decides (completer .firstBar) 6 ∧
    (completing .firstBar (context true 5)).decides (completer .firstBar) 5 ∧
    ¬ (completing .firstBar (context true 5)).decides (completer .firstBar) 7 ∧ (completer .firstBar).mark = none ∧
    (completing .firstBar (context true 5)).seat = some (completer .firstBar) ∧ (completing .firstBar (context true 5)).undamaged = true := by
  refine ⟨Or.inl rfl, Or.inr ⟨1, _, rfl, rfl, rfl⟩, ?_, rfl, rfl, by decide +kernel⟩
  rintro (h | ⟨k, x, h, hx, hc⟩)
  · exact absurd h (by decide)
  · cases h
    cases hx
    exact absurd hc (by decide)

/-- An entry's decision with its claim in hand and no record yet, and one in a completion. -/
def claimant : Decision :=
  { hand .outside .admission .opened with claims := [⟨⟨1, 1⟩, true⟩], own := ⟨2, .none, some (⟨1, 1⟩, .contractor)⟩ }

/-- The overstay notice of the lapse that follows a claim is outstanding before its admission. -/
def lapsedMeanwhile (d : Decision) : State :=
  { handed d (granted .lapsed (site .opened)) with notices := [⟨.presencePool, .overstay ⟨1, 1⟩, false⟩] }

theorem witness_PresencePoolTakesNotices_inHand :
    (lapsedMeanwhile claimant).awake = true ∧ (lapsedMeanwhile claimant).undamaged = true ∧ (lapsedMeanwhile claimant).tablesWf = true ∧
    (lapsedMeanwhile claimant).oldest [] .presencePool (.overstay ⟨1, 1⟩) false [] ∧ (lapsedMeanwhile claimant).seat = some claimant ∧
    claimant.records = [] ∧ (∃ c ∈ claimant.claims, c.handle = ⟨1, 1⟩) ∧ State.reset.seat = none :=
  ⟨rfl, by decide, by decide, ⟨rfl, fun o h => by cases h⟩, rfl, rfl, ⟨_, .head _, rfl⟩, rfl⟩

/-- Claim first, then the lapse and its notice, then the admission: the record carries OVERSTAY, with PRESENCE ALERT (R42, R44). -/
theorem test_overstay_reaches_a_claim_in_hand :
    (match execOverstayNotice (lapsedMeanwhile claimant) with
      | .next t => decide (t.seat = some { claimant with overstayed := [⟨1, 1⟩] }) && decide (t.attention = 0) &&
          (match execTakeRequest (some 1) t with
            | .next u => (u.record 1).body.value.conditions.overstay && u.latched .presenceAlert && decide ((u.index 1).sent = false)
            | .fault _ | .refused _ => false)
      | .fault _ | .refused _ => false) = true := by decide +kernel

/-- A claim that is given back forgets the notice. -/
theorem test_overstay_leaves_with_the_claim :
    (undoHand { claimant with overstayed := [⟨1, 1⟩] } State.reset).1 = { claimant with claims := [] } := by rfl

/-- The marking clears a SENT record or none, and walks change and count records or none. -/
theorem witness_EngineAndPoolNotices_counts :
    (inside true State.reset).clearsASentRecord ∧ ¬ (inside false State.reset).clearsASentRecord ∧
    (inside true State.reset).changedBy (.overstay ⟨1, 1⟩) = [1] ∧ (inside true State.reset).changedBy (.overstay ⟨1, 2⟩) = [] ∧
    (inside true State.reset).countedBy (.revoke ⟨1, 1⟩) = [1] ∧ (inside false State.reset).countedBy (.revoke ⟨1, 1⟩) = [] ∧
    (inside true State.reset).countedBy (.bar 5) = [1] ∧ (inside true State.reset).countedBy (.unbar 5) = [] := by
  unfold State.clearsASentRecord
  decide +kernel

theorem witness_SeatTakesTheHead :
    (asking .outside State.reset).headIs ⟨4, 2, .outside, 5⟩ [] ∧
    (State.reset.awake = true ∧ State.reset.undamaged = true ∧ State.reset.seat = none ∧ State.reset.requests = []) ∧
    (∃ d, ({ State.reset with seat := some d } : State).undamaged = true ∧ d.work = .request .outside ∧ d.abandoned = true ∧
      d.holding = .none ∧ d.claims = [] ∧ d.records = []) :=
  ⟨test_head.1, by decide, { Decision.ofRequest ⟨4, 2, .outside, 5⟩ now with abandoned := true }, by decide⟩

theorem witness_SeatTakesTheHead_stationQuery :
    (∀ c ∈ [context false 5, other false],
      (handed (hand .outside .stationQuery .paired) ((site .paired).setPair 1 (some c))).deciding
        (hand .outside .stationQuery .paired) .outside .stationQuery ∧
      (handed (hand .outside .stationQuery .paired) ((site .paired).setPair 1 (some c))).tablesWf = true ∧
      (handed (hand .outside .stationQuery .paired) ((site .paired).setPair 1 (some c))).queuesOk = true ∧
      (handed (hand .outside .stationQuery .paired) ((site .paired).setPair 1 (some c))).pair 1 = some c ∧ c.station = 4) ∧
    ((context false 5).credential = 5 ∧ (other false).credential ≠ 5) ∧
    (∀ side ∈ [Side.outside, .inside], ∀ refs ∈ [[], [hotCard, approval .waiting 5 none], [approval .answering 5 none]],
      ({ handed (hand side .stationQuery .paired) (site .paired) with
          referrals := refs, work := some (.answer 7) } : State).deciding (hand side .stationQuery .paired) side .stationQuery ∧
      ({ handed (hand side .stationQuery .paired) (site .paired) with
          referrals := refs, work := some (.answer 7) } : State).tablesWf = true ∧
      ({ handed (hand side .stationQuery .paired) (site .paired) with
          referrals := refs, work := some (.answer 7) } : State).queuesOk = true ∧
      (∀ e ∈ refs, ∀ e' ∈ refs, e = e' ∨ e.isAnswering = false ∨ e'.isAnswering = false) ∧
      ∀ e ∈ refs, ∀ h n cl, e.kind ≠ .approval h .opening n cl) ∧
    (∀ slot c, (site .paired).pair slot ≠ some c) ∧
    (∀ slot c, ((site .paired).setPair 1 (some (context false 5))).pair slot = some c → c.held = false) := by
  refine ⟨?_, by decide, ?_, ?_, ?_⟩
  · unfold State.deciding
    decide +kernel
  · intro side hs refs hr
    unfold State.deciding
    simp only [List.mem_cons, List.not_mem_nil, or_false] at hs hr
    rcases hs with rfl | rfl <;> rcases hr with rfl | rfl | rfl <;>
      refine ⟨by decide +kernel, by decide +kernel, by decide +kernel, by decide +kernel, ?_⟩ <;>
      intro e he h n cl hk <;> simp [hotCard, approval] at he <;> (try rcases he with rfl | rfl) <;> cases hk
  · intro slot c h
    cases h
  · intro slot c h
    have := (pair_of_one _ _ rfl _ _ h).2
    cases this
    rfl

theorem witness_SeatTakesTheHead_abandoned :
    ∀ requests ∈ [[], [(⟨4, 2, .outside, 5⟩ : Request)], [⟨4, 3, .outside, 5⟩]],
      ({ handed { hand .outside .room .opened with abandoned := true } State.reset with requests := requests } : State).awake = true ∧
      ({ handed { hand .outside .room .opened with abandoned := true } State.reset with requests := requests } : State).undamaged =
        true := by decide +kernel

theorem witness_EntryChecksDenyWithTheirReason_searchAndClaim :
    (∀ cursor ∈ [1, 1024, 1025], (handed { hand .outside .search .opened with own := ⟨cursor, .none, none⟩ } (site .opened)).checking
      { hand .outside .search .opened with own := ⟨cursor, .none, none⟩ } .search) ∧
    (site .opened).tablesWf = true ∧ (((site .opened).slot 1).header.value = ⟨.active, 1⟩ ∧ ((site .opened).slot 1).body.value = grant ∧
      grant.usable .active 5 9 now = true ∧ grant.usable .spent 5 9 now = false) ∧
    (∀ hold ∈ [none, some 1], ({ handed { hand .outside .claim .opened with own := ⟨2, .none, some (⟨1, 1⟩, .contractor)⟩ }
      (site .opened) with retireHold := hold } : State).checking
        { hand .outside .claim .opened with own := ⟨2, .none, some (⟨1, 1⟩, .contractor)⟩ } .claim) := by
  unfold State.checking
  decide +kernel

theorem witness_EntryChecksDenyWithTheirReason_completion :
    ∀ p ∈ [Phase.station, .room, .mode, .tamper, .clock, .barState, .barTest, .locate, .search, .firstBar, .firstLocate, .firstSearch, .count, .pool, .claimFirst, .claimSecond, .admission,
        .placement],
      (completing p (context true 5)).deciding (completer p) .outside p ∧ (completer p).holding = .completing 1 ∧
      (completing p (context true 5)).pair 1 = some (context true 5) ∧ (context true 5).held = true ∧
      (completing p (context true 5)).tablesWf = true := by
  unfold State.deciding
  decide +kernel

theorem witness_EntryChecksDenyWithTheirReason_completionCases :
    (({ completing .firstBar (context true 5) with mode := .fire } : State).mode = .fire) ∧
    (({ completing .firstBar (context true 5) with barHeader := .of ⟨0, true, []⟩ } : State).barHeader.value.doubtful = true) ∧
    (({ completing .firstBar (context true 5) with barHeader := .of ⟨1, false, []⟩, barEntries := [.of 5] } : State).barSorted ∧
      ({ completing .firstBar (context true 5) with barHeader := .of ⟨1, false, []⟩, barEntries := [.of 5] } :
        State).onBarList 5) ∧
    ((completing .firstBar (context true 5)).barSorted ∧ ¬ (completing .firstBar (context true 5)).onBarList 5) ∧
    ((completing .firstLocate (context true 5)).locateIn 5 (completing .firstLocate (context true 5)).inUseRecords = none ∧
      (inside true (completing .firstLocate (context true 5))).locateIn 5
        (inside true (completing .firstLocate (context true 5))).inUseRecords ≠ none) ∧
    ((completing .count (context true 5)).room 3).view = .readable false ⟨9, .paired, 2, 0, false⟩ ∧
    ((completing .count (context true 5)).occupancy 3 + 2 ≤ 2 ∧ 2 < (inside true (completing .count (context true 5))).occupancy 3 + 2 ∧
      2 ≤ ((completing .pool (context true 5)).freeRecords 2).length) ∧
    (∃ t, admission 3 [⟨5, .contractor, ⟨1, 1⟩, true, 4, some 6, false⟩, ⟨6, .contractor, ⟨1, 1⟩, true, 4, some 5, false⟩]
      (completing .admission (context true 5)) = (.ok [1, 2], t)) ∧
    (∀ c ∈ [none, some WithdrawalMark.barred], (completing .placement (context true 5)).placementReason
      { completer .placement with mark := c } = c.map WithdrawalMark.reason) := by
  refine ⟨rfl, rfl, ⟨⟨by simp, by decide⟩, .of 5, by decide, rfl⟩, ⟨⟨List.Pairwise.nil, by decide⟩, ?_⟩, by decide +kernel,
    by decide, by decide +kernel, ⟨_, rfl⟩, by decide⟩
  rintro ⟨e, h, _⟩
  cases h

/-- The request's own checks of a completion, failing and passing, and a refused admission of one record and of two
(no record free: witness_AdmissionPlacesARecord_poolFull). -/
theorem witness_EntryChecksDenyWithTheirReason_ownChecks :
    (∀ s ∈ [completing .station (context true 5),
        (completing .station (context true 5)).setStation 4 { Station.cleared with header := .of true, state := .faulted },
        (completing .station (context true 5)).setStation 4 Station.cleared, roomed .paired .closed (completing .station (context true 5)),
        roomed .paired .faulted (completing .station (context true 5)),
        (completing .station (context true 5)).setRoom 3 .cleared,
        { completing .station (context true 5) with tamper := .of ⟨true, false, false, 1⟩ },
        { completing .station (context true 5) with clock := .of .cleared },
        { completing .station (context true 5) with barHeader := .of ⟨1, false, []⟩, barEntries := [.of 6] },
        { completing .station (context true 5) with
          barHeader := .of ⟨1, false, []⟩, barEntries := [.of 6], referrals := List.replicate 4 hotCard },
        (inside true (completing .station (context true 5)))],
      s.deciding (completer .station) .outside .station ∧ s.pair 1 = some (context true 5) ∧ s.tablesWf = true) ∧
    (∀ s ∈ [(completing .station (context true 5)).setRoom 3 .cleared, roomed .paired .faulted (completing .station (context true 5))],
      (s.room 3).header.value = .undefined ∨ (s.room 3).header.value = .faulted) ∧
    (∀ s ∈ [(completing .station (context true 5)).setRoom 3 .cleared, roomed .paired .faulted (completing .station (context true 5))],
      (s.room 3).view = .undefined ∨ (s.room 3).view = .faulted) ∧
    (admission 3 [⟨5, .contractor, ⟨1, 1⟩, true, 4, some 6, false⟩, ⟨6, .contractor, ⟨1, 1⟩, true, 4, some 5, false⟩]
      (inside true (completing .admission (context true 5)))).1 = .error .passback ∧
    (admission 3 [⟨5, .contractor, ⟨1, 1⟩, true, 4, none, false⟩] (inside true (site .opened))).1 = .error .passback := by
  unfold State.deciding
  decide +kernel

/-- A HOT CARD of a first request and of a completion, while entries hold the counter's number. -/
theorem witness_EntryChecksDenyWithTheirReason_numberInUse (s c : State)
    (hs : s = numbered { deciding .barTest State.reset with barHeader := .of ⟨1, false, []⟩, barEntries := [.of 5] })
    (hc : c = numbered { completing .barTest (context true 5) with barHeader := .of ⟨1, false, []⟩, barEntries := [.of 6] }) :
    s.checking { Decision.ofRequest ⟨4, 2, .outside, 5⟩ now with phase := .barTest, room := 3 } .barTest ∧
    (c.deciding (completer .barTest) .outside .barTest ∧ (completer .barTest).holding = .completing 1 ∧
      c.pair 1 = some (context true 5)) ∧
    (∀ x ∈ [s, c], x.tablesWf = true ∧ x.barSorted ∧ x.barHeader.value.doubtful = false ∧ x.hotCards < 4 ∧ x.draws 1) ∧
    s.onBarList 5 ∧ c.onBarList 6 := by
  subst hs hc
  unfold State.checking State.deciding State.barSorted
  refine ⟨by decide, by decide, ?_, ⟨.of 5, .head _, rfl⟩, ⟨.of 6, .head _, rfl⟩⟩
  intro x hx
  simp only [List.mem_cons, List.not_mem_nil, or_false] at hx
  rcases hx with rfl | rfl <;> exact ⟨rfl, by decide, rfl, by decide, test_draws _⟩

theorem witness_ExitPlacesItsVerdict_heads : ∀ s ∈ [asking .inside State.reset, asking .inside (inside true State.reset),
      permitted 3 (asking .inside State.reset), permitted 2 (asking .inside State.reset),
      roomed .opened .faulted (asking .inside (inside true State.reset)),
      (asking .inside State.reset).setStation 4 { Station.cleared with header := .of true, state := .faulted },
      (asking .inside State.reset).setStation 4 Station.cleared],
    s.headIs ⟨4, 2, .inside, 5⟩ [] ∧ s.endedAt .requestQueue 4 = false ∧ s.tablesWf = true ∧ s.nothingOpenAt 4 := by
  intro s hs
  simp only [List.mem_cons, List.not_mem_nil, or_false] at hs
  rcases hs with rfl | rfl | rfl | rfl | rfl | rfl | rfl <;>
    refine ⟨⟨by decide +kernel, by decide +kernel, rfl, rfl, by decide +kernel, fun e h => by cases h⟩, rfl,
      by decide +kernel, ⟨fun slot c _ _ h => (by cases h), fun e h => (by cases h)⟩⟩

theorem witness_ExitPlacesItsVerdict :
    (((asking .inside State.reset).setStation 4 { Station.cleared with header := .of true, state := .faulted }).station
        4).header.value = true ∧
    ((((asking .inside State.reset).setStation 4 Station.cleared).station 4).header.value = false ∧
      (((asking .inside State.reset).setStation 4 Station.cleared).station 4).body.value.binding = none) ∧
    ((asking .inside State.reset).boundTo 4 3 ∧
      (asking .inside State.reset).locateIn 5 (asking .inside State.reset).inUseRecords = none) ∧
    ((asking .inside (inside true State.reset)).boundTo 4 3 ∧
      (asking .inside (inside true State.reset)).locateIn 5 (asking .inside (inside true State.reset)).inUseRecords = some 1 ∧
      ((asking .inside (inside true State.reset)).index 1).room = 3 ∧
      ((asking .inside (inside true State.reset)).index 1).sent = true ∧
      ((asking .inside (inside true State.reset)).room 3).view = .readable false ⟨9, .opened, 2, 0, false⟩) ∧
    (∀ r ∈ [2, 3], (permitted r (asking .inside State.reset)).boundTo 4 3 ∧
      (permitted r (asking .inside State.reset)).locateIn 5 (permitted r (asking .inside State.reset)).inUseRecords = some 1 ∧
      ((permitted r (asking .inside State.reset)).index 1).room = r ∧
      ((permitted r (asking .inside State.reset)).index 1).sent = false ∧
      ∃ e ∈ (permitted r (asking .inside State.reset)).verdicts, ∃ p, e.permit = some p ∧ 1 ∈ p.records) ∧
    (((permitted 2 (asking .inside State.reset)).room 2).view = .undefined ∧
      ((roomed .opened .faulted (asking .inside (inside true State.reset))).room 3).view = .faulted) := by
  unfold State.boundTo
  refine ⟨by decide +kernel, by decide +kernel, by decide +kernel, by decide +kernel, ?_, by decide +kernel⟩
  intro r hr
  simp only [List.mem_cons, List.not_mem_nil, or_false] at hr
  rcases hr with rfl | rfl <;>
    exact ⟨by decide +kernel, by decide +kernel, by decide +kernel, by decide +kernel, permit, by decide, _, rfl, by decide⟩

theorem witness_PermitAtAnOpenRoom :
    (asking .outside State.reset).headIs ⟨4, 2, .outside, 5⟩ [] ∧ (asking .outside State.reset).tablesWf = true ∧
    (asking .outside State.reset).nothingOpenAt 4 ∧ (asking .outside State.reset).boundTo 4 3 ∧
    (((asking .outside State.reset).room 3).header.value = .inService ∧
      ((asking .outside State.reset).room 3).body.value = ⟨9, .opened, 2, 0, false⟩ ∧
      (asking .outside State.reset).mode = .normal ∧ (asking .outside State.reset).tamper.value.flag = false ∧
      (asking .outside State.reset).clock.value = ⟨⟨now, 0⟩, true⟩ ∧
      (asking .outside State.reset).barHeader.value.doubtful = false) ∧
    (asking .outside State.reset).barSorted ∧ ¬ (asking .outside State.reset).onBarList 5 ∧
    (((asking .outside State.reset).slot 1).header.value = ⟨.active, 1⟩ ∧
      ((asking .outside State.reset).slot 1).body.value = grant ∧ grant.usable .active 5 9 now = true ∧
      (asking .outside State.reset).retireHold ≠ some 1 ∧ (asking .outside State.reset).occupancy 3 + 1 ≤ 2 ∧
      (asking .outside State.reset).freeRecords 1 = [1] ∧
      (asking .outside State.reset).locateIn 5 (asking .outside State.reset).inUseRecords = none) := by
  refine ⟨test_head.1, by decide, test_nothing_open.1, test_nothing_open.2, by decide, ⟨?_, by decide⟩, ?_, by decide⟩
  · exact List.Pairwise.nil
  · rintro ⟨e, h, _⟩
    cases h

theorem witness_PermitAtAnOpenRoom_afterTheClaim :
    (∀ cls ∈ [RoomClass.opened, .escorted], ∀ p ∈ [Phase.admission, .escortRead, .placement],
      (handed { hand .outside p cls with claims := [⟨⟨1, 1⟩, true⟩], own := ⟨2, .none, some (⟨1, 1⟩, .contractor)⟩ } (site cls)).checking
        { hand .outside p cls with claims := [⟨⟨1, 1⟩, true⟩], own := ⟨2, .none, some (⟨1, 1⟩, .contractor)⟩ } p ∧
      (handed { hand .outside p cls with claims := [⟨⟨1, 1⟩, true⟩], own := ⟨2, .none, some (⟨1, 1⟩, .contractor)⟩ } (site cls)).tablesWf =
        true) ∧
    (∃ t, admission 3 [⟨5, .contractor, ⟨1, 1⟩, true, 4, none, false⟩] (handed { hand .outside .admission .escorted with
        claims := [⟨⟨1, 1⟩, true⟩], own := ⟨2, .none, some (⟨1, 1⟩, .contractor)⟩ } (site .escorted)) = (.ok [1], t)) ∧
    ((escortRoom 0).room 3).view = .readable false ⟨9, .escorted, 4, 0, false⟩ ∧
    ((escortRoom 1).room 3).view = .readable false ⟨9, .escorted, 4, 1, false⟩ ∧
    (State.reset.room 3).view = .undefined ∧ ((roomed .escorted .faulted State.reset).room 3).view = .faulted ∧
    (site .opened).placementReason (hand .outside .placement .opened) = none ∧
    ({ site .opened with mode := .fire } : State).placementReason (hand .outside .placement .opened) = some .fire ∧
    (site .opened).placementReason { hand .outside .placement .opened with mark := some .revoked } = some .revoked := by
  refine ⟨?_, ⟨_, rfl⟩, by decide +kernel⟩
  unfold State.checking
  decide +kernel

theorem witness_PermitAtAnOpenRoom_pair :
    (∀ p ∈ [Phase.pairOpening, .sameCard],
      (handed { hand .outside p .paired with claims := [⟨⟨1, 1⟩, true⟩] } (site .paired)).checking
        { hand .outside p .paired with claims := [⟨⟨1, 1⟩, true⟩] } p ∧
      (handed { hand .outside p .paired with claims := [⟨⟨1, 1⟩, true⟩] } (site .paired)).tablesWf = true) ∧
    (site .paired).closedAt .pairTable 4 = false ∧ (site .paired).pair 1 = none ∧ (site .paired).pair 8 = none ∧
    (site .paired).placementReason { hand .outside .pairOpening .paired with claims := [⟨⟨1, 1⟩, true⟩] } = none ∧
    ({ site .paired with notices := [⟨.decisionEngine, .loss 4, false⟩] } : State).closedAt .pairTable 4 = true ∧
    (∀ j ∈ numbersFrom 1 8, ({ site .paired with pairs := (numbersFrom 1 8).map (fun j => (j, some (context false 5))) } :
      State).pair j ≠ none) := by
  refine ⟨?_, by decide +kernel⟩
  unfold State.checking
  decide +kernel

/-- A context that opens, with a closure waiting, at each operation left. -/
theorem witness_PermitAtAnOpenRoom_closureWaits :
    ∀ p ∈ [Phase.claimRelease, .interim, .settling], ∀ cause ∈ [ClosureCause.fire, .stationLost],
      let d := { hand .outside p .paired with holding := .openingPair 1, claims := [⟨⟨1, 1⟩, true⟩] };
      let c := { context true 5 with closure := some cause };
      let s := handed d ((site .paired).setPair 1 (some c));
      s.deciding d .outside p ∧ s.tablesWf = true ∧ d.holding = .openingPair 1 ∧ s.pair 1 = some c ∧ c.closure = some cause ∧
        c.station = d.station ∧ c.sequence = d.sequence ∧ d.records = [] ∧ s.endedAt .pairTable 4 = false ∧
        ({ s with notices := [⟨.pairTable, .loss 4, false⟩] } : State).endedAt .pairTable 4 = true := by
  unfold State.deciding
  decide +kernel

/-- An answer check that waits, in room 3, in a building mode. -/
def answering (m : BuildingMode) (c : Option ClosureCause) : State :=
  { roomed .referred .inService State.reset with
    referrals := [hotCard, approval .answering 5 c], mode := m, work := some (.answer 7) }

theorem witness_AnswerCheckEndsTheApproval :
    (∀ m ∈ [BuildingMode.lockdown, .fire], ∀ c ∈ [none, some ClosureCause.stationLost, some .tamperNotice],
      (answering m c).awake = true ∧ (answering m c).undamaged = true ∧ (answering m c).tablesWf = true ∧
      (answering m c).referrals = [hotCard] ++ approval .answering 5 c :: [] ∧ (answering m c).seat = none ∧
      (answering m c).work = some (.answer (approval .answering 5 c).reference) ∧
      ((answering m c).room 3).view = .readable false ((answering m c).room 3).body.value) ∧
    ((∀ x ∈ [hotCard] ++ [], x.reference ≠ 7 ∧ ∀ g m c, x.kind ≠ .approval g .answering m c) ∧
      ∃ d, d.work = .answer 7 ∧ d.abandoned = false ∧ d.phase = .answerEnd none ∧ d.station = 4 ∧ d.sequence = 2 ∧
        d.mark = none ∧ ({ answering .normal none with seat := some d } : State).undamaged = true) := by
  refine ⟨by decide, ?_, Decision.ofAnswer (approval .answering 5 none) true now, by decide⟩
  intro x h
  simp only [List.append_nil, List.mem_singleton] at h
  subst h
  exact ⟨by decide, fun g m c e => by cases e⟩

theorem witness_AnswerCheckEndsTheApproval_opening :
    ((handed { hand .outside .approvalOpening .referred with claims := [⟨⟨1, 1⟩, true⟩] } (site .referred)).checking
        { hand .outside .approvalOpening .referred with claims := [⟨⟨1, 1⟩, true⟩] } .approvalOpening ∧
      (site .referred).tablesWf = true ∧ (site .referred).closedAt .referralQueue 4 = false ∧
      (site .referred).placementReason { hand .outside .approvalOpening .referred with claims := [⟨⟨1, 1⟩, true⟩] } = none ∧
      (site .referred).approvals < 12 ∧ (∀ e ∈ (site .referred).referrals, e.reference ≠ (site .referred).referenceCounter)) ∧
    ({ site .referred with notices := [⟨.decisionEngine, .stop, false⟩] } : State).closedAt .referralQueue 4 = true ∧
    12 ≤ ({ site .referred with referrals := List.replicate 12 (approval .waiting 5 none) } : State).approvals := by
  unfold State.checking
  decide +kernel

/-- An approval opens while entries hold the counter's number. -/
theorem witness_AnswerCheckEndsTheApproval_numberInUse (d : Decision)
    (h : d = { hand .outside .approvalOpening .referred with claims := [⟨⟨1, 1⟩, true⟩] }) :
    (numbered (handed d (site .referred))).checking d .approvalOpening ∧ (numbered (handed d (site .referred))).tablesWf = true ∧
    (numbered (handed d (site .referred))).approvals < 12 ∧ (numbered (handed d (site .referred))).draws 1 ∧ d.records = [] := by
  subst h
  unfold State.checking
  exact ⟨by decide +kernel, rfl, by decide, test_draws _, rfl⟩

/-- An approval that opens, with a closure waiting, at each operation left. -/
theorem witness_AnswerCheckEndsTheApproval_closureWaits :
    (∀ p ∈ [Phase.claimRelease, .interim, .settling], ∀ cause ∈ [ClosureCause.fire, .stationLost],
      let d := { hand .outside p .referred with holding := .openingApproval 7, claims := [⟨⟨1, 1⟩, true⟩] };
      let e := approval .opening 5 (some cause);
      let s := { handed d (site .referred) with referrals := [hotCard, e] };
      s.deciding d .outside p ∧ s.tablesWf = true ∧ d.holding = .openingApproval e.reference ∧
        e.kind = .approval ⟨1, 1⟩ .opening 5 (some cause) ∧ e.station = d.station ∧ e.sequence = d.sequence ∧ d.records = []) ∧
    ∀ x ∈ [hotCard] ++ [], x.reference ≠ 7 := by
  unfold State.deciding
  decide +kernel

/-- An answer check in hand. -/
def checker (p : Phase) : Decision :=
  { hand .outside p .referred with
    work := .answer 7, heldPlaces := 0, claims := [⟨⟨1, 1⟩, true⟩], own := ⟨2, .none, some (⟨1, 1⟩, .contractor)⟩ }

def checkingAnswer (d : Decision) (c : Option ClosureCause) : State :=
  handed d { site .referred with referrals := [hotCard, approval .answering 5 c], work := some (.answer 7) }

theorem witness_AnswerCheckEndsTheApproval_checks :
    (∀ p ∈ [Phase.room, .mode, .tamper, .clock, .barState, .barTest, .locate, .search, .count, .pool, .claim, .admission],
      (checkingAnswer (checker p) none).answeringAt (checker p) 7 p ∧ (checkingAnswer (checker p) none).tablesWf = true ∧
      (checker p).abandoned = false ∧ ∃ fails : DenyReason → Prop, ∀ r, fails r ↔
        exec (.answerCheck (some 1)) (checkingAnswer (checker p) none) =
          .next (goesOn (checker p) (.answerEnd (some r)) (checkingAnswer (checker p) none))) ∧
    (∀ cursor ∈ [1, 1024, 1025], (checkingAnswer { checker .search with own := ⟨cursor, .none, none⟩ } none).answeringAt
      { checker .search with own := ⟨cursor, .none, none⟩ } 7 .search) ∧
    ((site .referred).room 3).view = .readable false ⟨9, .referred, 2, 0, false⟩ ∧
    ((roomed .referred .closed (site .referred)).room 3).view = .readable true ⟨9, .referred, 2, 0, false⟩ ∧
    ((site .referred).occupancy 3 + 1 ≤ 2 ∧ 1 < (inside true (site .referred)).occupancy 3 + 1) ∧
    (∃ t, admission 3 [⟨5, .contractor, ⟨1, 1⟩, true, 4, none, false⟩] (checkingAnswer (checker .admission) none) = (.ok [1], t)) ∧
    (admission 3 [⟨5, .contractor, ⟨1, 1⟩, true, 4, none, false⟩] (inside true (checkingAnswer (checker .admission) none))).1 =
      .error .passback := by
  refine ⟨?_, ?_, by decide +kernel, by decide +kernel, by decide +kernel, ⟨_, rfl⟩, by decide +kernel⟩
  · unfold State.answeringAt
    intro p hp
    simp only [List.mem_cons, List.not_mem_nil, or_false] at hp
    rcases hp with rfl | rfl | rfl | rfl | rfl | rfl | rfl | rfl | rfl | rfl | rfl | rfl <;>
      exact ⟨by decide, by decide, rfl, _, fun _ => Iff.rfl⟩
  · unfold State.answeringAt
    decide

theorem witness_AnswerCheckEndsTheApproval_undone :
    (∀ failed ∈ [none, some DenyReason.barred], ∀ c ∈ [none, some ClosureCause.fire, some .stationLost],
      (checkingAnswer (checker (.answerEnd failed)) c).answeringAt (checker (.answerEnd failed)) 7 (.answerEnd failed) ∧
      (checkingAnswer (checker (.answerEnd failed)) c).tablesWf = true ∧
      (checkingAnswer (checker (.answerEnd failed)) c).referrals = [hotCard] ++ approval .answering 5 c :: []) ∧
    (∀ x ∈ [hotCard] ++ [], x.reference ≠ (approval .answering 5 none).reference) ∧
    (checkingAnswer { checker (.answerEnd none) with abandoned := true } none).answeringAt
      { checker (.answerEnd none) with abandoned := true } 7 (.answerEnd none) ∧
    (checkingAnswer (checker (.answerEnd none)) none).placementReason { checker (.answerEnd none) with mark := some .barred } =
      some .barred ∧
    (checker (.answerEnd none)).station = (approval .answering 5 none).station ∧
    (checker (.answerEnd none)).sequence = (approval .answering 5 none).sequence := by
  unfold State.answeringAt
  decide

theorem witness_AnswerCheckEndsTheApproval_ended :
    ({ answering .normal none with
        notices := [⟨.referralQueue, .stop, true⟩] } : State).endedAt .referralQueue 4 = true ∧
    (∀ c ∈ [none, some ClosureCause.stationLost, some .tamperNotice], (answering .fire c).endedAt .referralQueue 4 = false) := by
  decide +kernel

/-- A room, a record, a station, a grant and two Bar List entries with damage. -/
def damaged : State :=
  { ((State.reset.setRoom 3 ⟨.of .closed, ⟨.empty, .uncorrectable⟩⟩).setRecord 1
      ⟨.of ⟨true, 2, 1, .escort, true, false, false⟩, ⟨.empty, .uncorrectable⟩⟩).setStation 4
      { Station.cleared with body := ⟨.empty, .uncorrectable⟩ } with
    grants := [(1, ⟨.of ⟨.active, 1⟩, ⟨grant, .uncorrectable⟩⟩)]
    window := handle1 {}
    barEntries := [⟨2, .uncorrectable⟩, ⟨3, .correctable⟩] }

theorem witness_IntegrityCheckMarksItsItem :
    (({ State.reset with clock := ⟨⟨.cleared, 1⟩, ⟨.cleared, 0⟩, ⟨.cleared, 0⟩⟩ } : State).clock.clean = false ∧
      ({ State.reset with clock := ⟨⟨.cleared, 1⟩, ⟨.cleared, 0⟩, ⟨.cleared, 0⟩⟩ } : State).health.clean = true) ∧
    (damaged.awake = true ∧ damaged.accepts = true ∧ damaged.health.clean = true ∧ damaged.tablesWf = true ∧
      (damaged.room 3).header = .of .closed ∧ (damaged.room 3).body.condition = .uncorrectable ∧
      (damaged.record 1).index = .of ⟨true, 2, 1, .escort, true, false, false⟩ ∧
      (damaged.record 1).body.condition = .uncorrectable ∧ (damaged.room 2).undamaged = true ∧
      (damaged.station 4).header = .of false ∧ (damaged.station 4).body.condition = .uncorrectable ∧
      damaged.barEntries[1 - 1]? = some ⟨2, .uncorrectable⟩ ∧ 1 ∉ damaged.barHeader.value.faulted ∧
      damaged.barEntries[2 - 1]? = some ⟨3, .correctable⟩ ∧
      (damaged.slot 1).header = .of ⟨.active, 1⟩ ∧ (damaged.slot 1).body.condition = .uncorrectable ∧
      handleArg damaged.window.arg0 = ⟨1, 1⟩) := by decide +kernel

/-- One copy has been corrected. -/
def worn {α : Type} (v : α) : Voted α := ⟨⟨v, 1⟩, ⟨v, 0⟩, ⟨v, 0⟩⟩

/-- Every kind of item in three copies with a copy that has been corrected. -/
def wornState : State :=
  { (((State.reset.setSlot 1 ⟨worn ⟨.active, 1⟩, .of grant⟩).setRoom 3 { Room.cleared with header := worn .closed }).setRecord 1
      { PresenceRecord.free with index := worn (PresenceRecord.free.index.value) }).setStation 4
      { Station.cleared with header := worn false } with
    barHeader := worn ⟨0, false, []⟩
    linkConfig := worn LinkConfig.cleared
    trim := worn none
    pairWindow := worn 20
    referralTimeout := worn 60
    tamper := worn .idle
    deferred := worn 0 }

theorem witness_IntegrityCheckMarksItsItem_everyItem :
    wornState.awake = true ∧ wornState.health.clean = true ∧ (wornState.slot 1).header.clean = false ∧
    (wornState.room 3).header.clean = false ∧ (wornState.record 1).index.clean = false ∧ (wornState.station 4).header.clean = false ∧
    wornState.barHeader.clean = false ∧ wornState.linkConfig.clean = false ∧ wornState.trim.clean = false ∧
    wornState.pairWindow.clean = false ∧ wornState.referralTimeout.clean = false ∧ wornState.tamper.clean = false ∧
    wornState.deferred.clean = false ∧ ({ State.reset with health := worn Health.clear } : State).health.clean = false := by
  decide +kernel

/-- Three copies of which no two agree. -/
theorem witness_IntegrityCheckMarksItsItem_votes :
    (∀ v ∈ [(⟨⟨(1 : Nat), 1⟩, ⟨2, 1⟩, ⟨3, 1⟩⟩ : Voted Nat), ⟨⟨1, 1⟩, ⟨2, 0⟩, ⟨3, 0⟩⟩, ⟨⟨1, 1⟩, ⟨2, 1⟩, ⟨3, 0⟩⟩],
      v.copy1.value ≠ v.copy2.value ∧ v.copy1.value ≠ v.copy3.value ∧ v.copy2.value ≠ v.copy3.value) ∧
    (⟨⟨1, 1⟩, ⟨2, 1⟩, ⟨3, 1⟩⟩ : Voted Nat).value = 1 ∧ (⟨⟨1, 1⟩, ⟨2, 0⟩, ⟨3, 0⟩⟩ : Voted Nat).value = 2 ∧
    (⟨⟨1, 1⟩, ⟨2, 1⟩, ⟨3, 0⟩⟩ : Voted Nat).value = 3 ∧ (⟨⟨4, 2⟩, ⟨5, 0⟩, ⟨4, 2⟩⟩ : Voted Nat).value = 4 := by decide +kernel

end Sys2Proof.Tests
end

namespace Sys2Proof.Machine
open Sys2Proof

/-! ## The machine right after reset -/

/-- Settles O3: every table of the reset state is empty, its latches and queues too. -/
theorem invariantAtReset : Obligations.InvariantAtReset := by
  unfold Obligations.InvariantAtReset
  decide

end Sys2Proof.Machine

namespace Sys2Proof.Machine
open Sys2Proof

/-! ## Commands that name a grant (R5, R15 to R22) -/

@[simp] theorem accepted_slot (code : BitVec 8) (s : State) (k : Nat) : (accepted code s).slot k = s.slot k := rfl

/-- A command whose result stands makes no further operation. -/
theorem runOwn_of_ready {s : State} {r : CommandResult} (h : s.work = some (.ready r)) (n : Nat) : runOwn n s = s :=
  runOwn_of_fixed n s fun w hw => by
    rw [h] at hw
    cases hw
    rfl

@[simp] theorem runOwnPaused_finish (pause : Pause) (r : CommandResult) (s : State) :
    runOwnPaused pause (finish r s) = finish r s := by
  cases pause with
  | none => exact runOwn_of_ready (r := r) rfl _
  | some n => exact runOwn_of_ready (r := r) rfl n

@[simp] theorem runOwnPaused_refuse (pause : Pause) (c : ResultCode) (s : State) :
    runOwnPaused pause (refuse c s) = refuse c s := runOwnPaused_finish pause _ s

/-- A header that reads clean is what the handle check looks at; the check changes nothing. -/
theorem checkHandle_of_clean {h : Handle} {s : State} (hc : (s.slot h.slot).header.clean = true) :
    checkHandle h s =
      (if 1 ≤ h.slot ∧ h.slot ≤ Config.slots then
        (if (s.slot h.slot).header.value.state = .free then .error .staleHandle
          else if (s.slot h.slot).header.value.issue ≠ h.issue then .error .staleHandle
          else .ok (s.slot h.slot).header.value)
        else .error .badArgument, s) := by
  simp only [checkHandle, readSlotHeader, readVoted_clean hc]
  split_ifs <;> rfl

theorem withGrant_of_error {h : Handle} {act : SlotHeader → GrantRecord → State → State} {s : State} {c : ResultCode}
    (hc : checkHandle h s = (.error c, s)) : withGrant h act s = refuse c s := by
  simp [withGrant, hc]

/-- A command that names a grant is refused with what the handle check answers. -/
theorem handleCommand_of_error {p : Instr × BitVec 8} (hp : p ∈ handleCommands) {s : State} (ha : s.accepts = true)
    {c : ResultCode} (hc : checkHandle (handleArg s.window.arg0) (accepted p.2 s) = (.error c, accepted p.2 s)) :
    exec p.1 s = .next (answered p.2 (.bare c) s) := by
  have hw := commandWrite_of_accepts ha
  simp only [handleCommands, List.mem_cons, List.not_mem_nil, or_false] at hp
  rcases hp with rfl | rfl | rfl | rfl | rfl | rfl
  · simp only [exec, execAmendGrant, hw, opAmendGrant, accepted_frame, withGrant_of_error hc]
    rfl
  · simp only [exec, execSuspendGrant, hw, opSuspendGrant, accepted_frame, withGrant_of_error hc]
    rfl
  · simp only [exec, execResumeGrant, hw, opResumeGrant, accepted_frame, withGrant_of_error hc]
    rfl
  · simp only [exec, execRevokeGrant, hw, opRevokeGrant, accepted_frame, withGrant_of_error hc]
    rfl
  · simp only [exec, execRetireGrant, sequenceCommand, hw, opRetireGrant, accepted_frame, hc, runOwnPaused_refuse]
    rfl
  · simp only [exec, execReadGrant, hw, opReadGrant, accepted_frame, hc]
    rfl

/-- Settles O11: the three refusals of the handle check, each command refused with them before it does anything. -/
theorem handlesAreCheckedFirst : Obligations.HandlesAreCheckedFirst := by
  unfold Obligations.HandlesAreCheckedFirst
  rintro s h p hp ha hc rfl
  have hcheck := checkHandle_of_clean (h := handleArg s.window.arg0) (s := accepted p.2 s) hc
  refine ⟨fun hr => ?_, fun h1 h2 hf => ?_, fun h1 h2 hf hi => ?_⟩ <;>
    refine handleCommand_of_error hp ha (hcheck.trans ?_)
  · rw [if_neg (by simp only [Config.slots]; omega)]
  · rw [if_pos ⟨h1, h2⟩]
    exact congrArg (·, _) (if_pos hf)
  · rw [if_pos ⟨h1, h2⟩]
    exact congrArg (·, _) ((if_neg hf).trans (if_pos hi))

/-- What a handle that names a grant gives a command that reads the body. -/
theorem withGrant_of_named {s : State} {h : Handle} {st : GrantState} (hn : namesGrant s h st) (code : BitVec 8)
    (act : SlotHeader → GrantRecord → State → State) :
    withGrant h act (accepted code s) =
      if st = .faulted then refuse .faulted (accepted code s) else act ⟨st, h.issue⟩ (grantOf s h) (accepted code s) := by
  obtain ⟨-, hu, -, h1, h2, hf, hh⟩ := hn
  have hu' : (accepted code s).undamaged = true := hu
  simp only [withGrant, checkHandle_undamaged hu', accepted_slot, hh, readSlotBody_undamaged hu', Config.slots, h1, h2,
    hf, and_self, if_true, if_false, ne_eq, not_true]

theorem exec_amendGrant_of_named {s : State} {h : Handle} {st : GrantState} (hn : namesGrant s h st) :
    exec .amendGrant s = .next (if st = .faulted then answered 0x11 (.bare .faulted) s
      else amendGrant h s.window ⟨st, h.issue⟩ (grantOf s h) (accepted 0x11 s)) := by
  have hh := hn.2.2.1
  simp only [exec, execAmendGrant, commandWrite_of_accepts hn.1, opAmendGrant, accepted_frame, ← hh, withGrant_of_named hn]
  rfl

theorem exec_suspendGrant_of_named {s : State} {h : Handle} {st : GrantState} (hn : namesGrant s h st) :
    exec .suspendGrant s = .next (if st = .faulted then answered 0x12 (.bare .faulted) s
      else suspendGrant h ⟨st, h.issue⟩ (grantOf s h) (accepted 0x12 s)) := by
  have hh := hn.2.2.1
  simp only [exec, execSuspendGrant, commandWrite_of_accepts hn.1, opSuspendGrant, accepted_frame, ← hh,
    withGrant_of_named hn]
  rfl

theorem exec_resumeGrant_of_named {s : State} {h : Handle} {st : GrantState} (hn : namesGrant s h st) :
    exec .resumeGrant s = .next (if st = .faulted then answered 0x13 (.bare .faulted) s
      else resumeGrant h ⟨st, h.issue⟩ (grantOf s h) (accepted 0x13 s)) := by
  have hh := hn.2.2.1
  simp only [exec, execResumeGrant, commandWrite_of_accepts hn.1, opResumeGrant, accepted_frame, ← hh,
    withGrant_of_named hn]
  rfl

theorem exec_revokeGrant_of_named {s : State} {h : Handle} {st : GrantState} (hn : namesGrant s h st) :
    exec .revokeGrant s = .next (if st = .faulted then answered 0x14 (.bare .faulted) s
      else revokeGrant h ⟨st, h.issue⟩ (grantOf s h) (accepted 0x14 s)) := by
  have hh := hn.2.2.1
  simp only [exec, execRevokeGrant, commandWrite_of_accepts hn.1, opRevokeGrant, accepted_frame, ← hh,
    withGrant_of_named hn]
  rfl

/-- Settles O12: each command reads the body of the named grant, and then looks at the state alone. -/
theorem grantCommandsRefusedByState : Obligations.GrantCommandsRefusedByState := by
  unfold Obligations.GrantCommandsRefusedByState
  intro s h st hn
  refine ⟨?_, ?_, ?_, ?_, fun h1 h2 => ?_, ?_, ?_⟩
  · rintro rfl p hp
    simp only [List.mem_cons, List.not_mem_nil, or_false] at hp
    rcases hp with rfl | rfl | rfl | rfl
    · exact exec_amendGrant_of_named hn
    · exact exec_suspendGrant_of_named hn
    · exact exec_resumeGrant_of_named hn
    · exact exec_revokeGrant_of_named hn
  · rintro (rfl | rfl) <;> exact exec_amendGrant_of_named hn
  · rintro (rfl | rfl) <;> exact exec_suspendGrant_of_named hn
  · rintro rfl
    exact exec_suspendGrant_of_named hn
  · rw [exec_resumeGrant_of_named hn, if_neg h2, resumeGrant, if_neg h1]
    rfl
  · rintro rfl
    exact exec_revokeGrant_of_named hn
  · rintro rfl
    exact exec_revokeGrant_of_named hn

/-- An amendment writes the end of the window, the hours and the uses, and no other item of a grant (R16). -/
theorem Amendments.apply_keeps (a : Amendments) (g : GrantRecord) :
    (a.apply g).credential = g.credential ∧ (a.apply g).role = g.role ∧ (a.apply g).company = g.company ∧
    (a.apply g).pattern = g.pattern ∧ (a.apply g).mask = g.mask ∧ (a.apply g).validFrom = g.validFrom ∧
    (a.apply g).suspendedFrom = g.suspendedFrom := by
  obtain ⟨u, h, n⟩ := a
  rcases u with _ | _ <;> rcases h with _ | _ | _ <;> rcases n with _ | _ <;> exact ⟨rfl, rfl, rfl, rfl, rfl, rfl, rfl⟩

/-- The state an amendment settles in, in undamaged storage (R16). -/
theorem settleAmended_undamaged {s : State} (hu : s.undamaged = true) (st : GrantState) (g : GrantRecord) :
    settleAmended st g s = (if st = .pending ∨ st = .active then (if g.hasUse then st else .spent)
      else if st = .spent ∧ g.hasUse = true then
        (if g.validFrom.atOrBefore s.clock.value.calendar.minute then .active else .pending)
      else st, s) := by
  cases st <;> simp only [settleAmended, presentMinute_undamaged hu, GrantRecord.placedState] <;> split_ifs <;> simp_all

theorem live_iff (st : GrantState) :
    st.live = true ↔ st = .pending ∨ st = .active ∨ st = .spent ∨ st = .suspended := by
  cases st <;> decide

/-- Settles O13: the amendments are written where they are within their limits, and refused otherwise. -/
theorem amendGrantWritesAndSettles : Obligations.AmendGrantWritesAndSettles := by
  unfold Obligations.AmendGrantWritesAndSettles
  refine ⟨?_, ?_⟩
  · rintro s h st st' a g hn hlive ha hok rfl rfl
    refine ⟨?_, a.apply_keeps _⟩
    have hf : st ≠ .faulted := by rintro rfl; simp at hlive
    have hu : (accepted 0x11 s).undamaged = true := hn.2.1
    rw [exec_amendGrant_of_named hn, if_neg hf]
    simp only [amendGrant, (live_iff st).mpr hlive, if_true, ha, hok, settleAmended_undamaged hu]
    rfl
  · intro s h st hn hlive hbad
    have hf : st ≠ .faulted := by rintro rfl; simp at hlive
    rw [exec_amendGrant_of_named hn, if_neg hf]
    simp only [amendGrant, (live_iff st).mpr hlive, if_true]
    rcases hbad with ha | ⟨a, ha, hok⟩
    · simp only [ha]
      rfl
    · simp only [ha, hok]
      rfl

/-- The state a suspended grant resumes to, by what it remembers and the uses left (R18). -/
theorem resumedState_eq (g : GrantRecord) : resumedState g =
    if g.uses.any (fun u => decide (u.remaining = 0)) then .spent
    else if g.suspendedFrom = some .pending then .pending else .active := by
  have huse : g.hasUse = !g.uses.any (fun u => decide (u.remaining = 0)) := by
    cases hu : g.uses with
    | none => simp [GrantRecord.hasUse, hu]
    | some u => simp [GrantRecord.hasUse, hu, Nat.one_le_iff_ne_zero]
  unfold resumedState
  rw [huse]
  cases g.uses.any (fun u => decide (u.remaining = 0)) <;> rcases g.suspendedFrom with _ | _ | _ <;> simp

/-- Settles O14: what each of the three commands writes into the named slot, and REVOKE's four notices. -/
theorem suspendResumeAndRevoke : Obligations.SuspendResumeAndRevoke := by
  unfold Obligations.SuspendResumeAndRevoke
  refine ⟨fun s h st hn => ⟨?_, ?_⟩, fun s h st hn => ?_⟩
  · rintro (rfl | rfl | rfl) <;> exact exec_suspendGrant_of_named hn
  · rintro rfl st' rfl
    rw [exec_resumeGrant_of_named hn, if_neg (by decide), resumeGrant, if_pos rfl, resumedState_eq]
    rfl
  · rintro (rfl | rfl | rfl | rfl) <;> exact exec_revokeGrant_of_named hn

end Sys2Proof.Machine

namespace Sys2Proof.Machine
open Sys2Proof

/-! ## Usability (R2, R10, R37) -/

theorem roomMatches_iff (key pattern mask : Key) :
    roomMatches key pattern mask = true ↔ ∀ i : Fin 16, mask.getLsbD i = true → key.getLsbD i = pattern.getLsbD i := by
  simp only [roomMatches, beq_iff_eq]
  constructor
  · intro h i hm
    have hbit := congrArg (fun w => w.getLsbD i) h
    simp only [BitVec.getLsbD_and, BitVec.getLsbD_xor, hm, Bool.and_true] at hbit
    simpa using hbit
  · intro h
    apply BitVec.eq_of_getLsbD_eq
    intro i hi
    have hbit := h ⟨i, hi⟩
    simp only [BitVec.getLsbD_and, BitVec.getLsbD_xor]
    cases hm : mask.getLsbD i with
    | false => simp
    | true => simp [hbit hm]

theorem GrantRecord.inWindow_iff (g : GrantRecord) (t : Minute) :
    g.inWindow t = true ↔ g.validFrom.order ≤ t.order ∧ t.order < g.validUntil.order := by
  simp [GrantRecord.inWindow, Minute.atOrBefore, Minute.before]

theorem GrantRecord.inHoursAt_iff (g : GrantRecord) (t : Minute) :
    g.inHoursAt t = true ↔ ∀ h, g.hours = some h → h.openAt t = true := by
  cases hh : g.hours <;> simp [GrantRecord.inHoursAt, hh]

theorem GrantRecord.hasUse_iff (g : GrantRecord) : g.hasUse = true ↔ ∀ u, g.uses = some u → 1 ≤ u.remaining := by
  cases hu : g.uses <;> simp [GrantRecord.hasUse, hu]

theorem inForce_iff (st : GrantState) : st.inForce = true ↔ st = .pending ∨ st = .active := by
  cases st <;> decide

theorem weekday_lt (t : Minute) : t.weekday < 7 := Nat.mod_lt _ (by decide)

/-- The weekday before a weekday, Sunday before Monday (R37). -/
theorem weekdayBefore_eq (t : Minute) : (t.weekday + 6) % 7 = if t.weekday = 0 then 6 else t.weekday - 1 := by
  have := weekday_lt t
  split_ifs <;> omega

/-- Settles O18: condition by condition, and the open span on either side of midnight. -/
theorem usableUnderSixConditions : Obligations.UsableUnderSixConditions := by
  unfold Obligations.UsableUnderSixConditions
  intro g st c key t
  refine ⟨?_, fun h _ => ⟨fun hlt => ?_, fun hlt => ?_, rfl⟩⟩
  · simp only [GrantRecord.usable, GrantRecord.matching, Bool.and_eq_true, decide_eq_true_eq, inForce_iff, roomMatches_iff,
      GrantRecord.inWindow_iff, GrantRecord.inHoursAt_iff, GrantRecord.hasUse_iff, and_assoc]
  · simp only [DailyHours.openAt, hlt, if_true, Bool.and_eq_true, decide_eq_true_eq, and_assoc]
  · simp only [DailyHours.openAt, Nat.not_lt.mpr hlt.le, if_false, Bool.or_eq_true, Bool.and_eq_true, decide_eq_true_eq,
      weekdayBefore_eq]

/-! ## ADD GRANT (R9) -/

theorem exec_addGrant_of_accepts {s : State} (ha : s.accepts = true) :
    exec .addGrant s = .next (opAddGrant (accepted 0x10 s)) := by
  simp only [exec, execAddGrant, commandWrite_of_accepts ha]

/-- The search of the headers finds the lowest FREE slot (R9). -/
theorem find_freeSlot {s : State} {k : Nat} (h1 : 1 ≤ k) (h2 : k ≤ 1024) (hfree : (s.slot k).header.value.state = .free)
    (hlow : ∀ j, 1 ≤ j → j < k → (s.slot j).header.value.state ≠ .free) :
    (numbersFrom 1 Config.slots).find? (fun j => decide ((s.slot j).header.value.state = .free)) = some k :=
  find_numbersFrom h1 (by simp only [Config.slots]; omega) (by simpa using hfree)
    (fun j hj hjk => by simpa using hlow j hj hjk)

theorem find_freeSlot_none {s : State} (hfull : ∀ k, 1 ≤ k → k ≤ 1024 → (s.slot k).header.value.state ≠ .free) :
    (numbersFrom 1 Config.slots).find? (fun j => decide ((s.slot j).header.value.state = .free)) = none := by
  simp only [List.find?_eq_none, mem_numbersFrom, decide_eq_true_eq, Config.slots]
  exact fun j hj => hfull j hj.1 (by omega)

section
variable {s : State} {g : GrantRecord} {now : Minute}

theorem opAddGrant_of_bad_arguments (h : addArgumentsOk s.window = false) : opAddGrant s = refuse .badArgument s := by
  simp only [opAddGrant, h, Bool.false_eq_true, if_false]

theorem opAddGrant_of_unset (hu : s.undamaged = true) (h : addArgumentsOk s.window = true)
    (hc : s.clock.value.isSet = false) : opAddGrant s = refuse .clockUnset s := by
  simp only [opAddGrant, h, readClockItem_undamaged hu, hc, Bool.false_eq_true, if_false, if_true]

theorem opAddGrant_of_past (hu : s.undamaged = true) (h : addArgumentsOk s.window = true)
    (hc : s.clock.value.isSet = true)
    (hp : (minuteArg s.window.arg4).atOrBefore s.clock.value.calendar.minute = true) :
    opAddGrant s = refuse .badArgument s := by
  simp only [opAddGrant, h, readClockItem_undamaged hu, hc, addedGrant, hp, if_true]

theorem opAddGrant_of_full (hu : s.undamaged = true) (h : addArgumentsOk s.window = true)
    (hc : s.clock.value.isSet = true)
    (hp : (minuteArg s.window.arg4).atOrBefore s.clock.value.calendar.minute = false)
    (hfull : ∀ k, 1 ≤ k → k ≤ 1024 → (s.slot k).header.value.state ≠ .free) : opAddGrant s = refuse .tableFull s := by
  simp only [opAddGrant, h, readClockItem_undamaged hu, hc, addedGrant, hp, Bool.false_eq_true, if_true, if_false,
    findFreeSlot_undamaged hu, find_freeSlot_none hfull]

/-- The grant is placed in the lowest FREE slot (R9). -/
theorem opAddGrant_of_placed (hu : s.undamaged = true) (h : addArgumentsOk s.window = true)
    (hc : s.clock.value.isSet = true) (hnow : now = s.clock.value.calendar.minute) (hg : g = addedGrant s.window now)
    (hp : g.validUntil.atOrBefore now = false) {k : Nat} (h1 : 1 ≤ k) (h2 : k ≤ 1024)
    (hfree : (s.slot k).header.value.state = .free)
    (hlow : ∀ j, 1 ≤ j → j < k → (s.slot j).header.value.state ≠ .free) :
    opAddGrant s = finish (.okWith { arg7 := handleWordWith ⟨k, (s.slot k).header.value.issue + 1⟩ (g.placedState now) })
      (writeSlot k ⟨g.placedState now, (s.slot k).header.value.issue + 1⟩ g s) := by
  subst hnow hg
  simp only [opAddGrant, h, readClockItem_undamaged hu, hc, hp, Bool.false_eq_true, if_true, if_false,
    findFreeSlot_undamaged hu, find_freeSlot h1 h2 hfree hlow, readSlotHeader_undamaged hu]

end

/-- Settles O10: the lowest FREE slot is the one the search of the headers finds. -/
theorem addGrantPlacesOrRefuses : Obligations.AddGrantPlacesOrRefuses := by
  unfold Obligations.AddGrantPlacesOrRefuses
  refine ⟨?_, fun s ha hu => ?_⟩
  · rintro s k g now issue st ha hu hargs hset hnow hg huntil h1 h2 hfree hlow rfl rfl
    refine ⟨?_, by rw [hg]; rfl, fun u huses => ?_, by rw [hg]; rfl⟩
    · rw [exec_addGrant_of_accepts ha]
      exact congrArg _ (opAddGrant_of_placed (s := accepted 0x10 s) hu hargs hset hnow hg huntil h1 h2 hfree hlow)
    · obtain ⟨-, rfl⟩ : _ ∧ _ = u := by simpa [hg, addedGrant] using huses
      rfl
  · rw [exec_addGrant_of_accepts ha]
    exact ⟨fun h => congrArg _ (opAddGrant_of_bad_arguments (s := accepted 0x10 s) h),
      fun h hc => congrArg _ (opAddGrant_of_unset (s := accepted 0x10 s) hu h hc),
      fun h hc hp => congrArg _ (opAddGrant_of_past (s := accepted 0x10 s) hu h hc hp),
      fun h hc hp hfull => congrArg _ (opAddGrant_of_full (s := accepted 0x10 s) hu h hc hp hfull)⟩

end Sys2Proof.Machine

namespace Sys2Proof.Machine
open Sys2Proof

/-! ## The questions of RETIRE GRANT (R21) -/

theorem mem_openPairs {s : State} {slot : Nat} :
    slot ∈ s.openPairs ↔ (1 ≤ slot ∧ slot ≤ 8) ∧ (s.pair slot).isSome = true := by
  simp only [State.openPairs, List.mem_filter, mem_numbersFrom, Config.pairSlots]
  refine and_congr_left fun _ => and_congr_right fun _ => ?_
  omega

/-- An open context satisfies a question exactly where one of the slots 1-8 holds such a context (R92, R103). -/
theorem anyPair_iff (s : State) (which : PairContext → Bool) :
    s.anyPair which = true ↔ ∃ slot c, 1 ≤ slot ∧ slot ≤ 8 ∧ s.pair slot = some c ∧ which c = true := by
  simp only [State.anyPair, List.any_eq_true, mem_openPairs, Option.any_eq_true]
  constructor
  · rintro ⟨slot, ⟨⟨h1, h2⟩, -⟩, c, hc, hw⟩
    exact ⟨slot, c, h1, h2, hc, hw⟩
  · rintro ⟨slot, c, h1, h2, hc, hw⟩
    exact ⟨slot, ⟨⟨h1, h2⟩, by simp [hc]⟩, c, hc, hw⟩

theorem reachedApproval_isSome (which : ReferralEntry → ApprovalView → Bool) (e : ReferralEntry) :
    (reachedApproval which e).isSome = true ↔ ∃ a, e.approval? = some a ∧ which e a = true := by
  unfold reachedApproval
  cases e.approval? with
  | none => simp
  | some a => by_cases h : which e a = true <;> simp [h]

/-- An approval satisfies a question (R125). -/
theorem anyApproval_iff (s : State) (which : ReferralEntry → ApprovalView → Bool) :
    s.anyApproval which = true ↔ ∃ e ∈ s.referrals, ∃ a, e.approval? = some a ∧ which e a = true := by
  simp only [State.anyApproval, List.any_eq_true, reachedApproval_isSome]

theorem approval?_eq_some {e : ReferralEntry} {a : ApprovalView} :
    e.approval? = some a ↔ e.kind = .approval a.handle a.state a.seconds a.closure := by
  obtain ⟨h, st, n, c⟩ := a
  unfold ReferralEntry.approval?
  split <;> rename_i hk <;> simp [hk]

theorem isApproval_iff (e : ReferralEntry) : e.isApproval = true ↔ ∃ h st n c, e.kind = .approval h st n c := by
  unfold ReferralEntry.isApproval
  split <;> rename_i hk <;> simp [hk]

theorem holds_iff (e : VerdictEntry) (which : PermitData → Bool) :
    e.holds which = true ↔ ∃ p, e.permit = some p ∧ which p = true := by
  unfold VerdictEntry.holds
  cases e.permit <;> simp

theorem engineHolds_iff (h : Handle) (s : State) : engineHolds h s = true ↔ holdsAt h 0 s := by
  unfold engineHolds
  simp only [holdsAt, Bool.or_eq_true, List.any_eq_true, holds_iff, PermitData.holdsHandle, decide_eq_true_eq]
  refine or_congr_right ?_
  cases s.seat <;> simp

/-- A walk of the pool that only counts answers how many of its records can be read and are counted; it changes nothing. -/
theorem forReadable_count {s : State} (hu : s.undamaged = true) (p : Nat → PresenceBody → Bool)
    (act : Nat → PresenceBody → State → Bool × State) (hact : ∀ id b, act id b s = (p id b, s)) (ids : List Nat) :
    forReadable act ids s =
      ((ids.filter (fun id => !(s.index id).faulted && p id (s.record id).body.value)).length, s) := by
  induction ids with
  | nil => rfl
  | cons id ids ih =>
    simp only [forReadable, readPresenceBody_undamaged hu, List.filter_cons]
    by_cases hf : (s.index id).faulted = true
    · simp [hf, ih]
    · simp only [hf, Bool.false_eq_true, if_false, hact, ih, Bool.not_false, Bool.true_and]
      cases p id (s.record id).body.value <;> simp

theorem poolHolds_undamaged {s : State} (hu : s.undamaged = true) (h : Handle) :
    ∃ b, poolHolds h s = (b, s) ∧ (b = true ↔ holdsAt h 3 s) := by
  have hcount := forReadable_count hu (fun _ b => decide (b.handle = some h))
    (fun _ b s => if b.handle = some h then (true, s) else (false, s)) (fun _ b => by split <;> simp_all) s.inUseRecords
  refine ⟨_, by simp only [poolHolds, forHolders, forHoldersIn, scanIndexes_undamaged hu, hcount]; rfl, ?_⟩
  simp only [holdsAt, decide_eq_true_eq, ne_eq, List.length_eq_zero_iff, List.filter_eq_nil_iff, not_forall, not_not,
    Bool.and_eq_true, Bool.not_eq_true', exists_prop]

/-- What a question of RETIRE GRANT answers in undamaged storage; asking changes nothing. -/
theorem retireAsk_undamaged {s : State} (hu : s.undamaged = true) (h : Handle) {asked : Nat} (hq : asked ≤ 3) :
    ∃ b, retireAsk h asked s = (b, s) ∧ (b = true ↔ holdsAt h asked s) := by
  match asked, hq with
  | 0, _ => exact ⟨_, rfl, engineHolds_iff h s⟩
  | 1, _ =>
    refine ⟨_, rfl, (anyPair_iff s _).trans ?_⟩
    simp only [holdsAt, decide_eq_true_eq]
  | 2, _ =>
    refine ⟨_, rfl, (anyApproval_iff s _).trans ?_⟩
    simp only [holdsAt, decide_eq_true_eq, approval?_eq_some]
    constructor
    · rintro ⟨e, he, a, hk, rfl⟩
      exact ⟨e, he, _, _, _, hk⟩
    · rintro ⟨e, he, st, n, c, hk⟩
      exact ⟨e, he, ⟨h, st, n, c⟩, hk, rfl⟩
  | 3, _ => exact poolHolds_undamaged hu h

theorem holderOf_iff (h : Handle) (s : State) : holderOf h s ↔ ∃ q, q ≤ 3 ∧ holdsAt h q s := by
  constructor
  · rintro (hq | hq | hq | hq | hq)
    · exact ⟨0, by decide, Or.inl hq⟩
    · exact ⟨0, by decide, Or.inr hq⟩
    · exact ⟨1, by decide, hq⟩
    · exact ⟨2, by decide, hq⟩
    · exact ⟨3, by decide, hq⟩
  · rintro ⟨q, hq, hh⟩
    match q, hq with
    | 0, _ => exact hh.elim Or.inl (fun h => Or.inr (Or.inl h))
    | 1, _ => exact Or.inr (Or.inr (Or.inl hh))
    | 2, _ => exact Or.inr (Or.inr (Or.inr (Or.inl hh)))
    | 3, _ => exact Or.inr (Or.inr (Or.inr (Or.inr hh)))

/-! ## The steps of RETIRE GRANT -/

section
variable {s : State} {h : Handle} {asked : Nat}

/-- A slot that the tamper clear has freed meanwhile (R21). -/
theorem retireStep_of_free (hu : s.undamaged = true) (hf : (s.slot h.slot).header.value.state = .free) :
    retireStep h asked s = endRetire .ok s := by
  simp only [retireStep, readSlotHeader_undamaged hu, hf, if_true]

theorem retireStep_of_holder (hu : s.undamaged = true) (hf : (s.slot h.slot).header.value.state ≠ .free)
    (hq : asked ≤ 3) (hh : holdsAt h asked s) : retireStep h asked s = endRetire .inUse s := by
  obtain ⟨b, hb, hiff⟩ := retireAsk_undamaged hu h hq
  simp only [retireStep, readSlotHeader_undamaged hu, hf, if_false, hb, hiff.mpr hh, if_true]

theorem retireStep_of_next (hu : s.undamaged = true) (hf : (s.slot h.slot).header.value.state ≠ .free)
    (hq : asked < 3) (hh : ¬ holdsAt h asked s) :
    retireStep h asked s = { s with work := some (.retire h (asked + 1)) } := by
  obtain ⟨b, hb, hiff⟩ := retireAsk_undamaged hu h hq.le
  simp only [retireStep, readSlotHeader_undamaged hu, hf, Bool.false_eq_true, if_false, hb,
    mt hiff.mp hh, hq, if_true]

theorem retireStep_of_last (hu : s.undamaged = true) (hf : (s.slot h.slot).header.value.state ≠ .free)
    (hh : ¬ holdsAt h 3 s) :
    retireStep h 3 s = endRetire .ok (writeSlot h.slot ⟨.free, (s.slot h.slot).header.value.issue⟩ .empty s) := by
  obtain ⟨b, hb, hiff⟩ := retireAsk_undamaged hu h le_rfl
  simp only [retireStep, readSlotHeader_undamaged hu, hf, Bool.false_eq_true, if_false, hb,
    mt hiff.mp hh, lt_irrefl]

end

/-- The questions left, asked one after another: IN USE with the first that finds a holder, else the slot is freed. -/
theorem runOwn_retire (h : Handle) (left : Nat) : ∀ {s : State} {asked n : Nat}, s.undamaged = true →
    (s.slot h.slot).header.value.state ≠ .free → asked + left = 3 → s.work = some (.retire h asked) → left < n →
    ((∃ q, asked ≤ q ∧ q ≤ 3 ∧ holdsAt h q s) → runOwn n s = endRetire .inUse s) ∧
    ((∀ q, asked ≤ q → q ≤ 3 → ¬ holdsAt h q s) → runOwn n s =
      endRetire .ok (writeSlot h.slot ⟨.free, (s.slot h.slot).header.value.issue⟩ .empty s)) := by
  induction left with
  | zero =>
    rintro s asked (_ | n) hu hf rfl hw hn
    · omega
    have hrun : runOwn (n + 1) s = runOwn n (retireStep h 3 s) := by simp only [runOwn, hw]; rfl
    refine ⟨?_, fun hnone => ?_⟩
    · rintro ⟨q, h1, h2, hq⟩
      obtain rfl : q = 3 := by omega
      rw [hrun, retireStep_of_holder hu hf le_rfl hq]
      exact runOwn_of_ready (r := .bare .inUse) rfl n
    · rw [hrun, retireStep_of_last hu hf (hnone 3 le_rfl le_rfl)]
      exact runOwn_of_ready (r := .bare .ok) rfl n
  | succ left ih =>
    rintro s asked (_ | n) hu hf hq hw hn
    · omega
    have hrun : runOwn (n + 1) s = runOwn n (retireStep h asked s) := by simp only [runOwn, hw]; rfl
    by_cases hh : holdsAt h asked s
    · rw [hrun, retireStep_of_holder hu hf (by omega) hh]
      exact ⟨fun _ => runOwn_of_ready (r := .bare .inUse) rfl n, fun hnone => absurd hh (hnone asked le_rfl (by omega))⟩
    · rw [hrun, retireStep_of_next hu hf (by omega) hh]
      obtain ⟨ih1, ih2⟩ := ih (s := { s with work := some (.retire h (asked + 1)) }) (n := n) hu hf (by omega) rfl (by omega)
      refine ⟨?_, fun hnone => ih2 fun q hq => hnone q (by omega)⟩
      rintro ⟨q, h1, h2, hq'⟩
      refine ih1 ⟨q, ?_, h2, hq'⟩
      rcases Nat.eq_or_lt_of_le h1 with rfl | h1
      · exact absurd hq' hh
      · exact h1

/-- The handle of a slot in use passes its three checks (R5). -/
theorem checkHandle_of_match {s : State} (hu : s.undamaged = true) {h : Handle} {st : GrantState} (h1 : 1 ≤ h.slot)
    (h2 : h.slot ≤ 1024) (hf : st ≠ .free) (hs : (s.slot h.slot).header.value = ⟨st, h.issue⟩) :
    checkHandle h s = (.ok ⟨st, h.issue⟩, s) := by
  rw [checkHandle_undamaged hu, if_pos ⟨h1, h2⟩]
  simp only [hs, hf, if_false, ne_eq, not_true]

/-- RETIRE GRANT of a named grant: the hold is placed, and the questions of the pause are asked. -/
theorem exec_retireGrant_of_named {s : State} {h : Handle} {st : GrantState} (hn : namesGrant s h st) (pause : Pause) :
    exec (.retireGrant pause) s = .next (runOwnPaused pause
      { accepted 0x15 s with retireHold := some h.slot, work := some (.retire h 0) }) := by
  obtain ⟨ha, hu, hh, h1, h2, hf, hs⟩ := hn
  have hc := checkHandle_of_match (s := accepted 0x15 s) hu h1 h2 hf hs
  simp only [exec, execRetireGrant, sequenceCommand, commandWrite_of_accepts ha, opRetireGrant, accepted_frame, ← hh, hc]

/-- Settles O15: the four questions one after another, with the hold placed before and removed behind them. -/
theorem retireGrantFreesOrRefuses : Obligations.RetireGrantFreesOrRefuses := by
  unfold Obligations.RetireGrantFreesOrRefuses
  intro s h st hn
  have hf := hn.2.2.2.2.2.1
  have hs := hn.2.2.2.2.2.2
  obtain ⟨hheld, hfree⟩ := runOwn_retire h 3 (asked := 0) (n := ownBound)
    (s := { accepted 0x15 s with retireHold := some h.slot, work := some (.retire h 0) }) hn.2.1
    (by exact fun e => hf ((congrArg SlotHeader.state hs).symm.trans e)) rfl rfl (by decide)
  refine ⟨fun hnone => ?_, fun hh => ?_, exec_retireGrant_of_named hn (some 0)⟩
  · rw [exec_retireGrant_of_named hn none]
    have hissue : h.issue = (s.slot h.slot).header.value.issue := (congrArg SlotHeader.issue hs).symm
    rw [hissue]
    exact congrArg _ (hfree fun q _ hq hq' => hnone ((holderOf_iff h s).mpr ⟨q, hq, hq'⟩))
  · rw [exec_retireGrant_of_named hn none]
    obtain ⟨q, hq, hq'⟩ := (holderOf_iff h s).mp hh
    exact congrArg _ (hheld ⟨q, Nat.zero_le q, hq, hq'⟩)

end Sys2Proof.Machine

namespace Sys2Proof.Machine
open Sys2Proof

/-! ## Undamaged storage, written -/

theorem undamaged_iff (s : State) : s.undamaged = true ↔ Undamaged s := by
  refine ⟨Undamaged.of, fun h => ?_⟩
  obtain ⟨h1, h2, h3, h4, h5, h6, h7, h8, h9, h10, h11, h12, h13, h14⟩ := h
  simp only [State.undamaged, h1, h2, h3, h4, h5, h6, h7, h8, h9, h10, h11, h12, h13, h14, Bool.and_self]

theorem setSlot_undamaged {s : State} (hu : s.undamaged = true) (k : Nat) {v : Slot} (hv : v.undamaged = true) :
    (s.setSlot k v).undamaged = true :=
  (undamaged_iff _).mpr { Undamaged.of hu with grants := Table.all_set _ Slot.undamaged (Undamaged.of hu).grants k v hv }

theorem setRoom_undamaged {s : State} (hu : s.undamaged = true) (k : Nat) {v : Room} (hv : v.undamaged = true) :
    (s.setRoom k v).undamaged = true :=
  (undamaged_iff _).mpr { Undamaged.of hu with rooms := Table.all_set _ Room.undamaged (Undamaged.of hu).rooms k v hv }

theorem setRecord_undamaged {s : State} (hu : s.undamaged = true) (k : Nat) {v : PresenceRecord}
    (hv : v.undamaged = true) : (s.setRecord k v).undamaged = true :=
  (undamaged_iff _).mpr
    { Undamaged.of hu with presence := Table.all_set _ PresenceRecord.undamaged (Undamaged.of hu).presence k v hv }

theorem setStation_undamaged {s : State} (hu : s.undamaged = true) (k : Nat) {v : Station} (hv : v.undamaged = true) :
    (s.setStation k v).undamaged = true :=
  (undamaged_iff _).mpr
    { Undamaged.of hu with stations := Table.all_set _ Station.undamaged (Undamaged.of hu).stations k v hv }

theorem Voted.eq_of_clean {α : Type} [DecidableEq α] {v : Voted α} (h : v.clean = true) : v = .of v.value := by
  obtain ⟨⟨a, i⟩, ⟨b, j⟩, ⟨c, k⟩⟩ := v
  simp only [Voted.clean, Bool.and_eq_true, beq_iff_eq, decide_eq_true_eq] at h
  obtain ⟨⟨⟨⟨rfl, rfl⟩, rfl⟩, rfl⟩, rfl⟩ := h
  simp [Voted.value]

theorem Stored.eq_of_good {α : Type} {x : Stored α} (h : x.good = true) : x = .of x.value := by
  obtain ⟨v, c⟩ := x
  simpa [Stored.good] using h

theorem Slot.eq_of_undamaged {x : Slot} (h : x.undamaged = true) : x = ⟨.of x.header.value, .of x.body.value⟩ := by
  simp only [Slot.undamaged, Bool.and_eq_true] at h
  obtain ⟨header, body⟩ := x
  exact congrArg₂ Slot.mk (Voted.eq_of_clean h.1) (Stored.eq_of_good h.2)

@[simp] theorem Slot.undamaged_of (h : SlotHeader) (g : GrantRecord) : Slot.undamaged ⟨.of h, .of g⟩ = true := by
  simp [Slot.undamaged, Stored.good]

/-- The parts of State.tablesWf. -/
theorem tablesWf_iff (s : State) : s.tablesWf = true ↔
    Table.wf Slot.cleared s.grants = true ∧ Table.wf Room.cleared s.rooms = true ∧
    Table.wf PresenceRecord.free s.presence = true ∧ Table.wf Station.cleared s.stations = true ∧
    Table.wf none s.pairs = true := by
  simp only [State.tablesWf, Bool.and_eq_true, and_assoc]

theorem setSlot_tablesWf {s : State} (hw : s.tablesWf = true) (k : Nat) (v : Slot) : (s.setSlot k v).tablesWf = true := by
  rw [tablesWf_iff] at hw ⊢
  exact ⟨Table.wf_set _ hw.1 k v, hw.2⟩

/-! ## The claim (R13) -/

section
variable {s : State} {h : Handle} {c : Credential} {key : Key} {t : Minute} {g : GrantRecord} {st : GrantState}
  {issue : BitVec 8}

theorem claimSlot_of_unread (hu : s.undamaged = true) (hs : (s.slot h.slot).header.value = ⟨st, issue⟩)
    (hst : st = .free ∨ st = .faulted) : claimSlot h c key t s = (.refused none, s) := by
  simp only [claimSlot, readSlotHeader_undamaged hu, hs]
  rcases hst with rfl | rfl <;> rfl

/-- A claim looks at the slot that can be read, the issue number, R10's conditions and the retire hold. -/
theorem claimSlot_of_read (hu : s.undamaged = true) (hs : (s.slot h.slot).header.value = ⟨st, issue⟩)
    (hf : st ≠ .free) (hd : st ≠ .faulted) (hg : (s.slot h.slot).body.value = g) : claimSlot h c key t s =
      if issue = h.issue ∧ g.usable st c key t = true ∧ s.retireHold ≠ some h.slot then
        (.granted ⟨h, (takeUse g).2.2⟩, writeSlot h.slot ⟨(takeUse g).1, issue⟩ (takeUse g).2.1 s)
      else (.refused (some (st, g)), s) := by
  subst hg
  simp only [claimSlot, readSlotHeader_undamaged hu, readSlotBody_undamaged hu, hs]
  cases st with
  | free => exact absurd rfl hf
  | faulted => exact absurd rfl hd
  | pending | active | spent | suspended | lapsed | revoked => rfl

/-- A grant in a slot that is FREE or FAULTED is not usable. -/
theorem inForce_of_usable (h : g.usable st c key t = true) : st = .pending ∨ st = .active := by
  simp only [GrantRecord.usable, Bool.and_eq_true] at h
  exact (inForce_iff st).mp h.1.1.1.1

theorem claimSlot_of_usable (hu : s.undamaged = true) (hs : (s.slot h.slot).header.value = ⟨st, issue⟩)
    (hg : (s.slot h.slot).body.value = g) (husable : g.usable st c key t = true) (hi : issue = h.issue)
    (hr : s.retireHold ≠ some h.slot) : claimSlot h c key t s =
      (.granted ⟨h, (takeUse g).2.2⟩, writeSlot h.slot ⟨(takeUse g).1, issue⟩ (takeUse g).2.1 s) := by
  have hst := inForce_of_usable husable
  rw [claimSlot_of_read hu hs (by rintro rfl; simp at hst) (by rintro rfl; simp at hst) hg, if_pos ⟨hi, husable, hr⟩]

theorem claimSlot_of_not_usable (hu : s.undamaged = true) (hs : (s.slot h.slot).header.value = ⟨st, issue⟩)
    (hg : (s.slot h.slot).body.value = g) (hf : st ≠ .free) (hd : st ≠ .faulted)
    (hno : g.usable st c key t = false ∨ issue ≠ h.issue ∨ s.retireHold = some h.slot) :
    claimSlot h c key t s = (.refused (some (st, g)), s) := by
  rw [claimSlot_of_read hu hs hf hd hg, if_neg]
  rintro ⟨hi, husable, hr⟩
  rcases hno with h1 | h1 | h1
  · simp [husable] at h1
  · exact h1 hi
  · exact hr h1

end

/-! ## The returned use (R14) -/

/-- A slot once one use has been given back to its grant, up to its allowance. -/
def Slot.returned (x : Slot) (now : Minute) : Slot :=
  match x.body.value.uses with
  | none => x
  | some u =>
    if x.header.value.state = .free ∨ x.header.value.state = .faulted ∨ u.allowance ≤ u.remaining then x
    else
      ⟨.of ⟨if x.header.value.state = .spent then
          (if x.body.value.validFrom.atOrBefore now then .active else .pending)
        else x.header.value.state, x.header.value.issue⟩,
        .of { x.body.value with uses := some { u with remaining := u.remaining + 1 } }⟩

theorem Slot.returned_issue (x : Slot) (now : Minute) : (x.returned now).header.value.issue = x.header.value.issue := by
  unfold Slot.returned
  split
  · rfl
  · split
    · rfl
    · rw [Voted.value_of]

theorem Slot.returned_undamaged {x : Slot} (hx : x.undamaged = true) (now : Minute) : (x.returned now).undamaged = true := by
  unfold Slot.returned
  split
  · exact hx
  · split
    · exact hx
    · exact Slot.undamaged_of _ _

/-- A grant that can be read, and that has an allowance with a use taken (R14). -/
def Slot.takesUse (x : Slot) : Prop :=
  x.header.value.state ≠ .free ∧ x.header.value.state ≠ .faulted ∧
    ∃ u, x.body.value.uses = some u ∧ u.remaining < u.allowance

theorem Slot.returned_of_not_takesUse {x : Slot} (h : ¬ x.takesUse) (now : Minute) : x.returned now = x := by
  unfold Slot.returned
  split
  · rfl
  · rename_i u hu
    rw [if_pos]
    by_contra hno
    obtain ⟨hf, hd, hle⟩ := not_or.mp hno |>.imp_right not_or.mp
    exact h ⟨hf, hd, u, hu, Nat.lt_of_not_le hle⟩

section
variable {s : State} {h : Handle} (hu : s.undamaged = true)
include hu

theorem returnUse_of_dropped (hno : (s.slot h.slot).header.value.issue ≠ h.issue ∨ ¬ (s.slot h.slot).takesUse) :
    returnUse h s = s := by
  unfold returnUse
  simp only [readSlotHeader_undamaged hu, readSlotBody_undamaged hu]
  split
  · rfl
  · rename_i hread
    obtain ⟨hf, hi, hd⟩ := not_or.mp hread |>.imp_right not_or.mp
    split
    · rfl
    · rename_i u huses
      rw [if_pos]
      by_contra hle
      exact hno.elim hi fun hno => hno ⟨hf, hd, u, huses, Nat.lt_of_not_le hle⟩

theorem returnUse_of_taken (hi : (s.slot h.slot).header.value.issue = h.issue) (ht : (s.slot h.slot).takesUse) :
    returnUse h s = s.setSlot h.slot ((s.slot h.slot).returned s.clock.value.calendar.minute) := by
  obtain ⟨hf, hd, u, huses, hlt⟩ := ht
  have hx := Slot.eq_of_undamaged (slot_undamaged hu h.slot)
  unfold returnUse
  simp only [readSlotHeader_undamaged hu, readSlotBody_undamaged hu, presentMinute_undamaged hu, hf, hi, hd, ne_eq,
    not_true, or_self, if_false, huses, Nat.not_le.mpr hlt, Slot.returned]
  split
  · rfl
  · exact congrArg (fun x => s.setSlot h.slot ⟨x, _⟩) ((congrArg Slot.header hx).trans (by rw [← hi]))

/-- A returned use in undamaged storage: the slot named is written where its grant takes the use, else nothing is. -/
theorem returnUse_cases : returnUse h s = s ∨
    returnUse h s = s.setSlot h.slot ((s.slot h.slot).returned s.clock.value.calendar.minute) := by
  by_cases hi : (s.slot h.slot).header.value.issue = h.issue
  · by_cases ht : (s.slot h.slot).takesUse
    · exact Or.inr (returnUse_of_taken hu hi ht)
    · exact Or.inl (returnUse_of_dropped hu (Or.inr ht))
  · exact Or.inl (returnUse_of_dropped hu (Or.inl hi))

theorem returnUse_undamaged : (returnUse h s).undamaged = true := by
  rcases returnUse_cases hu (h := h) with he | he <;> rw [he]
  · exact hu
  · exact setSlot_undamaged hu _ (Slot.returned_undamaged (slot_undamaged hu _) _)

theorem returnUse_tablesWf (hw : s.tablesWf = true) : (returnUse h s).tablesWf = true := by
  rcases returnUse_cases hu (h := h) with he | he <;> rw [he]
  · exact hw
  · exact setSlot_tablesWf hw _ _

/-- A returned use writes grants alone. -/
theorem returnUse_eq : returnUse h s = { s with grants := (returnUse h s).grants } := by
  rcases returnUse_cases hu (h := h) with he | he
  · rw [he]
  · rw [he]
    rfl

/-- After a returned use only the slot named may differ, and that only where the issue numbers agree. -/
theorem returnUse_slot (hw : s.tablesWf = true) (j : Nat) :
    (returnUse h s).slot j = if j = h.slot ∧ (s.slot j).header.value.issue = h.issue then
      (s.slot j).returned s.clock.value.calendar.minute else s.slot j := by
  by_cases hi : (s.slot h.slot).header.value.issue = h.issue
  · by_cases ht : (s.slot h.slot).takesUse
    · rw [returnUse_of_taken hu hi ht, slot_setSlot ((tablesWf_iff s).mp hw).1]
      by_cases hj : j = h.slot
      · subst hj
        rw [if_pos rfl, if_pos ⟨rfl, hi⟩]
      · rw [if_neg hj, if_neg (fun hh => hj hh.1)]
    · rw [returnUse_of_dropped hu (Or.inr ht)]
      split
      · rename_i hj
        rw [hj.1, Slot.returned_of_not_takesUse ht]
      · rfl
  · rw [returnUse_of_dropped hu (Or.inl hi), if_neg]
    rintro ⟨rfl, hj⟩
    exact hi hj

end

/-- Settles O17: the claim's case split, and what a returned use makes of the slot. -/
theorem usesAreTakenAndReturned : Obligations.UsesAreTakenAndReturned := by
  unfold Obligations.UsesAreTakenAndReturned
  refine ⟨fun s h c key t g st issue hu hs hg => ⟨fun husable hi hr => ?_, fun hno hf hd => ?_, fun hst => ?_⟩,
    fun s h g st issue hu hw hs hg => ⟨fun hno => ?_, fun u huses hle => ?_, ?_⟩⟩
  · rw [claimSlot_of_usable hu hs hg husable hi hr]
    cases huses : g.uses <;> simp only [takeUse, huses]
  · exact claimSlot_of_not_usable hu hs hg hf hd hno
  · exact claimSlot_of_unread hu hs hst
  · refine returnUse_of_dropped hu ?_
    by_cases hi : issue = h.issue
    · refine Or.inr ?_
      rintro ⟨hf, hd, u, huses, -⟩
      simp only [hs, hg] at hf hd huses
      rcases hno with h1 | h1 | h1 | h1
      · exact hf h1
      · exact hd h1
      · exact h1 hi
      · simp [h1] at huses
    · exact Or.inl (by rw [hs]; exact hi)
  · refine returnUse_of_dropped hu (Or.inr ?_)
    rintro ⟨-, -, v, hv, hlt⟩
    rw [hg, huses] at hv
    cases hv
    omega
  · rintro u st' huses hlt hf hd rfl rfl
    have hx : s.slot h.slot = ⟨.of ⟨st, h.issue⟩, .of g⟩ := by
      rw [← hs, ← hg]
      exact Slot.eq_of_undamaged (slot_undamaged hu _)
    refine ⟨?_, fun j hj => by rw [returnUse_slot hu hw, if_neg (fun hh => hj hh.1)]⟩
    rw [returnUse_slot hu hw, if_pos ⟨rfl, by rw [hs]⟩, hx]
    simp only [Slot.returned, Voted.value_of, huses, hf, hd, Nat.not_le.mpr hlt, or_self, if_false]
    split <;> rfl

end Sys2Proof.Machine

namespace Sys2Proof.Machine
open Sys2Proof

/-! ## READ GRANT (R22) -/

theorem exec_readGrant_of_named {s : State} {h : Handle} {st : GrantState} (hn : namesGrant s h st) :
    exec .readGrant s = .next (answered 0x16 (if st = .faulted then
      { code := .faulted, words := { arg7 := handleWordWith h .faulted } } else .okWith (grantWords h st (grantOf s h))) s) := by
  obtain ⟨ha, hu, hh, h1, h2, hf, hs⟩ := hn
  have hu' : (accepted 0x16 s).undamaged = true := hu
  simp only [exec, execReadGrant, commandWrite_of_accepts ha, opReadGrant, accepted_frame, ← hh,
    checkHandle_of_match hu' h1 h2 hf hs, readSlotBody_undamaged hu']
  by_cases hd : st = .faulted
  · simp only [hd, if_true]
    rfl
  · simp only [hd, if_false]
    rfl

/-! ## FIND GRANTS (R23, R24) -/

/-- What FIND GRANTS collects of a slot, where it qualifies. -/
def Slot.foundFor (x : Slot) (key : FindKey) (k : Nat) : Option (Handle × GrantState) :=
  match x.header.value.state with
  | .free => none
  | .faulted => if key = .all then some (⟨k, x.header.value.issue⟩, .faulted) else none
  | st => if key.qualifies x.body.value then some (⟨k, x.header.value.issue⟩, st) else none

theorem Slot.foundFor_cleared (key : FindKey) (k : Nat) : Slot.cleared.foundFor key k = none := rfl

theorem Slot.foundFor_slot {x : Slot} {key : FindKey} {k : Nat} {p : Handle × GrantState} (h : x.foundFor key k = some p) :
    p.1.slot = k := by
  unfold Slot.foundFor at h
  split at h
  · simp at h
  all_goals
    split at h
    · obtain rfl := Option.some.inj h
      rfl
    · simp at h

theorem qualifying_eq (key : FindKey) (start : Nat) (p : Nat × Slot) :
    qualifying key start p = if start ≤ p.1 ∧ p.1 ≤ 1024 then p.2.foundFor key p.1 else none := rfl

theorem findRead_undamaged {s : State} (hu : s.undamaged = true) (key : FindKey) (k : Nat) :
    findRead key k s = ((s.slot k).foundFor key k, s) := by
  simp only [findRead, readSlotHeader_undamaged hu, readSlotBody_undamaged hu, Slot.foundFor]
  cases (s.slot k).header.value.state <;> rfl

/-- The slots of a canonical table that qualify from a number on: that number's, and those from the next on. -/
theorem qualifying_from {low : Option Nat} {t : Table Slot} (hw : Table.wfFrom Slot.cleared low t = true) (key : FindKey)
    {c : Nat} (hc : c ≤ 1024) : t.filterMap (qualifying key c) =
      ((Table.get Slot.cleared t c).foundFor key c).toList ++ t.filterMap (qualifying key (c + 1)) := by
  induction t generalizing low with
  | nil => rfl
  | cons p rest ih =>
    obtain ⟨j, x⟩ := p
    have hrest : Table.wfFrom Slot.cleared (some j) rest = true := by
      simp only [Table.wfFrom, Bool.and_eq_true] at hw
      exact hw.2
    have hsame : c < j + 1 → rest.filterMap (qualifying key c) = rest.filterMap (qualifying key (c + 1)) := fun hj => by
      rw [ih hrest, Table.get_below _ hrest (Nat.lt_succ_iff.mp hj)]
      rfl
    rcases Nat.lt_trichotomy j c with hj | rfl | hj
    · simp only [List.filterMap_cons, qualifying_eq, Table.get, if_neg (Nat.ne_of_lt hj),
        if_neg (fun h : c ≤ j ∧ j ≤ 1024 => Nat.not_lt.mpr h.1 hj),
        if_neg (fun h : c + 1 ≤ j ∧ j ≤ 1024 => Nat.not_lt.mpr h.1 (by omega))]
      exact ih hrest
    · rw [List.filterMap_cons, List.filterMap_cons, hsame (Nat.lt_succ_self _), qualifying_eq, qualifying_eq,
        if_pos ⟨le_rfl, hc⟩, if_neg (fun h => absurd h.1 (by omega)), Table.get, if_pos rfl]
      cases x.foundFor key j <;> rfl
    · rw [List.filterMap_cons, List.filterMap_cons, hsame (by omega), Table.get, if_neg (Nat.ne_of_gt hj),
        Table.get_below _ hrest hj.le, Slot.foundFor_cleared, qualifying_eq, qualifying_eq]
      simp only [Nat.le_of_lt hj, Nat.succ_le_of_lt hj, true_and, Option.toList_none, List.nil_append]

theorem qualifying_slot {s : State} (hw : s.tablesWf = true) (key : FindKey) {c : Nat} (hc : c ≤ 1024) :
    s.grants.filterMap (qualifying key c) =
      ((s.slot c).foundFor key c).toList ++ s.grants.filterMap (qualifying key (c + 1)) :=
  qualifying_from ((tablesWf_iff s).mp hw).1 key hc

theorem qualifying_beyond (t : Table Slot) (key : FindKey) : t.filterMap (qualifying key 1025) = [] := by
  simp only [List.filterMap_eq_nil_iff, qualifying_eq]
  exact fun p _ => if_neg (by omega)

/-- What one read of FIND GRANTS does in undamaged storage. -/
theorem findStep_undamaged {s : State} (hu : s.undamaged = true) (key : FindKey) (cursor : Nat)
    (before : List (Handle × GrantState)) : findStep key cursor before s =
      if 6 ≤ (before ++ ((s.slot cursor).foundFor key cursor).toList).length ∨ Config.slots ≤ cursor then
        endFind (before ++ ((s.slot cursor).foundFor key cursor).toList) s
      else { s with work := some (.find key (cursor + 1) (before ++ ((s.slot cursor).foundFor key cursor).toList)) } := by
  simp only [findStep, findRead_undamaged hu]

/-- The slots left, read one after another, until six are found. -/
theorem runOwn_find (key : FindKey) (left : Nat) : ∀ {s : State} {cursor n : Nat} {before : List (Handle × GrantState)},
    s.undamaged = true → s.tablesWf = true → cursor + left = 1024 → s.work = some (.find key cursor before) →
    before.length < 6 → left < n →
    runOwn n s = endFind ((before ++ s.grants.filterMap (qualifying key cursor)).take 6) s := by
  induction left with
  | zero =>
    rintro s cursor (_ | n) before hu hw rfl hwork hlen hn
    · omega
    have hfrom := qualifying_slot hw key (c := 1024) le_rfl
    have hrun : runOwn (n + 1) s = runOwn n (findStep key 1024 before s) := by simp only [runOwn, hwork]; rfl
    rw [hrun, findStep_undamaged hu, if_pos (Or.inr le_rfl), hfrom, qualifying_beyond, List.append_nil, List.take_of_length_le]
    · exact runOwn_of_ready rfl n
    · rw [List.length_append]
      have : ((s.slot 1024).foundFor key 1024).toList.length ≤ 1 := Option.length_toList_le
      omega
  | succ left ih =>
    rintro s cursor (_ | n) before hu hw hc hwork hlen hn
    · omega
    have hfrom := qualifying_slot hw key (c := cursor) (by omega)
    have hrun : runOwn (n + 1) s = runOwn n (findStep key cursor before s) := by simp only [runOwn, hwork]; rfl
    have hone : ((s.slot cursor).foundFor key cursor).toList.length ≤ 1 := Option.length_toList_le
    rw [hrun, findStep_undamaged hu, hfrom, ← List.append_assoc]
    split
    · rename_i hend
      have hlen6 : (before ++ ((s.slot cursor).foundFor key cursor).toList).length = 6 := by
        rw [List.length_append] at hend ⊢
        simp only [Config.slots] at hend
        omega
      rw [List.take_left' hlen6]
      exact runOwn_of_ready rfl n
    · rename_i hgo
      exact ih (s := { s with work := _ }) hu hw (by omega) rfl (by omega) (by omega)

theorem findContinuation_eq (found : List (Handle × GrantState)) (h : found.length ≤ 6) : findContinuation found =
    if found.length = 6 then (match found.getLast? with
      | some p => if p.1.slot < 1024 then p.1.slot + 1 else 0
      | none => 0) else 0 := by
  unfold findContinuation
  by_cases h6 : found.length = 6
  · rw [if_neg (by omega), if_pos h6]
    cases found.getLast? <;> rfl
  · rw [if_pos (by omega), if_neg h6]

/-- The last slot read decides where a full page goes on (R23). -/
theorem findContinuation_of_full {before : List (Handle × GrantState)} (hb : before.length < 6)
    {one : Option (Handle × GrantState)} {cursor : Nat} (hone : ∀ p, one = some p → p.1.slot = cursor) :
    findContinuation (before ++ one.toList) =
      if (before ++ one.toList).length = 6 ∧ cursor < 1024 then cursor + 1 else 0 := by
  cases one with
  | none =>
    simp only [Option.toList_none, List.append_nil]
    rw [findContinuation, if_pos hb, if_neg (by omega)]
  | some p =>
    obtain rfl := hone p rfl
    rw [findContinuation_eq _ (by simp; omega)]
    by_cases h6 : (before ++ (some p).toList).length = 6 <;> simp_all

/-- Settles O16: the slots are read one after another, whole or one in each COMMAND_COMPLETION. -/
theorem readAndFindGrants : Obligations.ReadAndFindGrants := by
  unfold Obligations.ReadAndFindGrants
  refine ⟨fun s h st hn => ⟨fun hd => ?_, fun hd => ?_⟩, fun s ha hu hw => ⟨fun hbad => ?_, ?_⟩, ?_⟩
  · rw [exec_readGrant_of_named hn, if_neg hd]
  · rw [exec_readGrant_of_named hn, if_pos hd]
  · simp only [exec, execFindGrants, sequenceCommand, commandWrite_of_accepts ha, opFindGrants, accepted_frame, hbad,
      runOwnPaused_refuse]
    rfl
  · rintro key start found harg rfl
    have hstart : 1 ≤ start ∧ start ≤ 1024 := by
      unfold findArg at harg
      simp only [Config.slots] at harg
      split at harg
      · rename_i hs
        (repeat' split at harg) <;> simp_all
      · simp at harg
    have hrun := runOwn_find key (1024 - start) (n := ownBound) (before := [])
      (s := { accepted 0x17 s with work := some (.find key start []) }) hu hw (by omega) rfl (by decide)
      (by simp only [ownBound, Config.slots]; omega)
    simp only [exec, execFindGrants, sequenceCommand, commandWrite_of_accepts ha, opFindGrants, accepted_frame, harg]
    refine congrArg _ (hrun.trans ?_)
    rw [endFind, findContinuation_eq _ (List.length_take_le _ _)]
    rfl
  · rintro s key cursor before found hp hu hw hwork h1 h2 hb rfl
    have hfrom := qualifying_slot hw key h2
    have hone : (s.grants.filterMap (qualifying key cursor)).filter (fun p => decide (p.1.slot = cursor)) =
        ((s.slot cursor).foundFor key cursor).toList := by
      rw [hfrom, List.filter_append, List.filter_eq_self.mpr, List.filter_eq_nil_iff.mpr, List.append_nil]
      · intro p hp
        obtain ⟨x, -, hx⟩ := List.mem_filterMap.mp hp
        rw [qualifying_eq] at hx
        split at hx
        · rename_i hge
          rw [Slot.foundFor_slot hx, decide_eq_true_eq]
          omega
        · simp at hx
      · intro p hp
        simpa using Slot.foundFor_slot (Option.mem_toList.mp hp)
    have hlen : ((s.slot cursor).foundFor key cursor).toList.length ≤ 1 := Option.length_toList_le
    have hstep : exec .commandCompletion s = .next (findStep key cursor before s) :=
      congrArg _ (completeCommand_of_owed hp hwork rfl (by simp only [workResult, hwork]))
    rw [hone, hstep, findStep_undamaged hu, ← findContinuation_of_full hb fun p hp => Slot.foundFor_slot hp]
    rw [List.length_append] at *
    refine ⟨fun h6 hc => ?_, fun hend => ?_⟩
    · rw [if_neg (by simp only [Config.slots]; omega)]
    · rw [if_pos (by simp only [Config.slots]; omega)]
      rfl

end Sys2Proof.Machine

namespace Sys2Proof.Machine
open Sys2Proof

/-! ## The notes of a search (R12) -/

/-- A line of the notes stands after a search exactly where it stood before or some matching grant passed meets it. -/
theorem notes_foldl_iff {c : Credential} {key : Key} {t : Minute} {field : Notes → Bool}
    {line : GrantState → GrantRecord → Prop}
    (hadd : ∀ n st g, field (n.add st g c key t) = true ↔ field n = true ∨ (g.matching c key = true ∧ line st g))
    (passed : List (GrantState × GrantRecord)) (n : Notes) :
    field (passed.foldl (fun n p => n.add p.1 p.2 c key t) n) = true ↔ field n = true ∨ metBy c key passed line := by
  induction passed generalizing n with
  | nil => simp [metBy]
  | cons p passed ih =>
    rw [List.foldl_cons, ih, hadd]
    simp only [metBy, List.mem_cons, exists_eq_or_imp, or_assoc]

theorem notesOver_iff {c : Credential} {key : Key} {t : Minute} {field : Notes → Bool}
    {line : GrantState → GrantRecord → Prop} (hnone : field .none = false)
    (hadd : ∀ n st g, field (n.add st g c key t) = true ↔ field n = true ∨ (g.matching c key = true ∧ line st g))
    (passed : List (GrantState × GrantRecord)) :
    field (notesOver c key t passed) = true ↔ metBy c key passed line := by
  rw [notesOver, notes_foldl_iff hadd, hnone]
  simp only [Bool.false_eq_true, false_or]

section
variable (c : Credential) (key : Key) (t : Minute) (passed : List (GrantState × GrantRecord))

theorem notesOver_suspended : (notesOver c key t passed).suspended = true ↔
    metBy c key passed (fun st g => st = .suspended ∧ g.inWindow t = true) := by
  refine notesOver_iff (field := Notes.suspended) rfl (fun n st g => ?_) passed
  unfold Notes.add
  split
  · cases st <;> simp_all
  · simp_all

theorem notesOver_usesSpent : (notesOver c key t passed).usesSpent = true ↔
    metBy c key passed (fun st g => st = .spent ∧ g.inWindow t = true) := by
  refine notesOver_iff (field := Notes.usesSpent) rfl (fun n st g => ?_) passed
  unfold Notes.add
  split
  · cases st <;> simp_all
  · simp_all

theorem notesOver_outsideHours : (notesOver c key t passed).outsideHours = true ↔
    metBy c key passed (fun st g => (st = .pending ∨ st = .active) ∧ g.inWindow t = true ∧ g.inHoursAt t = false) := by
  refine notesOver_iff (field := Notes.outsideHours) rfl (fun n st g => ?_) passed
  unfold Notes.add
  split
  · cases st <;> simp_all
  · simp_all

theorem notesOver_outsideWindow : (notesOver c key t passed).outsideWindow = true ↔
    metBy c key passed (fun st g => (st = .pending ∨ st = .active) ∧ g.inWindow t = false) := by
  refine notesOver_iff (field := Notes.outsideWindow) rfl (fun n st g => ?_) passed
  unfold Notes.add
  split
  · cases st <;> simp_all
  · simp_all

theorem notesOver_revoked : (notesOver c key t passed).revoked = true ↔
    metBy c key passed (fun st _ => st = .revoked) := by
  refine notesOver_iff (field := Notes.revoked) rfl (fun n st g => ?_) passed
  unfold Notes.add
  split
  · cases st <;> simp_all
  · simp_all

end

/-! ## One operation of a decision -/

/-- One more operation of a request in hand (log 4). -/
theorem exec_takeRequest_of_deciding {s : State} {d : Decision} {side : Side} {p : Phase} (h : s.deciding d side p) :
    exec (.takeRequest (some 1)) s = .next (requestOp d side s) := by
  obtain ⟨ha, -, hs, hw, hab, -⟩ := h
  have htake : takeHead s = s := by simp only [takeHead, hs]
  have hdec : s.decidesRequest = true := by simp only [State.decidesRequest, hs, hw]
  simp only [exec, execTakeRequest, ha, if_true, htake, hdec, runPaused, runDecision, hs, Option.isSome_some, decisionOp,
    hw, hab, Bool.false_eq_true, if_false]

/-- A first request at a check is a request in hand. -/
theorem deciding_of_checking {s : State} {d : Decision} {p : Phase} (h : s.checking d p) : s.deciding d .outside p := by
  obtain ⟨ha, hu, hs, hw, hab, -, hp⟩ := h
  exact ⟨ha, hu, hs, hw, hab, hp⟩

/-- A check of a first request fails: DENY is placed and the seat is IDLE (R71). -/
theorem failCheck_of_first {d : Decision} {side : Side} (hw : d.work = .request side) (hh : d.holding = .none)
    (r : DenyReason) (s : State) : failCheck d r s = deniedWith d r s := by
  simp only [failCheck, hw, hh, placeVerdict_eq_placed _ _ _ _ _ (show Verdict.deny.isInterim = false from rfl)]
  rfl

theorem goOn_eq_goesOn (d : Decision) (p : Phase) (s : State) : goOn d p s = goesOn d p s := rfl

/-- A decision that stays at its operation. -/
theorem setSeat_eq_goesOn {d : Decision} {p : Phase} (h : d.phase = p) (s : State) : setSeat d s = goesOn d p s := by
  subst h
  rfl

/-! ## One read of a search (R11) -/

theorem usable_of_unread {g : GrantRecord} {st : GrantState} (h : st = .free ∨ st = .faulted) (c : Credential) (key : Key)
    (t : Minute) : g.usable st c key t = false := by
  rcases h with rfl | rfl <;> rfl

/-- A grant that is FREE or FAULTED meets no line of R12's table. -/
theorem Notes.add_of_unread {st : GrantState} (h : st = .free ∨ st = .faulted) (n : Notes) (g : GrantRecord)
    (c : Credential) (key : Key) (t : Minute) : n.add st g c key t = n := by
  rcases h with rfl | rfl <;> simp [Notes.add]

theorem searchRead_of_end {f : Search} (h : 1024 < f.cursor) (c : Credential) (key : Key) (t : Minute) (s : State) :
    searchRead c key t f s = (.exhausted f, s) := by
  simp only [searchRead, Config.slots, h, if_true]

/-- A read of a search in undamaged storage: the grant is found, or enters the notes in its present state. -/
theorem searchRead_undamaged {s : State} (hu : s.undamaged = true) {f : Search} (h : f.cursor ≤ 1024) {st : GrantState}
    {issue : BitVec 8} (hs : (s.slot f.cursor).header.value = ⟨st, issue⟩) (c : Credential) (key : Key) (t : Minute) :
    searchRead c key t f s =
      (if (s.slot f.cursor).body.value.usable st c key t then
        .found ⟨f.cursor + 1, f.notes, some (⟨f.cursor, issue⟩, (s.slot f.cursor).body.value.role)⟩
      else .passed { f with
        cursor := f.cursor + 1, notes := f.notes.add st (s.slot f.cursor).body.value c key t }, s) := by
  simp only [searchRead, Config.slots, Nat.not_lt.mpr h, if_false, readSlotHeader_undamaged hu, hs,
    readSlotBody_undamaged hu]
  by_cases hread : st = .free ∨ st = .faulted
  · rw [usable_of_unread hread, Notes.add_of_unread hread]
    rcases hread with rfl | rfl <;> rfl
  · cases husable : (s.slot f.cursor).body.value.usable st c key t <;> cases st <;> simp_all

section
variable {s : State} {d : Decision} {st : GrantState} {issue : BitVec 8}

theorem opSearch_of_end (h : 1024 < d.own.cursor) : opSearch d s = failCheck d d.own.notes.reason s := by
  rw [opSearch, searchRead_of_end h]

theorem opSearch_of_usable (hu : s.undamaged = true) (hc : d.own.cursor ≤ 1024)
    (hs : (s.slot d.own.cursor).header.value = ⟨st, issue⟩)
    (husable : (s.slot d.own.cursor).body.value.usable st d.credential d.key d.time = true) :
    opSearch d s = goesOn { d with own := ⟨d.own.cursor + 1, d.own.notes,
      some (⟨d.own.cursor, issue⟩, (s.slot d.own.cursor).body.value.role)⟩ } d.afterSearch s := by
  simp only [opSearch, searchRead_undamaged hu hc hs, husable, if_true]
  rfl

theorem opSearch_of_not_usable (hu : s.undamaged = true) (hc : d.own.cursor ≤ 1024)
    (hs : (s.slot d.own.cursor).header.value = ⟨st, issue⟩)
    (husable : (s.slot d.own.cursor).body.value.usable st d.credential d.key d.time = false) (hp : d.phase = .search) :
    opSearch d s = goesOn { d with own := { d.own with
      cursor := d.own.cursor + 1,
      notes := d.own.notes.add st (s.slot d.own.cursor).body.value d.credential d.key d.time } } .search s := by
  simp only [opSearch, searchRead_undamaged hu hc hs, husable, Bool.false_eq_true, if_false]
  exact setSeat_eq_goesOn (by exact hp) s

end

/-- Settles O19: the notes line by line, and what one read of an entry's search does. -/
theorem denyReasonIsTheFirstLine : Obligations.DenyReasonIsTheFirstLine := by
  unfold Obligations.DenyReasonIsTheFirstLine
  refine ⟨?_, ?_⟩
  · intro c key t passed suspended spent outHours outWindow revoked h1 h2 h3 h4 h5
    replace h1 := h1.trans (notesOver_suspended c key t passed).symm
    replace h2 := h2.trans (notesOver_usesSpent c key t passed).symm
    replace h3 := h3.trans (notesOver_outsideHours c key t passed).symm
    replace h4 := h4.trans (notesOver_outsideWindow c key t passed).symm
    replace h5 := h5.trans (notesOver_revoked c key t passed).symm
    refine ⟨fun a => ?_, fun a b => ?_, fun a b c => ?_, fun a b c d => ?_, fun a b c d e => ?_, fun a b c d e => ?_⟩ <;>
      simp_all [Notes.reason]
  · rintro s d passed now hc hnotes rfl
    have ⟨_, hu, _, hw, _, hh, hp⟩ := hc
    have hop : exec (.takeRequest (some 1)) s = .next (opSearch d s) := by
      rw [exec_takeRequest_of_deciding (deciding_of_checking hc), requestOp, hp]
    refine ⟨fun hcur hno => ?_, fun hcur => ?_⟩
    · rw [hop, opSearch_of_not_usable hu hcur rfl hno hp]
      simp only [hnotes, notesOver, List.foldl_append, List.foldl_cons, List.foldl_nil]
      rfl
    · rw [hop, opSearch_of_end hcur, failCheck_of_first hw hh, hnotes]

end Sys2Proof.Machine

namespace Sys2Proof.Machine
open Sys2Proof

/-! ## What the operations on stored items leave alone

A read through the integrity check, a slot, room or presence record written, a claim, a returned use, an admission or a
removal may change the stored items other than the station records, and the causes raised; the queues, the seat, the
contexts, the port and the notices stay as they are. -/

/-- The state with the stored items and the raised causes of another, the station records apart. -/
def State.withItems (s t : State) : State :=
  { s with
    clock := t.clock, trim := t.trim, grants := t.grants, rooms := t.rooms, presence := t.presence,
    barHeader := t.barHeader, barEntries := t.barEntries, pairWindow := t.pairWindow,
    referralTimeout := t.referralTimeout, linkConfig := t.linkConfig, health := t.health, tamper := t.tamper,
    deferred := t.deferred, attention := t.attention, resetCauses := t.resetCauses }

/-- From `s` to `t` nothing changes but stored items and raised causes. -/
def Calm (s t : State) : Prop := t = s.withItems t

theorem Calm.eq {s t : State} (h : Calm s t) : t = s.withItems t := h

theorem Calm.refl (s : State) : Calm s s := rfl

theorem Calm.trans {s t u : State} (h : Calm s t) (k : Calm t u) : Calm s u :=
  k.eq.trans (congrArg (fun x => State.withItems x u) h.eq :)

section
variable {s t : State} (h : Calm s t)
include h

theorem Calm.supply : t.supply = s.supply := (congrArg State.supply h.eq :)
theorem Calm.resetLow : t.resetLow = s.resetLow := (congrArg State.resetLow h.eq :)
theorem Calm.requests : t.requests = s.requests := (congrArg State.requests h.eq :)
theorem Calm.seat : t.seat = s.seat := (congrArg State.seat h.eq :)
theorem Calm.verdicts : t.verdicts = s.verdicts := (congrArg State.verdicts h.eq :)
theorem Calm.pairs : t.pairs = s.pairs := (congrArg State.pairs h.eq :)
theorem Calm.referrals : t.referrals = s.referrals := (congrArg State.referrals h.eq :)
theorem Calm.stations : t.stations = s.stations := (congrArg State.stations h.eq :)
theorem Calm.notices : t.notices = s.notices := (congrArg State.notices h.eq :)
theorem Calm.work : t.work = s.work := (congrArg State.work h.eq :)
theorem Calm.mode : t.mode = s.mode := (congrArg State.mode h.eq :)
theorem Calm.retireHold : t.retireHold = s.retireHold := (congrArg State.retireHold h.eq :)

end

variable {a s : State}

theorem Calm.foldl {β : Type} {f : State → β → State} (hf : ∀ {s : State} (x : β), Calm a s → Calm a (f s x)) (l : List β)
    (h : Calm a s) : Calm a (l.foldl f s) := by
  induction l generalizing s with
  | nil => exact h
  | cons x l ih => exact ih (hf x h)

/-! ### Causes and flags -/

@[simp] theorem markSiteCorrected_calm (h : Calm a s) : Calm a s.markSiteCorrected := h.trans rfl

@[simp] theorem raise_calm (c : Cause) (h : Calm a s) : Calm a (raise c s) := by
  unfold raise
  (repeat' split) <;> exact h.trans rfl

@[simp] theorem raiseIf_calm (b : Bool) (c : Cause) (h : Calm a s) : Calm a (raiseIf b c s) := by
  unfold raiseIf
  split <;> simp (maxDischargeDepth := 30) [h]

@[simp] theorem readHealth_calm (h : Calm a s) : Calm a (readHealth s).2 := by
  unfold readHealth
  split <;> simp (maxDischargeDepth := 30) [h]

@[simp] theorem noteCorrected_calm (r : Region) (h : Calm a s) : Calm a (noteCorrected r s) :=
  raise_calm _ ((readHealth_calm h).trans rfl)

@[simp] theorem noteUncorrectable_calm (r : Region) (h : Calm a s) : Calm a (noteUncorrectable r s) :=
  raise_calm _ ((readHealth_calm h).trans rfl)

/-! ### Reads and writes of stored items -/

theorem readVoted_calm {α : Type} [DecidableEq α] (region : Region) (item : Voted α) {put : Voted α → State → State}
    (hput : ∀ v, Calm s (put v s)) (h : Calm a s) : Calm a (readVoted region item put s).2 := by
  unfold readVoted
  split
  · exact h
  · exact noteCorrected_calm _ (h.trans (hput _))

@[simp] theorem readClockItem_calm (h : Calm a s) : Calm a (readClockItem s).2 := readVoted_calm _ _ (fun _ => rfl) h
@[simp] theorem readTrim_calm (h : Calm a s) : Calm a (readTrim s).2 := readVoted_calm _ _ (fun _ => rfl) h
@[simp] theorem presentMinute_calm (h : Calm a s) : Calm a (presentMinute s).2 := readClockItem_calm h
@[simp] theorem readWindowSeconds_calm (h : Calm a s) : Calm a (readWindowSeconds s).2 := readVoted_calm _ _ (fun _ => rfl) h
@[simp] theorem readTimeoutSeconds_calm (h : Calm a s) : Calm a (readTimeoutSeconds s).2 := readVoted_calm _ _ (fun _ => rfl) h
@[simp] theorem readConfig_calm (h : Calm a s) : Calm a (readConfig s).2 := readVoted_calm _ _ (fun _ => rfl) h
@[simp] theorem readTamper_calm (h : Calm a s) : Calm a (readTamper s).2 := readVoted_calm _ _ (fun _ => rfl) h
@[simp] theorem readDeferred_calm (h : Calm a s) : Calm a (readDeferred s).2 := readVoted_calm _ _ (fun _ => rfl) h
@[simp] theorem readBarHeader_calm (h : Calm a s) : Calm a (readBarHeader s).2 := readVoted_calm _ _ (fun _ => rfl) h
@[simp] theorem writeTamper_calm (t : Tamper) (h : Calm a s) : Calm a (writeTamper t s) := h.trans rfl

@[simp] theorem setSlot_calm (k : Nat) (v : Slot) (h : Calm a s) : Calm a (s.setSlot k v) := h.trans rfl
@[simp] theorem setRoom_calm (r : Nat) (v : Room) (h : Calm a s) : Calm a (s.setRoom r v) := h.trans rfl
@[simp] theorem setRecord_calm (id : Nat) (v : PresenceRecord) (h : Calm a s) : Calm a (s.setRecord id v) := h.trans rfl

@[simp] theorem readSlotHeader_calm (k : Nat) (h : Calm a s) : Calm a (readSlotHeader k s).2 :=
  readVoted_calm _ _ (fun _ => rfl) h
@[simp] theorem writeSlotHeader_calm (k : Nat) (v : SlotHeader) (h : Calm a s) : Calm a (writeSlotHeader k v s) := h.trans rfl
@[simp] theorem writeSlotBody_calm (k : Nat) (g : GrantRecord) (h : Calm a s) : Calm a (writeSlotBody k g s) := h.trans rfl
@[simp] theorem writeSlot_calm (k : Nat) (v : SlotHeader) (g : GrantRecord) (h : Calm a s) : Calm a (writeSlot k v g s) :=
  h.trans rfl

@[simp] theorem readSlotBody_calm (k : Nat) (h : Calm a s) : Calm a (readSlotBody k s).2 := by
  unfold readSlotBody
  split <;> simp (maxDischargeDepth := 30) [h]

@[simp] theorem readRoomHeader_calm (r : Nat) (h : Calm a s) : Calm a (readRoomHeader r s).2 :=
  readVoted_calm _ _ (fun _ => rfl) h
@[simp] theorem writeRoomHeader_calm (r : Nat) (v : RoomState) (h : Calm a s) : Calm a (writeRoomHeader r v s) := h.trans rfl
@[simp] theorem writeRoomBody_calm (r : Nat) (b : RoomBody) (h : Calm a s) : Calm a (writeRoomBody r b s) := h.trans rfl
@[simp] theorem updateRoomBody_calm (r : Nat) (f : RoomBody → RoomBody) (h : Calm a s) : Calm a (updateRoomBody r f s) :=
  h.trans rfl

@[simp] theorem readRoomRecord_calm (r : Nat) (h : Calm a s) : Calm a (readRoomRecord r s).2 := by
  unfold readRoomRecord
  dsimp only
  (repeat' split) <;> simp (maxDischargeDepth := 30) [h]

@[simp] theorem setSuspect_calm (r : Nat) (h : Calm a s) : Calm a (setSuspect r s) := by
  unfold setSuspect
  dsimp only
  split <;> simp (maxDischargeDepth := 30) [h]

@[simp] theorem readIndex_calm (id : Nat) (h : Calm a s) : Calm a (readIndex id s).2 := readVoted_calm _ _ (fun _ => rfl) h
@[simp] theorem writeIndex_calm (id : Nat) (i : PresenceIndex) (h : Calm a s) : Calm a (writeIndex id i s) := h.trans rfl
@[simp] theorem writePresenceBody_calm (id : Nat) (b : PresenceBody) (h : Calm a s) : Calm a (writePresenceBody id b s) :=
  h.trans rfl

@[simp] theorem readPresenceBody_calm (id : Nat) (h : Calm a s) : Calm a (readPresenceBody id s).2 := by
  unfold readPresenceBody
  dsimp only
  (repeat' split) <;> simp (maxDischargeDepth := 30) [h]

@[simp] theorem readBarEntry_calm (position : Nat) (h : Calm a s) : Calm a (readBarEntry position s).2 := by
  unfold readBarEntry
  split
  · exact h
  · split
    · exact h
    · exact noteCorrected_calm _ (h.trans rfl)
    · exact noteUncorrectable_calm _ (h.trans rfl)

/-! ### The Grant Table -/

@[simp] theorem checkHandle_calm (g : Handle) (h : Calm a s) : Calm a (checkHandle g s).2 := by
  unfold checkHandle
  dsimp only
  (repeat' split) <;> simp (maxDischargeDepth := 30) [h]

@[simp] theorem searchRead_calm (c : Credential) (key : Key) (t : Minute) (f : Search) (h : Calm a s) :
    Calm a (searchRead c key t f s).2 := by
  unfold searchRead
  dsimp only
  (repeat' split) <;> simp (maxDischargeDepth := 30) [h]

@[simp] theorem claimSlot_calm (g : Handle) (c : Credential) (key : Key) (t : Minute) (h : Calm a s) :
    Calm a (claimSlot g c key t s).2 := by
  unfold claimSlot
  dsimp only
  (repeat' split) <;> simp (maxDischargeDepth := 30) [h]

@[simp] theorem returnUse_calm (g : Handle) (h : Calm a s) : Calm a (returnUse g s) := by
  unfold returnUse
  dsimp only
  (repeat' split) <;> simp (maxDischargeDepth := 30) [h]

@[simp] theorem returnClaims_calm (claims : List Claim) (h : Calm a s) : Calm a (returnClaims claims s) :=
  Calm.foldl (fun c hc => by split <;> simp (maxDischargeDepth := 30) [hc]) claims h

@[simp] theorem findFreeSlot_calm (count k : Nat) (h : Calm a s) : Calm a (findFreeSlot count k s).2 := by
  induction count generalizing k s with
  | zero => exact h
  | succ n ih =>
    unfold findFreeSlot
    dsimp only
    split <;> simp (maxDischargeDepth := 30) [h, ih]

/-! ### The Presence Pool -/

@[simp] theorem scanIndexes_calm (h : Calm a s) : Calm a (scanIndexes s) :=
  Calm.foldl (fun id hc => readIndex_calm id hc) _ h

@[simp] theorem setCondition_calm (name : ConditionName) (id : Nat) (b : PresenceBody) (h : Calm a s) :
    Calm a (setCondition name id b s).2 := by
  unfold setCondition
  split <;> simp (maxDischargeDepth := 30) [h]

@[simp] theorem clearCondition_calm (name : ConditionName) (id : Nat) (b : PresenceBody) (h : Calm a s) :
    Calm a (clearCondition name id b s).2 := by
  unfold clearCondition
  split <;> simp (maxDischargeDepth := 30) [h]

theorem forReadable_calm {act : Nat → PresenceBody → State → Bool × State}
    (hact : ∀ {s : State} (id : Nat) (b : PresenceBody), Calm a s → Calm a (act id b s).2) (ids : List Nat) (h : Calm a s) :
    Calm a (forReadable act ids s).2 := by
  induction ids generalizing s with
  | nil => exact h
  | cons id ids ih =>
    unfold forReadable
    dsimp only
    split
    · exact ih (readPresenceBody_calm id h)
    · exact ih (hact id _ (readPresenceBody_calm id h))

@[simp] theorem locateFrom_calm (c : Credential) (ids : List Nat) (h : Calm a s) : Calm a (locateFrom c ids s).2 := by
  induction ids generalizing s with
  | nil => exact h
  | cons id ids ih =>
    unfold locateFrom
    dsimp only
    split <;> exact ih (readPresenceBody_calm id h)

@[simp] theorem locate_calm (c : Credential) (h : Calm a s) : Calm a (locate c s).2 := locateFrom_calm c _ (scanIndexes_calm h)

@[simp] theorem setUnescortedOn_calm (ids : List Nat) (h : Calm a s) : Calm a (setUnescortedOn ids s) :=
  forReadable_calm (fun id b hc => setCondition_calm _ id b hc) ids h

@[simp] theorem clearUnescortedOn_calm (ids : List Nat) (h : Calm a s) : Calm a (clearUnescortedOn ids s) :=
  forReadable_calm (fun id b hc => clearCondition_calm _ id b hc) ids h

@[simp] theorem markUnescorted_calm (r : Nat) (h : Calm a s) : Calm a (markUnescorted r s) := setUnescortedOn_calm _ h
@[simp] theorem clearUnescorted_calm (r : Nat) (h : Calm a s) : Calm a (clearUnescorted r s) := clearUnescortedOn_calm _ h

@[simp] theorem unlinkRecord_calm (id : Nat) (h : Calm a s) : Calm a (unlinkRecord id s) := by
  unfold unlinkRecord
  dsimp only
  refine Calm.foldl (fun k hc => ?_) _ (setRecord_calm _ _ h)
  split <;> simp (maxDischargeDepth := 30) [hc]

@[simp] theorem takeOut_calm (id : Nat) (h : Calm a s) : Calm a (takeOut id s).2 := by
  unfold takeOut
  dsimp only
  (repeat' split) <;> simp (maxDischargeDepth := 30) [h]

@[simp] theorem removeRecord_calm (id : Nat) (h : Calm a s) : Calm a (removeRecord id s) := by
  unfold removeRecord
  dsimp only
  split <;> simp (maxDischargeDepth := 30) [h]

@[simp] theorem removeUnsent_calm (ids : List Nat) (h : Calm a s) : Calm a (removeUnsent ids s) :=
  Calm.foldl (fun id hc => by split <;> simp (maxDischargeDepth := 30) [hc]) ids (scanIndexes_calm h)

@[simp] theorem anyLocated_calm (es : List Entrant) (h : Calm a s) : Calm a (anyLocated es s).2 := by
  induction es generalizing s with
  | nil => exact h
  | cons e es ih => exact ih (locate_calm _ h)

@[simp] theorem fillRecords_calm (r : Nat) (now : Minute) (ids : List Nat) (es : List Entrant) (place : Nat) (h : Calm a s) :
    Calm a (fillRecords r now ids es place s) := by
  induction ids generalizing es place s with
  | nil => exact h
  | cons id ids ih =>
    cases es with
    | nil => exact h
    | cons e es => exact ih es (place + 1) (setRecord_calm _ _ h)

@[simp] theorem placeRecords_calm (r : Nat) (b : RoomBody) (es : List Entrant) (h : Calm a s) :
    Calm a (placeRecords r b es s).2 := by
  unfold placeRecords
  dsimp only
  split <;> simp (maxDischargeDepth := 30) [h]

@[simp] theorem admitAll_calm (r : Nat) (b : RoomBody) (es : List Entrant) (h : Calm a s) : Calm a (admitAll r b es s).2 := by
  unfold admitAll
  dsimp only
  split <;> simp (maxDischargeDepth := 30) [h]

theorem admissionWith_calm {act : Nat → RoomBody → List Entrant → State → List Nat × State}
    (hact : ∀ {s : State} (r : Nat) (b : RoomBody) (es : List Entrant), Calm a s → Calm a (act r b es s).2) (r : Nat)
    (es : List Entrant) (h : Calm a s) : Calm a (admissionWith act r es s).2 := by
  unfold admissionWith
  dsimp only
  (repeat' split) <;> simp (maxDischargeDepth := 30) [h, hact]

@[simp] theorem admission_calm (r : Nat) (es : List Entrant) (h : Calm a s) : Calm a (admission r es s).2 :=
  admissionWith_calm (fun r b es hc => admitAll_calm r b es hc) r es h

@[simp] theorem confirmRecord_calm (id : Nat) (h : Calm a s) : Calm a (confirmRecord id s) := by
  unfold confirmRecord
  dsimp only
  (repeat' split) <;> simp (maxDischargeDepth := 30) [h]

theorem forHoldersIn_calm (g : Handle) {act : Nat → PresenceBody → State → Bool × State}
    (hact : ∀ {s : State} (id : Nat) (b : PresenceBody), Calm a s → Calm a (act id b s).2) (ids : List Nat) (h : Calm a s) :
    Calm a (forHoldersIn g act ids s).2 :=
  forReadable_calm (fun id b hc => by split <;> simp (maxDischargeDepth := 30) [hc, hact]) ids h

theorem forHolders_calm (g : Handle) {act : Nat → PresenceBody → State → Bool × State}
    (hact : ∀ {s : State} (id : Nat) (b : PresenceBody), Calm a s → Calm a (act id b s).2) (h : Calm a s) :
    Calm a (forHolders g act s).2 := forHoldersIn_calm g hact _ (scanIndexes_calm h)

@[simp] theorem poolOverstay_calm (g : Handle) (h : Calm a s) : Calm a (poolOverstay g s) :=
  forHolders_calm g (fun id b hc => setCondition_calm _ id b hc) h

@[simp] theorem poolRevoke_calm (g : Handle) (h : Calm a s) : Calm a (poolRevoke g s).2 :=
  forHolders_calm g (fun id b hc => setCondition_calm _ id b hc) h

@[simp] theorem poolHolds_calm (g : Handle) (h : Calm a s) : Calm a (poolHolds g s).2 :=
  forHolders_calm g (fun _ _ hc => hc) h

@[simp] theorem poolBar_calm (c : Credential) (h : Calm a s) : Calm a (poolBar c s).2 := by
  unfold poolBar
  dsimp only
  split <;> simp (maxDischargeDepth := 30) [h]

@[simp] theorem poolUnbar_calm (c : Credential) (h : Calm a s) : Calm a (poolUnbar c s).2 := by
  unfold poolUnbar
  dsimp only
  split <;> simp (maxDischargeDepth := 30) [h]

@[simp] theorem markCleared_calm (ids : List Nat) (h : Calm a s) : Calm a (markCleared ids s) :=
  forReadable_calm (fun id b hc => by simp [hc]) ids h

@[simp] theorem readBodies_calm (ids : List Nat) (h : Calm a s) : Calm a (readBodies ids s) :=
  forReadable_calm (fun _ _ hc => hc) ids h

/-! ### Permits undone, the Bar List, and what a decision reads -/

@[simp] theorem undoData_calm (claims : List Claim) (records : List Nat) (h : Calm a s) :
    Calm a (undoData claims records s) := returnClaims_calm _ (removeUnsent_calm _ h)

@[simp] theorem undoPermitData_calm (p : Option PermitData) (h : Calm a s) : Calm a (undoPermitData p s) := by
  unfold undoPermitData
  split <;> simp (maxDischargeDepth := 30) [h]

@[simp] theorem undoHand_calm (d : Decision) (h : Calm a s) : Calm a (undoHand d s).2 := undoData_calm _ _ h

@[simp] theorem removeReturning_calm (id : Nat) (h : Calm a s) : Calm a (removeReturning id s) := by
  unfold removeReturning
  dsimp only
  (repeat' split) <;> simp (maxDischargeDepth := 30) [h]

@[simp] theorem searchBars_calm (c : Credential) (count position : Nat) (h : Calm a s) :
    Calm a (searchBars c count position s).2 := by
  induction count generalizing position s with
  | zero => exact h
  | succ n ih =>
    unfold searchBars
    dsimp only
    (repeat' split) <;> simp (maxDischargeDepth := 30) [h, ih]

@[simp] theorem membership_calm (c : Credential) (h : Calm a s) : Calm a (membership c s).2 := by
  unfold membership
  dsimp only
  (repeat' split) <;> simp (maxDischargeDepth := 30) [h]

@[simp] theorem placementCondition_calm (d : Decision) (h : Calm a s) : Calm a (placementCondition d s).2 := readTamper_calm h

@[simp] theorem stepNineLimit_calm (d : Decision) (h : Calm a s) : Calm a (stepNineLimit d s).2 := by
  unfold stepNineLimit
  dsimp only
  (repeat' split) <;> simp (maxDischargeDepth := 30) [h]

end Sys2Proof.Machine

namespace Sys2Proof.Machine
open Sys2Proof

/-! ## The integrity check (R4, R7, R48, R63, R106, R138, R164) -/

/-- While every block runs, a cause is latched. -/
theorem raise_of_awake {s : State} (h : s.awake = true) (c : Cause) :
    raise c s = { s with attention := s.attention ||| c.word } := by
  obtain ⟨hp, hr⟩ := (awake_iff s).mp h
  obtain ⟨hf, hl⟩ := (portOn_iff s).mp hp
  simp [raise, hf, hl, hr]

/-- What an uncorrectable read does beside the marking of its item: the region's flag and MEMORY ERROR (R164). -/
def uncorrectableIn (region : Region) (s : State) : State :=
  { s with
    health := .of (s.health.value.setUncorrectable region)
    attention := s.attention ||| Cause.memoryError.word }

theorem noteCorrected_of_awake {s : State} (h : s.awake = true) (hc : s.health.clean = true) (region : Region) :
    noteCorrected region s = correctedIn region s := by
  have hr := raise_of_awake (s := { s with health := .of (s.health.value.setCorrected region) }) h .memoryWarning
  simp only [noteCorrected, readHealth, hc, if_true, hr]
  cases region <;> rfl

theorem noteUncorrectable_of_awake {s : State} (h : s.awake = true) (hc : s.health.clean = true) (region : Region) :
    noteUncorrectable region s = uncorrectableIn region s := by
  have hr := raise_of_awake (s := { s with health := .of (s.health.value.setUncorrectable region) }) h .memoryError
  simp only [noteUncorrectable, readHealth, hc, if_true, hr]
  rfl

/-- A read of an item in three copies that is not clean: the copies rewritten, and the read noted. -/
theorem readVoted_of_corrected {α : Type} [DecidableEq α] {region : Region} {item : Voted α} {put : Voted α → State → State}
    {s : State} (hi : item.clean = false) (ha : (put (.of item.value) s).awake = true)
    (hc : (put (.of item.value) s).health.clean = true) :
    readVoted region item put s = (item.value, correctedIn region (put (.of item.value) s)) := by
  simp [readVoted, hi, noteCorrected_of_awake ha hc]

/-- The value of three copies: what two agree on, otherwise the copy with the fewest corrections. -/
theorem Voted.value_spec {α : Type} [DecidableEq α] (v : Voted α) :
    (v.copy1.value = v.copy2.value → v.value = v.copy1.value) ∧
    (v.copy1.value = v.copy3.value → v.value = v.copy1.value) ∧
    (v.copy2.value = v.copy3.value → v.value = v.copy2.value) ∧
    (v.copy1.value ≠ v.copy2.value → v.copy1.value ≠ v.copy3.value → v.copy2.value ≠ v.copy3.value →
      (v.copy1.corrections ≤ v.copy2.corrections → v.copy1.corrections ≤ v.copy3.corrections →
        v.value = v.copy1.value) ∧
      (v.copy2.corrections < v.copy1.corrections → v.copy2.corrections ≤ v.copy3.corrections →
        v.value = v.copy2.value) ∧
      (v.copy3.corrections < v.copy1.corrections → v.copy3.corrections < v.copy2.corrections →
        v.value = v.copy3.value)) := by
  refine ⟨fun h => ?_, fun h => ?_, fun h => ?_, fun h12 h13 h23 => ⟨fun h1 h2 => ?_, fun h1 h2 => ?_, fun h1 h2 => ?_⟩⟩
  · simp [Voted.value, h]
  · simp [Voted.value, h]
  · by_cases h12 : v.copy1.value = v.copy2.value <;> by_cases h13 : v.copy1.value = v.copy3.value <;>
      simp_all [Voted.value]
  · simp [Voted.value, h12, h13, h23, h1, h2]
  · simp [Voted.value, h12, h13, h23, Nat.not_le.mpr h1, h2]
  · simp [Voted.value, h12, h13, h23, Nat.not_le.mpr h1, Nat.not_le.mpr h2]

/-- The health flags read by a vote that is not clean show the flag that the read sets (log 58). -/
theorem readHealth_of_corrected {s : State} (ha : s.awake = true) (hc : s.health.clean = false) :
    readHealth s = ({ s.health.value with siteCorrected := true }, correctedIn .site s) := by
  have hr := raise_of_awake (s := s.markSiteCorrected) ha .memoryWarning
  simp only [readHealth, hc, Bool.false_eq_true, if_false, hr]
  simp [State.markSiteCorrected, correctedIn]

/-! ### The readers of bodies -/

/-- A room that is IN SERVICE or CLOSED and reads uncorrectable becomes FAULTED. -/
theorem readRoomRecord_of_uncorrectable {s : State} (ha : s.awake = true) (hc : s.health.clean = true) {r : Nat}
    {st : RoomState} (hh : (s.room r).header = .of st) (hst : st = .inService ∨ st = .closed)
    (hb : (s.room r).body.condition = .uncorrectable) :
    readRoomRecord r s = (.faulted, uncorrectableIn .site (writeRoomHeader r .faulted s)) := by
  have hread : readRoomHeader r s = (st, s) := by
    simp [readRoomHeader, readVoted_clean, hh]
  have hnote := noteUncorrectable_of_awake (s := writeRoomHeader r .faulted s) ha hc .site
  rcases hst with rfl | rfl <;> simp only [readRoomRecord, hread, hb, hnote]

/-- A room that reads without the integrity check's doing anything. -/
theorem readRoomRecord_of_clean {s : State} {r : Nat} (hu : (s.room r).undamaged = true) :
    readRoomRecord r s = ((s.room r).view, s) := by
  simp only [Room.undamaged, Stored.good, Bool.and_eq_true, decide_eq_true_eq] at hu
  unfold readRoomRecord
  simp only [readRoomHeader, readVoted_clean hu.1, Room.view]
  split <;> rename_i hs <;> simp [hs, hu.2]

/-- Census suspect changes the rooms alone, and is set where the room is readable. -/
theorem setSuspect_of_clean {s : State} {r : Nat} (hw : Table.wf Room.cleared s.rooms = true)
    (hu : (s.room r).undamaged = true) :
    ∃ rooms, setSuspect r s = { s with rooms := rooms } ∧ ∀ closed b, (s.room r).view = .readable closed b →
      (({ s with rooms := rooms } : State).room r).body.value = { b with suspect := true } := by
  simp only [setSuspect, readRoomRecord_of_clean hu]
  cases hv : (s.room r).view with
  | readable closed b =>
    have hroom := room_setRoom hw r r { s.room r with body := .of { b with suspect := true } }
    refine ⟨_, rfl, fun closed' b' h' => ?_⟩
    cases h'
    exact congrArg (·.body.value) (hroom.trans (if_pos rfl))
  | undefined => exact ⟨s.rooms, rfl, fun _ _ h => nomatch h⟩
  | faulted => exact ⟨s.rooms, rfl, fun _ _ h => nomatch h⟩

/-- A presence body that reads uncorrectable: its record faulted, and its room's census suspect. -/
theorem readPresenceBody_of_uncorrectable {s : State} (ha : s.awake = true) (hc : s.health.clean = true) {id : Nat}
    {i : PresenceIndex} (hi : (s.record id).index = .of i) (hf : i.faulted = false)
    (hb : (s.record id).body.condition = .uncorrectable) :
    readPresenceBody id s =
      (none, setSuspect i.room (uncorrectableIn .site (writeIndex id { i with faulted := true } s))) := by
  have hread : readIndex id s = (i, s) := by
    simp [readIndex, readVoted_clean, hi]
  have hnote := noteUncorrectable_of_awake (s := writeIndex id { i with faulted := true } s) ha hc .site
  simp only [readPresenceBody, hread, hf, hb, hnote, Bool.false_eq_true, if_false]

/-- A station body that reads uncorrectable: the record FAULTED, and its two notices given. -/
theorem readStationBody_of_uncorrectable {s : State} (ha : s.awake = true) (hc : s.health.clean = true) {k : Nat}
    (hh : (s.station k).header = .of false) (hb : (s.station k).body.condition = .uncorrectable) :
    readStationBody k s = (none, giveNotices [.pairTable, .referralQueue] (.stationFault k) false
      (uncorrectableIn .site (updateStation k (fun v => { v with header := .of true, state := .faulted }) s))) := by
  have hread : readStationHeader k s = (false, s) := by
    simp [readStationHeader, readVoted_clean, hh]
  have hnote := noteUncorrectable_of_awake
    (s := updateStation k (fun v => { v with header := .of true, state := .faulted }) s) ha hc .site
  simp only [readStationBody, hread, hb, hnote, Bool.false_eq_true, if_false]

/-- The faulted positions with one more, in rising order. -/
theorem mem_insertPosition {p q : Nat} {l : List Nat} :
    q ∈ l.filter (· < p) ++ p :: l.filter (fun x => decide (p < x)) ↔ q = p ∨ q ∈ l := by
  simp only [List.mem_append, List.mem_filter, List.mem_cons, decide_eq_true_eq]
  rcases Nat.lt_trichotomy q p with h | h | h <;> by_cases hq : q ∈ l <;> simp [h, hq]

theorem readBarEntry_of_uncorrectable {s : State} (ha : s.awake = true) (hc : s.health.clean = true) {p : Nat}
    {e : Stored Credential} (he : s.barEntries[p - 1]? = some e) (hb : e.condition = .uncorrectable)
    (hp : p ∉ s.barHeader.value.faulted) :
    readBarEntry p s = (none, uncorrectableIn .bar { s with barHeader := .of { s.barHeader.value with
      doubtful := true,
      faulted := s.barHeader.value.faulted.filter (· < p) ++ p ::
        s.barHeader.value.faulted.filter (fun x => decide (p < x)) } }) := by
  have hnote := noteUncorrectable_of_awake (s := { s with barHeader := .of { s.barHeader.value with
      doubtful := true,
      faulted := s.barHeader.value.faulted.filter (· < p) ++ p ::
        s.barHeader.value.faulted.filter (fun x => decide (p < x)) } }) ha hc .bar
  have hcon : s.barHeader.value.faulted.contains p = false := by simpa using hp
  simp only [readBarEntry, he, hb, hcon, Bool.false_eq_true, if_false, hnote]

theorem readBarEntry_of_correctable {s : State} (ha : s.awake = true) (hc : s.health.clean = true) {p : Nat}
    {e : Stored Credential} (he : s.barEntries[p - 1]? = some e) (hb : e.condition = .correctable) :
    readBarEntry p s = (some e.value, correctedIn .bar { s with barEntries := s.barEntries.set (p - 1) (.of e.value) }) := by
  have hnote := noteCorrected_of_awake (s := { s with barEntries := s.barEntries.set (p - 1) (.of e.value) }) ha hc .bar
  simp only [readBarEntry, he, hb, hnote]

/-- A grant body that reads uncorrectable: the slot FAULTED, its issue number kept. -/
theorem readSlotBody_of_uncorrectable {s : State} (ha : s.awake = true) (hc : s.health.clean = true) {k : Nat}
    (hb : (s.slot k).body.condition = .uncorrectable) :
    readSlotBody k s =
      (none, uncorrectableIn .grant (writeSlotHeader k ⟨.faulted, (s.slot k).header.value.issue⟩ s)) := by
  have hnote := noteUncorrectable_of_awake (s := writeSlotHeader k ⟨.faulted, (s.slot k).header.value.issue⟩ s) ha hc .grant
  simp only [readSlotBody, hb, hnote]

/-! ### The commands that read a body -/

/-- READ GRANT's result for a FAULTED slot. -/
def faultedGrant (h : Handle) : CommandResult := { code := .faulted, words := { arg7 := handleWordWith h .faulted } }

/-- The handle check passes a slot whose header reads clean, of that issue and not FREE. -/
theorem checkHandle_of_clean_header {s : State} {h : Handle} {st : GrantState} (h1 : 1 ≤ h.slot) (h2 : h.slot ≤ 1024)
    (hf : st ≠ .free) (hh : (s.slot h.slot).header = .of ⟨st, h.issue⟩) :
    checkHandle h s = (.ok ⟨st, h.issue⟩, s) := by
  simp [checkHandle_of_clean (h := h) (s := s) (by simp [hh]), hh, h1, h2, hf, Config.slots]

/-- A command that reads the body of its grant and finds it uncorrectable. -/
theorem withGrant_of_uncorrectable {s : State} {h : Handle} {st : GrantState} (ha : s.awake = true)
    (hc : s.health.clean = true) (h1 : 1 ≤ h.slot) (h2 : h.slot ≤ 1024) (hf : st ≠ .free) (hff : st ≠ .faulted)
    (hh : (s.slot h.slot).header = .of ⟨st, h.issue⟩) (hb : (s.slot h.slot).body.condition = .uncorrectable)
    (act : SlotHeader → GrantRecord → State → State) :
    withGrant h act s =
      finish (.bare .faulted) (uncorrectableIn .grant (writeSlotHeader h.slot ⟨.faulted, h.issue⟩ s)) := by
  simp only [withGrant, checkHandle_of_clean_header h1 h2 hf hh, hff, readSlotBody_of_uncorrectable ha hc hb, hh,
    Voted.value_of, if_false]
  rfl

theorem opReadGrant_of_uncorrectable {s : State} {h : Handle} {st : GrantState} (ha : s.awake = true)
    (hc : s.health.clean = true) (harg : h = handleArg s.window.arg0) (h1 : 1 ≤ h.slot) (h2 : h.slot ≤ 1024)
    (hf : st ≠ .free) (hff : st ≠ .faulted) (hh : (s.slot h.slot).header = .of ⟨st, h.issue⟩)
    (hb : (s.slot h.slot).body.condition = .uncorrectable) :
    opReadGrant s =
      finish (faultedGrant h) (uncorrectableIn .grant (writeSlotHeader h.slot ⟨.faulted, h.issue⟩ s)) := by
  simp only [opReadGrant, ← harg, checkHandle_of_clean_header h1 h2 hf hh, hff, readSlotBody_of_uncorrectable ha hc hb, hh,
    Voted.value_of, if_false]
  rfl

/-- Each of the five commands finds the body uncorrectable before it looks at the grant's state. -/
theorem exec_of_uncorrectable_body {s : State} {h : Handle} {st : GrantState} {p : Instr × BitVec 8}
    (hp : p ∈ [(Instr.amendGrant, (0x11 : BitVec 8)), (.suspendGrant, 0x12), (.resumeGrant, 0x13), (.revokeGrant, 0x14),
      (.readGrant, 0x16)])
    (ha : s.accepts = true) (harg : h = handleArg s.window.arg0) (h1 : 1 ≤ h.slot) (h2 : h.slot ≤ 1024)
    (hf : st ≠ .free) (hff : st ≠ .faulted) (hh : (s.slot h.slot).header = .of ⟨st, h.issue⟩)
    (hb : (s.slot h.slot).body.condition = .uncorrectable) (hc : s.health.clean = true) :
    ∃ r : CommandResult, r.code = .faulted ∧ exec p.1 s = .next (finish r
      (uncorrectableIn .grant (writeSlotHeader h.slot ⟨.faulted, h.issue⟩ (accepted p.2 s)))) := by
  have haw : (accepted p.2 s).awake = true := ((accepts_iff s).mp ha).1
  have hw := commandWrite_of_accepts ha
  have hgrant := withGrant_of_uncorrectable (s := accepted p.2 s) haw hc h1 h2 hf hff hh hb
  simp only [List.mem_cons, List.not_mem_nil, or_false] at hp
  rcases hp with rfl | rfl | rfl | rfl | rfl
  · exact ⟨.bare .faulted, rfl, by
      simp only [exec, execAmendGrant, hw, opAmendGrant, accepted_frame, ← harg, hgrant]⟩
  · exact ⟨.bare .faulted, rfl, by
      simp only [exec, execSuspendGrant, hw, opSuspendGrant, accepted_frame, ← harg, hgrant]⟩
  · exact ⟨.bare .faulted, rfl, by
      simp only [exec, execResumeGrant, hw, opResumeGrant, accepted_frame, ← harg, hgrant]⟩
  · exact ⟨.bare .faulted, rfl, by
      simp only [exec, execRevokeGrant, hw, opRevokeGrant, accepted_frame, ← harg, hgrant]⟩
  · exact ⟨faultedGrant h, rfl, by
      simp only [exec, execReadGrant, hw, opReadGrant_of_uncorrectable (s := accepted 0x16 s) haw hc harg h1 h2 hf hff hh hb]⟩

/-- A corrected read of each item in three copies but the clock and the health flags. -/
theorem correctedReads {s : State} (k : Nat) (ha : s.awake = true) (hc : s.health.clean = true) :
     ((s.slot k).header.clean = false → readSlotHeader k s = ((s.slot k).header.value, correctedIn .grant { s with
       grants := Table.set Slot.cleared s.grants k { s.slot k with header := .of (s.slot k).header.value } })) ∧
     ((s.room k).header.clean = false → readRoomHeader k s = ((s.room k).header.value, correctedIn .site { s with
       rooms := Table.set Room.cleared s.rooms k { s.room k with header := .of (s.room k).header.value } })) ∧
     ((s.record k).index.clean = false → readIndex k s = ((s.record k).index.value, correctedIn .site { s with
       presence := Table.set PresenceRecord.free s.presence k
         { s.record k with index := .of (s.record k).index.value } })) ∧
     ((s.station k).header.clean = false → readStationHeader k s = ((s.station k).header.value, correctedIn .site { s with
       stations := Table.set Station.cleared s.stations k
         { s.station k with header := .of (s.station k).header.value } })) ∧
     (s.barHeader.clean = false → readBarHeader s = (s.barHeader.value, correctedIn .bar { s with
       barHeader := .of s.barHeader.value })) ∧
     (s.linkConfig.clean = false → readConfig s = (s.linkConfig.value, correctedIn .site { s with
       linkConfig := .of s.linkConfig.value })) ∧
     (s.trim.clean = false → readTrim s = (s.trim.value, correctedIn .site { s with trim := .of s.trim.value })) ∧
     (s.pairWindow.clean = false → readWindowSeconds s = (s.pairWindow.value, correctedIn .site { s with
       pairWindow := .of s.pairWindow.value })) ∧
     (s.referralTimeout.clean = false → readTimeoutSeconds s = (s.referralTimeout.value, correctedIn .site { s with
       referralTimeout := .of s.referralTimeout.value })) ∧
     (s.tamper.clean = false → readTamper s = (s.tamper.value, correctedIn .site { s with
       tamper := .of s.tamper.value })) ∧
     (s.deferred.clean = false → readDeferred s = (s.deferred.value, correctedIn .site { s with
       deferred := .of s.deferred.value })) :=
  ⟨fun h => readVoted_of_corrected h ha hc, fun h => readVoted_of_corrected h ha hc,
    fun h => readVoted_of_corrected h ha hc, fun h => readVoted_of_corrected h ha hc,
    fun h => readVoted_of_corrected h ha hc, fun h => readVoted_of_corrected h ha hc,
    fun h => readVoted_of_corrected h ha hc, fun h => readVoted_of_corrected h ha hc,
    fun h => readVoted_of_corrected h ha hc, fun h => readVoted_of_corrected h ha hc,
    fun h => readVoted_of_corrected h ha hc⟩

/-- Settles O60: the votes, the corrected reads, the readers that find an uncorrectable body, and the commands among
them. -/
theorem integrityCheckMarksItsItem : Obligations.IntegrityCheckMarksItsItem := by
  unfold Obligations.IntegrityCheckMarksItsItem
  refine ⟨⟨fun α inst v => Voted.value_spec v, fun s ha hi hc => ?_, fun s k ha hc => correctedReads k ha hc,
    fun s ha hc => readHealth_of_corrected ha hc⟩, fun s ha hc hw => ⟨?_, ?_, ?_, ?_, ?_⟩, ?_⟩
  · exact ⟨_, readVoted_of_corrected hi ha hc, rfl, Voted.value_of _, rfl, rfl⟩
  · intro r st hh hst hb
    have hroom := fun q => room_setRoom (s := s) ((tablesWf_iff s).mp hw).2.1 r q { s.room r with header := .of .faulted }
    refine ⟨_, readRoomRecord_of_uncorrectable ha hc hh hst hb, ?_, fun q hq => ?_, Voted.value_of _, rfl⟩
    · exact (congrArg (·.header.value) ((hroom r).trans (if_pos rfl))).trans (Voted.value_of _)
    · exact (hroom q).trans (if_neg hq)
  · intro id i hi hf hb hu
    obtain ⟨-, hwr, hwp, -, -⟩ := (tablesWf_iff s).mp hw
    have hrec := fun j => record_setRecord (s := s) hwp id j { s.record id with index := .of { i with faulted := true } }
    obtain ⟨rooms, heq, hsus⟩ := setSuspect_of_clean (r := i.room)
      (s := uncorrectableIn .site (writeIndex id { i with faulted := true } s)) hwr hu
    refine ⟨_, (readPresenceBody_of_uncorrectable ha hc hi hf hb).trans (congrArg (none, ·) heq), ?_,
      fun j hj => (hrec j).trans (if_neg hj), hsus, Voted.value_of _, rfl⟩
    exact (congrArg (·.index.value) ((hrec id).trans (if_pos rfl))).trans (Voted.value_of _)
  · intro k hh hb
    have hst := fun j => station_setStation (s := s) ((tablesWf_iff s).mp hw).2.2.2.1 k j
      { s.station k with header := .of true, state := .faulted }
    refine ⟨_, readStationBody_of_uncorrectable ha hc hh hb, ?_, ?_, fun j hj => (hst j).trans (if_neg hj), rfl,
      Voted.value_of _, rfl⟩
    · exact (congrArg (·.header.value) ((hst k).trans (if_pos rfl))).trans (Voted.value_of _)
    · exact congrArg (·.state) ((hst k).trans (if_pos rfl))
  · intro p e he hb hp
    refine ⟨_, readBarEntry_of_uncorrectable ha hc he hb hp, ?_⟩
    simp only [uncorrectableIn, Voted.value_of, Health.setUncorrectable, mem_insertPosition]
    simp
  · intro p e he hb
    exact ⟨_, readBarEntry_of_correctable ha hc he hb, rfl, rfl, Voted.value_of _, rfl⟩
  · intro s h st p hp ha hw harg h1 h2 hf hff hh hb hc
    obtain ⟨r, hr, hex⟩ := exec_of_uncorrectable_body hp ha harg h1 h2 hf hff hh hb hc
    have hslot := fun j => slot_setSlot (s := s) ((tablesWf_iff s).mp hw).1 h.slot j
      { s.slot h.slot with header := .of ⟨.faulted, h.issue⟩ }
    refine ⟨_, r, hex, rfl, hr, ?_, ?_, rfl, fun j hj => (hslot j).trans (if_neg hj), rfl, rfl, rfl⟩
    · exact (congrArg (·.header.value) ((hslot h.slot).trans (if_pos rfl))).trans (Voted.value_of _)
    · exact congrArg Health.grantUncorrectable (Voted.value_of _)

end Sys2Proof.Machine

namespace Sys2Proof.Machine
open Sys2Proof

/-! ## Operations that place no verdict, open and close nothing

Of the fields that `State.placesOk` looks at, and of the two that say whether the port is on, most operations change
none. -/

/-- From `s` to `t` the seat, the Verdict Queue, the contexts and the referral entries stay, and the supply and RESETn. -/
abbrev Still (s t : State) : Prop :=
  t.supply = s.supply ∧ t.resetLow = s.resetLow ∧ t.seat = s.seat ∧ t.verdicts = s.verdicts ∧ t.pairs = s.pairs ∧
    t.referrals = s.referrals

theorem Calm.still {s t : State} (h : Calm s t) : Still s t :=
  ⟨h.supply, h.resetLow, h.seat, h.verdicts, h.pairs, h.referrals⟩

theorem foldl_still {β : Type} {f : State → β → State} (hf : ∀ s x, Still s (f s x)) (l : List β) (s : State) :
    Still s (l.foldl f s) := by
  induction l generalizing s with
  | nil => simp [Still]
  | cons x l ih => simpa [Still, hf] using ih (f s x)

@[simp] theorem setSlot_still (k : Nat) (v : Slot) (s : State) : Still s (s.setSlot k v) :=
  (setSlot_calm _ _ (Calm.refl s)).still

@[simp] theorem setRoom_still (k : Nat) (v : Room) (s : State) : Still s (s.setRoom k v) :=
  (setRoom_calm _ _ (Calm.refl s)).still

@[simp] theorem updateStation_still (k : Nat) (f : Station → Station) (s : State) : Still s (updateStation k f s) := by
  simp [updateStation, Still]

@[simp] theorem updateStations_still (f : Station → Station) (ks : List Nat) (s : State) :
    Still s (ks.foldl (fun s k => updateStation k f s) s) :=
  foldl_still (fun s k => updateStation_still k f s) ks s

@[simp] theorem raise_still (c : Cause) (s : State) : Still s (raise c s) := (raise_calm _ (Calm.refl s)).still

@[simp] theorem raiseIf_still (b : Bool) (c : Cause) (s : State) : Still s (raiseIf b c s) :=
  (raiseIf_calm _ _ (Calm.refl s)).still

@[simp] theorem raiseTimes_still (n : Nat) (c : Cause) (s : State) : Still s (raiseTimes n c s) := by
  simp only [raiseTimes]
  (repeat' split) <;> simp [Still]

@[simp] theorem readHealth_still (s : State) : Still s (readHealth s).2 := (readHealth_calm (Calm.refl s)).still

@[simp] theorem noteCorrected_still (r : Region) (s : State) : Still s (noteCorrected r s) :=
  (noteCorrected_calm _ (Calm.refl s)).still

@[simp] theorem noteUncorrectable_still (r : Region) (s : State) : Still s (noteUncorrectable r s) :=
  (noteUncorrectable_calm _ (Calm.refl s)).still

@[simp] theorem readDeferred_still (s : State) : Still s (readDeferred s).2 := (readDeferred_calm (Calm.refl s)).still

@[simp] theorem readClockItem_still (s : State) : Still s (readClockItem s).2 :=
  (readClockItem_calm (Calm.refl s)).still

@[simp] theorem readTrim_still (s : State) : Still s (readTrim s).2 := (readTrim_calm (Calm.refl s)).still

@[simp] theorem presentMinute_still (s : State) : Still s (presentMinute s).2 :=
  (presentMinute_calm (Calm.refl s)).still

@[simp] theorem readWindowSeconds_still (s : State) : Still s (readWindowSeconds s).2 :=
  (readWindowSeconds_calm (Calm.refl s)).still

@[simp] theorem readTimeoutSeconds_still (s : State) : Still s (readTimeoutSeconds s).2 :=
  (readTimeoutSeconds_calm (Calm.refl s)).still

@[simp] theorem readConfig_still (s : State) : Still s (readConfig s).2 := (readConfig_calm (Calm.refl s)).still

@[simp] theorem readTamper_still (s : State) : Still s (readTamper s).2 := (readTamper_calm (Calm.refl s)).still

@[simp] theorem writeTamper_still (t : Tamper) (s : State) : Still s (writeTamper t s) :=
  (writeTamper_calm _ (Calm.refl s)).still

@[simp] theorem readBarHeader_still (s : State) : Still s (readBarHeader s).2 :=
  (readBarHeader_calm (Calm.refl s)).still

@[simp] theorem readSlotHeader_still (k : Nat) (s : State) : Still s (readSlotHeader k s).2 :=
  (readSlotHeader_calm _ (Calm.refl s)).still

@[simp] theorem writeSlotHeader_still (k : Nat) (h : SlotHeader) (s : State) : Still s (writeSlotHeader k h s) :=
  (writeSlotHeader_calm _ _ (Calm.refl s)).still

@[simp] theorem writeSlotBody_still (k : Nat) (g : GrantRecord) (s : State) : Still s (writeSlotBody k g s) :=
  (writeSlotBody_calm _ _ (Calm.refl s)).still

@[simp] theorem writeSlot_still (k : Nat) (h : SlotHeader) (g : GrantRecord) (s : State) : Still s (writeSlot k h g s) :=
  (writeSlot_calm _ _ _ (Calm.refl s)).still

@[simp] theorem readSlotBody_still (k : Nat) (s : State) : Still s (readSlotBody k s).2 :=
  (readSlotBody_calm _ (Calm.refl s)).still

@[simp] theorem readRoomHeader_still (r : Nat) (s : State) : Still s (readRoomHeader r s).2 :=
  (readRoomHeader_calm _ (Calm.refl s)).still

@[simp] theorem writeRoomHeader_still (r : Nat) (h : RoomState) (s : State) : Still s (writeRoomHeader r h s) :=
  (writeRoomHeader_calm _ _ (Calm.refl s)).still

@[simp] theorem writeRoomBody_still (r : Nat) (b : RoomBody) (s : State) : Still s (writeRoomBody r b s) :=
  (writeRoomBody_calm _ _ (Calm.refl s)).still

@[simp] theorem readRoomRecord_still (r : Nat) (s : State) : Still s (readRoomRecord r s).2 :=
  (readRoomRecord_calm _ (Calm.refl s)).still

@[simp] theorem setSuspect_still (r : Nat) (s : State) : Still s (setSuspect r s) :=
  (setSuspect_calm _ (Calm.refl s)).still

@[simp] theorem readIndex_still (id : Nat) (s : State) : Still s (readIndex id s).2 :=
  (readIndex_calm _ (Calm.refl s)).still

@[simp] theorem writeIndex_still (id : Nat) (i : PresenceIndex) (s : State) : Still s (writeIndex id i s) :=
  (writeIndex_calm _ _ (Calm.refl s)).still

@[simp] theorem writePresenceBody_still (id : Nat) (b : PresenceBody) (s : State) : Still s (writePresenceBody id b s) :=
  (writePresenceBody_calm _ _ (Calm.refl s)).still

@[simp] theorem readPresenceBody_still (id : Nat) (s : State) : Still s (readPresenceBody id s).2 :=
  (readPresenceBody_calm _ (Calm.refl s)).still

@[simp] theorem readBarEntry_still (position : Nat) (s : State) : Still s (readBarEntry position s).2 :=
  (readBarEntry_calm _ (Calm.refl s)).still

@[simp] theorem readStationHeader_still (k : Nat) (s : State) : Still s (readStationHeader k s).2 := by
  simp only [readStationHeader, readVoted]
  split
  · simp [Still]
  · exact (noteCorrected_calm .site (Calm.refl (s.setStation k _))).still

@[simp] theorem readStationBody_still (k : Nat) (s : State) : Still s (readStationBody k s).2 := by
  simp only [readStationBody]
  (repeat' split) <;> simp [Still]

@[simp] theorem writeStationBody_still (k : Nat) (b : StationBody) (s : State) : Still s (writeStationBody k b s) := by
  simp [writeStationBody, Still]

@[simp] theorem boundStationsFrom_still (r : Nat) (ks : List Nat) (s : State) : Still s (boundStationsFrom r ks s).2 := by
  induction ks generalizing s with
  | nil => simp [boundStationsFrom, Still]
  | cons k ks ih =>
    have h := ih (readStationBody k s).2
    simp only [boundStationsFrom]
    split <;> simpa [Still] using h

@[simp] theorem boundStations_still (r : Nat) (s : State) : Still s (boundStations r s).2 := by
  simp [boundStations, Still]

@[simp] theorem finish_still (r : CommandResult) (s : State) : Still s (finish r s) := by
  simp [finish, Still]

@[simp] theorem refuse_still (c : ResultCode) (s : State) : Still s (refuse c s) := by
  simp [refuse, Still]

@[simp] theorem finishOk_still (s : State) : Still s (finishOk s) := by
  simp [finishOk, Still]

@[simp] theorem completePort_still (r : CommandResult) (s : State) : Still s (completePort r s) := by
  simp [completePort, Still]

@[simp] theorem writeArgument_still (address : BitVec 7) (v : Word) (s : State) :
    Still s (writeArgument address v s) := by
  simp only [writeArgument]
  (repeat' split) <;> simp [Still]

@[simp] theorem writeMask_still (v : Word) (s : State) : Still s (writeMask v s) := by
  simp [writeMask, Still]

@[simp] theorem takeAttention_still (s : State) : Still s (takeAttention s) := by
  simp [takeAttention, Still]

@[simp] theorem clearTaken_still (s : State) : Still s (clearTaken s) := by
  simp [clearTaken, Still]

@[simp] theorem dropTaken_still (s : State) : Still s (dropTaken s) := by
  simp [dropTaken, Still]

@[simp] theorem checkHandle_still (h : Handle) (s : State) : Still s (checkHandle h s).2 :=
  (checkHandle_calm _ (Calm.refl s)).still

@[simp] theorem searchRead_still (c : Credential) (key : Key) (t : Minute) (f : Search) (s : State) : Still s (searchRead c key t f s).2 :=
  (searchRead_calm _ _ _ _ (Calm.refl s)).still

@[simp] theorem claimSlot_still (h : Handle) (c : Credential) (key : Key) (t : Minute) (s : State) : Still s (claimSlot h c key t s).2 :=
  (claimSlot_calm _ _ _ _ (Calm.refl s)).still

@[simp] theorem returnUse_still (h : Handle) (s : State) : Still s (returnUse h s) :=
  (returnUse_calm _ (Calm.refl s)).still

@[simp] theorem returnClaims_still (claims : List Claim) (s : State) : Still s (returnClaims claims s) :=
  (returnClaims_calm _ (Calm.refl s)).still

@[simp] theorem findFreeSlot_still (count k : Nat) (s : State) : Still s (findFreeSlot count k s).2 :=
  (findFreeSlot_calm _ _ (Calm.refl s)).still

@[simp] theorem scanIndexes_still (s : State) : Still s (scanIndexes s) := (scanIndexes_calm (Calm.refl s)).still

@[simp] theorem setCondition_still (name : ConditionName) (id : Nat) (b : PresenceBody) (s : State) : Still s (setCondition name id b s).2 :=
  (setCondition_calm _ _ _ (Calm.refl s)).still

@[simp] theorem clearCondition_still (name : ConditionName) (id : Nat) (b : PresenceBody) (s : State) : Still s (clearCondition name id b s).2 :=
  (clearCondition_calm _ _ _ (Calm.refl s)).still

@[simp] theorem locate_still (c : Credential) (s : State) : Still s (locate c s).2 :=
  (locate_calm _ (Calm.refl s)).still

@[simp] theorem updateRoomBody_still (r : Nat) (f : RoomBody → RoomBody) (s : State) : Still s (updateRoomBody r f s) :=
  (updateRoomBody_calm _ _ (Calm.refl s)).still

@[simp] theorem setUnescortedOn_still (ids : List Nat) (s : State) : Still s (setUnescortedOn ids s) :=
  (setUnescortedOn_calm _ (Calm.refl s)).still

@[simp] theorem clearUnescortedOn_still (ids : List Nat) (s : State) : Still s (clearUnescortedOn ids s) :=
  (clearUnescortedOn_calm _ (Calm.refl s)).still

@[simp] theorem markUnescorted_still (r : Nat) (s : State) : Still s (markUnescorted r s) :=
  (markUnescorted_calm _ (Calm.refl s)).still

@[simp] theorem clearUnescorted_still (r : Nat) (s : State) : Still s (clearUnescorted r s) :=
  (clearUnescorted_calm _ (Calm.refl s)).still

@[simp] theorem unlinkRecord_still (id : Nat) (s : State) : Still s (unlinkRecord id s) :=
  (unlinkRecord_calm _ (Calm.refl s)).still

@[simp] theorem takeOut_still (id : Nat) (s : State) : Still s (takeOut id s).2 := (takeOut_calm _ (Calm.refl s)).still

@[simp] theorem removeRecord_still (id : Nat) (s : State) : Still s (removeRecord id s) :=
  (removeRecord_calm _ (Calm.refl s)).still

@[simp] theorem removeUnsent_still (ids : List Nat) (s : State) : Still s (removeUnsent ids s) :=
  (removeUnsent_calm _ (Calm.refl s)).still

@[simp] theorem anyLocated_still (es : List Entrant) (s : State) : Still s (anyLocated es s).2 :=
  (anyLocated_calm _ (Calm.refl s)).still

@[simp] theorem fillRecords_still (r : Nat) (now : Minute) (ids : List Nat) (es : List Entrant) (place : Nat) (s : State) : Still s (fillRecords r now ids es place s) :=
  (fillRecords_calm _ _ _ _ _ (Calm.refl s)).still

@[simp] theorem placeRecords_still (r : Nat) (b : RoomBody) (es : List Entrant) (s : State) : Still s (placeRecords r b es s).2 :=
  (placeRecords_calm _ _ _ (Calm.refl s)).still

@[simp] theorem admitAll_still (r : Nat) (b : RoomBody) (es : List Entrant) (s : State) : Still s (admitAll r b es s).2 :=
  (admitAll_calm _ _ _ (Calm.refl s)).still

@[simp] theorem admission_still (r : Nat) (es : List Entrant) (s : State) : Still s (admission r es s).2 :=
  (admission_calm _ _ (Calm.refl s)).still

@[simp] theorem confirmRecord_still (id : Nat) (s : State) : Still s (confirmRecord id s) :=
  (confirmRecord_calm _ (Calm.refl s)).still

@[simp] theorem poolOverstay_still (h : Handle) (s : State) : Still s (poolOverstay h s) :=
  (poolOverstay_calm _ (Calm.refl s)).still

@[simp] theorem poolRevoke_still (h : Handle) (s : State) : Still s (poolRevoke h s).2 :=
  (poolRevoke_calm _ (Calm.refl s)).still

@[simp] theorem poolHolds_still (h : Handle) (s : State) : Still s (poolHolds h s).2 :=
  (poolHolds_calm _ (Calm.refl s)).still

@[simp] theorem poolBar_still (c : Credential) (s : State) : Still s (poolBar c s).2 :=
  (poolBar_calm _ (Calm.refl s)).still

@[simp] theorem poolUnbar_still (c : Credential) (s : State) : Still s (poolUnbar c s).2 :=
  (poolUnbar_calm _ (Calm.refl s)).still

@[simp] theorem markCleared_still (ids : List Nat) (s : State) : Still s (markCleared ids s) :=
  (markCleared_calm _ (Calm.refl s)).still

@[simp] theorem poolTamper_still (s : State) : Still s (poolTamper s) := by
  simp [poolTamper, Still]

@[simp] theorem markSome_still (reached : Nat) (s : State) : Still s (markSome reached s) := by
  simp [markSome, Still]

@[simp] theorem readBodies_still (ids : List Nat) (s : State) : Still s (readBodies ids s) :=
  (readBodies_calm _ (Calm.refl s)).still

@[simp] theorem reportPlaced_still (k : Nat) (q : Sequence) (v : Verdict) (r : Option DenyReason) (s : State) :
    Still s (reportPlaced k q v r s) := by
  simp [reportPlaced, Still]

@[simp] theorem reportConverted_still (k : Nat) (q : Sequence) (v : Verdict) (r : Option DenyReason) (s : State) :
    Still s (reportConverted k q v r s) := by
  simp [reportConverted, Still]

@[simp] theorem reportWithdrawn_still (k : Nat) (q : Sequence) (r : DenyReason) (s : State) :
    Still s (reportWithdrawn k q r s) := by
  simp [reportWithdrawn, Still]

@[simp] theorem reportRemoved_still (k : Nat) (q : Sequence) (s : State) : Still s (reportRemoved k q s) := by
  simp [reportRemoved, Still]

@[simp] theorem forgetRequest_still (k : Nat) (q : Sequence) (s : State) : Still s (forgetRequest k q s) := by
  simp only [forgetRequest]
  (repeat' split) <;> simp [Still]

@[simp] theorem removeRequests_still (which : Request → Bool) (s : State) : Still s (removeRequests which s) := by
  simp only [removeRequests]
  exact foldl_still (fun s (r : Request) => forgetRequest_still r.station r.sequence s) _ { s with requests := _ }

@[simp] theorem reportFreed_still (k : Nat) (s : State) : Still s (reportFreed k s) := by
  simp [reportFreed, Still]

@[simp] theorem reportSent_still (e : VerdictEntry) (s : State) : Still s (reportSent e s) := by
  simp only [reportSent]
  (repeat' split) <;> simp [Still]

@[simp] theorem undoData_still (claims : List Claim) (records : List Nat) (s : State) : Still s (undoData claims records s) :=
  (undoData_calm _ _ (Calm.refl s)).still

@[simp] theorem undoPermitData_still (p : Option PermitData) (s : State) : Still s (undoPermitData p s) :=
  (undoPermitData_calm _ (Calm.refl s)).still

@[simp] theorem searchBars_still (c : Credential) (count position : Nat) (s : State) : Still s (searchBars c count position s).2 :=
  (searchBars_calm _ _ _ (Calm.refl s)).still

@[simp] theorem membership_still (c : Credential) (s : State) : Still s (membership c s).2 :=
  (membership_calm _ (Calm.refl s)).still

@[simp] theorem insertBar_still (p : Nat) (c : Credential) (h : BarHeader) (s : State) :
    Still s (insertBar p c h s) := by
  simp [insertBar, Still]

@[simp] theorem removeBar_still (p : Nat) (h : BarHeader) (s : State) : Still s (removeBar p h s) := by
  simp [removeBar, Still]

@[simp] theorem readPositions_still (faulted : List Nat) (count position : Nat) (s : State) :
    Still s (readPositions faulted count position s).2 := by
  induction count generalizing position s with
  | zero => simp [readPositions, Still]
  | succ count ih =>
    simp only [readPositions]
    split
    · exact ih (position + 1) s
    · simpa [Still] using ih (position + 1) (readBarEntry position s).2

@[simp] theorem emptyBars_still (s : State) : Still s (emptyBars s) := by
  simp [emptyBars, Still]

@[simp] theorem takeNotice_still (o : Outstanding) (s : State) : Still s (takeNotice o s) := by
  simp [takeNotice, Still]

@[simp] theorem settleMode_still (give ofCommand : Bool) (s : State) : Still s (settleMode give ofCommand s) := by
  simp only [settleMode]
  (repeat' split) <;> simp [Still]

@[simp] theorem takeLine_still (line : AlarmLine) (asserted give : Bool) (s : State) :
    Still s (takeLine line asserted give s) := by
  simp only [takeLine]
  (repeat' split) <;> simp [Still]

@[simp] theorem resetMode_still (s : State) : Still s (resetMode s) := by
  simp [resetMode, Still]

@[simp] theorem takeLinesAfterReset_still (s : State) : Still s (takeLinesAfterReset s) := by
  simp [takeLinesAfterReset, Still]

@[simp] theorem startTamperClear_still (s : State) : Still s (startTamperClear s) := by
  simp [startTamperClear, Still]

@[simp] theorem settleTamper_still (s : State) : Still s (settleTamper s) := by
  simp only [settleTamper]
  (repeat' split) <;> simp [Still]

@[simp] theorem assertTamper_still (s : State) : Still s (assertTamper s) := by
  simp only [assertTamper]
  (repeat' split) <;> simp [Still]

@[simp] theorem freeTamperSlot_still (s : State) : Still s (freeTamperSlot s) := by
  simp only [freeTamperSlot]
  (repeat' split) <;> simp [Still]

@[simp] theorem sweepTrigger_still (s : State) : Still s (sweepTrigger s) := by
  simp only [sweepTrigger]
  (repeat' split) <;> simp [Still]

@[simp] theorem giveOverstay_still (h : Handle) (s : State) : Still s (giveOverstay h s) := by
  simp [giveOverstay, Still]

@[simp] theorem compareHours_still (h : Handle) (g : GrantRecord) (t : Minute) (s : State) :
    Still s (compareHours h g t s) := by
  simp only [compareHours]
  (repeat' split) <;> simp [Still]

@[simp] theorem visitGrant_still (k : Nat) (header : SlotHeader) (g : GrantRecord) (t : Minute) (s : State) :
    Still s (visitGrant k header g t s) := by
  simp only [visitGrant]
  (repeat' split) <;> simp [Still]

@[simp] theorem visitSlot_still (k : Nat) (t : Minute) (s : State) : Still s (visitSlot k t s) := by
  simp only [visitSlot]
  (repeat' split) <;> simp [Still]

@[simp] theorem endSweep_still (s : State) : Still s (endSweep s) := by
  simp only [endSweep]
  (repeat' split) <;> simp [Still]

@[simp] theorem sweepStep_still (s : State) : Still s (sweepStep s) := by
  simp only [sweepStep]
  (repeat' split) <;> simp [Still]

@[simp] theorem undoHand_still (d : Decision) (s : State) : Still s (undoHand d s).2 :=
  (undoHand_calm _ (Calm.refl s)).still

@[simp] theorem placementCondition_still (d : Decision) (s : State) : Still s (placementCondition d s).2 :=
  (placementCondition_calm _ (Calm.refl s)).still

@[simp] theorem finishAnswer_still (r : CommandResult) (s : State) : Still s (finishAnswer r s) := by
  simp only [finishAnswer]
  (repeat' split) <;> simp [Still]

@[simp] theorem removeReturning_still (id : Nat) (s : State) : Still s (removeReturning id s) :=
  (removeReturning_calm _ (Calm.refl s)).still

@[simp] theorem strayExit_still (room : Nat) (other : Option Nat) (s : State) : Still s (strayExit room other s) := by
  simp only [strayExit]
  (repeat' split) <;> simp [Still]

@[simp] theorem stepNineLimit_still (d : Decision) (s : State) : Still s (stepNineLimit d s).2 :=
  (stepNineLimit_calm _ (Calm.refl s)).still

@[simp] theorem resetStation_still (k : Nat) (s : State) : Still s (resetStation k s) := by
  simp [resetStation, Still]

@[simp] theorem resetStations_still (s : State) : Still s (resetStations s) :=
  foldl_still (fun s k => resetStation_still k s) _ s

@[simp] theorem dropNotices_still (s : State) : Still s (dropNotices s) := by
  simp [dropNotices, Still]

@[simp] theorem emptyAttention_still (s : State) : Still s (emptyAttention s) := by
  simp [emptyAttention, Still]

@[simp] theorem walkPart_still (n : Notice) (reached : Nat) (s : State) : Still s (walkPart n reached s) := by
  have hscan := scanIndexes_calm (Calm.refl s)
  simp only [walkPart]
  split
  · exact (forHoldersIn_calm _ (fun _ h => setCondition_calm _ _ h) _ hscan).still
  · exact (forHoldersIn_calm _ (fun _ h => setCondition_calm _ _ h) _ hscan).still
  all_goals simp [Still]

@[simp] theorem cutWalk_still (cut : Option Cut) (s : State) : Still s (cutWalk cut s) := by
  simp only [cutWalk]
  (repeat' split) <;> simp [Still]

@[simp] theorem cutMarking_still (marked : Option Nat) (s : State) : Still s (cutMarking marked s) := by
  simp [cutMarking, Still]

@[simp] theorem cutByReset_still (s : State) : Still s (cutByReset s) := by
  simp only [cutByReset]
  (repeat' split) <;> simp [Still]

@[simp] theorem returnSeatClaims_still (s : State) : Still s (returnSeatClaims s) := by
  simp only [returnSeatClaims]
  (repeat' split) <;> simp [Still]

@[simp] theorem resumeBlocks_still (s : State) : Still s (resumeBlocks s) := by
  simp only [resumeBlocks]
  (repeat' split) <;> simp [Still]

@[simp] theorem latchCauses_still (w : Word) (s : State) : Still s (latchCauses w s) := by
  simp only [latchCauses]
  (repeat' split) <;> simp [Still]

@[simp] theorem clearRetained_still (lost : Bool) (s : State) : Still s (clearRetained lost s) := by
  simp [clearRetained, Still]

@[simp] theorem latchDeferred_still (s : State) : Still s (latchDeferred s) := by
  simp [latchDeferred, Still]

@[simp] theorem testPattern_still (backupHeld : Bool) (s : State) : Still s (testPattern backupHeld s) := by
  simp only [testPattern]
  (repeat' split) <;> simp [Still]

@[simp] theorem applyTrim_still (s : State) : Still s (applyTrim s) := by
  simp only [applyTrim]
  (repeat' split) <;> simp [Still]

@[simp] theorem releaseJabbers_still (s : State) : Still s (releaseJabbers s) := updateStations_still _ _ s

@[simp] theorem enterRecovering_still (s : State) : Still s (enterRecovering s) := by
  simp [enterRecovering, Still]

@[simp] theorem nextTurn_still (k : Nat) (s : State) : Still s (nextTurn k s) := by
  simp only [nextTurn]
  (repeat' split) <;> simp [Still]

@[simp] theorem startTurn_still (k : Nat) (s : State) : Still s (startTurn k s) := by
  simp only [startTurn]
  (repeat' split) <;> simp [Still]

@[simp] theorem loseStation_still (k : Nat) (s : State) : Still s (loseStation k s) := by
  simp [loseStation, Still]

@[simp] theorem missTurn_still (k : Nat) (s : State) : Still s (missTurn k s) := by
  simp only [missTurn]
  (repeat' split) <;> simp [Still]

@[simp] theorem endTurn_still (k : Nat) (heard : Bool) (s : State) : Still s (endTurn k heard s) := by
  simp only [endTurn]
  (repeat' split) <;> simp [Still]

@[simp] theorem frameDone_still (k left : Nat) (heard : Bool) (s : State) : Still s (frameDone k left heard s) := by
  simp only [frameDone]
  (repeat' split) <;> simp [Still]

@[simp] theorem hearStation_still (k : Nat) (s : State) : Still s (hearStation k s) := by
  simp [hearStation, Still]

@[simp] theorem placeRequest_still (r : Request) (s : State) : Still s (placeRequest r s) := by
  simp only [placeRequest]
  (repeat' split) <;> simp [Still]

@[simp] theorem acceptReport_still (k : Nat) (e : Entrance) (s : State) : Still s (acceptReport k e s) := by
  simp [acceptReport, Still]

@[simp] theorem jabberTurn_still (k : Nat) (s : State) : Still s (jabberTurn k s) := by
  simp [jabberTurn, Still]

@[simp] theorem opAddGrant_still (s : State) : Still s (opAddGrant s) := by
  simp only [opAddGrant]
  (repeat' split) <;> simp [Still]

theorem withGrant_still (h : Handle) {act : SlotHeader → GrantRecord → State → State}
    (hact : ∀ header g s, Still s (act header g s)) (s : State) : Still s (withGrant h act s) := by
  simp only [withGrant]
  (repeat' split) <;> simp [Still, hact]

@[simp] theorem settleAmended_still (st : GrantState) (g : GrantRecord) (s : State) :
    Still s (settleAmended st g s).2 := by
  simp only [settleAmended]
  (repeat' split) <;> simp [Still]

@[simp] theorem amendGrant_still (h : Handle) (w : Window) (header : SlotHeader) (g : GrantRecord) (s : State) :
    Still s (amendGrant h w header g s) := by
  simp only [amendGrant]
  (repeat' split) <;> simp [Still]

@[simp] theorem opAmendGrant_still (s : State) : Still s (opAmendGrant s) :=
  withGrant_still _ (amendGrant_still _ _) s

@[simp] theorem suspendGrant_still (h : Handle) (header : SlotHeader) (g : GrantRecord) (s : State) :
    Still s (suspendGrant h header g s) := by
  simp only [suspendGrant]
  (repeat' split) <;> simp [Still]

@[simp] theorem opSuspendGrant_still (s : State) : Still s (opSuspendGrant s) :=
  withGrant_still _ (suspendGrant_still _) s

@[simp] theorem resumeGrant_still (h : Handle) (header : SlotHeader) (g : GrantRecord) (s : State) :
    Still s (resumeGrant h header g s) := by
  simp only [resumeGrant]
  (repeat' split) <;> simp [Still]

@[simp] theorem opResumeGrant_still (s : State) : Still s (opResumeGrant s) :=
  withGrant_still _ (resumeGrant_still _) s

@[simp] theorem revokeGrant_still (h : Handle) (header : SlotHeader) (g : GrantRecord) (s : State) :
    Still s (revokeGrant h header g s) := by
  simp only [revokeGrant]
  (repeat' split) <;> simp [Still]

@[simp] theorem opRevokeGrant_still (s : State) : Still s (opRevokeGrant s) :=
  withGrant_still _ (revokeGrant_still _) s

@[simp] theorem opReadGrant_still (s : State) : Still s (opReadGrant s) := by
  simp only [opReadGrant]
  (repeat' split) <;> simp [Still]

@[simp] theorem retireAsk_still (h : Handle) (question : Nat) (s : State) : Still s (retireAsk h question s).2 := by
  simp only [retireAsk]
  (repeat' split) <;> simp [Still]

@[simp] theorem endRetire_still (c : ResultCode) (s : State) : Still s (endRetire c s) := by
  simp [endRetire, Still]

@[simp] theorem retireStep_still (h : Handle) (asked : Nat) (s : State) : Still s (retireStep h asked s) := by
  simp only [retireStep]
  (repeat' split) <;> simp [Still]

@[simp] theorem opRetireGrant_still (s : State) : Still s (opRetireGrant s) := by
  simp only [opRetireGrant]
  (repeat' split) <;> simp [Still]

@[simp] theorem endFind_still (found : List (Handle × GrantState)) (s : State) : Still s (endFind found s) := by
  simp [endFind, Still]

@[simp] theorem findRead_still (key : FindKey) (k : Nat) (s : State) : Still s (findRead key k s).2 := by
  simp only [findRead]
  (repeat' split) <;> simp [Still]

@[simp] theorem findStep_still (key : FindKey) (cursor : Nat) (found : List (Handle × GrantState)) (s : State) :
    Still s (findStep key cursor found s) := by
  simp only [findStep]
  (repeat' split) <;> simp [Still]

@[simp] theorem opFindGrants_still (s : State) : Still s (opFindGrants s) := by
  simp only [opFindGrants]
  (repeat' split) <;> simp [Still]

@[simp] theorem writeClock_still (c : Calendar) (s : State) : Still s (writeClock c s) := by
  simp [writeClock, Still]

@[simp] theorem opSetClock_still (s : State) : Still s (opSetClock s) := by
  simp only [opSetClock]
  (repeat' split) <;> simp [Still]

@[simp] theorem opReadClock_still (s : State) : Still s (opReadClock s) := by
  simp [opReadClock, Still]

@[simp] theorem opShiftHour_still (s : State) : Still s (opShiftHour s) := by
  simp only [opShiftHour]
  (repeat' split) <;> simp [Still]

@[simp] theorem opTrimClock_still (s : State) : Still s (opTrimClock s) := by
  simp only [opTrimClock]
  (repeat' split) <;> simp [Still]

@[simp] theorem scanKeys_still (room : Nat) (key : Key) (rs : List Nat) (s : State) :
    Still s (scanKeys room key rs s).2 := by
  induction rs generalizing s with
  | nil => simp [scanKeys, Still]
  | cons r rs ih =>
    have h := ih (readRoomRecord r s).2
    simp only [scanKeys]
    split
    · exact ih s
    · split <;> simpa [Still] using h

@[simp] theorem amendRoom_still (d : RoomDefinition) (b : RoomBody) (s : State) : Still s (amendRoom d b s) := by
  simp only [amendRoom]
  (repeat' split) <;> simp [Still]

@[simp] theorem createRoom_still (d : RoomDefinition) (s : State) : Still s (createRoom d s) := by
  simp [createRoom, Still]

@[simp] theorem opDefineRoom_still (s : State) : Still s (opDefineRoom s) := by
  simp only [opDefineRoom]
  (repeat' split) <;> simp [Still]

@[simp] theorem moveRoom_still (wanted : RoomState) (s : State) : Still s (moveRoom wanted s) := by
  simp only [moveRoom]
  (repeat' split) <;> simp [Still]

@[simp] theorem opDeleteRoom_still (s : State) : Still s (opDeleteRoom s) := by
  simp only [opDeleteRoom]
  (repeat' split) <;> simp [Still]

@[simp] theorem opReadRoom_still (s : State) : Still s (opReadRoom s) := by
  simp only [opReadRoom]
  (repeat' split) <;> simp [Still]

@[simp] theorem readPlace_still (r place : Nat) (s : State) : Still s (readPlace r place s).2 := by
  simp only [readPlace]
  (repeat' split) <;> simp [Still]

@[simp] theorem opListPresence_still (s : State) : Still s (opListPresence s) := by
  simp only [opListPresence]
  (repeat' split) <;> simp [Still]

@[simp] theorem findNamed_still (w : Window) (s : State) : Still s (findNamed w s).2 := by
  simp only [findNamed]
  (repeat' split) <;> simp [Still]

@[simp] theorem opRemovePresence_still (s : State) : Still s (opRemovePresence s) := by
  simp only [opRemovePresence]
  (repeat' split) <;> simp [Still]

@[simp] theorem emptyRoomList_still (ids : List Nat) (s : State) : Still s (emptyRoomList ids s) :=
  foldl_still (fun s id => (setRecord_calm id .free (Calm.refl s)).still) ids s

@[simp] theorem opResetCensus_still (s : State) : Still s (opResetCensus s) := by
  simp only [opResetCensus]
  (repeat' split) <;> simp [Still]

@[simp] theorem opSetPairWindow_still (s : State) : Still s (opSetPairWindow s) := by
  simp only [opSetPairWindow]
  (repeat' split) <;> simp [Still]

@[simp] theorem opReadPairContext_still (s : State) : Still s (opReadPairContext s) := by
  simp only [opReadPairContext]
  (repeat' split) <;> simp [Still]

theorem withBarSearch_still {act : Credential → BarHeader → BarSearch → State → State}
    (hact : ∀ c h found s, Still s (act c h found s)) (s : State) : Still s (withBarSearch act s) := by
  simp only [withBarSearch]
  (repeat' split) <;> simp [Still, hact]

@[simp] theorem barCredential_still (c : Credential) (h : BarHeader) (f : BarSearch) (s : State) :
    Still s (barCredential c h f s) := by
  simp only [barCredential]
  (repeat' split) <;> simp [Still]

@[simp] theorem unbarCredential_still (c : Credential) (h : BarHeader) (f : BarSearch) (s : State) :
    Still s (unbarCredential c h f s) := by
  simp only [unbarCredential]
  (repeat' split) <;> simp [Still]

@[simp] theorem opReadBarList_still (s : State) : Still s (opReadBarList s) := by
  simp only [opReadBarList]
  (repeat' split) <;> simp [Still]

@[simp] theorem giveUnbars_still (cs : List Credential) (s : State) : Still s (giveUnbars cs s) :=
  foldl_still (fun _ _ => by simp [Still]) cs s

@[simp] theorem opClearBarList_still (s : State) : Still s (opClearBarList s) := by
  simp [opClearBarList, Still]

@[simp] theorem opSetReferralTimeout_still (s : State) : Still s (opSetReferralTimeout s) := by
  simp only [opSetReferralTimeout]
  (repeat' split) <;> simp [Still]

@[simp] theorem opConfigureLink_still (s : State) : Still s (opConfigureLink s) := by
  simp only [opConfigureLink]
  (repeat' split) <;> simp [Still]

@[simp] theorem opStartLink_still (s : State) : Still s (opStartLink s) := by
  simp only [opStartLink]
  (repeat' split) <;> simp [Still]

@[simp] theorem opStopLink_still (s : State) : Still s (opStopLink s) := by
  simp [opStopLink, Still]

@[simp] theorem opReadLink_still (s : State) : Still s (opReadLink s) := by
  simp [opReadLink, Still]

@[simp] theorem bindStation_still (k r : Nat) (s : State) : Still s (bindStation k r s) := by
  simp only [bindStation]
  (repeat' split) <;> simp [Still]

@[simp] theorem opBindStation_still (s : State) : Still s (opBindStation s) := by
  simp only [opBindStation]
  (repeat' split) <;> simp [Still]

@[simp] theorem endUnbind_still (c : ResultCode) (s : State) : Still s (endUnbind c s) := by
  simp [endUnbind, Still]

@[simp] theorem unbindStep_still (k asked : Nat) (s : State) : Still s (unbindStep k asked s) := by
  simp only [unbindStep]
  (repeat' split) <;> simp [Still]

@[simp] theorem holdStation_still (k : Nat) (s : State) : Still s (holdStation k s) := by
  simp [holdStation, Still]

@[simp] theorem opUnbindStation_still (s : State) : Still s (opUnbindStation s) := by
  simp only [opUnbindStation]
  (repeat' split) <;> simp [Still]

@[simp] theorem opSetStation_still (s : State) : Still s (opSetStation s) := by
  simp only [opSetStation]
  (repeat' split) <;> simp [Still]

@[simp] theorem opReadStation_still (s : State) : Still s (opReadStation s) := by
  simp only [opReadStation]
  (repeat' split) <;> simp [Still]

@[simp] theorem awaitMode_still (before : BuildingMode) (s : State) : Still s (awaitMode before s) := by
  simp only [awaitMode]
  (repeat' split) <;> simp [Still]

@[simp] theorem opSetMode_still (s : State) : Still s (opSetMode s) := by
  simp only [opSetMode]
  (repeat' split) <;> simp [Still]

@[simp] theorem opReadMode_still (s : State) : Still s (opReadMode s) := by
  simp [opReadMode, Still]

@[simp] theorem opReadHealth_still (s : State) : Still s (opReadHealth s) := by
  simp [opReadHealth, Still]

@[simp] theorem opClearHealth_still (s : State) : Still s (opClearHealth s) := by
  simp [opClearHealth, Still]

@[simp] theorem opAcknowledgeTamper_still (s : State) : Still s (opAcknowledgeTamper s) := by
  simp only [opAcknowledgeTamper]
  (repeat' split) <;> simp [Still]

@[simp] theorem startReset_still (code : BitVec 8) (s : State) : Still s (startReset code s) := by
  simp [startReset, Still]

@[simp] theorem abandonClear_still (s : State) : Still s (abandonClear s) := by
  simp only [abandonClear]
  (repeat' split) <;> simp [Still]

@[simp] theorem opClearRetained_still (s : State) : Still s (opClearRetained s) := by
  simp [opClearRetained, Still]

@[simp] theorem opDeviceReset_still (s : State) : Still s (opDeviceReset s) := by
  simp [opDeviceReset, Still]

@[simp] theorem reportTo_still (o : Outstanding) (r : Report) (s : State) : Still s (reportTo o r s) := by
  simp only [reportTo]
  (repeat' split) <;> simp [Still]

@[simp] theorem passBar_still (b : Block) (o : Outstanding) (s : State) : Still s (passBar b o s) := by
  simp only [passBar]
  (repeat' split) <;> simp [Still]

@[simp] theorem takeUnbar_still (o : Outstanding) (s : State) : Still s (takeUnbar o s) := by
  simp only [takeUnbar]
  (repeat' split) <;> simp [Still]

end Sys2Proof.Machine

namespace Sys2Proof.Machine
open Sys2Proof

/-! ## Completions (R174, R176, log 5) -/

/-- The completion of a command that is not a reset raises COMMAND DONE in the latches. -/
theorem completePort_of_on {s : State} (hp : s.portOn = true) (r : CommandResult) : completePort r s = completedWith r s :=
  raise_of_awake (s := { s with window := r.words, resultCode := r.code, portBusy := false, work := none })
    ((awake_iff _).mpr ⟨hp, rfl⟩) .commandDone

theorem completeCommand_of_none {s : State} (hw : s.work = none) : completeCommand s = s := by
  simp only [completeCommand, hw, ite_self]

/-- A command that has its result completes with it. -/
theorem exec_completion_of_result {s : State} {w : CommandWork} {r : CommandResult} (hp : s.portOn = true)
    (hw : s.work = some w) (hc : w.resetCode = none) (hr : workResult s = some r) :
    exec .commandCompletion s = .next (completedWith r s) :=
  congrArg Host.Outcome.next ((completeCommand_of_result hp hw hc hr).trans (completePort_of_on hp r))

/-- One that has operations left makes the next. -/
theorem exec_completion_of_owed {s : State} {w : CommandWork} (hp : s.portOn = true) (hw : s.work = some w)
    (hc : w.resetCode = none) (hr : workResult s = none) : exec .commandCompletion s = .next (ownStep w s) :=
  congrArg Host.Outcome.next (completeCommand_of_owed hp hw hc hr)

theorem awaitsNotices_iff (s : State) : s.awaitsNotices = true ↔ ∃ o ∈ s.notices, o.ofCommand = true := by
  simp [State.awaitsNotices]

/-- A command that counts what its notices do makes no operation of its own. -/
theorem ownStep_of_counts {w : CommandWork} {words : Window} (h : countsOf w = some words) (s : State) :
    ownStep w s = s ∧ w.resetCode = none := by
  cases w with
  | handed | ready | retire | unbind | find | answer | reset => cases h
  | revoke | bar | unbar | clearBar | setMode | stopLink => exact ⟨rfl, rfl⟩

/-- It waits for its notices, and STOP LINK for the reservations too. -/
theorem workResult_of_waiting {s : State} {w : CommandWork} {words : Window} (hw : s.work = some w)
    (h : countsOf w = some words)
    (hwait : (∃ o ∈ s.notices, o.ofCommand = true) ∨ (w = .stopLink ∧ s.reservations ≠ 0)) : workResult s = none := by
  have hnot : w ≠ .stopLink → s.awaitsNotices = true := fun hne =>
    (awaitsNotices_iff s).mpr (hwait.resolve_right fun hs => hne hs.1)
  cases w with
  | handed | ready | retire | unbind | find | answer | reset => cases h
  | revoke | bar | unbar | clearBar | setMode => simp only [workResult, hw, hnot (by simp), if_true]
  | stopLink =>
    have : s.awaitsStop = true := by
      simp only [State.awaitsStop, Bool.or_eq_true, decide_eq_true_eq]
      exact hwait.imp (awaitsNotices_iff s).mpr And.right
    simp only [workResult, hw, this, if_true]

/-- With its notices taken it has its counts. -/
theorem workResult_of_taken {s : State} {w : CommandWork} {words : Window} (hw : s.work = some w)
    (h : countsOf w = some words) (hno : ∀ o ∈ s.notices, o.ofCommand = false)
    (hstop : w = .stopLink → s.reservations = 0) : workResult s = some { code := .ok, words := words } := by
  have hn : s.awaitsNotices = false := by
    simpa [State.awaitsNotices] using hno
  cases w with
  | handed | ready | retire | unbind | find | answer | reset => cases h
  | revoke | bar | clearBar =>
    cases h
    simp only [workResult, hw, hn, Bool.false_eq_true, if_false]
    rfl
  | setMode =>
    cases h
    simp only [workResult, hw, hn, Bool.false_eq_true, if_false]
    rfl
  | unbar n =>
    cases h
    simp only [workResult, hw, hn, Bool.false_eq_true, if_false]
    cases n <;> rfl
  | stopLink =>
    cases h
    simp only [workResult, hw, State.awaitsStop, hn, hstop rfl]
    rfl

/-! ### The questions of UNBIND STATION (R148) -/

theorem pairAt_isSome (s : State) (k : Nat) :
    (s.pairAt k).isSome = true ↔ ∃ slot c, 1 ≤ slot ∧ slot ≤ 8 ∧ s.pair slot = some c ∧ c.station = k := by
  have := anyPair_iff s (fun c => decide (c.station = k))
  simp only [State.anyPair, List.any_eq_true, decide_eq_true_eq] at this
  simpa only [State.pairAt, List.find?_isSome] using this

theorem unbindAsk_iff (k : Nat) (s : State) {asked : Nat} (hq : asked ≤ 4) :
    unbindAsk k asked s = true ↔ s.worksAt k asked := by
  match asked, hq with
  | 0, _ => simp [unbindAsk, State.worksAt]
  | 1, _ =>
    simp only [unbindAsk, State.worksAt, State.decidesRequest]
    cases s.seat with
    | none => simp
    | some d => cases hd : d.work <;> simp [hd]
  | 2, _ => exact pairAt_isSome s k
  | 3, _ =>
    refine (anyApproval_iff s _).trans ?_
    simp only [State.worksAt, decide_eq_true_eq, approval?_eq_some, isApproval_iff]
    constructor
    · rintro ⟨e, he, a, hk, rfl⟩
      exact ⟨e, he, ⟨_, _, _, _, hk⟩, rfl⟩
    · rintro ⟨e, he, ⟨h, st, n, c, hk⟩, rfl⟩
      exact ⟨e, he, ⟨h, st, n, c⟩, hk, rfl⟩
  | 4, _ => simp [unbindAsk, State.worksAt]

section
variable {s : State} {k asked : Nat}

theorem unbindStep_of_work (hq : asked ≤ 4) (hh : s.worksAt k asked) : unbindStep k asked s = endUnbind .inUse s := by
  simp only [unbindStep, (unbindAsk_iff k s hq).mpr hh, if_true]

theorem unbindStep_of_next (hq : asked < 4) (hh : ¬ s.worksAt k asked) :
    unbindStep k asked s = { s with work := some (.unbind k (asked + 1)) } := by
  simp only [unbindStep, mt (unbindAsk_iff k s hq.le).mp hh, hq, if_true, Bool.false_eq_true, if_false]

theorem unbindStep_of_last (hh : ¬ s.worksAt k 4) : unbindStep k 4 s = endUnbind .ok (updateStation k freshStation s) := by
  simp only [unbindStep, mt (unbindAsk_iff k s le_rfl).mp hh, Bool.false_eq_true, if_false, lt_irrefl]

end

/-! ### Commands that are a sequence of operations -/

/-- How many operations a command has left at most, once its owner has begun on it; `none` for one that is not such a
sequence. -/
def CommandWork.stepsLeft : CommandWork → Option Nat
  | .ready _ => some 0
  | .retire _ asked => some (3 - asked + 1)
  | .unbind _ asked => some (4 - asked + 1)
  | .find _ cursor _ => some (Config.slots - cursor + 1)
  | .handed _ | .revoke _ | .bar _ | .unbar _ | .clearBar _ _ | .setMode _ _ _ | .stopLink | .answer _ | .reset _ => none

/-- The port is on, and the command in progress is such a sequence with at most so many operations left. -/
def InSequence (m : Nat) (s : State) : Prop :=
  s.portOn = true ∧ ∃ w l, s.work = some w ∧ w.stepsLeft = some l ∧ l ≤ m

theorem Calm.portOn {s t : State} (h : Calm s t) : t.portOn = s.portOn := by
  simp only [State.portOn, h.supply, h.resetLow]

theorem inSequence_finish {s : State} (hp : s.portOn = true) (m : Nat) (r : CommandResult) : InSequence m (finish r s) :=
  ⟨hp, .ready r, 0, rfl, rfl, Nat.zero_le m⟩

theorem inSequence_of_ready {s : State} (hp : s.portOn = true) {r : CommandResult} (hw : s.work = some (.ready r)) (m : Nat) :
    InSequence m s := ⟨hp, .ready r, 0, hw, rfl, Nat.zero_le m⟩

theorem retireAsk_calm (h : Handle) (asked : Nat) (s : State) : Calm s (retireAsk h asked s).2 := by
  unfold retireAsk
  split
  · exact Calm.refl s
  · exact Calm.refl s
  · exact Calm.refl s
  · exact poolHolds_calm h (Calm.refl s)

theorem retireStep_inSequence {s : State} (hp : s.portOn = true) (h : Handle) {asked m : Nat} (hm : 3 - asked ≤ m) :
    InSequence m (retireStep h asked s) := by
  have hread : (readSlotHeader h.slot s).2.portOn = true := (readSlotHeader_calm h.slot (Calm.refl s)).portOn.trans hp
  have hask := (retireAsk_calm h asked (readSlotHeader h.slot s).2).portOn.trans hread
  simp only [retireStep]
  split
  · exact inSequence_finish hread m _
  split
  · exact inSequence_finish hask m _
  split
  · exact ⟨hask, _, _, rfl, rfl, by omega⟩
  · exact inSequence_finish hask m _

theorem unbindStep_inSequence {s : State} (hp : s.portOn = true) (k : Nat) {asked m : Nat} (hm : 4 - asked ≤ m) :
    InSequence m (unbindStep k asked s) := by
  simp only [unbindStep]
  split
  · exact inSequence_finish hp m _
  split
  · exact ⟨hp, _, _, rfl, rfl, by omega⟩
  · exact inSequence_finish hp m _

theorem findRead_calm (key : FindKey) (k : Nat) (s : State) : Calm s (findRead key k s).2 := by
  have hread := readSlotHeader_calm k (Calm.refl s)
  have hbody := readSlotBody_calm k hread
  simp only [findRead]
  split
  · exact hread
  · exact hread
  all_goals split <;> exact hbody

theorem findStep_inSequence {s : State} (hp : s.portOn = true) (key : FindKey) {cursor m : Nat}
    (found : List (Handle × GrantState)) (hm : Config.slots - cursor ≤ m) : InSequence m (findStep key cursor found s) := by
  have hread : (findRead key cursor s).2.portOn = true := (findRead_calm key cursor s).portOn.trans hp
  simp only [findStep]
  split
  · exact inSequence_finish hread m _
  next hmore =>
    refine ⟨hread, _, _, rfl, rfl, ?_⟩
    simp only [not_or, not_le] at hmore
    omega

/-- Each operation leaves one less. -/
theorem ownStep_inSequence {s : State} {m : Nat} (h : InSequence (m + 1) s) {w : CommandWork} (hw : s.work = some w) :
    InSequence m (ownStep w s) := by
  obtain ⟨hp, w', l, hw', hl, hlm⟩ := h
  obtain rfl : w' = w := Option.some.inj (hw'.symm.trans hw)
  cases w' with
  | ready r => exact inSequence_of_ready hp hw m
  | retire h asked =>
    cases hl
    exact retireStep_inSequence hp h (Nat.le_of_succ_le_succ hlm)
  | unbind k asked =>
    cases hl
    exact unbindStep_inSequence hp k (Nat.le_of_succ_le_succ hlm)
  | find key cursor found =>
    cases hl
    exact findStep_inSequence hp key found (Nat.le_of_succ_le_succ hlm)
  | handed | revoke | bar | unbar | clearBar | setMode | stopLink | answer | reset => cases hl

theorem runOwn_inSequence {s : State} (n m : Nat) (h : InSequence (n + m) s) : InSequence m (runOwn n s) := by
  induction n generalizing s with
  | zero => rwa [Nat.zero_add] at h
  | succ n ih =>
    obtain ⟨w, l, hw, -⟩ := h.2
    simp only [runOwn, hw]
    exact ih (ownStep_inSequence (m := n + m) (by rwa [Nat.add_right_comm] at h) hw)

/-- A sequence with no operation left has its result. -/
theorem ready_of_inSequence_zero {s : State} (h : InSequence 0 s) : ∃ r, s.work = some (.ready r) := by
  obtain ⟨-, w, l, hw, hl, hz⟩ := h
  obtain rfl : l = 0 := Nat.le_zero.mp hz
  cases w with
  | ready r => exact ⟨r, hw⟩
  | retire | unbind | find => exact absurd (Option.some.inj hl) (Nat.succ_ne_zero _)
  | handed | revoke | bar | unbar | clearBar | setMode | stopLink | answer | reset => cases hl

/-- COMMAND_COMPLETION makes the next operation of a sequence that has not its result. -/
theorem exec_completion_of_inSequence {s : State} {m : Nat} (h : InSequence m s) {w : CommandWork} (hw : s.work = some w)
    (hr : ∀ r, w ≠ .ready r) : exec .commandCompletion s = .next (ownStep w s) := by
  obtain ⟨hp, w', l, hw', hl, -⟩ := h
  obtain rfl : w' = w := Option.some.inj (hw'.symm.trans hw)
  cases w' with
  | ready r => exact absurd rfl (hr r)
  | retire | unbind | find => exact exec_completion_of_owed hp hw rfl (by simp only [workResult, hw])
  | handed | revoke | bar | unbar | clearBar | setMode | stopLink | answer | reset => cases hl

/-- So many operations of a sequence are as many rows of COMMAND_COMPLETION, or fewer. -/
theorem runOwn_eq_afterCompletions {s : State} (n : Nat) (h : InSequence n s) :
    ∃ k, runOwn n s = afterCompletions k s := by
  induction n generalizing s with
  | zero => exact ⟨0, rfl⟩
  | succ n ih =>
    obtain ⟨w, l, hw, -⟩ := h.2
    by_cases hr : ∃ r, w = .ready r
    · obtain ⟨r, rfl⟩ := hr
      exact ⟨0, runOwn_of_ready hw _⟩
    · obtain ⟨k, hk⟩ := ih (ownStep_inSequence h hw)
      refine ⟨k + 1, ?_⟩
      simp only [runOwn, hw, afterCompletions, exec_completion_of_inSequence h hw (not_exists.mp hr), hk]

/-- A pause after so many operations, and then rows of COMMAND_COMPLETION, come to where no pause does. -/
theorem runOwnPaused_none_eq {s : State} (h : InSequence ownBound s) (n : Nat) :
    ∃ k, runOwnPaused none s = afterCompletions k (runOwnPaused (some n) s) := by
  rcases Nat.le_total n ownBound with hn | hn
  · obtain ⟨m, hm⟩ := Nat.exists_eq_add_of_le hn
    obtain ⟨k, hk⟩ := runOwn_eq_afterCompletions m (runOwn_inSequence n m (hm ▸ h))
    exact ⟨k, (by rw [hm, runOwn_add] : runOwn ownBound s = runOwn m (runOwn n s)).trans hk⟩
  · obtain ⟨m, rfl⟩ := Nat.exists_eq_add_of_le hn
    obtain ⟨r, hr⟩ := ready_of_inSequence_zero (runOwn_inSequence ownBound 0 h)
    refine ⟨0, ?_⟩
    simp only [runOwnPaused, afterCompletions, runOwn_add, runOwn_of_ready hr]

/-- The same for a write of the command, in each state of the port. -/
theorem sequenceCommand_none_eq {code : BitVec 8} {op : State → State} (hop : ∀ s, s.portOn = true → InSequence ownBound (op s))
    (n : Nat) (s : State) :
    ∃ k, sequenceCommand code op none s = afterCompletions k (sequenceCommand code op (some n) s) := by
  unfold sequenceCommand commandWrite
  split
  next hp =>
    split
    · exact ⟨0, rfl⟩
    · exact runOwnPaused_none_eq (hop { s with portBusy := true, overrun := false, lastCommand := code } hp) n
  next => exact ⟨0, rfl⟩

theorem opRetireGrant_inSequence {s : State} (hp : s.portOn = true) : InSequence ownBound (opRetireGrant s) := by
  have hread := (checkHandle_calm (handleArg s.window.arg0) (Calm.refl s)).portOn.trans hp
  simp only [opRetireGrant]
  split
  · exact inSequence_finish hread _ _
  · exact ⟨hread, _, _, rfl, rfl, by decide⟩

theorem opFindGrants_inSequence {s : State} (hp : s.portOn = true) : InSequence ownBound (opFindGrants s) := by
  simp only [opFindGrants]
  split
  · exact inSequence_finish hp _ _
  · refine ⟨hp, _, _, rfl, rfl, ?_⟩
    simp only [ownBound]
    omega

theorem opUnbindStation_inSequence {s : State} (hp : s.portOn = true) : InSequence ownBound (opUnbindStation s) := by
  have hread : (readStationBody (stationArg s.window) s).2.portOn = true := by
    simpa [State.portOn] using hp
  have hheld : InSequence ownBound (holdStation (stationArg s.window) (readStationBody (stationArg s.window) s).2) :=
    ⟨hread, _, _, rfl, rfl, by decide⟩
  simp only [opUnbindStation]
  split
  · split
    · exact hheld
    · split
      · exact inSequence_finish hread _ _
      · exact hheld
  · exact inSequence_finish hp _ _

/-- The first operation of an unknown code is its completion. -/
theorem commandOwner_of_unknown {code : BitVec 8} (h : hostCodes.contains code = false) :
    commandOwner code = completePort (.bare .badCommand) := by
  have hn : ∀ n, code.toNat = n → hostCodes.contains (BitVec.ofNat 8 n) = false := by
    rintro _ rfl
    simpa using h
  unfold commandOwner
  split
  case h_46 => rfl
  all_goals rename_i heq; exact absurd (hn _ heq) (by decide)

/-! ### The obligation -/

theorem completions_of_result (s : State) (hp : s.portOn = true) :
    (s.work = none → exec .commandCompletion s = .next s) ∧
    (∀ r, s.work = some (.ready r) → exec .commandCompletion s = .next (completedWith r s)) ∧
    (∀ n, s.work = some (.answer n) → exec .commandCompletion s = .next s) ∧
    (∀ w words, s.work = some w → countsOf w = some words →
      ((∃ o ∈ s.notices, o.ofCommand = true) ∨ (w = .stopLink ∧ s.reservations ≠ 0) →
        exec .commandCompletion s = .next s) ∧
      ((∀ o ∈ s.notices, o.ofCommand = false) → (w = .stopLink → s.reservations = 0) →
        exec .commandCompletion s = .next (completedWith { code := .ok, words := words } s))) := by
  refine ⟨fun hw => congrArg Host.Outcome.next (completeCommand_of_none hw), fun r hw => ?_, fun n hw => ?_,
    fun w words hw hc => ?_⟩
  · exact exec_completion_of_result hp hw rfl (by simp only [workResult, hw])
  · exact exec_completion_of_owed hp hw rfl (by simp only [workResult, hw])
  · obtain ⟨hfix, hcode⟩ := ownStep_of_counts hc s
    refine ⟨fun hwait => ?_, fun hno hstop => ?_⟩
    · exact (exec_completion_of_owed hp hw hcode (workResult_of_waiting hw hc hwait)).trans
        (congrArg Host.Outcome.next hfix)
    · exact exec_completion_of_result hp hw hcode (workResult_of_taken hw hc hno hstop)

theorem completions_of_retire {s : State} {h : Handle} {asked : Nat} (hp : s.portOn = true) (hu : s.undamaged = true)
    (hw : s.work = some (.retire h asked)) (hq : asked ≤ 3) :
    ((s.slot h.slot).header.value.state = .free →
      exec .commandCompletion s = .next { s with retireHold := none, work := some (.ready (.bare .ok)) }) ∧
    ((s.slot h.slot).header.value.state ≠ .free → holdsAt h asked s →
      exec .commandCompletion s = .next { s with retireHold := none, work := some (.ready (.bare .inUse)) }) ∧
    ((s.slot h.slot).header.value.state ≠ .free → ¬ holdsAt h asked s → asked < 3 →
      exec .commandCompletion s = .next { s with work := some (.retire h (asked + 1)) }) ∧
    ((s.slot h.slot).header.value.state ≠ .free → ¬ holdsAt h asked s → asked = 3 →
      exec .commandCompletion s = .next { s with
        retireHold := none, work := some (.ready (.bare .ok)),
        grants := Table.set Slot.cleared s.grants h.slot
          ⟨.of ⟨.free, (s.slot h.slot).header.value.issue⟩, .of .empty⟩ }) := by
  have hstep : exec .commandCompletion s = .next (retireStep h asked s) :=
    exec_completion_of_owed hp hw rfl (by simp only [workResult, hw])
  refine ⟨fun hf => ?_, fun hf hh => ?_, fun hf hh hlt => ?_, fun hf hh hlast => ?_⟩
  · exact hstep.trans (congrArg Host.Outcome.next (retireStep_of_free hu hf))
  · exact hstep.trans (congrArg Host.Outcome.next (retireStep_of_holder hu hf hq hh))
  · exact hstep.trans (congrArg Host.Outcome.next (retireStep_of_next hu hf hlt hh))
  · subst hlast
    exact hstep.trans (congrArg Host.Outcome.next (retireStep_of_last hu hf hh))

theorem freshStation_eq (x : Station) : freshStation x =
    if x.state = .faulted then { x with header := .of false, body := .of ⟨none, 0⟩, state := .silent, missed := 0 }
    else { x with header := .of false, body := .of ⟨none, 0⟩ } := rfl

theorem completions_of_unbind {s : State} {k asked : Nat} (hp : s.portOn = true)
    (hw : s.work = some (.unbind k asked)) (hq : asked ≤ 4) :
    (s.worksAt k asked →
      exec .commandCompletion s = .next { s with unbindHold := none, work := some (.ready (.bare .inUse)) }) ∧
    (¬ s.worksAt k asked → asked < 4 →
      exec .commandCompletion s = .next { s with work := some (.unbind k (asked + 1)) }) ∧
    (¬ s.worksAt k asked → asked = 4 →
      exec .commandCompletion s = .next { s with
        unbindHold := none, work := some (.ready (.bare .ok)),
        stations := Table.set Station.cleared s.stations k
          (if (s.station k).state = .faulted then
            { s.station k with header := .of false, body := .of ⟨none, 0⟩, state := .silent, missed := 0 }
          else { s.station k with header := .of false, body := .of ⟨none, 0⟩ }) }) := by
  have hstep : exec .commandCompletion s = .next (unbindStep k asked s) :=
    exec_completion_of_owed hp hw rfl (by simp only [workResult, hw])
  refine ⟨fun hh => ?_, fun hh hlt => ?_, fun hh hlast => ?_⟩
  · exact hstep.trans (congrArg Host.Outcome.next (unbindStep_of_work hq hh))
  · exact hstep.trans (congrArg Host.Outcome.next (unbindStep_of_next hlt hh))
  · subst hlast
    exact hstep.trans (congrArg Host.Outcome.next (unbindStep_of_last hh))

/-- Settles O6: a completion by the work that stands, the questions of RETIRE GRANT and UNBIND STATION one by one, the
rows that pause, and the unknown code. -/
theorem completionsWriteTheResult : Obligations.CompletionsWriteTheResult := by
  unfold Obligations.CompletionsWriteTheResult
  refine ⟨completions_of_result, fun s hp hu _ => ⟨fun h asked hw hq => completions_of_retire hp hu hw hq,
    fun k asked hw hq => completions_of_unbind hp hw hq⟩, fun s n row hrow => ?_, fun word s hcode hp hb => ?_⟩
  · rcases hrow with rfl | rfl | rfl
    · obtain ⟨k, hk⟩ := sequenceCommand_none_eq (code := 0x15) (fun _ => opRetireGrant_inSequence) n s
      exact ⟨_, k, rfl, congrArg Host.Outcome.next hk⟩
    · obtain ⟨k, hk⟩ := sequenceCommand_none_eq (code := 0x17) (fun _ => opFindGrants_inSequence) n s
      exact ⟨_, k, rfl, congrArg Host.Outcome.next hk⟩
    · obtain ⟨k, hk⟩ := sequenceCommand_none_eq (code := 0x65) (fun _ => opUnbindStation_inSequence) n s
      exact ⟨_, k, rfl, congrArg Host.Outcome.next hk⟩
  · have hdone : commandWrite (word.truncate 8) (commandOwner (word.truncate 8)) s =
        completedWith (.bare .badCommand) (accepted (word.truncate 8) s) := by
      simp only [commandWrite, hp, hb, if_true, Bool.false_eq_true, if_false, commandOwner_of_unknown hcode]
      exact completePort_of_on (s := accepted (word.truncate 8) s) hp _
    exact congrArg Host.Outcome.next hdone

end Sys2Proof.Machine

namespace Sys2Proof.Machine
open Sys2Proof

/-! ## The places of the Verdict Queue (R82), and what the seat counts on

`State.placesOk` bounds the entries, the reservations and the held places together, and says what the decision in hand
finds where it has left it. An operation that closes contexts or approvals frees as many reservations as it places
verdicts: it never takes more places than it found taken. -/

/-- What the contexts and the referral entries satisfy, whatever the decision in hand. -/
structure Sound (s : State) : Prop where
  canonical : Table.wf none s.pairs = true
  slots : ∀ slot c, s.pair slot = some c → 1 ≤ slot ∧ slot ≤ 8
  references : (s.referrals.map (·.reference)).Nodup

/-- The places taken by entries and reservations. -/
def State.taken (s : State) : Nat := s.verdicts.length + s.reservations

/-- The approval of a reference is ANSWERING. -/
def State.answers (s : State) (n : Nat) : Prop := ∃ e ∈ s.referrals, e.reference = n ∧ e.isAnswering = true

/-- From `s` to `t` at least `k` places have become free, and contexts have at most left. -/
structure Eased (k : Nat) (s t : State) : Prop where
  sound : Sound t
  taken : t.taken + k ≤ s.taken
  contexts : ∀ slot c', t.pair slot = some c' → ∃ c, s.pair slot = some c ∧ c'.credential = c.credential

/-- From `s` to `t` no place more is taken, contexts have at most left, and the seat and the approvals that are ANSWERING
stay. -/
structure Settled (s t : State) : Prop extends Eased 0 s t where
  seat : t.seat = s.seat
  answers : ∀ n, s.answers n → t.answers n

theorem Sound.of_eq {s t : State} (h : Sound s) (hp : t.pairs = s.pairs) (hr : t.referrals = s.referrals) : Sound t where
  canonical := by rw [hp]; exact h.canonical
  slots := by unfold State.pair; rw [hp]; exact h.slots
  references := by rw [hr]; exact h.references

theorem reservations_of_eq {s t : State} (hp : t.pairs = s.pairs) (hr : t.referrals = s.referrals) :
    t.reservations = s.reservations := by
  simp only [State.reservations, State.openPairs, State.pair, hp, hr]

theorem Eased.refl {s : State} (h : Sound s) : Eased 0 s s := ⟨h, le_rfl, fun _ c hc => ⟨c, hc, rfl⟩⟩

theorem Eased.trans {j k : Nat} {s t u : State} (h : Eased j s t) (h' : Eased k t u) : Eased (j + k) s u where
  sound := h'.sound
  taken := by have := h.taken; have := h'.taken; omega
  contexts := fun slot c hc => by
    obtain ⟨c', hc', he⟩ := h'.contexts slot c hc
    obtain ⟨c'', hc'', he'⟩ := h.contexts slot c' hc'
    exact ⟨c'', hc'', he.trans he'⟩

theorem Settled.refl {s : State} (h : Sound s) : Settled s s := ⟨.refl h, rfl, fun _ hn => hn⟩

theorem Settled.trans {s t u : State} (h : Settled s t) (h' : Settled t u) : Settled s u :=
  ⟨h.toEased.trans h'.toEased, h'.seat.trans h.seat, fun n hn => h'.answers n (h.answers n hn)⟩

/-- An operation that leaves the contexts and the entries and adds no verdict. -/
theorem settled_of_eq {s t : State} (h : Sound s) (hseat : t.seat = s.seat) (hp : t.pairs = s.pairs)
    (hr : t.referrals = s.referrals) (hv : t.verdicts.length ≤ s.verdicts.length) : Settled s t where
  sound := h.of_eq hp hr
  taken := by simp only [State.taken, reservations_of_eq hp hr]; omega
  contexts := fun slot c hc => ⟨c, by simpa only [State.pair, hp] using hc, rfl⟩
  seat := hseat
  answers := fun n hn => by simpa only [State.answers, hr] using hn

theorem Still.settled {s t : State} (hst : Still s t) (h : Sound s) : Settled s t := by
  obtain ⟨-, -, hseat, hv, hp, hr⟩ := hst
  exact settled_of_eq h hseat hp hr (by rw [hv])

/-- A free place is taken by at most one verdict. -/
theorem Eased.settled_of_adds {s t u : State} (h : Eased 1 s t) (hseat : t.seat = s.seat)
    (hans : ∀ n, s.answers n → t.answers n) (hu : u.seat = t.seat) (hp : u.pairs = t.pairs) (hr : u.referrals = t.referrals)
    (hv : u.verdicts.length ≤ t.verdicts.length + 1) : Settled s u where
  sound := h.sound.of_eq hp hr
  taken := by have := h.taken; simp only [State.taken, reservations_of_eq hp hr] at *; omega
  contexts := fun slot c hc => h.contexts slot c (by simpa only [State.pair, hp] using hc)
  seat := hu.trans hseat
  answers := fun n hn => by simpa only [State.answers, hr] using hans n hn

theorem Eased.weaken {k : Nat} {s t : State} (h : Eased k s t) : Eased 0 s t :=
  ⟨h.sound, by have := h.taken; omega, h.contexts⟩

/-- Operations made one after another. -/
theorem settled_foldl {β : Type} {f : State → β → State} (hf : ∀ s x, Sound s → Settled s (f s x)) (l : List β) {s : State}
    (h : Sound s) : Settled s (l.foldl f s) := by
  induction l generalizing s with
  | nil => exact .refl h
  | cons x l ih => exact (hf s x h).trans (ih (hf s x h).sound)

/-! ### The contexts -/

theorem Sound.pair_set {s : State} (h : Sound s) (k j : Nat) (v : Option PairContext) :
    (s.setPair k v).pair j = if j = k then v else s.pair j := pair_setPair h.canonical k j v

/-- Of a predicate that fails at one element more, one element less satisfies it. -/
theorem countP_except {α : Type} [DecidableEq α] {p q : α → Bool} {l : List α} {a : α} (hl : l.Nodup) (ha : a ∈ l)
    (hpa : p a = true) (hqa : q a = false) (hpq : ∀ j ∈ l, j ≠ a → q j = p j) : l.countP q + 1 = l.countP p := by
  have hperm := List.perm_cons_erase ha
  have hrest : (l.erase a).countP q = (l.erase a).countP p :=
    List.countP_congr fun j hj => by
      have hne := (hl.mem_erase_iff.mp hj).1
      rw [hpq j (List.mem_of_mem_erase hj) hne]
  rw [hperm.countP_eq q, hperm.countP_eq p, List.countP_cons_of_pos hpa, List.countP_cons_of_neg (by simp [hqa]), hrest]

theorem numbersFrom_nodup (low count : Nat) : (numbersFrom low count).Nodup :=
  List.nodup_range.map fun _ _ h => Nat.add_left_cancel h

theorem openPairs_length (s : State) :
    s.openPairs.length = (numbersFrom 1 Config.pairSlots).countP (fun k => (s.pair k).isSome) :=
  (List.countP_eq_length_filter ..).symm

/-- A slot among the eight is emptied: one context less. -/
theorem openPairs_of_left {s t : State} {slot : Nat} (hslot : 1 ≤ slot ∧ slot ≤ 8) (hs : (s.pair slot).isSome = true)
    (ht : t.pair slot = none) (hother : ∀ j, j ≠ slot → t.pair j = s.pair j) :
    t.openPairs.length + 1 = s.openPairs.length := by
  rw [openPairs_length, openPairs_length]
  exact countP_except (numbersFrom_nodup 1 _) (mem_numbersFrom.mpr (by simp only [Config.pairSlots]; omega)) hs
    (by simp [ht]) fun j _ hj => by rw [hother j hj]

theorem Sound.setPair {s : State} (h : Sound s) {slot : Nat} {v : Option PairContext}
    (hv : v.isSome = true → 1 ≤ slot ∧ slot ≤ 8) : Sound (s.setPair slot v) where
  canonical := Table.wf_set _ h.canonical _ _
  slots := fun j c hj => by
    rw [h.pair_set] at hj
    split at hj
    · subst hj
      next hjk => exact hjk ▸ hv rfl
    · exact h.slots j c hj
  references := h.references

/-- A context leaves its slot. -/
theorem setPair_none_eased {s : State} (h : Sound s) {slot : Nat} {c : PairContext} (hc : s.pair slot = some c) :
    Eased 1 s (s.setPair slot none) where
  sound := h.setPair (fun hv => nomatch hv)
  taken := by
    have hleft := openPairs_of_left (s := s) (t := s.setPair slot none) (h.slots slot c hc) (by simp [hc])
      (by simp [h.pair_set]) (fun j hj => by simp [h.pair_set, hj])
    simp only [State.taken, State.reservations, setPair_frame]
    omega
  contexts := fun j c' hj => by
    rw [h.pair_set] at hj
    split at hj
    · cases hj
    · exact ⟨c', hj, rfl⟩

/-- A context is written anew, for the same card. -/
theorem setPair_some_settled {s : State} (h : Sound s) {slot : Nat} {c c' : PairContext} (hc : s.pair slot = some c)
    (hcred : c'.credential = c.credential) : Settled s (s.setPair slot (some c')) where
  sound := h.setPair (fun _ => h.slots slot c hc)
  taken := by
    have hsame : (s.setPair slot (some c')).openPairs = s.openPairs := by
      simp only [State.openPairs, h.pair_set]
      refine List.filter_congr fun j _ => ?_
      split
      · next hj => simp [hj, hc]
      · rfl
    simp only [State.taken, State.reservations, hsame, setPair_frame]
    omega
  contexts := fun j c'' hj => by
    rw [h.pair_set] at hj
    split at hj
    · next hjk => exact ⟨c, hjk ▸ hc, by rw [← hcred, Option.some.inj hj]⟩
    · exact ⟨c'', hj, rfl⟩
  seat := rfl
  answers := fun _ hn => hn

/-- What a reservation that ends does beside the verdict it may place. -/
theorem denyReservation_adds (b : Block) (k : Nat) (q : Sequence) (r : DenyReason) (s : State) :
    (denyReservation b k q r s).seat = s.seat ∧ (denyReservation b k q r s).pairs = s.pairs ∧
      (denyReservation b k q r s).referrals = s.referrals ∧
      (denyReservation b k q r s).verdicts.length ≤ s.verdicts.length + 1 := by
  unfold denyReservation
  split
  · simp
  · simp [convertDeny, appendEntry]

theorem closeReservation_adds (b : Block) (k : Nat) (q : Sequence) (cause : ClosureCause) (s : State) :
    (closeReservation b k q cause s).seat = s.seat ∧ (closeReservation b k q cause s).pairs = s.pairs ∧
      (closeReservation b k q cause s).referrals = s.referrals ∧
      (closeReservation b k q cause s).verdicts.length ≤ s.verdicts.length + 1 := by
  unfold closeReservation
  split
  · exact denyReservation_adds b k q _ s
  · simp

section
variable {s : State} {slot : Nat} {c : PairContext} (h : Sound s) (hc : s.pair slot = some c)
include h hc

theorem deniedPair_settled (b : Block) (r : DenyReason) :
    Settled s (denyReservation b c.station c.sequence r (s.setPair slot none)) := by
  obtain ⟨hseat, hp, hr, hv⟩ := denyReservation_adds b c.station c.sequence r (s.setPair slot none)
  exact (setPair_none_eased h hc).settled_of_adds rfl (fun _ hn => hn) hseat hp hr hv

theorem closePair_settled (cause : ClosureCause) : Settled s (closePair slot c cause s) := by
  obtain ⟨hseat, hp, hr, hv⟩ := closeReservation_adds .pairTable c.station c.sequence cause (s.setPair slot none)
  exact (setPair_none_eased h hc).settled_of_adds rfl (fun _ hn => hn) hseat hp hr hv

theorem expirePair_settled : Settled s (expirePair slot c s) := deniedPair_settled h hc .pairTable .pairTimeout

end

theorem closeSlot_settled {s : State} (h : Sound s) (which : PairContext → Bool) (cause : ClosureCause) (slot : Nat) :
    Settled s (closeSlot which cause slot s).2 := by
  unfold closeSlot
  split
  · exact .refl h
  next c hc =>
    split
    · split
      · exact setPair_some_settled h hc rfl
      · exact closePair_settled h hc cause
    · exact .refl h

theorem closeSlots_settled {s : State} (h : Sound s) (which : PairContext → Bool) (cause : ClosureCause) (slots : List Nat) :
    Settled s (closeSlots which cause slots s).2 := by
  induction slots generalizing s with
  | nil => exact .refl h
  | cons slot slots ih => exact (closeSlot_settled h which cause slot).trans (ih (closeSlot_settled h which cause slot).sound)

theorem closePairs_settled {s : State} (h : Sound s) (which : PairContext → Bool) (cause : ClosureCause) :
    Settled s (closePairs which cause s).2 := closeSlots_settled h which cause _

theorem returnToOpen_settled {s : State} (h : Sound s) (slot : Nat) : Settled s (returnToOpen slot s) := by
  unfold returnToOpen
  split
  · exact .refl h
  next c hc =>
    split
    · exact closePair_settled h hc _
    · split
      · exact expirePair_settled h hc
      · exact setPair_some_settled h hc rfl

theorem abandonContext_settled {s : State} (h : Sound s) (slot : Nat) : Settled s (abandonContext slot s) := by
  unfold abandonContext
  split
  · exact .refl h
  next c hc =>
    split
    · exact closePair_settled h hc _
    · split
      · exact setPair_some_settled h hc rfl
      · exact (setPair_none_eased h hc).settled_of_adds rfl (fun _ hn => hn) (by simp) (by simp) (by simp) (by simp)

theorem tickSlot_settled (s : State) (slot : Nat) (h : Sound s) : Settled s (tickSlot s slot) := by
  unfold tickSlot
  split
  · exact .refl h
  next c hc =>
    split
    · exact expirePair_settled h hc
    · exact setPair_some_settled h hc rfl

theorem tickPairs_settled {s : State} (h : Sound s) : Settled s (tickPairs s) := settled_foldl tickSlot_settled _ h

theorem settlePair_settled {s : State} (h : Sound s) (slot : Nat) : Settled s (settlePair slot s) := by
  unfold settlePair
  split
  · exact .refl h
  next c hc =>
    split
    · exact closePair_settled h hc _
    · have hread := (readWindowSeconds_still s).settled h
      refine hread.trans (setPair_some_settled hread.sound (c := c) ?_ rfl)
      simpa [State.pair] using hc

end Sys2Proof.Machine

namespace Sys2Proof.Machine
open Sys2Proof

/-! ### The referral entries -/

theorem approvals_eq_countP (l : List ReferralEntry) :
    (l.filter ReferralEntry.isApproval).length = l.countP ReferralEntry.isApproval := List.countP_eq_length_filter.symm

/-- The entry of a reference is the only one. -/
theorem Sound.entry_unique {s : State} (h : Sound s) {e e' : ReferralEntry} (he : e ∈ s.referrals) (he' : e' ∈ s.referrals)
    (hr : e'.reference = e.reference) : e' = e := List.inj_on_of_nodup_map h.references he' he hr

theorem Sound.dropReferral {s : State} (h : Sound s) (n : Nat) : Sound (dropReferral n s) where
  canonical := h.canonical
  slots := h.slots
  references := h.references.sublist (List.filter_sublist.map _)

theorem dropReferral_taken_le (s : State) (n : Nat) : (dropReferral n s).taken ≤ s.taken := by
  have := (List.filter_sublist (l := s.referrals) (p := fun e => decide (e.reference ≠ n))).countP_le
    (p := ReferralEntry.isApproval)
  simp only [State.taken, State.reservations, approvals_eq_countP]
  exact Nat.add_le_add_left (Nat.add_le_add_left this _) _

/-- An entry leaves the queue, whatever it is. -/
theorem dropReferral_eased {s : State} (h : Sound s) (n : Nat) : Eased 0 s (dropReferral n s) :=
  ⟨h.dropReferral n, dropReferral_taken_le s n, fun _ c hc => ⟨c, hc, rfl⟩⟩

/-- An approval leaves the queue, and with it a reservation. -/
theorem dropApproval_eased {s : State} (h : Sound s) {e : ReferralEntry} (he : e ∈ s.referrals)
    (happ : e.isApproval = true) : Eased 1 s (dropReferral e.reference s) where
  sound := h.dropReferral _
  taken := by
    have hsplit := List.countP_eq_countP_filter_add s.referrals ReferralEntry.isApproval
      (fun x => decide (x.reference ≠ e.reference))
    have hmem : e ∈ s.referrals.filter (fun x => !decide (x.reference ≠ e.reference)) := by simp [he]
    have hpos : 0 < (s.referrals.filter (fun x => !decide (x.reference ≠ e.reference))).countP ReferralEntry.isApproval :=
      List.countP_pos_iff.mpr ⟨e, hmem, happ⟩
    have hdrop : (dropReferral e.reference s).referrals = s.referrals.filter (fun x => decide (x.reference ≠ e.reference)) := rfl
    have hpairs : (dropReferral e.reference s).openPairs = s.openPairs := rfl
    have hverdicts : (dropReferral e.reference s).verdicts = s.verdicts := rfl
    simp only [State.taken, State.reservations, approvals_eq_countP, hdrop, hpairs, hverdicts]
    omega
  contexts := fun _ c hc => ⟨c, hc, rfl⟩

theorem mem_dropReferral {s : State} {n : Nat} {e : ReferralEntry} :
    e ∈ (dropReferral n s).referrals ↔ e ∈ s.referrals ∧ e.reference ≠ n := by
  simp [dropReferral]

/-- What is ANSWERING stays, where the entry that leaves is not. -/
theorem answers_dropReferral {s : State} (h : Sound s) {e : ReferralEntry} (he : e ∈ s.referrals)
    (hna : e.isAnswering = false) (n : Nat) (hn : s.answers n) : (dropReferral e.reference s).answers n := by
  obtain ⟨e', he', hr, ha⟩ := hn
  refine ⟨e', mem_dropReferral.mpr ⟨he', fun hre => ?_⟩, hr, ha⟩
  rw [h.entry_unique he he' hre, hna] at ha
  cases ha

theorem dropReferral_settled {s : State} (h : Sound s) {e : ReferralEntry} (he : e ∈ s.referrals)
    (hna : e.isAnswering = false) : Settled s (dropReferral e.reference s) :=
  ⟨dropReferral_eased h _, rfl, answers_dropReferral h he hna⟩

theorem mem_writeReferral {s : State} {e new : ReferralEntry} (he : e ∈ s.referrals) (hr : new.reference = e.reference)
    {x : ReferralEntry} :
    x ∈ (writeReferral new s).referrals ↔ x = new ∨ (x ∈ s.referrals ∧ x.reference ≠ e.reference) := by
  simp only [writeReferral, List.mem_map]
  constructor
  · rintro ⟨y, hy, rfl⟩
    split
    · exact Or.inl rfl
    next hne => exact Or.inr ⟨hy, hr ▸ hne⟩
  · rintro (rfl | ⟨hx, hne⟩)
    · exact ⟨e, he, by simp [hr]⟩
    · exact ⟨x, hx, by simp [hr, hne]⟩

section
variable {s : State} (h : Sound s) {e new : ReferralEntry} (he : e ∈ s.referrals) (hr : new.reference = e.reference)
include h he hr

/-- An entry is written in its place, of the same kind as before. -/
theorem writeReferral_eased (happ : new.isApproval = e.isApproval) : Eased 0 s (writeReferral new s) where
  sound := {
    canonical := h.canonical
    slots := h.slots
    references := by
      have : (writeReferral new s).referrals.map (·.reference) = s.referrals.map (·.reference) := by
        simp only [writeReferral, List.map_map]
        refine List.map_congr_left fun x _ => ?_
        simp only [Function.comp_apply]
        split
        · next hx => exact hx.symm
        · rfl
      rw [this]
      exact h.references }
  taken := by
    have hcount : (writeReferral new s).referrals.countP ReferralEntry.isApproval =
        s.referrals.countP ReferralEntry.isApproval := by
      simp only [writeReferral, List.countP_map]
      refine List.countP_congr fun x hx => ?_
      simp only [Function.comp_apply]
      split
      · next hxr => rw [happ, h.entry_unique he hx (hxr.trans hr)]
      · exact Iff.rfl
    have hpairs : (writeReferral new s).openPairs = s.openPairs := rfl
    have hverdicts : (writeReferral new s).verdicts = s.verdicts := rfl
    simp only [State.taken, State.reservations, approvals_eq_countP, hcount, hpairs, hverdicts]
    omega
  contexts := fun _ c hc => ⟨c, hc, rfl⟩

theorem writeReferral_settled (happ : new.isApproval = e.isApproval) (hans : e.isAnswering = true → new.isAnswering = true) :
    Settled s (writeReferral new s) where
  toEased := writeReferral_eased h he hr happ
  seat := rfl
  answers := by
    rintro n ⟨x, hx, hxn, hxa⟩
    by_cases hre : x.reference = e.reference
    · refine ⟨new, (mem_writeReferral he hr).mpr (Or.inl rfl), hr.trans (hre.symm.trans hxn), hans ?_⟩
      rwa [h.entry_unique he hx hre] at hxa
    · exact ⟨x, (mem_writeReferral he hr).mpr (Or.inr ⟨hx, hre⟩), hxn, hxa⟩

end

/-! ### What the approval part of an entry says -/

theorem isApproval_of_approval {e : ReferralEntry} {a : ApprovalView} (h : e.approval? = some a) : e.isApproval = true :=
  (isApproval_iff e).mpr ⟨_, _, _, _, approval?_eq_some.mp h⟩

theorem isAnswering_of_approval {e : ReferralEntry} {a : ApprovalView} (h : e.approval? = some a) :
    e.isAnswering = decide (a.state = .answering) := by
  rw [ReferralEntry.isAnswering, approval?_eq_some.mp h]
  cases a.state <;> rfl

theorem isApproval_of_isAnswering {e : ReferralEntry} (h : e.isAnswering = true) : e.isApproval = true := by
  unfold ReferralEntry.isAnswering at h
  unfold ReferralEntry.isApproval
  split at h <;> simp_all

theorem isAnswering_of_isWaiting {e : ReferralEntry} (h : e.isWaiting = true) : e.isAnswering = false := by
  unfold ReferralEntry.isWaiting at h
  unfold ReferralEntry.isAnswering
  split at h <;> simp_all

theorem isAnswering_of_hotCard {e : ReferralEntry} (h : e.isApproval = false) : e.isAnswering = false := by
  by_contra hc
  rw [isApproval_of_isAnswering (by simpa using hc)] at h
  cases h

@[simp] theorem approval?_withApproval (e : ReferralEntry) (a : ApprovalView) : (e.withApproval a).approval? = some a := rfl

theorem reference_withApproval (e : ReferralEntry) (a : ApprovalView) : (e.withApproval a).reference = e.reference := rfl

theorem not_answering_of_closable {st : ApprovalState} (h : st.closable = true) : st ≠ .answering := by
  rintro rfl
  cases h

/-! ### Closures, timeouts and ticks of approvals -/

/-- An approval that is not ANSWERING leaves, with a DENY or freed. -/
theorem deniedApproval_settled {s : State} (h : Sound s) {e : ReferralEntry} (he : e ∈ s.referrals)
    (happ : e.isApproval = true) (hna : e.isAnswering = false) (b : Block) (r : DenyReason) :
    Settled s (denyReservation b e.station e.sequence r (dropReferral e.reference s)) := by
  obtain ⟨hseat, hp, hr, hv⟩ := denyReservation_adds b e.station e.sequence r (dropReferral e.reference s)
  exact (dropApproval_eased h he happ).settled_of_adds rfl (answers_dropReferral h he hna) hseat hp hr hv

theorem closedApproval_settled {s : State} (h : Sound s) {e : ReferralEntry} (he : e ∈ s.referrals)
    (happ : e.isApproval = true) (hna : e.isAnswering = false) (b : Block) (cause : ClosureCause) :
    Settled s (closeReservation b e.station e.sequence cause (dropReferral e.reference s)) := by
  obtain ⟨hseat, hp, hr, hv⟩ := closeReservation_adds b e.station e.sequence cause (dropReferral e.reference s)
  exact (dropApproval_eased h he happ).settled_of_adds rfl (answers_dropReferral h he hna) hseat hp hr hv

theorem timeoutApproval_settled {s : State} (h : Sound s) {e : ReferralEntry} (he : e ∈ s.referrals) {a : ApprovalView}
    (ha : e.approval? = some a) (hc : a.state.closable = true) : Settled s (timeoutApproval e s) :=
  deniedApproval_settled h he (isApproval_of_approval ha)
    (by simp [isAnswering_of_approval ha, not_answering_of_closable hc]) _ _

/-- One entry after another of a queue is dealt with: each operation settles, and touches no entry but its own. -/
theorem settled_entries {f : State → ReferralEntry → State}
    (hf : ∀ s e, Sound s → e ∈ s.referrals → Settled s (f s e))
    (hother : ∀ s e, e ∈ s.referrals → ∀ x ∈ s.referrals, x.reference ≠ e.reference → x ∈ (f s e).referrals)
    (es : List ReferralEntry) {s : State} (h : Sound s) (hes : ∀ e ∈ es, e ∈ s.referrals)
    (hnd : (es.map (·.reference)).Nodup) : Settled s (es.foldl f s) := by
  induction es generalizing s with
  | nil => exact .refl h
  | cons e es ih =>
    rw [List.map_cons, List.nodup_cons] at hnd
    have he := hes e List.mem_cons_self
    refine (hf s e h he).trans (ih (hf s e h he).sound (fun x hx => ?_) hnd.2)
    refine hother s e he x (hes x (List.mem_cons_of_mem _ hx)) fun hre => hnd.1 ?_
    exact hre ▸ List.mem_map_of_mem hx

theorem closeEntry_settled (which : ReferralEntry → ApprovalView → Bool) (cause : ClosureCause) {s : State}
    {e : ReferralEntry} (h : Sound s) (he : e ∈ s.referrals) : Settled s (closeEntry which cause e s).2 := by
  unfold closeEntry
  split
  · exact .refl h
  next a ha =>
    have ha := reachedApproval_some ha
    split
    next hc =>
      exact closedApproval_settled h he (isApproval_of_approval ha)
        (by simp [isAnswering_of_approval ha, not_answering_of_closable hc]) _ _
    next =>
      refine writeReferral_settled h he rfl (isApproval_of_approval ha).symm fun hans => ?_
      rw [isAnswering_of_approval ha] at hans
      rwa [isAnswering_of_approval (approval?_withApproval _ _)]

theorem closeEntry_other (which : ReferralEntry → ApprovalView → Bool) (cause : ClosureCause) {s : State}
    {e : ReferralEntry} (he : e ∈ s.referrals) {x : ReferralEntry} (hx : x ∈ s.referrals)
    (hne : x.reference ≠ e.reference) : x ∈ (closeEntry which cause e s).2.referrals := by
  unfold closeEntry
  split
  · exact hx
  · split
    · rw [(closeReservation_adds ..).2.2.1]
      exact mem_dropReferral.mpr ⟨hx, hne⟩
    · exact (mem_writeReferral he (reference_withApproval e _)).mpr (Or.inr ⟨hx, hne⟩)

theorem closeEntries_eq_foldl (which : ReferralEntry → ApprovalView → Bool) (cause : ClosureCause)
    (es : List ReferralEntry) (s : State) :
    (closeEntries which cause es s).2 = es.foldl (fun s e => (closeEntry which cause e s).2) s := by
  induction es generalizing s with
  | nil => rfl
  | cons e es ih => exact ih _

theorem closeApprovals_settled {s : State} (h : Sound s) (which : ReferralEntry → ApprovalView → Bool)
    (cause : ClosureCause) : Settled s (closeApprovals which cause s).2 := by
  rw [closeApprovals, closeEntries_eq_foldl]
  exact settled_entries (fun _ _ => closeEntry_settled which cause)
    (fun _ _ he _ hx hne => closeEntry_other which cause he hx hne) _ h (fun _ he => he) h.references

theorem tickEntry_settled {s : State} {e : ReferralEntry} (h : Sound s) (he : e ∈ s.referrals) :
    Settled s (tickEntry s e) := by
  unfold tickEntry
  split
  · exact .refl h
  next a ha =>
    split
    next hc =>
      split
      · exact timeoutApproval_settled h he ha hc
      · refine writeReferral_settled h he rfl (isApproval_of_approval ha).symm fun hans => ?_
        rw [isAnswering_of_approval ha] at hans
        rwa [isAnswering_of_approval (approval?_withApproval _ _)]
    next => exact .refl h

theorem tickEntry_other {s : State} {e : ReferralEntry} (he : e ∈ s.referrals) {x : ReferralEntry}
    (hx : x ∈ s.referrals) (hne : x.reference ≠ e.reference) : x ∈ (tickEntry s e).referrals := by
  unfold tickEntry
  split
  · exact hx
  · split
    · split
      · rw [timeoutApproval, (denyReservation_adds ..).2.2.1]
        exact mem_dropReferral.mpr ⟨hx, hne⟩
      · exact (mem_writeReferral he (reference_withApproval e _)).mpr (Or.inr ⟨hx, hne⟩)
    · exact hx

theorem tickReferrals_settled {s : State} (h : Sound s) : Settled s (tickReferrals s) :=
  settled_entries (fun _ _ => tickEntry_settled) (fun _ _ he _ hx hne => tickEntry_other he hx hne) _ h
    (fun _ he => he) h.references

theorem mem_of_referral {s : State} {n : Nat} {e : ReferralEntry} (h : s.referral n = some e) :
    e ∈ s.referrals ∧ e.reference = n :=
  ⟨List.mem_of_find?_eq_some h, by simpa using List.find?_some h⟩

/-- The end of an opening: the approval waits, or its closure is carried out. -/
theorem settleApproval_eased {s : State} (h : Sound s) (n : Nat) : Eased 0 s (settleApproval n s) := by
  unfold settleApproval
  split
  · exact .refl h
  next e he =>
    obtain ⟨hmem, rfl⟩ := mem_of_referral he
    split
    · exact .refl h
    next a ha =>
      split
      next cause _ =>
        obtain ⟨-, hp, hr, hv⟩ := closeReservation_adds .referralQueue e.station e.sequence cause (dropReferral e.reference s)
        have hdrop := dropApproval_eased h hmem (isApproval_of_approval ha)
        refine ⟨hdrop.sound.of_eq hp hr, ?_, fun slot c hc => hdrop.contexts slot c ?_⟩
        · have := hdrop.taken
          simp only [State.taken, reservations_of_eq hp hr] at *
          omega
        · simpa only [State.pair, hp] using hc
      next =>
        have hread := (readTimeoutSeconds_still s).settled h
        have hwrite := writeReferral_eased hread.sound (e := e) 
          (new := e.withApproval { a with state := .waiting, seconds := (readTimeoutSeconds s).1 })
          (by simpa using hmem) rfl (isApproval_of_approval ha).symm
        exact (hread.toEased.trans hwrite).trans ((raise_still _ _).settled hwrite.sound).toEased

end Sys2Proof.Machine

namespace Sys2Proof.Machine
open Sys2Proof

/-! ### The decision in hand (R68 to R70, R82)

What `State.placesOk` says of the seat, as a statement about a decision that is on its way back to it. -/

/-- The decision counts on what the state holds: its held places are free, its approval is ANSWERING, and a completion's
context is another card's. -/
structure InHand (d : Decision) (s : State) : Prop where
  sound : Sound s
  places : s.taken + d.heldPlaces ≤ Config.verdictPlaces
  request : ∀ side, d.work = .request side → d.phase.places ≤ d.heldPlaces
  answer : ∀ n, d.work = .answer n → s.answers n
  completing : ∀ slot, d.holding = .completing slot → ∀ c, s.pair slot = some c → c.credential ≠ d.credential

theorem seatOk_iff (s : State) : s.seatOk = true ↔ ∀ d, s.seat = some d →
    (∀ side, d.work = .request side → d.phase.places ≤ d.heldPlaces) ∧ (∀ n, d.work = .answer n → s.answers n) ∧
      (∀ slot, d.holding = .completing slot → ∀ c, s.pair slot = some c → c.credential ≠ d.credential) := by
  unfold State.seatOk
  cases s.seat with
  | none => simp
  | some d =>
    have hcontext : ∀ o : Option PairContext, o.all (fun c => !decide (c.credential = d.credential)) = true ↔
        ∀ c, o = some c → ¬ c.credential = d.credential := fun o => by cases o <;> simp
    cases hw : d.work <;> cases hh : d.holding <;> simp [hw, hh, State.answers, hcontext]

/-- A listed context is the one of its slot. -/
theorem pair_of_mem {s : State} (hw : Table.wf none s.pairs = true) {p : Nat × Option PairContext} (hp : p ∈ s.pairs) :
    ∃ c, s.pair p.1 = some c := by
  have hget : ∀ (low : Option Nat) (t : Table (Option PairContext)), Table.wfFrom none low t = true → p ∈ t →
      (∀ l, low = some l → l < p.1) ∧ ∃ c, Table.get none t p.1 = some c := by
    intro low t
    induction t generalizing low with
    | nil => exact fun _ h => nomatch h
    | cons e rest ih =>
      obtain ⟨j, v⟩ := e
      intro hwf hmem
      simp only [Table.wfFrom, Bool.and_eq_true, decide_eq_true_eq] at hwf
      obtain ⟨⟨hlow, hv⟩, hrest⟩ := hwf
      have hj : ∀ l, low = some l → l < j := by
        rintro l rfl
        simpa using hlow
      rcases List.mem_cons.mp hmem with rfl | hmem
      · exact ⟨hj, by simpa [Table.get] using Option.ne_none_iff_exists'.mp hv⟩
      · obtain ⟨hlt, c, hc⟩ := ih (some j) hrest hmem
        have hjp := hlt j rfl
        exact ⟨fun l hl => lt_trans (hj l hl) hjp, c, by rw [Table.get, if_neg (Nat.ne_of_lt hjp), hc]⟩
  exact (hget none s.pairs hw hp).2

theorem slots_iff {s : State} (hw : Table.wf none s.pairs = true) :
    s.pairs.all (fun p => decide (1 ≤ p.1) && decide (p.1 ≤ Config.pairSlots)) = true ↔
      ∀ slot c, s.pair slot = some c → 1 ≤ slot ∧ slot ≤ 8 := by
  simp only [List.all_eq_true, Bool.and_eq_true, decide_eq_true_eq, Config.pairSlots]
  constructor
  · intro h slot c hc
    by_contra hn
    have hmem : slot ∉ Table.keys s.pairs := fun hk => by
      obtain ⟨p, hp, rfl⟩ := List.mem_map.mp hk
      exact hn (h p hp)
    rw [State.pair, Table.get_of_not_mem none hmem] at hc
    cases hc
  · intro h p hp
    obtain ⟨c, hc⟩ := pair_of_mem hw hp
    exact h p.1 c hc

/-- The part of the invariant that is not Stores, for a state whose contexts and entries are sound. -/
theorem placesOk_iff {s : State} (h : Sound s) : s.placesOk = true ↔
    s.taken + s.heldPlaces ≤ Config.verdictPlaces ∧ s.seatOk = true := by
  simp only [State.placesOk, Bool.and_eq_true, decide_eq_true_eq, slots_iff h.canonical, State.taken]
  exact ⟨fun hp => ⟨hp.1.1, hp.2⟩, fun hp => ⟨⟨hp.1, h.slots⟩, hp.2⟩⟩

theorem Stores.sound {s : State} (h : Stores s) (hp : s.placesOk = true) : Sound s := by
  simp only [State.placesOk, Bool.and_eq_true] at hp
  exact ⟨h.pairs, (slots_iff h.pairs).mp hp.1.2, h.references⟩

theorem inHand_of_seat {s : State} (h : Sound s) (hp : s.placesOk = true) {d : Decision} (hd : s.seat = some d) :
    InHand d s := by
  obtain ⟨hplaces, hseat⟩ := (placesOk_iff h).mp hp
  obtain ⟨hreq, hans, hcomp⟩ := (seatOk_iff s).mp hseat d hd
  exact ⟨h, by simpa [State.heldPlaces, hd] using hplaces, hreq, hans, hcomp⟩

/-- What has settled keeps its places. -/
theorem Settled.placesOk {s t : State} (hst : Settled s t) (h : Sound s) (hp : s.placesOk = true) : t.placesOk = true := by
  obtain ⟨hplaces, hseat⟩ := (placesOk_iff h).mp hp
  have hheld : t.heldPlaces = s.heldPlaces := by simp only [State.heldPlaces, hst.seat]
  refine (placesOk_iff hst.sound).mpr ⟨?_, (seatOk_iff t).mpr fun d hd => ?_⟩
  · have := hst.taken
    omega
  · obtain ⟨hreq, hans, hcomp⟩ := (seatOk_iff s).mp hseat d (hst.seat ▸ hd)
    refine ⟨hreq, fun n hn => hst.answers n (hans n hn), fun slot hh c hc => ?_⟩
    obtain ⟨c', hc', he⟩ := hst.contexts slot c hc
    exact he ▸ hcomp slot hh c' hc'

theorem Still.placesOk {s t : State} (hst : Still s t) (h : Sound s) (hp : s.placesOk = true) : t.placesOk = true :=
  (hst.settled h).placesOk h hp

/-- With the seat IDLE the places alone count. -/
theorem placesOk_of_idle {s : State} (h : Sound s) (hseat : s.seat = none) (hp : s.taken ≤ Config.verdictPlaces) :
    s.placesOk = true :=
  (placesOk_iff h).mpr ⟨by simpa [State.heldPlaces, hseat] using hp, by simp [State.seatOk, hseat]⟩

theorem Sound.endDecision {s : State} (h : Sound s) : Sound (endDecision s) := h.of_eq rfl rfl

theorem endDecision_placesOk {s : State} (h : Sound s) (hp : s.taken ≤ Config.verdictPlaces) :
    (endDecision s).placesOk = true := placesOk_of_idle h.endDecision rfl hp

section
variable {d : Decision} {s : State}

/-- A decision on its way back to the seat takes it. -/
theorem InHand.placesOk_setSeat (h : InHand d s) : (setSeat d s).placesOk = true :=
  (placesOk_iff (s := setSeat d s) (h.sound.of_eq rfl rfl)).mpr ⟨h.places, (seatOk_iff _).mpr fun d' hd => by
    cases hd
    exact ⟨h.request, h.answer, h.completing⟩⟩

/-- A decision changed in fields that the seat does not count on. -/
theorem InHand.alike {d' : Decision} (h : InHand d s) (hheld : d'.heldPlaces = d.heldPlaces) (hwork : d'.work = d.work)
    (hphase : d'.phase = d.phase) (hholding : d'.holding = d.holding) (hcred : d'.credential = d.credential) :
    InHand d' s where
  sound := h.sound
  places := by rw [hheld]; exact h.places
  request := by rw [hwork, hphase, hheld]; exact h.request
  answer := by rw [hwork]; exact h.answer
  completing := by rw [hholding, hcred]; exact h.completing

theorem InHand.of_settled {t : State} (h : InHand d s) (hst : Settled s t) : InHand d t where
  sound := hst.sound
  places := by have := hst.taken; have := h.places; omega
  request := h.request
  answer := fun n hn => hst.answers n (h.answer n hn)
  completing := fun slot hh c hc => by
    obtain ⟨c', hc', he⟩ := hst.contexts slot c hc
    exact he ▸ h.completing slot hh c' hc'

/-- A request counts on no approval. -/
theorem InHand.of_eased {t : State} (h : InHand d s) (hst : Eased 0 s t) {side : Side} (hw : d.work = .request side) :
    InHand d t where
  sound := hst.sound
  places := by have := hst.taken; have := h.places; omega
  request := h.request
  answer := fun n hn => by rw [hw] at hn; cases hn
  completing := fun slot hh c hc => by
    obtain ⟨c', hc', he⟩ := hst.contexts slot c hc
    exact he ▸ h.completing slot hh c' hc'

theorem InHand.of_still {t : State} (h : InHand d s) (hst : Still s t) : InHand d t := h.of_settled (hst.settled h.sound)

theorem Phase.places_le (p : Phase) : p.places ≤ 2 := by
  unfold Phase.places
  split <;> decide

/-- At a phase with both places still held, the decision may go on to any other. -/
theorem InHand.goOn (h : InHand d s) (hp : d.phase.places = 2) (p : Phase) : (goOn d p s).placesOk = true :=
  InHand.placesOk_setSeat (d := { d with phase := p })
    ⟨h.sound, h.places, fun side hw => (p.places_le.trans hp.ge).trans (h.request side hw), h.answer, h.completing⟩

theorem InHand.undoHand (h : InHand d s) : InHand (undoHand d s).1 (undoHand d s).2 :=
  (h.of_still (undoHand_calm d (Calm.refl s)).still).alike rfl rfl rfl rfl rfl

/-- The places behind a verdict placed. -/
theorem placeVerdict_taken (k : Nat) (q : Sequence) (v : Verdict) (r : Option DenyReason) (s : State) :
    (placeVerdict k q v r s).taken = s.taken + 1 := by
  have hr : (placeVerdict k q v r s).reservations = s.reservations := rfl
  have hv : (placeVerdict k q v r s).verdicts.length = s.verdicts.length + 1 :=
    List.length_append.trans rfl
  simp only [State.taken, hr, hv]
  omega

theorem Sound.placeVerdict (h : Sound s) (k : Nat) (q : Sequence) (v : Verdict) (r : Option DenyReason) :
    Sound (placeVerdict k q v r s) := h.of_eq rfl rfl

/-- A check that fails takes one of the two places held. -/
theorem InHand.failCheck (h : InHand d s) (hp : d.phase.places = 2) (r : DenyReason) : (failCheck d r s).placesOk = true := by
  unfold Machine.failCheck
  split
  · exact h.goOn hp _
  next side hw =>
    have hheld := h.request side hw
    have hplaces := h.places
    have hsound : Sound (endDecision (placeVerdict d.station d.sequence .deny (some r) s)) :=
      (h.sound.placeVerdict ..).endDecision
    have hidle : (endDecision (placeVerdict d.station d.sequence .deny (some r) s)).placesOk = true :=
      endDecision_placesOk (h.sound.placeVerdict ..) (by rw [placeVerdict_taken]; omega)
    dsimp only
    split
    · exact (returnToOpen_settled hsound _).placesOk hsound hidle
    all_goals exact hidle

theorem undoHand_phase (d : Decision) (s : State) : (Machine.undoHand d s).1.phase = d.phase := rfl

theorem InHand.undoAndFail (h : InHand d s) (hp : d.phase.places = 2) (r : DenyReason) :
    (undoAndFail d r s).placesOk = true := h.undoHand.failCheck hp r

end

end Sys2Proof.Machine

namespace Sys2Proof.Machine
open Sys2Proof

/-! ### Verdicts placed and withdrawn -/

theorem appendEntry_taken (e : VerdictEntry) (s : State) : (appendEntry e s).taken = s.taken + 1 := by
  have hv : (appendEntry e s).verdicts.length = s.verdicts.length + 1 := List.length_append.trans rfl
  have hr : (appendEntry e s).reservations = s.reservations := rfl
  simp only [State.taken, hr, hv]
  omega

theorem Sound.appendEntry {s : State} (h : Sound s) (e : VerdictEntry) : Sound (appendEntry e s) := h.of_eq rfl rfl

theorem removeEntries_settled {s : State} (h : Sound s) (which : VerdictEntry → Bool) : Settled s (removeEntries which s) := by
  have hfold := foldl_still (f := fun s (e : VerdictEntry) => reportRemoved e.station e.sequence (undoPermitData e.permit s))
    (fun s e => by simp [Still]) (s.verdicts.filter which) { s with verdicts := s.verdicts.filter (fun e => !which e) }
  obtain ⟨-, -, hseat, hv, hp, hr⟩ := hfold
  exact settled_of_eq h hseat hp hr (hv ▸ List.length_filter_le _ _)

theorem withdrawWhere_settled {s : State} (h : Sound s) (which : PermitData → Bool) (r : DenyReason) :
    Settled s (withdrawWhere which r s).2 := by
  have hfold := foldl_still
    (f := fun s (e : VerdictEntry) => reportWithdrawn e.station e.sequence r (undoPermitData e.permit s))
    (fun s e => by simp [Still]) (s.verdicts.filter (fun e => e.holds which))
    { s with verdicts := s.verdicts.map (fun e => if e.holds which then e.withdrawn r else e) }
  obtain ⟨-, -, hseat, hv, hp, hr⟩ := hfold
  exact settled_of_eq h hseat hp hr (hv ▸ (List.length_map _).le)

theorem exitRemove_settled {s : State} (h : Sound s) (id : Nat) : Settled s (exitRemove id s) := by
  unfold exitRemove
  split
  · exact (removeRecord_still id s).settled h
  · have hr := removeEntries_settled h (fun e => e.holds (PermitData.holdsRecord id))
    dsimp only
    split
    · exact hr.trans ((removeReturning_still id _).settled hr.sound)
    · exact hr

theorem finishAnswer_placesOk {s : State} (h : Sound s) (hp : s.placesOk = true) (r : CommandResult) :
    (finishAnswer r s).placesOk = true := (finishAnswer_still r s).placesOk h hp

/-! ### Hot cards and approvals created -/

theorem createEntry_referrals (k : Nat) (c : Credential) (room : Nat) (q : Sequence) (kind : ReferralKind) (s : State) :
    ∃ e : ReferralEntry, e.kind = kind ∧ e.reference = (createEntry k c room q kind s).1 ∧
      (createEntry k c room q kind s).2.referrals = s.referrals ++ [e] :=
  ⟨_, rfl, rfl, congrArg (· ++ _) (presentMinute_still s).2.2.2.2.2⟩

theorem createEntry_other (k : Nat) (c : Credential) (room : Nat) (q : Sequence) (kind : ReferralKind) (s : State) :
    (createEntry k c room q kind s).2.seat = s.seat ∧ (createEntry k c room q kind s).2.verdicts = s.verdicts ∧
      (createEntry k c room q kind s).2.pairs = s.pairs := by
  have h := presentMinute_still s
  exact ⟨h.2.2.1, h.2.2.2.1, h.2.2.2.2.1⟩

theorem createHotCard_settled {s : State} (h : Sound s) (hs : Stores s) (k : Nat) (c : Credential) (room : Nat)
    (q : Sequence) : Settled s (createHotCard k c room q s) := by
  have hstores := (createHotCard_keeps k c room q (Keeps.refl s)).2 hs
  unfold createHotCard at hstores ⊢
  split
  next hroom =>
    rw [if_pos hroom] at hstores
    obtain ⟨e, hkind, -, hr⟩ := createEntry_referrals k c room q (.hotCard false) s
    obtain ⟨hseat, hv, hp⟩ := createEntry_other k c room q (.hotCard false) s
    have happ : e.isApproval = false := by simp [ReferralEntry.isApproval, hkind]
    have hpairs : (raise .hotCard (createEntry k c room q (.hotCard false) s).2).pairs = s.pairs := by simp [hp]
    have hreferrals : (raise .hotCard (createEntry k c room q (.hotCard false) s).2).referrals = s.referrals ++ [e] := by
      simp [hr]
    refine ⟨⟨⟨by rw [hpairs]; exact h.canonical, ?_, hstores.references⟩, ?_, ?_⟩, by simp [hseat], ?_⟩
    · unfold State.pair
      rw [hpairs]
      exact h.slots
    · simp [State.taken, State.reservations, State.openPairs, State.pair, hp, hr, hv, happ]
    · intro slot c' hc'
      exact ⟨c', by simpa only [State.pair, hpairs] using hc', rfl⟩
    · rintro n ⟨x, hx, hn⟩
      exact ⟨x, by rw [hreferrals]; exact List.mem_append_left _ hx, hn⟩
  next => exact (raise_still _ s).settled h

/-! ### The operations of a decision -/

theorem endAnswering_eased {s : State} (h : Sound s) (k : Nat) : Eased 0 s (endAnswering k s) := by
  unfold endAnswering
  split
  · exact .refl h
  next e _ =>
    split
    · have hdrop := dropReferral_eased h e.reference
      have hfreed := (reportFreed_still k (dropReferral e.reference s)).settled hdrop.sound
      exact (hdrop.trans hfreed.toEased).trans ((finishAnswer_still _ _).settled hfreed.sound).toEased
    · exact .refl h

theorem supersede_eased {s : State} (h : Sound s) (k : Nat) : Eased 0 s (supersede k s) := by
  have hpairs := closePairs_settled h (fun c => decide (c.station = k)) .newRequest
  have happs := closeApprovals_settled hpairs.sound (fun e _ => decide (e.station = k)) .newRequest
  exact (hpairs.trans happs).toEased.trans (endAnswering_eased happs.sound k)

theorem completingContext_some {d : Decision} {s : State} {slot : Nat} {c : PairContext}
    (h : completingContext d s = some (slot, c)) : s.pair slot = some c := by
  unfold completingContext at h
  split at h
  · obtain ⟨c', hc', he⟩ := Option.map_eq_some_iff.mp h
    cases he
    exact hc'
  all_goals cases h

/-- With the seat IDLE an entry leaves, its reservation freed. -/
theorem dropReferral_placesOk {s : State} (h : Sound s) (hseat : s.seat = none) (hp : s.taken ≤ Config.verdictPlaces)
    (n k : Nat) : (reportFreed k (dropReferral n s)).placesOk = true := by
  have hdrop := dropReferral_eased h n
  exact (reportFreed_still k _).placesOk hdrop.sound (placesOk_of_idle hdrop.sound hseat (hdrop.taken.trans hp))

section
variable {d : Decision} {s : State} (h : InHand d s)
include h

theorem InHand.goOn_of_le {p : Phase} (hle : p.places ≤ d.phase.places) : (Machine.goOn d p s).placesOk = true :=
  InHand.placesOk_setSeat (d := { d with phase := p })
    ⟨h.sound, h.places, fun side hw => hle.trans (h.request side hw), h.answer, h.completing⟩

/-- The places taken leave room for what a request at an early phase places. -/
theorem InHand.taken_le {side : Side} (hw : d.work = .request side) :
    s.taken + d.phase.places ≤ Config.verdictPlaces := by
  have := h.places
  have := h.request side hw
  omega

theorem InHand.taken_le_all : s.taken ≤ Config.verdictPlaces := by
  have := h.places
  omega

theorem InHand.afresh (hp : d.phase.places = 2) : InHand d.afresh s :=
  ⟨h.sound, h.places, fun side hw => hp.ge.trans (h.request side hw), h.answer, fun _ hh => nomatch hh⟩

theorem InHand.firstFails (hp : d.phase.places = 2) (r : DenyReason) : (firstFails d r s).placesOk = true := by
  have hafresh := h.afresh hp
  unfold Machine.firstFails
  split
  · exact hafresh.placesOk_setSeat
  next slot c hctx =>
    have hc := completingContext_some hctx
    split
    · exact (hafresh.of_settled (closePair_settled h.sound hc _)).placesOk_setSeat
    · exact (hafresh.of_settled (deniedPair_settled h.sound hc _ r)).placesOk_setSeat

theorem InHand.endAbandoned : (endAbandoned d s).placesOk = true := by
  have hundo := h.undoHand
  have hidle : Sound (Machine.endDecision (Machine.undoHand d s).2) := hundo.sound.endDecision
  have hok := endDecision_placesOk hundo.sound hundo.taken_le_all
  have hst := (forgetRequest_still d.station d.sequence (Machine.endDecision (Machine.undoHand d s).2)).settled hidle
  have hforget := hst.placesOk hidle hok
  simp only [Machine.endAbandoned]
  split
  · exact hforget
  · exact (abandonContext_settled hst.sound _).placesOk hst.sound hforget
  · exact (abandonContext_settled hst.sound _).placesOk hst.sound hforget
  next n _ => exact dropReferral_placesOk hst.sound hst.seat (hst.taken.trans hundo.taken_le_all) n d.station

/-! #### The station query and exits -/

theorem InHand.opStationQuery {side : Side} (hw : d.work = .request side) (hp : d.phase.places = 2) :
    (opStationQuery d side s).placesOk = true := by
  have hsuper := h.of_eased (supersede_eased h.sound d.station) hw
  unfold Machine.opStationQuery
  split
  · exact hsuper.goOn hp _
  · split
    · exact hsuper.goOn hp _
    next slot _ =>
      split
      · exact h.goOn hp _
      next c hc =>
        split
        · exact h.goOn hp _
        next hne =>
          have hset := h.of_settled (setPair_some_settled h.sound hc (c' := { c with held := true }) rfl)
          refine InHand.goOn (d := { d with holding := .completing slot })
            ⟨hset.sound, hset.places, hset.request, hset.answer, ?_⟩ hp _
          rintro slot' hh c' hc'
          cases hh
          rw [h.sound.pair_set, if_pos rfl] at hc'
          cases hc'
          exact hne

theorem InHand.opSameCard {side : Side} (hw : d.work = .request side) (hp : d.phase.places = 2) :
    (opSameCard d s).placesOk = true := by
  have hroom := h.taken_le hw
  refine endDecision_placesOk (h.sound.of_eq rfl rfl) ?_
  have : (reportPlaced d.station d.sequence .hold (some .pairSameCard)
    (appendEntry ⟨d.station, d.sequence, .hold, none, false, none⟩ s)).taken = s.taken + 1 := appendEntry_taken _ s
  omega

theorem InHand.opExitStation (hp : d.phase.places = 2) : (opExitStation d s).placesOk = true := by
  have hread := h.of_still (readStationBody_still d.station s)
  unfold Machine.opExitStation
  dsimp only
  split
  · exact hread.failCheck hp _
  · split
    · exact hread.failCheck hp _
    · exact (hread.alike rfl rfl rfl rfl rfl).goOn hp _

theorem InHand.afterRemoval (hp : d.phase.places = 2) (r : Nat) :
    (Machine.goOn d .exitPlacement (if r = d.room then s else strayExit d.room (some r) s)).placesOk = true := by
  split
  · exact h.goOn hp _
  · exact (h.of_still (strayExit_still _ _ _)).goOn hp _

theorem InHand.opExitRemoval (hp : d.phase.places = 2) : (opExitRemoval d s).placesOk = true := by
  have hread := h.of_still (locate_still d.credential s)
  unfold Machine.opExitRemoval
  dsimp only
  split
  · exact (hread.of_still (strayExit_still _ _ _)).goOn hp _
  next id _ =>
    have hroom := hread.of_still (readRoomRecord_still ((locate d.credential s).2.index id).room _)
    refine InHand.afterRemoval ?_ hp _
    split
    · exact hroom
    · exact hroom
    · exact hroom.of_settled (exitRemove_settled hroom.sound id)

theorem InHand.opExitPlacement {side : Side} (hw : d.work = .request side) (hp : d.phase.places = 2) :
    (opExitPlacement d s).placesOk = true := by
  have hroom := h.taken_le hw
  exact endDecision_placesOk (h.sound.placeVerdict ..) (by rw [placeVerdict_taken]; omega)

/-! #### The checks -/

theorem InHand.opStation (hp : d.phase.places = 2) : (opStation d s).placesOk = true := by
  have hread := h.of_still (readStationBody_still d.station s)
  unfold Machine.opStation
  dsimp only
  split
  · exact hread.failCheck hp _
  · split
    · exact hread.failCheck hp _
    · exact (hread.alike rfl rfl rfl rfl rfl).goOn hp _

theorem InHand.opRoom (hp : d.phase.places = 2) : (opRoom d s).placesOk = true := by
  have hread := h.of_still (readRoomRecord_still d.room s)
  unfold Machine.opRoom
  dsimp only
  split
  · exact hread.failCheck hp _
  · exact hread.failCheck hp _
  next b _ =>
    have hroom : InHand { d with key := b.key, cls := b.cls, limit := b.limit } (readRoomRecord d.room s).2 :=
      hread.alike rfl rfl rfl rfl rfl
    split
    · exact hroom.goOn hp _
    · split
      · exact hroom.failCheck hp _
      · exact hroom.goOn hp _

theorem InHand.opMode (hp : d.phase.places = 2) : (opMode d s).placesOk = true := by
  unfold Machine.opMode
  split
  · exact h.failCheck hp _
  · exact h.goOn hp _

theorem InHand.opTamper (hp : d.phase.places = 2) : (opTamper d s).placesOk = true := by
  have hread := h.of_still (readTamper_still s)
  unfold Machine.opTamper
  dsimp only
  split
  · exact hread.failCheck hp _
  · exact hread.goOn hp _

theorem InHand.opClock (hp : d.phase.places = 2) : (opClock d s).placesOk = true := by
  have hread := h.of_still (readClockItem_still s)
  unfold Machine.opClock
  dsimp only
  split
  · exact hread.goOn hp _
  · exact hread.failCheck hp _

theorem InHand.opBarState (hp : d.phase.places = 2) : (opBarState d s).placesOk = true := by
  have hread := h.of_still (readBarHeader_still s)
  unfold Machine.opBarState
  dsimp only
  split
  · exact hread.failCheck hp _
  · exact hread.goOn hp _

theorem InHand.opBarTest (hs : Stores s) (hp : d.phase.places = 2) : (opBarTest d s).placesOk = true := by
  have hread := h.of_still (membership_still d.credential s)
  have hstores := (membership_keeps d.credential (Keeps.refl s)).2 hs
  unfold Machine.opBarTest
  dsimp only
  split
  · exact hread.failCheck hp _
  · exact hread.goOn hp _
  · split
    · exact hread.failCheck hp _
    · exact (hread.of_settled (createHotCard_settled hread.sound hstores _ _ _ _)).failCheck hp _

theorem InHand.opLocate (hp : d.phase.places = 2) : (opLocate d s).placesOk = true := by
  have hread := h.of_still (locate_still d.credential s)
  unfold Machine.opLocate
  dsimp only
  split
  · exact hread.failCheck hp _
  · exact (hread.alike rfl rfl rfl rfl rfl).goOn hp _

theorem InHand.opSearch (hp : d.phase.places = 2) : (opSearch d s).placesOk = true := by
  have hread := h.of_still (searchRead_still d.credential d.key d.time d.own s)
  unfold Machine.opSearch
  dsimp only
  split
  · exact (hread.alike rfl rfl rfl rfl rfl).goOn hp _
  · exact (hread.alike rfl rfl rfl rfl rfl).placesOk_setSeat
  next f _ =>
    have hown : InHand { d with own := f } (searchRead d.credential d.key d.time d.own s).2 :=
      hread.alike rfl rfl rfl rfl rfl
    exact hown.failCheck hp _

theorem InHand.opFirstBar (hp : d.phase.places = 2) : (opFirstBar d s).placesOk = true := by
  unfold Machine.opFirstBar
  split
  · exact (h.afresh hp).placesOk_setSeat
  next c _ =>
    have hread := h.of_still (membership_still c.credential s)
    dsimp only
    split
    · exact hread.firstFails hp _
    · exact hread.firstFails hp _
    · exact hread.goOn hp _

theorem InHand.opFirstLocate (hp : d.phase.places = 2) : (opFirstLocate d s).placesOk = true := by
  unfold Machine.opFirstLocate
  split
  · exact (h.afresh hp).placesOk_setSeat
  next c _ =>
    have hread := h.of_still (locate_still c.credential s)
    dsimp only
    split
    · exact hread.firstFails hp _
    · exact (hread.alike rfl rfl rfl rfl rfl).goOn hp _

theorem InHand.opFirstSearch (hp : d.phase.places = 2) : (opFirstSearch d s).placesOk = true := by
  unfold Machine.opFirstSearch
  split
  · exact (h.afresh hp).placesOk_setSeat
  next c _ =>
    have hread := h.of_still (searchRead_still c.credential d.key d.time d.first s)
    dsimp only
    split
    · exact (hread.alike rfl rfl rfl rfl rfl).goOn hp _
    · exact (hread.alike rfl rfl rfl rfl rfl).placesOk_setSeat
    · exact hread.firstFails hp _

theorem InHand.opCount (hp : d.phase.places = 2) : (opCount d s).placesOk = true := by
  have hread := (h.of_still (scanIndexes_still s)).of_still (stepNineLimit_still d (scanIndexes s))
  unfold Machine.opCount
  dsimp only
  split
  · exact hread.failCheck hp _
  · split
    · exact hread.goOn hp _
    · exact hread.failCheck hp _

theorem InHand.opPool (hp : d.phase.places = 2) : (opPool d s).placesOk = true := by
  have hread := h.of_still (scanIndexes_still s)
  unfold Machine.opPool
  dsimp only
  split
  · exact hread.goOn hp _
  · exact hread.failCheck hp _

theorem InHand.opClassRule (hp : d.phase.places = 2) : (opClassRule d s).placesOk = true := by
  have hread := h.of_still (readRoomRecord_still d.room s)
  unfold Machine.opClassRule
  split
  · exact h.goOn hp _
  · exact h.goOn hp _
  · exact h.goOn hp _
  · split
    · exact h.goOn hp _
    · dsimp only
      split
      · exact hread.failCheck hp _
      · exact hread.failCheck hp _
      · split
        · exact hread.goOn hp _
        · exact hread.failCheck hp _

/-! #### Claims, admission, placement -/

theorem InHand.opClaim (hp : d.phase.places = 2) : (opClaim d s).placesOk = true := by
  unfold Machine.opClaim
  split
  · exact h.goOn hp _
  next handle role _ =>
    have hread := h.of_still (claimSlot_still handle d.credential d.key d.time s)
    dsimp only
    split
    · exact (hread.alike rfl rfl rfl rfl rfl).goOn hp _
    · exact (hread.alike rfl rfl rfl rfl rfl).goOn hp _

theorem InHand.opClaimFirst (hp : d.phase.places = 2) : (opClaimFirst d s).placesOk = true := by
  unfold Machine.opClaimFirst
  split
  next slot c handle role _ _ =>
    have hread := h.of_still (claimSlot_still handle c.credential d.key d.time s)
    dsimp only
    split
    · exact (hread.alike rfl rfl rfl rfl rfl).goOn hp _
    · exact (hread.alike rfl rfl rfl rfl rfl).goOn hp _
  · exact (h.afresh hp).placesOk_setSeat
  · exact h.goOn hp _

theorem InHand.opClaimSecond (hp : d.phase.places = 2) : (opClaimSecond d s).placesOk = true := by
  unfold Machine.opClaimSecond
  split
  · exact h.goOn hp _
  next handle role _ =>
    have hread := h.of_still (claimSlot_still handle d.credential d.key d.time s)
    dsimp only
    split
    · exact (hread.alike rfl rfl rfl rfl rfl).goOn hp _
    · exact (hread.undoHand.alike rfl rfl rfl rfl rfl).goOn hp _

theorem InHand.opAdmission (hp : d.phase.places = 2) : (opAdmission d s).placesOk = true := by
  have hread := h.of_still (admission_still d.room (d.entrants ((completingContext d s).map Prod.snd)) s)
  unfold Machine.opAdmission
  dsimp only
  split
  · exact hread.undoAndFail hp _
  · exact (hread.alike rfl rfl rfl rfl rfl).goOn hp _

theorem InHand.opEscortRead (hp : d.phase.places = 2) : (opEscortRead d s).placesOk = true := by
  have hread := h.of_still (readRoomRecord_still d.room s)
  unfold Machine.opEscortRead
  dsimp only
  split
  · exact hread.undoAndFail hp _
  · exact hread.undoAndFail hp _
  · split
    · exact hread.undoAndFail hp _
    · exact hread.goOn hp _

end

end Sys2Proof.Machine

namespace Sys2Proof.Machine
open Sys2Proof

/-! #### Placement, openings, settling -/

theorem freePairSlot_some {s : State} {slot : Nat} (h : s.freePairSlot = some slot) :
    (1 ≤ slot ∧ slot ≤ 8) ∧ s.pair slot = none := by
  have hmem := mem_numbersFrom.mp (List.mem_of_find?_eq_some h)
  have hfree := List.find?_some h
  simp only [Config.pairSlots] at hmem
  exact ⟨by omega, by simpa using hfree⟩

/-- A context opens in a free slot. -/
theorem setPair_opened {s : State} (h : Sound s) {slot : Nat} (hslot : 1 ≤ slot ∧ slot ≤ 8) (hfree : s.pair slot = none)
    (c : PairContext) : Sound (s.setPair slot (some c)) ∧ (s.setPair slot (some c)).taken = s.taken + 1 := by
  refine ⟨h.setPair fun _ => hslot, ?_⟩
  have hleft := openPairs_of_left (s := s.setPair slot (some c)) (t := s) hslot (by simp [h.pair_set]) hfree
    (fun j hj => by simp [h.pair_set, hj])
  simp only [State.taken, State.reservations, setPair_frame]
  omega

/-- An approval opens at the tail. -/
theorem createApproval_opened {s : State} (h : Sound s) (hs : Stores s) (hroom : s.approvals < Config.approvals) (k : Nat)
    (c : Credential) (room : Nat) (q : Sequence) (handle : Handle) :
    Sound (createEntry k c room q (.approval handle .opening 0 none) s).2 ∧
      (createEntry k c room q (.approval handle .opening 0 none) s).2.taken = s.taken + 1 := by
  obtain ⟨e, hkind, -, hr⟩ := createEntry_referrals k c room q (.approval handle .opening 0 none) s
  obtain ⟨-, hv, hp⟩ := createEntry_other k c room q (.approval handle .opening 0 none) s
  have happ : e.isApproval = true := by simp [ReferralEntry.isApproval, hkind]
  have hstores := (createEntry_keeps k c room q (.approval handle .opening 0 none)
    (fun x hx => by simpa [State.roomFor, ReferralEntry.isApproval, hx] using hroom) (Keeps.refl s)).2 hs
  refine ⟨⟨by rw [hp]; exact h.canonical, ?_, hstores.references⟩, ?_⟩
  · unfold State.pair
    rw [hp]
    exact h.slots
  · simp [State.taken, State.reservations, State.openPairs, State.pair, hp, hr, hv, happ]
    omega

/-- The state without the context that a completion is made against. -/
def leftContext (d : Decision) (s : State) : State :=
  match completingContext d s with
  | none => s
  | some (slot, _) => s.setPair slot none

theorem leftContext_eased {d : Decision} {s : State} (h : Sound s) : Eased 0 s (leftContext d s) := by
  unfold leftContext
  split
  · exact .refl h
  next slot c hc => exact (setPair_none_eased h (completingContext_some hc)).weaken

theorem opPlacement_of_condition {d : Decision} {s : State} {r : DenyReason} (hr : (placementCondition d s).1 = some r) :
    opPlacement d s = endDecision (placeVerdict d.station d.sequence .deny (some r)
      (undoHand d (leftContext d (placementCondition d s).2)).2) := by
  simp only [opPlacement, hr]
  rfl

theorem opPlacement_of_none {d : Decision} {s : State} (hr : (placementCondition d s).1 = none) :
    ∃ e v, opPlacement d s = endDecision (reportPlaced d.station d.sequence v none
      (appendEntry e (leftContext d (placementCondition d s).2))) :=
  ⟨_, _, by
    simp only [opPlacement, hr]
    rfl⟩

section
variable {d : Decision} {s : State} (h : InHand d s)
include h

theorem InHand.opPlacement {side : Side} (hw : d.work = .request side) (hp : d.phase.places = 2) :
    (opPlacement d s).placesOk = true := by
  have hread := h.of_still (placementCondition_still d s)
  have hroom := hread.taken_le hw
  have hleft := leftContext_eased (d := d) hread.sound
  have hplaces := hleft.taken
  cases hc : (placementCondition d s).1 with
  | some r =>
    have hundo := (undoHand_calm d (Calm.refl (leftContext d (placementCondition d s).2))).still.settled hleft.sound
    have hkept := hundo.taken
    rw [opPlacement_of_condition hc]
    refine endDecision_placesOk (hundo.sound.placeVerdict ..) ?_
    rw [placeVerdict_taken]
    omega
  | none =>
    obtain ⟨e, v, he⟩ := opPlacement_of_none hc
    rw [he]
    refine endDecision_placesOk (hleft.sound.of_eq rfl rfl)
      ((appendEntry_taken e (leftContext d (placementCondition d s).2)).le.trans ?_)
    omega

theorem InHand.opPairOpening {side : Side} (hw : d.work = .request side) (hp : d.phase.places = 2) :
    (opPairOpening d s).placesOk = true := by
  have hread := h.of_still (placementCondition_still d s)
  unfold Machine.opPairOpening
  dsimp only
  split
  · exact hread.undoAndFail hp _
  · split
    · exact hread.undoAndFail hp _
    next slot hslot =>
      split
      · exact hread.endAbandoned
      · obtain ⟨hrange, hfree⟩ := freePairSlot_some hslot
        have hwin := hread.of_still (readWindowSeconds_still (placementCondition d s).2)
        obtain ⟨hsound, htaken⟩ := setPair_opened hwin.sound hrange (by simpa [State.pair] using hfree)
          ⟨true, d.station, d.room, d.credential, d.claimHandle, d.own.role, d.sequence,
            (readWindowSeconds (placementCondition d s).2).1, none⟩
        have hheld := h.request side hw
        have hplaces := hwin.places
        refine InHand.placesOk_setSeat ⟨hsound, ?_, fun _ _ => ?_, fun n hn => ?_, fun _ hh => nomatch hh⟩
        · rw [htaken]
          dsimp only
          omega
        · simp only [Phase.places]
          omega
        · exact nomatch hw.symm.trans hn

theorem InHand.opApprovalOpening (hs : Stores s) {side : Side} (hw : d.work = .request side) (hp : d.phase.places = 2) :
    (opApprovalOpening d s).placesOk = true := by
  have hread := h.of_still (placementCondition_still d s)
  have hstores := (placementCondition_keeps d (Keeps.refl s)).2 hs
  unfold Machine.opApprovalOpening
  dsimp only
  split
  · exact hread.undoAndFail hp _
  · split
    · exact hread.undoAndFail hp _
    next hfull =>
      split
      · exact hread.endAbandoned
      · obtain ⟨hsound, htaken⟩ := createApproval_opened hread.sound hstores (Nat.lt_of_not_le hfull) d.station
          d.credential d.room d.sequence d.claimHandle
        have hheld := h.request side hw
        have hplaces := hread.places
        refine InHand.placesOk_setSeat ⟨hsound, ?_, fun _ _ => ?_, fun n hn => ?_, fun _ hh => nomatch hh⟩
        · rw [htaken]
          dsimp only
          omega
        · simp only [Phase.places]
          omega
        · exact nomatch hw.symm.trans hn

theorem InHand.opClaimRelease (hp : d.phase = .claimRelease) : (opClaimRelease d s).placesOk = true := by
  refine h.undoHand.goOn_of_le ?_
  rw [undoHand_phase, hp]
  decide

theorem InHand.opInterim {side : Side} (hw : d.work = .request side) (hp : d.phase = .interim) :
    (opInterim d s).placesOk = true := by
  have hheld := h.request side hw
  have hplaces := h.places
  rw [hp] at hheld
  simp only [Phase.places] at hheld
  unfold Machine.opInterim
  refine InHand.placesOk_setSeat ⟨h.sound.placeVerdict .., ?_, fun _ _ => Nat.zero_le _,
    fun n hn => (nomatch hw.symm.trans hn), h.completing⟩
  rw [placeVerdict_taken]
  dsimp only
  omega

theorem InHand.opSettling : (opSettling d s).placesOk = true := by
  have hall := h.taken_le_all
  unfold Machine.opSettling
  split
  next slot _ =>
    have hst := settlePair_settled h.sound slot
    exact endDecision_placesOk hst.sound (hst.taken.trans hall)
  next n _ =>
    have hst := settleApproval_eased h.sound n
    exact endDecision_placesOk hst.sound (hst.taken.trans hall)
  all_goals exact endDecision_placesOk h.sound hall

theorem InHand.requestOp (hs : Stores s) {side : Side} (hw : d.work = .request side) : (requestOp d side s).placesOk = true := by
  have hp : ∀ p : Phase, d.phase = p → d.phase.places = p.places := fun p hp => by rw [hp]
  unfold Machine.requestOp
  split <;> rename_i hphase
  · exact h.opStationQuery hw (hp _ hphase)
  · exact h.opSameCard hw (hp _ hphase)
  · exact h.opExitStation (hp _ hphase)
  · exact h.opExitRemoval (hp _ hphase)
  · exact h.opExitPlacement hw (hp _ hphase)
  · exact h.opStation (hp _ hphase)
  · exact h.opRoom (hp _ hphase)
  · exact h.opMode (hp _ hphase)
  · exact h.opTamper (hp _ hphase)
  · exact h.opClock (hp _ hphase)
  · exact h.opBarState (hp _ hphase)
  · exact h.opBarTest hs (hp _ hphase)
  · exact h.opLocate (hp _ hphase)
  · exact h.opSearch (hp _ hphase)
  · exact h.opCount (hp _ hphase)
  · exact h.opPool (hp _ hphase)
  · exact h.opClassRule (hp _ hphase)
  · exact h.opClaim (hp _ hphase)
  · exact h.opFirstBar (hp _ hphase)
  · exact h.opFirstLocate (hp _ hphase)
  · exact h.opFirstSearch (hp _ hphase)
  · exact h.opClaimFirst (hp _ hphase)
  · exact h.opClaimSecond (hp _ hphase)
  · exact h.opAdmission (hp _ hphase)
  · exact h.opEscortRead (hp _ hphase)
  · exact h.opPlacement hw (hp _ hphase)
  · exact h.opPairOpening hw (hp _ hphase)
  · exact h.opApprovalOpening hs hw (hp _ hphase)
  · exact h.opClaimRelease hphase
  · exact h.opInterim hw hphase
  · exact h.opSettling
  · exact endDecision_placesOk h.sound h.taken_le_all

/-! #### The end of an answer check -/

theorem InHand.answerFreed (n : Nat) : (answerFreed d n s).placesOk = true := by
  have hundo := h.undoHand
  have hdrop := dropReferral_eased hundo.sound n
  have hfreed := (reportFreed_still d.station (dropReferral n (Machine.undoHand d s).2)).settled hdrop.sound
  exact finishAnswer_placesOk hfreed.sound.endDecision
    (endDecision_placesOk hfreed.sound ((hfreed.taken.trans hdrop.taken).trans hundo.taken_le_all)) _

/-- The approval of an answer check leaves its place to the verdict. -/
theorem InHand.dropAnswered {n : Nat} (hn : d.work = .answer n) :
    Sound (dropReferral n s) ∧ (dropReferral n s).taken + 1 ≤ Config.verdictPlaces := by
  obtain ⟨e, he, rfl, ha⟩ := h.answer n hn
  have hdrop := dropApproval_eased h.sound he (isApproval_of_isAnswering ha)
  exact ⟨hdrop.sound, hdrop.taken.trans h.taken_le_all⟩

theorem InHand.answerDenied {n : Nat} (hn : d.work = .answer n) (r : DenyReason) : (answerDenied d n r s).placesOk = true := by
  obtain ⟨hsound, htaken⟩ := h.undoHand.dropAnswered (n := n) hn
  have hconv : Sound (convertDeny d.station d.sequence r (dropReferral n (Machine.undoHand d s).2)) := hsound.of_eq rfl rfl
  exact finishAnswer_placesOk hconv.endDecision
    (endDecision_placesOk hconv ((appendEntry_taken _ (dropReferral n (Machine.undoHand d s).2)).le.trans htaken)) _

theorem InHand.answerPermitted {n : Nat} (hn : d.work = .answer n) : (answerPermitted d n s).placesOk = true := by
  obtain ⟨hsound, htaken⟩ := h.dropAnswered hn
  have hconv : Sound (reportConverted d.station d.sequence .permit none
      (appendEntry (permitEntry d none .permit) (dropReferral n s))) := hsound.of_eq rfl rfl
  exact finishAnswer_placesOk hconv.endDecision
    (endDecision_placesOk hconv ((appendEntry_taken _ (dropReferral n s)).le.trans htaken)) _

theorem InHand.opAnswerEnd {n : Nat} (hn : d.work = .answer n) (failed : Option DenyReason) :
    (opAnswerEnd d n failed s).placesOk = true := by
  have hread := h.of_still (placementCondition_still d s)
  unfold Machine.opAnswerEnd
  split
  · exact h.answerFreed n
  · split
    · split
      · exact h.answerFreed n
      · exact h.answerDenied hn _
    · exact h.answerDenied hn _
    · dsimp only
      split
      · exact hread.answerDenied hn _
      · exact hread.answerPermitted hn

theorem InHand.answerOp (hs : Stores s) {n : Nat} (hn : d.work = .answer n) : (answerOp d n s).placesOk = true := by
  have hp : ∀ p : Phase, d.phase = p → d.phase.places = p.places := fun p hp => by rw [hp]
  unfold Machine.answerOp
  split <;> rename_i hphase
  · exact h.opRoom (hp _ hphase)
  · exact h.opMode (hp _ hphase)
  · exact h.opTamper (hp _ hphase)
  · exact h.opClock (hp _ hphase)
  · exact h.opBarState (hp _ hphase)
  · exact h.opBarTest hs (hp _ hphase)
  · exact h.opLocate (hp _ hphase)
  · exact h.opSearch (hp _ hphase)
  · exact h.opCount (hp _ hphase)
  · exact h.opPool (hp _ hphase)
  · exact h.opClaim (hp _ hphase)
  · exact h.opAdmission (hp _ hphase)
  · exact h.opAnswerEnd hn _
  all_goals exact h.answerFreed n

end

/-! ### The seat over a run of operations -/

/-- The invariant, in the two parts that the operations are followed in. -/
def Kept (s : State) : Prop := Stores s ∧ s.placesOk = true

theorem Kept.sound {s : State} (h : Kept s) : Sound s := Stores.sound h.1 h.2

theorem decisionOp_kept {s : State} (h : Kept s) : Kept (decisionOp s) := by
  refine ⟨(decisionOp_keeps (fun _ d hd => ?_) (Keeps.refl s)).2 h.1, ?_⟩
  · rintro ⟨slot, c⟩ hc
    have hin := inHand_of_seat h.sound h.2 hd
    unfold completingContext at hc
    split at hc
    next slot' hh =>
      obtain ⟨c', hc', he⟩ := Option.map_eq_some_iff.mp hc
      cases he
      exact hin.completing _ hh _ hc'
    all_goals cases hc
  · unfold decisionOp
    split
    · exact h.2
    next d hd =>
      have hin := inHand_of_seat h.sound h.2 hd
      split
      next side hw =>
        split
        · exact hin.endAbandoned
        · exact hin.requestOp h.1 hw
      next n hn =>
        split
        · exact hin.answerFreed n
        · exact hin.answerOp h.1 hn

theorem runDecision_kept (n : Nat) {s : State} (h : Kept s) : Kept (runDecision n s) := by
  induction n generalizing s with
  | zero => exact h
  | succ n ih =>
    unfold runDecision
    split
    · exact ih (decisionOp_kept h)
    · exact h

theorem runPaused_kept (pause : Pause) {s : State} (h : Kept s) : Kept (runPaused pause s) := by
  cases pause <;> exact runDecision_kept _ h

theorem takeHead_kept {s : State} (h : Kept s) : Kept (takeHead s) := by
  refine ⟨(takeHead_keeps (Keeps.refl s)).2 h.1, ?_⟩
  unfold takeHead
  split
  next r rest hseat _ _ =>
    split
    next hfree =>
      have hread := (presentMinute_still s).settled h.sound
      have hplaces := ((placesOk_iff h.sound).mp h.2).1
      simp only [State.freePlaces, State.heldPlaces, hseat, ← State.taken.eq_1] at hfree
      refine InHand.placesOk_setSeat (s := { (presentMinute s).2 with requests := rest }) ⟨hread.sound.of_eq rfl rfl, ?_,
        fun _ _ => (by decide : (2 : Nat) ≤ 2), fun _ hn => (nomatch hn), fun _ hh => nomatch hh⟩
      have htaken : ({ (presentMinute s).2 with requests := rest } : State).taken = (presentMinute s).2.taken := rfl
      have := hread.taken
      rw [htaken]
      simp only [Decision.ofRequest]
      omega
    next => exact h.2
  all_goals exact h.2

theorem takeAnswer_kept {s : State} (h : Kept s) : Kept (takeAnswer s) := by
  refine ⟨(takeAnswer_keeps (Keeps.refl s)).2 h.1, ?_⟩
  unfold takeAnswer
  split
  next e hseat he =>
    have hread := (presentMinute_still s).settled h.sound
    have hplaces := ((placesOk_iff h.sound).mp h.2).1
    have hans : s.answers e.reference := by
      refine ⟨e, List.mem_of_find?_eq_some he, rfl, ?_⟩
      have := List.find?_some he
      split at this
      · cases this
      next a ha => rwa [isAnswering_of_approval ha]
    refine InHand.placesOk_setSeat (s := (presentMinute s).2) ⟨hread.sound, ?_, fun _ hw => (nomatch hw), fun n hn => ?_, fun _ hh => nomatch hh⟩
    · have := hread.taken
      simp only [Decision.ofAnswer]
      omega
    · cases hn
      exact hread.answers _ hans
  all_goals exact h.2

end Sys2Proof.Machine

namespace Sys2Proof.Machine
open Sys2Proof

/-! ### Every other operation keeps the invariant -/

theorem Kept.of_settled {s t : State} (h : Kept s) (hk : Keeps s t) (hst : Settled s t) : Kept t :=
  ⟨hk.2 h.1, hst.placesOk h.sound h.2⟩

theorem Kept.of_still {s t : State} (h : Kept s) (hk : Keeps s t) (hst : Still s t) : Kept t :=
  h.of_settled hk (hst.settled h.sound)

/-- Nothing is queued, nothing is open, and the seat is IDLE. -/
def Blank (s : State) : Prop := s.seat = none ∧ s.verdicts = [] ∧ s.pairs = [] ∧ s.referrals = []

theorem Blank.placesOk {s : State} (h : Blank s) : s.placesOk = true := by
  obtain ⟨hseat, hv, hp, hr⟩ := h
  simp only [State.placesOk, State.reservations, State.openPairs, State.pair, State.heldPlaces, State.seatOk, hseat, hv, hp, hr]
  decide

theorem Blank.of_still {s t : State} (h : Blank s) (hst : Still s t) : Blank t := by
  obtain ⟨hseat, hv, hp, hr⟩ := h
  obtain ⟨-, -, hseat', hv', hp', hr'⟩ := hst
  exact ⟨hseat'.trans hseat, hv'.trans hv, hp'.trans hp, hr'.trans hr⟩

theorem Kept.of_blank {s t : State} (h : Kept s) (hk : Keeps s t) (hb : Blank t) : Kept t := ⟨hk.2 h.1, hb.placesOk⟩

/-! #### The decision in hand, changed by a notice -/

/-- The seat changed in fields that it does not count on. -/
theorem updateSeat_placesOk {s : State} (h : Sound s) (hp : s.placesOk = true) {f : Decision → Decision}
    (hf : ∀ d, (f d).heldPlaces = d.heldPlaces ∧ (f d).work = d.work ∧ (f d).phase = d.phase ∧
      (f d).holding = d.holding ∧ (f d).credential = d.credential) : (updateSeat f s).placesOk = true := by
  cases hd : s.seat with
  | none =>
    have hmap : s.seat.map f = s.seat := by rw [hd, Option.map_none]
    rwa [updateSeat, hmap]
  | some d =>
    obtain ⟨h1, h2, h3, h4, h5⟩ := hf d
    have : updateSeat f s = setSeat (f d) s := by simp only [updateSeat, hd, Option.map_some, setSeat]
    rw [this]
    exact ((inHand_of_seat h hp hd).alike h1 h2 h3 h4 h5).placesOk_setSeat

theorem overstay_fields (h : Handle) (d : Decision) : (d.overstay h).heldPlaces = d.heldPlaces ∧
    (d.overstay h).work = d.work ∧ (d.overstay h).phase = d.phase ∧ (d.overstay h).holding = d.holding ∧
    (d.overstay h).credential = d.credential := by
  unfold Decision.overstay
  split <;> exact ⟨rfl, rfl, rfl, rfl, rfl⟩

theorem marked_fields (m : WithdrawalMark) (d : Decision) : (d.marked m).heldPlaces = d.heldPlaces ∧
    (d.marked m).work = d.work ∧ (d.marked m).phase = d.phase ∧ (d.marked m).holding = d.holding ∧
    (d.marked m).credential = d.credential := by
  unfold Decision.marked
  split <;> exact ⟨rfl, rfl, rfl, rfl, rfl⟩

/-- What the Decision Engine does with each of its notices. -/
theorem engineRevoke_placesOk {s : State} (h : Sound s) (hp : s.placesOk = true) (handle : Handle) :
    (engineRevoke handle s).2.placesOk = true := by
  have hw := withdrawWhere_settled h (PermitData.holdsHandle handle) .revoked
  refine updateSeat_placesOk hw.sound (hw.placesOk h hp) fun d => ?_
  split
  · exact marked_fields _ d
  · exact ⟨rfl, rfl, rfl, rfl, rfl⟩

theorem engineBar_placesOk {s : State} (h : Sound s) (hp : s.placesOk = true) (c : Credential) :
    (engineBar c s).2.placesOk = true := by
  have hw := withdrawWhere_settled h (PermitData.holdsCredential c) .barred
  refine updateSeat_placesOk hw.sound (hw.placesOk h hp) fun d => ?_
  split
  · exact marked_fields _ d
  · exact ⟨rfl, rfl, rfl, rfl, rfl⟩

theorem engineMode_settled {s : State} (h : Sound s) (m : BuildingMode) : Settled s (engineMode m s).2 := by
  unfold engineMode
  split
  · exact withdrawWhere_settled h _ _
  all_goals exact .refl h

theorem engineLoss_placesOk {s : State} (h : Sound s) (hp : s.placesOk = true) (k : Nat) :
    (engineLoss k s).placesOk = true := by
  have hr := removeEntries_settled h (fun e => decide (e.station = k))
  refine updateSeat_placesOk hr.sound (hr.placesOk h hp) fun d => ?_
  split <;> exact ⟨rfl, rfl, rfl, rfl, rfl⟩

theorem engineStop_placesOk {s : State} (h : Sound s) (hp : s.placesOk = true) : (engineStop s).placesOk = true := by
  have hr := removeEntries_settled h (fun _ => true)
  exact updateSeat_placesOk hr.sound (hr.placesOk h hp) fun d => ⟨rfl, rfl, rfl, rfl, rfl⟩

/-! #### A block takes its notice -/

theorem onNotice_kept {b : Block} {kind : Notice → Bool} {act : Outstanding → State → State}
    (hact : ∀ o s, Kept s → Kept (act o s)) {s : State} (h : Kept s) : Kept (onNotice b kind act s) := by
  unfold onNotice
  split
  · split
    · exact h
    next o _ => exact hact o _ (h.of_still (takeNotice_keeps o (Keeps.refl s)) (takeNotice_still o s))
  · exact h

theorem reportTo_kept {s : State} (h : Kept s) (o : Outstanding) (r : Report) : Kept (reportTo o r s) :=
  h.of_still (reportTo_keeps o r (Keeps.refl s)) (reportTo_still o r s)

theorem blockRevoke_kept {s : State} (h : Kept s) (b : Block) (handle : Handle) : Kept (blockRevoke b handle s).2 := by
  refine ⟨(blockRevoke_keeps b handle (Keeps.refl s)).2 h.1, ?_⟩
  cases b with
  | decisionEngine => exact engineRevoke_placesOk h.sound h.2 handle
  | pairTable => exact (closePairs_settled h.sound _ _).placesOk h.sound h.2
  | referralQueue => exact (closeApprovals_settled h.sound _ _).placesOk h.sound h.2
  | presencePool => exact (poolRevoke_still handle s).placesOk h.sound h.2
  | requestQueue => exact h.2

theorem takeRevoke_kept (b : Block) (o : Outstanding) (s : State) (h : Kept s) : Kept (takeRevoke b o s) := by
  unfold takeRevoke
  split
  next handle _ => exact reportTo_kept (blockRevoke_kept h b handle) _ _
  all_goals exact h

theorem blockBar_kept {s : State} (h : Kept s) (b : Block) (c : Credential) : Kept (blockBar b c s).2 := by
  refine ⟨(blockBar_keeps b c (Keeps.refl s)).2 h.1, ?_⟩
  cases b with
  | decisionEngine => exact engineBar_placesOk h.sound h.2 c
  | pairTable => exact (closePairs_settled h.sound _ _).placesOk h.sound h.2
  | referralQueue => exact (closeApprovals_settled h.sound _ _).placesOk h.sound h.2
  | presencePool => exact (poolBar_still c s).placesOk h.sound h.2
  | requestQueue => exact h.2

theorem takeBar_kept (b : Block) (o : Outstanding) (s : State) (h : Kept s) : Kept (takeBar b o s) := by
  unfold takeBar
  split
  next c _ =>
    have hr := reportTo_kept (blockBar_kept h b c) o (blockBar b c s).1
    exact hr.of_still (passBar_keeps b o (Keeps.refl _)) (passBar_still b o _)
  all_goals exact h

theorem takeOverstay_kept (o : Outstanding) (s : State) (h : Kept s) : Kept (takeOverstay o s) := by
  refine ⟨(takeOverstay_keeps o (Keeps.refl s)).2 h.1, ?_⟩
  unfold takeOverstay
  split
  next handle _ =>
    have hpool := (poolOverstay_still handle s).settled h.sound
    exact updateSeat_placesOk hpool.sound (hpool.placesOk h.sound h.2) (overstay_fields handle)
  all_goals exact h.2

theorem takeLoss_kept (b : Block) (o : Outstanding) (s : State) (h : Kept s) : Kept (takeLoss b o s) := by
  refine ⟨(takeLoss_keeps b o (Keeps.refl s)).2 h.1, ?_⟩
  unfold takeLoss
  split
  next k _ =>
    cases b with
    | requestQueue => exact (removeRequests_still _ s).placesOk h.sound h.2
    | decisionEngine => exact engineLoss_placesOk h.sound h.2 k
    | pairTable => exact (closePairs_settled h.sound _ _).placesOk h.sound h.2
    | referralQueue => exact (closeApprovals_settled h.sound _ _).placesOk h.sound h.2
    | presencePool => exact h.2
  all_goals exact h.2

theorem blockStop_kept {s : State} (b : Block) (h : Kept s) : Kept (blockStop b s) := by
  refine ⟨(blockStop_keeps b (Keeps.refl s)).2 h.1, ?_⟩
  cases b with
  | requestQueue => exact (removeRequests_still _ s).placesOk h.sound h.2
  | decisionEngine => exact engineStop_placesOk h.sound h.2
  | pairTable => exact (closePairs_settled h.sound _ _).placesOk h.sound h.2
  | referralQueue => exact (closeApprovals_settled h.sound _ _).placesOk h.sound h.2
  | presencePool => exact h.2

theorem takeFault_kept (b : Block) (o : Outstanding) (s : State) (h : Kept s) : Kept (takeFault b o s) := by
  refine ⟨(takeFault_keeps b o (Keeps.refl s)).2 h.1, ?_⟩
  unfold takeFault
  split
  · cases b with
    | pairTable => exact (closePairs_settled h.sound _ _).placesOk h.sound h.2
    | referralQueue => exact (closeApprovals_settled h.sound _ _).placesOk h.sound h.2
    | requestQueue | decisionEngine | presencePool => exact h.2
  all_goals exact h.2

theorem blockMode_kept {s : State} (h : Kept s) (b : Block) (m : BuildingMode) : Kept (blockMode b m s).2 := by
  refine ⟨(blockMode_keeps b m (Keeps.refl s)).2 h.1, ?_⟩
  have hengine := (engineMode_settled h.sound m).placesOk h.sound h.2
  have hpairs := fun cause => (closePairs_settled h.sound (fun _ => true) cause).placesOk h.sound h.2
  have happs := fun cause => (closeApprovals_settled h.sound (fun _ _ => true) cause).placesOk h.sound h.2
  cases b with
  | decisionEngine => exact hengine
  | pairTable =>
    cases hm : modeCause m with
    | none => simpa only [blockMode, hm] using h.2
    | some cause => simpa only [blockMode, hm] using hpairs cause
  | referralQueue =>
    cases hm : modeCause m with
    | none => simpa only [blockMode, hm] using h.2
    | some cause => simpa only [blockMode, hm] using happs cause
  | requestQueue | presencePool => exact h.2

theorem takeMode_kept (b : Block) (o : Outstanding) (s : State) (h : Kept s) : Kept (takeMode b o s) := by
  unfold takeMode
  split
  next m _ => exact reportTo_kept (blockMode_kept h b m) _ _
  all_goals exact h

theorem takeUnbar_kept (o : Outstanding) (s : State) (h : Kept s) : Kept (takeUnbar o s) :=
  h.of_still (takeUnbar_keeps o (Keeps.refl s)) (takeUnbar_still o s)

theorem blockTamper_kept {s : State} (b : Block) (h : Kept s) : Kept (blockTamper b s) := by
  refine ⟨(blockTamper_keeps b (Keeps.refl s)).2 h.1, ?_⟩
  cases b with
  | decisionEngine =>
    have hw := withdrawWhere_settled h.sound (fun _ => true) .tamper
    exact hw.placesOk h.sound h.2
  | pairTable => exact (closePairs_settled h.sound _ _).placesOk h.sound h.2
  | referralQueue => exact (closeApprovals_settled h.sound _ _).placesOk h.sound h.2
  | presencePool => exact (poolTamper_still s).placesOk h.sound h.2
  | requestQueue => exact h.2

theorem takeTamper_kept {s : State} (b : Block) (o : Outstanding) (h : Kept s) :
    Kept (settleTamper (blockTamper b (takeNotice o s))) := by
  have htaken := h.of_still (takeNotice_keeps o (Keeps.refl s)) (takeNotice_still o s)
  have hblock := blockTamper_kept b htaken
  exact hblock.of_still (settleTamper_keeps (Keeps.refl _)) (settleTamper_still _)

theorem tamperNoticeStep_kept {s : State} (b : Block) (h : Kept s) : Kept (tamperNoticeStep b s) := by
  unfold tamperNoticeStep
  by_cases hrun : s.awake = true ∨ (b = .presencePool ∧ s.clearingRetained = false)
  · rw [if_pos hrun]
    cases s.outstanding b Notice.isTamper with
    | none => exact h
    | some o => exact takeTamper_kept b o h
  · rw [if_neg hrun]
    exact h

/-! #### The link, the ticks, and what times out -/

theorem handOver_settled {s : State} (h : Sound s) : Settled s (handOver s).2 := by
  have hsend : ∀ s (e : VerdictEntry), Still s (sendEntry e s) := fun s e => by
    have hfold : ∀ ids : List Nat, Still s (ids.foldl (fun s id => confirmRecord id s) s) := fun ids =>
      foldl_still (fun s id => confirmRecord_still id s) ids s
    unfold sendEntry
    split <;> simp [Still, hfold]
  obtain ⟨-, -, hseat, hv, hp, hr⟩ := foldl_still hsend (s.verdicts.take Config.markVerdicts)
    { s with verdicts := s.verdicts.drop Config.markVerdicts }
  exact settled_of_eq h hseat hp hr ((congrArg List.length hv).trans_le (by simp))

theorem sendMark_kept {s : State} (h : Kept s) : Kept (sendMark s) := by
  have hout := handOver_settled h.sound
  have hreleased := (releaseJabbers_still (handOver s).2).settled hout.sound
  exact h.of_settled (sendMark_keeps (Keeps.refl s))
    ((hout.trans hreleased).trans (settled_of_eq hreleased.sound rfl rfl rfl le_rfl))

theorem answerRepeat_kept {s : State} (h : Kept s) (k : Nat) (a : AnswerRecord) : Kept (answerRepeat k a s) := by
  refine ⟨(answerRepeat_keeps k a (Keeps.refl s)).2 h.1, ?_⟩
  unfold answerRepeat
  split
  next hfree =>
    obtain ⟨hplaces, hseat⟩ := (placesOk_iff h.sound).mp h.2
    simp only [State.freePlaces, ← State.taken.eq_1] at hfree
    refine (placesOk_iff (h.sound.appendEntry _)).mpr ⟨?_, hseat⟩
    rw [appendEntry_taken]
    have : ∀ e : VerdictEntry, (appendEntry e s).heldPlaces = s.heldPlaces := fun _ => rfl
    rw [this]
    omega
  next => exact h.2

theorem acceptContent_kept {s : State} (h : Kept s) (k : Nat) (c : FrameContent) : Kept (acceptContent k c s) := by
  unfold acceptContent
  split
  next q side credential =>
    have hplace : Kept (placeRequest ⟨k, q, side, credential⟩ s) :=
      h.of_still (placeRequest_keeps _ (Keeps.refl s)) (placeRequest_still _ s)
    unfold intake
    dsimp only
    split
    · exact h
    · split
      · exact h
      · split
        · exact hplace
        · split
          · split
            · exact answerRepeat_kept h _ _
            · exact h
          · exact hplace
  next e => exact h.of_still (acceptReport_keeps k e (Keeps.refl s)) (acceptReport_still k e s)
  next => exact h

theorem frameDone_kept {s : State} (h : Kept s) (k left : Nat) (heard : Bool) : Kept (frameDone k left heard s) :=
  h.of_still (frameDone_keeps k left heard (Keeps.refl s)) (frameDone_still k left heard s)

theorem receiveFrame_kept {s : State} (f : Option (Nat × FrameContent)) (h : Kept s) : Kept (receiveFrame f s) := by
  unfold receiveFrame
  split
  · split
    · exact h
    · exact h
    next k left heard _ =>
      split
      · exact frameDone_kept h k left heard
      next station c =>
        split
        · have hheard := h.of_still (hearStation_keeps k (Keeps.refl s)) (hearStation_still k s)
          exact frameDone_kept (acceptContent_kept hheard k c) k left true
        · exact frameDone_kept h k left heard
  · exact h

theorem onOpenTurn_kept {f : Nat → Bool → State → State} (hf : ∀ k heard s, Kept s → Kept (f k heard s)) {s : State}
    (h : Kept s) : Kept (onOpenTurn f s) := by
  unfold onOpenTurn
  split
  · split
    · exact h
    · exact h
    · exact hf _ _ _ h
  · exact h

theorem disturbTurn_kept {s : State} (h : Kept s) : Kept (disturbTurn s) :=
  onOpenTurn_kept (fun k _ s h => by
    have hmiss : Kept (missTurn k s) := h.of_still (missTurn_keeps k (Keeps.refl s)) (missTurn_still k s)
    exact hmiss.of_still (enterRecovering_keeps (Keeps.refl _)) (enterRecovering_still _)) h

theorem deliverTick_kept {s : State} (minuteBoundary : Bool) (h : Kept s) : Kept (deliverTick minuteBoundary s) := by
  refine ⟨(deliverTick_keeps minuteBoundary (Keeps.refl s)).2 h.1, ?_⟩
  have hpairs := tickPairs_settled h.sound
  have hticked := hpairs.trans (tickReferrals_settled hpairs.sound)
  unfold deliverTick
  split
  · dsimp only
    split
    · exact (hticked.trans ((sweepTrigger_still _).settled hticked.sound)).placesOk h.sound h.2
    · exact hticked.placesOk h.sound h.2
  · exact h.2

end Sys2Proof.Machine

namespace Sys2Proof.Machine
open Sys2Proof

/-! #### The commands of the Referral Queue -/

theorem opTakeReferral_kept {s : State} (h : Kept s) : Kept (opTakeReferral s) := by
  refine ⟨(opTakeReferral_keeps (Keeps.refl s)).2 h.1, ?_⟩
  have hdone : ∀ {t : State} (r : CommandResult), Settled s t → (finish r t).placesOk = true := fun r hst =>
    (finish_still r _).placesOk hst.sound (hst.placesOk h.sound h.2)
  unfold opTakeReferral
  split
  next e he =>
    have hmem := List.mem_of_find?_eq_some he
    have happ : e.isApproval = false := by simpa using List.find?_some he
    exact hdone _ (writeReferral_settled h.sound hmem rfl happ.symm
      fun hans => by rw [isAnswering_of_hotCard happ] at hans; cases hans)
  next =>
    split
    next e he =>
      have hmem := List.mem_of_find?_eq_some he
      have hna := isAnswering_of_isWaiting (List.find?_some he)
      have htaken : e.taken.reference = e.reference ∧ e.taken.isApproval = e.isApproval := by
        unfold ReferralEntry.taken
        split
        · exact ⟨rfl, rfl⟩
        next a ha => exact ⟨rfl, (isApproval_of_approval ha).symm⟩
      exact hdone _ (writeReferral_settled h.sound hmem htaken.1 htaken.2
        fun hans => by rw [hna] at hans; cases hans)
    next => exact (refuse_still .notFound s).placesOk h.sound h.2

theorem answerTaken_settled {s : State} (h : Sound s) {e : ReferralEntry} (he : e ∈ s.referrals) {a : ApprovalView}
    (ha : e.approval? = some a) (hst : a.state = .taken) (permit : Bool) : Settled s (answerTaken e a permit s) := by
  have happ := isApproval_of_approval ha
  unfold answerTaken
  split
  · have hwrite := writeReferral_settled h he (new := e.withApproval { a with state := .answering }) rfl happ.symm fun _ => by
      rw [isAnswering_of_approval (approval?_withApproval _ _)]
      rfl
    exact hwrite.trans (settled_of_eq hwrite.sound rfl rfl rfl le_rfl)
  · have hdeny := deniedApproval_settled h he happ (by simp [isAnswering_of_approval ha, hst]) .referralQueue .refusedByDesk
    exact hdeny.trans ((finishOk_still _).settled hdeny.sound)

theorem opAnswerReferral_kept {s : State} (h : Kept s) : Kept (opAnswerReferral s) := by
  refine ⟨(opAnswerReferral_keeps (Keeps.refl s)).2 h.1, ?_⟩
  have hrefuse : ∀ c, (refuse c s).placesOk = true := fun c => (refuse_still c s).placesOk h.sound h.2
  unfold opAnswerReferral
  dsimp only
  split
  · exact hrefuse _
  · split
    · exact hrefuse _
    · split
      · exact hrefuse _
      next e he =>
        split
        · exact hrefuse _
        next a ha =>
          split
          next hst => exact (answerTaken_settled h.sound (mem_of_referral he).1 ha hst _).placesOk h.sound h.2
          all_goals exact hrefuse _

theorem opClearHotCard_kept {s : State} (h : Kept s) : Kept (opClearHotCard s) := by
  refine ⟨(opClearHotCard_keeps (Keeps.refl s)).2 h.1, ?_⟩
  have hrefuse : ∀ c, (refuse c s).placesOk = true := fun c => (refuse_still c s).placesOk h.sound h.2
  unfold opClearHotCard
  dsimp only
  split
  · exact hrefuse _
  · split
    · exact hrefuse _
    next e he =>
      split
      · exact hrefuse _
      next happ =>
        obtain ⟨hmem, hr⟩ := mem_of_referral he
        have hdrop := dropReferral_settled h.sound hmem (isAnswering_of_hotCard (by simpa using happ))
        rw [hr] at hdrop
        exact (finishOk_still _).placesOk hdrop.sound (hdrop.placesOk h.sound h.2)

/-! #### The host's commands -/

theorem commandOwner_kept (code : BitVec 8) {s : State} (h : Kept s) : Kept (commandOwner code s) := by
  have hk := (commandOwner_keeps code (Keeps.refl s)).2 h.1
  have hstill : ∀ {op : State → State}, (∀ s, Still s (op s)) → (op s).placesOk = true := fun hop =>
    (hop s).placesOk h.sound h.2
  refine ⟨hk, ?_⟩
  generalize hop : commandOwner code = op
  unfold commandOwner at hop
  split at hop <;> subst hop
  case h_28 => exact (opTakeReferral_kept h).2
  case h_29 => exact (opAnswerReferral_kept h).2
  case h_30 => exact (opClearHotCard_kept h).2
  case h_23 => exact hstill (withBarSearch_still barCredential_still)
  case h_24 => exact hstill (withBarSearch_still unbarCredential_still)
  all_goals exact hstill fun s => by simp [Still]

theorem commandWrite_kept (code : BitVec 8) {owner : State → State} (hown : ∀ {s}, Kept s → Kept (owner s)) {s : State}
    (h : Kept s) : Kept (commandWrite code owner s) := by
  unfold commandWrite
  split
  · split
    · exact h.of_still (by simp [Keeps.refl]) (by simp [Still])
    · exact hown (h.of_still (by simp [Keeps.refl]) (by simp [Still]))
  · exact h

/-- A host's command in one operation. -/
theorem command_kept (code : BitVec 8) {s : State} (h : Kept s) : Kept (commandWrite code (commandOwner code) s) :=
  commandWrite_kept code (commandOwner_kept code) h

theorem ownStep_kept (w : CommandWork) {s : State} (h : Kept s) : Kept (ownStep w s) := by
  cases w with
  | handed code => exact commandOwner_kept code (h.of_still (by simp [Keeps.refl]) (by simp [Still]))
  | retire handle asked => exact h.of_still (retireStep_keeps handle asked (Keeps.refl s)) (retireStep_still handle asked s)
  | unbind k asked => exact h.of_still (unbindStep_keeps k asked (Keeps.refl s)) (unbindStep_still k asked s)
  | find key cursor found => exact h.of_still (findStep_keeps key cursor found (Keeps.refl s)) (findStep_still key cursor found s)
  | ready | revoke | bar | unbar | clearBar | setMode | stopLink | answer | reset => exact h

theorem runOwn_kept (n : Nat) {s : State} (h : Kept s) : Kept (runOwn n s) := by
  induction n generalizing s with
  | zero => exact h
  | succ n ih =>
    unfold runOwn
    split
    · exact h
    · exact ih (ownStep_kept _ h)

/-- A host's command that is a sequence of operations. -/
theorem sequence_kept (code : BitVec 8) (pause : Pause) {s : State} (h : Kept s) :
    Kept (sequenceCommand code (commandOwner code) pause s) :=
  commandWrite_kept code (fun h => by
    cases pause <;> exact runOwn_kept _ (commandOwner_kept code h)) h

theorem handCommand_kept (code : BitVec 8) {s : State} (h : Kept s) : Kept (handCommand code s) := by
  unfold handCommand
  split
  · exact h.of_still (by simp [Keeps.refl]) (by simp [Still])
  · exact commandOwner_kept code h

/-! #### Resets, the supply -/

theorem blankBlocks_blank (s : State) : Blank (blankBlocks s) := ⟨rfl, rfl, rfl, rfl⟩

theorem deviceReset_blank (s : State) : Blank (deviceReset s) := by
  have hblank : ∀ t, Blank { dropNotices (blankBlocks t) with trim := .of none } := fun t => by
    obtain ⟨hseat, hv, hp, hr⟩ := (blankBlocks_blank t).of_still (dropNotices_still _)
    exact ⟨hseat, hv, hp, hr⟩
  exact hblank _

theorem commandReset_blank (code : BitVec 8) (s : State) : Blank (commandReset code s) := by
  have hreset := deviceReset_blank { s with work := none }
  simp only [Blank] at hreset
  simp [Blank, commandReset, hreset]

theorem completeCommand_kept {s : State} (h : Kept s) : Kept (completeCommand s) := by
  have hk := completeCommand_keeps (Keeps.refl s)
  unfold completeCommand at hk ⊢
  split
  · split
    · exact h
    next w _ =>
      unfold continueCommand at hk ⊢
      split
      next code hc => exact ⟨(runReset_keeps code (Keeps.refl s)).2 h.1, (commandReset_blank code _).placesOk⟩
      · split
        · exact ownStep_kept w h
        next r _ => exact h.of_still (completePort_keeps r (Keeps.refl s)) (completePort_still r s)
  · exact h

theorem resetnLow_kept {s : State} (h : Kept s) :
    Kept (if s.resetLow then s
      else
        match s.supply with
        | .full => deviceReset { cutByReset s with resetLow := true }
        | .retainedOnly => { s with resetLow := true }) := by
  split
  · exact h
  · split
    · exact h.of_blank (deviceReset_keeps ((cutByReset_keeps (Keeps.refl s)).trans ⟨rfl, fun i => { i with }⟩))
        (deviceReset_blank _)
    · exact h.of_settled (by simp [Keeps.refl]) (settled_of_eq h.sound rfl rfl rfl le_rfl)

theorem resumeBlocks_kept {s : State} (h : Kept s) : Kept (resumeBlocks s) :=
  h.of_still (resumeBlocks_keeps (Keeps.refl s)) (resumeBlocks_still s)

theorem resetnHigh_kept {s : State} (h : Kept s) :
    Kept (if s.resetLow then
        match s.supply with
        | .full => resumeBlocks { s with resetLow := false, attention := s.attention ||| s.resetCauses, resetCauses := 0 }
        | .retainedOnly => { s with resetLow := false }
      else s) := by
  split
  · split
    · exact resumeBlocks_kept (h.of_settled (latchResetCauses_keeps (Keeps.refl s)) (settled_of_eq h.sound rfl rfl rfl le_rfl))
    · exact h.of_settled (by simp [Keeps.refl]) (settled_of_eq h.sound rfl rfl rfl le_rfl)
  · exact h

theorem mainSupplyFail_kept {s : State} (h : Kept s) :
    Kept (match s.supply with
      | .full => dropNotices (blankBlocks (vanishStations (emptyAttention { cutBySupply s with supply := .retainedOnly })))
      | .retainedOnly => s) := by
  split
  · refine h.of_blank ?_ ((blankBlocks_blank _).of_still (dropNotices_still _))
    exact dropNotices_keeps (blankBlocks_keeps (vanishStations_keeps (emptyAttention_keeps
      ((cutBySupply_keeps (Keeps.refl s)).trans ⟨rfl, fun i => { i with }⟩))))
  · exact h

theorem supplyReturned_kept {s : State} (h : Kept s) (backupHeld : Bool) :
    Kept (raise .supplyReturn (latchDeferred (deviceReset
      { testPattern backupHeld (cutByReset s) with supply := .full }))) :=
  h.of_blank (raise_keeps _ (latchDeferred_keeps (deviceReset_keeps
      ((testPattern_keeps backupHeld (cutByReset_keeps (Keeps.refl s))).trans ⟨rfl, fun i => { i with }⟩))))
    (((deviceReset_blank _).of_still (latchDeferred_still _)).of_still (raise_still _ _))

end Sys2Proof.Machine

namespace Sys2Proof.Machine
open Sys2Proof

/-! #### The rows -/

theorem secondBoundary_kept {s : State} (h : Kept s) :
    ∀ t, exec .secondBoundary s = .next t → Kept t := by
  rintro t ⟨⟩
  have hread := h.of_still (readClockItem_keeps (Keeps.refl s)) (readClockItem_still s)
  have hclock : Kept { (readClockItem s).2 with
      clock := .of { (readClockItem s).1 with calendar := (readClockItem s).1.calendar.nextSecond } } :=
    hread.of_settled ((Keeps.refl _).trans ⟨rfl, fun i => { i with }⟩) (settled_of_eq hread.sound rfl rfl rfl le_rfl)
  exact deliverTick_kept _ (hclock.of_still (applyTrim_keeps (Keeps.refl _)) (applyTrim_still _))

theorem pairExpiry_kept {s : State} (h : Kept s) (slot : Nat) : ∀ t, exec (.pairExpiry slot) s = .next t → Kept t := by
  rintro t ⟨⟩
  split
  · split
    · exact h
    next c hc =>
      split
      · exact h.of_settled (expirePair_keeps slot c (Keeps.refl s)) (expirePair_settled h.sound hc)
      · exact h
  · exact h

theorem referralTimeout_kept {s : State} (h : Kept s) (n : Nat) : ∀ t, exec (.referralTimeout n) s = .next t → Kept t := by
  rintro t ⟨⟩
  split
  · split
    · exact h
    next e he =>
      split
      · exact h
      next a ha =>
        split
        next hc =>
          exact h.of_settled (timeoutApproval_keeps e (Keeps.refl s))
            (timeoutApproval_settled h.sound (mem_of_referral he).1 ha hc.1)
        · exact h
  · exact h

theorem takeRequest_kept {s : State} (h : Kept s) (pause : Pause) : ∀ t, exec (.takeRequest pause) s = .next t → Kept t := by
  rintro t ⟨⟩
  split
  · dsimp only
    split
    · exact runPaused_kept pause (takeHead_kept h)
    · exact takeHead_kept h
  · exact h

theorem answerCheck_kept {s : State} (h : Kept s) (pause : Pause) : ∀ t, exec (.answerCheck pause) s = .next t → Kept t := by
  rintro t ⟨⟩
  split
  · dsimp only
    split
    · exact runPaused_kept pause (takeAnswer_kept h)
    · exact takeAnswer_kept h
  · exact h

theorem registerWrite_kept {s : State} (h : Kept s) (address : BitVec 7) (value : Word) :
    ∀ t, exec (.registerWrite address value) s = .next t → Kept t := by
  rintro t ⟨⟩
  split
  · split
    · exact commandWrite_kept _ (handCommand_kept _) h
    · split
      · exact h.of_still (writeMask_keeps value (Keeps.refl s)) (writeMask_still value s)
      · exact h.of_still (writeArgument_keeps address value (Keeps.refl s)) (writeArgument_still address value s)
  · exact h

theorem attentionRead_kept {s : State} (h : Kept s) (part : ReadPart) :
    ∀ t, exec (.attentionRead part) s = .next t → Kept t := by
  rintro t ⟨⟩
  have htake := h.of_still (takeAttention_keeps (Keeps.refl s)) (takeAttention_still s)
  split
  · split
    · exact htake.of_still (clearTaken_keeps (Keeps.refl _)) (clearTaken_still _)
    · exact htake
    · exact h.of_still (clearTaken_keeps (Keeps.refl s)) (clearTaken_still s)
    · exact h.of_still (dropTaken_keeps (Keeps.refl s)) (dropTaken_still s)
  · exact h

theorem lineLevelChange_kept {s : State} (h : Kept s) (line : AlarmLine) (asserted : Bool) :
    ∀ t, exec (.lineLevelChange line asserted) s = .next t → Kept t := by
  rintro t ⟨⟩
  have hpin : ∀ fire lockdown : Bool, Kept { s with firePin := fire, lockdownPin := lockdown } := fun _ _ =>
    h.of_settled ((Keeps.refl _).trans ⟨rfl, fun i => { i with }⟩) (settled_of_eq h.sound rfl rfl rfl le_rfl)
  have htake : ∀ {u : State}, Kept u → Kept (if u.awake then takeLine line asserted true u else u) := fun hu => by
    split
    · exact hu.of_still (takeLine_keeps line asserted true (Keeps.refl _)) (takeLine_still line asserted true _)
    · exact hu
  cases line with
  | fire => exact htake (hpin asserted s.lockdownPin)
  | lockdown => exact htake (hpin s.firePin asserted)

theorem mark_kept {s : State} (h : Kept s) (carrier : Bool) : ∀ t, exec (.mark carrier) s = .next t → Kept t := by
  rintro t ⟨⟩
  split
  · split
    · exact h.of_still (enterRecovering_keeps (Keeps.refl s)) (enterRecovering_still s)
    · exact sendMark_kept h
  · exact h

theorem turnStart_kept {s : State} (h : Kept s) : ∀ t, exec .turnStart s = .next t → Kept t := by
  rintro t ⟨⟩
  split
  next k _ =>
    split
    · exact h.of_still (startTurn_keeps k (Keeps.refl s)) (startTurn_still k s)
    · exact h
  all_goals exact h

theorem discardedFrame_kept {s : State} (h : Kept s) (line : HalfBits) :
    ∀ t, exec (.discardedFrame line) s = .next t → Kept t := by
  rintro t ⟨⟩
  unfold receiveCarrier
  split
  · exact disturbTurn_kept h
  · exact receiveFrame_kept _ h

theorem supplyReturn_kept {s : State} (h : Kept s) (backupHeld : Bool) :
    ∀ t, exec (.supplyReturn backupHeld) s = .next t → Kept t := by
  rintro t ⟨⟩
  have hret := supplyReturned_kept h backupHeld
  split
  · exact h
  · dsimp only
    split
    · exact hret
    · exact resumeBlocks_kept hret

/-- A row that does something where a condition holds, and is then an operation that leaves the places alone. -/
theorem Kept.still_if {s t : State} (h : Kept s) (p : Prop) [Decidable p] (hk : Keeps s t) (hst : Still s t) :
    Kept (if p then t else s) := by
  split
  · exact h.of_still hk hst
  · exact h

/-- Every row keeps the invariant. -/
theorem exec_kept {c : Instr} {s t : State} (h : Kept s) (hex : exec c s = .next t) : Kept t := by
  cases c with
  | retireGrant pause => cases hex; exact sequence_kept 0x15 pause h
  | findGrants pause => cases hex; exact sequence_kept 0x17 pause h
  | unbindStation pause => cases hex; exact sequence_kept 0x65 pause h
  | addGrant => cases hex; exact command_kept 0x10 h
  | amendGrant => cases hex; exact command_kept 0x11 h
  | suspendGrant => cases hex; exact command_kept 0x12 h
  | resumeGrant => cases hex; exact command_kept 0x13 h
  | revokeGrant => cases hex; exact command_kept 0x14 h
  | readGrant => cases hex; exact command_kept 0x16 h
  | setClock => cases hex; exact command_kept 0x20 h
  | readClock => cases hex; exact command_kept 0x21 h
  | shiftHour => cases hex; exact command_kept 0x22 h
  | trimClock => cases hex; exact command_kept 0x23 h
  | defineRoom => cases hex; exact command_kept 0x30 h
  | closeRoom => cases hex; exact command_kept 0x31 h
  | openRoom => cases hex; exact command_kept 0x32 h
  | deleteRoom => cases hex; exact command_kept 0x33 h
  | readRoom => cases hex; exact command_kept 0x34 h
  | listPresence => cases hex; exact command_kept 0x35 h
  | removePresence => cases hex; exact command_kept 0x36 h
  | resetCensus => cases hex; exact command_kept 0x37 h
  | setPairWindow => cases hex; exact command_kept 0x40 h
  | readPairContext => cases hex; exact command_kept 0x41 h
  | barCredential => cases hex; exact command_kept 0x48 h
  | unbarCredential => cases hex; exact command_kept 0x49 h
  | readBarList => cases hex; exact command_kept 0x4A h
  | clearBarList => cases hex; exact command_kept 0x4B h
  | setReferralTimeout => cases hex; exact command_kept 0x50 h
  | takeReferral => cases hex; exact command_kept 0x51 h
  | answerReferral => cases hex; exact command_kept 0x52 h
  | clearHotCard => cases hex; exact command_kept 0x53 h
  | configureLink => cases hex; exact command_kept 0x60 h
  | startLink => cases hex; exact command_kept 0x61 h
  | stopLink => cases hex; exact command_kept 0x62 h
  | readLink => cases hex; exact command_kept 0x63 h
  | bindStation => cases hex; exact command_kept 0x64 h
  | setStation => cases hex; exact command_kept 0x66 h
  | readStation => cases hex; exact command_kept 0x67 h
  | setMode => cases hex; exact command_kept 0x70 h
  | readMode => cases hex; exact command_kept 0x71 h
  | readHealth => cases hex; exact command_kept 0x78 h
  | clearHealth => cases hex; exact command_kept 0x79 h
  | acknowledgeTamper => cases hex; exact command_kept 0x7A h
  | clearRetained => cases hex; exact command_kept 0x7B h
  | deviceReset => cases hex; exact command_kept 0x7F h
  | badCommand word | commandWriteWhileBusy word => cases hex; exact command_kept (codeOf word) h
  | commandCompletion => cases hex; exact completeCommand_kept h
  | registerWrite address value => exact registerWrite_kept h address value t hex
  | attentionRead part => exact attentionRead_kept h part t hex
  | attentionMaskWrite value =>
    cases hex
    exact h.still_if _ (writeMask_keeps value (Keeps.refl s)) (writeMask_still value s)
  | resetnLow => cases hex; exact resetnLow_kept h
  | resetnHigh => cases hex; exact resetnHigh_kept h
  | mainSupplyFail => cases hex; exact mainSupplyFail_kept h
  | supplyReturn backupHeld => exact supplyReturn_kept h backupHeld t hex
  | lineLevelChange line asserted => exact lineLevelChange_kept h line asserted t hex
  | modeNotice block => cases hex; exact onNotice_kept (takeMode_kept block) h
  | tamperAssertion =>
    cases hex
    split
    · exact h
    · exact h.of_still (assertTamper_keeps (Keeps.refl s)) (assertTamper_still s)
  | tamperRelease =>
    cases hex
    exact h.of_settled ((Keeps.refl _).trans ⟨rfl, fun i => { i with }⟩) (settled_of_eq h.sound rfl rfl rfl le_rfl)
  | tamperNotice block => cases hex; exact tamperNoticeStep_kept block h
  | tamperSlotFree =>
    cases hex
    split
    · exact h
    · exact h.of_still (freeTamperSlot_keeps (Keeps.refl s)) (freeTamperSlot_still s)
  | secondBoundary => exact secondBoundary_kept h t hex
  | sweepVisit =>
    cases hex
    exact h.still_if _ (sweepStep_keeps (Keeps.refl s)) (sweepStep_still s)
  | overstayNotice => cases hex; exact onNotice_kept takeOverstay_kept h
  | pairExpiry slot => exact pairExpiry_kept h slot t hex
  | referralTimeout reference => exact referralTimeout_kept h reference t hex
  | takeRequest pause => exact takeRequest_kept h pause t hex
  | answerCheck pause => exact answerCheck_kept h pause t hex
  | revokeNotice block => cases hex; exact onNotice_kept (takeRevoke_kept block) h
  | barNotice block => cases hex; exact onNotice_kept (takeBar_kept block) h
  | unbarNotice => cases hex; exact onNotice_kept takeUnbar_kept h
  | lossNotice block => cases hex; exact onNotice_kept (takeLoss_kept block) h
  | stopNotice block => cases hex; exact onNotice_kept (fun _ _ h => blockStop_kept block h) h
  | faultNotice block => cases hex; exact onNotice_kept (takeFault_kept block) h
  | mark carrier => exact mark_kept h carrier t hex
  | turnStart => exact turnStart_kept h t hex
  | request station sequence side credential => cases hex; exact receiveFrame_kept _ h
  | report station entrance => cases hex; exact receiveFrame_kept _ h
  | idle station => cases hex; exact receiveFrame_kept _ h
  | discardedFrame line => exact discardedFrame_kept h line t hex
  | turnTimerExpiry =>
    cases hex
    exact onOpenTurn_kept (fun k heard s h => h.of_still (endTurn_keeps k heard (Keeps.refl s)) (endTurn_still k heard s)) h
  | jabber =>
    cases hex
    exact onOpenTurn_kept (fun k _ s h => h.of_still (jabberTurn_keeps k (Keeps.refl s)) (jabberTurn_still k s)) h
  | lineDisturbance => cases hex; exact disturbTurn_kept h
  | recoveryQuiet =>
    cases hex
    split
    · exact sendMark_kept h
    · exact h

/-- Settles O4: the stored items by the architect's relation, the places by the accounts above, row by row. -/
theorem stepKeepsTheInvariant : Obligations.StepKeepsTheInvariant := by
  unfold Obligations.StepKeepsTheInvariant
  intro s t hinv hstep
  obtain ⟨hs, hp⟩ := (inv_iff s).mp hinv
  refine (inv_iff t).mpr ?_
  unfold step at hstep
  split at hstep
  · cases hstep
    exact ⟨hs, hp⟩
  next c rest _ =>
    have hrest : Stores { s with pending := rest } := { hs with }
    exact exec_kept (s := { s with pending := rest }) ⟨hrest, hp⟩ hstep

end Sys2Proof.Machine

namespace Sys2Proof.Machine
open Sys2Proof

/-! ## The returned uses of a permit (R14) -/

/-- A slot once so many uses have been given back to its grant. -/
def Slot.returnedBy (x : Slot) (now : Minute) (n : Nat) : Slot :=
  match x.body.value.uses with
  | none => x
  | some u =>
    if x.header.value.state = .free ∨ x.header.value.state = .faulted ∨ n = 0 ∨ u.allowance ≤ u.remaining then x
    else
      ⟨.of ⟨if x.header.value.state = .spent then
          (if x.body.value.validFrom.atOrBefore now then .active else .pending)
        else x.header.value.state, x.header.value.issue⟩,
        .of { x.body.value with uses := some { u with remaining := min u.allowance (u.remaining + n) } }⟩

/-- The claims of a list that took a use of the grant in a slot. -/
def Slot.takenBy (x : Slot) (j : Nat) (claims : List Claim) : Nat :=
  (claims.filter (fun c => c.useTaken && decide (c.handle = ⟨j, x.header.value.issue⟩))).length

theorem slotAfterReturns_eq (s : State) (claims : List Claim) (j : Nat) : s.slotAfterReturns claims j =
    (s.slot j).returnedBy s.clock.value.calendar.minute ((s.slot j).takenBy j claims) := rfl

section
variable {x : Slot} {now : Minute} {u : Uses}

theorem Slot.returnedBy_of_unlimited (h : x.body.value.uses = none) (n : Nat) : x.returnedBy now n = x := by
  simp only [Slot.returnedBy, h]

theorem Slot.returnedBy_of_idle (hu : x.body.value.uses = some u) {n : Nat}
    (h : x.header.value.state = .free ∨ x.header.value.state = .faulted ∨ n = 0 ∨ u.allowance ≤ u.remaining) :
    x.returnedBy now n = x := by
  simp only [Slot.returnedBy, hu, if_pos h]

theorem Slot.returnedBy_of_taken (hu : x.body.value.uses = some u) {n : Nat}
    (h : ¬ (x.header.value.state = .free ∨ x.header.value.state = .faulted ∨ n = 0 ∨ u.allowance ≤ u.remaining)) :
    x.returnedBy now n = ⟨.of ⟨if x.header.value.state = .spent then
          (if x.body.value.validFrom.atOrBefore now then .active else .pending)
        else x.header.value.state, x.header.value.issue⟩,
        .of { x.body.value with uses := some { u with remaining := min u.allowance (u.remaining + n) } }⟩ := by
  simp only [Slot.returnedBy, hu, if_neg h]

end

theorem Slot.returnedBy_zero (x : Slot) (now : Minute) : x.returnedBy now 0 = x := by
  cases hu : x.body.value.uses with
  | none => exact Slot.returnedBy_of_unlimited hu 0
  | some u => exact Slot.returnedBy_of_idle hu (.inr (.inr (.inl rfl)))

theorem Slot.returnedBy_one (x : Slot) (now : Minute) : x.returnedBy now 1 = x.returned now := by
  unfold Slot.returnedBy Slot.returned
  cases hu : x.body.value.uses with
  | none => rfl
  | some u =>
    simp only [one_ne_zero, false_or]
    split
    · rfl
    · rename_i hno
      rw [Nat.min_eq_right (by omega)]

theorem Slot.returnedBy_issue (x : Slot) (now : Minute) (n : Nat) :
    (x.returnedBy now n).header.value.issue = x.header.value.issue := by
  unfold Slot.returnedBy
  split
  · rfl
  · split
    · rfl
    · rw [Voted.value_of]

theorem Slot.returnedBy_takenBy (x : Slot) (now : Minute) (n j : Nat) (claims : List Claim) :
    (x.returnedBy now n).takenBy j claims = x.takenBy j claims := by
  unfold Slot.takenBy
  rw [Slot.returnedBy_issue]

/-- Uses given back in two turns are those given back in one: the allowance bounds both alike, and a grant that was
SPENT is not SPENT any more. -/
theorem Slot.returnedBy_add (x : Slot) (now : Minute) (m n : Nat) :
    (x.returnedBy now m).returnedBy now n = x.returnedBy now (m + n) := by
  by_cases hm : m = 0
  · rw [hm, Slot.returnedBy_zero, Nat.zero_add]
  by_cases hn : n = 0
  · rw [hn, Slot.returnedBy_zero, Nat.add_zero]
  cases hu : x.body.value.uses with
  | none => rw [Slot.returnedBy_of_unlimited hu, Slot.returnedBy_of_unlimited hu, Slot.returnedBy_of_unlimited hu]
  | some u =>
    by_cases hi : x.header.value.state = .free ∨ x.header.value.state = .faulted ∨ u.allowance ≤ u.remaining
    · have hidle : ∀ k, x.returnedBy now k = x := fun k => Slot.returnedBy_of_idle hu (by tauto)
      rw [hidle, hidle, hidle]
    · obtain ⟨hf, hd, hlt⟩ : x.header.value.state ≠ .free ∧ x.header.value.state ≠ .faulted ∧ u.remaining < u.allowance := by
        simpa only [not_or, Nat.not_le] using hi
      have htaken : ∀ k, k ≠ 0 → ¬ (x.header.value.state = .free ∨ x.header.value.state = .faulted ∨ k = 0 ∨
          u.allowance ≤ u.remaining) := fun k hk => by
        rintro (hh | hh | hh | hh)
        · exact hf hh
        · exact hd hh
        · exact hk hh
        · omega
      rw [Slot.returnedBy_of_taken hu (htaken m hm), Slot.returnedBy_of_taken hu (htaken (m + n) (by omega))]
      have hst : ∀ st : GrantState, st = (if x.header.value.state = .spent then
          (if x.body.value.validFrom.atOrBefore now then GrantState.active else .pending) else x.header.value.state) →
          st ≠ .free ∧ st ≠ .faulted ∧ st ≠ .spent := by
        rintro st rfl
        by_cases hs : x.header.value.state = .spent
        · rw [if_pos hs]
          split <;> decide
        · rw [if_neg hs]
          exact ⟨hf, hd, hs⟩
      generalize hk : (if x.header.value.state = .spent then
          (if x.body.value.validFrom.atOrBefore now then GrantState.active else .pending) else x.header.value.state) = st at *
      obtain ⟨hsf, hsd, hss⟩ := hst st rfl
      simp only [Slot.returnedBy, Voted.value_of, Stored.of, hsf, hsd, hss, hn, false_or, if_false]
      split
      · rename_i hfull
        rw [Nat.min_eq_left (by omega), Nat.min_eq_left (by omega)]
      · rename_i hroom
        rw [show min u.allowance (min u.allowance (u.remaining + m) + n) = min u.allowance (u.remaining + (m + n)) by omega]

theorem Slot.takenBy_append (x : Slot) (j : Nat) (a b : List Claim) :
    x.takenBy j (a ++ b) = x.takenBy j a + x.takenBy j b := by
  unfold Slot.takenBy
  rw [List.filter_append, List.length_append]

/-! ### A state after returns -/

theorem slotAfterReturns_nil (s : State) (j : Nat) : s.slotAfterReturns [] j = s.slot j :=
  Slot.returnedBy_zero _ _

/-- Returns made in two turns are those of both lists of claims. -/
theorem slotAfterReturns_append {s t u : State} {a b : List Claim} {j : Nat} (hc : t.clock = s.clock)
    (ht : t.slot j = s.slotAfterReturns a j) (hu : u.slot j = t.slotAfterReturns b j) :
    u.slot j = s.slotAfterReturns (a ++ b) j := by
  rw [hu, slotAfterReturns_eq, ht, hc, slotAfterReturns_eq, slotAfterReturns_eq, Slot.returnedBy_takenBy,
    Slot.returnedBy_add, Slot.takenBy_append]

theorem givenBack_of_slots {s t : State} {claims : List Claim} (h : ∀ j, t.slot j = s.slotAfterReturns claims j) :
    givenBack claims s t := by
  rintro j st issue g hj hf hd rfl
  have hst : (s.slot j).header.value.state = st := by rw [hj]
  have hissue : (s.slot j).header.value.issue = issue := by rw [hj]
  rw [h, slotAfterReturns_eq, Slot.returnedBy_issue, hissue]
  refine ⟨rfl, ?_⟩
  have hn : (s.slot j).takenBy j claims =
      (claims.filter (fun c => c.useTaken && decide (c.handle = ⟨j, issue⟩))).length := by rw [← hissue]; rfl
  rw [← hn]
  generalize (s.slot j).takenBy j claims = n
  cases hu : (s.slot j).body.value.uses with
  | none => rw [Slot.returnedBy_of_unlimited hu, Option.map_none, ← hu]
  | some u =>
    by_cases hi : n = 0 ∨ u.allowance ≤ u.remaining
    · rw [Slot.returnedBy_of_idle hu (.inr (.inr hi))]
      have hr : (if u.allowance ≤ u.remaining then u.remaining else min u.allowance (u.remaining + n)) = u.remaining := by
        split <;> omega
      rw [Option.map_some, hr, ← hu]
    · rw [Slot.returnedBy_of_taken hu (by rw [hst]; tauto)]
      simp only [Option.map_some, if_neg (fun hle => hi (.inr hle))]

section
variable {s : State} (claims : List Claim) (hu : s.undamaged = true)
include hu

/-- The return of a claim's use, where it took one. -/
theorem returnClaim_clean (c : Claim) : (if c.useTaken then returnUse c.handle s else s).undamaged = true := by
  split
  · exact returnUse_undamaged hu
  · exact hu

theorem returnClaim_slot (hw : s.tablesWf = true) (c : Claim) (j : Nat) :
    (if c.useTaken then returnUse c.handle s else s).slot j = s.slotAfterReturns [c] j := by
  rw [slotAfterReturns_eq]
  by_cases ht : c.useTaken = true
  · rw [if_pos ht, returnUse_slot hu hw]
    by_cases hj : c.handle = ⟨j, (s.slot j).header.value.issue⟩
    · rw [if_pos ⟨by rw [hj], by rw [hj]⟩]
      simp only [Slot.takenBy, ht, hj, List.filter_cons, decide_true, Bool.and_self, if_true, List.filter_nil,
        List.length_singleton, Slot.returnedBy_one]
    · rw [if_neg (fun hh => hj (by
        obtain ⟨rfl, hissue⟩ := hh
        rw [hissue]))]
      simp [Slot.takenBy, hj, Slot.returnedBy_zero]
  · rw [if_neg ht]
    simp [Slot.takenBy, ht, Slot.returnedBy_zero]

theorem returnClaims_eq : returnClaims claims s = { s with grants := (returnClaims claims s).grants } := by
  unfold returnClaims
  induction claims generalizing s with
  | nil => rfl
  | cons c cs ih =>
    rw [List.foldl_cons]
    have hone : (if c.useTaken then returnUse c.handle s else s) =
        { s with grants := (if c.useTaken then returnUse c.handle s else s).grants } := by
      split
      · exact returnUse_eq hu
      · rfl
    have hrest := ih (returnClaim_clean hu c)
    rw [hone] at hrest ⊢
    exact hrest

theorem returnClaims_undamaged : (returnClaims claims s).undamaged = true := by
  unfold returnClaims
  induction claims generalizing s with
  | nil => exact hu
  | cons c cs ih => exact ih (returnClaim_clean hu c)

theorem returnClaims_tablesWf (hw : s.tablesWf = true) : (returnClaims claims s).tablesWf = true := by
  unfold returnClaims
  induction claims generalizing s with
  | nil => exact hw
  | cons c cs ih =>
    refine ih (returnClaim_clean hu c) ?_
    show (if c.useTaken then returnUse c.handle s else s).tablesWf = true
    split
    · exact returnUse_tablesWf hu hw
    · exact hw

theorem returnClaims_slot (hw : s.tablesWf = true) (j : Nat) :
    (returnClaims claims s).slot j = s.slotAfterReturns claims j := by
  induction claims generalizing s with
  | nil => rw [slotAfterReturns_nil]; rfl
  | cons c cs ih =>
    have hclock : (returnClaims [c] s).clock = s.clock := by rw [returnClaims_eq [c] hu]
    have hone : (returnClaims [c] s).slot j = s.slotAfterReturns [c] j := returnClaim_slot hu hw c j
    exact slotAfterReturns_append hclock hone
      (ih (s := returnClaims [c] s) (returnClaim_clean hu c) (returnClaims_tablesWf [c] hu hw))

end

end Sys2Proof.Machine

namespace Sys2Proof.Machine
open Sys2Proof

/-! ## Storage in order -/

/-- Every stored item reads clean and the tables are in their order. -/
structure Whole (s : State) : Prop where
  clean : s.undamaged = true
  wf : s.tablesWf = true

section
variable {s : State} (h : Whole s)
include h

theorem Whole.presence_wf : Table.wf PresenceRecord.free s.presence = true := ((tablesWf_iff s).mp h.wf).2.2.1

theorem Whole.rooms_wf : Table.wf Room.cleared s.rooms = true := ((tablesWf_iff s).mp h.wf).2.1

theorem Whole.setRecord (k : Nat) {v : PresenceRecord} (hv : v.undamaged = true) : Whole (s.setRecord k v) := by
  obtain ⟨hg, hr, hp, hs, hk⟩ := (tablesWf_iff s).mp h.wf
  exact ⟨setRecord_undamaged h.clean k hv, (tablesWf_iff _).mpr ⟨hg, hr, Table.wf_set _ hp k v, hs, hk⟩⟩

theorem Whole.setRoom (k : Nat) {v : Room} (hv : v.undamaged = true) : Whole (s.setRoom k v) := by
  obtain ⟨hg, hr, hp, hs, hk⟩ := (tablesWf_iff s).mp h.wf
  exact ⟨setRoom_undamaged h.clean k hv, (tablesWf_iff _).mpr ⟨hg, Table.wf_set _ hr k v, hp, hs, hk⟩⟩

theorem Whole.setStation (k : Nat) {v : Station} (hv : v.undamaged = true) : Whole (s.setStation k v) := by
  obtain ⟨hg, hr, hp, hs, hk⟩ := (tablesWf_iff s).mp h.wf
  exact ⟨setStation_undamaged h.clean k hv, (tablesWf_iff _).mpr ⟨hg, hr, hp, Table.wf_set _ hs k v, hk⟩⟩

theorem Whole.returnClaims (claims : List Claim) : Whole (returnClaims claims s) :=
  ⟨returnClaims_undamaged claims h.clean, returnClaims_tablesWf claims h.clean h.wf⟩

theorem Whole.inUseRecords_nodup : s.inUseRecords.Nodup := (Table.keys_nodup h.presence_wf).filter _

end

/-! ### A cause raised -/

section
variable {s : State} (h : s.deferred.clean = true)
include h

theorem raise_of_clean (c : Cause) : raise c s =
    if s.supply = .full then
      (if s.resetLow || s.resetting then { s with resetCauses := s.resetCauses ||| c.word }
        else { s with attention := s.attention ||| c.word })
    else if c.deferrable then { s with deferred := .of (s.deferred.value ||| c.word) } else s := by
  unfold raise
  cases hs : s.supply
  · rfl
  · simp only [h, if_true]
    rfl

/-- Raising a cause writes the latches, the causes kept for a reset's end, or the deferred causes. -/
theorem raise_eq (c : Cause) : raise c s = { s with
    attention := (raise c s).attention, resetCauses := (raise c s).resetCauses, deferred := (raise c s).deferred } := by
  rw [raise_of_clean h]
  split_ifs <;> rfl

theorem raise_deferred_clean (c : Cause) : (raise c s).deferred.clean = true := by
  rw [raise_of_clean h]
  split_ifs
  · exact h
  · exact h
  · exact Voted.clean_of _
  · exact h

/-- A cause raised again changes nothing more. -/
theorem raise_raise (c : Cause) : raise c (raise c s) = raise c s := by
  rw [raise_of_clean (raise_deferred_clean h c) c, raise_of_clean h]
  by_cases hs : s.supply = .full
  · by_cases hr : (s.resetLow || s.resetting) = true
    · simp only [if_pos hs, if_pos hr, BitVec.or_assoc, BitVec.or_self]
      rw [if_pos (by exact hr)]
    · simp only [if_pos hs, if_neg hr, BitVec.or_assoc, BitVec.or_self]
      rw [if_neg (by exact hr)]
  · cases hd : c.deferrable
    · simp only [if_neg hs, Bool.false_eq_true, if_false]
    · simp only [if_neg hs, if_true, Voted.value_of, BitVec.or_assoc, BitVec.or_self]

theorem raiseIf_eq (b : Bool) (c : Cause) : raiseIf b c s = { s with
    attention := (raiseIf b c s).attention, resetCauses := (raiseIf b c s).resetCauses,
    deferred := (raiseIf b c s).deferred } := by
  cases b
  · rfl
  · exact raise_eq h c

theorem raiseIf_raiseIf (a b : Bool) (c : Cause) : raiseIf b c (raiseIf a c s) = raiseIf (a || b) c s := by
  cases a <;> cases b
  · rfl
  · rfl
  · rfl
  · exact raise_raise h c

theorem raiseIf_deferred_clean (b : Bool) (c : Cause) : (raiseIf b c s).deferred.clean = true := by
  cases b
  · exact h
  · exact raise_deferred_clean h c

end

theorem raiseIf_whole {s : State} (h : Whole s) (b : Bool) (c : Cause) : Whole (raiseIf b c s) := by
  have hd := (Undamaged.of h.clean).deferred
  have hclean := raiseIf_deferred_clean hd b c
  rw [raiseIf_eq hd]
  exact ⟨(undamaged_iff _).mpr { Undamaged.of h.clean with deferred := hclean }, h.wf⟩

/-- The cause does not look at the Presence Pool or the Room Directory. -/
theorem raiseIf_pool (b : Bool) (c : Cause) (s : State) (p : Table PresenceRecord) (r : Table Room) :
    raiseIf b c { s with presence := p, rooms := r } = { raiseIf b c s with presence := p, rooms := r } := by
  cases b
  · rfl
  · show raise c { s with presence := p, rooms := r } = { raise c s with presence := p, rooms := r }
    unfold raise
    dsimp only
    split
    · by_cases hr : (s.resetLow || s.resetting) = true
      · rw [if_pos hr, if_pos (by exact hr)]
      · rw [if_neg hr, if_neg (by exact hr)]
    · cases hd : c.deferrable
      · rfl
      · cases hc : s.deferred.clean <;> rfl

/-! ## What an operation of the Presence Pool may change -/

/-- The operation has changed the Presence Pool and the Room Directory alone, and raised PRESENCE ALERT or not. -/
structure PoolChange (alert : Bool) (s t : State) : Prop where
  whole : Whole t
  frame : t = { raiseIf alert .presenceAlert s with presence := t.presence, rooms := t.rooms }

theorem PoolChange.refl {s : State} (h : Whole s) : PoolChange false s s := ⟨h, rfl⟩

theorem PoolChange.trans {a b : Bool} {s t u : State} (hs : Whole s) (h : PoolChange a s t) (k : PoolChange b t u) :
    PoolChange (a || b) s u := by
  refine ⟨k.whole, ?_⟩
  have hk := k.frame
  rw [h.frame, raiseIf_pool, raiseIf_raiseIf (Undamaged.of hs.clean).deferred] at hk
  exact hk

/-- Everything else stays. -/
theorem PoolChange.rest {a : Bool} {s t : State} (hs : Whole s) (h : PoolChange a s t) : t = { s with
    presence := t.presence, rooms := t.rooms, attention := t.attention, resetCauses := t.resetCauses,
    deferred := t.deferred } := by
  have hf := h.frame
  rw [raiseIf_eq (Undamaged.of hs.clean).deferred] at hf
  have ha := congrArg State.attention hf
  have hr := congrArg State.resetCauses hf
  have hd := congrArg State.deferred hf
  rw [ha, hr, hd]
  exact hf

/-- The attention latches of a part that is on. -/
theorem PoolChange.attention_of_awake {a : Bool} {s t : State} (ha : s.awake = true) (h : PoolChange a s t) :
    t.attention = if a then s.attention ||| Cause.presenceAlert.word else s.attention := by
  have hf := congrArg State.attention h.frame
  rw [hf]
  cases a
  · rfl
  · exact congrArg State.attention (raise_of_awake ha _)

theorem setRecord_change {s : State} (h : Whole s) (k : Nat) {v : PresenceRecord} (hv : v.undamaged = true) :
    PoolChange false s (s.setRecord k v) := ⟨h.setRecord k hv, rfl⟩

theorem setRoom_change {s : State} (h : Whole s) (k : Nat) {v : Room} (hv : v.undamaged = true) :
    PoolChange false s (s.setRoom k v) := ⟨h.setRoom k hv, rfl⟩

/-! ### Records whose bodies are marked -/

/-- The records have these bodies now, on the index parts they had; the rooms stay. -/
structure Marked (body : Nat → PresenceBody) (alert : Bool) (s t : State) : Prop where
  change : PoolChange alert s t
  rooms : t.rooms = s.rooms
  index : ∀ k, (t.record k).index = (s.record k).index
  body : ∀ k, (t.record k).body.value = body k

/-- The body of one record is another; the others stay. -/
def State.bodyWith (s : State) (id : Nat) (b : PresenceBody) (k : Nat) : PresenceBody :=
  if k = id then b else (s.record k).body.value

theorem Marked.index_eq {body : Nat → PresenceBody} {a : Bool} {s t : State} (h : Marked body a s t) (k : Nat) :
    t.index k = s.index k := congrArg Voted.value (h.index k)

theorem Marked.refl {s : State} (h : Whole s) : Marked (fun k => (s.record k).body.value) false s s :=
  ⟨.refl h, rfl, fun _ => rfl, fun _ => rfl⟩

theorem Marked.trans {B C : Nat → PresenceBody} {a b : Bool} {s t u : State} (hs : Whole s) (h : Marked B a s t)
    (k : Marked C b t u) : Marked C (a || b) s u :=
  ⟨h.change.trans hs k.change, k.rooms.trans h.rooms, fun i => (k.index i).trans (h.index i), k.body⟩

theorem Marked.congr {B C : Nat → PresenceBody} {a b : Bool} {s t : State} (h : Marked B a s t) (hb : ∀ k, B k = C k)
    (ha : a = b) : Marked C b s t :=
  ⟨ha ▸ h.change, h.rooms, h.index, fun k => (h.body k).trans (hb k)⟩

theorem raiseIf_marked {s : State} (h : Whole s) (b : Bool) :
    Marked (fun k => (s.record k).body.value) b s (raiseIf b .presenceAlert s) := by
  have hf := raiseIf_eq (Undamaged.of h.clean).deferred b .presenceAlert
  have hrec : ∀ k, (raiseIf b .presenceAlert s).record k = s.record k := fun k => by
    rw [hf]
    rfl
  exact ⟨⟨raiseIf_whole h b _, rfl⟩, by rw [hf], fun k => by rw [hrec], fun k => by rw [hrec]⟩

section
variable {s : State} (h : Whole s) (id : Nat)
include h

theorem Whole.index_clean : (s.record id).index.clean = true :=
  (Bool.and_eq_true_iff.mp (record_undamaged h.clean id)).1

theorem writePresenceBody_marked (b : PresenceBody) :
    Marked (s.bodyWith id b) false s (writePresenceBody id b s) := by
  have hv : PresenceRecord.undamaged { s.record id with body := .of b } = true := by
    simp [PresenceRecord.undamaged, h.index_clean, Stored.good]
  have hrec := record_setRecord (s := s) h.presence_wf id
  refine ⟨setRecord_change h id hv, rfl, fun k => ?_, fun k => ?_⟩
  · rw [writePresenceBody, hrec]
    split
    · rename_i hk
      rw [hk]
    · rfl
  · rw [writePresenceBody, hrec, State.bodyWith]
    split <;> rfl

/-- A condition set on a record whose body has been read: it stands, with PRESENCE ALERT where it is new on a SENT
record or one of the kinds that alert at once (R59). -/
theorem setCondition_marked (name : ConditionName) {b : PresenceBody} (hb : (s.record id).body.value = b) :
    Marked (s.bodyWith id { b with conditions := b.conditions.put true name })
      (!b.conditions.has name && ((s.index id).sent || name.alertsUnsent)) s (setCondition name id b s).2 := by
  unfold setCondition
  cases hc : b.conditions.has name
  · have hw := writePresenceBody_marked h id { b with conditions := b.conditions.put true name }
    exact (hw.trans h (raiseIf_marked hw.change.whole _)).congr hw.body (Bool.false_or _)
  · have hput : b.conditions.put true name = b.conditions := by
      cases name <;> simp_all [Conditions.has, Conditions.put] <;> rw [← hc]
    refine (Marked.refl h).congr (fun k => ?_) rfl
    rw [State.bodyWith, hput]
    split
    · rename_i hk
      rw [hk, hb]
    · rfl

omit h in
theorem setCondition_count (name : ConditionName) (b : PresenceBody) :
    (setCondition name id b s).1 = (!b.conditions.has name && (s.index id).sent) := by
  unfold setCondition
  cases b.conditions.has name <;> rfl

theorem clearCondition_marked (name : ConditionName) {b : PresenceBody} (hb : (s.record id).body.value = b) :
    Marked (s.bodyWith id { b with conditions := b.conditions.put false name }) false s (clearCondition name id b s).2 := by
  unfold clearCondition
  cases hc : b.conditions.has name
  · have hput : b.conditions.put false name = b.conditions := by
      cases name <;> simp_all [Conditions.has, Conditions.put] <;> rw [← hc]
    refine (Marked.refl h).congr (fun k => ?_) rfl
    rw [State.bodyWith, hput]
    split
    · rename_i hk
      rw [hk, hb]
    · rfl
  · exact writePresenceBody_marked h id _

omit h in
theorem clearCondition_count (name : ConditionName) (b : PresenceBody) :
    (clearCondition name id b s).1 = b.conditions.has name := by
  unfold clearCondition
  cases b.conditions.has name <;> rfl

end

/-! ### The walk over records that can be read -/

/-- The records of a list that can be read. -/
def State.readableOf (s : State) (ids : List Nat) : List Nat := ids.filter (fun k => !(s.index k).faulted)

/-- The bodies after a walk that changes each record of a list that can be read. -/
def State.bodiesAfter (s : State) (chg : PresenceBody → PresenceBody) (ids : List Nat) (k : Nat) : PresenceBody :=
  if k ∈ s.readableOf ids then chg (s.record k).body.value else (s.record k).body.value

/-- What an act on one record that can be read does and answers, by its index part and its body. -/
def ActsAs (act : Nat → PresenceBody → State → Bool × State) (chg : PresenceBody → PresenceBody)
    (alerts counts : PresenceIndex → PresenceBody → Bool) : Prop :=
  ∀ (id : Nat) (t : State), Whole t →
    Marked (t.bodyWith id (chg (t.record id).body.value)) (alerts (t.index id) (t.record id).body.value) t
      (act id (t.record id).body.value t).2 ∧
    (act id (t.record id).body.value t).1 = counts (t.index id) (t.record id).body.value

theorem mem_readableOf {s : State} {ids : List Nat} {k : Nat} :
    k ∈ s.readableOf ids ↔ k ∈ ids ∧ (s.index k).faulted = false := by
  simp [State.readableOf]

theorem any_congr_mem {α : Type} {l : List α} {p q : α → Bool} (h : ∀ a ∈ l, p a = q a) : l.any p = l.any q := by
  rw [Bool.eq_iff_iff, List.any_eq_true, List.any_eq_true]
  exact exists_congr fun a => and_congr_right fun ha => by rw [h a ha]

theorem forReadable_marked {act : Nat → PresenceBody → State → Bool × State} {chg : PresenceBody → PresenceBody}
    {alerts counts : PresenceIndex → PresenceBody → Bool} (hact : ActsAs act chg alerts counts) {s : State} (hs : Whole s)
    {ids : List Nat} (hn : ids.Nodup) :
    Marked (s.bodiesAfter chg ids) ((s.readableOf ids).any (fun k => alerts (s.index k) (s.record k).body.value)) s
        (forReadable act ids s).2 ∧
      (forReadable act ids s).1 =
        ((s.readableOf ids).filter (fun k => counts (s.index k) (s.record k).body.value)).length := by
  induction ids generalizing s with
  | nil => exact ⟨Marked.refl hs, rfl⟩
  | cons id ids ih =>
    obtain ⟨hid, hn⟩ := List.nodup_cons.mp hn
    simp only [forReadable, readPresenceBody_undamaged hs.clean]
    cases hf : (s.index id).faulted
    · obtain ⟨hone, hcount⟩ := hact id s hs
      have hread : s.readableOf (id :: ids) = id :: s.readableOf ids := by simp [State.readableOf, hf]
      generalize htt : (act id (s.record id).body.value s).2 = t at hone
      obtain ⟨hrest, hnum⟩ := ih hone.change.whole hn
      have hsame : t.readableOf ids = s.readableOf ids := by simp only [State.readableOf, hone.index_eq]
      have hbody : ∀ k ∈ ids, (t.record k).body.value = (s.record k).body.value := fun k hk => by
        rw [hone.body, State.bodyWith, if_neg (fun hh : k = id => hid (hh ▸ hk))]
      have hat : ∀ (p : PresenceIndex → PresenceBody → Bool) (k : Nat), k ∈ s.readableOf ids →
          p (t.index k) (t.record k).body.value = p (s.index k) (s.record k).body.value := fun p k hk => by
        rw [hone.index_eq, hbody k (mem_readableOf.mp hk).1]
      constructor
      · simp only [Bool.false_eq_true, if_false, htt]
        refine (hone.trans hs hrest).congr (fun k => ?_) ?_
        · unfold State.bodiesAfter
          rw [hsame, hread]
          by_cases hk : k = id
          · subst hk
            rw [if_neg (fun hh => hid (mem_readableOf.mp hh).1), if_pos List.mem_cons_self, hone.body, State.bodyWith,
              if_pos rfl]
          · have hkb : (t.record k).body.value = (s.record k).body.value := by
              rw [hone.body, State.bodyWith, if_neg hk]
            simp only [List.mem_cons, hk, false_or, hkb]
        · rw [hread, List.any_cons, hsame]
          congr 1
          exact any_congr_mem fun k hk => hat alerts k hk
      · simp only [Bool.false_eq_true, if_false, htt, hnum, hcount, hread, hsame, List.filter_cons]
        rw [List.filter_congr (fun k hk => hat counts k hk)]
        cases counts (s.index id) (s.record id).body.value <;> rfl
    · have hread : s.readableOf (id :: ids) = s.readableOf ids := by simp [State.readableOf, hf]
      obtain ⟨hrest, hnum⟩ := ih hs hn
      simp only [if_true]
      rw [hread]
      refine ⟨hrest.congr (fun k => ?_) rfl, hnum⟩
      unfold State.bodiesAfter
      rw [hread]

end Sys2Proof.Machine

namespace Sys2Proof.Machine
open Sys2Proof

/-! ## Notices -/

theorem mem_inUseRecords {s : State} {id : Nat} : id ∈ s.inUseRecords ↔ (s.index id).inUse = true := by
  refine List.mem_filter.trans ⟨And.right, fun h => ⟨?_, h⟩⟩
  by_contra hk
  have hrec : s.record id = PresenceRecord.free := Table.get_of_not_mem _ hk
  rw [State.index, hrec] at h
  simp [PresenceRecord.free] at h

/-- The state as a block takes its notice from between `l1` and `l2`. -/
def State.taking (s : State) (l1 l2 : List Outstanding) : State := { s with notices := l1 ++ l2 }

section
variable {s : State} {b : Block} {n : Notice} {cmd : Bool} {l1 l2 : List Outstanding} {kind : Notice → Bool}

/-- A kind of notices is those of one row. -/
def KindOf (kind : Notice → Bool) (n : Notice) (b : Block) : Prop :=
  ∀ m, kind m = true ↔ noticeRow m b = noticeRow n b

theorem outstanding_of_oldest (h : s.oldest l1 b n cmd l2) (hk : KindOf kind n b) :
    s.outstanding b kind = some ⟨b, n, cmd⟩ := by
  obtain ⟨hl, hold⟩ := h
  rw [State.outstanding, hl, List.find?_append, List.find?_eq_none.mpr]
  · simp [(hk n).mpr rfl]
  · intro o ho
    simp only [Bool.and_eq_true, decide_eq_true_eq, not_and]
    exact fun hb hkind => hold o ho hb ((hk _).mp hkind)

theorem takeNotice_of_oldest (h : s.oldest l1 b n cmd l2) : takeNotice ⟨b, n, cmd⟩ s = s.taking l1 l2 := by
  obtain ⟨hl, hold⟩ := h
  have hnot : (⟨b, n, cmd⟩ : Outstanding) ∉ l1 := fun ho => hold _ ho rfl rfl
  rw [takeNotice, hl, List.erase_append_right _ hnot, List.erase_cons_head]
  rfl

theorem onNotice_of_oldest (ha : s.awake = true) (h : s.oldest l1 b n cmd l2) (hk : KindOf kind n b)
    (act : Outstanding → State → State) : onNotice b kind act s = act ⟨b, n, cmd⟩ (s.taking l1 l2) := by
  simp only [onNotice, ha, if_true, outstanding_of_oldest h hk, takeNotice_of_oldest h]

theorem tamperNoticeStep_of_oldest (ha : s.awake = true) (h : s.oldest l1 b .tamper cmd l2) :
    tamperNoticeStep b s = settleTamper (blockTamper b (s.taking l1 l2)) := by
  have hk : KindOf Notice.isTamper .tamper b := fun m => by cases m <;> simp [Notice.isTamper, noticeRow]
  simp only [tamperNoticeStep, ha, true_or, if_true, outstanding_of_oldest h hk, takeNotice_of_oldest h]

end

theorem Whole.taking {s : State} (h : Whole s) (l1 l2 : List Outstanding) : Whole (s.taking l1 l2) := ⟨h.clean, h.wf⟩

section
variable (b : Block)

theorem kindOf_revoke (h : Handle) : KindOf Notice.isRevoke (.revoke h) b := fun m => by
  cases m <;> simp [Notice.isRevoke, noticeRow]

theorem kindOf_bar (c : Credential) : KindOf Notice.isBar (.bar c) b := fun m => by
  cases m <;> simp [Notice.isBar, noticeRow]

theorem kindOf_unbar (c : Credential) : KindOf Notice.isUnbar (.unbar c) b := fun m => by
  cases m <;> simp [Notice.isUnbar, noticeRow]

theorem kindOf_overstay (h : Handle) : KindOf Notice.isOverstay (.overstay h) b := fun m => by
  cases m <;> simp [Notice.isOverstay, noticeRow]

theorem kindOf_loss (k : Nat) : KindOf Notice.isLoss (.loss k) b := fun m => by
  cases m <;> simp [Notice.isLoss, noticeRow]

theorem kindOf_stop : KindOf Notice.isStop .stop b := fun m => by
  cases m <;> simp [Notice.isStop, noticeRow]

theorem kindOf_mode (x : BuildingMode) : KindOf Notice.isMode (.mode x) b := fun m => by
  cases m <;> simp [Notice.isMode, noticeRow]

end

theorem reportTo_eq (o : Outstanding) (r : Report) (s : State) : reportTo o r s =
    { s with work := if o.ofCommand then s.work.map (fun w => w.add r) else s.work } := by
  unfold reportTo
  split <;> rfl

/-! ## The Presence Pool takes a notice (R59, R60) -/

/-- A body with a condition set. -/
def PresenceBody.withCondition (b : PresenceBody) (name : ConditionName) : PresenceBody :=
  { b with conditions := b.conditions.put true name }

theorem withCondition_ne {b : PresenceBody} {name : ConditionName} :
    decide (b.withCondition name ≠ b) = !b.conditions.has name := by
  obtain ⟨c, h, e, k, p, cond⟩ := b
  obtain ⟨c1, c2, c3, c4, c5⟩ := cond
  cases name <;> simp [PresenceBody.withCondition, Conditions.put, Conditions.has]

/-- A walk over every record in use that can be read changes the bodies as its notice says. -/
structure WalkOf (n : Notice) (chg : PresenceBody → PresenceBody) (alertsUnsent : Bool)
    (act : Nat → PresenceBody → State → Bool × State) : Prop where
  acts : ActsAs act chg (fun i b => decide (chg b ≠ b) && (i.sent || alertsUnsent)) (fun i b => decide (chg b ≠ b) && i.sent)
  marks : ∀ s id, markedBody n s id =
    if (s.index id).inUse = true ∧ (s.index id).faulted = false then chg (s.record id).body.value else (s.record id).body.value

section
variable {n : Notice} {chg : PresenceBody → PresenceBody} {au : Bool} {act : Nat → PresenceBody → State → Bool × State}
  {s : State}

theorem mem_changedBy {id : Nat} :
    id ∈ s.changedBy n ↔ (s.index id).inUse = true ∧ markedBody n s id ≠ (s.record id).body.value := by
  rw [State.changedBy, List.mem_filter, mem_inUseRecords, decide_eq_true_eq]

theorem markedBody_inUse {id : Nat} (h : markedBody n s id ≠ (s.record id).body.value) : (s.index id).inUse = true := by
  by_contra hn
  refine h ?_
  unfold markedBody
  rw [if_neg (fun hh => hn hh.1)]

theorem WalkOf.bodies (h : WalkOf n chg au act) (id : Nat) :
    s.bodiesAfter chg s.inUseRecords id = markedBody n s id := by
  rw [h.marks, State.bodiesAfter]
  simp only [mem_readableOf, mem_inUseRecords]

/-- The readable records that the walk changes are those whose body the notice changes. -/
theorem WalkOf.changed (h : WalkOf n chg au act) : (s.readableOf s.inUseRecords).filter
    (fun k => decide (chg (s.record k).body.value ≠ (s.record k).body.value)) = s.changedBy n := by
  rw [State.readableOf, List.filter_filter, State.changedBy]
  refine List.filter_congr fun k hk => ?_
  rw [h.marks]
  simp only [mem_inUseRecords.mp hk, true_and]
  cases hf : (s.index k).faulted <;> simp

theorem WalkOf.walk (h : WalkOf n chg au act) (hs : Whole s) :
    Marked (markedBody n s) ((s.changedBy n).any (fun k => (s.index k).sent || au)) s
        (forReadable act s.inUseRecords s).2 ∧
      (forReadable act s.inUseRecords s).1 = ((s.changedBy n).filter (fun k => (s.index k).sent)).length := by
  obtain ⟨hm, hc⟩ := forReadable_marked h.acts hs hs.inUseRecords_nodup
  refine ⟨hm.congr h.bodies ?_, ?_⟩
  · rw [← h.changed, List.any_filter]
  · rw [hc, ← h.changed, List.filter_filter]
    exact congrArg List.length (List.filter_congr fun k _ => Bool.and_comm _ _)

end

/-- Setting a condition on each record that holds a handle. -/
theorem holders_acts (h : Handle) (name : ConditionName) :
    ActsAs (fun id b s => if b.handle = some h then setCondition name id b s else (false, s))
      (fun b => if b.handle = some h then b.withCondition name else b)
      (fun i b => decide ((if b.handle = some h then b.withCondition name else b) ≠ b) && (i.sent || name.alertsUnsent))
      (fun i b => decide ((if b.handle = some h then b.withCondition name else b) ≠ b) && i.sent) := by
  intro id t ht
  by_cases hh : (t.record id).body.value.handle = some h
  · simp only [if_pos hh, withCondition_ne]
    exact ⟨setCondition_marked ht id name rfl, setCondition_count id name _⟩
  · simp only [if_neg hh, ne_eq, not_true, decide_false, Bool.false_and, and_true]
    refine (Marked.refl ht).congr (fun k => ?_) rfl
    unfold State.bodyWith
    split
    · rename_i hk
      rw [hk]
    · rfl

theorem revoke_walk (h : Handle) : WalkOf (.revoke h)
    (fun b => if b.handle = some h then b.withCondition .grantRevoked else b) false
    (fun id b s => if b.handle = some h then setCondition .grantRevoked id b s else (false, s)) :=
  ⟨holders_acts h .grantRevoked, fun _ _ => rfl⟩

theorem overstay_walk (h : Handle) : WalkOf (.overstay h)
    (fun b => if b.handle = some h then b.withCondition .overstay else b) true
    (fun id b s => if b.handle = some h then setCondition .overstay id b s else (false, s)) :=
  ⟨holders_acts h .overstay, fun _ _ => rfl⟩

theorem forHolders_eq {s : State} (hs : Whole s) (h : Handle) (act : Nat → PresenceBody → State → Bool × State) :
    forHolders h act s = forReadable (fun id b s => if b.handle = some h then act id b s else (false, s)) s.inUseRecords s := by
  simp only [forHolders, forHoldersIn, scanIndexes_undamaged hs.clean]

/-! ### The bar notice and the unbar notice -/

theorem locateIn_inUse {s : State} {c : Credential} {id : Nat} (h : s.locateIn c s.inUseRecords = some id) :
    (s.index id).inUse = true ∧ (s.index id).faulted = false := by
  obtain ⟨hmem, hp⟩ := And.intro (List.mem_of_find?_eq_some h) (List.find?_some h)
  simp only [Bool.and_eq_true, Bool.not_eq_true'] at hp
  exact ⟨mem_inUseRecords.mp hmem, hp.1⟩

/-- A notice to the one record a locate finds. -/
theorem changedBy_of_one {s : State} (hs : Whole s) {n : Notice} {id : Nat} {b : PresenceBody}
    (hid : (s.index id).inUse = true) (hm : ∀ k, markedBody n s k = s.bodyWith id b k) :
    s.changedBy n = if b = (s.record id).body.value then [] else [id] := by
  have hfilter : s.changedBy n = (s.inUseRecords.filter (· = id)).filter (fun _ => decide (b ≠ (s.record id).body.value)) := by
    rw [List.filter_filter, State.changedBy]
    refine List.filter_congr fun k _ => ?_
    rw [hm, State.bodyWith]
    by_cases hk : k = id
    · subst hk
      simp
    · simp [hk]
  rw [hfilter, List.filter_eq, List.count_eq_one_of_mem hs.inUseRecords_nodup (mem_inUseRecords.mpr hid)]
  by_cases hb : b = (s.record id).body.value <;> simp [hb]

theorem changedBy_of_none {s : State} {n : Notice} (hm : ∀ k, markedBody n s k = (s.record k).body.value) :
    s.changedBy n = [] := by
  rw [State.changedBy, List.filter_eq_nil_iff]
  exact fun k _ => by simp [hm]

section
variable {s : State} (hs : Whole s) (c : Credential)
include hs

/-- The bar notice marks the record a locate finds. -/
theorem poolBar_marked : Marked (markedBody (.bar c) s) ((s.changedBy (.bar c)).any (fun k => (s.index k).sent)) s
      (poolBar c s).2 ∧
    (poolBar c s).1.toNat = ((s.changedBy (.bar c)).filter (fun k => (s.index k).sent)).length := by
  simp only [poolBar, locate_undamaged hs.clean]
  cases hl : s.locateIn c s.inUseRecords with
  | none =>
    have hm : ∀ k, markedBody (.bar c) s k = (s.record k).body.value := fun k => by simp [markedBody, hl]
    rw [changedBy_of_none hm]
    exact ⟨(Marked.refl hs).congr (fun k => (hm k).symm) rfl, rfl⟩
  | some id =>
    have hin := locateIn_inUse hl
    have hm : ∀ k, markedBody (.bar c) s k = s.bodyWith id ((s.record id).body.value.withCondition .barred) k := fun k => by
      by_cases hk : k = id
      · subst hk
        simp [markedBody, hl, hin, State.bodyWith, PresenceBody.withCondition, Conditions.put]
      · simp [markedBody, hl, State.bodyWith, hk, Ne.symm hk]
    have hch := changedBy_of_one hs hin.1 hm
    have hne := withCondition_ne (b := (s.record id).body.value) (name := .barred)
    have hset := setCondition_marked hs id .barred rfl
    rw [hch]
    refine ⟨hset.congr (fun k => (hm k).symm) ?_, ?_⟩
    · rw [← hne]
      by_cases hb : (s.record id).body.value.withCondition .barred = (s.record id).body.value <;>
        simp [hb, ConditionName.alertsUnsent]
    · simp only [setCondition_count, ← hne]
      by_cases hb : (s.record id).body.value.withCondition .barred = (s.record id).body.value
      · simp [hb]
      · cases hsent : (s.index id).sent <;> simp [hb, hsent]

/-- The unbar notice clears the record a locate finds. -/
theorem poolUnbar_marked : Marked (markedBody (.unbar c) s) false s (poolUnbar c s).2 ∧
    (poolUnbar c s).1.toNat = (s.changedBy (.unbar c)).length := by
  simp only [poolUnbar, locate_undamaged hs.clean]
  cases hl : s.locateIn c s.inUseRecords with
  | none =>
    have hm : ∀ k, markedBody (.unbar c) s k = (s.record k).body.value := fun k => by simp [markedBody, hl]
    rw [changedBy_of_none hm]
    exact ⟨(Marked.refl hs).congr (fun k => (hm k).symm) rfl, rfl⟩
  | some id =>
    have hin := locateIn_inUse hl
    have hm : ∀ k, markedBody (.unbar c) s k = s.bodyWith id { (s.record id).body.value with
        conditions := (s.record id).body.value.conditions.put false .barred } k := fun k => by
      by_cases hk : k = id
      · subst hk
        simp [markedBody, hl, hin, State.bodyWith, Conditions.put]
      · simp [markedBody, hl, State.bodyWith, hk, Ne.symm hk]
    refine ⟨(clearCondition_marked hs id .barred rfl).congr (fun k => (hm k).symm) rfl, ?_⟩
    rw [changedBy_of_one hs hin.1 hm, clearCondition_count]
    obtain ⟨cr, h, e, k, p, cond⟩ := (s.record id).body.value
    obtain ⟨c1, c2, c3, c4, c5⟩ := cond
    cases c4 <;> simp [Conditions.put, Conditions.has]

end

end Sys2Proof.Machine

namespace Sys2Proof.Machine
open Sys2Proof

/-! ### The marking for the tamper notice (R60, R168) -/

/-- The body as the marking for the tamper notice leaves it. -/
def PresenceBody.cleared (b : PresenceBody) : PresenceBody := PresenceBody.withCondition { b with handle := none } .grantCleared

theorem tamper_acts : ActsAs (fun id b s => setCondition .grantCleared id { b with handle := none }
      (writePresenceBody id { b with handle := none } s)) PresenceBody.cleared
    (fun i b => !b.conditions.grantCleared && (i.sent || false)) (fun i b => !b.conditions.grantCleared && i.sent) := by
  intro id t ht
  have hw := writePresenceBody_marked ht id { (t.record id).body.value with handle := none }
  have hb := (hw.body id).trans (if_pos rfl)
  have hset := setCondition_marked hw.change.whole id .grantCleared hb
  refine ⟨(hw.trans ht hset).congr (fun k => ?_) ?_, ?_⟩
  · unfold State.bodyWith
    by_cases hk : k = id
    · rw [if_pos hk, if_pos hk]
      rfl
    · rw [if_neg hk, if_neg hk, hw.body, State.bodyWith, if_neg hk]
  · rw [hw.index_eq]
    rfl
  · rw [setCondition_count, hw.index_eq]
    rfl

theorem poolTamper_marked {s : State} (hs : Whole s) :
    Marked (markedBody .tamper s) ((s.readableOf s.unmarked).any (fun k =>
        !(s.record k).body.value.conditions.grantCleared && ((s.index k).sent || false))) s (markCleared s.unmarked s) ∧
      poolTamper s = { markCleared s.unmarked s with markedTo := 0 } := by
  have hn : s.unmarked.Nodup := hs.inUseRecords_nodup.filter _
  refine ⟨(forReadable_marked tamper_acts hs hn).1.congr (fun k => ?_) rfl, ?_⟩
  · simp only [State.bodiesAfter, mem_readableOf, State.unmarked, List.mem_filter, mem_inUseRecords, decide_eq_true_eq,
      markedBody]
    by_cases hin : (s.index k).inUse = true <;> by_cases hf : (s.index k).faulted = false <;>
      by_cases hto : s.markedTo ≤ k <;> simp [hin, hf, hto, PresenceBody.cleared, PresenceBody.withCondition, Conditions.put]
  · unfold poolTamper
    rw [scanIndexes_undamaged hs.clean]

theorem clearsASentRecord_iff (s : State) : s.clearsASentRecord ↔
    (s.readableOf s.unmarked).any (fun k =>
      !(s.record k).body.value.conditions.grantCleared && ((s.index k).sent || false)) = true := by
  simp only [State.clearsASentRecord, List.any_eq_true, mem_readableOf, State.unmarked, List.mem_filter,
    decide_eq_true_eq, Bool.and_eq_true, Bool.not_eq_true', Bool.or_false, and_assoc]
  exact exists_congr fun k => by tauto

/-! ### The end of a tamper clear -/

/-- What the end of a tamper clear may write, in a part that is on. -/
structure TamperSettled (s t : State) : Prop where
  frame : t = { s with tamper := t.tamper, markedTo := t.markedTo, notices := t.notices, attention := t.attention }
  markedTo : t.markedTo = s.markedTo ∨ t.markedTo = 0
  alert : t.latched .presenceAlert = s.latched .presenceAlert

theorem settleTamper_settled {s : State} (hu : s.undamaged = true) (ha : s.awake = true) :
    TamperSettled s (settleTamper s) := by
  unfold settleTamper
  simp only [readTamper_undamaged hu]
  split
  · split
    · have hraise := raise_of_awake (s := writeTamper ⟨true, true, false, 1⟩ { s with markedTo := 0 }) ha .tamper
      unfold startTamperClear
      rw [hraise]
      refine ⟨rfl, Or.inr rfl, ?_⟩
      simp only [State.latched, State.latches, giveNotices, writeTamper, BitVec.getLsbD_or, Cause.word, Cause.bit,
        BitVec.getLsbD_twoPow]
      simp
    · exact ⟨rfl, Or.inl rfl, rfl⟩
  · exact ⟨rfl, Or.inl rfl, rfl⟩

/-! ### What the notices to the pool leave -/

section
variable {s : State} {l1 l2 : List Outstanding} {body : Nat → PresenceBody} {a : Bool} {u : State}

/-- Beside the records, the pool's taking of a notice changes the latches. -/
theorem Marked.taking (hs : Whole s) (ha : s.awake = true) (h : Marked body a (s.taking l1 l2) u) :
    u.notices = l1 ++ l2 ∧ u.rooms = s.rooms ∧ u.grants = s.grants ∧ u.verdicts = s.verdicts ∧ u.pairs = s.pairs ∧
      u.referrals = s.referrals ∧ u.seat = s.seat ∧ u.work = s.work ∧ u.attentionTaken = s.attentionTaken ∧ u.awake = true ∧
      u.attention = (if a then s.attention ||| Cause.presenceAlert.word else s.attention) := by
  have hrest := h.change.rest (hs.taking l1 l2)
  have hnotices := congrArg State.notices hrest
  have hgrants := congrArg State.grants hrest
  have hverdicts := congrArg State.verdicts hrest
  have hpairs := congrArg State.pairs hrest
  have hreferrals := congrArg State.referrals hrest
  have hseat := congrArg State.seat hrest
  have hwork := congrArg State.work hrest
  have htaken := congrArg State.attentionTaken hrest
  have hawake := congrArg State.awake hrest
  exact ⟨hnotices, h.rooms, hgrants, hverdicts, hpairs, hreferrals, hseat, hwork, htaken, hawake.trans ha,
    h.change.attention_of_awake (s := s.taking l1 l2) ha⟩

end

theorem any_changed {s : State} {n : Notice} {p : Nat → Bool} :
    (s.changedBy n).any p = true ↔ ∃ id, markedBody n s id ≠ (s.record id).body.value ∧ p id = true := by
  simp only [List.any_eq_true, mem_changedBy]
  exact exists_congr fun id => ⟨fun ⟨⟨_, h⟩, hp⟩ => ⟨h, hp⟩, fun ⟨h, hp⟩ => ⟨⟨markedBody_inUse h, h⟩, hp⟩⟩

section
variable {s : State} {n : Notice} {l1 l2 : List Outstanding} {u : State}

/-- A marking notice raises PRESENCE ALERT exactly where it changes a SENT record. -/
theorem alert_of_changed {t : State}
    (hatt : t.attention = if (s.changedBy n).any (fun k => (s.index k).sent) then
      s.attention ||| Cause.presenceAlert.word else s.attention) :
    ((∃ id, markedBody n s id ≠ (s.record id).body.value ∧ (s.index id).sent = true) →
        t.attention = s.attention ||| Cause.presenceAlert.word) ∧
      ((∀ id, markedBody n s id ≠ (s.record id).body.value → (s.index id).sent = false) → t.attention = s.attention) := by
  rw [hatt]
  constructor
  · intro h
    rw [if_pos (any_changed.mpr h)]
  · intro h
    rw [if_neg]
    intro hh
    obtain ⟨id, hne, hsent⟩ := any_changed.mp hh
    rw [h id hne] at hsent
    simp at hsent

end

section
variable {s : State} {n : Notice} {cmd : Bool} {l1 l2 : List Outstanding} (hs : Whole s) (ha : s.awake = true)
include hs ha

/-- The pool's taking of a notice that reports to a command. -/
theorem exec_revokeNotice_pool {h : Handle} (hold : s.oldest l1 .presencePool (.revoke h) cmd l2) :
    ∃ u, exec (noticeRow (.revoke h) .presencePool) s =
        .next (reportTo ⟨.presencePool, .revoke h, cmd⟩ (.markedBy (s.countedBy (.revoke h)).length) u) ∧
      Marked (markedBody (.revoke h) s) ((s.changedBy (.revoke h)).any (fun k => (s.index k).sent)) (s.taking l1 l2) u := by
  obtain ⟨hm, hc⟩ := (revoke_walk h).walk (hs.taking l1 l2)
  rw [← forHolders_eq (hs.taking l1 l2)] at hm hc
  refine ⟨(poolRevoke h (s.taking l1 l2)).2, ?_, hm.congr (fun _ => rfl) (any_congr_mem fun _ _ => Bool.or_false _)⟩
  have hreport : (poolRevoke h (s.taking l1 l2)).1 = (s.countedBy (.revoke h)).length := hc
  rw [← hreport]
  exact congrArg Host.Outcome.next (onNotice_of_oldest ha hold (kindOf_revoke _ h) (takeRevoke .presencePool))

theorem exec_barNotice_pool {c : Credential} (hold : s.oldest l1 .presencePool (.bar c) cmd l2) :
    ∃ u, exec (noticeRow (.bar c) .presencePool) s =
        .next (reportTo ⟨.presencePool, .bar c, cmd⟩ (.markedBy (s.countedBy (.bar c)).length) u) ∧
      Marked (markedBody (.bar c) s) ((s.changedBy (.bar c)).any (fun k => (s.index k).sent)) (s.taking l1 l2) u := by
  obtain ⟨hm, hc⟩ := poolBar_marked (hs.taking l1 l2) c
  refine ⟨(poolBar c (s.taking l1 l2)).2, ?_, hm⟩
  have hreport : (poolBar c (s.taking l1 l2)).1.toNat = (s.countedBy (.bar c)).length := hc
  rw [← hreport]
  exact congrArg Host.Outcome.next (onNotice_of_oldest ha hold (kindOf_bar _ c) (takeBar .presencePool))

theorem exec_unbarNotice_pool {c : Credential} (hold : s.oldest l1 .presencePool (.unbar c) cmd l2) :
    ∃ u, exec (noticeRow (.unbar c) .presencePool) s =
        .next (reportTo ⟨.presencePool, .unbar c, cmd⟩ (.markedBy (s.countedBy (.unbar c)).length) u) ∧
      Marked (markedBody (.unbar c) s) false (s.taking l1 l2) u := by
  obtain ⟨hm, hc⟩ := poolUnbar_marked (hs.taking l1 l2) c
  refine ⟨(poolUnbar c (s.taking l1 l2)).2, ?_, hm⟩
  have hreport : (poolUnbar c (s.taking l1 l2)).1.toNat = (s.countedBy (.unbar c)).length := hc
  rw [← hreport]
  exact congrArg Host.Outcome.next (onNotice_of_oldest ha hold (kindOf_unbar _ c) takeUnbar)

theorem exec_overstayNotice_pool {h : Handle} (hold : s.oldest l1 .presencePool (.overstay h) cmd l2) :
    ∃ u, exec (noticeRow (.overstay h) .presencePool) s = .next (overstayHand h u) ∧
      Marked (markedBody (.overstay h) s) ((s.changedBy (.overstay h)).any (fun _ => true)) (s.taking l1 l2) u := by
  have hm := ((overstay_walk h).walk (hs.taking l1 l2)).1
  rw [← forHolders_eq (hs.taking l1 l2)] at hm
  exact ⟨poolOverstay h (s.taking l1 l2),
    congrArg Host.Outcome.next (onNotice_of_oldest ha hold (kindOf_overstay _ h) takeOverstay),
    hm.congr (fun _ => rfl) (any_congr_mem fun _ _ => Bool.or_true _)⟩

theorem exec_tamperNotice_pool (hold : s.oldest l1 .presencePool .tamper cmd l2) :
    ∃ u a, exec (noticeRow .tamper .presencePool) s = .next (settleTamper { u with markedTo := 0 }) ∧
      Marked (markedBody .tamper s) a (s.taking l1 l2) u ∧ (a = true ↔ s.clearsASentRecord) := by
  obtain ⟨hm, heq⟩ := poolTamper_marked (hs.taking l1 l2)
  refine ⟨_, _, ?_, hm, (clearsASentRecord_iff s).symm⟩
  rw [← heq]
  exact congrArg Host.Outcome.next (tamperNoticeStep_of_oldest ha hold)

end

/-- Settles O54, notice by notice: what the walk or the locate of each changes, alerts and counts. -/
theorem presencePoolTakesNotices : Obligations.PresencePoolTakesNotices := by
  unfold Obligations.PresencePoolTakesNotices
  intro s n cmd l1 l2 ha hu hw hold hn
  have hs : Whole s := ⟨hu, hw⟩
  have hreported : ∀ (w : Option CommandWork) (k : Nat), w = s.work →
      (cmd = true → (if cmd then w.map (fun w => w.add (.markedBy k)) else w) = s.work.map (fun w => w.add ⟨0, 0, k⟩)) ∧
      (cmd = false → (if cmd then w.map (fun w => w.add (.markedBy k)) else w) = s.work) := by
    rintro w k rfl
    exact ⟨fun hcmd => by rw [if_pos hcmd]; rfl, fun hcmd => by rw [hcmd]; rfl⟩
  rcases hn with ⟨h, rfl⟩ | ⟨h, rfl⟩ | ⟨c, rfl⟩ | ⟨c, rfl⟩ | rfl
  case inl =>
    obtain ⟨u, hexec, hm⟩ := exec_revokeNotice_pool hs ha hold
    obtain ⟨hnot, hroom, hgr, hv, hp, hr, hseat, hwork, -, -, hatt⟩ := hm.taking hs ha
    obtain ⟨hal, hno⟩ := alert_of_changed hatt
    obtain ⟨hyes, hnone⟩ := hreported u.work (s.countedBy (.revoke h)).length hwork
    rw [reportTo_eq] at hexec
    refine ⟨_, hexec, fun id => ⟨hm.index id, hm.body id⟩, fun _ => hnot, fun hq => (nomatch hq), fun _ => hal,
      fun _ => hno, fun _ hq => (nomatch hq), fun _ hq => (nomatch hq), fun hq => (nomatch hq), fun _ => hyes, fun hq => ?_,
      fun _ => hseat, fun _ _ hq => (nomatch hq), hroom, hgr, hv, hp, hr⟩
    rcases hq with hq | ⟨g, hq⟩ | hq
    · exact hnone hq
    · cases hq
    · cases hq
  case inr.inl =>
    obtain ⟨u, hexec, hm⟩ := exec_overstayNotice_pool hs ha hold
    obtain ⟨hnot, hroom, hgr, hv, hp, hr, hseat, hwork, -, -, hatt⟩ := hm.taking hs ha
    refine ⟨_, hexec, fun id => ⟨hm.index id, hm.body id⟩, fun _ => hnot, fun hq => (nomatch hq), fun hq => ?_, fun hq => ?_,
      fun _ hq => (nomatch hq), fun g hg => ?_, fun hq => (nomatch hq), fun hq => ?_, fun _ => hwork, fun hq => ?_, fun g d hg hd => ?_, hroom, hgr, hv, hp, hr⟩
    · rcases hq with ⟨g, hq⟩ | ⟨g, hq⟩ <;> cases hq
    · rcases hq with ⟨g, hq⟩ | ⟨g, hq⟩ | ⟨g, hq⟩ <;> cases hq
    · cases hg
      refine hatt.trans ?_
      cases s.changedBy (.overstay h) <;> rfl
    · rcases hq with ⟨g, hq⟩ | ⟨g, hq⟩ | ⟨g, hq⟩ <;> cases hq
    · rcases hq with hq | hq
      · exact absurd rfl (hq h)
      · rw [overstayHand_seat, hseat, hq]
        rfl
    · cases hg
      obtain ⟨reached, heq, hreached⟩ := Decision.overstay_spec h d
      refine ⟨reached, ?_, hreached⟩
      rw [overstayHand_seat, hseat, hd, ← heq]
      rfl
  case inr.inr.inl =>
    obtain ⟨u, hexec, hm⟩ := exec_barNotice_pool hs ha hold
    obtain ⟨hnot, hroom, hgr, hv, hp, hr, hseat, hwork, -, -, hatt⟩ := hm.taking hs ha
    obtain ⟨hal, hno⟩ := alert_of_changed hatt
    obtain ⟨hyes, hnone⟩ := hreported u.work (s.countedBy (.bar c)).length hwork
    rw [reportTo_eq] at hexec
    refine ⟨_, hexec, fun id => ⟨hm.index id, hm.body id⟩, fun _ => hnot, fun hq => (nomatch hq), fun _ => hal,
      fun _ => hno, fun _ hq => (nomatch hq), fun _ hq => (nomatch hq), fun hq => (nomatch hq), fun _ => hyes, fun hq => ?_,
      fun _ => hseat, fun _ _ hq => (nomatch hq), hroom, hgr, hv, hp, hr⟩
    rcases hq with hq | ⟨g, hq⟩ | hq
    · exact hnone hq
    · cases hq
    · cases hq
  case inr.inr.inr.inl =>
    obtain ⟨u, hexec, hm⟩ := exec_unbarNotice_pool hs ha hold
    obtain ⟨hnot, hroom, hgr, hv, hp, hr, hseat, hwork, -, -, hatt⟩ := hm.taking hs ha
    obtain ⟨hyes, hnone⟩ := hreported u.work (s.countedBy (.unbar c)).length hwork
    rw [reportTo_eq] at hexec
    refine ⟨_, hexec, fun id => ⟨hm.index id, hm.body id⟩, fun _ => hnot, fun hq => (nomatch hq), fun hq => ?_,
      fun _ _ => hatt, fun _ _ => hatt, fun _ hq => (nomatch hq), fun hq => (nomatch hq), fun _ => hyes, fun hq => ?_,
      fun _ => hseat, fun _ _ hq => (nomatch hq), hroom, hgr, hv, hp, hr⟩
    · rcases hq with ⟨g, hq⟩ | ⟨g, hq⟩ <;> cases hq
    · rcases hq with hq | ⟨g, hq⟩ | hq
      · exact hnone hq
      · cases hq
      · cases hq
  case inr.inr.inr.inr =>
    obtain ⟨u, a, hexec, hm, halert⟩ := exec_tamperNotice_pool hs ha hold
    obtain ⟨hnot, hroom, hgr, hv, hp, hr, hseat, hwork, htaken, hawake, hatt⟩ := hm.taking hs ha
    obtain ⟨hframe, hto, hlatched⟩ := settleTamper_settled (s := { u with markedTo := 0 }) hm.change.whole.clean hawake
    generalize settleTamper { u with markedTo := 0 } = t at hexec hframe hto hlatched
    have hpresence := congrArg State.presence hframe
    have hrecord : ∀ id, t.record id = u.record id := fun id => congrArg (Table.get PresenceRecord.free · id) hpresence
    have hwork' := congrArg State.work hframe
    have hseat' := congrArg State.seat hframe
    have hroom' := congrArg State.rooms hframe
    have hgr' := congrArg State.grants hframe
    have hv' := congrArg State.verdicts hframe
    have hp' := congrArg State.pairs hframe
    have hr' := congrArg State.referrals hframe
    clear hframe
    have hlatch : t.latched .presenceAlert = (a || s.latched .presenceAlert) := by
      rw [hlatched]
      simp only [State.latched, State.latches, hatt, htaken]
      cases a
      · rfl
      · simp only [if_true, BitVec.getLsbD_or, Cause.word, BitVec.getLsbD_twoPow]
        simp [Cause.bit]
    refine ⟨t, hexec, fun id => ?_, fun hq => absurd rfl hq, fun _ => hto.elim id id, fun hq => ?_, fun hq => ?_,
      fun _ hq => (nomatch hq), fun _ hq => (nomatch hq), fun _ => ⟨fun hc => ?_, fun hc => ?_⟩, fun hq => ?_, fun _ => ?_,
      fun _ => ?_, fun _ _ hq => (nomatch hq), ?_, ?_, ?_, ?_, ?_⟩
    · rw [hrecord]
      exact ⟨hm.index id, hm.body id⟩
    · rcases hq with ⟨g, hq⟩ | ⟨g, hq⟩ <;> cases hq
    · rcases hq with ⟨g, hq⟩ | ⟨g, hq⟩ | ⟨g, hq⟩ <;> cases hq
    · rw [hlatch, halert.mpr hc, Bool.true_or]
    · have hno : a = false := Bool.eq_false_iff.mpr fun hh => hc (halert.mp hh)
      rw [hlatch, hno, Bool.false_or]
    · rcases hq with ⟨g, hq⟩ | ⟨g, hq⟩ | ⟨g, hq⟩ <;> cases hq
    · exact hwork'.trans hwork
    · exact hseat'.trans hseat
    · exact hroom'.trans hroom
    · exact hgr'.trans hgr
    · exact hv'.trans hv
    · exact hp'.trans hp
    · exact hr'.trans hr

end Sys2Proof.Machine

namespace Sys2Proof.Machine
open Sys2Proof

/-! ## Removal of a record (R58) -/

/-- The records of a room's list. -/
theorem mem_roomRecords {s : State} {r id : Nat} :
    id ∈ s.roomRecords r ↔ (s.index id).inUse = true ∧ (s.index id).room = r := by
  rw [State.roomRecords, List.mem_filter, mem_inUseRecords, decide_eq_true_eq]

theorem mem_contractors {s : State} {r id : Nat} : id ∈ s.contractors r ↔
    ((s.index id).inUse = true ∧ (s.index id).room = r) ∧ (s.index id).role = .contractor := by
  rw [State.contractors, List.mem_filter, mem_roomRecords, decide_eq_true_eq]

theorem free_undamaged : PresenceRecord.free.undamaged = true := by decide

section
variable {s : State} (h : Whole s)
include h

/-- An index part written, in its record's place. -/
theorem writeIndex_record (k : Nat) (i : PresenceIndex) (j : Nat) : (writeIndex k i s).record j =
    if j = k then { s.record k with index := .of i } else s.record j :=
  record_setRecord h.presence_wf k j _

theorem writeIndex_change (k : Nat) (i : PresenceIndex) : PoolChange false s (writeIndex k i s) :=
  setRecord_change h k (by
    have hbody := (Bool.and_eq_true_iff.mp (record_undamaged h.clean k)).2
    simp [PresenceRecord.undamaged, hbody])

end

/-- The step of an unlinking: a record behind the place moves up. -/
def closeUp (place : Nat) (s : State) (k : Nat) : State :=
  if place < (s.index k).place then writeIndex k { s.index k with place := (s.index k).place - 1 } s else s

/-- The index part of a record behind the place, moved up. -/
def PresenceIndex.closedUp (place : Nat) (i : PresenceIndex) : PresenceIndex :=
  if place < i.place then { i with place := i.place - 1 } else i

/-- What a closing up of a list of records does. -/
structure ClosedUp (place : Nat) (ids : List Nat) (s t : State) : Prop where
  change : PoolChange false s t
  rooms : t.rooms = s.rooms
  moved : ∀ k ∈ ids, t.index k = (s.index k).closedUp place ∧ (t.record k).body = (s.record k).body
  others : ∀ k, k ∉ ids → t.record k = s.record k

theorem closeUp_closedUp {s : State} (h : Whole s) (place k : Nat) : ClosedUp place [k] s (closeUp place s k) := by
  unfold closeUp
  by_cases hp : place < (s.index k).place
  · rw [if_pos hp]
    refine ⟨writeIndex_change h k _, rfl, fun j hj => ?_, fun j hj => ?_⟩
    · rw [List.mem_singleton.mp hj, State.index, writeIndex_record h, if_pos rfl, PresenceIndex.closedUp, if_pos hp]
      exact ⟨Voted.value_of _, rfl⟩
    · rw [writeIndex_record h, if_neg (fun hh => hj (List.mem_singleton.mpr hh))]
  · rw [if_neg hp]
    refine ⟨.refl h, rfl, fun j hj => ?_, fun _ _ => rfl⟩
    rw [List.mem_singleton.mp hj, PresenceIndex.closedUp, if_neg hp]
    exact ⟨rfl, rfl⟩

theorem foldl_closeUp (place : Nat) {ids : List Nat} (hn : ids.Nodup) {s : State} (h : Whole s) :
    ClosedUp place ids s (ids.foldl (closeUp place) s) := by
  induction ids generalizing s with
  | nil => exact ⟨.refl h, rfl, fun _ hk => absurd hk List.not_mem_nil, fun _ _ => rfl⟩
  | cons id ids ih =>
    obtain ⟨hid, hn⟩ := List.nodup_cons.mp hn
    have hone := closeUp_closedUp h place id
    have hrest := ih hn hone.change.whole
    refine ⟨hone.change.trans h hrest.change, hrest.rooms.trans hone.rooms, fun k hk => ?_, fun k hk => ?_⟩
    · by_cases hkid : k = id
      · subst hkid
        have hkeep := hrest.others k hid
        obtain ⟨hindex, hbody⟩ := hone.moved k (List.mem_singleton.mpr rfl)
        exact ⟨(congrArg (fun x => x.index.value) hkeep).trans hindex, (congrArg PresenceRecord.body hkeep).trans hbody⟩
      · have hkeep := hone.others k (fun hh => hkid (List.mem_singleton.mp hh))
        obtain ⟨hindex, hbody⟩ := hrest.moved k ((List.mem_cons.mp hk).resolve_left hkid)
        refine ⟨hindex.trans ?_, hbody.trans (congrArg PresenceRecord.body hkeep)⟩
        rw [State.index, hkeep]
        rfl
    · obtain ⟨hkid, hk⟩ := not_or.mp (fun hh => hk (List.mem_cons.mpr hh))
      exact (hrest.others k hk).trans (hone.others k (fun hh => hkid (List.mem_singleton.mp hh)))

/-- The index part of a record once another record has left: those behind it in its room have moved up one place. -/
def State.indexWithout (s : State) (id k : Nat) : PresenceIndex :=
  if ((s.index k).inUse = true ∧ (s.index k).room = (s.index id).room) ∧ (s.index id).place < (s.index k).place then
    { s.index k with place := (s.index k).place - 1 }
  else s.index k

/-- What an unlinking does. -/
structure Unlinked (id : Nat) (s t : State) : Prop where
  change : PoolChange false s t
  rooms : t.rooms = s.rooms
  gone : t.record id = .free
  index : ∀ k, k ≠ id → t.index k = s.indexWithout id k
  body : ∀ k, k ≠ id → (t.record k).body = (s.record k).body
  idle : ∀ k, k ≠ id → (s.index k).inUse = false → t.record k = s.record k

theorem unlinkRecord_unlinked {s : State} (h : Whole s) (id : Nat) : Unlinked id s (unlinkRecord id s) := by
  have hfree := setRecord_change h id free_undamaged
  have hrec := record_setRecord (s := s) h.presence_wf id (v := .free)
  have hrecne : ∀ k, k ≠ id → (s.setRecord id .free).record k = s.record k := fun k hk => (hrec k).trans (if_neg hk)
  have hindexne : ∀ k, k ≠ id → (s.setRecord id .free).index k = s.index k := fun k hk =>
    congrArg (fun x => x.index.value) (hrecne k hk)
  have hgone : (s.setRecord id .free).record id = .free := (hrec id).trans (if_pos rfl)
  have hnot : id ∉ (s.setRecord id .free).roomRecords (s.index id).room := fun hh => by
    have hin := (mem_roomRecords.mp hh).1
    rw [State.index, hgone] at hin
    simp [PresenceRecord.free] at hin
  have hmem : ∀ k, k ≠ id → (k ∈ (s.setRecord id .free).roomRecords (s.index id).room ↔
      (s.index k).inUse = true ∧ (s.index k).room = (s.index id).room) := fun k hk => by
    rw [mem_roomRecords, hindexne k hk]
  have hup := foldl_closeUp (s.index id).place (ids := (s.setRecord id .free).roomRecords (s.index id).room)
    (hfree.whole.inUseRecords_nodup.filter _) hfree.whole
  have hdef : unlinkRecord id s = ((s.setRecord id .free).roomRecords (s.index id).room).foldl
    (closeUp (s.index id).place) (s.setRecord id .free) := rfl
  rw [← hdef] at hup
  refine ⟨hfree.trans h hup.change, hup.rooms, (hup.others id hnot).trans hgone, fun k hk => ?_, fun k hk => ?_, fun k hk hidle => ?_⟩
  · by_cases hin : k ∈ (s.setRecord id .free).roomRecords (s.index id).room
    · rw [(hup.moved k hin).1, hindexne k hk, State.indexWithout, PresenceIndex.closedUp]
      simp only [(hmem k hk).mp hin, and_self, true_and]
    · have hkeep : (unlinkRecord id s).index k = s.index k :=
        (congrArg (fun x => x.index.value) (hup.others k hin)).trans (hindexne k hk)
      rw [hkeep, State.indexWithout, if_neg (fun hh => hin ((hmem k hk).mpr hh.1))]
  · by_cases hin : k ∈ (s.setRecord id .free).roomRecords (s.index id).room
    · exact (hup.moved k hin).2.trans (congrArg PresenceRecord.body (hrecne k hk))
    · exact congrArg PresenceRecord.body ((hup.others k hin).trans (hrecne k hk))
  · refine (hup.others k fun hh => ?_).trans (hrecne k hk)
    rw [((hmem k hk).mp hh).1] at hidle
    exact Bool.noConfusion hidle

/-! ### The record leaves its room -/

/-- The body of a room once a record has left: an ESCORT lowers the escort count of a room that can be read. -/
def State.roomWithout (s : State) (id r : Nat) : RoomBody :=
  match (s.room r).view with
  | .undefined | .faulted => (s.room r).body.value
  | .readable _ b => if (s.index id).room = r ∧ (s.index id).role = .escort then { b with escorts := b.escorts - 1 } else b

/-- The record is the last ESCORT of an ESCORTED room. -/
def State.lastEscort (s : State) (id : Nat) : Bool :=
  match (s.room (s.index id).room).view with
  | .undefined | .faulted => false
  | .readable _ b => decide ((s.index id).role = .escort) && decide (b.escorts = 1) && decide (b.cls = .escorted)

theorem Room.view_readable {x : Room} {closed : Bool} {b : RoomBody} (h : x.view = .readable closed b) : x.body.value = b := by
  unfold Room.view at h
  split at h
  all_goals cases h
  all_goals rfl

/-- What a taking out does to the records and to the rooms. -/
structure TakenOut (id : Nat) (s t : State) : Prop where
  change : PoolChange false s t
  gone : t.record id = .free
  index : ∀ k, k ≠ id → t.index k = s.indexWithout id k
  body : ∀ k, k ≠ id → (t.record k).body = (s.record k).body
  idle : ∀ k, k ≠ id → (s.index k).inUse = false → t.record k = s.record k
  header : ∀ r, (t.room r).header = (s.room r).header
  room : ∀ r, (t.room r).body.value = s.roomWithout id r

theorem Unlinked.takenOut {id : Nat} {s t : State} (h : Unlinked id s t)
    (hr : ∀ r, (s.room r).body.value = s.roomWithout id r) : TakenOut id s t := by
  have hroom : ∀ r, t.room r = s.room r := fun r => by rw [State.room, h.rooms]; rfl
  exact ⟨h.change, h.gone, h.index, h.body, h.idle, fun r => by rw [hroom], fun r => by rw [hroom]; exact hr r⟩

/-- In its two outcomes a taking out unlinks the record and, for an ESCORT of a room that can be read, lowers the count. -/
theorem takeOut_spec {s : State} (h : Whole s) (id : Nat) :
    TakenOut id s (takeOut id s).2 ∧ (takeOut id s).1 = s.lastEscort id := by
  have hun := unlinkRecord_unlinked h id
  have hdown : ∀ r, r ≠ (s.index id).room ∨ (s.index id).role ≠ .escort →
      (s.room r).body.value = s.roomWithout id r := fun r hr => by
    unfold State.roomWithout
    cases hv : (s.room r).view with
    | undefined => rfl
    | faulted => rfl
    | readable closed b =>
      have hne : ¬ ((s.index id).room = r ∧ (s.index id).role = .escort) := fun hh =>
        hr.elim (fun hne => hne hh.1.symm) (fun hne => hne hh.2)
      simp only [if_neg hne]
      exact Room.view_readable hv
  have hunread : ∀ v, (s.room (s.index id).room).view = v → (v = .undefined ∨ v = .faulted) →
      ∀ r, (s.room r).body.value = s.roomWithout id r := fun v hv hvv r => by
    by_cases hr : r = (s.index id).room
    · subst hr
      unfold State.roomWithout
      rcases hvv with rfl | rfl <;> rw [hv]
    · exact hdown r (Or.inl hr)
  simp only [takeOut, readRoomRecord_undamaged h.clean]
  cases hv : (s.room (s.index id).room).view with
  | undefined => exact ⟨hun.takenOut (hunread _ hv (.inl rfl)), by simp only [State.lastEscort, hv]⟩
  | faulted => exact ⟨hun.takenOut (hunread _ hv (.inr rfl)), by simp only [State.lastEscort, hv]⟩
  | readable closed b =>
    by_cases he : (s.index id).role = .escort
    · have hb := Room.view_readable hv
      have hroom : ∀ r, (unlinkRecord id s).room r = s.room r := fun r => by rw [State.room, hun.rooms]; rfl
      have hclean : Room.undamaged { (unlinkRecord id s).room (s.index id).room with
          body := .of { b with escorts := b.escorts - 1 } } = true := by
        have hx := room_undamaged hun.change.whole.clean (s.index id).room
        simp only [Room.undamaged, Bool.and_eq_true] at hx ⊢
        exact ⟨hx.1, by simp [Stored.good]⟩
      have hwrite := setRoom_change hun.change.whole (s.index id).room hclean
      have hset := room_setRoom (s := unlinkRecord id s) hun.change.whole.rooms_wf (s.index id).room
        (v := { (unlinkRecord id s).room (s.index id).room with body := .of { b with escorts := b.escorts - 1 } })
      have hupdate : updateRoomBody (s.index id).room (fun b => { b with escorts := b.escorts - 1 }) (unlinkRecord id s) =
          (unlinkRecord id s).setRoom (s.index id).room { (unlinkRecord id s).room (s.index id).room with
            body := .of { b with escorts := b.escorts - 1 } } := by
        rw [updateRoomBody, writeRoomBody, hroom, hb]
      simp only [he, if_true, hupdate]
      refine ⟨⟨hun.change.trans h hwrite, hun.gone, hun.index, hun.body, hun.idle, fun r => ?_, fun r => ?_⟩, ?_⟩
      · rw [hset, ← hroom r]
        split
        · rename_i hr
          rw [hr]
        · rfl
      · rw [hset]
        by_cases hr : r = (s.index id).room
        · subst hr
          rw [if_pos rfl, State.roomWithout]
          simp only [hv, he, true_and, if_true]
        · rw [if_neg hr, hroom]
          exact hdown r (Or.inl hr)
      · simp only [State.lastEscort, hv, he, decide_true, Bool.true_and]
    · simp only [he, if_false]
      refine ⟨hun.takenOut fun r => hdown r (Or.inr he), ?_⟩
      simp only [State.lastEscort, hv, he, decide_false, Bool.false_and]

/-! ### UNESCORTED on those that stay (R61) -/

/-- The body of a record that stays, once another has left. -/
def State.bodyWithout (s : State) (id k : Nat) : PresenceBody :=
  if s.lastEscort id = true ∧ ((s.index k).inUse = true ∧ (s.index k).room = (s.index id).room) ∧
      (s.index k).role = .contractor ∧ (s.index k).faulted = false then
    (s.record k).body.value.withCondition .unescorted
  else (s.record k).body.value

/-- What a removal of one record does. -/
structure RecordRemoved (id : Nat) (s t : State) : Prop where
  change : ∃ alert, PoolChange alert s t
  gone : t.record id = .free
  index : ∀ k, k ≠ id → t.index k = s.indexWithout id k
  body : ∀ k, k ≠ id → (t.record k).body.value = s.bodyWithout id k
  idle : ∀ k, k ≠ id → (s.index k).inUse = false → t.record k = s.record k
  header : ∀ r, (t.room r).header = (s.room r).header
  room : ∀ r, (t.room r).body.value = s.roomWithout id r

theorem unescorted_acts : ActsAs (setCondition .unescorted) (fun b => b.withCondition .unescorted)
    (fun i b => !b.conditions.has .unescorted && (i.sent || true)) (fun i b => !b.conditions.has .unescorted && i.sent) :=
  fun id _ ht => ⟨setCondition_marked ht id .unescorted rfl, setCondition_count id .unescorted _⟩

theorem indexWithout_fields (s : State) (id k : Nat) : (s.indexWithout id k).inUse = (s.index k).inUse ∧
    (s.indexWithout id k).room = (s.index k).room ∧ (s.indexWithout id k).role = (s.index k).role ∧
    (s.indexWithout id k).sent = (s.index k).sent ∧ (s.indexWithout id k).faulted = (s.index k).faulted := by
  unfold State.indexWithout
  split <;> exact ⟨rfl, rfl, rfl, rfl, rfl⟩

/-- A body changed in no record but those of the list. -/
theorem bodiesAfter_of_not {s : State} {chg : PresenceBody → PresenceBody} {ids : List Nat} {k : Nat}
    (h : k ∉ s.readableOf ids) : s.bodiesAfter chg ids k = (s.record k).body.value := if_neg h

/-- A record in undamaged storage is told by its values. -/
theorem record_ext {s t : State} (hs : Whole s) (ht : Whole t) {j k : Nat} (hi : (t.record j).index = (s.record k).index)
    (hb : (t.record j).body.value = (s.record k).body.value) : t.record j = s.record k := by
  have h1 := Stored.eq_of_good (Bool.and_eq_true_iff.mp (record_undamaged ht.clean j)).2
  have h2 := Stored.eq_of_good (Bool.and_eq_true_iff.mp (record_undamaged hs.clean k)).2
  have hbody : (t.record j).body = (s.record k).body := by rw [h1, h2, hb]
  exact congrArg₂ PresenceRecord.mk hi hbody

theorem removeRecord_removed {s : State} (h : Whole s) (id : Nat) : RecordRemoved id s (removeRecord id s) := by
  obtain ⟨hout, hlast⟩ := takeOut_spec h id
  unfold removeRecord
  simp only [hlast]
  generalize (takeOut id s).2 = t at hout
  by_cases hl : s.lastEscort id = true
  · rw [if_pos hl]
    have hnodup : (t.contractors (s.index id).room).Nodup :=
      (hout.change.whole.inUseRecords_nodup.filter _).filter _
    have hm := (forReadable_marked unescorted_acts hout.change.whole hnodup).1
    have hmark : (forReadable (setCondition .unescorted) (t.contractors (s.index id).room) t).2 =
      markUnescorted (s.index id).room t := rfl
    rw [hmark] at hm
    generalize markUnescorted (s.index id).room t = u at hm
    have hroom : ∀ r, u.room r = t.room r := fun r => by rw [State.room, hm.rooms]; rfl
    have hfree : t.index id = PresenceRecord.free.index.value := congrArg (fun x => x.index.value) hout.gone
    have hkeep : ∀ k, k ∉ t.readableOf (t.contractors (s.index id).room) → u.record k = t.record k := fun k hk =>
      record_ext hout.change.whole hm.change.whole (hm.index k) ((hm.body k).trans (bodiesAfter_of_not hk))
    have hidle : ∀ k, (t.index k).inUse = false → u.record k = t.record k := fun k hk => hkeep k fun hh => by
      have hin := (mem_contractors.mp (mem_readableOf.mp hh).1).1.1
      rw [hk] at hin
      exact Bool.noConfusion hin
    refine ⟨⟨_, hout.change.trans h hm.change⟩, ?_, fun k hk => (hm.index_eq k).trans (hout.index k hk), fun k hk => ?_,
      fun k hk hin => ?_, fun r => ?_, fun r => ?_⟩
    · rw [hidle id (by rw [hfree]; simp [PresenceRecord.free])]
      exact hout.gone
    · obtain ⟨h1, h2, h3, h4, h5⟩ := indexWithout_fields s id k
      rw [hm.body, State.bodiesAfter, State.bodyWithout, hout.body k hk]
      simp only [mem_readableOf, mem_contractors, hout.index k hk, h1, h2, h3, h5, hl, true_and, and_assoc]
    · rw [hidle k (by rw [hout.index k hk, (indexWithout_fields s id k).1]; exact hin)]
      exact hout.idle k hk hin
    · rw [hroom]
      exact hout.header r
    · rw [hroom]
      exact hout.room r
  · rw [if_neg hl]
    refine ⟨⟨_, hout.change⟩, hout.gone, hout.index, fun k hk => ?_, hout.idle, hout.header, hout.room⟩
    rw [hout.body k hk, State.bodyWithout, if_neg (fun hh => hl hh.1)]

end Sys2Proof.Machine

namespace Sys2Proof.Machine
open Sys2Proof

/-! ## Removal of the UNSENT records of a list (R58, R91) -/

/-- What the removal of several records, one after another, does to the records and to the rooms. -/
structure RecordsRemoved (gone : List Nat) (s t : State) : Prop where
  free : ∀ id ∈ gone, t.record id = .free
  index : ∀ k, k ∉ gone → (s.index k).inUse = true →
    t.index k = { s.index k with place := s.placesAfterRemovals gone k }
  body : ∀ k, k ∉ gone → (s.index k).inUse = true → (t.record k).body.value = s.bodyAfterRemovals gone k
  idle : ∀ k, k ∉ gone → (s.index k).inUse = false → t.record k = s.record k
  header : ∀ r, (t.room r).header = (s.room r).header
  room : ∀ r, (t.room r).body.value = s.roomAfterRemovals gone r

/-- A removal of several records, by the Presence Pool alone. -/
structure Removed (gone : List Nat) (s t : State) : Prop extends RecordsRemoved gone s t where
  change : ∃ alert, PoolChange alert s t

theorem placesAfterRemovals_append (s : State) (gone : List Nat) (id k : Nat) : s.placesAfterRemovals (gone ++ [id]) k =
    if (s.index k).room = (s.index id).room ∧ s.placesAfterRemovals gone id < s.placesAfterRemovals gone k then
      s.placesAfterRemovals gone k - 1
    else s.placesAfterRemovals gone k := by
  rw [State.placesAfterRemovals, List.foldl_append]
  rfl

theorem roomAfterRemovals_nil (s : State) (r : Nat) : s.roomAfterRemovals [] r = (s.room r).body.value := by
  unfold State.roomAfterRemovals
  cases hv : (s.room r).view with
  | undefined => rfl
  | faulted => rfl
  | readable closed b => exact (Room.view_readable hv).symm

/-- The escorts of a room among the records that have gone. -/
def State.escortsGone (s : State) (gone : List Nat) (r : Nat) : Nat :=
  (gone.filter (fun id => decide ((s.index id).room = r) && decide ((s.index id).role = .escort))).length

theorem roomAfterRemovals_of_readable {s : State} {r : Nat} {closed : Bool} {b : RoomBody}
    (h : (s.room r).view = .readable closed b) (gone : List Nat) :
    s.roomAfterRemovals gone r = { b with escorts := b.escorts - s.escortsGone gone r } := by
  rw [State.roomAfterRemovals, h]
  rfl

/-- The room cannot be read. -/
def RoomView.unreadable : RoomView → Bool
  | .undefined | .faulted => true
  | .readable _ _ => false

theorem RoomView.readable_or (v : RoomView) : v.unreadable = true ∨ ∃ closed b, v = .readable closed b := by
  cases v with
  | undefined => exact .inl rfl
  | faulted => exact .inl rfl
  | readable closed b => exact .inr ⟨closed, b, rfl⟩

theorem bodyAfterRemovals_of_unreadable {s : State} {k : Nat} (h : (s.room (s.index k).room).view.unreadable = true)
    (gone : List Nat) : s.bodyAfterRemovals gone k = (s.record k).body.value := by
  unfold State.bodyAfterRemovals
  cases hv : (s.room (s.index k).room).view with
  | undefined => simp only [hv]
  | faulted => simp only [hv]
  | readable closed b => rw [hv] at h; cases h

theorem bodyAfterRemovals_of_readable {s : State} {k : Nat} {closed : Bool} {b : RoomBody}
    (h : (s.room (s.index k).room).view = .readable closed b) (gone : List Nat) : s.bodyAfterRemovals gone k =
      if b.cls = .escorted ∧ (s.index k).role = .contractor ∧ (s.index k).faulted = false ∧ 1 ≤ b.escorts ∧
          b.escorts - s.escortsGone gone (s.index k).room = 0 then
        (s.record k).body.value.withCondition .unescorted
      else (s.record k).body.value := by
  simp only [State.bodyAfterRemovals, h, roomAfterRemovals_of_readable h]
  rfl

theorem bodyAfterRemovals_nil (s : State) (k : Nat) : s.bodyAfterRemovals [] k = (s.record k).body.value := by
  rcases (s.room (s.index k).room).view.readable_or with hv | ⟨closed, b, hv⟩
  · exact bodyAfterRemovals_of_unreadable hv []
  · rw [bodyAfterRemovals_of_readable hv, if_neg]
    rintro ⟨-, -, -, hone, hzero⟩
    simp only [State.escortsGone, List.filter_nil, List.length_nil, Nat.sub_zero] at hzero
    omega

theorem RecordsRemoved.nil (s : State) : RecordsRemoved [] s s :=
  ⟨fun _ hk => absurd hk List.not_mem_nil, fun _ _ _ => rfl, fun k _ _ => (bodyAfterRemovals_nil s k).symm,
    fun _ _ _ => rfl, fun _ => rfl, fun r => (roomAfterRemovals_nil s r).symm⟩

theorem Removed.nil {s : State} (h : Whole s) : Removed [] s s := ⟨.nil s, ⟨_, .refl h⟩⟩

section
variable {gone : List Nat} {s t : State}

theorem Removed.whole (h : Removed gone s t) : Whole t := h.change.elim fun _ hc => hc.whole

theorem RecordsRemoved.gone_index (h : RecordsRemoved gone s t) {id : Nat} (hid : id ∈ gone) : (t.index id).inUse = false := by
  rw [State.index, h.free id hid]
  decide

theorem RecordsRemoved.idle_index (h : RecordsRemoved gone s t) {k : Nat} (hk : k ∉ gone) (hin : (s.index k).inUse = false) :
    t.index k = s.index k := congrArg (fun x => x.index.value) (h.idle k hk hin)

/-- Exactly the records that have gone are in use no more. -/
theorem RecordsRemoved.inUse (h : RecordsRemoved gone s t) (k : Nat) :
    (t.index k).inUse = true ↔ (s.index k).inUse = true ∧ k ∉ gone := by
  by_cases hk : k ∈ gone
  · simp [h.gone_index hk, hk]
  · cases hin : (s.index k).inUse
    · simp [h.idle_index hk hin, hin]
    · simp [h.index k hk hin, hin, hk]

/-- A record that stays keeps what its index part says, its place apart. -/
theorem RecordsRemoved.same (h : RecordsRemoved gone s t) {k : Nat} (hk : k ∉ gone) : (t.index k).room = (s.index k).room ∧
    (t.index k).role = (s.index k).role ∧ (t.index k).sent = (s.index k).sent ∧
    (t.index k).faulted = (s.index k).faulted ∧ (t.index k).useTaken = (s.index k).useTaken := by
  cases hin : (s.index k).inUse
  · rw [h.idle_index hk hin]
    exact ⟨rfl, rfl, rfl, rfl, rfl⟩
  · rw [h.index k hk hin]
    exact ⟨rfl, rfl, rfl, rfl, rfl⟩

theorem roomAfterRemovals_of_unreadable {r : Nat} (h : (s.room r).view.unreadable = true) (gone : List Nat) :
    s.roomAfterRemovals gone r = (s.room r).body.value := by
  unfold State.roomAfterRemovals
  cases hv : (s.room r).view with
  | undefined => rfl
  | faulted => rfl
  | readable closed b => rw [hv] at h; cases h

/-- A room that can be read stays one, with its escorts counted down. -/
theorem RecordsRemoved.view_readable (h : RecordsRemoved gone s t) {r : Nat} {closed : Bool} {b : RoomBody}
    (hv : (s.room r).view = .readable closed b) : (t.room r).view = .readable closed (s.roomAfterRemovals gone r) := by
  have hroom := h.room r
  unfold Room.view at hv ⊢
  rw [h.header r]
  cases hh : (s.room r).header.value <;> rw [hh] at hv
  · cases hv
  · rw [← hroom]
    injection hv with h1
    rw [← h1]
  · rw [← hroom]
    injection hv with h1
    rw [← h1]
  · cases hv

theorem RecordsRemoved.view_unreadable (h : RecordsRemoved gone s t) {r : Nat} (hv : (s.room r).view.unreadable = true) :
    (t.room r).view.unreadable = true := by
  unfold Room.view at hv ⊢
  rw [h.header r]
  cases hh : (s.room r).header.value <;> rw [hh] at hv
  · rfl
  · cases hv
  · cases hv
  · rfl

end

theorem lastEscort_of_readable {s : State} {id : Nat} {closed : Bool} {b : RoomBody}
    (h : (s.room (s.index id).room).view = .readable closed b) :
    s.lastEscort id = true ↔ (s.index id).role = .escort ∧ b.escorts = 1 ∧ b.cls = .escorted := by
  simp only [State.lastEscort, h, Bool.and_eq_true, decide_eq_true_eq, and_assoc]

theorem lastEscort_of_unreadable {s : State} {id : Nat} (h : (s.room (s.index id).room).view.unreadable = true) :
    s.lastEscort id = false := by
  unfold State.lastEscort
  cases hv : (s.room (s.index id).room).view with
  | undefined => rfl
  | faulted => rfl
  | readable closed b => rw [hv] at h; cases h

theorem roomWithout_of_readable {s : State} {r : Nat} {closed : Bool} {b : RoomBody}
    (h : (s.room r).view = .readable closed b) (id : Nat) : s.roomWithout id r =
      if (s.index id).room = r ∧ (s.index id).role = .escort then { b with escorts := b.escorts - 1 } else b := by
  rw [State.roomWithout, h]

theorem roomWithout_of_unreadable {s : State} {r : Nat} (h : (s.room r).view.unreadable = true) (id : Nat) :
    s.roomWithout id r = (s.room r).body.value := by
  unfold State.roomWithout
  cases hv : (s.room r).view with
  | undefined => rfl
  | faulted => rfl
  | readable closed b => rw [hv] at h; cases h

section
variable {gone : List Nat} {s t u : State} {id : Nat}

/-- The escorts of a room that have gone from it, one more record counted. -/
theorem escortsGone_append (s : State) (gone : List Nat) (id r : Nat) : s.escortsGone (gone ++ [id]) r =
    s.escortsGone gone r + if (s.index id).room = r ∧ (s.index id).role = .escort then 1 else 0 := by
  rw [State.escortsGone, List.filter_append, List.length_append]
  congr 1
  by_cases hr : (s.index id).room = r <;> by_cases he : (s.index id).role = .escort <;> simp [hr, he]

/-- The room once one more record has gone. -/
theorem RecordsRemoved.roomWithout (h : RecordsRemoved gone s t) (hid : id ∉ gone) (r : Nat) :
    t.roomWithout id r = s.roomAfterRemovals (gone ++ [id]) r := by
  obtain ⟨hroom, hrole, -⟩ := h.same hid
  rcases (s.room r).view.readable_or with hv | ⟨closed, b, hv⟩
  · rw [roomWithout_of_unreadable (h.view_unreadable hv), h.room, roomAfterRemovals_of_unreadable hv,
      roomAfterRemovals_of_unreadable hv]
  · rw [roomWithout_of_readable (h.view_readable hv), roomAfterRemovals_of_readable hv, roomAfterRemovals_of_readable hv,
      escortsGone_append, hroom, hrole]
    split
    · simp only [Nat.sub_sub]
    · rfl

/-- The body of a record that stays, once one more record has gone: the last ESCORT of an ESCORTED room is the one
with which the count of those gone reaches the room's. -/
theorem RecordsRemoved.bodyWithout (h : RecordsRemoved gone s t) (hid : id ∉ gone) {k : Nat} (hk : k ∉ gone)
    (hin : (s.index k).inUse = true) : t.bodyWithout id k = s.bodyAfterRemovals (gone ++ [id]) k := by
  obtain ⟨hroom, hrole, -⟩ := h.same hid
  obtain ⟨hkroom, hkrole, -, hkf, -⟩ := h.same hk
  have hkin := (h.inUse k).mpr ⟨hin, hk⟩
  unfold State.bodyWithout
  rw [h.body k hk hin, hkroom, hkrole, hkf, hroom, hkin]
  by_cases hr : (s.index k).room = (s.index id).room
  · rcases (s.room (s.index k).room).view.readable_or with hv | ⟨closed, b, hv⟩
    · have hlast : t.lastEscort id = false := lastEscort_of_unreadable (by
        rw [hroom, ← hr]
        exact h.view_unreadable hv)
      rw [bodyAfterRemovals_of_unreadable hv, bodyAfterRemovals_of_unreadable hv, hlast]
      exact if_neg (fun hh => Bool.noConfusion hh.1)
    · have hlast := lastEscort_of_readable (s := t) (id := id) (by
        rw [hroom, ← hr]
        exact h.view_readable hv)
      rw [hrole, roomAfterRemovals_of_readable hv] at hlast
      rw [bodyAfterRemovals_of_readable hv, bodyAfterRemovals_of_readable hv, escortsGone_append]
      simp only [hlast, hr, true_and, and_true]
      rw [← hr]
      by_cases hc : (s.index k).role = .contractor ∧ (s.index k).faulted = false
      · by_cases hcls : b.cls = .escorted
        · by_cases he : (s.index id).role = .escort
          · simp only [hc, hcls, he, true_and, and_true, if_true]
            by_cases hone : b.escorts - s.escortsGone gone (s.index k).room = 1
            · rw [if_pos hone, if_neg (by omega), if_pos (by omega)]
            · rw [if_neg hone]
              by_cases hzero : 1 ≤ b.escorts ∧ b.escorts - s.escortsGone gone (s.index k).room = 0
              · rw [if_pos hzero, if_pos (by omega)]
              · rw [if_neg hzero, if_neg (by omega)]
          · simp only [he, false_and, if_false, Nat.add_zero]
        · simp only [hcls, and_false, false_and, if_false]
      · have hno : ∀ p q : Prop, ¬ (p ∧ (s.index k).role = .contractor ∧ (s.index k).faulted = false ∧ q) := fun p q hh =>
          hc ⟨hh.2.1, hh.2.2.1⟩
        have hno' : ∀ p : Prop, ¬ (p ∧ (s.index k).role = .contractor ∧ (s.index k).faulted = false) := fun p hh => hc hh.2
        rw [if_neg (hno _ _), if_neg (hno _ _), if_neg (hno' _)]
  · have hcount : s.escortsGone (gone ++ [id]) (s.index k).room = s.escortsGone gone (s.index k).room := by
      rw [escortsGone_append, if_neg (fun hh => hr hh.1.symm), Nat.add_zero]
    rw [if_neg (fun hh => hr hh.2.1.2)]
    rcases (s.room (s.index k).room).view.readable_or with hv | ⟨closed, b, hv⟩
    · rw [bodyAfterRemovals_of_unreadable hv, bodyAfterRemovals_of_unreadable hv]
    · rw [bodyAfterRemovals_of_readable hv, bodyAfterRemovals_of_readable hv, hcount]

/-- One more record in use goes. -/
theorem RecordsRemoved.append (h : RecordsRemoved gone s t) (hin : (t.index id).inUse = true) (hr : RecordRemoved id t u) :
    RecordsRemoved (gone ++ [id]) s u := by
  obtain ⟨hins, hid⟩ := (h.inUse id).mp hin
  have hsplit : ∀ {k}, k ∉ gone ++ [id] → k ∉ gone ∧ k ≠ id := fun {k} hk =>
    ⟨fun hh => hk (List.mem_append_left _ hh), fun hh => hk (List.mem_append_right _ (List.mem_singleton.mpr hh))⟩
  refine ⟨fun k hk => ?_, fun k hk hkin => ?_, fun k hk hkin => ?_, fun k hk hkin => ?_,
    fun r => (hr.header r).trans (h.header r), fun r => (hr.room r).trans (h.roomWithout hid r)⟩
  · by_cases hkid : k = id
    · rw [hkid]
      exact hr.gone
    · have hkg := (List.mem_append.mp hk).resolve_right (fun hh => hkid (List.mem_singleton.mp hh))
      exact (hr.idle k hkid (h.gone_index hkg)).trans (h.free k hkg)
  · obtain ⟨hkg, hkid⟩ := hsplit hk
    have hki := h.index k hkg hkin
    rw [hr.index k hkid, State.indexWithout, hki, h.index id hid hins, placesAfterRemovals_append]
    simp only [hkin, true_and]
    split_ifs <;> rfl
  · obtain ⟨hkg, hkid⟩ := hsplit hk
    rw [hr.body k hkid]
    exact h.bodyWithout hid hkg hkin
  · obtain ⟨hkg, hkid⟩ := hsplit hk
    have hidle := h.idle k hkg hkin
    exact (hr.idle k hkid (by rw [State.index, hidle]; exact hkin)).trans hidle

theorem Removed.append (hs : Whole s) (h : Removed gone s t) (hin : (t.index id).inUse = true) (hr : RecordRemoved id t u) :
    Removed (gone ++ [id]) s u := by
  obtain ⟨a, ha⟩ := h.change
  obtain ⟨b, hb⟩ := hr.change
  exact ⟨h.toRecordsRemoved.append hin hr, ⟨a || b, ha.trans hs hb⟩⟩

end

/-! ### The walk over a list -/

/-- The step of the walk: an UNSENT record in use is removed; one that has left already is passed. -/
def dropUnsent (s : State) (id : Nat) : State :=
  if (s.index id).inUse && !(s.index id).sent then removeRecord id s else s

theorem removeUnsent_eq {s : State} (h : Whole s) (ids : List Nat) : removeUnsent ids s = ids.foldl dropUnsent s := by
  rw [removeUnsent, scanIndexes_undamaged h.clean]
  rfl

/-- An UNSENT record in use. -/
def State.unsent (s : State) (id : Nat) : Bool := (s.index id).inUse && !(s.index id).sent

theorem RecordsRemoved.unsent {gone : List Nat} {s t : State} (h : RecordsRemoved gone s t) (k : Nat) :
    t.unsent k = true ↔ s.unsent k = true ∧ k ∉ gone := by
  by_cases hk : k ∈ gone
  · simp [State.unsent, h.gone_index hk, hk]
  · have hin := h.inUse k
    simp only [hk, not_false_eq_true, and_true] at hin
    simp only [State.unsent, Bool.and_eq_true, hin, (h.same hk).2.2.1, hk, not_false_eq_true, and_true]

/-- The walk removes exactly the UNSENT records of its list, each once; where none stands in it twice, in its order. -/
theorem foldl_dropUnsent {s : State} (hs : Whole s) (ids : List Nat) {gone : List Nat} {t : State} (h : Removed gone s t) :
    ∃ more, Removed (gone ++ more) s (ids.foldl dropUnsent t) ∧
      (∀ k, k ∈ gone ++ more ↔ k ∈ gone ∨ (k ∈ ids ∧ s.unsent k = true)) ∧
      (ids.Nodup → (∀ k ∈ ids, k ∉ gone) → more = ids.filter s.unsent) := by
  induction ids generalizing gone t with
  | nil => exact ⟨[], by simpa using h, by simp, fun _ _ => rfl⟩
  | cons id ids ih =>
    by_cases hid : t.unsent id = true
    · have hstep : dropUnsent t id = removeRecord id t := if_pos hid
      have hin := (Bool.and_eq_true_iff.mp hid).1
      have hone := h.append hs hin (removeRecord_removed h.whole id)
      obtain ⟨hids, hidg⟩ := (h.unsent id).mp hid
      obtain ⟨more, hmore, hmem, hlist⟩ := ih hone
      refine ⟨id :: more, ?_, fun k => ?_, fun hn hd => ?_⟩
      · rw [List.foldl_cons, hstep]
        simpa using hmore
      · rw [show gone ++ id :: more = gone ++ [id] ++ more by simp, hmem]
        by_cases hk : k = id <;> simp [hk, hids]
      · obtain ⟨hnot, hn⟩ := List.nodup_cons.mp hn
        rw [List.filter_cons, if_pos hids, hlist hn fun k hk hh => ?_]
        rcases List.mem_append.mp hh with hh | hh
        · exact hd k (List.mem_cons_of_mem _ hk) hh
        · exact hnot (List.mem_singleton.mp hh ▸ hk)
    · have hstep : dropUnsent t id = t := if_neg hid
      obtain ⟨more, hmore, hmem, hlist⟩ := ih h
      refine ⟨more, ?_, fun k => ?_, fun hn hd => ?_⟩
      · rw [List.foldl_cons, hstep]
        exact hmore
      · rw [hmem]
        by_cases hk : k = id
        · subst hk
          have hno : s.unsent k = true → k ∈ gone := fun hs => by
            by_contra hg
            exact hid ((h.unsent k).mpr ⟨hs, hg⟩)
          simp only [List.mem_cons, true_or, true_and]
          exact ⟨fun hh => hh.imp_right And.right, fun hh => .inl (hh.elim id hno)⟩
        · simp [hk]
      · obtain ⟨hnot, hn⟩ := List.nodup_cons.mp hn
        have hids : ¬ s.unsent id = true := fun hh => hid ((h.unsent id).mpr ⟨hh, hd id List.mem_cons_self⟩)
        rw [List.filter_cons, if_neg hids]
        exact hlist hn fun k hk => hd k (List.mem_cons_of_mem _ hk)

theorem removeUnsent_removed {s : State} (hs : Whole s) (ids : List Nat) : ∃ gone, Removed gone s (removeUnsent ids s) ∧
    (∀ k, k ∈ gone ↔ k ∈ ids ∧ s.unsent k = true) ∧ (ids.Nodup → gone = ids.filter s.unsent) := by
  obtain ⟨gone, hgone, hmem, hlist⟩ := foldl_dropUnsent hs ids (.nil hs)
  rw [removeUnsent_eq hs]
  refine ⟨gone, by simpa using hgone, fun k => by simpa using hmem k, fun hn => hlist hn fun _ _ => List.not_mem_nil⟩

end Sys2Proof.Machine

namespace Sys2Proof.Machine
open Sys2Proof

/-! ## A permit undone (R76, R87, R90) -/

/-- Records have been removed and uses given back; beside that, stations may have been written. -/
structure Undone (ids : List Nat) (claims : List Claim) (s t : State) : Prop where
  whole : Whole t
  frame : t = { s with
    presence := t.presence, rooms := t.rooms, grants := t.grants, stations := t.stations, attention := t.attention,
    resetCauses := t.resetCauses, deferred := t.deferred }
  removed : removedUnsent ids s t
  sent : ∀ k, (t.index k).inUse = true → (t.index k).sent = (s.index k).sent
  slots : ∀ j, t.slot j = s.slotAfterReturns claims j

theorem removedUnsent_iff {ids : List Nat} {s t : State} : removedUnsent ids s t ↔
    ∀ k, (t.index k).inUse = true ↔ (s.index k).inUse = true ∧ ¬ (k ∈ ids ∧ (s.index k).sent = false) := by
  refine forall_congr' fun k => ?_
  rw [Bool.eq_iff_iff, Bool.and_eq_true, Bool.not_eq_true', Bool.and_eq_false_iff, List.contains_iff_mem.symm.eq]
  cases (s.index k).sent <;> simp

theorem Undone.refl {s : State} (h : Whole s) : Undone [] [] s s :=
  ⟨h, rfl, removedUnsent_iff.mpr fun k => by simp, fun _ _ => rfl, fun j => (slotAfterReturns_nil s j).symm⟩

theorem Undone.trans {a b : List Nat} {c d : List Claim} {s t u : State} (h : Undone a c s t) (k : Undone b d t u) :
    Undone (a ++ b) (c ++ d) s u := by
  have hclock := congrArg State.clock h.frame
  have hrt := removedUnsent_iff.mp h.removed
  have hru := removedUnsent_iff.mp k.removed
  refine ⟨k.whole, ?_, removedUnsent_iff.mpr fun id => ?_, fun id hid => ?_,
    fun j => slotAfterReturns_append hclock (h.slots j) (k.slots j)⟩
  · have hk := k.frame
    rw [h.frame] at hk
    exact hk
  · rw [hru, List.mem_append]
    constructor
    · rintro ⟨hin, hb⟩
      have hsent := h.sent id hin
      obtain ⟨hs, ha⟩ := (hrt id).mp hin
      rw [hsent] at hb
      exact ⟨hs, by tauto⟩
    · rintro ⟨hs, hab⟩
      have hin := (hrt id).mpr ⟨hs, by tauto⟩
      rw [h.sent id hin]
      exact ⟨hin, by tauto⟩
  · rw [k.sent id hid, h.sent id ((hru id).mp hid).1]

theorem removeUnsent_undone {s : State} (h : Whole s) (ids : List Nat) : Undone ids [] s (removeUnsent ids s) := by
  obtain ⟨gone, hr, hmem, -⟩ := removeUnsent_removed h ids
  obtain ⟨a, ha⟩ := hr.change
  have hrest := ha.rest h
  have hgrants := congrArg State.grants hrest
  have hstations := congrArg State.stations hrest
  refine ⟨ha.whole, ?_, removedUnsent_iff.mpr fun k => ?_, fun k hk => (hr.same ((hr.inUse k).mp hk).2).2.2.1, fun j => ?_⟩
  · rw [hgrants, hstations]
    exact hrest
  · rw [hr.inUse, hmem]
    simp only [State.unsent, Bool.and_eq_true, Bool.not_eq_true']
    tauto
  · rw [slotAfterReturns_nil, State.slot, hgrants]
    rfl

theorem returnClaims_undone {s : State} (h : Whole s) (claims : List Claim) : Undone [] claims s (returnClaims claims s) := by
  have heq := returnClaims_eq claims h.clean
  have hpresence := congrArg State.presence heq
  have hindex : ∀ k, (returnClaims claims s).index k = s.index k := fun k => by
    rw [State.index, State.record, hpresence]
    rfl
  exact ⟨h.returnClaims claims, by rw [heq], removedUnsent_iff.mpr fun k => by simp [hindex], fun k _ => by rw [hindex],
    returnClaims_slot claims h.clean h.wf⟩

theorem undoData_undone {s : State} (h : Whole s) (claims : List Claim) (ids : List Nat) :
    Undone ids claims s (undoData claims ids s) := by
  have hrem := removeUnsent_undone h ids
  have hboth := hrem.trans (returnClaims_undone hrem.whole claims)
  rw [List.append_nil] at hboth
  exact hboth

/-- A station written, in the parts that are not stored. -/
theorem updateStation_undone {s : State} (h : Whole s) (k : Nat) {f : Station → Station}
    (hf : (f (s.station k)).header = (s.station k).header ∧ (f (s.station k)).body = (s.station k).body) :
    Undone [] [] s (updateStation k f s) := by
  have hclean : (f (s.station k)).undamaged = true := by
    rw [Station.undamaged, hf.1, hf.2]
    exact station_undamaged h.clean k
  exact ⟨h.setStation k hclean, rfl, (Undone.refl h).removed, fun _ _ => rfl, fun j => (slotAfterReturns_nil s j).symm⟩

/-- The records and the claims of an entry's permit. -/
def VerdictEntry.records (e : VerdictEntry) : List Nat :=
  match e.permit with
  | none => []
  | some p => p.records

def VerdictEntry.claims (e : VerdictEntry) : List Claim :=
  match e.permit with
  | none => []
  | some p => p.claims

theorem recordsOf_eq (which : VerdictEntry → Bool) (s : State) :
    recordsOf which s = (s.verdicts.filter which).flatMap VerdictEntry.records := rfl

theorem claimsOf_eq (which : VerdictEntry → Bool) (s : State) :
    claimsOf which s = (s.verdicts.filter which).flatMap VerdictEntry.claims := rfl

theorem undoPermitData_undone {s : State} (h : Whole s) (e : VerdictEntry) :
    Undone e.records e.claims s (undoPermitData e.permit s) := by
  unfold undoPermitData VerdictEntry.records VerdictEntry.claims
  cases e.permit with
  | none => exact .refl h
  | some p => exact undoData_undone h p.claims p.records

theorem foldl_undone {f : State → VerdictEntry → State} (hf : ∀ s e, Whole s → Undone e.records e.claims s (f s e))
    (es : List VerdictEntry) {s : State} (h : Whole s) :
    Undone (es.flatMap VerdictEntry.records) (es.flatMap VerdictEntry.claims) s (es.foldl f s) := by
  induction es generalizing s with
  | nil => exact .refl h
  | cons e es ih =>
    have hone := hf s e h
    exact hone.trans (ih hone.whole)

/-- The station table is told. -/
theorem Undone.report {ids : List Nat} {claims : List Claim} {s t : State} (h : Undone ids claims s t) (k : Nat)
    {f : Station → Station} (hf : ∀ x : Station, (f x).header = x.header ∧ (f x).body = x.body) :
    Undone ids claims s (updateStation k f t) := by
  have hboth := h.trans (updateStation_undone h.whole k (hf _))
  simp only [List.append_nil] at hboth
  exact hboth

theorem reportWithdrawn_undone {ids : List Nat} {claims : List Claim} {s t : State} (h : Undone ids claims s t) (k : Nat)
    (q : Sequence) (r : DenyReason) : Undone ids claims s (reportWithdrawn k q r t) := by
  refine h.report k fun x => ?_
  split
  · exact ⟨rfl, rfl⟩
  · split <;> exact ⟨rfl, rfl⟩

theorem reportRemoved_undone {ids : List Nat} {claims : List Claim} {s t : State} (h : Undone ids claims s t) (k : Nat)
    (q : Sequence) : Undone ids claims s (reportRemoved k q t) := h.report k fun _ => ⟨rfl, rfl⟩

/-! ### Withdrawal and outright removal -/

theorem holds_eq (e : VerdictEntry) (hit : PermitData → Bool) : e.holds hit = e.permit.any hit := by
  unfold VerdictEntry.holds
  cases e.permit <;> rfl

theorem withdrawn_eq (e : VerdictEntry) (hit : PermitData → Bool) (r : DenyReason) :
    (if e.holds hit then e.withdrawn r else e) = afterWithdrawal hit r e := by
  unfold afterWithdrawal VerdictEntry.holds VerdictEntry.withdrawn
  cases e.permit <;> rfl

/-- The Verdict Queue after a withdrawal. -/
def State.withdrawn (s : State) (hit : PermitData → Bool) (r : DenyReason) : State :=
  { s with verdicts := s.verdicts.map (afterWithdrawal hit r) }

theorem withdrawWhere_undone {s : State} (h : Whole s) (hit : PermitData → Bool) (r : DenyReason) :
    (withdrawWhere hit r s).1 = (s.verdicts.filter (fun e => e.permit.any hit)).length ∧
      Undone (recordsOf (fun e => e.permit.any hit) s) (claimsOf (fun e => e.permit.any hit) s) (s.withdrawn hit r)
        (withdrawWhere hit r s).2 := by
  have heq : withdrawWhere hit r s = ((s.verdicts.filter (fun e => e.permit.any hit)).length,
      (s.verdicts.filter (fun e => e.permit.any hit)).foldl
        (fun s e => reportWithdrawn e.station e.sequence r (undoPermitData e.permit s)) (s.withdrawn hit r)) := by
    unfold withdrawWhere
    simp only [withdrawn_eq]
    simp only [holds_eq]
    rfl
  rw [heq]
  have hs : Whole (s.withdrawn hit r) := ⟨h.clean, h.wf⟩
  exact ⟨rfl, foldl_undone (fun _ e hs => reportWithdrawn_undone (undoPermitData_undone hs e) _ _ _) _ hs⟩

theorem removeEntries_undone {s : State} (h : Whole s) (which : VerdictEntry → Bool) :
    Undone (recordsOf which s) (claimsOf which s) { s with verdicts := s.verdicts.filter (fun e => !which e) }
      (removeEntries which s) := by
  have hs : Whole { s with verdicts := s.verdicts.filter (fun e => !which e) } := ⟨h.clean, h.wf⟩
  exact foldl_undone (fun _ e hs => reportRemoved_undone (undoPermitData_undone hs e) _ _) _ hs

/-! ## The Decision Engine takes a notice (R77, R87 to R90) -/

/-- What the engine's taking of a notice leaves when the permits it reaches have been undone. -/
theorem Undone.given {ids : List Nat} {claims : List Claim} {s t : State} (h : Undone ids claims s t) :
    removedUnsent ids s t ∧ givenBack claims s t := ⟨h.removed, givenBack_of_slots h.slots⟩

theorem marked_eq (d : Decision) (m : WithdrawalMark) : d.marked m = if d.mark = none then { d with mark := some m } else d := by
  unfold Decision.marked
  cases d.mark <;> rfl

theorem decisionCredentials_contains (s : State) (d : Decision) (c : Credential) :
    (decisionCredentials s d).contains c = true ↔ s.decides d c := by
  rw [List.contains_iff_mem, decisionCredentials, State.decides]
  cases hh : d.holding with
  | none | openingPair k | openingApproval k =>
    exact ⟨fun h => .inl (List.mem_singleton.mp h).symm, fun h => List.mem_singleton.mpr
      (h.elim Eq.symm fun ⟨_, _, hk, _⟩ => nomatch hk)⟩
  | completing k =>
    cases hp : s.pair k with
    | none =>
      simp only [hp]
      refine ⟨fun h => .inl (List.mem_singleton.mp h).symm, fun h => List.mem_singleton.mpr (h.elim Eq.symm ?_)⟩
      rintro ⟨k', x, hk, hx, -⟩
      cases hk
      rw [hp] at hx
      cases hx
    | some x =>
      simp only [hp, List.mem_cons, List.not_mem_nil, or_false]
      constructor
      · rintro (h | h)
        · exact .inl h.symm
        · exact .inr ⟨k, x, rfl, hp, h.symm⟩
      · rintro (h | ⟨k', y, hk, hy, h⟩)
        · exact .inl h.symm
        · cases hk
          rw [hp] at hy
          cases hy
          exact .inr h.symm

/-- The Verdict Queue, the permits undone and the rest, after a withdrawal by a notice. -/
structure Withdrew (hit : PermitData → Bool) (r : DenyReason) (s t : State) : Prop where
  verdicts : t.verdicts = s.verdicts.map (afterWithdrawal hit r)
  removed : removedUnsent (recordsOf (fun e => e.permit.any hit) s) s t
  given : givenBack (claimsOf (fun e => e.permit.any hit) s) s t
  pairs : t.pairs = s.pairs
  referrals : t.referrals = s.referrals
  requests : t.requests = s.requests

/-- What lies in the Verdict Queue and beyond does not hang on the notices, the command or the seat. -/
theorem Withdrew.congr {hit : PermitData → Bool} {r : DenyReason} {s t u : State} (h : Withdrew hit r s t)
    (hv : u.verdicts = t.verdicts) (hp : u.presence = t.presence) (hg : u.grants = t.grants) (hk : u.pairs = t.pairs)
    (hr : u.referrals = t.referrals) (hq : u.requests = t.requests) : Withdrew hit r s u := by
  refine ⟨hv.trans h.verdicts, ?_, ?_, hk.trans h.pairs, hr.trans h.referrals, hq.trans h.requests⟩
  · intro id
    rw [State.index, State.record, hp]
    exact h.removed id
  · intro j st issue g hj hf hd hb
    rw [State.slot, hg]
    exact h.given j st issue g hj hf hd hb

section
variable {s : State} {cmd : Bool} {l1 l2 : List Outstanding} (hs : Whole s) (ha : s.awake = true)

include hs in
theorem withdrawWhere_withdrew (hit : PermitData → Bool) (r : DenyReason) :
    ∃ u, withdrawWhere hit r (s.taking l1 l2) = ((s.verdicts.filter (fun e => e.permit.any hit)).length, u) ∧
      Withdrew hit r s u ∧ Whole u ∧ u.seat = s.seat ∧ u.work = s.work ∧ u.notices = l1 ++ l2 ∧ u.pairs = s.pairs ∧
      u.awake = s.awake := by
  obtain ⟨hcount, hu⟩ := withdrawWhere_undone (hs.taking l1 l2) hit r
  refine ⟨(withdrawWhere hit r (s.taking l1 l2)).2, Prod.ext hcount rfl, ?_⟩
  generalize (withdrawWhere hit r (s.taking l1 l2)).2 = u at hu
  have hv := congrArg State.verdicts hu.frame
  have hp := congrArg State.pairs hu.frame
  have hr := congrArg State.referrals hu.frame
  have hq := congrArg State.requests hu.frame
  have hseat := congrArg State.seat hu.frame
  have hwork := congrArg State.work hu.frame
  have hn := congrArg State.notices hu.frame
  have hawake := congrArg State.awake hu.frame
  obtain ⟨hrem, hgiven⟩ := hu.given
  exact ⟨⟨hv, hrem, hgiven, hp, hr, hq⟩, hu.whole, hseat, hwork, hn, hp, hawake⟩

include ha

theorem exec_revokeNotice_engine {h : Handle} (hold : s.oldest l1 .decisionEngine (.revoke h) cmd l2) :
    exec (noticeRow (.revoke h) .decisionEngine) s = .next (reportTo ⟨.decisionEngine, .revoke h, cmd⟩
      (.withdrew (engineRevoke h (s.taking l1 l2)).1) (engineRevoke h (s.taking l1 l2)).2) :=
  congrArg Host.Outcome.next (onNotice_of_oldest ha hold (kindOf_revoke _ h) (takeRevoke .decisionEngine))

theorem exec_barNotice_engine {c : Credential} (hold : s.oldest l1 .decisionEngine (.bar c) cmd l2) :
    exec (noticeRow (.bar c) .decisionEngine) s = .next (giveNotices [.presencePool] (.bar c) cmd
      (reportTo ⟨.decisionEngine, .bar c, cmd⟩ (.withdrew (engineBar c (s.taking l1 l2)).1)
        (engineBar c (s.taking l1 l2)).2)) :=
  congrArg Host.Outcome.next (onNotice_of_oldest ha hold (kindOf_bar _ c) (takeBar .decisionEngine))

theorem exec_modeNotice_engine {m : BuildingMode} (hold : s.oldest l1 .decisionEngine (.mode m) cmd l2) :
    exec (.modeNotice .decisionEngine) s = .next (reportTo ⟨.decisionEngine, .mode m, cmd⟩
      (.withdrew (engineMode m (s.taking l1 l2)).1) (engineMode m (s.taking l1 l2)).2) := by
  refine congrArg Host.Outcome.next ((onNotice_of_oldest ha hold (kindOf_mode _ m) (takeMode .decisionEngine)).trans ?_)
  cases m <;> rfl

end

end Sys2Proof.Machine

namespace Sys2Proof.Machine
open Sys2Proof

/-! ### Each notice to the engine -/

section
variable {s : State} {cmd : Bool} {l1 l2 : List Outstanding} (hs : Whole s) (ha : s.awake = true)

/-- The counts that the command of a withdrawal is told. -/
theorem report_withdrew (u : State) (hw : u.work = s.work) (o : Outstanding) (n : Nat) :
    (reportTo o (.withdrew n) u).work = if o.ofCommand = true then s.work.map (fun w => w.add ⟨n, 0, 0⟩) else s.work := by
  rw [reportTo_eq, ← hw]
  rfl

include hs ha

theorem revokeNotice_withdrew {h : Handle} (hold : s.oldest l1 .decisionEngine (.revoke h) cmd l2) :
    ∃ t, exec (noticeRow (.revoke h) .decisionEngine) s = .next t ∧
      Withdrew (fun p => p.claims.any (fun c => decide (c.handle = h))) .revoked s t ∧
      t.work = (if cmd = true then s.work.map (fun w => w.add ⟨(s.verdicts.filter (fun e => e.permit.any
        (fun p => p.claims.any (fun c => decide (c.handle = h))))).length, 0, 0⟩) else s.work) ∧
      t.notices = l1 ++ l2 ∧
      t.seat = s.seat.map (fun d => if (d.claims.any (fun c => decide (c.handle = h))) = true ∧ d.mark = none then
        { d with mark := some .revoked } else d) := by
  obtain ⟨u, hu, hw, -, hseat, hwork, hn, -⟩ := withdrawWhere_withdrew (l1 := l1) (l2 := l2) hs
    (fun p => p.claims.any (fun c => decide (c.handle = h))) .revoked
  have hengine : engineRevoke h (s.taking l1 l2) = (_, updateSeat
      (fun d => if d.claims.any (fun c => decide (c.handle = h)) then d.marked .revoked else d) u) :=
    congrArg (fun q => (q.1, updateSeat
      (fun d => if d.claims.any (fun c => decide (c.handle = h)) then d.marked .revoked else d) q.2)) hu
  have hexec := exec_revokeNotice_engine ha hold
  rw [hengine] at hexec
  dsimp only at hexec
  refine ⟨_, hexec, ?_, report_withdrew _ (by exact hwork) _ _, ?_, ?_⟩ <;> rw [reportTo_eq]
  · exact hw.congr rfl rfl rfl rfl rfl rfl
  · exact hn
  · refine (congrArg (Option.map _) hseat).trans (congrArg (fun f => s.seat.map f) (funext fun d => ?_))
    rw [marked_eq]
    split_ifs <;> tauto

theorem barNotice_withdrew {c : Credential} (hold : s.oldest l1 .decisionEngine (.bar c) cmd l2) :
    ∃ t, exec (noticeRow (.bar c) .decisionEngine) s = .next t ∧
      Withdrew (fun p => p.credentials.contains c) .barred s t ∧
      t.work = (if cmd = true then s.work.map (fun w => w.add ⟨(s.verdicts.filter (fun e => e.permit.any
        (fun p => p.credentials.contains c))).length, 0, 0⟩) else s.work) ∧
      t.notices = l1 ++ l2 ++ [⟨.presencePool, .bar c, cmd⟩] ∧
      t.seat = s.seat.map (fun d => if (decisionCredentials s d).contains c then d.marked .barred else d) := by
  obtain ⟨u, hu, hw, -, hseat, hwork, hn, hpairs, -⟩ := withdrawWhere_withdrew (l1 := l1) (l2 := l2) hs
    (fun p => p.credentials.contains c) .barred
  have hengine : engineBar c (s.taking l1 l2) = (_, updateSeat
      (fun d => if (decisionCredentials u d).contains c then d.marked .barred else d) u) :=
    congrArg (fun q => (q.1, updateSeat
      (fun d => if (decisionCredentials q.2 d).contains c then d.marked .barred else d) q.2)) hu
  have hexec := exec_barNotice_engine ha hold
  rw [hengine] at hexec
  dsimp only at hexec
  have hcards : decisionCredentials u = decisionCredentials s := funext fun d => by
    unfold decisionCredentials State.pair
    rw [hpairs]
  refine ⟨_, hexec, ?_, report_withdrew _ (by exact hwork) _ _, ?_, ?_⟩ <;> rw [reportTo_eq]
  · exact hw.congr rfl rfl rfl rfl rfl rfl
  · exact congrArg (· ++ _) hn
  · rw [hcards]
    exact congrArg (Option.map _) hseat

theorem lockdownNotice_withdrew (hold : s.oldest l1 .decisionEngine (.mode .lockdown) cmd l2) :
    ∃ t, exec (.modeNotice .decisionEngine) s = .next t ∧ Withdrew (fun _ => true) .lockdown s t ∧
      t.work = (if cmd = true then s.work.map (fun w => w.add ⟨(s.verdicts.filter (fun e => e.permit.any
        (fun _ => true))).length, 0, 0⟩) else s.work) ∧
      t.notices = l1 ++ l2 ∧ t.seat = s.seat := by
  obtain ⟨u, hu, hw, -, hseat, hwork, hn, -⟩ := withdrawWhere_withdrew (l1 := l1) (l2 := l2) hs (fun _ => true) .lockdown
  have hexec := exec_modeNotice_engine ha hold
  have hengine : engineMode .lockdown (s.taking l1 l2) = (_, u) := hu
  rw [hengine] at hexec
  dsimp only at hexec
  refine ⟨_, hexec, ?_, report_withdrew _ (by exact hwork) _ _, ?_, ?_⟩ <;> rw [reportTo_eq]
  · exact hw.congr rfl rfl rfl rfl rfl rfl
  · exact hn
  · exact hseat

theorem tamperNotice_withdrew (hold : s.oldest l1 .decisionEngine .tamper cmd l2) :
    ∃ t, exec (noticeRow .tamper .decisionEngine) s = .next t ∧ Withdrew (fun _ => true) .tamper s t ∧
      t.work = s.work ∧ t.seat = s.seat := by
  obtain ⟨u, hu, hw, hwhole, hseat, hwork, hn, -, hawake⟩ := withdrawWhere_withdrew (l1 := l1) (l2 := l2) hs
    (fun _ => true) .tamper
  have hengine : blockTamper .decisionEngine (s.taking l1 l2) = u := congrArg Prod.snd hu
  have hexec : exec (noticeRow .tamper .decisionEngine) s =
    .next (settleTamper (blockTamper .decisionEngine (s.taking l1 l2))) :=
    congrArg Host.Outcome.next (tamperNoticeStep_of_oldest ha hold)
  rw [hengine] at hexec
  have hframe := (settleTamper_settled hwhole.clean (hawake.trans ha)).frame
  have hpresence := congrArg State.presence hframe
  have hgrants := congrArg State.grants hframe
  have hv := congrArg State.verdicts hframe
  have hp := congrArg State.pairs hframe
  have hr := congrArg State.referrals hframe
  have hq := congrArg State.requests hframe
  have hwork' := congrArg State.work hframe
  have hseat' := congrArg State.seat hframe
  exact ⟨_, hexec, hw.congr hv hpresence hgrants hp hr hq, hwork'.trans hwork, hseat'.trans hseat⟩

omit hs in
/-- A FIRE notice withdraws nothing. -/
theorem fireNotice_engine (hold : s.oldest l1 .decisionEngine (.mode .fire) cmd l2) :
    exec (.modeNotice .decisionEngine) s = .next { s with
      notices := l1 ++ l2, work := if cmd then s.work.map (fun w => w.add ⟨0, 0, 0⟩) else s.work } := by
  rw [exec_modeNotice_engine ha hold, reportTo_eq]
  rfl

/-! ### A loss notice and the stop notice -/

omit ha in
/-- The entries and the permits of stations that are gone, once the engine has removed them outright. -/
theorem removeEntries_removed (gone : Nat → Bool) : ∃ u, removeEntries (fun e => gone e.station) (s.taking l1 l2) = u ∧
    u.verdicts = s.verdicts.filter (fun e => !gone e.station) ∧ removedUnsent (recordsOf (fun e => gone e.station) s) s u ∧
    givenBack (claimsOf (fun e => gone e.station) s) s u ∧ u.seat = s.seat ∧ u.pairs = s.pairs ∧
    u.referrals = s.referrals ∧ u.requests = s.requests ∧ u.notices = l1 ++ l2 := by
  have hu := removeEntries_undone (hs.taking l1 l2) (fun e => gone e.station)
  refine ⟨_, rfl, ?_⟩
  generalize removeEntries (fun e => gone e.station) (s.taking l1 l2) = u at hu
  have hv := congrArg State.verdicts hu.frame
  have hp := congrArg State.pairs hu.frame
  have hr := congrArg State.referrals hu.frame
  have hq := congrArg State.requests hu.frame
  have hseat := congrArg State.seat hu.frame
  have hn := congrArg State.notices hu.frame
  obtain ⟨hrem, hgiven⟩ := hu.given
  exact ⟨hv, hrem, hgiven, hseat, hp, hr, hq, hn⟩

/-- The stations that a loss notice or the stop notice ends. -/
def Notice.ends (n : Notice) (gone : Nat → Bool) : Prop :=
  (∃ k, n = .loss k ∧ gone = fun j => decide (j = k)) ∨ (n = .stop ∧ gone = fun _ => true)

omit hs in
theorem endNotice_engine {n : Notice} {gone : Nat → Bool} (hn : n.ends gone) (hold : s.oldest l1 .decisionEngine n cmd l2) :
    exec (noticeRow n .decisionEngine) s = .next (updateSeat
      (fun d => if gone d.station then { d with abandoned := true } else d)
      (removeEntries (fun e => gone e.station) (s.taking l1 l2))) := by
  rcases hn with ⟨k, rfl, rfl⟩ | ⟨rfl, rfl⟩
  · refine (congrArg Host.Outcome.next (onNotice_of_oldest ha hold (kindOf_loss _ k) (takeLoss .decisionEngine))).trans ?_
    simp only [decide_eq_true_eq]
    rfl
  · exact congrArg Host.Outcome.next
      (onNotice_of_oldest ha hold (kindOf_stop _) (fun _ s => blockStop .decisionEngine s))

omit hs in
theorem endNotice_queue {n : Notice} {gone : Nat → Bool} (hn : n.ends gone) (hold : s.oldest l1 .requestQueue n cmd l2) :
    exec (noticeRow n .requestQueue) s = .next (removeRequests (fun r => gone r.station) (s.taking l1 l2)) := by
  rcases hn with ⟨k, rfl, rfl⟩ | ⟨rfl, rfl⟩
  · exact congrArg Host.Outcome.next (onNotice_of_oldest ha hold (kindOf_loss _ k) (takeLoss .requestQueue))
  · exact congrArg Host.Outcome.next
      (onNotice_of_oldest ha hold (kindOf_stop _) (fun _ s => blockStop .requestQueue s))

end

/-! ### The Request Queue takes a notice (R67, R140) -/

theorem getLsbD_withoutSequence (set : BitVec 16) (q x : Sequence) :
    (withoutSequence set q).getLsbD x.toNat = true ↔ set.getLsbD x.toNat = true ∧ x ≠ q := by
  have hx : x.toNat < 16 := x.isLt
  have hne : x ≠ q ↔ x.toNat ≠ q.toNat := by rw [Ne, Ne, ← BitVec.toNat_inj]
  rw [hne]
  simp [withoutSequence, hx]

/-- The requests of a list have been forgotten: their sequences have left the in-flight sets. -/
structure Forgotten (rs : List Request) (s t : State) : Prop where
  frame : t = { s with stations := t.stations }
  wf : t.tablesWf = true
  station : ∀ k, t.station k = { s.station k with inFlight := (t.station k).inFlight }
  inFlight : ∀ k (q : Sequence), (t.station k).inFlight.getLsbD q.toNat = true ↔
    (s.station k).inFlight.getLsbD q.toNat = true ∧ ¬ ∃ r ∈ rs, r.station = k ∧ r.sequence = q

theorem forgetRequest_forgotten {s : State} (hw : s.tablesWf = true) {r : Request}
    (hno : ∀ x ∈ s.requests, x.station ≠ r.station) : Forgotten [r] s (forgetRequest r.station r.sequence s) := by
  have hany : s.requests.any (fun x => decide (x.station = r.station ∧ x.sequence = r.sequence)) = false := by
    rw [List.any_eq_false]
    exact fun x hx => by simp [hno x hx]
  obtain ⟨hg, hr, hp, hs, hk⟩ := (tablesWf_iff s).mp hw
  have hset := fun k => station_setStation (s := s) hs r.station k
    { s.station r.station with inFlight := withoutSequence (s.station r.station).inFlight r.sequence }
  rw [forgetRequest, hany, if_neg Bool.false_ne_true, updateStation]
  refine ⟨rfl, (tablesWf_iff _).mpr ⟨hg, hr, hp, Table.wf_set _ hs _ _, hk⟩, fun k => ?_, fun k q => ?_⟩
  · rw [hset]
    split
    · rename_i hkr
      rw [hkr]
    · rfl
  · rw [hset]
    split
    · rename_i hkr
      rw [getLsbD_withoutSequence, hkr]
      refine and_congr_right fun _ => not_congr ⟨fun hq => ⟨r, List.mem_singleton.mpr rfl, rfl, hq.symm⟩, ?_⟩
      rintro ⟨x, hx, -, hq⟩
      rw [← hq, List.mem_singleton.mp hx]
    · rename_i hkr
      refine ⟨fun h => ⟨h, ?_⟩, And.left⟩
      rintro ⟨x, hx, hxk, -⟩
      rw [List.mem_singleton.mp hx] at hxk
      exact hkr hxk.symm

theorem Forgotten.trans {a b : List Request} {s t u : State} (h : Forgotten a s t) (k : Forgotten b t u) :
    Forgotten (a ++ b) s u := by
  refine ⟨?_, k.wf, fun j => ?_, fun j q => ?_⟩
  · have hk := k.frame
    rw [h.frame] at hk
    exact hk
  · rw [k.station j, h.station j]
  · rw [k.inFlight, h.inFlight]
    simp only [List.mem_append, or_and_right, exists_or, not_or, and_assoc]

theorem removeRequests_forgotten {s : State} (hw : s.tablesWf = true) (gone : Nat → Bool) :
    Forgotten (s.requests.filter (fun r => gone r.station)) { s with requests := s.requests.filter (fun r => !gone r.station) }
      (removeRequests (fun r => gone r.station) s) := by
  have hfold : ∀ (rs : List Request) (t : State), t.tablesWf = true → (∀ r ∈ rs, ∀ x ∈ t.requests, x.station ≠ r.station) →
      Forgotten rs t (rs.foldl (fun s r => forgetRequest r.station r.sequence s) t) := by
    intro rs
    induction rs with
    | nil => exact fun t ht _ => ⟨rfl, ht, fun _ => rfl, fun _ _ => by simp⟩
    | cons r rs ih =>
      intro t ht hno
      have hone := forgetRequest_forgotten ht (hno r List.mem_cons_self)
      have hrequests := congrArg State.requests hone.frame
      exact hone.trans (ih _ hone.wf fun x hx y hy => hno x (List.mem_cons_of_mem _ hx) y (hrequests ▸ hy))
  refine hfold _ _ hw fun r hr x hx hxr => ?_
  have hgone := (List.mem_filter.mp hr).2
  have hstays := (List.mem_filter.mp hx).2
  rw [hxr, hgone] at hstays
  exact Bool.noConfusion hstays

/-! ### A row whose notice is not outstanding -/

theorem outstanding_none {s : State} {n : Notice} {b : Block} {kind : Notice → Bool} (hk : KindOf kind n b)
    (h : ∀ o ∈ s.notices, o.receiver = b → noticeRow o.notice b ≠ noticeRow n b) : s.outstanding b kind = none := by
  refine List.find?_eq_none.mpr fun o ho => ?_
  simp only [Bool.and_eq_true, decide_eq_true_eq, not_and]
  exact fun hb hkind => h o ho hb ((hk _).mp hkind)

theorem onNotice_none {s : State} {n : Notice} {b : Block} {kind : Notice → Bool} (hk : KindOf kind n b)
    (h : ∀ o ∈ s.notices, o.receiver = b → noticeRow o.notice b ≠ noticeRow n b) (act : Outstanding → State → State) :
    onNotice b kind act s = s := by
  simp only [onNotice, outstanding_none hk h, ite_self]

theorem kindOf_fault (k : Nat) (b : Block) : KindOf Notice.isFault (.stationFault k) b := fun m => by
  cases m <;> simp [Notice.isFault, noticeRow]

theorem kindOf_tamper (b : Block) : KindOf Notice.isTamper .tamper b := fun m => by
  cases m <;> simp [Notice.isTamper, noticeRow]

theorem exec_notice_none {s : State} {n : Notice} {b : Block}
    (h : ∀ o ∈ s.notices, o.receiver = b → noticeRow o.notice b ≠ noticeRow n b)
    (hb : b = .presencePool ∨ ((∀ c, n ≠ .unbar c) ∧ ∀ h, n ≠ .overstay h)) : exec (noticeRow n b) s = .next s := by
  cases n with
  | revoke g => exact congrArg Host.Outcome.next (onNotice_none (kindOf_revoke b g) h (takeRevoke b))
  | bar c => exact congrArg Host.Outcome.next (onNotice_none (kindOf_bar b c) h (takeBar b))
  | unbar c =>
    obtain rfl : b = .presencePool := hb.resolve_right fun hh => hh.1 c rfl
    exact congrArg Host.Outcome.next (onNotice_none (kindOf_unbar _ c) h takeUnbar)
  | overstay g =>
    obtain rfl : b = .presencePool := hb.resolve_right fun hh => hh.2 g rfl
    exact congrArg Host.Outcome.next (onNotice_none (kindOf_overstay _ g) h takeOverstay)
  | loss k => exact congrArg Host.Outcome.next (onNotice_none (kindOf_loss b k) h (takeLoss b))
  | stop => exact congrArg Host.Outcome.next (onNotice_none (kindOf_stop b) h (fun _ s => blockStop b s))
  | stationFault k => exact congrArg Host.Outcome.next (onNotice_none (kindOf_fault k b) h (takeFault b))
  | mode m => exact congrArg Host.Outcome.next (onNotice_none (kindOf_mode b m) h (takeMode b))
  | tamper =>
    refine congrArg Host.Outcome.next ?_
    simp only [tamperNoticeStep, outstanding_none (kindOf_tamper b) h, ite_self]

/-- Settles O53: the withdrawals notice by notice, the outright removals, the requests dropped, and the idle rows. -/
theorem engineAndQueueTakeNotices : Obligations.EngineAndQueueTakeNotices := by
  unfold Obligations.EngineAndQueueTakeNotices
  intro s ha hu hw
  have hs : Whole s := ⟨hu, hw⟩
  refine ⟨fun n cmd l1 l2 hit r hold hn => ?_, fun cmd l1 l2 hold => fireNotice_engine ha hold,
    fun n cmd l1 l2 gone hold hn => ?_, fun n cmd l1 l2 gone hold hn => ?_, fun n b h hb => exec_notice_none h hb⟩
  · cases n with
    | revoke h =>
      cases hn
      obtain ⟨t, hexec, hwd, hwork, hnot, hseat⟩ := revokeNotice_withdrew hs ha hold
      refine ⟨t, hexec, hwd.verdicts, hwd.removed, hwd.given, ?_, fun _ hq => (nomatch hq), fun _ => hnot, fun g hq => ?_,
        fun _ _ hq => (nomatch hq), fun hq => ?_, hwd.pairs, hwd.referrals, hwd.requests⟩
      · simpa using hwork
      · cases hq
        exact hseat
      · rcases hq with ⟨m, hq⟩ | hq | hq
        · cases hq
        · cases hq
        · rw [hseat, hq]
          rfl
    | bar c =>
      cases hn
      obtain ⟨t, hexec, hwd, hwork, hnot, hseat⟩ := barNotice_withdrew hs ha hold
      refine ⟨t, hexec, hwd.verdicts, hwd.removed, hwd.given, ?_, fun x hq => ?_, fun hq => ?_, fun _ hq => (nomatch hq),
        fun x d hq hd => ?_, fun hq => ?_, hwd.pairs, hwd.referrals, hwd.requests⟩
      · simpa using hwork
      · cases hq
        exact hnot
      · rcases hq with ⟨m, hq⟩ | ⟨m, hq⟩ <;> cases hq
      · cases hq
        have hcards := decisionCredentials_contains s d c
        rw [hseat, hd, Option.map_some]
        refine ⟨fun hdec hmark => by rw [if_pos (hcards.mpr hdec), marked_eq, if_pos hmark], fun hno => ?_⟩
        rcases hno with hno | hno
        · rw [if_neg (fun hh => hno (hcards.mp hh))]
        · rw [marked_eq, if_neg hno, ite_self]
      · rcases hq with ⟨m, hq⟩ | hq | hq
        · cases hq
        · cases hq
        · rw [hseat, hq]
          rfl
    | mode m =>
      cases m with
      | lockdown =>
        cases hn
        obtain ⟨t, hexec, hwd, hwork, hnot, hseat⟩ := lockdownNotice_withdrew hs ha hold
        refine ⟨t, hexec, hwd.verdicts, hwd.removed, hwd.given, ?_, fun _ hq => (nomatch hq), fun _ => hnot,
          fun _ hq => (nomatch hq), fun _ _ hq => (nomatch hq), fun _ => hseat, hwd.pairs, hwd.referrals, hwd.requests⟩
        simpa using hwork
      | fire => cases hn
      | normal => cases hn
    | tamper =>
      cases hn
      obtain ⟨t, hexec, hwd, hwork, hseat⟩ := tamperNotice_withdrew hs ha hold
      refine ⟨t, hexec, hwd.verdicts, hwd.removed, hwd.given, ?_, fun _ hq => (nomatch hq), fun hq => ?_,
        fun _ hq => (nomatch hq), fun _ _ hq => (nomatch hq), fun _ => hseat, hwd.pairs, hwd.referrals, hwd.requests⟩
      · simpa using hwork
      · rcases hq with ⟨m, hq⟩ | ⟨m, hq⟩ <;> cases hq
    | unbar c => cases hn
    | overstay h => cases hn
    | loss k => cases hn
    | stationFault k => cases hn
    | stop => cases hn
  · obtain ⟨u, hu, hv, hrem, hgiven, hseat, hp, hr, hq, hnot⟩ := removeEntries_removed hs (l1 := l1) (l2 := l2) gone
    have hexec := endNotice_engine ha hn hold
    rw [hu] at hexec
    refine ⟨_, hexec, hv, hrem, hgiven, ?_, hp, hr, hq, hnot⟩
    rw [← hseat]
    rfl
  · have hf := removeRequests_forgotten (hs.taking l1 l2).wf gone
    have hrequests := congrArg State.requests hf.frame
    refine ⟨_, endNotice_queue ha hn hold, hrequests, ?_, fun k => ⟨hf.station k, fun q => ?_⟩⟩
    · rw [hrequests]
      exact hf.frame
    · rw [hf.inFlight]
      simp only [List.mem_filter, and_assoc]
      rfl

end Sys2Proof.Machine

namespace Sys2Proof.Machine
open Sys2Proof

/-! ## The undoing of a device reset (R91) -/

/-- A cause raised in FULL supply: latched, or kept while the part is quiet (R177, R179). -/
theorem raise_of_full {s : State} (h : s.supply = .full) (c : Cause) : raise c s =
    if s.resetLow || s.resetting then { s with resetCauses := s.resetCauses ||| c.word }
    else { s with attention := s.attention ||| c.word } := by
  simp only [raise, h]

/-- The claim that an UNSENT record names, where it can be read (R91). -/
def State.claimOf (s : State) (id : Nat) : List Claim :=
  if (s.index id).faulted then []
  else ((s.record id).body.value.handle.map (fun h => (⟨h, (s.index id).useTaken⟩ : Claim))).toList

theorem removeReturning_eq {s : State} (h : Whole s) (id : Nat) :
    removeReturning id s = returnClaims (s.claimOf id) (removeRecord id s) := by
  unfold removeReturning State.claimOf
  simp only [readPresenceBody_undamaged h.clean]
  cases (s.index id).faulted
  · cases hh : (s.record id).body.value.handle <;> simp only [Bool.false_eq_true, if_false, hh] <;> rfl
  · rfl

/-- Records have been removed and uses given back; the latches have taken PRESENCE ALERT or not. -/
structure Swept (gone : List Nat) (claims : List Claim) (s t : State) : Prop extends RecordsRemoved gone s t where
  whole : Whole t
  frame : ∃ alert, t = { raiseIf alert .presenceAlert s with presence := t.presence, rooms := t.rooms, grants := t.grants }
  slots : ∀ j, t.slot j = s.slotAfterReturns claims j

theorem raiseIf_stores (b : Bool) (c : Cause) (s : State) (p : Table PresenceRecord) (r : Table Room) (g : Table Slot) :
    raiseIf b c { s with presence := p, rooms := r, grants := g } =
      { raiseIf b c s with presence := p, rooms := r, grants := g } := by
  cases b
  · rfl
  · show raise c { s with presence := p, rooms := r, grants := g } =
      { raise c s with presence := p, rooms := r, grants := g }
    unfold raise
    dsimp only
    split
    · by_cases hr : (s.resetLow || s.resetting) = true
      · rw [if_pos hr, if_pos (by exact hr)]
      · rw [if_neg hr, if_neg (by exact hr)]
    · cases hd : c.deferrable
      · rfl
      · cases hc : s.deferred.clean <;> rfl

theorem RecordsRemoved.of_same {gone : List Nat} {s t u : State} (h : RecordsRemoved gone s t) (hp : u.presence = t.presence)
    (hr : u.rooms = t.rooms) : RecordsRemoved gone s u := by
  have hrecord : ∀ k, u.record k = t.record k := fun k => by rw [State.record, hp]; rfl
  have hroom : ∀ r, u.room r = t.room r := fun r => by rw [State.room, hr]; rfl
  have hindex : ∀ k, u.index k = t.index k := fun k => by rw [State.index, hrecord]; rfl
  exact ⟨fun k hk => (hrecord k).trans (h.free k hk), fun k hk hin => (hindex k).trans (h.index k hk hin),
    fun k hk hin => by rw [hrecord]; exact h.body k hk hin, fun k hk hin => (hrecord k).trans (h.idle k hk hin),
    fun r => by rw [hroom]; exact h.header r, fun r => by rw [hroom]; exact h.room r⟩

theorem Swept.append {gone : List Nat} {claims : List Claim} {s t : State} (hs : Whole s) (h : Swept gone claims s t) {id : Nat}
    (hin : (t.index id).inUse = true) : Swept (gone ++ [id]) (claims ++ t.claimOf id) s (removeReturning id t) := by
  have hone := removeRecord_removed h.whole id
  obtain ⟨b, hb⟩ := hone.change
  obtain ⟨a, ha⟩ := h.frame
  have hrest := hb.rest h.whole
  have hclock : t.clock = s.clock := by
    rw [ha, raiseIf_eq (Undamaged.of hs.clean).deferred]
  have hgrants := congrArg State.grants hrest
  have hclock' := congrArg State.clock hrest
  have hret := returnClaims_eq (t.claimOf id) hb.whole.clean
  rw [removeReturning_eq h.whole]
  refine ⟨(h.toRecordsRemoved.append hin hone).of_same (by rw [hret]) (by rw [hret]), hb.whole.returnClaims _,
    ⟨a || b, ?_⟩, fun j => ?_⟩
  · have hraise := (congrArg (raiseIf b .presenceAlert) ha).trans
      (raiseIf_stores b .presenceAlert (raiseIf a .presenceAlert s) t.presence t.rooms t.grants)
    rw [raiseIf_raiseIf (Undamaged.of hs.clean).deferred] at hraise
    have hframe := hb.frame
    rw [hraise] at hframe
    rw [hret]
    generalize (returnClaims (t.claimOf id) (removeRecord id t)).grants = g
    generalize removeRecord id t = u at hframe ⊢
    rw [hframe]
  · have hslots := returnClaims_slot (t.claimOf id) hb.whole.clean hb.whole.wf j
    have hsame : (removeRecord id t).slotAfterReturns (t.claimOf id) j = t.slotAfterReturns (t.claimOf id) j := by
      rw [slotAfterReturns_eq, slotAfterReturns_eq, State.slot, hgrants, hclock']
      rfl
    exact slotAfterReturns_append hclock (h.slots j) (hslots.trans hsame)

/-- What a record names stays while others leave. -/
theorem RecordsRemoved.claimOf {gone : List Nat} {s t : State} (h : RecordsRemoved gone s t) {k : Nat} (hk : k ∉ gone)
    (hin : (s.index k).inUse = true) : t.claimOf k = s.claimOf k := by
  obtain ⟨-, -, -, hf, ht⟩ := h.same hk
  have hhandle : (t.record k).body.value.handle = (s.record k).body.value.handle := by
    rw [h.body k hk hin]
    rcases (s.room (s.index k).room).view.readable_or with hv | ⟨closed, b, hv⟩
    · rw [bodyAfterRemovals_of_unreadable hv]
    · rw [bodyAfterRemovals_of_readable hv]
      split <;> rfl
  rw [State.claimOf, State.claimOf, hf, ht, hhandle]

theorem foldl_removeReturning {s : State} (hs : Whole s) {ids : List Nat} (hn : ids.Nodup)
    (hin : ∀ id ∈ ids, (s.index id).inUse = true) {gone : List Nat} {claims : List Claim} {t : State}
    (h : Swept gone claims s t) (hd : ∀ id ∈ ids, id ∉ gone) :
    Swept (gone ++ ids) (claims ++ ids.flatMap s.claimOf) s (ids.foldl (fun s id => removeReturning id s) t) := by
  induction ids generalizing gone claims t with
  | nil => simpa using h
  | cons id ids ih =>
    obtain ⟨hid, hn⟩ := List.nodup_cons.mp hn
    have hidg := hd id List.mem_cons_self
    have hidin := hin id List.mem_cons_self
    have hone := h.append hs ((h.inUse id).mpr ⟨hidin, hidg⟩)
    rw [h.claimOf hidg hidin] at hone
    have hrest := ih hn (fun k hk => hin k (List.mem_cons_of_mem _ hk)) hone (fun k hk hh => by
      rcases List.mem_append.mp hh with hh | hh
      · exact hd k (List.mem_cons_of_mem _ hk) hh
      · exact hid (List.mem_singleton.mp hh ▸ hk))
    simpa only [List.append_assoc, List.singleton_append, List.flatMap_cons, List.foldl_cons] using hrest

theorem Swept.refl {s : State} (h : Whole s) : Swept [] [] s s :=
  ⟨.nil s, h, ⟨false, rfl⟩, fun j => (slotAfterReturns_nil s j).symm⟩

theorem claimsGivenBack_eq (s : State) : s.claimsGivenBack =
    (match s.seat with
      | none => []
      | some d => if d.records = [] then d.claims else []) ++ s.unsentRecords.flatMap s.claimOf := by
  unfold State.claimsGivenBack
  congr 1
  rw [List.filterMap_eq_flatMap_toList]
  refine congrArg (fun f => s.unsentRecords.flatMap f) (funext fun id => ?_)
  unfold State.claimOf
  split <;> rfl

end Sys2Proof.Machine

namespace Sys2Proof.Machine
open Sys2Proof

theorem Cause.getLsbD_word (c d : Cause) : c.word.getLsbD d.bit = decide (c = d) := by
  cases c <;> cases d <;> rfl

/-! ## A device reset, block by block (R91, R180) -/

/-- The claims in hand that have admitted no record. -/
def State.claimsInHand (s : State) : List Claim :=
  match s.seat with
  | none => []
  | some d => if d.records = [] then d.claims else []

theorem returnSeatClaims_eq (s : State) : returnSeatClaims s = returnClaims s.claimsInHand s := by
  unfold returnSeatClaims State.claimsInHand
  cases s.seat with
  | none => rfl
  | some d =>
    by_cases hr : d.records = []
    · simp only [hr, if_true]
    · simp only [hr, if_false]
      rfl

theorem removeAllUnsent_eq {s : State} (h : Whole s) :
    removeAllUnsent s = s.unsentRecords.foldl (fun s id => removeReturning id s) s := by
  unfold removeAllUnsent State.unsentRecords
  rw [scanIndexes_undamaged h.clean]

/-- A reset has emptied ATTENTION, the queues of the entries and the seat, removed the UNSENT records and given the uses
back. -/
structure ResetUndone (x t : State) : Prop where
  whole : Whole t
  frame : t = { x with
    requests := [], seat := none, verdicts := [], attentionTaken := none, attention := t.attention,
    resetCauses := t.resetCauses, presence := t.presence, rooms := t.rooms, grants := t.grants }
  records : RecordsRemoved x.unsentRecords x t
  slots : ∀ j, t.slot j = x.slotAfterReturns x.claimsGivenBack j
  causes : ∀ c : Cause, t.attention.getLsbD c.bit = true → c = .presenceAlert
  quiet : x.resetLow = true → t.attention = 0

/-- The state in which a reset removes the UNSENT records. -/
def State.emptied (s : State) (g : Table Slot) : State :=
  { s with attention := 0, attentionTaken := none, resetCauses := 0, grants := g, requests := [], seat := none, verdicts := [] }

theorem reset_undone {x : State} (hx : Whole x) (hf : x.supply = .full) :
    ResetUndone x (removeAllUnsent { returnSeatClaims (emptyAttention x) with requests := [], seat := none, verdicts := [] }) := by
  have ha : Whole (emptyAttention x) := ⟨hx.clean, hx.wf⟩
  have heq := returnClaims_eq x.claimsInHand ha.clean
  have hgiven := returnClaims_slot x.claimsInHand ha.clean ha.wf
  have hwhole := ha.returnClaims x.claimsInHand
  have hret : returnSeatClaims (emptyAttention x) = returnClaims x.claimsInHand (emptyAttention x) := returnSeatClaims_eq _
  rw [hret, heq]
  rw [heq] at hwhole
  generalize (returnClaims x.claimsInHand (emptyAttention x)).grants = g at heq hwhole
  have hc : Whole (x.emptied g) := ⟨hwhole.clean, hwhole.wf⟩
  have hslot : ∀ j, (x.emptied g).slot j = x.slotAfterReturns x.claimsInHand j := fun j => by
    have hj := hgiven j
    rw [heq] at hj
    exact hj
  have hn : (x.emptied g).unsentRecords.Nodup := hc.inUseRecords_nodup.filter _
  have hin : ∀ id ∈ (x.emptied g).unsentRecords, ((x.emptied g).index id).inUse = true := fun id hid =>
    mem_inUseRecords.mp (List.mem_filter.mp hid).1
  have hsw := foldl_removeReturning hc hn hin (.refl hc) (fun _ _ => List.not_mem_nil)
  rw [← removeAllUnsent_eq hc, List.nil_append, List.nil_append] at hsw
  show ResetUndone x (removeAllUnsent (x.emptied g))
  generalize removeAllUnsent (x.emptied g) = t at hsw
  obtain ⟨hrec, hw, ⟨a, hframe⟩, hslots⟩ := hsw
  have hfull : (x.emptied g).supply = .full := hf
  have hlatch : (raiseIf a .presenceAlert (x.emptied g)).attention = 0 ∨
      (raiseIf a .presenceAlert (x.emptied g)).attention = Cause.presenceAlert.word ∧ x.resetLow = false := by
    cases a
    · exact .inl rfl
    · rw [raiseIf, if_pos rfl, raise_of_full hfull]
      by_cases hq : (x.resetLow || x.resetting) = true
      · rw [if_pos (by exact hq)]
        exact .inl rfl
      · rw [if_neg (by exact hq)]
        refine .inr ⟨BitVec.zero_or, ?_⟩
        cases hr : x.resetLow
        · rfl
        · rw [hr] at hq
          exact absurd rfl hq
  have hdef : (raiseIf a .presenceAlert (x.emptied g)).deferred = x.deferred := by
    cases a
    · rfl
    · rw [raiseIf, if_pos rfl, raise_of_full hfull]
      split <;> rfl
  rw [raiseIf_eq (Undamaged.of hc.clean).deferred, hdef] at hframe
  have hatt := congrArg State.attention hframe
  have hcauses := congrArg State.resetCauses hframe
  dsimp only at hatt hcauses
  rw [← hatt, ← hcauses] at hframe
  rw [← hatt] at hlatch
  refine ⟨hw, hframe, ⟨hrec.free, hrec.index, hrec.body, hrec.idle, hrec.header, hrec.room⟩, fun j => ?_, fun c hcb => ?_,
    fun hr => ?_⟩
  · have hclock : (x.emptied g).clock = x.clock := rfl
    have happ := slotAfterReturns_append hclock (hslot j) (hslots j)
    rw [happ, claimsGivenBack_eq]
    rfl
  · rcases hlatch with hz | ⟨hz, -⟩
    · rw [hz] at hcb
      simp at hcb
    · rw [hz, Cause.getLsbD_word, decide_eq_true_eq] at hcb
      exact hcb.symm
  · rcases hlatch with hz | ⟨-, hz⟩
    · exact hz
    · rw [hz] at hr
      exact Bool.noConfusion hr

/-! ### The stations -/

/-- The stations at their reset values. -/
structure StationsReset (s t : State) : Prop where
  whole : Whole t
  frame : t = { s with stations := t.stations }
  station : ∀ k, t.station k = (s.station k).linkReset (s.station k).header.value

theorem resetStation_eq {s : State} (h : Whole s) (k : Nat) :
    resetStation k s = updateStation k (fun st => st.linkReset st.header.value) s := by
  unfold resetStation
  rw [readStationHeader_undamaged h.clean]
  rfl

theorem foldl_resetStation (ks : List Nat) {s : State} (h : Whole s) :
    Whole (ks.foldl (fun s k => resetStation k s) s) ∧
      ks.foldl (fun s k => resetStation k s) s = { s with stations := (ks.foldl (fun s k => resetStation k s) s).stations } ∧
      ∀ k, (ks.foldl (fun s k => resetStation k s) s).station k =
        if k ∈ ks then (s.station k).linkReset (s.station k).header.value else s.station k := by
  induction ks generalizing s with
  | nil => exact ⟨h, rfl, fun _ => rfl⟩
  | cons j ks ih =>
    have hone : Whole (resetStation j s) := by
      rw [resetStation_eq h]
      exact h.setStation j (station_undamaged h.clean j)
    have hset : ∀ k, (resetStation j s).station k =
        if k = j then (s.station j).linkReset (s.station j).header.value else s.station k := fun k => by
      rw [resetStation_eq h]
      exact station_setStation ((tablesWf_iff s).mp h.wf).2.2.2.1 j k _
    obtain ⟨hw, hframe, hst⟩ := ih hone
    refine ⟨hw, ?_, fun k => ?_⟩
    · rw [List.foldl_cons, hframe]
      rw [resetStation_eq h]
      rfl
    · rw [List.foldl_cons, hst, hset]
      by_cases hk : k = j
      · subst hk
        rw [if_pos rfl, if_pos List.mem_cons_self]
        split <;> rfl
      · simp only [hk, if_false, List.mem_cons, false_or]

theorem resetStations_reset {s : State} (h : Whole s) : StationsReset s (resetStations s) := by
  obtain ⟨hw, hframe, hst⟩ := foldl_resetStation (Table.keys s.stations) h
  refine ⟨hw, hframe, fun k => (hst k).trans ?_⟩
  by_cases hk : k ∈ Table.keys s.stations
  · rw [if_pos hk]
  · rw [if_neg hk]
    have hcleared : s.station k = Station.cleared := Table.get_of_not_mem _ hk
    rw [hcleared]
    decide

/-! ### The notices and the tamper clear -/

theorem survives_any (ns : List Outstanding) : (ns.filter Outstanding.survives).any (fun o => o.notice.isTamper) =
    ns.any (fun o => decide (o.receiver = .presencePool) && o.notice.isTamper) := by
  rw [List.any_filter]
  exact any_congr_mem fun o _ => by
    unfold Outstanding.survives
    cases o.notice.isTamper <;> simp

/-- A tamper clear that a reset ends, or begins again. -/
structure ClearSettled (x s t : State) : Prop where
  whole : Whole t
  frame : t = { s with
    tamper := t.tamper, markedTo := t.markedTo, notices := t.notices, attention := t.attention, resetCauses := t.resetCauses }
  tamper : (t.tamper.value, t.markedTo) = x.tamperAfterReset
  causes : ∀ c : Cause, t.attention.getLsbD c.bit = true → s.attention.getLsbD c.bit = true ∨ c = .tamper
  quiet : s.resetLow = true → t.attention = s.attention

theorem dropNotices_settled {x s : State} (h : Whole s) (hf : s.supply = .full) (ht : s.tamper = x.tamper)
    (hm : s.markedTo = x.markedTo) (hn : s.notices = x.notices) : ClearSettled x s (dropNotices s) := by
  have hs : Whole { s with notices := s.notices.filter Outstanding.survives } := ⟨h.clean, h.wf⟩
  have hclear : ∀ (v : Tamper) (ns : List Outstanding), Whole (writeTamper v { s with notices := ns }) := fun v ns =>
    ⟨(undamaged_iff _).mpr { Undamaged.of h.clean with tamper := Voted.clean_of v }, h.wf⟩
  have hends : (s.tamper.value.clearing = true ∧ Config.slots < s.tamper.value.cursor ∧
      (s.notices.filter Outstanding.survives).any (fun o => o.notice.isTamper) = false) ↔ x.resetEndsClear = true := by
    rw [survives_any, ht, hn]
    simp only [State.resetEndsClear, Bool.and_eq_true, Bool.not_eq_true', decide_eq_true_eq, and_assoc]
  unfold dropNotices settleTamper
  simp only [readTamper_undamaged hs.clean]
  by_cases he : x.resetEndsClear = true
  · rw [if_pos (hends.mpr he)]
    by_cases hr : s.tamper.value.reclear = true
    · rw [if_pos hr]
      unfold startTamperClear
      have hfull : (writeTamper ⟨true, true, false, 1⟩ { s with
        notices := s.notices.filter Outstanding.survives, markedTo := 0 }).supply = .full := hf
      have hw : Whole (writeTamper ⟨true, true, false, 1⟩ { s with
        notices := s.notices.filter Outstanding.survives, markedTo := 0 }) :=
        ⟨(hclear ⟨true, true, false, 1⟩ []).clean, (hclear ⟨true, true, false, 1⟩ []).wf⟩
      have htamper : (⟨true, true, false, 1⟩, 0) = x.tamperAfterReset := by
        simp only [State.tamperAfterReset, he, ← ht, hr, if_true]
      have hvalue : ((Voted.of (⟨true, true, false, 1⟩ : Tamper)).value, 0) = x.tamperAfterReset := by
        rw [Voted.value_of, htamper]
      rw [raise_of_full hfull]
      split
      · exact ⟨⟨hw.clean, hw.wf⟩, rfl, hvalue, fun c hc => .inl hc, fun _ => rfl⟩
      · rename_i hq
        refine ⟨⟨hw.clean, hw.wf⟩, rfl, hvalue, fun c hc => ?_, fun hl => ?_⟩
        · have hor : (s.attention ||| Cause.tamper.word).getLsbD c.bit = true := hc
          rw [BitVec.getLsbD_or, Bool.or_eq_true, Cause.getLsbD_word, decide_eq_true_eq] at hor
          exact hor.imp_right Eq.symm
        · exact absurd (by exact (by rw [hl]; rfl : (s.resetLow || s.resetting) = true)) hq
    · rw [if_neg hr]
      have hr' : x.tamper.value.reclear = false := by
        rw [← ht]
        exact Bool.eq_false_iff.mpr hr
      have htamper : x.tamperAfterReset = ({ x.tamper.value with clearing := false, cursor := 1 }, x.markedTo) := by
        simp only [State.tamperAfterReset, he, if_true, hr', Bool.false_eq_true, if_false]
      refine ⟨hclear _ _, rfl, ?_, fun c hc => .inl hc, fun _ => rfl⟩
      rw [htamper, ← ht]
      exact Prod.ext (Voted.value_of _) hm
  · rw [if_neg (fun hh => he (hends.mp hh))]
    refine ⟨hs, rfl, ?_, fun c hc => .inl hc, fun _ => rfl⟩
    simp only [State.tamperAfterReset, if_neg he, ← ht, ← hm]

/-! ### The whole of a device reset -/

/-- What a device reset in FULL supply leaves. -/
structure Restarted (x t : State) : Prop where
  whole : Whole t
  keeps : resetKeeps x t
  blocks : blocksReset t
  pins : t.supply = x.supply ∧ t.resetLow = x.resetLow ∧ t.firePin = x.firePin ∧ t.lockdownPin = x.lockdownPin ∧
    t.tamperLine = x.tamperLine ∧ t.pending = x.pending ∧ t.deferred = x.deferred
  ready : t.work = none ∧ t.override = false ∧ t.clock = x.clock ∧ t.linkConfig = x.linkConfig
  idle : t.lastCommand = 0 ∧ t.linkState = .stopped ∧ t.sweep = none ∧ t.resweep = false ∧ t.mode = .normal ∧
    t.fireLevel = false ∧ t.lockdownLevel = false ∧ t.attentionTaken = none
  causes : ∀ c : Cause, t.attention.getLsbD c.bit = true → c = .presenceAlert ∨ c = .tamper
  quiet : x.resetLow = true → t.attention = 0

theorem deviceReset_restarted {x : State} (hx : Whole x) (hf : x.supply = .full) : Restarted x (deviceReset x) := by
  have hd := reset_undone hx hf
  unfold deviceReset
  dsimp only
  generalize removeAllUnsent { returnSeatClaims (emptyAttention x) with requests := [], seat := none, verdicts := [] } = d at hd
  obtain ⟨hdw, hdf, hrec, hslots, hcauses, hquiet⟩ := hd
  have he := resetStations_reset hdw
  generalize resetStations d = e at he
  obtain ⟨hew, hef, hst⟩ := he
  rw [hdf] at hef
  have hblank : Whole (blankBlocks e) := ⟨hew.clean, by
    obtain ⟨hg, hr, hp, hs, -⟩ := (tablesWf_iff e).mp hew.wf
    exact (tablesWf_iff _).mpr ⟨hg, hr, hp, hs, rfl⟩⟩
  have hsup := congrArg State.supply hef
  have hlow := congrArg State.resetLow hef
  have htam := congrArg State.tamper hef
  have hmk := congrArg State.markedTo hef
  have hnot := congrArg State.notices hef
  have hatt := congrArg State.attention hef
  have hg := dropNotices_settled (x := x) (s := blankBlocks e) hblank (hsup.trans hf) htam hmk hnot
  generalize dropNotices (blankBlocks e) = g at hg
  obtain ⟨hgw, hgf, htamper, hgc, hgq⟩ := hg
  have hstations := congrArg State.stations hdf
  have hstation : ∀ k, e.station k = (x.station k).linkReset (x.station k).header.value := fun k => by
    rw [hst, State.station, hstations]
    rfl
  rw [hef] at hgf
  have hpresence := congrArg State.presence hgf
  have hrooms := congrArg State.rooms hgf
  have hgrants := congrArg State.grants hgf
  have hstg := congrArg State.stations hgf
  have hrect := hrec.of_same hpresence hrooms
  have hkeep : ∀ k, g.station k = (x.station k).linkReset (x.station k).header.value := fun k =>
    (congrArg (Table.get Station.cleared · k) hstg).trans (hstation k)
  have hgone : ∀ id, id ∈ x.unsentRecords ↔ x.unsent id = true := fun id => by
    simp only [State.unsentRecords, List.mem_filter, mem_inUseRecords, State.unsent, Bool.and_eq_true]
  have hw : Whole { g with trim := .of none } :=
    ⟨(undamaged_iff _).mpr { Undamaged.of hgw.clean with trim := Voted.clean_of _ }, hgw.wf⟩
  have hkeeps : resetKeeps x { g with trim := .of none } := by
    have h1 := congrArg State.clock hgf
    have h2 := congrArg State.barHeader hgf
    have h3 := congrArg State.barEntries hgf
    have h4 := congrArg State.pairWindow hgf
    have h5 := congrArg State.referralTimeout hgf
    have h6 := congrArg State.linkConfig hgf
    have h7 := congrArg State.health hgf
    have h8 := congrArg State.checkPattern hgf
    refine ⟨h1, rfl, h2, h3, h4, h5, h6, h7, h8, htamper, fun k => ?_, fun j => ?_, fun r => ⟨hrect.header r, hrect.room r⟩,
      fun id hin hsent => hrect.free id ((hgone id).mpr (by simp [State.unsent, hin, hsent])),
      fun id hin hsent => ?_, fun id hin => hrect.idle id (fun hh => ?_) hin⟩
    · have hheader := congrArg Station.header (hkeep k)
      have hbody := congrArg Station.body (hkeep k)
      exact ⟨hheader, hbody⟩
    · exact (congrArg (Table.get Slot.cleared · j) hgrants).trans (hslots j)
    · have hid : id ∉ x.unsentRecords := fun hh => by
        have hun := (hgone id).mp hh
        rw [State.unsent, hsent] at hun
        simp at hun
      exact ⟨hrect.index id hid hin, hrect.body id hid hin⟩
    · have hun := (hgone id).mp hh
      rw [State.unsent, hin] at hun
      simp at hun
  have hblocks : blocksReset { g with trim := .of none } := by
    have h1 := congrArg State.requests hgf
    have h2 := congrArg State.seat hgf
    have h3 := congrArg State.verdicts hgf
    have h4 := congrArg State.pairs hgf
    have h5 := congrArg State.referrals hgf
    have h6 := congrArg State.referenceCounter hgf
    have h7 := congrArg State.retireHold hgf
    have h8 := congrArg State.unbindHold hgf
    have h9 := congrArg State.cycle hgf
    have h10 := congrArg State.cyclePlace hgf
    have h11 := congrArg State.override hgf
    have h12 := congrArg State.portBusy hgf
    have h13 := congrArg State.resultCode hgf
    have h14 := congrArg State.overrun hgf
    have h15 := congrArg State.window hgf
    have h16 := congrArg State.attentionMask hgf
    have h17 := congrArg State.work hgf
    refine ⟨h1, h2, h3, h4, h5, h6, h7, h8, h9, h10, h11, h12, h13, h14, h15, h16, h17, fun k => ?_⟩
    have hstate : (g.station k).state = (if (g.station k).header.value then .faulted else .silent) := by rw [hkeep k]; rfl
    have hmissed := congrArg Station.missed (hkeep k)
    have hrelease := congrArg Station.release (hkeep k)
    have hentrance := congrArg Station.entrance (hkeep k)
    have hanswer := congrArg Station.answer (hkeep k)
    have hflight := congrArg Station.inFlight (hkeep k)
    exact ⟨hstate, hmissed, hrelease, hentrance, hanswer, hflight⟩
  have hpins : g.supply = x.supply ∧ g.resetLow = x.resetLow ∧ g.firePin = x.firePin ∧ g.lockdownPin = x.lockdownPin ∧
      g.tamperLine = x.tamperLine ∧ g.pending = x.pending ∧ g.deferred = x.deferred := by
    have h1 := congrArg State.supply hgf
    have h2 := congrArg State.resetLow hgf
    have h3 := congrArg State.firePin hgf
    have h4 := congrArg State.lockdownPin hgf
    have h5 := congrArg State.tamperLine hgf
    have h6 := congrArg State.pending hgf
    have h7 := congrArg State.deferred hgf
    exact ⟨h1, h2, h3, h4, h5, h6, h7⟩
  have hidle : g.lastCommand = 0 ∧ g.linkState = .stopped ∧ g.sweep = none ∧ g.resweep = false ∧ g.mode = .normal ∧
      g.fireLevel = false ∧ g.lockdownLevel = false ∧ g.attentionTaken = none := by
    have h1 := congrArg State.lastCommand hgf
    have h2 := congrArg State.linkState hgf
    have h3 := congrArg State.sweep hgf
    have h4 := congrArg State.resweep hgf
    have h5 := congrArg State.mode hgf
    have h6 := congrArg State.fireLevel hgf
    have h7 := congrArg State.lockdownLevel hgf
    have h8 := congrArg State.attentionTaken hgf
    exact ⟨h1, h2, h3, h4, h5, h6, h7, h8⟩
  have hready : g.work = none ∧ g.override = false ∧ g.clock = x.clock ∧ g.linkConfig = x.linkConfig := by
    have h1 := congrArg State.work hgf
    have h2 := congrArg State.override hgf
    have h3 := congrArg State.clock hgf
    have h4 := congrArg State.linkConfig hgf
    exact ⟨h1, h2, h3, h4⟩
  have hda : (blankBlocks e).attention = d.attention := hatt
  refine ⟨hw, hkeeps, hblocks, hpins, hready, hidle, fun c hc => ?_, fun hr => ?_⟩
  · refine (hgc c hc).imp_left fun hh => ?_
    rw [hda] at hh
    exact hcauses c hh
  · have hq := hgq (hlow.trans hr)
    rw [hda, hquiet hr] at hq
    exact hq

end Sys2Proof.Machine

namespace Sys2Proof.Machine
open Sys2Proof

/-! ## A marking cut short by a reset (R168, log 53) -/

/-- A marking for the tamper notice that has reached some records. -/
structure MarkingCut (s u : State) : Prop where
  whole : Whole u
  marked : markedSome s u
  deferred : s.supply = .full → u.deferred = s.deferred
  resetCauses : s.awake = true → u.resetCauses = s.resetCauses

theorem markingCut_refl {s : State} (h : Whole s) : MarkingCut s s :=
  ⟨h, ⟨fun _ => rfl, rfl, fun _ hc => hc, fun _ => ⟨rfl, .inl rfl⟩⟩, fun _ => rfl, fun _ => rfl⟩

/-- The records reached are marked as the tamper notice marks them. -/
theorem markSome_marked {c : State} (h : Whole c) (reached : Nat) : ∃ B a v m,
    markSome reached c = { v with markedTo := m } ∧ Marked B a c v ∧ ∀ k, B k = (c.record k).body.value ∨
      (c.index k).inUse = true ∧ (c.index k).faulted = false ∧ B k = (c.record k).body.value.cleared := by
  have hnodup : (c.unmarked.take reached).Nodup := (h.inUseRecords_nodup.filter _).sublist (List.take_sublist _ _)
  have hm := (forReadable_marked tamper_acts h hnodup).1
  refine ⟨_, _, _, ((c.unmarked.take reached).getLast?.map (· + 1)).getD c.markedTo, ?_, hm, fun k => ?_⟩
  · unfold markSome
    rw [scanIndexes_undamaged h.clean]
    rfl
  · unfold State.bodiesAfter
    split
    · rename_i hk
      obtain ⟨hin, hf⟩ := mem_readableOf.mp hk
      exact .inr ⟨mem_inUseRecords.mp (List.mem_filter.mp (List.mem_of_mem_take hin)).1, hf, rfl⟩
    · exact .inl rfl

theorem raiseIf_full_deferred {s : State} (h : s.supply = .full) (b : Bool) (c : Cause) :
    (raiseIf b c s).deferred = s.deferred := by
  cases b
  · rfl
  · rw [raiseIf, if_pos rfl, raise_of_full h]
    split <;> rfl

theorem raiseIf_awake_resetCauses {s : State} (h : s.awake = true) (b : Bool) (c : Cause) :
    (raiseIf b c s).resetCauses = s.resetCauses := by
  cases b
  · rfl
  · rw [raiseIf, if_pos rfl, raise_of_awake h]

/-- A cause is never taken from the deferred ones. -/
theorem raiseIf_deferred_mono {s : State} (h : s.deferred.clean = true) (b : Bool) (c : Cause) (d : Cause)
    (hd : s.deferred.value.getLsbD d.bit = true) : (raiseIf b c s).deferred.value.getLsbD d.bit = true := by
  cases b
  · exact hd
  · rw [raiseIf, if_pos rfl, raise_of_clean h]
    split_ifs
    · exact hd
    · exact hd
    · rw [Voted.value_of, BitVec.getLsbD_or, hd, Bool.true_or]
    · exact hd

theorem markSome_cut {s : State} (h : Whole s) (n reached : Nat)
    (hn : ∃ o ∈ s.notices, o.receiver = .presencePool ∧ o.notice = .tamper) :
    MarkingCut s (markSome reached { s with cuts := n }) := by
  obtain ⟨B, a, v, m, heq, hm, hB⟩ := markSome_marked (c := { s with cuts := n }) ⟨h.clean, h.wf⟩ reached
  have hc : Whole { s with cuts := n } := ⟨h.clean, h.wf⟩
  have hframe := hm.change.rest hc
  have hrooms := hm.rooms
  have hdef := congrArg State.deferred hm.change.frame
  have hcauses := congrArg State.resetCauses hm.change.frame
  rw [heq]
  refine ⟨⟨hm.change.whole.clean, hm.change.whole.wf⟩, ⟨fun hno => ?_, ?_, fun c hcb => ?_, fun id => ?_⟩, fun hf => ?_, fun ha => ?_⟩
  · obtain ⟨o, ho, hr, ht⟩ := hn
    exact absurd ht (hno o ho hr)
  · have hv := hframe
    rw [hrooms] at hv
    generalize hp : v.presence = p at hv
    generalize hq : v.attention = q at hv
    generalize hr : v.resetCauses = r at hv
    generalize hd : v.deferred = d at hv
    rw [hv]
  · have hmono := raiseIf_deferred_mono (s := { s with cuts := n }) (Undamaged.of h.clean).deferred a .presenceAlert c hcb
    exact (congrArg (fun x => x.value.getLsbD c.bit) hdef).trans hmono
  · refine ⟨hm.index id, ?_⟩
    rcases hB id with hb | ⟨hin, hf, hb⟩
    · exact .inl ((hm.body id).trans hb)
    · exact .inr ⟨hin, hf, (hm.body id).trans hb⟩
  · exact hdef.trans (raiseIf_full_deferred (s := { s with cuts := n }) hf a .presenceAlert)
  · exact hcauses.trans (raiseIf_awake_resetCauses (s := { s with cuts := n }) ha a .presenceAlert)

theorem cutMarking_cut {s : State} (h : Whole s) (n : Nat)
    (hn : ∃ o ∈ s.notices, o.receiver = .presencePool ∧ o.notice = .tamper) (m : Option Nat) :
    MarkingCut s (cutMarking m { s with cuts := n }) := by
  have hsame : MarkingCut s { s with cuts := n } :=
    ⟨⟨h.clean, h.wf⟩, ⟨fun hno => by
      obtain ⟨o, ho, hr, ht⟩ := hn
      exact absurd ht (hno o ho hr), rfl, fun _ hc => hc, fun _ => ⟨rfl, .inl rfl⟩⟩, fun _ => rfl, fun _ => rfl⟩
  cases m with
  | none => exact hsame
  | some reached =>
    unfold cutMarking cutWalk
    dsimp only [Option.map_some]
    cases hw : State.walking { s with cuts := n } .tamper with
    | none =>
      rw [if_neg (fun hh => nomatch hh.1)]
      exact hsame
    | some x =>
      have hx : x = .tamper := by
        unfold State.walking at hw
        split at hw
        · obtain ⟨o, ho, rfl⟩ := Option.map_eq_some_iff.mp hw
          have hp := List.find?_some ho
          simp only [Bool.and_eq_true, decide_eq_true_eq] at hp
          have hwalk := hp.2
          cases hnotice : o.notice <;> rw [hnotice] at hwalk <;> simp [Notice.walk] at hwalk
        · cases hw
      subst hx
      exact markSome_cut h n reached hn

theorem cutByReset_cut {s : State} (h : Whole s) : MarkingCut s (cutByReset s) := by
  unfold cutByReset
  by_cases hany : s.notices.any Outstanding.survives = true
  · rw [if_pos hany]
    refine cutMarking_cut h _ ?_ _
    obtain ⟨o, ho, hs⟩ := List.any_eq_true.mp hany
    simp only [Outstanding.survives, Bool.and_eq_true, decide_eq_true_eq] at hs
    refine ⟨o, ho, hs.1, ?_⟩
    have htamper := hs.2
    cases hnotice : o.notice <;> rw [hnotice] at htamper <;> simp [Notice.isTamper] at htamper
  · rw [if_neg hany]
    exact markingCut_refl h

end Sys2Proof.Machine

namespace Sys2Proof.Machine
open Sys2Proof

/-! ## The blocks resume (R131, R153, R39) -/

/-- The mode has been derived again: it follows the levels, and MODE CHANGE may be latched. -/
structure ModeSettled (s t : State) : Prop where
  frame : t = { s with mode := t.mode, attention := t.attention }
  mode : t.mode = deriveMode s.fireLevel s.lockdownLevel s.override
  kept : ∀ c : Cause, s.attention.getLsbD c.bit = true → t.attention.getLsbD c.bit = true
  causes : ∀ c : Cause, t.attention.getLsbD c.bit = true → s.attention.getLsbD c.bit = true ∨ c = .modeChange

theorem settleMode_settled {s : State} (ha : s.awake = true) (b : Bool) : ModeSettled s (settleMode false b s) := by
  unfold settleMode
  by_cases hm : deriveMode s.fireLevel s.lockdownLevel s.override = s.mode
  · rw [if_pos hm]
    exact ⟨rfl, hm.symm, fun _ h => h, fun _ h => .inl h⟩
  · have hraise := raise_of_awake (s := { s with mode := deriveMode s.fireLevel s.lockdownLevel s.override }) ha .modeChange
    rw [if_neg hm, hraise]
    refine ⟨rfl, rfl, fun c hc => ?_, fun c hc => ?_⟩
    · show (s.attention ||| Cause.modeChange.word).getLsbD c.bit = true
      rw [BitVec.getLsbD_or, hc, Bool.true_or]
    · have hor : (s.attention ||| Cause.modeChange.word).getLsbD c.bit = true := hc
      rw [BitVec.getLsbD_or, Bool.or_eq_true, Cause.getLsbD_word, decide_eq_true_eq] at hor
      exact hor.imp_right Eq.symm

/-- The lines have been taken: the levels stand as the pins, and the mode follows them. -/
structure LinesFollowed (s t : State) : Prop where
  frame : t = { s with
    mode := t.mode, fireLevel := s.firePin, lockdownLevel := s.lockdownPin, attention := t.attention }
  mode : t.mode = deriveMode s.firePin s.lockdownPin s.override
  kept : ∀ c : Cause, s.attention.getLsbD c.bit = true → t.attention.getLsbD c.bit = true
  causes : ∀ c : Cause, t.attention.getLsbD c.bit = true → s.attention.getLsbD c.bit = true ∨ c = .modeChange

theorem takeLinesAfterReset_followed {s : State} (ha : s.awake = true) : LinesFollowed s (takeLinesAfterReset s) := by
  have hfire := settleMode_settled (s := { s with fireLevel := s.firePin }) ha false
  have hdef : takeLinesAfterReset s = settleMode false false { settleMode false false { s with fireLevel := s.firePin } with
    lockdownLevel := s.lockdownPin } := rfl
  rw [hdef]
  generalize settleMode false false { s with fireLevel := s.firePin } = u at hfire
  have hawake := congrArg State.awake hfire.frame
  have hlock := settleMode_settled (s := { u with lockdownLevel := s.lockdownPin }) (hawake.trans ha) false
  generalize settleMode false false { u with lockdownLevel := s.lockdownPin } = t at hlock
  have hlevel := congrArg State.fireLevel hfire.frame
  have hover := congrArg State.override hfire.frame
  have hframe := hlock.frame
  refine ⟨?_, ?_, fun c hc => hlock.kept c (hfire.kept c hc), fun c hc => ?_⟩
  · have hu := hfire.frame
    generalize u.mode = m at hu
    generalize u.attention = a at hu
    rw [hu] at hframe
    exact hframe
  · exact hlock.mode.trans (congrArg₂ (fun f o => deriveMode f s.lockdownPin o) hlevel hover)
  · rcases hlock.causes c hc with h | h
    · exact hfire.causes c h
    · exact .inr h

/-- The blocks have resumed from their reset values. -/
structure Resumed (s t : State) : Prop where
  frame : t = { s with
    linkState := t.linkState, mode := t.mode, fireLevel := s.firePin, lockdownLevel := s.lockdownPin,
    attention := t.attention, sweep := t.sweep }
  link : t.linkState = if s.linkConfig.value.autoStart then .running else s.linkState
  sweep : t.sweep = if s.clock.value.isSet then some ⟨1, s.clock.value.calendar.minute⟩ else s.sweep
  mode : t.mode = deriveMode s.firePin s.lockdownPin s.override
  kept : ∀ c : Cause, s.attention.getLsbD c.bit = true → t.attention.getLsbD c.bit = true
  causes : ∀ c : Cause, t.attention.getLsbD c.bit = true → s.attention.getLsbD c.bit = true ∨ c = .modeChange

/-- The link at the end of a reset. -/
def State.linkStarted (s : State) : State := if s.linkConfig.value.autoStart then { s with linkState := .running } else s

theorem linkStarted_eq (s : State) : s.linkStarted =
    { s with linkState := if s.linkConfig.value.autoStart then .running else s.linkState } := by
  unfold State.linkStarted
  split <;> rfl

theorem resumeBlocks_resumed {s : State} (hs : Whole s) (ha : s.awake = true) (hsweep : s.sweep = none) :
    Resumed s (resumeBlocks s) := by
  have hdef : resumeBlocks s = (fun q : ClockItem × State => if q.1.isSet then sweepTrigger q.2 else q.2)
      (readClockItem (takeLinesAfterReset s.linkStarted)) := by
    unfold resumeBlocks
    rw [readConfig_undamaged hs.clean]
    rfl
  have hwhole : Whole s.linkStarted := by
    rw [linkStarted_eq]
    exact ⟨hs.clean, hs.wf⟩
  have hawake : s.linkStarted.awake = true := by
    rw [linkStarted_eq]
    exact ha
  have hl := takeLinesAfterReset_followed hawake
  generalize takeLinesAfterReset s.linkStarted = u at hl hdef
  rw [linkStarted_eq] at hl
  obtain ⟨hframe, hmode, hkept, hcauses⟩ := hl
  have hu : Whole u := by
    rw [hframe]
    exact ⟨hs.clean, hs.wf⟩
  have hclock := congrArg State.clock hframe
  have hsw := congrArg State.sweep hframe
  have hlink := congrArg State.linkState hframe
  rw [hdef, readClockItem_undamaged hu.clean]
  dsimp only
  rw [hclock]
  by_cases hset : s.clock.value.isSet = true
  · have htrigger : sweepTrigger u = { u with sweep := some ⟨1, s.clock.value.calendar.minute⟩ } := by
      unfold sweepTrigger
      rw [hsw, hsweep]
      dsimp only
      rw [presentMinute_undamaged hu.clean, hclock]
    rw [if_pos hset, htrigger]
    refine ⟨?_, hlink, (if_pos hset).symm, hmode, hkept, hcauses⟩
    generalize hm : u.mode = m at hframe
    generalize hatt : u.attention = a at hframe
    rw [hframe]
  · rw [if_neg hset]
    refine ⟨?_, hlink, hsw.trans (if_neg hset).symm, hmode, hkept, hcauses⟩
    generalize hm : u.mode = m at hframe
    generalize hatt : u.attention = a at hframe
    rw [hframe]

/-- The levels and the mode, as the blocks take them. -/
theorem Resumed.lines {s t : State} (h : Resumed s t) : linesTaken t := by
  have h1 := congrArg State.fireLevel h.frame
  have h2 := congrArg State.lockdownLevel h.frame
  have h3 := congrArg State.firePin h.frame
  have h4 := congrArg State.lockdownPin h.frame
  have h5 := congrArg State.override h.frame
  refine ⟨h1.trans h3.symm, h2.trans h4.symm, h.mode.trans ?_⟩
  unfold deriveMode
  rw [h3, h4, h5]

/-! ## DEVICE RESET (R180) -/

theorem getLsbD_latch (u v : Word) (c : Cause) :
    (u ||| v).getLsbD c.bit = true ↔ u.getLsbD c.bit = true ∨ v.getLsbD c.bit = true := by
  rw [BitVec.getLsbD_or, Bool.or_eq_true]

/-- Settles O49: the marking cut at the acceptance, the reset itself, and the blocks that resume. -/
theorem deviceResetKeepsTheRetainedItems : Obligations.DeviceResetKeepsTheRetainedItems := by
  unfold Obligations.DeviceResetKeepsTheRetainedItems
  intro s hacc hu hw
  have hs : Whole (accepted 0x7F s) := ⟨hu, hw⟩
  obtain ⟨hawake, -⟩ := (accepts_iff s).mp hacc
  obtain ⟨hport, hreset⟩ := (awake_iff s).mp hawake
  obtain ⟨hsup, hlow⟩ := (portOn_iff s).mp hport
  have hcut := cutByReset_cut hs
  have hexec : exec .deviceReset s = .next (startReset 0x7F (cutByReset (accepted 0x7F s))) :=
    congrArg Host.Outcome.next (commandWrite_of_accepts hacc 0x7F opDeviceReset)
  generalize cutByReset (accepted 0x7F s) = v at hcut hexec
  obtain ⟨hvw, hvm, hvd, hvc⟩ := hcut
  have hframe := hvm.2.1
  have hvsup := (congrArg State.supply hframe).trans hsup
  have hvlow := (congrArg State.resetLow hframe).trans hlow
  have hvfire := congrArg State.firePin hframe
  have hvlock := congrArg State.lockdownPin hframe
  have hvline := congrArg State.tamperLine hframe
  have hvpend := congrArg State.pending hframe
  have hvconf := congrArg State.linkConfig hframe
  have hvclock := congrArg State.clock hframe
  have hx : Whole { v with work := none } := ⟨hvw.clean, hvw.wf⟩
  have hr := deviceReset_restarted hx hvsup
  generalize hrdef : deviceReset { v with work := none } = r at hr
  obtain ⟨hrw, hrk, hrb, ⟨hrsup, hrlow, hrfire, hrlock, hrline, hrpend, hrdefer⟩, ⟨hrwork, hrover, hrclock, hrconf⟩,
    ⟨-, hrlink, hrsweep, hrresweep, hrmode, -, -, hrtaken⟩, hrcauses, -⟩ := hr
  have hlatch : latchCauses v.resetCauses { r with lastCommand := 0x7F } =
      { r with lastCommand := 0x7F, attention := r.attention ||| v.resetCauses } := by
    unfold latchCauses
    rw [if_neg]
    show ¬ r.resetLow = true
    rw [hrlow]
    exact Bool.eq_false_iff.mp hvlow
  have hy : Whole { r with lastCommand := 0x7F, attention := r.attention ||| v.resetCauses } := ⟨hrw.clean, hrw.wf⟩
  have hrawake : r.awake = true := by
    simp only [State.awake, State.portOn, State.resetting, hrwork, hrsup, hrlow, Option.bind_none]
    rw [show ({ v with work := none } : State).supply = .full from hvsup,
      show ({ v with work := none } : State).resetLow = false from hvlow]
    rfl
  have hres := resumeBlocks_resumed hy hrawake hrsweep
  have hlines := hres.lines
  have hcommand : commandReset 0x7F (startReset 0x7F v) =
      raise .commandDone (resumeBlocks { r with lastCommand := 0x7F, attention := r.attention ||| v.resetCauses }) := by
    rw [← hlatch, ← hrdef]
    rfl
  generalize resumeBlocks { r with lastCommand := 0x7F, attention := r.attention ||| v.resetCauses } = z at hres hcommand hlines
  obtain ⟨hzf, hzlink, hzsweep, hzmode, hzkept, hzcauses⟩ := hres
  have hzawake := (congrArg State.awake hzf).trans hrawake
  rw [raise_of_awake hzawake] at hcommand
  have hcompletion : exec .commandCompletion (startReset 0x7F v) =
      .next { z with attention := z.attention ||| Cause.commandDone.word } := by
    rw [← hcommand]
    refine congrArg Host.Outcome.next ?_
    have hon : (startReset 0x7F v).portOn = true := (portOn_iff _).mpr ⟨hvsup, hvlow⟩
    unfold completeCommand
    rw [if_pos hon]
    rfl
  have hlast := congrArg State.lastCommand hzf
  have hdeferred := congrArg State.deferred hzf
  have htaken := congrArg State.attentionTaken hzf
  have hresweep := congrArg State.resweep hzf
  have hfire := congrArg State.firePin hzf
  have hlock := congrArg State.lockdownPin hzf
  have hline := congrArg State.tamperLine hzf
  have hpend := congrArg State.pending hzf
  have hlatched : ∀ c : Cause, ({ z with attention := z.attention ||| Cause.commandDone.word } : State).latched c = true ↔
      z.attention.getLsbD c.bit = true ∨ Cause.commandDone = c := fun c => by
    unfold State.latched State.latches
    rw [htaken]
    show (((z.attention ||| Cause.commandDone.word) ||| r.attentionTaken.getD 0).getLsbD c.bit = true) ↔ _
    rw [hrtaken, getLsbD_latch, getLsbD_latch, Cause.getLsbD_word, decide_eq_true_eq]
    simp
  have hvrc : v.resetCauses = s.resetCauses := hvc hawake
  refine ⟨_, _, hexec, ⟨fun hno => ?_, ?_, hvm.2.2.1, hvm.2.2.2⟩, hcompletion, ?_, ?_, ?_, hlines, hlast, ?_, fun c hc => ?_,
    fun c hc => ?_, ?_, ?_, hresweep.trans hrresweep, ?_, ?_, ?_, ?_⟩
  · rw [hvm.1 hno]
    rfl
  · generalize v.presence = p1 at hframe
    generalize v.markedTo = p2 at hframe
    generalize v.cuts = p3 at hframe
    generalize v.attention = p4 at hframe
    generalize v.deferred = p5 at hframe
    generalize v.resetCauses = p6 at hframe
    rw [hframe]
    rfl
  · generalize z.linkState = p1 at hzf
    generalize z.mode = p2 at hzf
    generalize z.attention = p3 at hzf
    generalize z.sweep = p4 at hzf
    rw [hzf]
    exact hrb
  · generalize z.linkState = p1 at hzf
    generalize z.mode = p2 at hzf
    generalize z.attention = p3 at hzf
    generalize z.sweep = p4 at hzf
    rw [hzf]
    exact hrk
  · exact hdeferred.trans (hrdefer.trans (hvd hsup))
  · exact (hlatched _).mpr (.inr rfl)
  · rcases (hlatched c).mp hc with hz | hz
    · rcases hzcauses c hz with hy | hy
      · rcases (getLsbD_latch _ _ c).mp hy with hr | hr
        · rcases hrcauses c hr with hr | hr
          · exact .inr (.inr (.inr (.inl hr)))
          · exact .inr (.inr (.inl hr))
        · rw [hvrc] at hr
          exact .inr (.inr (.inr (.inr hr)))
      · exact .inr (.inl hy)
    · exact .inl hz.symm
  · refine (hlatched c).mpr (.inl (hzkept c ((getLsbD_latch _ _ c).mpr (.inr ?_))))
    rw [hvrc]
    exact hc
  · rw [hzlink]
    show (if r.linkConfig.value.autoStart then LinkState.running else r.linkState) = _
    rw [hrconf, hrlink]
    exact congrArg (fun x : Voted LinkConfig => if x.value.autoStart then LinkState.running else .stopped) hvconf
  · rw [hzsweep]
    show (if r.clock.value.isSet then some (⟨1, r.clock.value.calendar.minute⟩ : Sweep) else r.sweep) = _
    rw [hrclock, hrsweep]
    exact congrArg (fun x : Voted ClockItem => if x.value.isSet then some (⟨1, x.value.calendar.minute⟩ : Sweep) else none) hvclock
  · exact hfire.trans (hrfire.trans hvfire)
  · exact hlock.trans (hrlock.trans hvlock)
  · exact hline.trans (hrline.trans hvline)
  · exact hpend.trans (hrpend.trans hvpend)

end Sys2Proof.Machine

namespace Sys2Proof.Machine
open Sys2Proof

/-! ## The return of the main supply (R162, R163) -/

theorem latchCauses_eq (w : Word) (s : State) : latchCauses w s = { s with
    attention := if s.resetLow then s.attention else s.attention ||| w
    resetCauses := if s.resetLow then s.resetCauses ||| w else s.resetCauses } := by
  unfold latchCauses
  split <;> rfl

/-- What the return of the supply leaves before the blocks resume: the deferred causes and SUPPLY RETURN are latched, or
kept while RESETn is low. -/
structure SupplyLatched (r t : State) : Prop where
  whole : Whole t
  frame : t = { r with deferred := .of 0, attention := t.attention, resetCauses := t.resetCauses }
  supply : if r.resetLow then t.resetCauses.getLsbD Cause.supplyReturn.bit = true
    else t.attention.getLsbD Cause.supplyReturn.bit = true
  deferred : ∀ c : Cause, r.deferred.value.getLsbD c.bit = true →
    if r.resetLow then t.resetCauses.getLsbD c.bit = true else t.attention.getLsbD c.bit = true
  quiet : r.resetLow = true → t.attention = r.attention

theorem supplyReturn_latched {r : State} (hr : Whole r) (hf : r.supply = .full) (hwork : r.work = none) :
    SupplyLatched r (raise .supplyReturn (latchDeferred r)) := by
  have hdef : latchDeferred r = { r with
      deferred := .of 0
      attention := if r.resetLow then r.attention else r.attention ||| r.deferred.value
      resetCauses := if r.resetLow then r.resetCauses ||| r.deferred.value else r.resetCauses } := by
    unfold latchDeferred
    rw [readDeferred_undamaged hr.clean]
    exact latchCauses_eq _ _
  have hfull : (latchDeferred r).supply = .full := by rw [hdef]; exact hf
  have hquiet : ((latchDeferred r).resetLow || (latchDeferred r).resetting) = r.resetLow := by
    rw [hdef]
    show (r.resetLow || (r.work.bind CommandWork.resetCode).isSome) = r.resetLow
    rw [hwork]
    exact Bool.or_false _
  rw [raise_of_full hfull, hquiet, hdef]
  have hw : Undamaged { r with deferred := .of 0 } := { Undamaged.of hr.clean with deferred := Voted.clean_of _ }
  by_cases hlow : r.resetLow = true
  · simp only [if_pos hlow]
    refine ⟨⟨(undamaged_iff _).mpr { hw with }, hr.wf⟩, rfl, ?_, fun c hc => ?_, fun _ => rfl⟩
    · rw [if_pos hlow, getLsbD_latch, Cause.getLsbD_word]
      exact .inr (by decide)
    · rw [if_pos hlow, getLsbD_latch, getLsbD_latch]
      exact .inl (.inr hc)
  · simp only [if_neg hlow]
    refine ⟨⟨(undamaged_iff _).mpr { hw with }, hr.wf⟩, rfl, ?_, fun c hc => ?_, fun h => absurd h hlow⟩
    · rw [if_neg hlow, getLsbD_latch, Cause.getLsbD_word]
      exact .inr (by decide)
    · rw [if_neg hlow, getLsbD_latch, getLsbD_latch]
      exact .inl (.inr hc)

/-! ### A table that holds no record -/

theorem Table.eq_nil_of_get {α : Type} [DecidableEq α] {d : α} {t : Table α} (h : Table.wf d t = true)
    (hget : ∀ k, Table.get d t k = d) : t = [] := by
  cases t with
  | nil => rfl
  | cons e rest =>
    obtain ⟨j, v⟩ := e
    simp only [Table.wf, Table.wfFrom, Bool.and_eq_true, decide_eq_true_eq] at h
    have hj := hget j
    simp only [Table.get, if_true] at hj
    exact absurd hj h.1.2

/-- A reset of a domain that has been lost keeps it empty. -/
theorem resetKeeps_empty {x t : State} (ht : Whole t) (hk : resetKeeps x t) (hb : blocksReset t) (hg : x.grants = [])
    (hr : x.rooms = []) (hp : x.presence = []) (hs : x.stations = []) :
    t.grants = [] ∧ t.rooms = [] ∧ t.presence = [] ∧ t.stations = [] := by
  obtain ⟨hgw, hrw, hpw, hsw, -⟩ := (tablesWf_iff t).mp ht.wf
  obtain ⟨-, -, -, -, -, -, -, -, -, -, hstation, hslot, hroom, -, -, hidle⟩ := hk
  obtain ⟨-, -, -, -, -, -, -, -, -, -, -, -, -, -, -, -, -, hlink⟩ := hb
  have hrecord : ∀ id, x.record id = .free := fun id => by rw [State.record, hp]; rfl
  have hunsent : x.unsentRecords = [] := by
    unfold State.unsentRecords State.inUseRecords
    rw [hp]
    rfl
  refine ⟨Table.eq_nil_of_get hgw fun j => ?_, Table.eq_nil_of_get hrw fun r => ?_, Table.eq_nil_of_get hpw fun id => ?_,
    Table.eq_nil_of_get hsw fun k => ?_⟩
  · have hx : x.slot j = .cleared := by rw [State.slot, hg]; rfl
    refine (hslot j).trans ?_
    rw [slotAfterReturns_eq, hx]
    exact Slot.returnedBy_of_unlimited (by decide) _
  · have hx : x.room r = .cleared := by rw [State.room, hr]; rfl
    obtain ⟨hheader, hbody⟩ := hroom r
    have hview : (x.room r).view.unreadable = true := by rw [hx]; decide
    rw [roomAfterRemovals_of_unreadable hview, hx] at hbody
    rw [hx] at hheader
    have hclean := room_undamaged ht.clean r
    simp only [Room.undamaged, Bool.and_eq_true] at hclean
    have hstored := Stored.eq_of_good hclean.2
    rw [hbody] at hstored
    exact congrArg₂ Room.mk hheader hstored
  · refine (hidle id ?_).trans (hrecord id)
    rw [State.index, hrecord]
    decide
  · have hx : x.station k = .cleared := by rw [State.station, hs]; rfl
    obtain ⟨hheader, hbody⟩ := hstation k
    obtain ⟨hstate, hmissed, hrelease, hentrance, hanswer, hflight⟩ := hlink k
    rw [hx] at hheader hbody
    rw [hheader] at hstate
    show t.station k = Station.cleared
    generalize t.station k = st at *
    obtain ⟨h, b, st', m, r, e, a, f⟩ := st
    dsimp only at *
    rw [hheader, hbody, hstate, hmissed, hrelease, hentrance, hanswer, hflight]
    decide

end Sys2Proof.Machine

namespace Sys2Proof.Machine
open Sys2Proof

/-- The part once it is reset at the return of the supply, with the blocks resumed unless RESETn is low. -/
def returned (x : State) : State :=
  let y := raise .supplyReturn (latchDeferred (deviceReset x))
  if y.resetLow then y else resumeBlocks y

/-- What the return of the supply leaves of a state in FULL supply whose pattern has been tested. -/
structure SupplyReturned (x t : State) : Prop where
  whole : Whole t
  keeps : resetKeeps x t
  blocks : blocksReset t
  supply : t.supply = .full
  resetLow : t.resetLow = x.resetLow
  awake : t.awake = !x.resetLow
  cause : t.causeKept .supplyReturn = true
  deferred : t.deferred.value = 0
  lastCommand : t.lastCommand = 0
  resweep : t.resweep = false
  lines : x.resetLow = false → linesTaken t
  quiet : x.resetLow = true → t.latches = 0 ∧ t.mode = .normal ∧ t.fireLevel = false ∧ t.lockdownLevel = false
  causes : ∀ c : Cause, x.deferred.value.getLsbD c.bit = true → t.causeKept c = true
  link : t.linkState = (if x.linkConfig.value.autoStart && !x.resetLow then .running else .stopped)
  sweep : t.sweep = (if x.clock.value.isSet && !x.resetLow then some ⟨1, x.clock.value.calendar.minute⟩ else none)

theorem latched_of_attention {t : State} {c : Cause} (h : t.attention.getLsbD c.bit = true) : t.latched c = true :=
  (getLsbD_latch _ _ c).mpr (.inl h)

theorem returned_returned {x : State} (hx : Whole x) (hf : x.supply = .full) : SupplyReturned x (returned x) := by
  have hr := deviceReset_restarted hx hf
  unfold returned
  dsimp only
  generalize deviceReset x = r at hr
  obtain ⟨hrw, hrk, hrb, ⟨hrsup, hrlow, -, -, -, -, hrdefer⟩, ⟨hrwork, hrover, hrclock, hrconf⟩,
    ⟨hrlast, hrlink, hrsweep, hrresweep, hrmode, hrfire, hrlock, hrtaken⟩, -, hrquiet⟩ := hr
  have hy := supplyReturn_latched hrw (hrsup.trans hf) hrwork
  generalize raise .supplyReturn (latchDeferred r) = y at hy
  obtain ⟨hyw, hyf, hysup, hydef, hyquiet⟩ := hy
  have hylow := congrArg State.resetLow hyf
  have hysupply := congrArg State.supply hyf
  have hywork := congrArg State.work hyf
  have hytaken := congrArg State.attentionTaken hyf
  have hylast := congrArg State.lastCommand hyf
  have hylink := congrArg State.linkState hyf
  have hysweep := congrArg State.sweep hyf
  have hyresweep := congrArg State.resweep hyf
  have hymode := congrArg State.mode hyf
  have hyfire := congrArg State.fireLevel hyf
  have hylock := congrArg State.lockdownLevel hyf
  have hyd := congrArg State.deferred hyf
  have hyconf := congrArg State.linkConfig hyf
  have hyclock := congrArg State.clock hyf
  have hfull : y.supply = .full := hysupply.trans (hrsup.trans hf)
  have hlow : y.resetLow = x.resetLow := hylow.trans hrlow
  have hidle : y.work = none := hywork.trans hrwork
  have hawake : y.awake = !x.resetLow := by
    rw [State.awake, State.portOn, State.resetting, hfull, hlow, hidle]
    cases x.resetLow <;> rfl
  have hkeeps : resetKeeps x y := by
    generalize y.attention = p1 at hyf
    generalize y.resetCauses = p2 at hyf
    rw [hyf]
    exact hrk
  have hblocks : blocksReset y := by
    generalize y.attention = p1 at hyf
    generalize y.resetCauses = p2 at hyf
    rw [hyf]
    exact hrb
  have hzero : y.deferred.value = 0 := by rw [hyd]; exact Voted.value_of _
  rw [hrlow] at hysup
  simp only [hrlow, hrdefer] at hydef
  by_cases hl : x.resetLow = true
  · rw [if_pos (hlow.trans hl)]
    have hkept : ∀ c : Cause, y.resetCauses.getLsbD c.bit = true → y.causeKept c = true := fun c hc => by
      rw [State.causeKept, if_pos (hlow.trans hl)]
      exact hc
    rw [if_pos hl] at hysup
    simp only [if_pos hl] at hydef
    refine ⟨hyw, hkeeps, hblocks, hfull, hlow, hawake, hkept _ hysup, hzero, hylast.trans hrlast,
      hyresweep.trans hrresweep, fun h => absurd hl (by rw [h]; exact Bool.false_ne_true), fun _ => ⟨?_, hymode.trans hrmode, hyfire.trans hrfire, hylock.trans hrlock⟩,
      fun c hc => hkept c (hydef c hc), ?_, ?_⟩
    · rw [State.latches, hytaken, hyquiet (hrlow.trans hl), hrquiet hl]
      show (0 : Word) ||| r.attentionTaken.getD 0 = 0
      rw [hrtaken]
      rfl
    · rw [hl, Bool.not_true, Bool.and_false, if_neg Bool.false_ne_true]
      exact hylink.trans hrlink
    · rw [hl, Bool.not_true, Bool.and_false, if_neg Bool.false_ne_true]
      exact hysweep.trans hrsweep
  · have hl' : x.resetLow = false := Bool.eq_false_iff.mpr hl
    rw [if_neg (fun hh => hl (hlow.symm.trans hh))]
    rw [if_neg hl] at hysup
    simp only [if_neg hl] at hydef
    have hyawake : y.awake = true := by rw [hawake, hl']; rfl
    have hres := resumeBlocks_resumed hyw hyawake (hysweep.trans hrsweep)
    have hlines := hres.lines
    generalize resumeBlocks y = z at hres hlines
    obtain ⟨hzf, hzlink, hzsweep, hzmode, hzkept, -⟩ := hres
    have hzlow := congrArg State.resetLow hzf
    have hzsupply := congrArg State.supply hzf
    have hzawake := congrArg State.awake hzf
    have hzdef := congrArg State.deferred hzf
    have hzlast := congrArg State.lastCommand hzf
    have hzresweep := congrArg State.resweep hzf
    have hkept : ∀ c : Cause, y.attention.getLsbD c.bit = true → z.causeKept c = true := fun c hc => by
      rw [State.causeKept, if_neg (by rw [hzlow]; exact fun hh => hl (hlow.symm.trans hh))]
      exact latched_of_attention (hzkept c hc)
    have hzw : Whole z := by
      rw [hzf]
      exact ⟨hyw.clean, hyw.wf⟩
    have hzkeeps : resetKeeps x z := by
      generalize z.linkState = p1 at hzf
      generalize z.mode = p2 at hzf
      generalize z.attention = p3 at hzf
      generalize z.sweep = p4 at hzf
      rw [hzf]
      exact hkeeps
    have hzblocks : blocksReset z := by
      generalize z.linkState = p1 at hzf
      generalize z.mode = p2 at hzf
      generalize z.attention = p3 at hzf
      generalize z.sweep = p4 at hzf
      rw [hzf]
      exact hblocks
    refine ⟨hzw, hzkeeps, hzblocks, hzsupply.trans hfull, hzlow.trans hlow, hzawake.trans hawake, hkept _ hysup,
      (congrArg Voted.value hzdef).trans hzero, hzlast.trans (hylast.trans hrlast),
      hzresweep.trans (hyresweep.trans hrresweep), fun _ => hlines, fun h => absurd h hl, fun c hc => hkept c (hydef c hc), ?_, ?_⟩
    · rw [hzlink, hl', Bool.not_false, Bool.and_true]
      have hconf : y.linkConfig = x.linkConfig := hyconf.trans hrconf
      rw [hconf, hylink]
      show (if x.linkConfig.value.autoStart then LinkState.running else r.linkState) = _
      rw [hrlink]
    · rw [hzsweep, hl', Bool.not_false, Bool.and_true]
      have hclock : y.clock = x.clock := hyclock.trans hrclock
      rw [hclock, hysweep]
      show (if x.clock.value.isSet then some (⟨1, x.clock.value.calendar.minute⟩ : Sweep) else r.sweep) = _
      rw [hrsweep]

/-! ### The check pattern (R162) -/

theorem clearRetained_whole {s : State} (h : Whole s) (lost : Bool) : Whole (clearRetained lost s) := by
  refine ⟨(undamaged_iff _).mpr ⟨Voted.clean_of _, Voted.clean_of _, Voted.clean_of _, Voted.clean_of _, Voted.clean_of _,
    Voted.clean_of _, Voted.clean_of _, Voted.clean_of _, Voted.clean_of _, rfl, rfl, rfl, rfl, rfl⟩, ?_⟩
  obtain ⟨-, -, -, -, hk⟩ := (tablesWf_iff s).mp h.wf
  exact (tablesWf_iff _).mpr ⟨rfl, rfl, rfl, rfl, hk⟩

/-- Settles O51: the check pattern held, and lost. -/
theorem supplyReturnTestsThePattern : Obligations.SupplyReturnTestsThePattern := by
  unfold Obligations.SupplyReturnTestsThePattern
  intro s held hu hw
  have hs : Whole s := ⟨hu, hw⟩
  refine ⟨fun hsup => ?_, fun hsup => ?_⟩
  · show Host.Outcome.next _ = _
    rw [hsup]
  · have hcut := cutByReset_cut hs
    have hexec : exec (.supplyReturn held) s = .next (returned { testPattern held (cutByReset s) with supply := .full }) := by
      refine congrArg Host.Outcome.next ?_
      rw [hsup]
      rfl
    generalize cutByReset s = v at hcut hexec
    obtain ⟨hvw, hvm, -, -⟩ := hcut
    have hframe := hvm.2.1
    have hvlow := congrArg State.resetLow hframe
    have hvpattern := congrArg State.checkPattern hframe
    have hvconf := congrArg State.linkConfig hframe
    have hvclock := congrArg State.clock hframe
    by_cases hkept : held = true ∧ s.checkPattern = true
    · have htest : testPattern held v = v := by
        unfold testPattern
        rw [hvpattern, if_pos (Bool.and_eq_true_iff.mpr hkept)]
      rw [htest] at hexec
      have hx : Whole { v with supply := .full } := ⟨hvw.clean, hvw.wf⟩
      have hr := returned_returned hx rfl
      generalize returned { v with supply := .full } = t at hr hexec
      have hlow : t.resetLow = s.resetLow := hr.resetLow.trans hvlow
      have hcheck := hr.keeps
      obtain ⟨-, -, -, -, -, -, -, -, hpattern, -⟩ := hcheck
      refine ⟨v, t, hvm, hexec, hr.supply, hlow, ?_, hr.blocks, hr.cause, hr.deferred, hr.lastCommand, ?_, hr.resweep,
        fun h => hr.lines (hvlow.trans h), fun h => hr.quiet (hvlow.trans h), fun _ _ => ⟨hr.keeps, hr.causes, ?_, ?_⟩,
        fun hno => ?_⟩
      · exact hr.awake.trans (congrArg Bool.not hvlow)
      · exact hpattern.trans (hvpattern.trans hkept.2)
      · refine hr.link.trans ?_
        show (if v.linkConfig.value.autoStart && !v.resetLow then LinkState.running else .stopped) = _
        rw [hvconf, hvlow]
      · refine hr.sweep.trans ?_
        show (if v.clock.value.isSet && !v.resetLow then some (⟨1, v.clock.value.calendar.minute⟩ : Sweep) else none) = _
        rw [hvclock, hvlow]
      · rcases hno with hno | hno
        · rw [hkept.1] at hno
          exact Bool.noConfusion hno
        · rw [hkept.2] at hno
          exact Bool.noConfusion hno
    · have htest : testPattern held v = clearRetained true v := by
        unfold testPattern
        rw [hvpattern, if_neg (fun hh => hkept (Bool.and_eq_true_iff.mp hh))]
      rw [htest] at hexec
      have hc := clearRetained_whole hvw true
      have hx : Whole { clearRetained true v with supply := .full } := ⟨hc.clean, hc.wf⟩
      have hr := returned_returned hx rfl
      have hempty := resetKeeps_empty hr.whole hr.keeps hr.blocks rfl rfl rfl rfl
      have hkeeps := hr.keeps
      generalize returned { clearRetained true v with supply := .full } = t at hr hexec hempty hkeeps
      obtain ⟨hgrants, hrooms, hpresence, hstations⟩ := hempty
      obtain ⟨hclock, -, hbars, hentries, hwindow, htimeout, hconf, hhealth, hpattern, htamper, -⟩ := hkeeps
      have hlow : t.resetLow = s.resetLow := hr.resetLow.trans hvlow
      refine ⟨v, t, hvm, hexec, hr.supply, hlow, ?_, hr.blocks, hr.cause, hr.deferred, hr.lastCommand, hpattern, hr.resweep,
        fun h => hr.lines (hvlow.trans h), fun h => hr.quiet (hvlow.trans h), fun h1 h2 => absurd ⟨h1, h2⟩ hkept,
        fun _ => ⟨?_, hgrants, hrooms, hpresence, hentries, ?_, hstations, ?_, ?_, ?_, ?_, ?_, ?_, ?_⟩⟩
      · exact hr.awake.trans (congrArg Bool.not hvlow)
      · exact (congrArg Voted.value hhealth).trans (Voted.value_of _)
      · exact (congrArg Voted.value hbars).trans (Voted.value_of _)
      · exact (congrArg Voted.value hclock).trans (Voted.value_of _)
      · exact (congrArg Voted.value hwindow).trans (Voted.value_of _)
      · exact (congrArg Voted.value htimeout).trans (Voted.value_of _)
      · exact (congrArg Voted.value hconf).trans (Voted.value_of _)
      · exact congrArg Prod.fst htamper
      · exact hr.link
      · exact hr.sweep

end Sys2Proof.Machine

namespace Sys2Proof.Machine
open Sys2Proof

/-! ## The bar list's membership test (R107) -/

/-- A search of so many entries from a position on reads the list from there, in ascending order. -/
theorem searchBars_sorted {s : State} (hu : s.undamaged = true) (c : Credential) :
    ∀ (l : List (Stored Credential)) (position : Nat), 1 ≤ position → s.barEntries.drop (position - 1) = l →
      l.Pairwise (fun a b => a.value.toNat < b.value.toNat) →
      ((∃ e ∈ l, e.value = c) → ∃ p, searchBars c l.length position s = (.found p, s)) ∧
      (¬ (∃ e ∈ l, e.value = c) → ∃ p, searchBars c l.length position s = (.absent p, s))
  | [], position, _, _, _ => ⟨fun ⟨_, he, _⟩ => absurd he List.not_mem_nil, fun _ => ⟨position, rfl⟩⟩
  | e :: l, position, hpos, hdrop, hsorted => by
    obtain ⟨hlt, hrest⟩ := List.pairwise_cons.mp hsorted
    have hhead : s.barEntries[position - 1]? = some e := by
      rw [← List.head?_drop, hdrop, List.head?_cons]
    have htail : s.barEntries.drop (position + 1 - 1) = l := by
      rw [show position + 1 - 1 = position - 1 + 1 by omega, ← List.tail_drop, hdrop, List.tail_cons]
    have ih := searchBars_sorted hu c l (position + 1) (by omega) htail hrest
    simp only [List.length_cons, searchBars, readBarEntry_undamaged hu, hhead, Option.map_some]
    by_cases he : e.value = c
    · simp [he]
    · by_cases hle : c.toNat < e.value.toNat
      · have habsent : ¬ ∃ x ∈ e :: l, x.value = c := by
          rintro ⟨x, hx, rfl⟩
          rcases List.mem_cons.mp hx with rfl | hx
          · exact he rfl
          · exact absurd (hlt x hx) (by omega)
        simp only [if_neg he, if_pos hle]
        exact ⟨fun h => absurd h habsent, fun _ => ⟨position, rfl⟩⟩
      · simp only [if_neg hle, List.mem_cons, exists_eq_or_imp, he, false_or]
        exact ih

section
variable {s : State} {c : Credential} (hu : s.undamaged = true) (hsorted : s.barSorted)
include hu

theorem membership_of_doubtful (h : s.barHeader.value.doubtful = true) : membership c s = (.fault, s) := by
  simp only [membership, readBarHeader_undamaged hu, if_pos h]

include hsorted

omit hu in
theorem barCount_of_sorted : barCount s.barHeader.value s = s.barEntries.length := by
  rw [barCount, hsorted.2, Nat.min_self]

theorem membership_of_listed (h : s.barHeader.value.doubtful = false) (hon : s.onBarList c) :
    membership c s = (.barred, s) := by
  obtain ⟨p, hp⟩ := (searchBars_sorted hu c s.barEntries 1 (Nat.le_refl 1) rfl hsorted.1).1 hon
  simp only [membership, readBarHeader_undamaged hu, h, Bool.false_eq_true, if_false, barCount_of_sorted hsorted, hp]

theorem membership_of_not_listed (h : s.barHeader.value.doubtful = false) (hon : ¬ s.onBarList c) :
    membership c s = (.notBarred, s) := by
  obtain ⟨p, hp⟩ := (searchBars_sorted hu c s.barEntries 1 (Nat.le_refl 1) rfl hsorted.1).2 hon
  simp only [membership, readBarHeader_undamaged hu, h, Bool.false_eq_true, if_false, barCount_of_sorted hsorted, hp]

end

/-! ## The reference number drawn (R114), and a hot card (R126) -/

theorem referral_isSome_iff (s : State) (n : Nat) : (s.referral n).isSome = true ↔ ∃ e ∈ s.referrals, e.reference = n := by
  simp only [State.referral, List.find?_isSome, decide_eq_true_eq]

/-- The numbers held are passed one by one. -/
theorem freeReference_eq {s : State} : ∀ (k : Nat) {tries m : Nat}, k < tries →
    (∀ e ∈ s.referrals, e.reference ≠ numberAfter k m) →
    (∀ j, j < k → ∃ e ∈ s.referrals, e.reference = numberAfter j m) → freeReference s tries m = numberAfter k m
  | 0, tries + 1, m, _, hfree, _ => by
    have hnot : ¬ (s.referral m).isSome = true := fun h =>
      let ⟨e, he, hm⟩ := (referral_isSome_iff s m).mp h
      hfree e he hm
    rw [freeReference, if_neg hnot]
    rfl
  | k + 1, tries + 1, m, hlt, hfree, hheld => by
    have hm : (s.referral m).isSome = true := (referral_isSome_iff s m).mpr (hheld 0 (Nat.succ_pos k))
    rw [freeReference, if_pos hm]
    exact freeReference_eq k (Nat.lt_of_succ_lt_succ hlt) hfree fun j hj => hheld (j + 1) (Nat.succ_lt_succ hj)

theorem createEntry_drawn {s : State} (hu : s.undamaged = true) {n : Nat} (hn : s.draws n) (k : Nat) (c : Credential)
    (room : Nat) (q : Sequence) (kind : ReferralKind) :
    createEntry k c room q kind s = (n, { s with
      referrals := s.referrals ++ [⟨n, k, c, room, q, s.clock.value.calendar.minute, kind⟩],
      referenceCounter := numberAfter 1 n }) := by
  obtain ⟨i, hi, rfl, hfree, hheld⟩ := hn
  simp only [createEntry, presentMinute_undamaged hu, freeReference_eq i (Nat.lt_succ_of_le hi) hfree hheld]
  rfl

section
variable {s : State} (ha : s.awake = true) (k : Nat) (c : Credential) (room : Nat) (q : Sequence)
include ha

theorem createHotCard_of_full (h : 4 ≤ s.hotCards) :
    createHotCard k c room q s = { s with attention := s.attention ||| Cause.hotCardOverflow.word } := by
  rw [createHotCard, if_neg (Nat.not_lt.mpr h), raise_of_awake ha]

theorem createHotCard_of_room (hu : s.undamaged = true) (h : s.hotCards < 4) {n : Nat} (hn : s.draws n) :
    createHotCard k c room q s = { s with
      attention := s.attention ||| Cause.hotCard.word, referenceCounter := numberAfter 1 n,
      referrals := s.referrals ++ [⟨n, k, c, room, q, s.clock.value.calendar.minute, .hotCard false⟩] } := by
  rw [createHotCard, if_pos (show s.hotCards < Config.hotCards from h), createEntry_drawn hu hn, raise_of_awake (by exact ha)]

end

/-! ## The checks in undamaged storage (R71, R72, R73, R122): one operation each -/

theorem Room.view_of_inService {x : Room} (h : x.header.value = .inService) : x.view = .readable false x.body.value := by
  rw [Room.view, h]

theorem Room.view_of_closed {x : Room} (h : x.header.value = .closed) : x.view = .readable true x.body.value := by
  rw [Room.view, h]

theorem Room.view_of_unreadable {x : Room} (h : x.header.value = .undefined ∨ x.header.value = .faulted) :
    x.view = .undefined ∨ x.view = .faulted := by
  rcases h with h | h <;> simp [Room.view, h]

section
variable {s : State} (d : Decision) (hu : s.undamaged = true)
include hu

theorem opStation_checks :
    ((s.station d.station).header.value = true → opStation d s = failCheck d .stationFault s) ∧
    ((s.station d.station).header.value = false → (s.station d.station).body.value.binding = none →
      opStation d s = failCheck d .stationUnbound s) ∧
    (∀ r, s.boundTo d.station r → opStation d s = goesOn { d with room := r } .room s) := by
  simp only [opStation, readStationBody_undamaged hu, Station.readable]
  refine ⟨fun h => ?_, fun h hb => ?_, fun r ⟨h, hb⟩ => ?_⟩
  · simp only [h, if_true]
  · simp only [h, Bool.false_eq_true, if_false, hb]
  · simp only [h, Bool.false_eq_true, if_false, hb]
    rfl

theorem opRoom_of_unreadable (h : (s.room d.room).view = .undefined ∨ (s.room d.room).view = .faulted) :
    opRoom d s = failCheck d .roomFault s := by
  rcases h with h | h <;> simp only [opRoom, readRoomRecord_undamaged hu, h]

theorem opRoom_of_answer {n : Nat} (hw : d.work = .answer n) {closed : Bool} {b : RoomBody}
    (h : (s.room d.room).view = .readable closed b) :
    opRoom d s = goesOn { d with key := b.key, cls := b.cls, limit := b.limit } .mode s := by
  simp only [opRoom, readRoomRecord_undamaged hu, h, hw]
  rfl

/-- A request, unlike an answer check, is not let into a CLOSED room. -/
theorem opRoom_of_request {side : Side} (hw : d.work = .request side) {closed : Bool} {b : RoomBody}
    (h : (s.room d.room).view = .readable closed b) :
    opRoom d s = if closed then failCheck { d with key := b.key, cls := b.cls, limit := b.limit } .roomClosed s
      else goesOn { d with key := b.key, cls := b.cls, limit := b.limit } .mode s := by
  simp only [opRoom, readRoomRecord_undamaged hu, h, hw]
  rfl

omit hu in
theorem opMode_checks : (s.mode = .lockdown → opMode d s = failCheck d .lockdown s) ∧
    (s.mode = .fire → opMode d s = failCheck d .fire s) ∧ (s.mode = .normal → opMode d s = goesOn d .tamper s) := by
  refine ⟨fun h => ?_, fun h => ?_, fun h => ?_⟩ <;> rw [opMode, h] <;> rfl

theorem opTamper_checks : (s.tamper.value.flag = true → opTamper d s = failCheck d .tamper s) ∧
    (s.tamper.value.flag = false → opTamper d s = goesOn d .clock s) := by
  simp only [opTamper, readTamper_undamaged hu]
  exact ⟨fun h => if_pos h, fun h => if_neg (by simp [h])⟩

theorem opClock_checks : (s.clock.value.isSet = false → opClock d s = failCheck d .clockUnset s) ∧
    (s.clock.value.isSet = true → opClock d s = goesOn d .barState s) := by
  simp only [opClock, readClockItem_undamaged hu]
  exact ⟨fun h => if_neg (by simp [h]), fun h => if_pos h⟩

theorem opBarState_checks : (s.barHeader.value.doubtful = true → opBarState d s = failCheck d .barListFault s) ∧
    (s.barHeader.value.doubtful = false → opBarState d s = goesOn d .barTest s) := by
  simp only [opBarState, readBarHeader_undamaged hu]
  exact ⟨fun h => if_pos h, fun h => if_neg (by simp [h])⟩

theorem opBarTest_of_doubtful (h : s.barHeader.value.doubtful = true) :
    opBarTest d s = failCheck d .barListFault s := by
  simp only [opBarTest, membership_of_doubtful hu h]

theorem opBarTest_of_not_listed (hb : s.barSorted) (h : s.barHeader.value.doubtful = false)
    (hon : ¬ s.onBarList d.credential) : opBarTest d s = goesOn d .locate s := by
  simp only [opBarTest, membership_of_not_listed hu hb h hon]
  rfl

theorem opBarTest_of_answer {n : Nat} (hw : d.work = .answer n) (hb : s.barSorted)
    (h : s.barHeader.value.doubtful = false) (hon : s.onBarList d.credential) :
    opBarTest d s = failCheck d .barred s := by
  simp only [opBarTest, membership_of_listed hu hb h hon, hw]

/-- A bar hit asks for a hot card, except in an answer check. -/
theorem opBarTest_of_request {side : Side} (hw : d.work = .request side) (hb : s.barSorted)
    (h : s.barHeader.value.doubtful = false) (hon : s.onBarList d.credential) :
    opBarTest d s = failCheck d .barred (createHotCard d.station d.credential d.room d.sequence s) := by
  simp only [opBarTest, membership_of_listed hu hb h hon, hw]

theorem opLocate_checks : (s.locateIn d.credential s.inUseRecords ≠ none → opLocate d s = failCheck d .passback s) ∧
    (s.locateIn d.credential s.inUseRecords = none → opLocate d s = goesOn { d with own := .start } .search s) := by
  simp only [opLocate, locate_undamaged hu]
  refine ⟨fun h => if_pos (Option.isSome_iff_ne_none.mpr h), fun h => ?_⟩
  simp only [h, Option.isSome_none, Bool.false_eq_true, if_false]
  rfl

theorem opSearch_checks (hp : d.phase = .search) {st : GrantState} {issue : BitVec 8} {g : GrantRecord}
    (hs : (s.slot d.own.cursor).header.value = ⟨st, issue⟩) (hg : g = (s.slot d.own.cursor).body.value) :
    (1024 < d.own.cursor → opSearch d s = failCheck d d.own.notes.reason s) ∧
    (d.own.cursor ≤ 1024 → g.usable st d.credential d.key d.time = true →
      opSearch d s = goesOn { d with own :=
        ⟨d.own.cursor + 1, d.own.notes, some (⟨d.own.cursor, issue⟩, g.role)⟩ } d.afterSearch s) ∧
    (d.own.cursor ≤ 1024 → g.usable st d.credential d.key d.time = false →
      opSearch d s = goesOn { d with own := { d.own with
        cursor := d.own.cursor + 1, notes := d.own.notes.add st g d.credential d.key d.time } } .search s) := by
  subst hg
  exact ⟨opSearch_of_end, fun hc husable => opSearch_of_usable hu hc hs husable,
    fun hc hno => opSearch_of_not_usable hu hc hs hno hp⟩

/-- Step 9 with its limit known. -/
theorem opCount_of_limit {n : Nat} (h : stepNineLimit d s = (some n, s)) :
    (n < s.occupancy d.room + d.recordsAsked → opCount d s = failCheck d .roomFull s) ∧
    (s.occupancy d.room + d.recordsAsked ≤ n → opCount d s = goesOn d .pool s) := by
  simp only [opCount, scanIndexes_undamaged hu, h]
  exact ⟨fun hlt => if_neg (by omega), fun hle => if_pos hle⟩

omit hu in
theorem stepNineLimit_of_answer {n : Nat} (hw : d.work = .answer n) : stepNineLimit d s = (some d.limit, s) := by
  rw [stepNineLimit, hw]

theorem stepNineLimit_of_readable {side : Side} (hw : d.work = .request side) {closed : Bool} {b : RoomBody}
    (h : (s.room d.room).view = .readable closed b) : stepNineLimit d s = (some b.limit, s) := by
  simp only [stepNineLimit, hw, readRoomRecord_undamaged hu, h]

theorem opCount_of_unreadable {side : Side} (hw : d.work = .request side)
    (h : (s.room d.room).view = .undefined ∨ (s.room d.room).view = .faulted) :
    opCount d s = failCheck d .roomFault s := by
  rcases h with h | h <;>
    simp only [opCount, scanIndexes_undamaged hu, stepNineLimit, hw, readRoomRecord_undamaged hu, h]

theorem opPool_checks :
    ((s.freeRecords d.recordsAsked).length < d.recordsAsked → opPool d s = failCheck d .presenceFull s) ∧
    (d.recordsAsked ≤ (s.freeRecords d.recordsAsked).length → opPool d s = goesOn d d.afterPool s) := by
  simp only [opPool, scanIndexes_undamaged hu]
  exact ⟨fun hlt => if_neg (by omega), fun hle => if_pos hle⟩

theorem opClassRule_of_readable {closed : Bool} {b : RoomBody} (h : (s.room d.room).view = .readable closed b) :
    (d.cls ≠ .escorted ∨ d.own.role = .escort ∨ 1 ≤ b.escorts → opClassRule d s = goesOn d .claim s) ∧
    (d.cls = .escorted → d.own.role = .contractor → b.escorts = 0 → opClassRule d s = failCheck d .noEscort s) := by
  simp only [opClassRule, readRoomRecord_undamaged hu, h]
  refine ⟨fun hok => ?_, fun hcls hrole hno => ?_⟩
  · cases hcls : d.cls with
    | opened | paired | referred => rfl
    | escorted =>
      by_cases hrole : d.own.role = .escort
      · exact if_pos hrole
      · have hle : 1 ≤ b.escorts := (hok.resolve_left (fun hne => hne hcls)).resolve_left hrole
        simp only [if_neg hrole, if_pos hle]
        rfl
  · simp [hcls, hrole, hno]

theorem opClassRule_of_unreadable (hcls : d.cls = .escorted) (hrole : d.own.role = .contractor)
    (h : (s.room d.room).view = .undefined ∨ (s.room d.room).view = .faulted) :
    opClassRule d s = failCheck d .roomFault s := by
  rcases h with h | h <;> simp [opClassRule, readRoomRecord_undamaged hu, h, hcls, hrole]

end

end Sys2Proof.Machine

namespace Sys2Proof.Machine
open Sys2Proof

/-! ## The claim on a decision's grant (R13, R73, R97) -/

section
variable {s : State} {h : Handle} {c : Credential} {key : Key} {t : Minute} {g : GrantRecord} {st : GrantState}
  {issue : BitVec 8} (hu : s.undamaged = true) (hs : (s.slot h.slot).header.value = ⟨st, issue⟩)
  (hg : g = (s.slot h.slot).body.value)
include hu hs hg

theorem claimSlot_granted (husable : g.usable st c key t = true) (hi : issue = h.issue) (hr : s.retireHold ≠ some h.slot) :
    claimSlot h c key t s = (.granted ⟨h, g.uses.isSome⟩, useTaken h g s) := by
  rw [claimSlot_of_usable hu hs hg.symm husable hi hr, hi]
  cases huses : g.uses <;> simp only [takeUse, huses, useTaken] <;> rfl

/-- What a refused claim makes of the search: the slot enters the notes in its present state. -/
theorem claimSlot_refused (hno : g.usable st c key t = false ∨ issue ≠ h.issue ∨ s.retireHold = some h.slot) :
    ∃ present, claimSlot h c key t s = (.refused present, s) ∧
      ∀ f : Search, f.afterRefusal present c key t = { f with found := none, notes := f.notes.add st g c key t } := by
  by_cases hread : st = .free ∨ st = .faulted
  · exact ⟨none, claimSlot_of_unread hu hs hread, fun f => by rw [Notes.add_of_unread hread]; rfl⟩
  · obtain ⟨hf, hd⟩ := not_or.mp hread
    exact ⟨some (st, g), claimSlot_of_not_usable hu hs hg.symm hf hd hno, fun _ => rfl⟩

end

section
variable {s : State} {d : Decision} {h : Handle} {role : Role} {g : GrantRecord} {st : GrantState} {issue : BitVec 8}
  (hu : s.undamaged = true) (hs : (s.slot h.slot).header.value = ⟨st, issue⟩) (hg : g = (s.slot h.slot).body.value)
include hu hs hg

theorem opClaim_checks (hf : d.own.found = some (h, role)) :
    (g.usable st d.credential d.key d.time = true → issue = h.issue → s.retireHold ≠ some h.slot →
      opClaim d s = goesOn { d with claims := [⟨h, g.uses.isSome⟩] } d.afterClaim (useTaken h g s)) ∧
    (g.usable st d.credential d.key d.time = false ∨ issue ≠ h.issue ∨ s.retireHold = some h.slot →
      opClaim d s = goesOn { d with own := { d.own with
        found := none, notes := d.own.notes.add st g d.credential d.key d.time } } .search s) := by
  refine ⟨fun husable hi hr => ?_, fun hno => ?_⟩
  · simp only [opClaim, hf, claimSlot_granted hu hs hg husable hi hr]
    rfl
  · obtain ⟨present, hc, hafter⟩ := claimSlot_refused hu hs hg hno
    simp only [opClaim, hf, hc, hafter]
    rfl

theorem opClaimFirst_checks {k : Nat} {x : PairContext} (hx : completingContext d s = some (k, x))
    (hf : d.first.found = some (h, role)) :
    (g.usable st x.credential d.key d.time = true → issue = h.issue → s.retireHold ≠ some h.slot →
      opClaimFirst d s = goesOn { d with claims := [⟨h, g.uses.isSome⟩] } .claimSecond (useTaken h g s)) ∧
    (g.usable st x.credential d.key d.time = false ∨ issue ≠ h.issue ∨ s.retireHold = some h.slot →
      opClaimFirst d s = goesOn { d with first := { d.first with
        found := none, notes := d.first.notes.add st g x.credential d.key d.time } } .firstSearch s) := by
  refine ⟨fun husable hi hr => ?_, fun hno => ?_⟩
  · simp only [opClaimFirst, hx, hf, claimSlot_granted hu hs hg husable hi hr]
    rfl
  · obtain ⟨present, hc, hafter⟩ := claimSlot_refused hu hs hg hno
    simp only [opClaimFirst, hx, hf, hc, hafter]
    rfl

omit hu hs hg in
theorem undoData_no_records (hu : s.undamaged = true) (claims : List Claim) :
    undoData claims [] s = { s with grants := (returnClaims claims s).grants } := by
  rw [undoData, removeUnsent, scanIndexes_undamaged hu, List.foldl_nil]
  exact returnClaims_eq claims hu

/-- The second card's claim refused: the first card's is given back, and the search goes on. -/
theorem opClaimSecond_checks (hf : d.own.found = some (h, role)) (hrec : d.records = []) :
    (g.usable st d.credential d.key d.time = true → issue = h.issue → s.retireHold ≠ some h.slot →
      opClaimSecond d s =
        goesOn { d with claims := d.claims ++ [⟨h, g.uses.isSome⟩] } .admission (useTaken h g s)) ∧
    (g.usable st d.credential d.key d.time = false ∨ issue ≠ h.issue ∨ s.retireHold = some h.slot →
      opClaimSecond d s = goesOn { d with
        claims := [], overstayed := [], own := { d.own with
          found := none, notes := d.own.notes.add st g d.credential d.key d.time } } .search
        { s with grants := (returnClaims d.claims s).grants }) := by
  refine ⟨fun husable hi hr => ?_, fun hno => ?_⟩
  · simp only [opClaimSecond, hf, claimSlot_granted hu hs hg husable hi hr]
    rfl
  · obtain ⟨present, hc, hafter⟩ := claimSlot_refused hu hs hg hno
    simp only [opClaimSecond, hf, hc, undoHand, hafter, hrec, undoData_no_records hu]
    rfl

end

/-! ## The admission of a decision (R74, R98) -/

theorem anyLocated_undamaged {s : State} (hu : s.undamaged = true) (es : List Entrant) : (anyLocated es s).2 = s := by
  induction es with
  | nil => rfl
  | cons e es ih => simp only [anyLocated, locate_undamaged hu, ih]

/-- A refused admission leaves undamaged storage as it was. -/
theorem admission_refused {s : State} (hu : s.undamaged = true) {r : Nat} {es : List Entrant} {reason : DenyReason}
    (h : (admission r es s).1 = .error reason) : admission r es s = (.error reason, s) := by
  have hloc : anyLocated es s = ((anyLocated es s).1, s) := Prod.ext rfl (anyLocated_undamaged hu es)
  generalize (anyLocated es s).1 = present at hloc
  revert h
  simp only [admission, admissionWith, scanIndexes_undamaged hu, readRoomRecord_undamaged hu]
  cases (s.room r).view with
  | undefined | faulted => exact fun h => Prod.ext h rfl
  | readable closed b =>
    simp only [hloc]
    split
    · exact fun h => Prod.ext h rfl
    · split
      · exact fun h => Prod.ext h rfl
      · split
        · exact fun h => Prod.ext h rfl
        · exact fun h => nomatch h

section
variable {s : State} {d : Decision}

theorem opAdmission_of_refused (hu : s.undamaged = true) {reason : DenyReason}
    (h : (admission d.room (d.entrants ((completingContext d s).map Prod.snd)) s).1 = .error reason) :
    opAdmission d s = undoAndFail d reason s := by
  simp only [opAdmission, admission_refused hu h]

theorem opAdmission_of_admitted {ids : List Nat} {t : State}
    (h : admission d.room (d.entrants ((completingContext d s).map Prod.snd)) s = (.ok ids, t)) :
    opAdmission d s = goesOn { d with records := ids } d.afterAdmission t := by
  simp only [opAdmission, h]
  rfl

theorem entrants_of_single {c : Claim} {h : Handle} {role : Role} (first : Option PairContext) (hc : d.claims = [c])
    (hf : d.own.found = some (h, role)) :
    d.entrants first = [⟨d.credential, role, c.handle, c.useTaken, d.station, none, decide (c.handle ∈ d.overstayed)⟩] := by
  simp only [Decision.entrants, hc, Search.role, hf, Decision.overstays]

theorem entrants_of_pair {c1 c2 : Claim} {h1 h2 : Handle} {role1 role2 : Role} (x : PairContext)
    (hc : d.claims = [c1, c2]) (hf1 : d.first.found = some (h1, role1)) (hf2 : d.own.found = some (h2, role2)) :
    d.entrants (some x) =
      [⟨x.credential, role1, c1.handle, c1.useTaken, x.station, some d.credential, decide (c1.handle ∈ d.overstayed)⟩,
        ⟨d.credential, role2, c2.handle, c2.useTaken, x.station, some x.credential, decide (c2.handle ∈ d.overstayed)⟩] := by
  simp only [Decision.entrants, hc, Search.role, hf1, hf2, Decision.overstays]

end

/-! ## A permit undone with its DENY (R76) -/

/-- What a DENY placed after a permit has been undone leaves. -/
theorem deniedWith_undone {d : Decision} {s u : State} (h : Undone d.records d.claims s u) (r : DenyReason) :
    undoneAndDenied d r s (deniedWith d r u) := by
  have hverdicts := congrArg State.verdicts h.frame
  have hrequests := congrArg State.requests h.frame
  have hset := station_setStation (s := u) ((tablesWf_iff u).mp h.whole.wf).2.2.2.1 d.station d.station
  refine ⟨rfl, congrArg (· ++ _) hverdicts, ?_, h.removed, (givenBack_of_slots h.slots : givenBack d.claims s u), hrequests⟩
  exact (congrArg Station.answer (hset _)).trans (congrArg Station.answer (if_pos rfl))

theorem undoAndFail_of_first {d : Decision} {s : State} (hs : Whole s) {side : Side} (hw : d.work = .request side)
    (hh : d.holding = .none) (r : DenyReason) : undoneAndDenied d r s (undoAndFail d r s) := by
  have h := deniedWith_undone (undoData_undone hs d.claims d.records) r
  unfold undoAndFail undoHand
  dsimp only
  rwa [failCheck_of_first (by exact hw) (by exact hh)]

/-! ## A completion that fails (R99, R100) -/

theorem denyReservation_eq (b : Block) (k : Nat) (q : Sequence) (r : DenyReason) (s : State) :
    denyReservation b k q r s = deniedAt b k q r s := by
  rw [denyReservation, deniedAt, reportFreed_eq_freed, convertDeny_eq_converted]

theorem closeReservation_eq (b : Block) (k : Nat) (q : Sequence) (cause : ClosureCause) (s : State) :
    closeReservation b k q cause s = match cause.reason with
      | some r => deniedAt b k q r s
      | none => freed k s := by
  unfold closeReservation
  cases cause.reason with
  | none => exact reportFreed_eq_freed k s
  | some r => exact denyReservation_eq b k q r s

section
variable {s : State} {d : Decision} {k : Nat} {c : PairContext}

theorem completingContext_of_completing (hh : d.holding = .completing k) (hp : s.pair k = some c) :
    completingContext d s = some (k, c) := by
  simp only [completingContext, hh, hp, Option.map_some]

theorem returnToOpen_eq (hp : s.pair k = some c) : returnToOpen k s = contextReturned k c s := by
  simp only [returnToOpen, hp, contextReturned, closePair, closeReservation_eq, expirePair, denyReservation_eq]
  cases c.closure with
  | none => rfl
  | some x => cases x.reason <;> rfl

/-- A check of a completion fails: the second card is denied and the context returns. -/
theorem failCheck_of_completing {side : Side} (hw : d.work = .request side) (hh : d.holding = .completing k)
    (r : DenyReason) (hp : s.pair k = some c) : failCheck d r s = contextReturned k c (deniedWith d r s) := by
  simp only [failCheck, hw, hh, placeVerdict_eq_placed _ _ _ _ _ (show Verdict.deny.isInterim = false from rfl)]
  exact returnToOpen_eq (by exact hp)

theorem firstFails_eq (hh : d.holding = .completing k) (r : DenyReason) (hp : s.pair k = some c) :
    firstFails d r s = firstFailed d k c r s := by
  simp only [firstFails, completingContext_of_completing hh hp, firstFailed, closePair, closeReservation_eq,
    denyReservation_eq]
  cases c.closure with
  | none => rfl
  | some x => cases x.reason <;> rfl

/-- The grants do not matter to a context that returns. -/
theorem contextReturned_grants (G : Table Slot) :
    contextReturned k c { s with grants := G } = { contextReturned k c s with grants := G } := by
  have hdeny : ∀ (q : Sequence) (r : DenyReason) (x : State),
      deniedAt .pairTable c.station q r { x with grants := G } =
        { deniedAt .pairTable c.station q r x with grants := G } := by
    intro q r x
    unfold deniedAt
    by_cases he : x.endedAt .pairTable c.station = true
    · rw [if_pos he, if_pos (show ({ x with grants := G } : State).endedAt .pairTable c.station = true from he)]
      rfl
    · rw [if_neg he, if_neg (show ¬ ({ x with grants := G } : State).endedAt .pairTable c.station = true from he)]
      rfl
  unfold contextReturned
  cases c.closure with
  | none =>
    dsimp only
    split
    · exact hdeny _ _ { s with pairs := Table.set none s.pairs k none }
    · rfl
  | some x =>
    dsimp only
    cases x.reason with
    | none => rfl
    | some r => exact hdeny _ r { s with pairs := Table.set none s.pairs k none }

end

end Sys2Proof.Machine

namespace Sys2Proof.Machine
open Sys2Proof

/-! ## The checks of a first request and of a completion (R71, R96) -/

/-- How a request's bar test ends, for each answer of the list. -/
theorem opBarTest_checks {s : State} (d : Decision) (hu : s.undamaged = true) (ha : s.awake = true) {side : Side}
    (hw : d.work = .request side) (hb : s.barSorted) :
    (s.barHeader.value.doubtful = true → opBarTest d s = failCheck d .barListFault s) ∧
    (s.barHeader.value.doubtful = false → ¬ s.onBarList d.credential → opBarTest d s = goesOn d .locate s) ∧
    (s.barHeader.value.doubtful = false → s.onBarList d.credential → 4 ≤ s.hotCards →
      opBarTest d s = failCheck d .barred { s with attention := s.attention ||| Cause.hotCardOverflow.word }) ∧
    (s.barHeader.value.doubtful = false → s.onBarList d.credential → s.hotCards < 4 → ∀ n, s.draws n →
      opBarTest d s = failCheck d .barred { s with
        attention := s.attention ||| Cause.hotCard.word, referenceCounter := numberAfter 1 n,
        referrals := s.referrals ++ [⟨n, d.station, d.credential, d.room, d.sequence,
          s.clock.value.calendar.minute, .hotCard false⟩] }) := by
  refine ⟨opBarTest_of_doubtful d hu, opBarTest_of_not_listed d hu hb, fun hd hon hfull => ?_, fun hd hon hroom n hn => ?_⟩
  · rw [opBarTest_of_request d hu hw hb hd hon, createHotCard_of_full ha _ _ _ _ hfull]
  · rw [opBarTest_of_request d hu hw hb hd hon, createHotCard_of_room ha _ _ _ _ hu hroom hn]

section
variable {s : State} {d : Decision} {side : Side} (hw : d.work = .request side)
include hw

/-- A failing check of a request looks at nothing of the decision but its sequence and what it holds. -/
theorem failCheck_congr {e : Decision} (r : DenyReason) (hwork : e.work = d.work) (hholding : e.holding = d.holding)
    (hstation : e.station = d.station) (hsequence : e.sequence = d.sequence) : failCheck e r s = failCheck d r s := by
  simp only [failCheck, hwork, hw, hholding, hstation, hsequence]

/-- Step 1c of a request, by the room's header. -/
theorem opRoom_checks (hu : s.undamaged = true) :
    ((s.room d.room).header.value = .undefined ∨ (s.room d.room).header.value = .faulted →
      opRoom d s = failCheck d .roomFault s) ∧
    ((s.room d.room).header.value = .closed → opRoom d s = failCheck d .roomClosed s) ∧
    (∀ b, (s.room d.room).header.value = .inService → b = (s.room d.room).body.value →
      opRoom d s = goesOn { d with key := b.key, cls := b.cls, limit := b.limit } .mode s) := by
  refine ⟨fun h => opRoom_of_unreadable d hu (Room.view_of_unreadable h), fun h => ?_, fun b h hb => ?_⟩
  · rw [opRoom_of_request d hu hw (Room.view_of_closed h), if_pos rfl]
    exact failCheck_congr hw _ rfl rfl rfl rfl
  · rw [opRoom_of_request d hu hw (Room.view_of_inService h), if_neg Bool.false_ne_true, hb]

end

theorem freeRecords_length_iff (s : State) : (s.freeRecords 1).length < 1 ↔ s.freeRecords 1 = [] := by
  rw [Nat.lt_one_iff, List.length_eq_zero_iff]

theorem one_le_freeRecords_iff (s : State) : 1 ≤ (s.freeRecords 1).length ↔ s.freeRecords 1 ≠ [] := by
  rw [← Nat.not_lt, freeRecords_length_iff]

/-! ### What follows a check -/

section
variable {d : Decision}

theorem recordsAsked_of_first (hh : d.holding = .none) : d.recordsAsked = 1 := by rw [Decision.recordsAsked, hh]

theorem recordsAsked_of_completing {k : Nat} (hh : d.holding = .completing k) : d.recordsAsked = 2 := by
  rw [Decision.recordsAsked, hh]

theorem afterSearch_of_first (hh : d.holding = .none) : d.afterSearch = .count := by rw [Decision.afterSearch, hh]

theorem afterSearch_of_completing {k : Nat} (hh : d.holding = .completing k) :
    d.afterSearch = if d.first.found = none then .firstBar else .count := by
  rw [Decision.afterSearch, hh]
  cases d.first.found <;> rfl

theorem afterPool_of_first {side : Side} (hw : d.work = .request side) (hh : d.holding = .none) :
    d.afterPool = .classRule := by rw [Decision.afterPool, hw, hh]

theorem afterPool_of_completing {side : Side} (hw : d.work = .request side) {k : Nat} (hh : d.holding = .completing k) :
    d.afterPool = .claimFirst := by rw [Decision.afterPool, hw, hh]

theorem afterClaim_of_request {side : Side} (hw : d.work = .request side) :
    d.afterClaim = match d.cls with
      | .opened | .escorted => .admission
      | .paired => .pairOpening
      | .referred => .approvalOpening := by
  cases hcls : d.cls <;> simp only [Decision.afterClaim, hw, hcls]

theorem afterAdmission_of_completing {side : Side} (hw : d.work = .request side) {k : Nat}
    (hh : d.holding = .completing k) : d.afterAdmission = .placement := by
  rw [Decision.afterAdmission, hw, hh]

end

theorem completingContext_of_first {d : Decision} (hh : d.holding = .none) (s : State) : completingContext d s = none := by
  rw [completingContext, hh]

/-! ### The first card of a completion (R96, R100) -/

section
variable {s : State} {d : Decision} {k : Nat} {c : PairContext} (hh : d.holding = .completing k) (hp : s.pair k = some c)
  (hu : s.undamaged = true)
include hh hp hu

theorem opFirstBar_checks (hb : s.barSorted) :
    (s.barHeader.value.doubtful = true → opFirstBar d s = firstFailed d k c .barListFault s) ∧
    (s.barHeader.value.doubtful = false → s.onBarList c.credential → opFirstBar d s = firstFailed d k c .barred s) ∧
    (s.barHeader.value.doubtful = false → ¬ s.onBarList c.credential → opFirstBar d s = goesOn d .firstLocate s) := by
  simp only [opFirstBar, completingContext_of_completing hh hp]
  refine ⟨fun hd => ?_, fun hd hon => ?_, fun hd hon => ?_⟩
  · simp only [membership_of_doubtful hu hd, firstFails_eq hh _ hp]
  · simp only [membership_of_listed hu hb hd hon, firstFails_eq hh _ hp]
  · simp only [membership_of_not_listed hu hb hd hon]
    rfl

theorem opFirstLocate_checks :
    (s.locateIn c.credential s.inUseRecords ≠ none → opFirstLocate d s = firstFailed d k c .passback s) ∧
    (s.locateIn c.credential s.inUseRecords = none →
      opFirstLocate d s = goesOn { d with first := .start } .firstSearch s) := by
  simp only [opFirstLocate, completingContext_of_completing hh hp, locate_undamaged hu, firstFails_eq hh _ hp]
  refine ⟨fun h => if_pos (Option.isSome_iff_ne_none.mpr h), fun h => ?_⟩
  simp only [h, Option.isSome_none, Bool.false_eq_true, if_false]
  rfl

theorem opFirstSearch_checks (hphase : d.phase = .firstSearch) {st : GrantState} {issue : BitVec 8} {g : GrantRecord}
    (hs : (s.slot d.first.cursor).header.value = ⟨st, issue⟩) (hg : g = (s.slot d.first.cursor).body.value) :
    (1024 < d.first.cursor → opFirstSearch d s = firstFailed d k c d.first.notes.reason s) ∧
    (d.first.cursor ≤ 1024 → g.usable st c.credential d.key d.time = true →
      opFirstSearch d s = goesOn { d with first :=
        ⟨d.first.cursor + 1, d.first.notes, some (⟨d.first.cursor, issue⟩, g.role)⟩ } .count s) ∧
    (d.first.cursor ≤ 1024 → g.usable st c.credential d.key d.time = false →
      opFirstSearch d s = goesOn { d with first := { d.first with
        cursor := d.first.cursor + 1, notes := d.first.notes.add st g c.credential d.key d.time } } .firstSearch s) := by
  subst hg
  simp only [opFirstSearch, completingContext_of_completing hh hp]
  refine ⟨fun hend => ?_, fun hc husable => ?_, fun hc hno => ?_⟩
  · simp only [searchRead_of_end hend, firstFails_eq hh _ hp]
  · simp only [searchRead_undamaged hu hc hs, husable, if_true]
    rfl
  · simp only [searchRead_undamaged hu hc hs, hno, Bool.false_eq_true, if_false]
    exact setSeat_eq_goesOn (by exact hphase) s

end

/-! ### The placement of a completion (R75, R98) -/

/-- The condition of a placement in undamaged storage. -/
theorem placementCondition_undamaged {s : State} (hu : s.undamaged = true) (d : Decision) :
    placementCondition d s = (s.placementReason d, s) := by
  simp only [placementCondition, readTamper_undamaged hu, State.placementReason]
  cases d.mark with
  | some m => cases m <;> rfl
  | none => cases s.mode <;> simp [BuildingMode.denial]

theorem Whole.setPair {s : State} (h : Whole s) (k : Nat) (v : Option PairContext) : Whole (s.setPair k v) := by
  obtain ⟨hg, hr, hp, hs, hk⟩ := (tablesWf_iff s).mp h.wf
  exact ⟨h.clean, (tablesWf_iff _).mpr ⟨hg, hr, hp, hs, Table.wf_set _ hk k v⟩⟩

section
variable {s : State} {d : Decision} {k : Nat} {c : PairContext} (hh : d.holding = .completing k) (hp : s.pair k = some c)
include hh hp

/-- A completion placed: the reservation's place is the permit's. -/
theorem opPlacement_of_completed (hu : s.undamaged = true) (hr : s.placementReason d = none) :
    opPlacement d s = { placed ⟨d.station, d.sequence, .permitPair, none, false,
      some ⟨d.claims, [c.credential, d.credential], d.records⟩⟩ s with
        pairs := Table.set none s.pairs k none, seat := none } := by
  simp only [opPlacement, placementCondition_undamaged hu, hr, completingContext_of_completing hh hp]
  rfl

theorem leftContext_of_completing : leftContext d s = s.setPair k none := by
  simp only [leftContext, completingContext_of_completing hh hp]

/-- A completion that a condition of its placement ends: the permit is undone, the context has left. -/
theorem opPlacement_of_denied (hs : Whole s) {r : DenyReason} (hr : s.placementReason d = some r) :
    (opPlacement d s).pairs = Table.set none s.pairs k none ∧ undoneAndDenied d r s (opPlacement d s) := by
  have hcond := placementCondition_undamaged hs.clean d
  have hundone := undoData_undone (hs.setPair k none) d.claims d.records
  have hop : opPlacement d s = deniedWith d r (undoData d.claims d.records (s.setPair k none)) := by
    rw [opPlacement_of_condition ((congrArg Prod.fst hcond).trans hr), hcond, leftContext_of_completing hh hp,
      placeVerdict_eq_placed _ _ _ _ _ (show Verdict.deny.isInterim = false from rfl)]
    rfl
  rw [hop]
  exact ⟨congrArg State.pairs hundone.frame, deniedWith_undone hundone r⟩

end

end Sys2Proof.Machine

namespace Sys2Proof.Machine
open Sys2Proof

/-- A completion's admission refused: the uses are given back, and the context returns. -/
theorem undoAndFail_of_completing {s : State} {d : Decision} {k : Nat} {c : PairContext} (hu : s.undamaged = true)
    {side : Side} (hw : d.work = .request side) (hh : d.holding = .completing k) (hp : s.pair k = some c)
    (hrec : d.records = []) (r : DenyReason) :
    undoAndFail d r s =
      { contextReturned k c (deniedWith d r s) with grants := (returnClaims d.claims s).grants } := by
  unfold undoAndFail undoHand
  simp only [hrec, undoData_no_records hu]
  exact (failCheck_of_completing (by exact hw) (by exact hh) r (by exact hp)).trans
    (contextReturned_grants (s := deniedWith d r s) _)

/-- Settles O56: each check of a first request, and of a completion, in one operation. -/
theorem entryChecksDenyWithTheirReason : Obligations.EntryChecksDenyWithTheirReason := by
  unfold Obligations.EntryChecksDenyWithTheirReason
  refine ⟨fun s d p go hc hwf hgo => ?_, fun s d k c p go hc hh hpair hheld hwf hgo => ?_⟩
  · obtain ⟨ha, hu, hseat, hw, hab, hh, hphase⟩ := id hc
    have hfail : ∀ r t, failCheck d r t = deniedWith d r t := failCheck_of_first hw hh
    replace hgo := hgo.trans (exec_takeRequest_of_deciding (deciding_of_checking hc))
    simp only [requestOp, hphase] at hgo
    refine ⟨?_, ?_, ?_, ?_, ?_, ?_, ?_, ?_, ?_, ?_, ?_, ?_, ?_, ?_, ?_, ?_⟩
    · rintro rfl
      simpa only [hgo, Host.Outcome.next.injEq, hfail] using opStation_checks d hu
    · rintro rfl
      simpa only [hgo, Host.Outcome.next.injEq, hfail] using opRoom_checks hw hu
    · rintro rfl
      simpa only [hgo, Host.Outcome.next.injEq, hfail] using opMode_checks d
    · rintro rfl
      simpa only [hgo, Host.Outcome.next.injEq, hfail] using opTamper_checks d hu
    · rintro rfl
      simpa only [hgo, Host.Outcome.next.injEq, hfail] using opClock_checks d hu
    · rintro rfl
      simpa only [hgo, Host.Outcome.next.injEq, hfail] using opBarState_checks d hu
    · rintro rfl hb
      simpa only [hgo, Host.Outcome.next.injEq, hfail] using opBarTest_checks d hu ha hw hb
    · rintro rfl
      simpa only [hgo, Host.Outcome.next.injEq, hfail] using opLocate_checks d hu
    · rintro rfl closed b hview
      simpa only [hgo, Host.Outcome.next.injEq, hfail, recordsAsked_of_first hh] using
        opCount_of_limit d hu (stepNineLimit_of_readable d hu hw hview)
    · rintro rfl hview
      rw [hgo, opCount_of_unreadable d hu hw hview, hfail]
    · rintro rfl
      simpa only [hgo, Host.Outcome.next.injEq, hfail, recordsAsked_of_first hh, freeRecords_length_iff,
        one_le_freeRecords_iff, afterPool_of_first hw hh] using opPool_checks d hu
    · rintro rfl closed b hview
      simpa only [hgo, Host.Outcome.next.injEq, hfail] using opClassRule_of_readable d hu hview
    · rintro rfl hcls hrole hview
      rw [hgo, opClassRule_of_unreadable d hu hcls hrole hview, hfail]
    · rintro rfl st issue g hs hg
      simpa only [hgo, Host.Outcome.next.injEq, hfail, afterSearch_of_first hh] using opSearch_checks d hu hphase hs hg
    · rintro rfl h role st issue g hf hs hg
      have hclaim := opClaim_checks hu hs hg hf
      rw [afterClaim_of_request hw] at hclaim
      simp only [hgo, Host.Outcome.next.injEq]
      exact hclaim
    · rintro c h role reason rfl hclaims hf herr
      have hundo := undoAndFail_of_first ⟨hu, hwf⟩ hw hh reason
      rw [← entrants_of_single _ hclaims hf] at herr
      exact ⟨_, hgo.trans (congrArg _ (opAdmission_of_refused hu herr)), hundo⟩
  · obtain ⟨ha, hu, hseat, hw, hab, hphase⟩ := id hc
    have hfail : ∀ r t, t.pairs = s.pairs → failCheck d r t = contextReturned k c (deniedWith d r t) := fun r t ht =>
      failCheck_of_completing hw hh r (by rw [State.pair, ht, ← State.pair, hpair])
    have hctx := completingContext_of_completing hh hpair
    replace hgo := hgo.trans (exec_takeRequest_of_deciding hc)
    simp only [requestOp, hphase] at hgo
    refine ⟨?_, ?_, ?_, ?_, ?_, ?_, ?_, ?_, ?_, ?_, ?_, ?_, ?_, ?_, ?_, ?_, ?_, ?_, ?_, ?_⟩
    · rintro rfl
      simpa only [hgo, Host.Outcome.next.injEq, hfail] using opStation_checks d hu
    · rintro rfl
      simpa only [hgo, Host.Outcome.next.injEq, hfail] using opRoom_checks hw hu
    · rintro rfl
      obtain ⟨hlock, hfire, hnormal⟩ := opMode_checks (s := s) d
      refine ⟨?_, fun h => hgo.trans (congrArg _ (hnormal h))⟩
      rintro r (⟨hm, rfl⟩ | ⟨hm, rfl⟩)
      · rw [hgo, hlock hm, hfail _ s rfl]
      · rw [hgo, hfire hm, hfail _ s rfl]
    · rintro rfl
      simpa only [hgo, Host.Outcome.next.injEq, hfail] using opTamper_checks d hu
    · rintro rfl
      simpa only [hgo, Host.Outcome.next.injEq, hfail] using opClock_checks d hu
    · rintro rfl
      simpa only [hgo, Host.Outcome.next.injEq, hfail] using opBarState_checks d hu
    · rintro rfl hb
      simpa only [hgo, Host.Outcome.next.injEq, hfail] using opBarTest_checks d hu ha hw hb
    · rintro rfl
      simpa only [hgo, Host.Outcome.next.injEq, hfail] using opLocate_checks d hu
    · rintro rfl st issue g hs hg
      simpa only [hgo, Host.Outcome.next.injEq, hfail, afterSearch_of_completing hh] using
        opSearch_checks d hu hphase hs hg
    · rintro rfl hb
      simpa only [hgo, Host.Outcome.next.injEq] using opFirstBar_checks hh hpair hu hb
    · rintro rfl
      simpa only [hgo, Host.Outcome.next.injEq] using opFirstLocate_checks hh hpair hu
    · rintro rfl st issue g hs hg
      simpa only [hgo, Host.Outcome.next.injEq] using opFirstSearch_checks hh hpair hu hphase hs hg
    · rintro rfl closed b hview
      simpa only [hgo, Host.Outcome.next.injEq, hfail, recordsAsked_of_completing hh] using
        opCount_of_limit d hu (stepNineLimit_of_readable d hu hw hview)
    · rintro rfl hview
      rw [hgo, opCount_of_unreadable d hu hw hview, hfail _ s rfl]
    · rintro rfl
      obtain ⟨hfull, hroom⟩ := opPool_checks d hu
      rw [recordsAsked_of_completing hh, afterPool_of_completing hw hh] at hroom
      rw [recordsAsked_of_completing hh, hfail _ s rfl] at hfull
      exact ⟨fun h => hgo.trans (congrArg _ (hroom h)), fun h => hgo.trans (congrArg _ (hfull h))⟩
    · intro h role st issue g hs hg
      refine ⟨?_, ?_⟩
      · rintro rfl hf
        simpa only [hgo, Host.Outcome.next.injEq] using opClaimFirst_checks hu hs hg hctx hf
      · rintro rfl hf hrec
        obtain ⟨hgranted, hrefused⟩ := opClaimSecond_checks hu hs hg hf hrec
        refine ⟨fun husable hi hr => hgo.trans (congrArg _ (hgranted husable hi hr)), fun hno => ?_⟩
        exact ⟨_, hgo.trans (congrArg _ (hrefused hno)), rfl,
          givenBack_of_slots (t := { s with grants := (returnClaims d.claims s).grants })
            (returnClaims_slot d.claims hu hwf), rfl, rfl, rfl⟩
    · rintro c1 c2 h1 h2 role1 role2 ids t rfl hclaims hf1 hf2 hok
      rw [← entrants_of_pair c hclaims hf1 hf2] at hok
      rw [hgo, opAdmission_of_admitted (by rw [hctx]; exact hok), afterAdmission_of_completing hw hh]
    · rintro c1 c2 h1 h2 role1 role2 reason rfl hclaims hrec hf1 hf2 herr
      rw [← entrants_of_pair c hclaims hf1 hf2] at herr
      exact ⟨_, hgo.trans (congrArg _ ((opAdmission_of_refused hu (by rw [hctx]; exact herr)).trans
          (undoAndFail_of_completing hu hw hh hpair hrec reason))), rfl,
        givenBack_of_slots (t := { contextReturned k c (deniedWith d reason s) with
          grants := (returnClaims d.claims s).grants }) (returnClaims_slot d.claims hu hwf)⟩
    · rintro rfl hr
      rw [hgo, opPlacement_of_completed hh hpair hu hr]
    · rintro r rfl hr
      obtain ⟨hpairs, hseat, hverdicts, hanswer, hremoved, hgiven, -⟩ := opPlacement_of_denied hh hpair ⟨hu, hwf⟩ hr
      exact ⟨_, hgo, hseat, hpairs, hverdicts, hanswer, hremoved, hgiven⟩

end Sys2Proof.Machine

namespace Sys2Proof.Machine
open Sys2Proof

/-! ## The Referral Queue's entry of a reference (R113) -/

/-- An entry stands in the queue, alone with its reference, between those before it and those behind it. -/
structure StandsIn (l1 l2 : List ReferralEntry) (e : ReferralEntry) (s : State) : Prop where
  split : s.referrals = l1 ++ e :: l2
  alone : ∀ x ∈ l1 ++ l2, x.reference ≠ e.reference

section
variable {l1 l2 : List ReferralEntry} {e : ReferralEntry} {s : State} (h : StandsIn l1 l2 e s)
include h

theorem StandsIn.alone_before {x : ReferralEntry} (hx : x ∈ l1) : x.reference ≠ e.reference :=
  h.alone x (List.mem_append_left l2 hx)

theorem StandsIn.alone_behind {x : ReferralEntry} (hx : x ∈ l2) : x.reference ≠ e.reference :=
  h.alone x (List.mem_append_right l1 hx)

theorem StandsIn.congr {t : State} (ht : t.referrals = s.referrals) : StandsIn l1 l2 e t := ⟨ht.trans h.split, h.alone⟩

theorem StandsIn.referral : s.referral e.reference = some e := by
  have hbefore : l1.find? (fun x => decide (x.reference = e.reference)) = none :=
    List.find?_eq_none.mpr fun x hx => by simpa using h.alone_before hx
  simp only [State.referral, h.split, List.find?_append, hbefore, List.find?_cons, decide_true, Option.none_or]

theorem StandsIn.dropReferral : dropReferral e.reference s = { s with referrals := l1 ++ l2 } := by
  have hbefore : l1.filter (fun x => decide (x.reference ≠ e.reference)) = l1 :=
    List.filter_eq_self.mpr fun x hx => by simpa using h.alone_before hx
  have hbehind : l2.filter (fun x => decide (x.reference ≠ e.reference)) = l2 :=
    List.filter_eq_self.mpr fun x hx => by simpa using h.alone_behind hx
  simp only [Machine.dropReferral, h.split, List.filter_append, hbefore, List.filter_cons, hbehind, ne_eq, not_true,
    decide_false, Bool.false_eq_true, if_false]

theorem StandsIn.writeReferral {x : ReferralEntry} (hx : x.reference = e.reference) :
    writeReferral x s = { s with referrals := l1 ++ x :: l2 } := by
  have hkept : ∀ l : List ReferralEntry, (∀ y ∈ l, y.reference ≠ e.reference) →
      l.map (fun y => if y.reference = e.reference then x else y) = l := fun l hl =>
    (List.map_congr_left (g := id) fun y hy => if_neg (hl y hy)).trans (List.map_id l)
  simp only [Machine.writeReferral, h.split, hx, List.map_append, List.map_cons, if_true,
    hkept l1 fun _ => h.alone_before, hkept l2 fun _ => h.alone_behind]

end

/-! ## A reservation that closes (R85, R124) -/

theorem answerAfterClosures_same (s : State) (b : Block) (cause : ClosureCause) (k : Nat) (q : Sequence) :
    answerAfterClosures s b cause [(k, q)] k = match cause.reason with
      | none => freedAnswer (s.station k).answer
      | some r => if s.endedAt b k then freedAnswer (s.station k).answer
        else convertedAnswer q .deny (some r) (s.station k).answer := by
  cases hr : cause.reason <;>
    simp only [answerAfterClosures, decide_true, List.filter_cons, if_true, List.filter_nil, List.foldl_cons,
      List.foldl_nil, hr]

theorem answerAfterClosures_other (s : State) (b : Block) (cause : ClosureCause) {j k : Nat} (hj : j ≠ k) (q : Sequence) :
    answerAfterClosures s b cause [(k, q)] j = (s.station j).answer := by
  simp [answerAfterClosures, Ne.symm hj]

/-- A reservation that closes writes its DENY, if any, and the station's answer. -/
theorem closeReservation_written (b : Block) (k : Nat) (q : Sequence) (cause : ClosureCause) (s : State) :
    closeReservation b k q cause s = { s with
      verdicts := s.verdicts ++ closureEntries s b cause [(k, q)]
      stations := Table.set Station.cleared s.stations k
        { s.station k with answer := answerAfterClosures s b cause [(k, q)] k } } := by
  rw [closeReservation_eq, answerAfterClosures_same, closureEntries]
  cases cause.reason with
  | none => rw [List.append_nil]; rfl
  | some r =>
    by_cases he : s.endedAt b k = true
    · simp [deniedAt, he, freed]
    · simp [deniedAt, he, converted]

/-! ## A run of operations -/

theorem runDecision_succ {s : State} {d : Decision} (hs : s.seat = some d) (n : Nat) :
    runDecision (n + 1) s = runDecision n (decisionOp s) := by
  rw [runDecision, hs]
  exact if_pos rfl

theorem runDecision_idle {s : State} (hs : s.seat = none) (n : Nat) : runDecision n s = s := by
  cases n with
  | zero => rfl
  | succ n =>
    rw [runDecision, hs]
    exact if_neg Bool.false_ne_true

theorem decisionOp_of_request {s : State} {d : Decision} {side : Side} (hs : s.seat = some d) (hw : d.work = .request side)
    (hab : d.abandoned = false) : decisionOp s = requestOp d side s := by
  simp only [decisionOp, hs, hw, hab, Bool.false_eq_true, if_false]

/-- A request in hand, carried on to its end. -/
theorem exec_takeRequest_run {s : State} {d : Decision} {side : Side} {p : Phase} (h : s.deciding d side p) :
    exec (.takeRequest none) s = .next (runDecision decisionBound s) := by
  obtain ⟨ha, -, hs, hw, -⟩ := h
  have htake : takeHead s = s := by simp only [takeHead, hs]
  have hdec : s.decidesRequest = true := by simp only [State.decidesRequest, hs, hw]
  simp only [exec, execTakeRequest, ha, if_true, htake, hdec, runPaused]

/-! ## The opening of an approval, from its claim's release on (R118) -/

/-- The state once REFER WAIT is placed and reported open. -/
def referWaiting (d : Decision) (s : State) : State :=
  { s with
    verdicts := s.verdicts ++ [⟨d.station, d.sequence, .referWait, none, false, none⟩]
    stations := Table.set Station.cleared s.stations d.station
      { s.station d.station with answer := some ⟨d.sequence, .referWait, none, false, true⟩ } }

theorem opClaimRelease_eq {s : State} {d : Decision} (hu : s.undamaged = true) (hrec : d.records = []) :
    opClaimRelease d s = goesOn { d with claims := [], records := [], overstayed := [] } .interim
      (returnClaims d.claims s) := by
  simp only [opClaimRelease, undoHand, hrec, undoData_no_records hu, ← returnClaims_eq d.claims hu]
  rfl

theorem opInterim_of_approval {s : State} {d : Decision} {n : Nat} (hh : d.holding = .openingApproval n) :
    opInterim d s = goesOn { d with heldPlaces := d.heldPlaces - 1 } .settling (referWaiting d s) := by
  simp only [opInterim, hh]
  rfl

theorem opSettling_of_approval {s : State} {d : Decision} {n : Nat} (hh : d.holding = .openingApproval n) :
    opSettling d s = endDecision (settleApproval n s) := by
  simp only [opSettling, hh]

section
variable {s : State} {d : Decision} {side : Side} {n : Nat} (hseat : s.seat = some d) (hw : d.work = .request side)
  (hab : d.abandoned = false) (hh : d.holding = .openingApproval n)
include hseat hw hab hh

/-- REFER WAIT placed, the opening settles. -/
theorem run_from_interim (hphase : d.phase = .interim) (m : Nat) : runDecision (m + 2) s =
    endDecision (settleApproval n (goesOn { d with heldPlaces := d.heldPlaces - 1 } .settling (referWaiting d s))) := by
  have hop : decisionOp s = goesOn { d with heldPlaces := d.heldPlaces - 1 } .settling (referWaiting d s) := by
    rw [decisionOp_of_request hseat hw hab, requestOp, hphase]
    exact opInterim_of_approval hh
  rw [runDecision_succ hseat, hop, runDecision_succ (s := goesOn _ _ _) rfl,
    decisionOp_of_request (s := goesOn _ _ _) rfl (by exact hw) (by exact hab)]
  exact (congrArg _ (opSettling_of_approval (by exact hh))).trans (runDecision_idle rfl m)

/-- The claim released, the opening goes on. -/
theorem run_from_claimRelease (hphase : d.phase = .claimRelease) (hu : s.undamaged = true) (hrec : d.records = [])
    (m : Nat) : ∃ x : Decision, runDecision (m + 3) s = endDecision (settleApproval n
      (goesOn x .settling (referWaiting d (returnClaims d.claims s)))) := by
  have hop : decisionOp s = goesOn { d with claims := [], records := [], overstayed := [] } .interim
      (returnClaims d.claims s) := by
    rw [decisionOp_of_request hseat hw hab, requestOp, hphase]
    exact opClaimRelease_eq hu hrec
  rw [runDecision_succ hseat, hop, run_from_interim (s := goesOn _ _ _) rfl (by exact hw) (by exact hab) (by exact hh) rfl]
  exact ⟨_, rfl⟩

end

end Sys2Proof.Machine

namespace Sys2Proof.Machine
open Sys2Proof

/-! ## The settling of an approval's opening (R118) -/

section
variable {l1 l2 : List ReferralEntry} {e : ReferralEntry} {h : Handle} {n : Nat} {s : State}

theorem settleApproval_of_closure (hst : StandsIn l1 l2 e s) {cause : ClosureCause}
    (hk : e.kind = .approval h .opening n (some cause)) : settleApproval e.reference s =
      closeReservation .referralQueue e.station e.sequence cause { s with referrals := l1 ++ l2 } := by
  simp only [settleApproval, hst.referral, ReferralEntry.approval?, hk, hst.dropReferral]

theorem settleApproval_of_open (hst : StandsIn l1 l2 e s) (hu : s.undamaged = true) (ha : s.awake = true)
    (hk : e.kind = .approval h .opening n none) : settleApproval e.reference s = { s with
      referrals := l1 ++ { e with kind := .approval h .waiting s.referralTimeout.value none } :: l2
      attention := s.attention ||| Cause.referralWaiting.word } := by
  simp only [settleApproval, hst.referral, ReferralEntry.approval?, hk, readTimeoutSeconds_undamaged hu]
  rw [hst.writeReferral (by rfl), raise_of_awake (by exact ha)]
  rfl

/-- What an opening whose approval has a pending closure leaves. -/
structure OpeningClosed (d : Decision) (l : List ReferralEntry) (cause : ClosureCause) (s t : State) : Prop where
  seat : t.seat = none
  referrals : t.referrals = l
  verdicts : t.verdicts = s.verdicts ++ ⟨d.station, d.sequence, .referWait, none, false, none⟩ ::
    closureEntries s .referralQueue cause [(d.station, d.sequence)]
  answer : (t.station d.station).answer = (if s.endedAt .referralQueue d.station then none
    else cause.reason.map (fun r => ⟨d.sequence, .deny, some r, false, false⟩))
  presence : t.presence = s.presence
  grants : t.grants = s.grants
  pairs : t.pairs = s.pairs
  attention : t.attention = s.attention

/-- The answer for REFER WAIT, once its reservation has closed. -/
theorem answerAfterClosures_of_waiting {s : State} {k : Nat} {q : Sequence} (b : Block) (cause : ClosureCause)
    (hopen : (s.station k).answer = some ⟨q, .referWait, none, false, true⟩) :
    answerAfterClosures s b cause [(k, q)] k = if s.endedAt b k then none
      else cause.reason.map (fun r => ⟨q, .deny, some r, false, false⟩) := by
  rw [answerAfterClosures_same, hopen]
  cases cause.reason with
  | none => simp [freedAnswer]
  | some r => by_cases he : s.endedAt b k = true <;> simp [he, freedAnswer, convertedAnswer]

theorem referWaiting_answer {s : State} (hw : s.tablesWf = true) (d : Decision) :
    ((referWaiting d s).station d.station).answer = some ⟨d.sequence, .referWait, none, false, true⟩ :=
  (congrArg Station.answer (station_setStation ((tablesWf_iff s).mp hw).2.2.2.1 d.station d.station _)).trans
    (congrArg Station.answer (if_pos rfl))

theorem referWaiting_whole {s : State} (h : Whole s) (d : Decision) : Whole (referWaiting d s) := by
  have hset := h.setStation d.station (v := { s.station d.station with
    answer := some ⟨d.sequence, .referWait, none, false, true⟩ }) (station_undamaged h.clean d.station)
  exact ⟨hset.clean, hset.wf⟩

theorem station_set_wf {s : State} (hw : Table.wf Station.cleared s.stations = true) (k j : Nat) (v : Station) :
    Table.get Station.cleared (Table.set Station.cleared s.stations k v) j = if j = k then v else s.station j :=
  station_setStation hw k j v

theorem settling_of_closure {d : Decision} (hst : StandsIn l1 l2 e s) (hs : Whole s) {cause : ClosureCause}
    (hk : e.kind = .approval h .opening n (some cause)) (hstation : e.station = d.station)
    (hsequence : e.sequence = d.sequence) (x : Decision) :
    OpeningClosed d (l1 ++ l2) cause s
      (endDecision (settleApproval e.reference (goesOn x .settling (referWaiting d s)))) := by
  have hwf := (referWaiting_whole hs d).wf
  have hanswer := answerAfterClosures_of_waiting .referralQueue cause (referWaiting_answer hs.wf d)
  have hset := fun v => station_set_wf ((tablesWf_iff _).mp hwf).2.2.2.1 d.station d.station v
  rw [settleApproval_of_closure (s := goesOn x .settling (referWaiting d s)) (hst.congr rfl) hk,
    closeReservation_written, hstation, hsequence]
  refine ⟨rfl, rfl, ?_, ?_, rfl, rfl, rfl, rfl⟩
  · exact List.append_assoc s.verdicts _ _
  · exact (congrArg Station.answer (hset _)).trans ((congrArg Station.answer (if_pos rfl)).trans hanswer)

/-- The settling on its own. -/
theorem settling_closed {d : Decision} (hst : StandsIn l1 l2 e s) (hw : s.tablesWf = true) {cause : ClosureCause}
    (hk : e.kind = .approval h .opening n (some cause)) (hstation : e.station = d.station)
    (hsequence : e.sequence = d.sequence) :
    ∃ t, endDecision (settleApproval e.reference s) = t ∧
      t = { s with seat := none, referrals := l1 ++ l2, verdicts := t.verdicts, stations := t.stations } ∧
      t.verdicts = s.verdicts ++ closureEntries s .referralQueue cause [(d.station, d.sequence)] ∧
      ∀ j, t.station j = { s.station j with
        answer := answerAfterClosures s .referralQueue cause [(d.station, d.sequence)] j } := by
  refine ⟨_, rfl, ?_⟩
  rw [settleApproval_of_closure hst hk, closeReservation_written, hstation, hsequence]
  refine ⟨rfl, rfl, fun j => ?_⟩
  refine (station_set_wf ((tablesWf_iff s).mp hw).2.2.2.1 d.station j _).trans ?_
  by_cases hj : j = d.station
  · rw [if_pos hj, hj]
    rfl
  · rw [if_neg hj, answerAfterClosures_other _ _ _ hj]

end

/-! ## The opening of an approval (R118) -/

/-- The state with a new approval, OPENING, at the tail of the queue. -/
def State.opening (s : State) (d : Decision) (n : Nat) : State :=
  { s with
    referrals := s.referrals ++ [⟨n, d.station, d.credential, d.room, d.sequence, s.clock.value.calendar.minute,
      .approval d.claimHandle .opening 0 none⟩]
    referenceCounter := numberAfter 1 n }

/-- The decision whose approval is OPENING: a held place has gone to the entry. -/
def Decision.opens (d : Decision) (n : Nat) : Decision :=
  { d with heldPlaces := d.heldPlaces - 1, holding := .openingApproval n }

section
variable {s : State} {d : Decision}

theorem opApprovalOpening_of_denied (hu : s.undamaged = true) {r : DenyReason}
    (hr : s.placementReason d = some r ∨ (s.placementReason d = none ∧ r = .referralBusy ∧ 12 ≤ s.approvals)) :
    opApprovalOpening d s = undoAndFail d r s := by
  simp only [opApprovalOpening, placementCondition_undamaged hu]
  rcases hr with hr | ⟨hr, rfl, hfull⟩
  · simp only [hr]
  · simp only [hr]
    exact if_pos hfull

theorem opApprovalOpening_of_closed (hu : s.undamaged = true) (hclosed : s.closedAt .referralQueue d.station = true)
    (hr : s.placementReason d = none) (hroom : s.approvals < 12) : opApprovalOpening d s = endAbandoned d s := by
  simp only [opApprovalOpening, placementCondition_undamaged hu, hr]
  exact (if_neg (Nat.not_le.mpr hroom)).trans (if_pos hclosed)

theorem opApprovalOpening_of_opened (hu : s.undamaged = true) (hclosed : s.closedAt .referralQueue d.station = false)
    (hr : s.placementReason d = none) (hroom : s.approvals < 12) {n : Nat} (hn : s.draws n) :
    opApprovalOpening d s = goesOn (d.opens n) .claimRelease (s.opening d n) := by
  simp only [opApprovalOpening, placementCondition_undamaged hu, hr, createEntry_drawn hu hn]
  refine (if_neg (Nat.not_le.mpr hroom)).trans ((if_neg (by rw [hclosed]; exact Bool.false_ne_true)).trans rfl)

theorem undoAndFail_referrals (hs : Whole s) {side : Side} (hw : d.work = .request side) (hh : d.holding = .none)
    (r : DenyReason) : (undoAndFail d r s).referrals = s.referrals := by
  have h := (undoData_undone hs d.claims d.records).frame
  unfold undoAndFail undoHand
  dsimp only
  rw [failCheck_of_first (by exact hw) (by exact hh)]
  exact (congrArg State.referrals h :)

theorem forgetRequest_kept (k : Nat) (q : Sequence) (s : State) :
    forgetRequest k q s = { s with stations := (forgetRequest k q s).stations } := by
  unfold forgetRequest
  split <;> rfl

theorem forgetRequest_answer {s : State} (hw : s.tablesWf = true) (k : Nat) (q : Sequence) (j : Nat) :
    ((forgetRequest k q s).station j).answer = (s.station j).answer := by
  unfold forgetRequest
  split
  · rfl
  · rw [updateStation, station_setStation ((tablesWf_iff s).mp hw).2.2.2.1]
    split
    · next hj => rw [hj]
    · rfl

end

end Sys2Proof.Machine

namespace Sys2Proof.Machine
open Sys2Proof

theorem undoData_stations {s : State} (h : Whole s) (claims : List Claim) (ids : List Nat) :
    (undoData claims ids s).stations = s.stations := by
  obtain ⟨gone, hr, -, -⟩ := removeUnsent_removed h ids
  obtain ⟨a, ha⟩ := hr.change
  have hremoved := congrArg State.stations (ha.rest h)
  have hreturned := congrArg State.stations (returnClaims_eq claims ha.whole.clean)
  exact hreturned.trans hremoved

/-- A first request that is abandoned leaves nothing open, and no verdict. -/
theorem endAbandoned_of_first {s : State} (hs : Whole s) {d : Decision} (hh : d.holding = .none) :
    nothingOpened d s (endAbandoned d s) := by
  have hundone := undoData_undone hs d.claims d.records
  have hframe := hundone.frame
  have hstations := undoData_stations hs d.claims d.records
  have hend : endAbandoned d s =
      forgetRequest d.station d.sequence (endDecision (undoData d.claims d.records s)) := by
    simp only [endAbandoned, undoHand, hh]
  rw [hend, forgetRequest_kept]
  generalize undoData d.claims d.records s = u at hundone hframe hstations
  refine ⟨rfl, (congrArg State.verdicts hframe :), fun k => ?_, (congrArg State.pairs hframe :),
    (congrArg State.referrals hframe :), (congrArg State.requests hframe :), hundone.removed,
    (givenBack_of_slots hundone.slots : givenBack d.claims s u)⟩
  refine (forgetRequest_answer (s := endDecision u) hundone.whole.wf d.station d.sequence k).trans ?_
  exact congrArg (fun x => (Table.get Station.cleared x k).answer) hstations

section
variable {s : State} {d : Decision}

/-- The number drawn is alone in the queue. -/
theorem opening_standsIn {n : Nat} (hn : s.draws n) : StandsIn s.referrals []
    ⟨n, d.station, d.credential, d.room, d.sequence, s.clock.value.calendar.minute,
      .approval d.claimHandle .opening 0 none⟩ (s.opening d n) := by
  obtain ⟨_, _, _, hfree, _⟩ := hn
  exact ⟨rfl, fun x hx => hfree x (by simpa using hx)⟩

theorem claimHandle_eq (d : Decision) : d.claimHandle = (d.claims.map (·.handle)).headD ⟨0, 0⟩ := by
  unfold Decision.claimHandle
  cases d.claims <;> rfl

/-- What a completed opening of an approval leaves. -/
structure ApprovalOpened (d : Decision) (n : Nat) (s t : State) : Prop where
  seat : t.seat = none
  referrals : t.referrals = s.referrals ++ [⟨n, d.station, d.credential, d.room, d.sequence,
    s.clock.value.calendar.minute, .approval d.claimHandle .waiting s.referralTimeout.value none⟩]
  counter : t.referenceCounter = numberAfter 1 n
  verdicts : t.verdicts = s.verdicts ++ [⟨d.station, d.sequence, .referWait, none, false, none⟩]
  answer : (t.station d.station).answer = some ⟨d.sequence, .referWait, none, false, true⟩
  slots : ∀ j, t.slot j = s.slotAfterReturns d.claims j
  presence : t.presence = s.presence
  pairs : t.pairs = s.pairs
  refer : t.refer = true
  attention : t.attention = s.attention ||| Cause.referralWaiting.word

theorem decisionBound_split (m : Nat) (h : m ≤ 64) : ∃ k, decisionBound = k + m :=
  ⟨decisionBound - m, by
    rw [Nat.sub_add_cancel]
    exact h.trans (Nat.le_add_right 64 _)⟩

/-- The opening's last steps: REFER WAIT, and the approval WAITING. -/
theorem settling_of_opened {n : Nat} (hn : s.draws n) (ha : s.awake = true) {u : State} (hu : Whole u)
    {w : Decision}
    (hframe : u = { goesOn w .claimRelease (s.opening d n) with grants := u.grants }) (hslots : ∀ j, u.slot j = s.slotAfterReturns d.claims j)
    (x : Decision) :
    ApprovalOpened d n s (endDecision (settleApproval n (goesOn x .settling (referWaiting d u)))) := by
  have hstands := (opening_standsIn (d := d) hn).congr (congrArg State.referrals hframe :)
  have hwait := referWaiting_whole hu d
  have hanswer := referWaiting_answer hu.wf d
  have hawake : u.awake = true := (congrArg State.awake hframe).trans (by exact ha)
  have hport := ((awake_iff u).mp hawake).1
  rw [settleApproval_of_open (s := goesOn x .settling (referWaiting d u)) (hstands.congr rfl) hwait.clean
    (by exact hawake) rfl]
  have hcounter := congrArg State.referenceCounter hframe
  have hverdicts := congrArg State.verdicts hframe
  have hpresence := congrArg State.presence hframe
  have hpairs := congrArg State.pairs hframe
  have hattention := congrArg State.attention hframe
  have htimeout := congrArg State.referralTimeout hframe
  refine ⟨rfl, ?_, hcounter, congrArg (· ++ _) hverdicts, hanswer, hslots, hpresence, hpairs, ?_,
    congrArg (· ||| _) hattention⟩
  · exact congrArg (fun v : Voted Nat => s.referrals ++ [⟨n, d.station, d.credential, d.room, d.sequence,
      s.clock.value.calendar.minute, .approval d.claimHandle .waiting v.value none⟩]) htimeout
  refine (Bool.and_eq_true _ _).mpr ⟨hport, ?_⟩
  exact List.any_eq_true.mpr ⟨_, List.mem_append_right _ (List.mem_singleton_self _), rfl⟩

/-- An approval opens in one run of operations: the entry, the claim's release, REFER WAIT, the settling. -/
theorem run_approvalOpening (hc : s.checking d .approvalOpening) (hwf : s.tablesWf = true)
    (hclosed : s.closedAt .referralQueue d.station = false) (hr : s.placementReason d = none) (hroom : s.approvals < 12)
    {n : Nat} (hn : s.draws n) (hrec : d.records = []) :
    ∃ t, exec (.takeRequest none) s = .next t ∧ ApprovalOpened d n s t := by
  obtain ⟨ha, hu, hseat, hw, hab, hh, hphase⟩ := id hc
  obtain ⟨k, hk⟩ := decisionBound_split 4 (by decide)
  have hop := opApprovalOpening_of_opened hu hclosed hr hroom hn
  generalize hafter : goesOn (d.opens n) .claimRelease (s.opening d n) = y at hop
  have hy : Whole y := by
    subst hafter
    exact ⟨hu, hwf⟩
  obtain ⟨x, hrun⟩ := run_from_claimRelease (s := y) (d := { d.opens n with phase := .claimRelease })
    (side := .outside) (n := n) (by rw [← hafter]; rfl) hw hab rfl rfl hy.clean hrec k
  have hframe := returnClaims_eq d.claims hy.clean
  have hslots := returnClaims_slot d.claims hy.clean hy.wf
  have hsettled := settling_of_opened (s := s) (d := d) hn ha (hy.returnClaims d.claims) (w := d.opens n)
    (by subst hafter; exact hframe) (by subst hafter; exact hslots) x
  refine ⟨_, (exec_takeRequest_run (deciding_of_checking hc)).trans (congrArg _ ?_), hsettled⟩
  rw [hk, runDecision_succ hseat, decisionOp_of_request hseat hw hab, requestOp, hphase]
  exact (congrArg (runDecision (k + 3)) hop).trans hrun

end

end Sys2Proof.Machine

namespace Sys2Proof.Machine
open Sys2Proof

/-! ## An OPENING approval with a pending closure (R118, R124) -/

section
variable {s : State} {d : Decision} {l1 l2 : List ReferralEntry} {e : ReferralEntry} {h : Handle} {n : Nat}
  {cause : ClosureCause} (hst : StandsIn l1 l2 e s) (hk : e.kind = .approval h .opening n (some cause))
  (hstation : e.station = d.station) (hsequence : e.sequence = d.sequence) (hh : d.holding = .openingApproval e.reference)
include hst hk hstation hsequence hh

/-- REFER WAIT, and then the closure. -/
theorem run_interim_closed (hs : Whole s) (hd : s.deciding d .outside .interim) :
    ∃ t, exec (.takeRequest none) s = .next t ∧ OpeningClosed d (l1 ++ l2) cause s t := by
  obtain ⟨-, -, hseat, hw, hab, hphase⟩ := id hd
  obtain ⟨k, hbound⟩ := decisionBound_split 2 (by decide)
  refine ⟨_, (exec_takeRequest_run hd).trans (congrArg _ ?_), settling_of_closure hst hs hk hstation hsequence
    { d with heldPlaces := d.heldPlaces - 1 }⟩
  rw [hbound]
  exact run_from_interim hseat hw hab hh hphase k

/-- The claim is released first. -/
theorem run_claimRelease_closed (hs : Whole s) (hd : s.deciding d .outside .claimRelease) (hrec : d.records = []) :
    ∃ t, exec (.takeRequest none) s = .next t ∧ OpeningClosed d (l1 ++ l2) cause (returnClaims d.claims s) t := by
  obtain ⟨-, -, hseat, hw, hab, hphase⟩ := id hd
  obtain ⟨k, hbound⟩ := decisionBound_split 3 (by decide)
  obtain ⟨x, hrun⟩ := run_from_claimRelease hseat hw hab hh hphase hs.clean hrec k
  have hreferrals := congrArg State.referrals (returnClaims_eq d.claims hs.clean)
  refine ⟨_, (exec_takeRequest_run hd).trans (congrArg _ ?_),
    settling_of_closure (hst.congr hreferrals) (hs.returnClaims d.claims) hk hstation hsequence x⟩
  rw [hbound]
  exact hrun

/-- The closure alone. -/
theorem step_settling_closed (hs : Whole s) (hd : s.deciding d .outside .settling) :
    ∃ t, exec (.takeRequest (some 1)) s = .next t ∧
      t = { s with seat := none, referrals := l1 ++ l2, verdicts := t.verdicts, stations := t.stations } ∧
      t.verdicts = s.verdicts ++ closureEntries s .referralQueue cause [(d.station, d.sequence)] ∧
      ∀ j, t.station j = { s.station j with
        answer := answerAfterClosures s .referralQueue cause [(d.station, d.sequence)] j } := by
  obtain ⟨-, -, -, -, -, hphase⟩ := id hd
  obtain ⟨t, ht, hfacts⟩ := settling_closed hst hs.wf hk hstation hsequence
  refine ⟨t, (exec_takeRequest_of_deciding hd).trans (congrArg _ ?_), hfacts⟩
  rw [requestOp, hphase]
  exact (opSettling_of_approval hh).trans ht

end

/-- What the returned claims leave of the closure. -/
theorem OpeningClosed.of_returned {s t : State} {d : Decision} {l : List ReferralEntry} {cause : ClosureCause}
    (hs : Whole s) (h : OpeningClosed d l cause (returnClaims d.claims s) t) :
    t.seat = none ∧ t.referrals = l ∧
      t.verdicts = s.verdicts ++ ⟨d.station, d.sequence, .referWait, none, false, none⟩ ::
        closureEntries s .referralQueue cause [(d.station, d.sequence)] ∧
      (t.station d.station).answer = (if s.endedAt .referralQueue d.station then none
        else cause.reason.map (fun r => ⟨d.sequence, .deny, some r, false, false⟩)) ∧
      givenBack d.claims s t ∧ t.presence = s.presence ∧ t.pairs = s.pairs ∧ t.attention = s.attention := by
  have hframe := returnClaims_eq d.claims hs.clean
  have hslots := returnClaims_slot d.claims hs.clean hs.wf
  obtain ⟨hseat, hreferrals, hverdicts, hanswer, hpresence, hgrants, hpairs, hattention⟩ := h
  have hslot : ∀ j, t.slot j = s.slotAfterReturns d.claims j := fun j => by
    rw [State.slot, hgrants]
    exact hslots j
  generalize returnClaims d.claims s = u at *
  generalize u.grants = grants at hframe
  subst hframe
  exact ⟨hseat, hreferrals, hverdicts, hanswer, givenBack_of_slots hslot, hpresence, hpairs, hattention⟩

end Sys2Proof.Machine

namespace Sys2Proof.Machine
open Sys2Proof

/-! ## One operation of an answer check (R122) -/

theorem decisionOp_of_answer {s : State} {d : Decision} {n : Nat} (hs : s.seat = some d) (hw : d.work = .answer n)
    (hab : d.abandoned = false) : decisionOp s = answerOp d n s := by
  simp only [decisionOp, hs, hw, hab, Bool.false_eq_true, if_false]

theorem decisionOp_of_abandoned {s : State} {d : Decision} {n : Nat} (hs : s.seat = some d) (hw : d.work = .answer n)
    (hab : d.abandoned = true) : decisionOp s = answerFreed d n s := by
  simp only [decisionOp, hs, hw, hab, if_true]

/-- One more operation of an answer check in hand (log 4). -/
theorem exec_answerCheck_step {s : State} {d : Decision} {n : Nat} (ha : s.awake = true) (hs : s.seat = some d)
    (hw : d.work = .answer n) : exec (.answerCheck (some 1)) s = .next (decisionOp s) := by
  have htake : takeAnswer s = s := by simp only [takeAnswer, hs]
  have hdec : s.decidesAnswer = true := by simp only [State.decidesAnswer, hs, hw]
  simp only [exec, execAnswerCheck, ha, if_true, htake, hdec, runPaused, runDecision, hs, Option.isSome_some]

theorem exec_answerCheck_of_answering {s : State} {d : Decision} {n : Nat} {p : Phase} (h : s.answeringAt d n p)
    (hab : d.abandoned = false) : exec (.answerCheck (some 1)) s = .next (answerOp d n s) := by
  obtain ⟨ha, -, hs, hw, -⟩ := h
  rw [exec_answerCheck_step ha hs hw, decisionOp_of_answer hs hw hab]

section
variable {d : Decision} {n : Nat} (hw : d.work = .answer n)
include hw

/-- A check of an answer check fails: its end follows. -/
theorem failCheck_of_answer (r : DenyReason) (s : State) : failCheck d r s = goesOn d (.answerEnd (some r)) s := by
  rw [failCheck, hw]
  rfl

theorem afterPool_of_answer : d.afterPool = .claim := by rw [Decision.afterPool, hw]

theorem afterClaim_of_answer : d.afterClaim = .admission := by rw [Decision.afterClaim, hw]

theorem afterAdmission_of_answer : d.afterAdmission = .answerEnd none := by rw [Decision.afterAdmission, hw]

/-- A refused admission of an answer check: the permit is undone, and the end follows. -/
theorem undoAndFail_of_answer (r : DenyReason) (s : State) : undoAndFail d r s =
    goesOn { d with claims := [], records := [], overstayed := [] } (.answerEnd (some r))
      (undoData d.claims d.records s) := by
  unfold undoAndFail undoHand
  exact failCheck_of_answer (by exact hw) r _

end

/-! ## The end of an answer check (R123) -/

/-- The three ways of an answer check to end with a DENY. -/
def deniedBy (s : State) (d : Decision) (cl : Option ClosureCause) (failed : Option DenyReason) (r : DenyReason) : Prop :=
  (∃ c, cl = some c ∧ c.reason = some r) ∨ (cl = none ∧ failed = some r) ∨
    (cl = none ∧ failed = none ∧ s.placementReason d = some r)

/-- The state with ANSWER REFERRAL's result, the seat IDLE and the approval gone. -/
def State.answered (s : State) (l : List ReferralEntry) (r : CommandResult) : State :=
  { s with seat := none, referrals := l, work := some (.ready r) }

section
variable {s : State} {d : Decision} {l1 l2 : List ReferralEntry} {e : ReferralEntry}
  (hst : StandsIn l1 l2 e s) (hwork : s.work = some (.answer e.reference))

theorem finishAnswer_eq {n : Nat} (hwork : s.work = some (.answer n)) (r : CommandResult) :
    finishAnswer r s = { s with work := some (.ready r) } := by
  simp only [finishAnswer, hwork, finish]

include hst hwork

/-- What a permit undone leaves of the queue and the command. -/
theorem undoData_standsIn (hs : Whole s) (claims : List Claim) (ids : List Nat) :
    StandsIn l1 l2 e (undoData claims ids s) ∧ (undoData claims ids s).work = some (.answer e.reference) := by
  have hframe := (undoData_undone hs claims ids).frame
  have hreferrals := congrArg State.referrals hframe
  have hcommand := congrArg State.work hframe
  exact ⟨hst.congr hreferrals, hcommand.trans hwork⟩

theorem answerFreed_eq (hs : Whole s) : answerFreed d e.reference s =
    freed d.station ((undoData d.claims d.records s).answered (l1 ++ l2) (.bare .tooLate)) := by
  obtain ⟨hstands, hcommand⟩ := undoData_standsIn hst hwork hs d.claims d.records
  simp only [answerFreed, undoHand, hstands.dropReferral, reportFreed_eq_freed]
  rw [finishAnswer_eq (by exact hcommand)]
  rfl

theorem answerDenied_eq (hs : Whole s) (r : DenyReason) : answerDenied d e.reference r s =
    converted d.station d.sequence r
      ((undoData d.claims d.records s).answered (l1 ++ l2) (.overtakenWith r)) := by
  obtain ⟨hstands, hcommand⟩ := undoData_standsIn hst hwork hs d.claims d.records
  simp only [answerDenied, undoHand, hstands.dropReferral, convertDeny_eq_converted]
  rw [finishAnswer_eq (by exact hcommand)]
  rfl

omit hwork in
theorem pendingClosure_eq {h : Handle} {st : ApprovalState} {n : Nat} {cl : Option ClosureCause}
    (hk : e.kind = .approval h st n cl) : pendingClosure e.reference s = cl := by
  simp only [pendingClosure, hst.referral, ReferralEntry.approval?, hk]

omit hwork in
theorem opAnswerEnd_of_closed {h : Handle} {st : ApprovalState} {n : Nat} {c : ClosureCause}
    (hk : e.kind = .approval h st n (some c)) (hab : d.abandoned = false) (hc : c.reason = none)
    (failed : Option DenyReason) : opAnswerEnd d e.reference failed s = answerFreed d e.reference s := by
  simp only [opAnswerEnd, hab, Bool.false_eq_true, if_false, pendingClosure_eq hst hk, hc]

omit hwork in
theorem opAnswerEnd_of_denied {h : Handle} {st : ApprovalState} {n : Nat} {cl : Option ClosureCause}
    (hk : e.kind = .approval h st n cl) (hu : s.undamaged = true) (hab : d.abandoned = false)
    {failed : Option DenyReason} {r : DenyReason} (hr : deniedBy s d cl failed r) :
    opAnswerEnd d e.reference failed s = answerDenied d e.reference r s := by
  simp only [opAnswerEnd, hab, Bool.false_eq_true, if_false, pendingClosure_eq hst hk]
  rcases hr with ⟨c, rfl, hc⟩ | ⟨rfl, rfl⟩ | ⟨rfl, rfl, hr⟩
  · simp only [hc]
  · rfl
  · simp only [placementCondition_undamaged hu, hr]

/-- A check that has passed places its PERMIT. -/
theorem opAnswerEnd_of_passed {h : Handle} {st : ApprovalState} {n : Nat} (hk : e.kind = .approval h st n none)
    (hu : s.undamaged = true) (hab : d.abandoned = false) (hr : s.placementReason d = none) :
    opAnswerEnd d e.reference none s = reportConverted d.station d.sequence .permit none
      (appendEntry (permitEntry d none .permit) (s.answered (l1 ++ l2) (.bare .ok))) := by
  simp only [opAnswerEnd, hab, Bool.false_eq_true, if_false, pendingClosure_eq hst hk, placementCondition_undamaged hu, hr,
    answerPermitted, hst.dropReferral]
  rw [finishAnswer_eq (by exact hwork)]
  rfl

end

end Sys2Proof.Machine

namespace Sys2Proof.Machine
open Sys2Proof

section
variable {s : State} {d : Decision} {l1 l2 : List ReferralEntry} {e : ReferralEntry} (hs : Whole s)
  (hst : StandsIn l1 l2 e s) (hwork : s.work = some (.answer e.reference)) (hstation : d.station = e.station)
  (hsequence : d.sequence = e.sequence)

/-- A station's answer, written. -/
theorem answer_set {x : State} (hx : x.tablesWf = true) (k : Nat) (a : Option AnswerRecord) :
    ((x.setStation k { x.station k with answer := a }).station k).answer = a := by
  rw [station_setStation ((tablesWf_iff x).mp hx).2.2.2.1, if_pos rfl]

theorem undoData_station (h : Whole s) (claims : List Claim) (ids : List Nat) (k : Nat) :
    (undoData claims ids s).station k = s.station k := by
  rw [State.station, undoData_stations h]
  rfl

include hs hst hwork hstation

/-- What an answer check that ends without a verdict leaves. -/
theorem answerFreed_facts :
    (answerFreed d e.reference s).seat = none ∧ (answerFreed d e.reference s).referrals = l1 ++ l2 ∧
    (answerFreed d e.reference s).work = some (.ready { code := .tooLate }) ∧
    (answerFreed d e.reference s).verdicts = s.verdicts ∧
    ((answerFreed d e.reference s).station e.station).answer = freedAnswer (s.station e.station).answer ∧
    removedUnsent d.records s (answerFreed d e.reference s) ∧ givenBack d.claims s (answerFreed d e.reference s) := by
  have hundone := undoData_undone hs d.claims d.records
  have hverdicts := congrArg State.verdicts hundone.frame
  have hanswer := answer_set hundone.whole.wf e.station
    (freedAnswer ((undoData d.claims d.records s).station e.station).answer)
  rw [answerFreed_eq hst hwork hs, hstation]
  refine ⟨rfl, rfl, rfl, hverdicts, ?_, hundone.removed, (givenBack_of_slots hundone.slots :
    givenBack d.claims s (undoData d.claims d.records s))⟩
  rw [← undoData_station hs d.claims d.records]
  exact hanswer

include hsequence

/-- What an answer check that ends with a DENY leaves. -/
theorem answerDenied_facts (r : DenyReason) :
    (answerDenied d e.reference r s).seat = none ∧ (answerDenied d e.reference r s).referrals = l1 ++ l2 ∧
    (answerDenied d e.reference r s).work =
      some (.ready { code := .overtaken, words := { arg0 := put 0 5 r.code } }) ∧
    (answerDenied d e.reference r s).verdicts =
      s.verdicts ++ [⟨e.station, e.sequence, .deny, some r, false, none⟩] ∧
    ((answerDenied d e.reference r s).station e.station).answer =
      convertedAnswer e.sequence .deny (some r) (s.station e.station).answer ∧
    removedUnsent d.records s (answerDenied d e.reference r s) ∧
    givenBack d.claims s (answerDenied d e.reference r s) := by
  have hundone := undoData_undone hs d.claims d.records
  have hverdicts := congrArg State.verdicts hundone.frame
  have hanswer := answer_set hundone.whole.wf e.station
    (convertedAnswer e.sequence .deny (some r) ((undoData d.claims d.records s).station e.station).answer)
  rw [answerDenied_eq hst hwork hs, hstation, hsequence]
  refine ⟨rfl, rfl, rfl, congrArg (· ++ _) hverdicts, ?_, hundone.removed, (givenBack_of_slots hundone.slots :
    givenBack d.claims s (undoData d.claims d.records s))⟩
  rw [← undoData_station hs d.claims d.records]
  exact hanswer

end

/-- A conversion into a verdict that is not interim, as the statements write it. -/
theorem reportConverted_eq (k : Nat) (q : Sequence) {v : Verdict} (hv : v.isInterim = false) (r : Option DenyReason)
    (s : State) : reportConverted k q v r s =
      s.setStation k { s.station k with answer := convertedAnswer q v r (s.station k).answer } := by
  simp only [reportConverted, updateStation, answerOf, hv]
  refine congrArg (s.setStation k) ?_
  cases h : (s.station k).answer with
  | none => rfl
  | some a =>
    simp only [convertedAnswer, AnswerRecord.keptAgainst, Bool.and_eq_true, Bool.not_eq_true', decide_eq_true_eq]
    split
    · rw [← h]
    · rfl

/-! ## An answer check taken by an IDLE seat (R69, R122) -/

/-- The approval that alone is ANSWERING. -/
theorem answering_eq {s : State} {l1 l2 : List ReferralEntry} {e : ReferralEntry} {h : Handle} {n : Nat}
    {cl : Option ClosureCause} (hsplit : s.referrals = l1 ++ e :: l2)
    (hother : ∀ x ∈ l1 ++ l2, ∀ g m c, x.kind ≠ .approval g .answering m c)
    (hk : e.kind = .approval h .answering n cl) : s.answering = some e := by
  have hbefore : l1.find? (fun x => match x.approval? with
      | none => false
      | some a => decide (a.state = .answering)) = none := by
    refine List.find?_eq_none.mpr fun x hx => ?_
    have hx := hother x (List.mem_append_left l2 hx)
    cases hkind : x.kind with
    | hotCard b => simp [ReferralEntry.approval?, hkind]
    | approval g st m c =>
      have hne : st ≠ .answering := by
        rintro rfl
        exact hx g m c hkind
      simp [ReferralEntry.approval?, hkind, hne]
  simp only [State.answering, hsplit, List.find?_append]
  refine (congrArg (Option.or · _) hbefore).trans ?_
  simp [ReferralEntry.approval?, hk]

/-- The decision of an answer check that the seat takes. -/
def State.answerTaken (s : State) (e : ReferralEntry) (cl : Option ClosureCause) : Decision :=
  { Decision.ofAnswer e cl.isSome s.clock.value.calendar.minute with abandoned := s.endedAt .referralQueue e.station }

/-- The check is taken, and carried on to its end. -/
theorem exec_answerCheck_taken {s : State} {l1 l2 : List ReferralEntry} {e : ReferralEntry} {h : Handle} {n : Nat}
    {cl : Option ClosureCause} (ha : s.awake = true) (hu : s.undamaged = true) (hseat : s.seat = none)
    (hst : StandsIn l1 l2 e s) (hother : ∀ x ∈ l1 ++ l2, ∀ g m c, x.kind ≠ .approval g .answering m c)
    (hk : e.kind = .approval h .answering n cl) :
    exec (.answerCheck none) s = .next (runDecision decisionBound { s with seat := some (s.answerTaken e cl) }) := by
  have htake : takeAnswer s = { s with seat := some (s.answerTaken e cl) } := by
    simp only [takeAnswer, hseat, answering_eq hst.split hother hk, presentMinute_undamaged hu, pendingClosure_eq hst hk]
    rfl
  have hdec : State.decidesAnswer { s with seat := some (s.answerTaken e cl) } = true := rfl
  simp only [exec, execAnswerCheck, ha, if_true, htake, hdec, runPaused]

theorem undoData_nothing {s : State} (hu : s.undamaged = true) : undoData [] [] s = s := by
  rw [undoData_no_records hu]
  rfl

theorem runDecision_answer {s t : State} {d : Decision} {n : Nat} (hseat : s.seat = some d) (hw : d.work = .answer n)
    (hab : d.abandoned = false) (hop : answerOp d n s = t) (k : Nat) : runDecision (k + 1) s = runDecision k t := by
  rw [runDecision_succ hseat, decisionOp_of_answer hseat hw hab, hop]

/-- A building mode that denies the check of an approval, and its end. -/
theorem run_from_mode {s : State} {d : Decision} {l1 l2 : List ReferralEntry} {e : ReferralEntry} {h : Handle} {n : Nat}
    (hseat : s.seat = some d) (hw : d.work = .answer e.reference) (hab : d.abandoned = false) (hphase : d.phase = .mode)
    (hst : StandsIn l1 l2 e s) (hk : e.kind = .approval h .answering n none) (hu : s.undamaged = true) {r : DenyReason}
    (hr : s.mode.denial = some r) (k : Nat) :
    runDecision (k + 2) s = runDecision k (answerDenied { d with phase := .answerEnd (some r) } e.reference r
      (goesOn d (.answerEnd (some r)) s)) := by
  have hmode : answerOp d e.reference s = goesOn d (.answerEnd (some r)) s := by
    simp only [answerOp, hphase, opMode, hr]
    exact failCheck_of_answer hw r s
  have hend : answerOp { d with phase := .answerEnd (some r) } e.reference (goesOn d (.answerEnd (some r)) s) =
      answerDenied { d with phase := .answerEnd (some r) } e.reference r (goesOn d (.answerEnd (some r)) s) :=
    opAnswerEnd_of_denied (s := goesOn d (.answerEnd (some r)) s) (d := { d with phase := .answerEnd (some r) })
      (hst.congr rfl) hk (by exact hu) (by exact hab) (.inr (.inl ⟨rfl, rfl⟩))
  rw [runDecision_answer hseat hw hab hmode (k + 1),
    runDecision_answer (d := { d with phase := .answerEnd (some r) }) rfl (by exact hw) (by exact hab) hend k]

/-- The result of a check that an IDLE seat has taken, as a state written from the one before. -/
theorem answered_of_idle {s : State} (hseat : s.seat = none) (x : Option Decision) (l : List ReferralEntry)
    (r : CommandResult) :
    ({ s with seat := x } : State).answered l r = { s with referrals := l, work := some (.ready r) } := by
  rw [State.answered, ← hseat]

section
variable {s : State} {l1 l2 : List ReferralEntry} {e : ReferralEntry} {h : Handle} {n : Nat} {cl : Option ClosureCause}
  (hs : Whole s) (hseat : s.seat = none) (hst : StandsIn l1 l2 e s) (hwork : s.work = some (.answer e.reference))
include hs hseat hst hwork

/-- An answer check just taken has nothing to undo. -/
theorem answerFreed_of_taken {d : Decision} (hc : d.claims = []) (hr : d.records = []) (x : Option Decision) :
    answerFreed d e.reference { s with seat := x } = freed d.station
      { s with referrals := l1 ++ l2, work := some (.ready (.bare .tooLate)) } := by
  rw [answerFreed_eq (s := { s with seat := x }) (hst.congr rfl) hwork ⟨hs.clean, hs.wf⟩, hc, hr,
    undoData_nothing (s := { s with seat := x }) hs.clean, answered_of_idle hseat]

theorem answerDenied_of_taken {d : Decision} (hc : d.claims = []) (hr : d.records = []) (r : DenyReason)
    (x : Option Decision) : answerDenied d e.reference r { s with seat := x } = converted d.station d.sequence r
      { s with referrals := l1 ++ l2, work := some (.ready (.overtakenWith r)) } := by
  rw [answerDenied_eq (s := { s with seat := x }) (hst.congr rfl) hwork ⟨hs.clean, hs.wf⟩, hc, hr,
    undoData_nothing (s := { s with seat := x }) hs.clean, answered_of_idle hseat]

/-- The check of a station whose part of the Verdict Queue has been emptied makes no step (log 52). -/
theorem run_taken_of_ended (hended : s.endedAt .referralQueue e.station = true) (k : Nat) :
    runDecision (k + 1) { s with seat := some (s.answerTaken e cl) } = freed e.station
      { s with referrals := l1 ++ l2, work := some (.ready (.bare .tooLate)) } := by
  rw [runDecision_succ (s := { s with seat := _ }) rfl,
    decisionOp_of_abandoned (s := { s with seat := _ }) (n := e.reference) rfl rfl hended,
    answerFreed_of_taken hs hseat hst hwork rfl rfl]
  exact runDecision_idle (by exact hseat) k

variable (hended : s.endedAt .referralQueue e.station = false) (hk : e.kind = .approval h .answering n cl)
include hended hk

/-- The check of an approval with a no-verdict closure makes no step (R122). -/
theorem run_taken_of_closed {c : ClosureCause} (hcl : cl = some c) (hc : c.reason = none) (k : Nat) :
    runDecision (k + 1) { s with seat := some (s.answerTaken e cl) } = freed e.station
      { s with referrals := l1 ++ l2, work := some (.ready (.bare .tooLate)) } := by
  subst hcl
  have hend := opAnswerEnd_of_closed (s := { s with seat := some (s.answerTaken e (some c)) })
    (d := s.answerTaken e (some c)) (hst.congr rfl) hk hended hc none
  refine (runDecision_answer (s := { s with seat := some (s.answerTaken e (some c)) }) (n := e.reference) rfl rfl hended
    (hend.trans (answerFreed_of_taken hs hseat hst hwork rfl rfl _)) k).trans ?_
  exact runDecision_idle (by exact hseat) k

theorem run_taken_of_denied {c : ClosureCause} (hcl : cl = some c) {r : DenyReason} (hc : c.reason = some r) (k : Nat) :
    runDecision (k + 1) { s with seat := some (s.answerTaken e cl) } = converted e.station e.sequence r
      { s with referrals := l1 ++ l2, work := some (.ready (.overtakenWith r)) } := by
  subst hcl
  have hend := opAnswerEnd_of_denied (s := { s with seat := some (s.answerTaken e (some c)) })
    (d := s.answerTaken e (some c)) (hst.congr rfl) hk hs.clean hended (failed := none) (r := r) (.inl ⟨c, rfl, hc⟩)
  refine (runDecision_answer (s := { s with seat := some (s.answerTaken e (some c)) }) (n := e.reference) rfl rfl hended
    (hend.trans (answerDenied_of_taken hs hseat hst hwork rfl rfl r _)) k).trans ?_
  exact runDecision_idle (by exact hseat) k

/-- A building mode denies the check after the room: three operations. -/
theorem run_taken_of_mode (hcl : cl = none) {m : Bool} {b : RoomBody} (hview : (s.room e.room).view = .readable m b)
    {r : DenyReason} (hr : s.mode.denial = some r) (k : Nat) :
    runDecision (k + 3) { s with seat := some (s.answerTaken e cl) } = converted e.station e.sequence r
      { s with referrals := l1 ++ l2, work := some (.ready (.overtakenWith r)) } := by
  subst hcl
  have hroom := opRoom_of_answer (s := { s with seat := some (s.answerTaken e none) }) (s.answerTaken e none) hs.clean
    (n := e.reference) rfl (closed := m) hview
  refine (runDecision_answer (s := { s with seat := some (s.answerTaken e none) }) rfl rfl hended hroom (k + 2)).trans ?_
  refine (run_from_mode (s := goesOn _ .mode _) rfl rfl hended rfl (hst.congr rfl) hk hs.clean hr k).trans ?_
  refine (congrArg (runDecision k) (answerDenied_of_taken hs hseat hst hwork rfl rfl r _)).trans ?_
  exact runDecision_idle (by exact hseat) k

end

end Sys2Proof.Machine

namespace Sys2Proof.Machine
open Sys2Proof

/-- A check that passes at its end: PERMIT is placed with the permit in hand. -/
theorem answerPermitted_facts {s : State} {d : Decision} {l1 l2 : List ReferralEntry} {e : ReferralEntry} {h : Handle}
    {n : Nat} (hs : Whole s) (hst : StandsIn l1 l2 e s) (hwork : s.work = some (.answer e.reference))
    (hk : e.kind = .approval h .answering n none) (hab : d.abandoned = false) (hr : s.placementReason d = none)
    (hstation : d.station = e.station) (hsequence : d.sequence = e.sequence) :
    ∃ t, opAnswerEnd d e.reference none s = t ∧ t.seat = none ∧ t.referrals = l1 ++ l2 ∧
      t.work = some (.ready { code := .ok }) ∧
      t.verdicts = s.verdicts ++ [⟨e.station, e.sequence, .permit, none, false,
        some ⟨d.claims, [d.credential], d.records⟩⟩] ∧
      (t.station e.station).answer = convertedAnswer e.sequence .permit none (s.station e.station).answer ∧
      t.grants = s.grants ∧ t.presence = s.presence ∧ t.pairs = s.pairs ∧ t.attention = s.attention := by
  refine ⟨_, opAnswerEnd_of_passed hst hwork hk hs.clean hab hr, ?_⟩
  have hverdict : permitEntry d none .permit =
      ⟨e.station, e.sequence, .permit, none, false, some ⟨d.claims, [d.credential], d.records⟩⟩ := by
    rw [permitEntry, hstation, hsequence]
    rfl
  rw [reportConverted_eq _ _ rfl, hstation, hsequence, hverdict]
  refine ⟨rfl, rfl, rfl, rfl, ?_, rfl, rfl, rfl, rfl⟩
  exact answer_set (x := appendEntry _ (s.answered (l1 ++ l2) (.bare .ok))) hs.wf e.station _

/-- What a refused admission of an answer check leaves. -/
theorem undoAndFail_facts_of_answer {s : State} {d : Decision} {n : Nat} (hs : Whole s) (hw : d.work = .answer n)
    (r : DenyReason) : ∃ t, undoAndFail d r s = t ∧
      t.seat = some { d with claims := [], records := [], overstayed := [], phase := .answerEnd (some r) } ∧
      removedUnsent d.records s t ∧ givenBack d.claims s t ∧ t.verdicts = s.verdicts ∧ t.referrals = s.referrals := by
  have hundone := undoData_undone hs d.claims d.records
  have hverdicts := congrArg State.verdicts hundone.frame
  have hreferrals := congrArg State.referrals hundone.frame
  exact ⟨_, undoAndFail_of_answer hw r s, rfl, hundone.removed, (givenBack_of_slots hundone.slots :
    givenBack d.claims s (undoData d.claims d.records s)), hverdicts, hreferrals⟩

theorem mode_denial_eq {m : BuildingMode} {r : DenyReason}
    (h : (m = .lockdown ∧ r = DenyReason.lockdown) ∨ (m = .fire ∧ r = DenyReason.fire)) : m.denial = some r := by
  rcases h with ⟨rfl, rfl⟩ | ⟨rfl, rfl⟩ <;> rfl

theorem placementReason_none {s : State} {d : Decision} (hmark : d.mark = none) (hmode : s.mode = .normal)
    (htamper : s.tamper.value.flag = false) : s.placementReason d = none := by
  simp [State.placementReason, hmark, hmode, htamper]

/-- Settles O59: an approval's opening, its pending closure, and the answer check from its taking to its end. -/
theorem answerCheckEndsTheApproval : Obligations.AnswerCheckEndsTheApproval := by
  unfold Obligations.AnswerCheckEndsTheApproval
  refine ⟨fun s d hc hwf => ?_, fun s d l1 l2 e h n cause p hd hwf hh hsplit halone hk hstation hsequence => ?_,
    fun s d n p go fails ha hab hwf hgo hfails => ?_,
    fun s d l1 l2 e h n cl failed ha hwf hsplit halone hk hwork hstation hsequence => ?_,
    fun s l1 l2 e h n cl hawake hu hwf hsplit hother hk hwork => ?_⟩
  · obtain ⟨-, hu, -, hw, -, hh, hphase⟩ := id hc
    have hs : Whole s := ⟨hu, hwf⟩
    have hop : exec (.takeRequest (some 1)) s = .next (opApprovalOpening d s) := by
      rw [exec_takeRequest_of_deciding (deciding_of_checking hc), requestOp, hphase]
    refine ⟨fun n timeout hclosed hr hroom hn htimeout hrec => ?_, fun r hr => ?_, fun hclosed hr hroom => ?_⟩
    · obtain ⟨t, ht, o⟩ := run_approvalOpening hc hwf hclosed hr hroom hn hrec
      refine ⟨t, ht, o.seat, ?_, o.counter, o.verdicts, o.answer, givenBack_of_slots o.slots, o.presence, o.pairs,
        o.refer, o.attention⟩
      rw [o.referrals, htimeout, claimHandle_eq]
    · exact ⟨_, hop.trans (congrArg _ (opApprovalOpening_of_denied hu hr)), undoAndFail_of_first hs hw hh r,
        undoAndFail_referrals hs hw hh r⟩
    · exact ⟨_, hop.trans (congrArg _ (opApprovalOpening_of_closed hu hclosed hr hroom)), endAbandoned_of_first hs hh⟩
  · have hst : StandsIn l1 l2 e s := ⟨hsplit, halone⟩
    have hs : Whole s := ⟨hd.2.1, hwf⟩
    refine ⟨fun hp hrec => ?_, fun hp => ?_⟩
    · rcases hp with rfl | rfl
      · obtain ⟨t, ht, c⟩ := run_claimRelease_closed hst hk hstation hsequence hh hs hd hrec
        obtain ⟨h1, h2, h3, h4, h5, h6⟩ := c.of_returned hs
        exact ⟨t, ht, h1, h2, h3, h4, fun _ => h5, h6⟩
      · obtain ⟨t, ht, c⟩ := run_interim_closed hst hk hstation hsequence hh hs hd
        exact ⟨t, ht, c.seat, c.referrals, c.verdicts, c.answer, fun h => (nomatch h), c.presence, c.pairs, c.attention⟩
    · subst hp
      exact step_settling_closed hst hk hstation hsequence hh hs hd
  · obtain ⟨-, hu, hseat, hw, hh, hphase⟩ := id ha
    have hfail := failCheck_of_answer hw
    replace hgo := hgo.trans (exec_answerCheck_of_answering ha hab)
    simp only [answerOp, hphase] at hgo
    refine ⟨?_, ?_, ?_, ?_, ?_, ?_, ?_, ?_, ?_, ?_, ?_, ?_, ?_⟩
    · rintro rfl
      simp only [hfails, hgo, Host.Outcome.next.injEq, ← hfail]
      exact ⟨opRoom_of_unreadable d hu, fun closed b => opRoom_of_answer d hu hw⟩
    · rintro rfl
      simpa only [hfails, hgo, Host.Outcome.next.injEq, ← hfail] using opMode_checks d
    · rintro rfl
      simpa only [hfails, hgo, Host.Outcome.next.injEq, ← hfail] using opTamper_checks d hu
    · rintro rfl
      simpa only [hfails, hgo, Host.Outcome.next.injEq, ← hfail] using opClock_checks d hu
    · rintro rfl
      simpa only [hfails, hgo, Host.Outcome.next.injEq, ← hfail] using opBarState_checks d hu
    · rintro rfl hb
      simp only [hfails, hgo, Host.Outcome.next.injEq, ← hfail]
      exact ⟨opBarTest_of_doubtful d hu, opBarTest_of_answer d hu hw hb, opBarTest_of_not_listed d hu hb⟩
    · rintro rfl
      simpa only [hfails, hgo, Host.Outcome.next.injEq, ← hfail] using opLocate_checks d hu
    · rintro rfl st issue g hs hg
      simpa only [hfails, hgo, Host.Outcome.next.injEq, ← hfail, afterSearch_of_first hh] using
        opSearch_checks d hu hphase hs hg
    · rintro rfl
      simpa only [hfails, hgo, Host.Outcome.next.injEq, ← hfail, recordsAsked_of_first hh] using
        opCount_of_limit d hu (stepNineLimit_of_answer d hw)
    · rintro rfl
      simpa only [hfails, hgo, Host.Outcome.next.injEq, ← hfail, recordsAsked_of_first hh, freeRecords_length_iff,
        one_le_freeRecords_iff, afterPool_of_answer hw] using opPool_checks d hu
    · rintro rfl h role st issue g hf hs hg
      simpa only [hgo, Host.Outcome.next.injEq, afterClaim_of_answer hw] using opClaim_checks hu hs hg hf
    · rintro c h role ids t rfl hclaims hf hok
      rw [← entrants_of_single _ hclaims hf] at hok
      rw [hgo, opAdmission_of_admitted hok, afterAdmission_of_answer hw]
    · rintro c h role reason rfl hclaims hf herr
      rw [← entrants_of_single _ hclaims hf] at herr
      obtain ⟨t, ht, hfacts⟩ := undoAndFail_facts_of_answer ⟨hu, hwf⟩ hw reason
      exact ⟨t, hgo.trans (congrArg _ ((opAdmission_of_refused hu herr).trans ht)), hfacts⟩
  · obtain ⟨hawake, hu, hseat, hw, hh, hphase⟩ := id ha
    have hs : Whole s := ⟨hu, hwf⟩
    have hst : StandsIn l1 l2 e s := ⟨hsplit, halone⟩
    have hop : d.abandoned = false →
        exec (.answerCheck (some 1)) s = .next (opAnswerEnd d e.reference failed s) := fun hab => by
      rw [exec_answerCheck_of_answering ha hab, answerOp, hphase]
    refine ⟨fun hcase => ?_, fun r hab hr => ?_⟩
    · refine ⟨_, ?_, answerFreed_facts (d := d) hs hst hwork hstation⟩
      cases hab : d.abandoned with
      | true => rw [exec_answerCheck_step hawake hseat hw, decisionOp_of_abandoned hseat hw hab]
      | false =>
        obtain ⟨c, rfl, hc⟩ := hcase.resolve_left (by rw [hab]; exact Bool.false_ne_true)
        exact (hop hab).trans (congrArg _ (opAnswerEnd_of_closed hst hk hab hc failed))
    · exact ⟨_, (hop hab).trans (congrArg _ (opAnswerEnd_of_denied hst hk hu hab hr)),
        answerDenied_facts hs hst hwork hstation hsequence r⟩
  · have hs : Whole s := ⟨hu, hwf⟩
    have hst : StandsIn l1 l2 e s := ⟨hsplit, fun x hx => (hother x hx).1⟩
    refine ⟨fun hseat hended => ?_, fun hseat hended => ⟨fun r m hcl hr hview => ?_, fun c hcl hc => ?_,
      fun c r hcl hc => ?_⟩, fun d hseat hw hab hphase hstation hsequence hmark hmode htamper hcl => ?_⟩
    · obtain ⟨k, hbound⟩ := decisionBound_split 1 (by decide)
      rw [exec_answerCheck_taken hawake hu hseat hst (fun x hx => (hother x hx).2) hk, hbound,
        run_taken_of_ended hs hseat hst hwork hended]
      rfl
    · obtain ⟨k, hbound⟩ := decisionBound_split 3 (by decide)
      rw [exec_answerCheck_taken hawake hu hseat hst (fun x hx => (hother x hx).2) hk, hbound,
        run_taken_of_mode hs hseat hst hwork hended hk hcl hview (mode_denial_eq hr)]
      rfl
    · obtain ⟨k, hbound⟩ := decisionBound_split 1 (by decide)
      rw [exec_answerCheck_taken hawake hu hseat hst (fun x hx => (hother x hx).2) hk, hbound,
        run_taken_of_closed hs hseat hst hwork hended hk hcl hc]
      rfl
    · obtain ⟨k, hbound⟩ := decisionBound_split 1 (by decide)
      rw [exec_answerCheck_taken hawake hu hseat hst (fun x hx => (hother x hx).2) hk, hbound,
        run_taken_of_denied hs hseat hst hwork hended hk hcl hc]
      rfl
    · subst hcl
      obtain ⟨t, ht, hfacts⟩ := answerPermitted_facts hs hst hwork hk hab (placementReason_none hmark hmode htamper)
        hstation hsequence
      refine ⟨t, (exec_answerCheck_step hawake hseat hw).trans (congrArg _ ?_), hfacts⟩
      rw [decisionOp_of_answer hseat hw hab, answerOp, hphase]
      exact ht

end Sys2Proof.Machine

namespace Sys2Proof.Machine
open Sys2Proof

/-! ## The Estate Clock's commands (R30 to R34, R40) -/

/-- The present minute is read of the clock alone. -/
theorem presentMinute_of_clean {s : State} (hc : s.clock.clean = true) :
    presentMinute s = (s.clock.value.calendar.minute, s) := by
  rw [presentMinute, readClockItem, readVoted_clean hc]

/-- The Window Sweep has been told to sweep at a minute: at once where no sweep is in flight, else by the re-sweep flag (R40). -/
def State.sweepTold (now : Minute) (s : State) : State :=
  { s with sweep := some (s.sweep.getD ⟨1, now⟩), resweep := s.resweep || s.sweep.isSome }

/-- A trigger reads the clock alone. -/
theorem sweepTrigger_eq {s : State} (hc : s.clock.clean = true) :
    sweepTrigger s = s.sweepTold s.clock.value.calendar.minute := by
  unfold sweepTrigger State.sweepTold
  obtain hs | ⟨w, hs⟩ := Option.eq_none_or_eq_some s.sweep
  · rw [hs]
    dsimp only
    rw [presentMinute_of_clean hc, Option.isSome_none, Bool.or_false, Option.getD_none]
  · rw [hs, Option.isSome_some, Bool.or_true]
    rfl

theorem exec_setClock_of_accepts {s : State} (ha : s.accepts = true) :
    exec .setClock s = .next (opSetClock (accepted 0x20 s)) :=
  congrArg Host.Outcome.next (commandWrite_of_accepts ha 0x20 opSetClock)

theorem exec_readClock_of_accepts {s : State} (ha : s.accepts = true) :
    exec .readClock s = .next (opReadClock (accepted 0x21 s)) :=
  congrArg Host.Outcome.next (commandWrite_of_accepts ha 0x21 opReadClock)

theorem exec_shiftHour_of_accepts {s : State} (ha : s.accepts = true) :
    exec .shiftHour s = .next (opShiftHour (accepted 0x22 s)) :=
  congrArg Host.Outcome.next (commandWrite_of_accepts ha 0x22 opShiftHour)

theorem exec_trimClock_of_accepts {s : State} (ha : s.accepts = true) :
    exec .trimClock s = .next (opTrimClock (accepted 0x23 s)) :=
  congrArg Host.Outcome.next (commandWrite_of_accepts ha 0x23 opTrimClock)

/-- SET CLOCK, by its arguments (R30). -/
theorem opSetClock_eq (s : State) : opSetClock s =
    if (minuteArg s.window.arg0).ok = true ∧ field s.window.arg1 0 6 ≤ 59 then
      finishOk ((writeClock ⟨minuteArg s.window.arg0, field s.window.arg1 0 6⟩ s).sweepTold (minuteArg s.window.arg0))
    else refuse .badArgument s := by
  unfold opSetClock
  dsimp only
  rw [sweepTrigger_eq (Voted.clean_of _)]
  unfold writeClock
  dsimp only
  rw [Voted.value_of]

theorem readClock_answers {s : State} (hu : s.undamaged = true) :
    opReadClock s = finish (.okWith (clockWords s.clock.value s.trim.value.isSome)) s := by
  simp only [opReadClock, readClockItem_undamaged hu, readTrim_undamaged hu]

/-- The word of SHIFT HOUR's direction (R32). -/
theorem toInt_eq_one_iff (w : Word) : w.toInt = 1 ↔ w = 1 :=
  ⟨fun h => BitVec.eq_of_toInt_eq (h.trans (by decide)), fun h => h ▸ by decide⟩

theorem toInt_eq_neg_one_iff (w : Word) : w.toInt = -1 ↔ w = -1 :=
  ⟨fun h => BitVec.eq_of_toInt_eq (h.trans (by decide)), fun h => h ▸ by decide⟩

theorem direction_iff (w : Word) : (w.toInt = 1 ∨ w.toInt = -1) ↔ (w = 1 ∨ w = -1) :=
  or_congr (toInt_eq_one_iff w) (toInt_eq_neg_one_iff w)

/-- The calendar that SHIFT HOUR moves to, by the word of its direction; none where it would leave the range (R32). -/
def hourMoved (direction : Word) (now : Calendar) : Option Calendar :=
  if direction = 1 then now.hourLater else now.hourEarlier

section
variable {s : State}

theorem opShiftHour_of_bad_direction (h : ¬ (s.window.arg0 = 1 ∨ s.window.arg0 = -1)) :
    opShiftHour s = refuse .badArgument s :=
  if_neg (mt (direction_iff _).mp h)

variable (hu : s.undamaged = true) (hd : s.window.arg0 = 1 ∨ s.window.arg0 = -1)
include hu hd

theorem opShiftHour_of_unset (hset : s.clock.value.isSet = false) : opShiftHour s = refuse .clockUnset s := by
  unfold opShiftHour
  dsimp only
  rw [if_pos ((direction_iff _).mpr hd), readClockItem_undamaged hu]
  exact if_neg (Bool.eq_false_iff.mp hset)

theorem opShiftHour_of_set (hset : s.clock.value.isSet = true) :
    opShiftHour s = match hourMoved s.window.arg0 s.clock.value.calendar with
      | none => refuse .badArgument s
      | some c => finishOk ({ s with clock := .of ⟨c, true⟩ }.sweepTold c.minute) := by
  have hshift : shiftedCalendar (decide (s.window.arg0.toInt = 1)) s.clock.value.calendar =
      hourMoved s.window.arg0 s.clock.value.calendar := by
    simp only [shiftedCalendar, hourMoved, decide_eq_true_eq, toInt_eq_one_iff]
  unfold opShiftHour
  dsimp only
  rw [if_pos ((direction_iff _).mpr hd), readClockItem_undamaged hu]
  dsimp only
  rw [if_pos hset, hshift]
  cases hourMoved s.window.arg0 s.clock.value.calendar with
  | none => rfl
  | some c =>
    dsimp only
    rw [sweepTrigger_eq (Voted.clean_of _)]
    dsimp only
    rw [Voted.value_of, hset]

end

/-- A shift of an hour keeps the second (R32). -/
theorem hourLater_second {c d : Calendar} (h : c.hourLater = some d) : d.second = c.second := by
  unfold Calendar.hourLater at h
  split at h
  · cases h
  · cases h
    rfl

theorem hourEarlier_second {c d : Calendar} (h : c.hourEarlier = some d) : d.second = c.second := by
  unfold Calendar.hourEarlier at h
  split at h
  · cases h
    rfl
  · cases h

/-- SHIFT HOUR keeps the second. -/
theorem hourMoved_second {direction : Word} {c d : Calendar} (h : hourMoved direction c = some d) : d.second = c.second := by
  unfold hourMoved at h
  split at h
  · exact hourLater_second h
  · exact hourEarlier_second h

section
variable {s : State}

theorem opTrimClock_of_out_of_range (h : s.window.arg0.toInt < -500 ∨ 500 < s.window.arg0.toInt) :
    opTrimClock s = refuse .badArgument s :=
  if_neg (by omega)

variable (hu : s.undamaged = true) (h1 : -500 ≤ s.window.arg0.toInt) (h2 : s.window.arg0.toInt ≤ 500)
include hu h1 h2

theorem opTrimClock_of_in_range : opTrimClock s =
    if s.trim.value.isSome then refuse .busy s else finishOk { s with trim := .of (some s.window.arg0.toInt) } := by
  unfold opTrimClock
  rw [readTrim_undamaged hu]
  exact if_pos ⟨h1, h2⟩

end

/-- Settles O20: each command by the equations of its owner's operation. -/
theorem clockIsSetReadShiftedAndTrimmed : Obligations.ClockIsSetReadShiftedAndTrimmed := by
  unfold Obligations.ClockIsSetReadShiftedAndTrimmed
  refine ⟨?_, ?_, ?_, ?_⟩
  · rintro s m sec ha rfl rfl
    rw [exec_setClock_of_accepts ha, opSetClock_eq]
    refine ⟨fun hbad => congrArg _ (if_neg ?_), fun hm hsec => congrArg _ (if_pos ⟨hm, hsec⟩)⟩
    rintro ⟨hm, hsec⟩
    rcases hbad with h | h
    · exact absurd hm (Bool.eq_false_iff.mp h)
    · exact absurd hsec (Nat.not_le.mpr h)
  · rintro s c ha hu rfl
    rw [exec_readClock_of_accepts ha, readClock_answers (s := accepted 0x21 s) hu]
    rfl
  · rintro s now ha hu rfl
    rw [exec_shiftHour_of_accepts ha]
    refine ⟨fun h1 h2 => congrArg _ (opShiftHour_of_bad_direction (s := accepted 0x22 s) (not_or.mpr ⟨h1, h2⟩)),
      fun hd hset => congrArg _ (opShiftHour_of_unset (s := accepted 0x22 s) hu hd hset), fun hd hset hout => ?_,
      fun c hd hset hin => ⟨?_, hourMoved_second hin⟩⟩
    · rw [opShiftHour_of_set (s := accepted 0x22 s) hu hd hset,
        show hourMoved (accepted 0x22 s).window.arg0 (accepted 0x22 s).clock.value.calendar = none from hout]
      rfl
    · rw [opShiftHour_of_set (s := accepted 0x22 s) hu hd hset,
        show hourMoved (accepted 0x22 s).window.arg0 (accepted 0x22 s).clock.value.calendar = some c from hin]
      rfl
  · rintro s ms ha hu rfl
    rw [exec_trimClock_of_accepts ha]
    refine ⟨fun hout => congrArg _ (opTrimClock_of_out_of_range (s := accepted 0x23 s) hout), fun h1 h2 hp => ?_,
      fun h1 h2 hp => ?_⟩
    · rw [opTrimClock_of_in_range (s := accepted 0x23 s) hu h1 h2]
      exact congrArg _ (if_pos (Option.isSome_iff_ne_none.mpr hp))
    · rw [opTrimClock_of_in_range (s := accepted 0x23 s) hu h1 h2]
      exact congrArg _ (if_neg (fun h => Option.isSome_iff_ne_none.mp h hp))

end Sys2Proof.Machine

namespace Sys2Proof.Machine
open Sys2Proof

/-! ## The calendar (R25, R27, R32) -/

/-- A calendar minute of the calendar, by its parts. -/
theorem Minute.ok_iff (m : Minute) : m.ok = true ↔
    2000 ≤ m.year ∧ m.year ≤ 2099 ∧ 1 ≤ m.month ∧ m.month ≤ 12 ∧ 1 ≤ m.day ∧ m.day ≤ monthLength m.year m.month ∧
      m.hour ≤ 23 ∧ m.minute ≤ 59 := by
  simp only [Minute.ok, Bool.and_eq_true, decide_eq_true_eq, and_assoc]

theorem one_le_monthLength (year month : Nat) : 1 ≤ monthLength year month := by
  unfold monthLength
  repeat' split
  all_goals omega

/-! ### The next day -/

/-- The day is not the calendar's last. -/
def Minute.beforeLastDay (m : Minute) : Prop := ¬ (m.year = 2099 ∧ m.month = 12 ∧ m.day = 31)

/-- The ways to the next day: within the month, into the next month, into the next year, and from the calendar's last day
to its first. -/
theorem Minute.nextDay_cases {m : Minute} (h : m.ok = true) :
    (m.day < monthLength m.year m.month ∧ m.beforeLastDay ∧ m.nextDay = { m with day := m.day + 1 }) ∨
    (m.day = monthLength m.year m.month ∧ m.month < 12 ∧ m.beforeLastDay ∧
      m.nextDay = { m with day := 1, month := m.month + 1 }) ∨
    (m.day = 31 ∧ m.month = 12 ∧ m.year < 2099 ∧ m.beforeLastDay ∧
      m.nextDay = { m with day := 1, month := 1, year := m.year + 1 }) ∨
    (m.day = 31 ∧ m.month = 12 ∧ m.year = 2099 ∧ m.nextDay = { m with day := 1, month := 1, year := 2000 }) := by
  obtain ⟨-, hy, -, hm, -, hd, -, -⟩ := (Minute.ok_iff m).mp h
  unfold Minute.nextDay Minute.beforeLastDay
  split_ifs with hday hmonth hyear
  · refine .inl ⟨hday, ?_, rfl⟩
    rintro ⟨hy99, hm12, hd31⟩
    rw [hy99, hm12, hd31] at hday
    exact absurd hday (by decide)
  · exact .inr (.inl ⟨by omega, hmonth, by omega, rfl⟩)
  · have h12 : m.month = 12 := by omega
    have hlen : monthLength m.year m.month = 31 := by rw [h12]; rfl
    exact .inr (.inr (.inl ⟨by omega, h12, hyear, by omega, rfl⟩))
  · have h12 : m.month = 12 := by omega
    have hlen : monthLength m.year m.month = 31 := by rw [h12]; rfl
    exact .inr (.inr (.inr ⟨by omega, h12, by omega, rfl⟩))

theorem Minute.nextDay_ok {m : Minute} (h : m.ok = true) : m.nextDay.ok = true := by
  have hlen : ∀ year month, 1 ≤ monthLength year month := one_le_monthLength
  obtain ⟨hy0, hy, hm0, hm, hd0, hd, hh, hn⟩ := (Minute.ok_iff m).mp h
  rw [Minute.ok_iff]
  obtain ⟨hlt, -, he⟩ | ⟨-, hlt, -, he⟩ | ⟨-, -, hlt, -, he⟩ | ⟨-, -, -, he⟩ := Minute.nextDay_cases h <;> rw [he]
  · exact ⟨hy0, hy, hm0, hm, by simp, hlt, hh, hn⟩
  · exact ⟨hy0, hy, by simp, by simpa using hlt, le_rfl, hlen _ _, hh, hn⟩
  · exact ⟨by simp; omega, by simpa using hlt, le_rfl, by simp, le_rfl, hlen _ _, hh, hn⟩
  · exact ⟨le_rfl, by simp, le_rfl, by simp, le_rfl, hlen _ _, hh, hn⟩

/-- The day before the next day is the day itself (R32). -/
theorem Minute.previousDay_nextDay {m : Minute} (h : m.ok = true) (hl : m.beforeLastDay) :
    m.nextDay.previousDay = some m := by
  obtain ⟨hy0, -, hm0, -, hd0, -, -, -⟩ := (Minute.ok_iff m).mp h
  obtain ⟨-, -, he⟩ | ⟨hd, -, -, he⟩ | ⟨hd, hm, -, -, he⟩ | ⟨hd, hm, hy, -⟩ := Minute.nextDay_cases h
  · rw [he, Minute.previousDay, if_pos (Nat.lt_succ_of_le hd0)]
    rfl
  · rw [he, Minute.previousDay, if_neg (by simp), if_pos (Nat.lt_succ_of_le hm0)]
    simp only [Nat.add_sub_cancel, ← hd]
  · rw [he, Minute.previousDay, if_neg (by simp), if_neg (by simp), if_pos (by simp; omega)]
    simp only [Nat.add_sub_cancel, ← hd, ← hm]
  · exact absurd ⟨hy, hm, hd⟩ hl

/-! ### Hours, minutes and seconds -/

/-- The day is changed without the hour. -/
theorem Minute.nextDay_hour (m : Minute) (hour : Nat) :
    ({ m with hour := hour } : Minute).nextDay = { m.nextDay with hour := hour } := by
  simp only [Minute.nextDay]
  split_ifs <;> rfl

theorem Minute.ok_setHour {m : Minute} (h : m.ok = true) {hour : Nat} (hh : hour ≤ 23) :
    ({ m with hour := hour } : Minute).ok = true := by
  obtain ⟨h1, h2, h3, h4, h5, h6, -, h8⟩ := (Minute.ok_iff m).mp h
  exact (Minute.ok_iff _).mpr ⟨h1, h2, h3, h4, h5, h6, hh, h8⟩

theorem Minute.ok_setMinute {m : Minute} (h : m.ok = true) {minute : Nat} (hn : minute ≤ 59) :
    ({ m with minute := minute } : Minute).ok = true := by
  obtain ⟨h1, h2, h3, h4, h5, h6, h7, -⟩ := (Minute.ok_iff m).mp h
  exact (Minute.ok_iff _).mpr ⟨h1, h2, h3, h4, h5, h6, h7, hn⟩

theorem Minute.nextHour_ok {m : Minute} (h : m.ok = true) : m.nextHour.ok = true := by
  unfold Minute.nextHour
  split
  · exact Minute.ok_setHour h (by omega)
  · exact Minute.nextDay_ok (Minute.ok_setHour h (Nat.zero_le _))

theorem Minute.nextMinute_ok {m : Minute} (h : m.ok = true) : m.nextMinute.ok = true := by
  unfold Minute.nextMinute
  split
  · exact Minute.ok_setMinute h (by omega)
  · exact Minute.nextHour_ok (Minute.ok_setMinute h (Nat.zero_le _))

theorem Calendar.nextSecond_ok {c : Calendar} (h : c.minute.ok = true) :
    c.nextSecond.minute.ok = true ∧ c.nextSecond.second ≤ 59 := by
  unfold Calendar.nextSecond
  split
  · exact ⟨h, by simp; omega⟩
  · exact ⟨Minute.nextMinute_ok h, Nat.zero_le _⟩

/-- The hour before the next hour is the hour itself, short of the calendar's last one (R32). -/
theorem Minute.previousHour_nextHour {m : Minute} (h : m.ok = true)
    (hl : ¬ (m.year = 2099 ∧ m.month = 12 ∧ m.day = 31 ∧ 23 ≤ m.hour)) : m.nextHour.previousHour = some m := by
  obtain ⟨-, -, -, -, -, -, hh, -⟩ := (Minute.ok_iff m).mp h
  unfold Minute.nextHour
  by_cases hlt : m.hour < 23
  · rw [if_pos hlt, Minute.previousHour, if_pos (by simp)]
    rfl
  · have h23 : m.hour = 23 := by omega
    rw [if_neg hlt, Minute.nextDay_hour, Minute.previousHour, if_neg (by simp)]
    show ({ m.nextDay with hour := 23 } : Minute).previousDay = some m
    rw [← Minute.nextDay_hour, ← h23]
    exact Minute.previousDay_nextDay h (fun ⟨h1, h2, h3⟩ => hl ⟨h1, h2, h3, by omega⟩)

theorem Calendar.hourEarlier_hourLater {c d : Calendar} (h : c.minute.ok = true) (hd : c.hourLater = some d) :
    d.minute.ok = true ∧ d.hourEarlier = some c := by
  unfold Calendar.hourLater at hd
  split at hd
  · cases hd
  · rename_i hl
    cases hd
    refine ⟨Minute.nextHour_ok h, ?_⟩
    unfold Calendar.hourEarlier
    rw [Minute.previousHour_nextHour h hl]

/-! ### Weekdays (R25) -/

theorem daysBeforeMonth_one (year : Nat) : daysBeforeMonth year 1 = 0 := rfl

theorem daysBeforeMonth_succ (year : Nat) {month : Nat} (h : 1 ≤ month) :
    daysBeforeMonth year (month + 1) = daysBeforeMonth year month + monthLength year month := by
  obtain ⟨k, rfl⟩ : ∃ k, month = k + 1 := ⟨month - 1, by omega⟩
  simp only [daysBeforeMonth, numbersFrom, Nat.add_sub_cancel, List.range_succ, List.map_append, List.sum_append,
    List.map_cons, List.map_nil, List.sum_cons, List.sum_nil, Nat.add_zero]
  rw [Nat.add_comm 1 k]

/-- The days of a year before its December. -/
theorem daysBeforeMonth_twelve (year : Nat) : daysBeforeMonth year 12 = 306 + monthLength year 2 := by
  simp only [daysBeforeMonth, numbersFrom, List.range_succ, List.range_zero, List.map_append, List.map_cons, List.map_nil,
    List.sum_append, List.sum_cons, List.sum_nil, monthLength]
  omega

/-- The next day has the next day number, but after the calendar's last day. -/
theorem Minute.dayNumber_nextDay {m : Minute} (h : m.ok = true) (hl : m.beforeLastDay) :
    m.nextDay.dayNumber = m.dayNumber + 1 := by
  obtain ⟨hy0, -, hm0, -, hd0, -, -, -⟩ := (Minute.ok_iff m).mp h
  obtain ⟨-, -, he⟩ | ⟨hd, -, -, he⟩ | ⟨hd, hm, -, -, he⟩ | ⟨hd, hm, hy, -⟩ := Minute.nextDay_cases h
  · rw [he]
    simp only [Minute.dayNumber]
    omega
  · rw [he]
    simp only [Minute.dayNumber, daysBeforeMonth_succ _ hm0]
    omega
  · have hfeb : monthLength m.year 2 = if m.year % 4 = 0 then 29 else 28 := by
      simp only [monthLength, leapYear, decide_eq_true_eq]
    rw [he]
    simp only [Minute.dayNumber, hm, hd, daysBeforeMonth_one, daysBeforeMonth_twelve, hfeb]
    split_ifs <;> omega
  · exact absurd ⟨hy, hm, hd⟩ hl

theorem Minute.weekday_nextDay {m : Minute} (h : m.ok = true) (hl : m.beforeLastDay) :
    m.nextDay.weekday = (m.weekday + 1) % 7 := by
  unfold Minute.weekday
  rw [Minute.dayNumber_nextDay h hl]
  omega

/-- Settles O22, by the carries of the next day. -/
theorem calendarStaysInRange : Obligations.CalendarStaysInRange := by
  unfold Obligations.CalendarStaysInRange
  intro c hok _
  obtain ⟨hnext, hnextsec⟩ := Calendar.nextSecond_ok hok
  refine ⟨hnext, hnextsec, fun hlt => if_pos hlt, fun h59 hlt => ?_, fun hlast h59 => ?_,
    fun d hd => Calendar.hourEarlier_hourLater hok hd, by decide, fun hne => Minute.weekday_nextDay hok ?_⟩
  · rw [Calendar.nextSecond, if_neg (by omega), Minute.nextMinute, if_pos hlt]
  · obtain ⟨minute, second⟩ := c
    cases hlast
    cases h59
    decide
  · rintro ⟨hy, hm, hd⟩
    obtain ⟨-, hl, -⟩ | ⟨-, -, hl, -⟩ | ⟨-, -, -, hl, -⟩ | ⟨-, -, -, he⟩ := Minute.nextDay_cases hok
    · exact hl ⟨hy, hm, hd⟩
    · exact hl ⟨hy, hm, hd⟩
    · exact hl ⟨hy, hm, hd⟩
    · exact hne he

end Sys2Proof.Machine

namespace Sys2Proof.Machine
open Sys2Proof

/-! ## A visit of the Window Sweep (R41 to R43) -/

/-- What a visit may change: the slot at the cursor, and the notices to the Presence Pool. -/
structure Visited (k : Nat) (v : Slot) (given : List Outstanding) (s t : State) : Prop where
  frame : t = { s with grants := t.grants, notices := s.notices ++ given }
  wf : Table.wf Slot.cleared t.grants = true
  slot : ∀ j, t.slot j = if j = k then v else s.slot j

section
variable {k : Nat} {v : Slot} {given : List Outstanding} {s t : State}

theorem Visited.refl (hw : s.tablesWf = true) (k : Nat) : Visited k (s.slot k) [] s s where
  frame := by rw [List.append_nil]
  wf := ((tablesWf_iff s).mp hw).1
  slot j := by
    split
    · rename_i h
      rw [h]
    · rfl

theorem Visited.slot_at (h : Visited k v given s t) : t.slot k = v := by
  rw [h.slot, if_pos rfl]

theorem Visited.setSlot (h : Visited k v given s t) (w : Slot) : Visited k w given s (t.setSlot k w) where
  frame := by
    conv_lhs => rw [h.frame]
    rfl
  wf := Table.wf_set _ h.wf k w
  slot j := by
    rw [slot_setSlot h.wf, h.slot]
    split <;> rfl

theorem Visited.writeSlotHeader (h : Visited k v given s t) (x : SlotHeader) :
    Visited k { v with header := .of x } given s (writeSlotHeader k x t) := by
  rw [← h.slot_at]
  exact h.setSlot _

theorem Visited.writeSlotBody (h : Visited k v given s t) (g : GrantRecord) :
    Visited k { v with body := .of g } given s (writeSlotBody k g t) := by
  rw [← h.slot_at]
  exact h.setSlot _

theorem Visited.giveOverstay (h : Visited k v given s t) (x : Handle) :
    Visited k v (given ++ [⟨.presencePool, .overstay x, false⟩]) s (giveOverstay x t) where
  frame := by
    unfold Machine.giveOverstay giveNotices
    conv_lhs => rw [h.frame]
    rw [← List.append_assoc]
    rfl
  wf := h.wf
  slot := h.slot

end

/-! ### The comparison of daily hours (R43) -/

theorem stateAt_outHours (d : DailyHours) (t : Minute) : d.stateAt t = .outHours ↔ d.openAt t = false := by
  unfold DailyHours.stateAt
  split <;> simp [*]

/-- The notice of a comparison: the grant leaves its hours (R42, R43). -/
def hoursNotices (h : Handle) (g : GrantRecord) (d : DailyHours) (t : Minute) : List Outstanding :=
  if g.hoursState = .inHours ∧ d.openAt t = false then [⟨.presencePool, .overstay h, false⟩] else []

theorem compareHours_of_none {g : GrantRecord} (hg : g.hours = none) (h : Handle) (t : Minute) (s : State) :
    compareHours h g t s = s := by
  unfold compareHours
  rw [hg]

theorem compareHours_visited {h : Handle} {v : Slot} {s u : State} (hv : Visited h.slot v [] s u) {g : GrantRecord}
    (hb : v.body.value = g) {d : DailyHours} (hd : g.hours = some d) (t : Minute) :
    ∃ w, Visited h.slot w (hoursNotices h g d t) s (compareHours h g t u) ∧ w.header = v.header ∧
      w.body.value = { g with hoursState := d.stateAt t } := by
  have hgiven : Visited h.slot v (hoursNotices h g d t) s
      (if g.hoursState = .inHours ∧ d.stateAt t = .outHours then giveOverstay h u else u) := by
    unfold hoursNotices
    simp only [stateAt_outHours]
    split
    · exact hv.giveOverstay h
    · exact hv
  have hdef : compareHours h g t u = if g.hoursState = d.stateAt t
      then (if g.hoursState = .inHours ∧ d.stateAt t = .outHours then giveOverstay h u else u)
      else writeSlotBody h.slot { g with hoursState := d.stateAt t }
        (if g.hoursState = .inHours ∧ d.stateAt t = .outHours then giveOverstay h u else u) := by
    unfold compareHours
    split
    · rename_i hn
      cases hn.symm.trans hd
    · rename_i e he
      cases he.symm.trans hd
      rfl
  rw [hdef]
  split
  · rename_i hsame
    refine ⟨v, hgiven, rfl, ?_⟩
    rw [← hsame, hb]
  · exact ⟨_, hgiven.writeSlotBody _, rfl, rfl⟩

/-! ### The slot's state at the visit (R41) -/

/-- The state a visit's third step leaves: PENDING becomes ACTIVE at the valid from. -/
def openedState (st : GrantState) (g : GrantRecord) (t : Minute) : GrantState :=
  if st = .pending ∧ g.validFrom.atOrBefore t = true then .active else st

theorem openedState_live {st : GrantState} (h : st.live = true) (g : GrantRecord) (t : Minute) :
    (openedState st g t).live = true := by
  unfold openedState
  split
  · rfl
  · exact h

theorem openedState_of_not_live {st : GrantState} (h : st.live = false) (g : GrantRecord) (t : Minute) :
    openedState st g t = st := by
  refine if_neg ?_
  rintro ⟨rfl, -⟩
  cases h

/-- The state before the fourth step of a visit. -/
def opened (k : Nat) (st : GrantState) (issue : BitVec 8) (g : GrantRecord) (t : Minute) (s : State) : State :=
  if openedState st g t = st then s else writeSlotHeader k ⟨openedState st g t, issue⟩ s

theorem opened_visited {s : State} (hw : s.tablesWf = true) {k : Nat} {st : GrantState} {issue : BitVec 8}
    (hh : (s.slot k).header.value = ⟨st, issue⟩) (g : GrantRecord) (t : Minute) :
    ∃ v, Visited k v [] s (opened k st issue g t s) ∧ v.header.value = ⟨openedState st g t, issue⟩ ∧
      v.body = (s.slot k).body := by
  unfold opened
  split
  · rename_i hsame
    exact ⟨_, .refl hw k, by rw [hh, hsame], rfl⟩
  · exact ⟨_, (Visited.refl hw k).writeSlotHeader _, Voted.value_of _, rfl⟩

theorem visitGrant_eq (k : Nat) (st : GrantState) (issue : BitVec 8) (g : GrantRecord) (t : Minute) (s : State) :
    visitGrant k ⟨st, issue⟩ g t s =
      if (openedState st g t).live then
        if g.validUntil.atOrBefore t then
          giveOverstay ⟨k, issue⟩ (writeSlot k ⟨.lapsed, issue⟩ { g with suspendedFrom := none } (opened k st issue g t s))
        else compareHours ⟨k, issue⟩ g t (opened k st issue g t s)
      else opened k st issue g t s := rfl

/-! ### A visit, by the state of its slot -/

section
variable {s : State} {k : Nat} {st : GrantState} {issue : BitVec 8} {g : GrantRecord} {t : Minute}
  (hu : s.undamaged = true) (hh : (s.slot k).header.value = ⟨st, issue⟩) (hg : g = (s.slot k).body.value)
include hu hh hg

theorem visitSlot_of_read (hf : st ≠ .free) (hd : st ≠ .faulted) : visitSlot k t s = visitGrant k ⟨st, issue⟩ g t s := by
  unfold visitSlot
  rw [readSlotHeader_undamaged hu, hh]
  dsimp only
  rw [readSlotBody_undamaged hu, ← hg]
  cases st with
  | free => exact absurd rfl hf
  | faulted => exact absurd rfl hd
  | pending | active | spent | suspended | lapsed | revoked => rfl

/-- A slot that is not live is passed. -/
theorem visitSlot_of_not_live (hl : st.live = false) : visitSlot k t s = s := by
  by_cases hun : st = .free ∨ st = .faulted
  · unfold visitSlot
    rw [readSlotHeader_undamaged hu, hh]
    rcases hun with rfl | rfl <;> rfl
  · obtain ⟨hf, hd⟩ := not_or.mp hun
    have hsame := openedState_of_not_live hl g t
    rw [visitSlot_of_read hu hh hg hf hd, visitGrant_eq, opened, hsame, hl, if_pos rfl]
    rfl

variable (hl : st.live = true)
include hl

theorem visitSlot_of_live : visitSlot k t s =
    if g.validUntil.atOrBefore t then
      giveOverstay ⟨k, issue⟩ (writeSlot k ⟨.lapsed, issue⟩ { g with suspendedFrom := none } (opened k st issue g t s))
    else compareHours ⟨k, issue⟩ g t (opened k st issue g t s) := by
  rw [visitSlot_of_read hu hh hg (by rintro rfl; cases hl) (by rintro rfl; cases hl), visitGrant_eq,
    if_pos (openedState_live hl g t)]

variable (hw : s.tablesWf = true)
include hw

/-- A live grant at its valid until lapses, and its holders get an overstay notice. -/
theorem visitSlot_of_due (hdue : g.validUntil.atOrBefore t = true) :
    Visited k ⟨.of ⟨.lapsed, issue⟩, .of { g with suspendedFrom := none }⟩
      [⟨.presencePool, .overstay ⟨k, issue⟩, false⟩] s (visitSlot k t s) := by
  obtain ⟨v, hv, -, -⟩ := opened_visited hw hh g t
  rw [visitSlot_of_live hu hh hg hl, if_pos hdue]
  exact (hv.setSlot _).giveOverstay _

/-- A live grant without daily hours. -/
theorem visitSlot_of_no_hours (hdue : g.validUntil.atOrBefore t = false) (hn : g.hours = none) :
    ∃ v, Visited k v [] s (visitSlot k t s) ∧ v.header.value = ⟨openedState st g t, issue⟩ ∧ v.body.value = g := by
  obtain ⟨v, hv, hvh, hvb⟩ := opened_visited hw hh g t
  refine ⟨v, ?_, hvh, by rw [hvb, hg]⟩
  rw [visitSlot_of_live hu hh hg hl, if_neg (Bool.eq_false_iff.mp hdue), compareHours_of_none hn]
  exact hv

/-- A live grant with daily hours. -/
theorem visitSlot_of_hours (hdue : g.validUntil.atOrBefore t = false) {d : DailyHours} (hd : g.hours = some d) :
    ∃ v, Visited k v (hoursNotices ⟨k, issue⟩ g d t) s (visitSlot k t s) ∧
      v.header.value = ⟨openedState st g t, issue⟩ ∧ v.body.value = { g with hoursState := d.stateAt t } := by
  obtain ⟨v, hv, hvh, hvb⟩ := opened_visited hw hh g t
  obtain ⟨w, hwv, hwh, hwb⟩ := compareHours_visited (h := ⟨k, issue⟩) hv (by rw [hvb, ← hg]) hd t
  refine ⟨w, ?_, by rw [hwh, hvh], hwb⟩
  rw [visitSlot_of_live hu hh hg hl, if_neg (Bool.eq_false_iff.mp hdue)]
  exact hwv

/-- Every visit changes the slot at its cursor and the notices alone. -/
theorem visitSlot_visited_of_live : ∃ v given, Visited k v given s (visitSlot k t s) := by
  cases hdue : g.validUntil.atOrBefore t with
  | true => exact ⟨_, _, visitSlot_of_due hu hh hg hl hw hdue⟩
  | false =>
    cases hhours : g.hours with
    | none => exact (visitSlot_of_no_hours hu hh hg hl hw hdue hhours).imp fun _ h => ⟨_, h.1⟩
    | some d => exact (visitSlot_of_hours hu hh hg hl hw hdue hhours).imp fun _ h => ⟨_, h.1⟩

end

theorem visitSlot_visited {s : State} (hu : s.undamaged = true) (hw : s.tablesWf = true) (k : Nat) (t : Minute) :
    ∃ v given, Visited k v given s (visitSlot k t s) := by
  cases hl : (s.slot k).header.value.state.live with
  | true => exact visitSlot_visited_of_live hu rfl rfl hl hw
  | false =>
    rw [visitSlot_of_not_live hu rfl rfl hl]
    exact ⟨_, _, .refl hw k⟩

/-! ### The cursor (R40) -/

theorem sweepStep_eq {s : State} (hu : s.undamaged = true) (hw : s.tablesWf = true) {w : Sweep} (hs : s.sweep = some w) :
    sweepStep s = { visitSlot w.cursor w.minute s with
      sweep := sweepAfter w s, resweep := if w.cursor < 1024 then s.resweep else false } := by
  obtain ⟨v, given, hv⟩ := visitSlot_visited hu hw w.cursor w.minute
  unfold sweepStep
  rw [hs]
  dsimp only
  generalize visitSlot w.cursor w.minute s = u at hv
  have hclock := congrArg State.clock hv.frame
  have hresweep := congrArg State.resweep hv.frame
  unfold sweepAfter
  by_cases hlt : w.cursor < 1024
  · rw [if_pos hlt, if_pos hlt, if_pos hlt, ← show u.resweep = s.resweep from hresweep]
  · rw [if_neg hlt, if_neg hlt, if_neg hlt, endSweep, show u.resweep = s.resweep from hresweep]
    have hread : presentMinute u = (s.clock.value.calendar.minute, u) := by
      have hclean : u.clock.clean = true := by
        rw [show u.clock = s.clock from hclock]
        exact (Undamaged.of hu).clock
      rw [presentMinute_of_clean hclean, show u.clock = s.clock from hclock]
    by_cases hr : s.resweep = true
    · rw [if_pos hr, if_pos hr, hread]
    · rw [if_neg hr, if_neg hr, ← Bool.eq_false_iff.mpr hr, ← show u.resweep = s.resweep from hresweep]

/-- Settles O23: the visit, by the state of its slot, and then the cursor. -/
theorem sweepVisitFollowsTheWindows : Obligations.SweepVisitFollowsTheWindows := by
  unfold Obligations.SweepVisitFollowsTheWindows
  intro s w st issue g ha hu hw hs _ _ hh hg
  have hexec : exec .sweepVisit s = .next { visitSlot w.cursor w.minute s with
      sweep := sweepAfter w s, resweep := if w.cursor < 1024 then s.resweep else false } := by
    rw [← sweepStep_eq hu hw hs]
    exact congrArg _ (if_pos ha)
  obtain ⟨v, given, hv⟩ := visitSlot_visited hu hw w.cursor w.minute
  refine ⟨_, hexec, rfl, rfl, fun j hj => (hv.slot j).trans (if_neg hj), fun hpass => ?_, fun hlive hdue => ?_,
    fun hlive hdue => ?_, (congrArg State.rooms hv.frame :), (congrArg State.presence hv.frame :),
    (congrArg State.verdicts hv.frame :), (congrArg State.pairs hv.frame :), (congrArg State.referrals hv.frame :),
    (congrArg State.clock hv.frame :), (congrArg State.attention hv.frame :)⟩
  · have hl : st.live = false := by rcases hpass with rfl | rfl | rfl | rfl <;> rfl
    have hsame := visitSlot_of_not_live (t := w.minute) hu hh hg hl
    exact ⟨congrArg (fun u => u.slot w.cursor) hsame, (congrArg State.notices hsame :)⟩
  · have hd := visitSlot_of_due (t := w.minute) hu hh hg ((live_iff st).mpr hlive) hw hdue
    refine ⟨?_, ?_, (congrArg State.notices hd.frame :)⟩
    · exact (congrArg (fun x => x.header.value) hd.slot_at).trans (Voted.value_of _)
    · exact congrArg (fun x => x.body.value) hd.slot_at
  · have hl := (live_iff st).mpr hlive
    obtain hhours | ⟨d, hhours⟩ := Option.eq_none_or_eq_some g.hours
    · obtain ⟨x, hx, hxh, hxb⟩ := visitSlot_of_no_hours (t := w.minute) hu hh hg hl hw hdue hhours
      refine ⟨(congrArg (fun x => x.header.value) hx.slot_at).trans hxh, fun _ => ⟨?_, ?_⟩,
        fun d hd => absurd (hhours.symm.trans hd) nofun⟩
      · exact (congrArg (fun x => x.body.value) hx.slot_at).trans hxb
      · exact (congrArg State.notices hx.frame :).trans (List.append_nil _)
    · obtain ⟨x, hx, hxh, hxb⟩ := visitSlot_of_hours (t := w.minute) hu hh hg hl hw hdue hhours
      refine ⟨(congrArg (fun x => x.header.value) hx.slot_at).trans hxh,
        fun hn => absurd (hhours.symm.trans hn) nofun, fun e he => ?_⟩
      cases hhours.symm.trans he
      refine ⟨(congrArg (fun x => x.body.value) hx.slot_at).trans hxb, (congrArg State.notices hx.frame :).trans ?_⟩
      show s.notices ++ hoursNotices ⟨w.cursor, issue⟩ g d w.minute = _
      unfold hoursNotices
      split
      · rfl
      · exact List.append_nil _

end Sys2Proof.Machine

namespace Sys2Proof.Machine
open Sys2Proof

/-! ## Reservations that end with a DENY (R85) -/

/-- A reservation that ends writes the Verdict Queue and the station table, by what they hold and the notices alone. -/
theorem deniedAt_of_same {s u : State} (hv : u.verdicts = s.verdicts) (hs : u.stations = s.stations)
    (hn : u.notices = s.notices) (b : Block) (k : Nat) (q : Sequence) (r : DenyReason) :
    deniedAt b k q r u = { u with
      verdicts := (deniedAt b k q r s).verdicts, stations := (deniedAt b k q r s).stations } := by
  have hended : u.endedAt b k = s.endedAt b k := by
    unfold State.endedAt State.told
    rw [hn]
  unfold deniedAt
  rw [hended]
  split
  · unfold freed State.station
    rw [hs]
    dsimp only
    rw [← hv]
  · unfold converted State.station
    rw [hs, hv]

theorem deniedAt_notices (b : Block) (k : Nat) (q : Sequence) (r : DenyReason) (s : State) :
    (deniedAt b k q r s).notices = s.notices :=
  (congrArg State.notices (deniedAt_of_same rfl rfl rfl b k q r : deniedAt b k q r s = _) :)

theorem deniedEach_of_same (xs : List (Block × Nat × Sequence × DenyReason)) : ∀ {s u : State},
    u.verdicts = s.verdicts → u.stations = s.stations → u.notices = s.notices →
    deniedEach xs u = { u with verdicts := (deniedEach xs s).verdicts, stations := (deniedEach xs s).stations } := by
  induction xs with
  | nil =>
    intro s u hv hs _
    show u = { u with verdicts := s.verdicts, stations := s.stations }
    rw [← hv, ← hs]
  | cons x xs ih =>
    intro s u hv hs hn
    have hx := deniedAt_of_same hv hs hn x.1 x.2.1 x.2.2.1 x.2.2.2
    have hnext := ih (s := deniedAt x.1 x.2.1 x.2.2.1 x.2.2.2 s) (u := deniedAt x.1 x.2.1 x.2.2.1 x.2.2.2 u)
      (congrArg State.verdicts hx :) (congrArg State.stations hx :)
      (by rw [deniedAt_notices, deniedAt_notices, hn])
    refine hnext.trans ?_
    rw [hx]
    rfl

theorem deniedEach_append (xs ys : List (Block × Nat × Sequence × DenyReason)) (s : State) :
    deniedEach (xs ++ ys) s = deniedEach ys (deniedEach xs s) := List.foldl_append ..

theorem deniedEach_notices (xs : List (Block × Nat × Sequence × DenyReason)) (s : State) :
    (deniedEach xs s).notices = s.notices :=
  (congrArg State.notices (deniedEach_of_same xs rfl rfl rfl : deniedEach xs s = _) :)

/-! ## The second tick to the contexts (R101) -/

/-- The reservation of the context in a slot that a tick ends. -/
def State.pairEnd (s : State) (k : Nat) : Option (Block × Nat × Sequence × DenyReason) :=
  (s.pair k).bind (fun c =>
    if c.held = false ∧ c.seconds ≤ 1 then some (.pairTable, c.station, c.sequence, .pairTimeout) else none)

/-- A context after a tick. -/
def PairContext.afterTick (c : PairContext) : Option PairContext :=
  if c.held = false ∧ c.seconds ≤ 1 then none else some { c with seconds := c.seconds - 1 }

/-- The contexts of these slots have taken the tick. -/
structure PairsTicked (ks : List Nat) (s t : State) : Prop where
  frame : t = { s with
    verdicts := (deniedEach (ks.filterMap s.pairEnd) s).verdicts
    stations := (deniedEach (ks.filterMap s.pairEnd) s).stations
    pairs := t.pairs }
  wf : Table.wf none t.pairs = true
  pair : ∀ k, t.pair k = if k ∈ ks then (s.pair k).bind PairContext.afterTick else s.pair k

section
variable {ks : List Nat} {s t : State}

/-- One more slot takes its tick. -/
theorem PairsTicked.tick (h : PairsTicked ks s t) {k : Nat} (hk : k ∉ ks) : PairsTicked (ks ++ [k]) s (tickSlot t k) := by
  have hpair : t.pair k = s.pair k := (h.pair k).trans (if_neg hk)
  have hwrite : ∀ (v : Option PairContext), v = (s.pair k).bind PairContext.afterTick → ∀ j,
      (t.setPair k v).pair j = if j ∈ ks ++ [k] then (s.pair j).bind PairContext.afterTick else s.pair j := by
    intro v hv j
    rw [pair_setPair h.wf, h.pair]
    by_cases hj : j = k
    · rw [if_pos hj, if_pos (by simp [hj]), hv, hj]
    · rw [if_neg hj]
      simp [hj]
  have hsame : s.pairEnd k = none → (ks ++ [k]).filterMap s.pairEnd = ks.filterMap s.pairEnd := by
    intro hend
    rw [List.filterMap_append, List.filterMap_cons_none hend, List.filterMap_nil, List.append_nil]
  unfold tickSlot
  rw [hpair]
  cases hc : s.pair k with
  | none =>
    have hend : s.pairEnd k = none := by rw [State.pairEnd, hc]; rfl
    refine ⟨by rw [hsame hend]; exact h.frame, h.wf, fun j => ?_⟩
    rw [h.pair]
    by_cases hj : j = k
    · rw [hj, if_neg hk, if_pos (by simp), hc]
      rfl
    · simp [hj]
  | some c =>
    dsimp only
    by_cases hends : c.held = false ∧ c.seconds ≤ 1
    · have hend : s.pairEnd k = some (.pairTable, c.station, c.sequence, .pairTimeout) := by
        rw [State.pairEnd, hc]
        exact if_pos hends
      have hdenied : deniedEach ((ks ++ [k]).filterMap s.pairEnd) s =
          deniedAt .pairTable c.station c.sequence .pairTimeout (deniedEach (ks.filterMap s.pairEnd) s) := by
        rw [List.filterMap_append, deniedEach_append, List.filterMap_cons_some hend]
        rfl
      have hreport := deniedAt_of_same (s := deniedEach (ks.filterMap s.pairEnd) s) (u := t.setPair k none)
        (congrArg State.verdicts h.frame :) (congrArg State.stations h.frame :)
        ((congrArg State.notices h.frame :).trans (deniedEach_notices _ s).symm)
        .pairTable c.station c.sequence .pairTimeout
      have hafter : none = (s.pair k).bind PairContext.afterTick := by
        rw [hc]
        exact (if_pos hends).symm
      rw [if_pos hends, expirePair, denyReservation_eq, hreport, ← hdenied]
      refine ⟨?_, Table.wf_set _ h.wf k none, hwrite none hafter⟩
      conv_lhs => rw [h.frame]
      rfl
    · have hend : s.pairEnd k = none := by
        rw [State.pairEnd, hc]
        exact if_neg hends
      have hafter : some { c with seconds := c.seconds - 1 } = (s.pair k).bind PairContext.afterTick := by
        rw [hc]
        exact (if_neg hends).symm
      rw [if_neg hends]
      refine ⟨?_, Table.wf_set _ h.wf k _, hwrite _ hafter⟩
      rw [hsame hend]
      conv_lhs => rw [h.frame]
      rfl

theorem PairsTicked.foldl (js : List Nat) : ∀ {ks : List Nat} {t : State}, PairsTicked ks s t → (ks ++ js).Nodup →
    PairsTicked (ks ++ js) s (js.foldl tickSlot t) := by
  induction js with
  | nil =>
    intro ks t h _
    rw [List.append_nil]
    exact h
  | cons j js ih =>
    intro ks t h hn
    have hj : j ∉ ks := fun hmem => (List.nodup_append.mp hn).2.2 j hmem j List.mem_cons_self rfl
    have := ih (h.tick hj) (by rwa [List.append_assoc, List.singleton_append])
    rwa [List.append_assoc, List.singleton_append] at this

end

theorem openPairs_nodup (s : State) : s.openPairs.Nodup := by
  refine List.Nodup.filter _ ?_
  unfold numbersFrom
  exact (List.nodup_range).map (fun a b h => by simpa using h)

theorem tickPairs_ticked {s : State} (hw : s.tablesWf = true) : PairsTicked s.openPairs s (tickPairs s) := by
  have hstart : PairsTicked [] s s := ⟨rfl, ((tablesWf_iff s).mp hw).2.2.2.2, fun _ => by simp⟩
  exact hstart.foldl s.openPairs (openPairs_nodup s)

/-- The FREE slots end nothing. -/
theorem filterMap_openPairs (s : State) : s.openPairs.filterMap s.pairEnd = (numbersFrom 1 8).filterMap s.pairEnd := by
  unfold State.openPairs
  rw [List.filterMap_filter]
  refine List.filterMap_congr fun k _ => ?_
  split
  · rfl
  · rename_i hk
    rw [State.pairEnd, Option.not_isSome_iff_eq_none.mp hk]
    rfl

/-! ## The second tick to the approvals (R119) -/

/-- The reservation of an approval that a tick ends. -/
def ReferralEntry.tickEnd (e : ReferralEntry) : Option (Block × Nat × Sequence × DenyReason) :=
  match e.kind with
  | .approval _ st n _ =>
    if (st = .waiting ∨ st = .taken) ∧ n ≤ 1 then some (.referralQueue, e.station, e.sequence, .referralTimeout) else none
  | .hotCard _ => none

theorem endedByTick_eq (s : State) :
    endedByTick s = (numbersFrom 1 8).filterMap s.pairEnd ++ s.referrals.filterMap ReferralEntry.tickEnd := rfl

theorem afterTick_reference {e x : ReferralEntry} (h : afterTick e = some x) : x.reference = e.reference := by
  unfold afterTick at h
  split at h
  · split at h
    · cases h
    · cases h
      rfl
  · split at h
    · cases h
    · cases h
      rfl
  all_goals
    cases h
    rfl

/-- The tick of an entry ends a WAITING or TAKEN approval that it brings to 0, lowers the count of any other, and leaves the
rest as they are. -/
theorem tick_cases (e : ReferralEntry) (s : State) :
    (tickEntry s e = timeoutApproval e s ∧ afterTick e = none ∧
      e.tickEnd = some (.referralQueue, e.station, e.sequence, .referralTimeout)) ∨
    (∃ x, tickEntry s e = writeReferral x s ∧ afterTick e = some x ∧ e.tickEnd = none) ∨
    (tickEntry s e = s ∧ afterTick e = some e ∧ e.tickEnd = none) := by
  obtain ⟨reference, station, credential, room, sequence, created, kind⟩ := e
  cases kind with
  | hotCard shown => exact .inr (.inr ⟨rfl, rfl, rfl⟩)
  | approval h st n cl =>
    by_cases hn : n ≤ 1
    · cases st with
      | waiting | taken =>
        refine .inl ⟨?_, if_pos hn, if_pos ⟨by simp, hn⟩⟩
        simp only [tickEntry, ReferralEntry.approval?, ApprovalState.closable, if_pos hn, if_true]
      | opening | answering => exact .inr (.inr ⟨rfl, rfl, rfl⟩)
    · cases st with
      | waiting | taken =>
        refine .inr (.inl ⟨_, ?_, if_neg hn, if_neg (fun h => hn h.2)⟩)
        simp only [tickEntry, ReferralEntry.approval?, ApprovalState.closable, if_neg hn, if_true]
        rfl
      | opening | answering => exact .inr (.inr ⟨rfl, rfl, rfl⟩)

/-- The tick of one entry among others. -/
theorem tickEntry_eq {l1 l2 : List ReferralEntry} {e : ReferralEntry} {s : State} (h : StandsIn l1 l2 e s) :
    tickEntry s e = { s with
      verdicts := (deniedEach e.tickEnd.toList s).verdicts, stations := (deniedEach e.tickEnd.toList s).stations
      referrals := l1 ++ (afterTick e).toList ++ l2 } := by
  obtain ⟨ht, ha, he⟩ | ⟨x, ht, ha, he⟩ | ⟨ht, ha, he⟩ := tick_cases e s
  · have hreport := deniedAt_of_same (s := s) (u := dropReferral e.reference s) rfl rfl rfl .referralQueue e.station
      e.sequence .referralTimeout
    rw [ht, ha, he, timeoutApproval, denyReservation_eq, hreport, h.dropReferral]
    simp only [Option.toList_none, List.append_nil]
    rfl
  · rw [ht, ha, he, h.writeReferral (afterTick_reference ha), Option.toList_some, List.append_assoc]
    rfl
  · rw [ht, ha, he, Option.toList_some, List.append_assoc, List.singleton_append, ← h.split]
    rfl

/-- The ticks of the entries that stand behind those already ticked. -/
theorem foldl_tickEntry (rest : List ReferralEntry) : ∀ {before : List ReferralEntry} {s : State},
    s.referrals = before ++ rest → ((before ++ rest).map (·.reference)).Nodup →
    rest.foldl tickEntry s = { s with
      verdicts := (deniedEach (rest.filterMap ReferralEntry.tickEnd) s).verdicts
      stations := (deniedEach (rest.filterMap ReferralEntry.tickEnd) s).stations
      referrals := before ++ rest.filterMap afterTick } := by
  induction rest with
  | nil =>
    intro before s hs _
    show s = { s with referrals := before ++ [] }
    rw [← hs]
  | cons e rest ih =>
    intro before s hs hn
    have hstands : StandsIn before rest e s := by
      refine ⟨hs, fun x hx hxe => ?_⟩
      rw [List.map_append, List.map_cons, List.nodup_middle, List.nodup_cons, ← List.map_append] at hn
      exact hn.1 (hxe ▸ List.mem_map_of_mem hx)
    have hends : (e :: rest).filterMap ReferralEntry.tickEnd = e.tickEnd.toList ++ rest.filterMap ReferralEntry.tickEnd := by
      cases he : e.tickEnd with
      | none => rw [List.filterMap_cons_none he]; rfl
      | some x => rw [List.filterMap_cons_some he]; rfl
    have hafters : (e :: rest).filterMap afterTick = (afterTick e).toList ++ rest.filterMap afterTick := by
      cases he : afterTick e with
      | none => rw [List.filterMap_cons_none he]; rfl
      | some x => rw [List.filterMap_cons_some he]; rfl
    have hnext : ((before ++ (afterTick e).toList ++ rest).map (·.reference)).Nodup := by
      cases he : afterTick e with
      | none =>
        rw [Option.toList_none, List.append_nil]
        rw [List.map_append, List.map_cons, List.nodup_middle, List.nodup_cons, ← List.map_append] at hn
        exact hn.2
      | some x =>
        simp only [Option.toList_some, List.append_assoc, List.singleton_append, List.map_append, List.map_cons,
          afterTick_reference he]
        rwa [List.map_append, List.map_cons] at hn
    have htick := tickEntry_eq hstands
    have hrest := ih (s := tickEntry s e) (congrArg State.referrals htick :) hnext
    have hdenied := deniedEach_of_same (rest.filterMap ReferralEntry.tickEnd) (s := deniedEach e.tickEnd.toList s)
      (u := tickEntry s e) (congrArg State.verdicts htick :) (congrArg State.stations htick :)
      ((congrArg State.notices htick :).trans (deniedEach_notices _ s).symm)
    rw [List.foldl_cons, hrest, hdenied, hends, hafters, deniedEach_append, List.append_assoc]
    conv_lhs => rw [htick]

/-! ## The second boundary (R27, R28, R35) -/

/-- What the blocks make of a second tick, while they run. -/
theorem ticks_eq {s : State} (hw : s.tablesWf = true) (hq : s.queuesOk = true) : ∃ P : Table (Option PairContext),
    tickReferrals (tickPairs s) = { s with
      verdicts := (deniedEach (endedByTick s) s).verdicts, stations := (deniedEach (endedByTick s) s).stations
      pairs := P, referrals := s.referrals.filterMap afterTick } ∧
    ∀ k, 1 ≤ k → k ≤ 8 → Table.get none P k = (s.pair k).bind PairContext.afterTick := by
  have hp := tickPairs_ticked hw
  generalize tickPairs s = t at hp
  have hnodup : ((([] : List ReferralEntry) ++ t.referrals).map (·.reference)).Nodup := by
    rw [show t.referrals = s.referrals from (congrArg State.referrals hp.frame :)]
    simp only [State.queuesOk, Bool.and_eq_true, decide_eq_true_eq] at hq
    exact hq.2
  have hr := foldl_tickEntry t.referrals (before := []) (s := t) rfl hnodup
  refine ⟨t.pairs, ?_, fun k h1 h8 => ?_⟩
  · have hdenied := deniedEach_of_same (t.referrals.filterMap ReferralEntry.tickEnd)
      (s := deniedEach (s.openPairs.filterMap s.pairEnd) s) (u := t)
      (congrArg State.verdicts hp.frame :) (congrArg State.stations hp.frame :)
      ((congrArg State.notices hp.frame :).trans (deniedEach_notices _ s).symm)
    rw [tickReferrals, hr, hdenied, show t.referrals = s.referrals from (congrArg State.referrals hp.frame :),
      ← deniedEach_append, filterMap_openPairs, ← endedByTick_eq]
    conv_lhs => rw [hp.frame]
    rfl
  · refine (hp.pair k).trans ?_
    split
    · rfl
    · rename_i hk
      have hfree : s.pair k = none := by
        by_contra hs
        exact hk (mem_openPairs.mpr ⟨⟨h1, h8⟩, Option.isSome_iff_ne_none.mpr hs⟩)
      rw [hfree]
      rfl

theorem applyTrim_undamaged {s : State} (hc : s.trim.clean = true) : applyTrim s = { s with
    trim := if s.trim.value = none then s.trim else .of none
    secondLength := (s.trim.value.map (fun ms => (1000 - ms).toNat)).getD 1000 } := by
  have hread : readTrim s = (s.trim.value, s) := readVoted_clean hc
  unfold applyTrim
  rw [hread]
  cases s.trim.value <;> rfl

/-- The boundary itself: the calendar advances, and a pending trim is applied (R27, R35). -/
def State.advanced (s : State) : State :=
  { s with
    clock := .of ⟨s.clock.value.calendar.nextSecond, s.clock.value.isSet⟩
    trim := if s.trim.value = none then s.trim else .of none
    secondLength := (s.trim.value.map (fun ms => (1000 - ms).toNat)).getD 1000 }

section
variable {s : State}

theorem advanced_of_no_trim (h : s.trim.value = none) : s.advanced.trim = s.trim ∧ s.advanced.secondLength = 1000 :=
  ⟨if_pos h, by unfold State.advanced; rw [h]; rfl⟩

theorem advanced_of_trim {ms : Int} (h : s.trim.value = some ms) :
    s.advanced.trim = .of none ∧ s.advanced.secondLength = (1000 - ms).toNat :=
  ⟨if_neg (by rw [h]; nofun), by unfold State.advanced; rw [h]; rfl⟩

/-- The boundary brings a minute boundary for the Window Sweep: second 0, with the clock SET (R28). -/
def State.minuteBoundary (s : State) : Bool :=
  decide (s.clock.value.calendar.nextSecond.second = 0) && s.clock.value.isSet

theorem exec_secondBoundary_eq (hu : s.undamaged = true) :
    exec .secondBoundary s = .next (deliverTick s.minuteBoundary s.advanced) := by
  have hdef : exec .secondBoundary s = execSecondBoundary s := rfl
  rw [hdef, execSecondBoundary, readClockItem_undamaged hu]
  exact congrArg (fun u => Host.Outcome.next (deliverTick s.minuteBoundary u))
    (applyTrim_undamaged (s := { s with clock := .of { s.clock.value with calendar := s.clock.value.calendar.nextSecond } })
      (Undamaged.of hu).trim)

/-- The state once the contexts and the approvals have taken the tick, with `P` for the contexts. -/
def State.ticked (s : State) (P : Table (Option PairContext)) : State :=
  { s.advanced with
    verdicts := (deniedEach (endedByTick s) s).verdicts, stations := (deniedEach (endedByTick s) s).stations
    pairs := P, referrals := s.referrals.filterMap afterTick }

/-- While the blocks run, they take the tick, and a minute boundary tells the Window Sweep. -/
theorem deliverTick_awake (hw : s.tablesWf = true) (hq : s.queuesOk = true) (ha : s.awake = true) (minute : Bool) :
    ∃ P : Table (Option PairContext), (∀ k, 1 ≤ k → k ≤ 8 → Table.get none P k = (s.pair k).bind PairContext.afterTick) ∧
      deliverTick minute s.advanced =
        if minute then (s.ticked P).sweepTold s.clock.value.calendar.nextSecond.minute else s.ticked P := by
  obtain ⟨P, heq, hP⟩ := ticks_eq (s := s.advanced) hw hq
  have hdenied := deniedEach_of_same (endedByTick s) (s := s) (u := s.advanced) rfl rfl rfl
  have hticked : tickReferrals (tickPairs s.advanced) = s.ticked P := by
    rw [heq, show endedByTick s.advanced = endedByTick s from rfl, hdenied]
    rfl
  have htrigger : sweepTrigger (s.ticked P) = (s.ticked P).sweepTold s.clock.value.calendar.nextSecond.minute :=
    (sweepTrigger_eq (Voted.clean_of _)).trans
      (congrArg (fun c : ClockItem => (s.ticked P).sweepTold c.calendar.minute) (Voted.value_of _))
  refine ⟨P, hP, ?_⟩
  unfold deliverTick
  rw [if_pos (show s.advanced.awake = true from ha), hticked]
  cases minute with
  | true => exact htrigger
  | false => rfl

theorem deliverTick_asleep (ha : s.awake = false) (minute : Bool) : deliverTick minute s = s :=
  if_neg (Bool.eq_false_iff.mp ha)

/-- Beside the boundary's own part, the contexts, the approvals, their verdicts and the sweep alone may change. -/
theorem deliverTick_frame (hw : s.tablesWf = true) (hq : s.queuesOk = true) (minute : Bool) :
    deliverTick minute s.advanced = { s.advanced with
      pairs := (deliverTick minute s.advanced).pairs, referrals := (deliverTick minute s.advanced).referrals
      verdicts := (deliverTick minute s.advanced).verdicts, stations := (deliverTick minute s.advanced).stations
      sweep := (deliverTick minute s.advanced).sweep, resweep := (deliverTick minute s.advanced).resweep } := by
  cases ha : s.awake with
  | true =>
    obtain ⟨P, -, heq⟩ := deliverTick_awake hw hq ha minute
    rw [heq]
    cases minute <;> rfl
  | false => rw [deliverTick_asleep (s := s.advanced) ha]

end

/-- Settles O21: the boundary's own part, and then the ticks, where the blocks run. -/
theorem secondBoundaryAdvancesTheClock : Obligations.SecondBoundaryAdvancesTheClock := by
  unfold Obligations.SecondBoundaryAdvancesTheClock
  rintro s c hu hw hq rfl
  have hf := deliverTick_frame hw hq s.minuteBoundary
  refine ⟨_, exec_secondBoundary_eq hu, (congrArg State.clock hf :), fun h => ?_, fun ms h => ?_, fun ha => ?_, fun ha => ?_,
    (congrArg State.grants hf :), (congrArg State.rooms hf :), (congrArg State.presence hf :),
    (congrArg State.barEntries hf :), (congrArg State.requests hf :), (congrArg State.seat hf :),
    (congrArg State.notices hf :), (congrArg State.mode hf :), (congrArg State.tamper hf :),
    (congrArg State.attention hf :), (congrArg State.window hf :)⟩
  · obtain ⟨h1, h2⟩ := advanced_of_no_trim h
    exact ⟨(congrArg State.trim hf :).trans h1, (congrArg State.secondLength hf :).trans h2⟩
  · obtain ⟨h1, h2⟩ := advanced_of_trim h
    exact ⟨(congrArg State.trim hf :).trans h1, (congrArg State.secondLength hf :).trans h2⟩
  · rw [deliverTick_asleep (s := s.advanced) ha]
    exact ⟨rfl, rfl, rfl, rfl, rfl, rfl⟩
  · obtain ⟨P, hP, heq⟩ := deliverTick_awake hw hq ha s.minuteBoundary
    rw [heq]
    by_cases hm : s.minuteBoundary = true
    · rw [if_pos hm]
      simp only [State.minuteBoundary, Bool.and_eq_true, decide_eq_true_eq] at hm
      refine ⟨hP, rfl, rfl, rfl, fun _ _ => ⟨rfl, rfl⟩, fun hno => ?_⟩
      rcases hno with h | h
      · exact absurd hm.1 h
      · exact absurd hm.2 (Bool.eq_false_iff.mp h)
    · rw [if_neg hm]
      refine ⟨hP, rfl, rfl, rfl, fun h1 h2 => absurd ?_ hm, fun _ => ⟨rfl, rfl⟩⟩
      simp only [State.minuteBoundary, Bool.and_eq_true, decide_eq_true_eq]
      exact ⟨h1, h2⟩

end Sys2Proof.Machine

namespace Sys2Proof.Machine
open Sys2Proof

/-! ## The records of an admission (R57, R59) -/

/-- The free records an admission takes rise, and are not in use. -/
theorem freeRecordsFrom_spec (s : State) (count : Nat) : ∀ k n,
    (s.freeRecordsFrom count k n).Pairwise (· < ·) ∧
      ∀ j ∈ s.freeRecordsFrom count k n, k ≤ j ∧ (s.index j).inUse = false := by
  induction count with
  | zero => exact fun _ _ => ⟨List.Pairwise.nil, fun _ h => absurd h List.not_mem_nil⟩
  | succ count ih =>
    intro k n
    unfold State.freeRecordsFrom
    split_ifs with hn hin
    · exact ⟨List.Pairwise.nil, fun _ h => absurd h List.not_mem_nil⟩
    · obtain ⟨hp, hm⟩ := ih (k + 1) n
      exact ⟨hp, fun j hj => ⟨by have := (hm j hj).1; omega, (hm j hj).2⟩⟩
    · obtain ⟨hp, hm⟩ := ih (k + 1) (n - 1)
      refine ⟨List.pairwise_cons.mpr ⟨fun j hj => (hm j hj).1, hp⟩, fun j hj => ?_⟩
      rcases List.mem_cons.mp hj with rfl | hj
      · exact ⟨le_rfl, Bool.eq_false_iff.mpr hin⟩
      · exact ⟨by have := (hm j hj).1; omega, (hm j hj).2⟩

theorem freeRecords_nodup (s : State) (n : Nat) : (s.freeRecords n).Nodup :=
  (freeRecordsFrom_spec s _ _ n).1.imp Nat.ne_of_lt

theorem freeRecords_idle {s : State} {n id : Nat} (h : id ∈ s.freeRecords n) : (s.index id).inUse = false :=
  ((freeRecordsFrom_spec s _ _ n).2 id h).2

/-- The record of an entrant at a place of a room's list. -/
def Entrant.placed (e : Entrant) (r place : Nat) (now : Minute) : PresenceRecord :=
  ⟨.of ⟨true, r, place, e.role, false, e.useTaken, false⟩,
    .of ⟨e.credential, some e.handle, now, e.station, e.partner, e.conditions⟩⟩

theorem Entrant.placed_undamaged (e : Entrant) (r place : Nat) (now : Minute) : (e.placed r place now).undamaged = true := by
  simp [Entrant.placed, PresenceRecord.undamaged, Stored.good]

/-- The records of an admission, with the numbers they get. -/
def tailRecords (r : Nat) (now : Minute) : List Nat → List Entrant → Nat → List (Nat × PresenceRecord)
  | id :: ids, e :: es, place => (id, e.placed r place now) :: tailRecords r now ids es (place + 1)
  | [], _, _ => []
  | _ :: _, [], _ => []

theorem fillRecords_eq (r : Nat) (now : Minute) (ids : List Nat) : ∀ (es : List Entrant) (place : Nat) (s : State),
    fillRecords r now ids es place s =
      (tailRecords r now ids es place).foldl (fun s p => s.setRecord p.1 p.2) s := by
  induction ids with
  | nil => exact fun _ _ _ => by unfold fillRecords; rfl
  | cons id ids ih =>
    intro es place s
    cases es with
    | nil => rfl
    | cons e es => exact ih es (place + 1) _

theorem tailRecords_keys (r : Nat) (now : Minute) (ids : List Nat) : ∀ (es : List Entrant) (place : Nat),
    ((tailRecords r now ids es place).map Prod.fst).Sublist ids := by
  induction ids with
  | nil => exact fun _ _ => by unfold tailRecords; exact List.Sublist.refl _
  | cons id ids ih =>
    intro es place
    cases es with
    | nil => exact List.nil_sublist _
    | cons e es => exact (ih es (place + 1)).cons_cons id

theorem tailRecords_undamaged (r : Nat) (now : Minute) (ids : List Nat) : ∀ (es : List Entrant) (place : Nat),
    ∀ p ∈ tailRecords r now ids es place, p.2.undamaged = true := by
  induction ids with
  | nil => exact fun _ _ _ h => absurd h (by unfold tailRecords; exact List.not_mem_nil)
  | cons id ids ih =>
    intro es place p hp
    cases es with
    | nil => exact absurd hp List.not_mem_nil
    | cons e es =>
      rcases List.mem_cons.mp hp with rfl | hp
      · exact e.placed_undamaged r place now
      · exact ih es (place + 1) p hp

/-- Records written, each number once. -/
structure Filled (new : List (Nat × PresenceRecord)) (s t : State) : Prop where
  change : PoolChange false s t
  rooms : t.rooms = s.rooms
  written : ∀ p ∈ new, t.record p.1 = p.2
  others : ∀ k, k ∉ new.map Prod.fst → t.record k = s.record k

theorem foldl_setRecord (new : List (Nat × PresenceRecord)) : ∀ {s : State}, Whole s → (∀ p ∈ new, p.2.undamaged = true) →
    (new.map Prod.fst).Nodup → Filled new s (new.foldl (fun s p => s.setRecord p.1 p.2) s) := by
  induction new with
  | nil => exact fun h _ _ => ⟨.refl h, rfl, fun _ hp => absurd hp List.not_mem_nil, fun _ _ => rfl⟩
  | cons p new ih =>
    intro s h hclean hn
    obtain ⟨hp, hn⟩ := List.nodup_cons.mp hn
    have hone := setRecord_change h p.1 (hclean p List.mem_cons_self)
    have hrec := record_setRecord (s := s) h.presence_wf p.1 (v := p.2)
    obtain ⟨hchange, hrooms, hwritten, hothers⟩ := ih hone.whole (fun q hq => hclean q (List.mem_cons_of_mem _ hq)) hn
    refine ⟨hone.trans h hchange, hrooms, fun q hq => ?_, fun k hk => ?_⟩
    · rcases List.mem_cons.mp hq with rfl | hq
      · rw [List.foldl_cons, hothers q.1 hp, hrec, if_pos rfl]
      · exact hwritten q hq
    · rw [List.map_cons, List.mem_cons, not_or] at hk
      rw [List.foldl_cons, hothers k hk.2, hrec, if_neg hk.1]

/-! ### The escort count -/

/-- What an admission writes, before any clearing of UNESCORTED. -/
structure RecordsPlaced (r : Nat) (b : RoomBody) (es : List Entrant) (new : List (Nat × PresenceRecord)) (s t : State) :
    Prop where
  change : PoolChange (es.any Entrant.overstay) s t
  written : ∀ p ∈ new, t.record p.1 = p.2
  others : ∀ k, k ∉ new.map Prod.fst → t.record k = s.record k
  room : (t.room r).body.value = { b with escorts := b.escorts + escortsIn es }
  header : (t.room r).header = (s.room r).header
  rooms : ∀ q, q ≠ r → t.room q = s.room q
  same : escortsIn es = 0 → t.rooms = s.rooms

/-- The body of a room that is written through its body. -/
theorem updateRoomBody_spec {s : State} (h : Whole s) (r : Nat) (f : RoomBody → RoomBody) :
    PoolChange false s (updateRoomBody r f s) ∧ (updateRoomBody r f s).presence = s.presence ∧
      ((updateRoomBody r f s).room r).body.value = f (s.room r).body.value ∧
      ((updateRoomBody r f s).room r).header = (s.room r).header ∧
      ∀ q, q ≠ r → (updateRoomBody r f s).room q = s.room q := by
  have hclean : Room.undamaged { s.room r with body := .of (f (s.room r).body.value) } = true := by
    have hx := room_undamaged h.clean r
    simp only [Room.undamaged, Bool.and_eq_true] at hx ⊢
    exact ⟨hx.1, by simp [Stored.good]⟩
  have hset := room_setRoom (s := s) h.rooms_wf r (v := { s.room r with body := .of (f (s.room r).body.value) })
  have hat := (hset r).trans (if_pos rfl)
  exact ⟨setRoom_change h r hclean, rfl, congrArg (fun x => x.body.value) hat, (congrArg (fun x : Room => x.header) hat :),
    fun q hq => (hset q).trans (if_neg hq)⟩

/-- The records an admission writes, with their numbers. -/
def State.tailOf (s : State) (r : Nat) (es : List Entrant) : List (Nat × PresenceRecord) :=
  tailRecords r s.clock.value.calendar.minute (s.freeRecords es.length) es (s.occupancy r + 1)

/-- The escort count of the room they enter. -/
def countEscorts (r : Nat) (es : List Entrant) (s : State) : State :=
  if escortsIn es = 0 then s else updateRoomBody r (fun b => { b with escorts := b.escorts + escortsIn es }) s

theorem placeRecords_eq {s : State} (h : Whole s) (r : Nat) (b : RoomBody) (es : List Entrant) :
    placeRecords r b es s = (s.freeRecords es.length, countEscorts r es (raiseIf (es.any Entrant.overstay) .presenceAlert
      ((s.tailOf r es).foldl (fun s p => s.setRecord p.1 p.2) s))) := by
  unfold placeRecords
  rw [presentMinute_undamaged h.clean]
  dsimp only
  rw [fillRecords_eq]
  rfl

theorem tailOf_undamaged (s : State) (r : Nat) (es : List Entrant) : ∀ p ∈ s.tailOf r es, p.2.undamaged = true :=
  tailRecords_undamaged r _ _ es _

theorem placeRecords_placed {s : State} (h : Whole s) {r : Nat} {b : RoomBody} (hb : (s.room r).body.value = b)
    (es : List Entrant) :
    (placeRecords r b es s).1 = s.freeRecords es.length ∧ RecordsPlaced r b es (s.tailOf r es) s (placeRecords r b es s).2 := by
  rw [placeRecords_eq h]
  have hfill : Filled (s.tailOf r es) s ((s.tailOf r es).foldl (fun s p => s.setRecord p.1 p.2) s) :=
    foldl_setRecord _ h (tailOf_undamaged s r es) ((freeRecords_nodup s _).sublist (tailRecords_keys r _ _ es _))
  generalize s.tailOf r es = new at hfill
  refine ⟨rfl, ?_⟩
  dsimp only
  unfold countEscorts
  generalize new.foldl (fun s p => s.setRecord p.1 p.2) s = u at hfill
  have hraise := raiseIf_marked hfill.change.whole (es.any Entrant.overstay)
  have hchange := hfill.change.trans h hraise.change
  rw [Bool.false_or] at hchange
  have hrooms := hraise.rooms.trans hfill.rooms
  have hrec : ∀ k, (raiseIf (es.any Entrant.overstay) .presenceAlert u).record k = u.record k := fun k =>
    record_ext hfill.change.whole hraise.change.whole (hraise.index k) (hraise.body k)
  generalize raiseIf (es.any Entrant.overstay) .presenceAlert u = v at hchange hrooms hrec
  have hroom : ∀ q, v.room q = s.room q := fun q => by rw [State.room, hrooms]; rfl
  by_cases hno : escortsIn es = 0
  · rw [if_pos hno]
    refine ⟨hchange, fun p hp => (hrec _).trans (hfill.written p hp), fun k hk => (hrec k).trans (hfill.others k hk), ?_,
      by rw [hroom], fun q _ => hroom q, fun _ => hrooms⟩
    rw [hroom, hb, hno]
    rfl
  · rw [if_neg hno]
    obtain ⟨huc, hup, hur, huh, huo⟩ := updateRoomBody_spec hchange.whole r
      (fun b => { b with escorts := b.escorts + escortsIn es })
    have hrec' : ∀ k, (updateRoomBody r (fun b => { b with escorts := b.escorts + escortsIn es }) v).record k = u.record k :=
      fun k => (congrArg (fun t => Table.get PresenceRecord.free t k) hup).trans (hrec k)
    refine ⟨?_, fun p hp => (hrec' _).trans (hfill.written p hp), fun k hk => (hrec' k).trans (hfill.others k hk), ?_,
      huh.trans (by rw [hroom]), fun q hq => (huo q hq).trans (hroom q), fun h0 => absurd h0 hno⟩
    · have := hchange.trans h huc
      rwa [Bool.or_false] at this
    · rw [hur, hroom, hb]

/-! ### UNESCORTED cleared on the records of the room (R57) -/

/-- The body without UNESCORTED. -/
def PresenceBody.escorted (b : PresenceBody) : PresenceBody :=
  { b with conditions := { b.conditions with unescorted := false } }

theorem escorted_acts : ActsAs (clearCondition .unescorted) PresenceBody.escorted (fun _ _ => false)
    (fun _ b => b.conditions.has .unescorted) :=
  fun id _ ht => ⟨clearCondition_marked ht id .unescorted rfl, clearCondition_count id .unescorted _⟩

theorem clearUnescortedOn_marked {s : State} (h : Whole s) {ids : List Nat} (hn : ids.Nodup) :
    Marked (s.bodiesAfter PresenceBody.escorted ids) false s (clearUnescortedOn ids s) :=
  (forReadable_marked escorted_acts h hn).1.congr (fun _ => rfl) (by simp)

/-- What an admission does when its four checks have passed. -/
structure Admitted (r : Nat) (b : RoomBody) (es : List Entrant) (new : List (Nat × PresenceRecord)) (s t : State) :
    Prop where
  change : PoolChange (es.any Entrant.overstay) s t
  index : ∀ p ∈ new, (t.record p.1).index = p.2.index
  body : ∀ p ∈ new, p.2.body.value.conditions.unescorted = false → (t.record p.1).body.value = p.2.body.value
  others : ∀ k, k ∉ new.map Prod.fst → (t.record k).index = (s.record k).index
  bodies : ∀ k, k ∉ new.map Prod.fst → (t.record k).body.value =
    if clearsUnescorted b es = true ∧ (s.index k).inUse = true ∧ (s.index k).room = r ∧ (s.index k).faulted = false then
      (s.record k).body.value.escorted
    else (s.record k).body.value
  room : (t.room r).body.value = { b with escorts := b.escorts + escortsIn es }
  rooms : ∀ q, q ≠ r → t.room q = s.room q
  same : escortsIn es = 0 → t.rooms = s.rooms

theorem PresenceBody.escorted_of_clear {b : PresenceBody} (h : b.conditions.unescorted = false) : b.escorted = b := by
  unfold PresenceBody.escorted
  rw [← h]

theorem admitAll_admitted {s : State} (h : Whole s) {r : Nat} {b : RoomBody} (hb : (s.room r).body.value = b)
    (es : List Entrant) :
    (admitAll r b es s).1 = s.freeRecords es.length ∧
      Admitted r b es (s.tailOf r es) s (admitAll r b es s).2 := by
  obtain ⟨hids, hp⟩ := placeRecords_placed h hb es
  generalize s.tailOf r es = new at hp
  have hdef : admitAll r b es s = ((placeRecords r b es s).1,
      if clearsUnescorted b es then clearUnescorted r (placeRecords r b es s).2 else (placeRecords r b es s).2) := rfl
  rw [hdef]
  refine ⟨hids, ?_⟩
  dsimp only
  generalize (placeRecords r b es s).2 = u at hp
  by_cases hc : clearsUnescorted b es = true
  · rw [if_pos hc]
    have hm := clearUnescortedOn_marked hp.change.whole
      (hp.change.whole.inUseRecords_nodup.filter (fun id => decide ((u.index id).room = r)))
    change Marked (u.bodiesAfter PresenceBody.escorted (u.roomRecords r)) false u (clearUnescorted r u) at hm
    have hchange := hp.change.trans h hm.change
    rw [Bool.or_false] at hchange
    generalize clearUnescorted r u = t at hm hchange
    have hroom : ∀ q, t.room q = u.room q := fun q => by rw [State.room, hm.rooms]; rfl
    refine ⟨hchange, fun p hpn => (hm.index _).trans (by rw [hp.written p hpn]), fun p hpn hun => ?_,
      fun k hk => (hm.index k).trans (by rw [hp.others k hk]), fun k hk => ?_, by rw [hroom, hp.room],
      fun q hq => (hroom q).trans (hp.rooms q hq), fun h0 => hm.rooms.trans (hp.same h0)⟩
    · rw [hm.body, State.bodiesAfter, hp.written p hpn, PresenceBody.escorted_of_clear hun, ite_self]
    · have hidx : u.index k = s.index k := congrArg (fun x => x.index.value) (hp.others k hk)
      simp only [hm.body, State.bodiesAfter, mem_readableOf, mem_roomRecords, hidx, hp.others k hk, hc, true_and, and_assoc]
  · rw [if_neg hc]
    refine ⟨hp.change, fun p hpn => by rw [hp.written p hpn], fun p hpn _ => by rw [hp.written p hpn],
      fun k hk => by rw [hp.others k hk], fun k hk => ?_, hp.room, hp.rooms, hp.same⟩
    rw [hp.others k hk, if_neg (fun hh => hc hh.1)]

/-! ### The checks of an admission (R57) -/

/-- What an admission answers in undamaged storage, check by check. -/
theorem admissionWith_of_unreadable {s : State} (hu : s.undamaged = true) {r : Nat}
    (h : (s.room r).view = .undefined ∨ (s.room r).view = .faulted) (act : Nat → RoomBody → List Entrant → State → List Nat × State)
    (es : List Entrant) : admissionWith act r es s = (.error .roomFault, s) := by
  unfold admissionWith
  rw [scanIndexes_undamaged hu]
  dsimp only
  rw [readRoomRecord_undamaged hu]
  rcases h with hv | hv <;> rw [hv]

section
variable {s : State} {r : Nat} {closed : Bool} {b : RoomBody} {es : List Entrant}
  (hu : s.undamaged = true) (hv : (s.room r).view = .readable closed b)
include hu hv

theorem admissionWith_of_readable (act : Nat → RoomBody → List Entrant → State → List Nat × State) : admissionWith act r es s =
    if (anyLocated es s).1 then (.error .passback, s)
    else if b.limit < s.occupancy r + es.length then (.error .roomFull, s)
    else if (s.freeRecords es.length).length < es.length then (.error .presenceFull, s)
    else (.ok (act r b es s).1, (act r b es s).2) := by
  have hloc : anyLocated es s = ((anyLocated es s).1, s) := Prod.ext rfl (anyLocated_undamaged hu es)
  unfold admissionWith
  rw [scanIndexes_undamaged hu]
  dsimp only
  rw [readRoomRecord_undamaged hu, hv]
  dsimp only
  rw [hloc]

theorem admission_of_readable : admission r es s =
    if (anyLocated es s).1 then (.error .passback, s)
    else if b.limit < s.occupancy r + es.length then (.error .roomFull, s)
    else if (s.freeRecords es.length).length < es.length then (.error .presenceFull, s)
    else (.ok (admitAll r b es s).1, (admitAll r b es s).2) := admissionWith_of_readable hu hv admitAll

theorem admission_of_present (hp : (anyLocated es s).1 = true) : admission r es s = (.error .passback, s) := by
  rw [admission_of_readable hu hv, if_pos hp]

variable (hp : (anyLocated es s).1 = false)
include hp

theorem admission_of_full_room (hf : b.limit < s.occupancy r + es.length) : admission r es s = (.error .roomFull, s) := by
  rw [admission_of_readable hu hv, if_neg (Bool.eq_false_iff.mp hp), if_pos hf]

theorem admission_of_full_pool (hf : s.occupancy r + es.length ≤ b.limit)
    (hl : (s.freeRecords es.length).length < es.length) : admission r es s = (.error .presenceFull, s) := by
  rw [admission_of_readable hu hv, if_neg (Bool.eq_false_iff.mp hp), if_neg (Nat.not_lt.mpr hf), if_pos hl]

theorem admission_granted (hw : s.tablesWf = true) (hf : s.occupancy r + es.length ≤ b.limit) {ids : List Nat}
    (hids : s.freeRecords es.length = ids) (hl : es.length ≤ ids.length) :
    ∃ t, admission r es s = (.ok ids, t) ∧
      Admitted r b es (tailRecords r s.clock.value.calendar.minute ids es (s.occupancy r + 1)) s t := by
  obtain ⟨h1, h2⟩ := admitAll_admitted ⟨hu, hw⟩ (Room.view_readable hv) es
  rw [State.tailOf, hids] at h2
  rw [hids] at h1
  refine ⟨_, ?_, h2⟩
  rw [admission_of_readable hu hv, if_neg (Bool.eq_false_iff.mp hp), if_neg (Nat.not_lt.mpr hf), hids,
    if_neg (Nat.not_lt.mpr hl), h1]

end

theorem unreadable_of_no_body {v : RoomView} (h : ∀ closed b, v ≠ .readable closed b) : v = .undefined ∨ v = .faulted := by
  cases v with
  | undefined => exact .inl rfl
  | faulted => exact .inr rfl
  | readable closed b => exact absurd rfl (h closed b)

theorem anyLocated_iff {s : State} (hu : s.undamaged = true) (es : List Entrant) :
    (anyLocated es s).1 = true ↔ ∃ e ∈ es, s.locateIn e.credential s.inUseRecords ≠ none := by
  induction es with
  | nil => simp [anyLocated]
  | cons e es ih =>
    simp only [anyLocated, locate_undamaged hu, Bool.or_eq_true, ih, List.mem_cons, exists_eq_or_imp,
      Option.isSome_iff_ne_none]

theorem Admitted.attention_of_calm {r : Nat} {b : RoomBody} {es : List Entrant} {new : List (Nat × PresenceRecord)}
    {s t : State} (h : Admitted r b es new s t) (ho : es.any Entrant.overstay = false) : t.attention = s.attention := by
  have hc := h.change
  rw [ho] at hc
  exact (congrArg State.attention hc.frame :)

theorem Admitted.attention_of_overstay {r : Nat} {b : RoomBody} {es : List Entrant} {new : List (Nat × PresenceRecord)}
    {s t : State} (h : Admitted r b es new s t) (ho : es.any Entrant.overstay = true) (ha : s.awake = true) :
    t.attention = s.attention ||| Cause.presenceAlert.word := by
  rw [h.change.attention_of_awake ha, if_pos ho]

theorem Admitted.grants {r : Nat} {b : RoomBody} {es : List Entrant} {new : List (Nat × PresenceRecord)}
    {s t : State} (hs : Whole s) (h : Admitted r b es new s t) : t.grants = s.grants :=
  (congrArg State.grants (h.change.rest hs) :)

theorem Admitted.verdicts {r : Nat} {b : RoomBody} {es : List Entrant} {new : List (Nat × PresenceRecord)}
    {s t : State} (hs : Whole s) (h : Admitted r b es new s t) : t.verdicts = s.verdicts :=
  (congrArg State.verdicts (h.change.rest hs) :)

/-- A new record, as the admission leaves it: no entrant begins UNESCORTED. -/
theorem Admitted.placed_of_mem {r : Nat} {b : RoomBody} {es : List Entrant} {new : List (Nat × PresenceRecord)}
    {s t : State} (h : Admitted r b es new s t) {id place : Nat} {e : Entrant} {now : Minute}
    (hm : (id, e.placed r place now) ∈ new) :
    (t.record id).index.value = ⟨true, r, place, e.role, false, e.useTaken, false⟩ ∧
      (t.record id).body.value =
        ⟨e.credential, some e.handle, now, e.station, e.partner, ⟨e.overstay, false, false, false, false⟩⟩ :=
  ⟨by rw [h.index _ hm, Entrant.placed, Voted.value_of], h.body _ hm rfl⟩

/-! ### One record (R57) -/

theorem escortsIn_single (e : Entrant) : escortsIn [e] = if e.role = .escort then 1 else 0 := by
  unfold escortsIn
  by_cases h : e.role = .escort <;> simp [h]

theorem escortsIn_pair (e1 e2 : Entrant) :
    escortsIn [e1, e2] = (if e1.role = .escort then 1 else 0) + (if e2.role = .escort then 1 else 0) := by
  unfold escortsIn
  by_cases h1 : e1.role = .escort <;> by_cases h2 : e2.role = .escort <;> simp [h1, h2]

theorem clearsUnescorted_single (b : RoomBody) (e : Entrant) :
    clearsUnescorted b [e] = true ↔ e.role = .escort ∧ b.cls = .escorted := by
  unfold clearsUnescorted
  rw [escortsIn_single]
  by_cases h : e.role = .escort <;> simp [h]

theorem anyLocated_eq_false {s : State} (hu : s.undamaged = true) {es : List Entrant}
    (h : ∀ e ∈ es, s.locateIn e.credential s.inUseRecords = none) : (anyLocated es s).1 = false :=
  Bool.eq_false_iff.mpr fun hl =>
    let ⟨e, he, hne⟩ := (anyLocated_iff hu es).mp hl
    hne (h e he)

theorem overstay_single (e : Entrant) : [e].any Entrant.overstay = e.overstay := Bool.or_false _

/-- What an admission of one record leaves (R57). -/
theorem Admitted.single {s t : State} (hs : Whole s) {r id : Nat} {b : RoomBody} {e : Entrant}
    (h : Admitted r b [e] (tailRecords r s.clock.value.calendar.minute [id] [e] (s.occupancy r + 1)) s t) :
    (t.record id).index.value = ⟨true, r, s.occupancy r + 1, e.role, false, e.useTaken, false⟩ ∧
      (t.record id).body.value.credential = e.credential ∧ (t.record id).body.value.handle = some e.handle ∧
      (t.record id).body.value.entered = s.clock.value.calendar.minute ∧
      (t.record id).body.value.station = e.station ∧ (t.record id).body.value.partner = e.partner ∧
      (t.record id).body.value.conditions = ⟨e.overstay, false, false, false, false⟩ ∧
      (∀ k, k ≠ id → (t.record k).index = (s.record k).index) ∧
      (e.role = .contractor → t.rooms = s.rooms) ∧
      (e.role = .escort → (t.room r).body.value = { b with escorts := b.escorts + 1 }) ∧
      (∀ k, k ≠ id → (t.record k).body.value = (if e.role = .escort ∧ b.cls = .escorted ∧
          (s.index k).inUse = true ∧ (s.index k).room = r ∧ (s.index k).faulted = false then
        { (s.record k).body.value with
          conditions := { (s.record k).body.value.conditions with unescorted := false } }
        else (s.record k).body.value)) ∧
      (e.overstay = false → t.attention = s.attention) ∧
      (e.overstay = true → s.awake = true → t.attention = s.attention ||| Cause.presenceAlert.word) ∧
      t.grants = s.grants ∧ t.verdicts = s.verdicts := by
  have hother : ∀ k, k ≠ id →
      k ∉ (tailRecords r s.clock.value.calendar.minute [id] [e] (s.occupancy r + 1)).map Prod.fst :=
    fun k hk => List.mem_singleton.not.mpr hk
  obtain ⟨hindex, hbody⟩ := h.placed_of_mem List.mem_cons_self
  refine ⟨hindex, by rw [hbody], by rw [hbody], by rw [hbody], by rw [hbody], by rw [hbody], by rw [hbody],
    fun k hk => h.others k (hother k hk), fun hrole => h.same ?_, fun hrole => ?_, fun k hk => ?_,
    fun ho => h.attention_of_calm ((overstay_single e).trans ho),
    fun ho => h.attention_of_overstay ((overstay_single e).trans ho), h.grants hs, h.verdicts hs⟩
  · rw [escortsIn_single, hrole, if_neg (by decide)]
  · rw [h.room, escortsIn_single, if_pos hrole]
  · simp only [h.bodies k (hother k hk), clearsUnescorted_single, and_assoc]
    rfl

/-! ### A pair (R57) -/

/-- What an admission of a pair leaves (R57). -/
theorem Admitted.pair {s t : State} (hs : Whole s) {r id1 id2 : Nat} {b : RoomBody} {e1 e2 : Entrant}
    (h : Admitted r b [e1, e2] (tailRecords r s.clock.value.calendar.minute [id1, id2] [e1, e2] (s.occupancy r + 1)) s t) :
    (t.record id1).index.value = ⟨true, r, s.occupancy r + 1, e1.role, false, e1.useTaken, false⟩ ∧
      (t.record id2).index.value = ⟨true, r, s.occupancy r + 2, e2.role, false, e2.useTaken, false⟩ ∧
      (t.record id1).body.value = ⟨e1.credential, some e1.handle, s.clock.value.calendar.minute, e1.station,
        e1.partner, ⟨e1.overstay, false, false, false, false⟩⟩ ∧
      (t.record id2).body.value = ⟨e2.credential, some e2.handle, s.clock.value.calendar.minute, e2.station,
        e2.partner, ⟨e2.overstay, false, false, false, false⟩⟩ ∧
      (∀ k, k ≠ id1 → k ≠ id2 → (t.record k).index = (s.record k).index) ∧
      (escortsIn [e1, e2] = 0 → t.rooms = s.rooms) ∧
      (t.room r).body.value = { b with escorts := b.escorts + escortsIn [e1, e2] } ∧
      (∀ q, q ≠ r → t.room q = s.room q) ∧
      (e1.overstay = false → e2.overstay = false → t.attention = s.attention) ∧
      (e1.overstay = true ∨ e2.overstay = true → s.awake = true →
        t.attention = s.attention ||| Cause.presenceAlert.word) ∧
      t.grants = s.grants ∧ t.verdicts = s.verdicts := by
  obtain ⟨hindex1, hbody1⟩ := h.placed_of_mem List.mem_cons_self
  obtain ⟨hindex2, hbody2⟩ := h.placed_of_mem (List.mem_cons_of_mem _ List.mem_cons_self)
  refine ⟨hindex1, hindex2, hbody1, hbody2, fun k hk1 hk2 => h.others k ?_, h.same, h.room, h.rooms,
    fun ho1 ho2 => h.attention_of_calm (by simp [ho1, ho2]),
    fun ho => h.attention_of_overstay (by simpa using ho), h.grants hs, h.verdicts hs⟩
  simp [tailRecords, hk1, hk2]

/-- Settles O29: the four checks in their order, and what a granted admission of one record or of a pair leaves. -/
theorem admissionPlacesARecord : Obligations.AdmissionPlacesARecord := by
  unfold Obligations.AdmissionPlacesARecord
  refine ⟨fun s r e hu hw => ⟨fun hv => admissionWith_of_unreadable hu (unreadable_of_no_body hv) admitAll [e], fun closed b hv => ?_⟩,
    fun s r e1 e2 closed b n hu hw hv hn => ?_⟩
  · have hout : s.locateIn e.credential s.inUseRecords = none → (anyLocated [e] s).1 = false := fun h =>
      anyLocated_eq_false hu fun e' he' => by rwa [List.mem_singleton.mp he']
    refine ⟨fun hl => admission_of_present hu hv ((anyLocated_iff hu [e]).mpr ⟨e, List.mem_cons_self, hl⟩),
      fun hl hfull => admission_of_full_room hu hv (hout hl) hfull,
      fun hl hroom hfree => admission_of_full_pool hu hv (hout hl) hroom (by simp [hfree]),
      fun id hl hroom hfree => ?_⟩
    obtain ⟨t, ht, hadm⟩ := admission_granted hu hv (hout hl) hw hroom hfree le_rfl
    exact ⟨t, ht, hadm.single ⟨hu, hw⟩⟩
  · rw [← escortsIn_pair] at hn
    subst hn
    refine ⟨fun hl => admission_of_present hu hv ((anyLocated_iff hu _).mpr ?_), fun hl1 hl2 => ?_⟩
    · simpa using hl
    have hout : (anyLocated [e1, e2] s).1 = false := anyLocated_eq_false hu (by simp [hl1, hl2])
    refine ⟨fun hfull => admission_of_full_room hu hv hout hfull,
      fun hroom hfree => admission_of_full_pool hu hv hout hroom hfree, fun id1 id2 hroom hfree => ?_⟩
    obtain ⟨t, ht, hadm⟩ := admission_granted hu hv hout hw hroom hfree le_rfl
    exact ⟨t, ht, hadm.pair ⟨hu, hw⟩⟩

end Sys2Proof.Machine

namespace Sys2Proof.Machine
open Sys2Proof

/-! ## RESETn (R179) -/

/-- The blocks resume, and a sweep in progress is told of the trigger as any is. -/
theorem resumeBlocks_told {s : State} (hs : Whole s) (ha : s.awake = true) : ∃ u, LinesFollowed s.linkStarted u ∧
    resumeBlocks s = if s.clock.value.isSet then u.sweepTold s.clock.value.calendar.minute else u := by
  have hdef : resumeBlocks s = (fun q : ClockItem × State => if q.1.isSet then sweepTrigger q.2 else q.2)
      (readClockItem (takeLinesAfterReset s.linkStarted)) := by
    unfold resumeBlocks
    rw [readConfig_undamaged hs.clean]
    rfl
  have hawake : s.linkStarted.awake = true := by rw [linkStarted_eq]; exact ha
  have hl := takeLinesAfterReset_followed hawake
  refine ⟨_, hl, ?_⟩
  rw [hdef]
  generalize takeLinesAfterReset s.linkStarted = u at hl
  have hframe := hl.frame
  rw [linkStarted_eq] at hframe
  have hclock := congrArg State.clock hframe
  have hu : u.undamaged = true := by rw [hframe]; exact hs.clean
  rw [readClockItem_undamaged hu]
  dsimp only
  rw [hclock, sweepTrigger_eq (Undamaged.of hu).clock, hclock]

/-- What RESETn high leaves of a part that RESETn has kept quiet. -/
structure PinRaised (s t : State) : Prop where
  frame : t = { s with
    resetLow := false, attention := t.attention, resetCauses := 0, linkState := t.linkState, mode := t.mode,
    fireLevel := t.fireLevel, lockdownLevel := t.lockdownLevel, sweep := t.sweep, resweep := t.resweep }
  lines : linesTaken t
  kept : ∀ c : Cause, s.attention.getLsbD c.bit = true ∨ s.resetCauses.getLsbD c.bit = true → t.attention.getLsbD c.bit = true
  link : t.linkState = if s.linkConfig.value.autoStart then .running else s.linkState
  sweep : s.clock.value.isSet = true → s.sweep = none → t.sweep = some ⟨1, s.clock.value.calendar.minute⟩

theorem LinesFollowed.lines {s t : State} (h : LinesFollowed s t) : linesTaken t := by
  obtain ⟨hframe, hmode, -, -⟩ := h
  have hfire := congrArg State.firePin hframe
  have hlock := congrArg State.lockdownPin hframe
  have hover := congrArg State.override hframe
  have hfireLevel := congrArg State.fireLevel hframe
  have hlockLevel := congrArg State.lockdownLevel hframe
  refine ⟨hfireLevel.trans hfire.symm, hlockLevel.trans hlock.symm, hmode.trans ?_⟩
  unfold deriveMode
  rw [hfire, hlock, hover]

/-- The state in which the blocks resume. -/
def State.pinHigh (s : State) : State :=
  { s with resetLow := false, attention := s.attention ||| s.resetCauses, resetCauses := 0 }

theorem resumeBlocks_raised {s : State} (hs : Whole s) (hsup : s.supply = .full) (hr : s.resetting = false) :
    PinRaised s (resumeBlocks s.pinHigh) := by
  have hawake : s.pinHigh.awake = true := (awake_iff _).mpr ⟨(portOn_iff _).mpr ⟨hsup, rfl⟩, hr⟩
  obtain ⟨u, hl, ht⟩ := resumeBlocks_told (s := s.pinHigh) ⟨hs.clean, hs.wf⟩ hawake
  have hlines := hl.lines
  obtain ⟨hframe, -, hkept, -⟩ := hl
  rw [linkStarted_eq] at hframe hkept
  have hor : ∀ c : Cause, s.attention.getLsbD c.bit = true ∨ s.resetCauses.getLsbD c.bit = true →
      u.attention.getLsbD c.bit = true := fun c hc => hkept c ((getLsbD_latch _ _ c).mpr hc)
  have hlink : u.linkState = if s.linkConfig.value.autoStart then .running else s.linkState :=
    (congrArg State.linkState hframe :)
  have hsweep : u.sweep = s.sweep := (congrArg State.sweep hframe :)
  have hclock : s.pinHigh.clock = s.clock := rfl
  rw [ht, hclock]
  by_cases hset : s.clock.value.isSet = true
  · rw [if_pos hset]
    refine ⟨?_, hlines, hor, hlink, fun _ hno => ?_⟩
    · generalize u.mode = m at hframe
      generalize u.attention = a at hframe
      rw [hframe]
      rfl
    · unfold State.sweepTold
      rw [hsweep, hno]
      rfl
  · rw [if_neg hset]
    refine ⟨?_, hlines, hor, hlink, fun h => absurd h hset⟩
    generalize u.mode = m at hframe
    generalize u.attention = a at hframe
    rw [hframe]
    rfl

theorem exec_resetnHigh_of_low {s : State} (hlow : s.resetLow = true) (hsup : s.supply = .full) :
    exec .resetnHigh s = .next (resumeBlocks s.pinHigh) := by
  show Host.Outcome.next _ = _
  unfold State.pinHigh
  rw [if_pos hlow, hsup]

theorem exec_resetnHigh_of_high {s : State} (h : s.resetLow = false) : exec .resetnHigh s = .next s := by
  show Host.Outcome.next _ = _
  rw [if_neg (Bool.eq_false_iff.mp h)]

theorem exec_resetnLow_of_low {s : State} (h : s.resetLow = true) : exec .resetnLow s = .next s := by
  show Host.Outcome.next _ = _
  rw [if_pos h]

theorem exec_resetnLow_of_high {s : State} (h : s.resetLow = false) (hsup : s.supply = .full) :
    exec .resetnLow s = .next (deviceReset { cutByReset s with resetLow := true }) := by
  show Host.Outcome.next _ = _
  rw [if_neg (Bool.eq_false_iff.mp h), hsup]

theorem markedSome_whenLow {s u : State} (h : markedSome s u) :
    markedSome { s with resetLow := true } { u with resetLow := true } := by
  obtain ⟨hsame, hframe, hcauses, hrecords⟩ := h
  refine ⟨fun hno => by rw [hsame hno], ?_, hcauses, hrecords⟩
  generalize u.presence = p1 at hframe
  generalize u.markedTo = p2 at hframe
  generalize u.cuts = p3 at hframe
  generalize u.attention = p4 at hframe
  generalize u.deferred = p5 at hframe
  generalize u.resetCauses = p6 at hframe
  rw [hframe]

/-- A record that stays keeps its credential. -/
theorem bodyAfterRemovals_credential (s : State) (gone : List Nat) (id : Nat) :
    (s.bodyAfterRemovals gone id).credential = (s.record id).body.value.credential := by
  rcases (s.room (s.index id).room).view.readable_or with hv | ⟨closed, b, hv⟩
  · rw [bodyAfterRemovals_of_unreadable hv]
  · rw [bodyAfterRemovals_of_readable hv]
    split <;> rfl

/-- A marking before the reset takes nothing from what the reset keeps. -/
theorem retainedKept_of_marked {s u t : State} (hm : markedSome s u) (hk : resetKeeps u t) : retainedKept s t := by
  obtain ⟨-, hframe, -, hrecords⟩ := hm
  obtain ⟨h1, h2, h3, h4, h5, h6, h7, h8, -, -, h9, -, h10, h11, h12, h13⟩ := hk
  have hindex : ∀ id, u.index id = s.index id := fun id => congrArg Voted.value (hrecords id).1
  have hstation : ∀ k, u.station k = s.station k := fun k =>
    (congrArg (fun x : State => x.station k) hframe :)
  have hroom : ∀ r, u.room r = s.room r := fun r => (congrArg (fun x : State => x.room r) hframe :)
  have hcredential : ∀ id, (u.record id).body.value.credential = (s.record id).body.value.credential := fun id => by
    rcases (hrecords id).2 with hb | ⟨-, -, hb⟩ <;> rw [hb]
  refine ⟨h1.trans (congrArg State.clock hframe :), h2, h3.trans (congrArg State.barHeader hframe :),
    h4.trans (congrArg State.barEntries hframe :), h5.trans (congrArg State.pairWindow hframe :),
    h6.trans (congrArg State.referralTimeout hframe :), h7.trans (congrArg State.linkConfig hframe :),
    h8.trans (congrArg State.health hframe :), fun k => hstation k ▸ h9 k, fun r => hroom r ▸ (h10 r).1,
    fun id => ?_, fun id hin hsent => ?_⟩
  · rw [← hindex]
    cases hin : (u.index id).inUse with
    | false =>
      have hrec := h13 id hin
      rw [State.index, hrec]
      exact hin
    | true =>
      cases hsent : (u.index id).sent with
      | false =>
        rw [State.index, h11 id hin hsent]
        decide
      | true =>
        rw [(h12 id hin hsent).1]
        exact hin
  · rw [← hindex] at hin hsent ⊢
    obtain ⟨hi, hb⟩ := h12 id hin hsent
    rw [hi, hb, bodyAfterRemovals_credential, hcredential]
    exact ⟨rfl, rfl⟩

/-- What RESETn low leaves. -/
structure PinLowered (s t : State) : Prop where
  low : t.resetLow = true
  quiet : t.attention = 0 ∧ t.attentionTaken = none
  idle : t.lastCommand = 0 ∧ t.linkState = .stopped ∧ t.sweep = none ∧ t.mode = .normal ∧ t.fireLevel = false ∧
    t.lockdownLevel = false
  deferred : t.deferred = s.deferred
  blocks : blocksReset t

theorem PinLowered.latches {s t : State} (h : PinLowered s t) : t.latches = 0 := by
  unfold State.latches
  rw [h.quiet.1, h.quiet.2]
  rfl

theorem PinLowered.portOn {s t : State} (h : PinLowered s t) : t.portOn = false := by
  rw [State.portOn, h.low, Bool.not_true, Bool.and_false]

theorem exec_resetnLow_lowered {s : State} (hs : Whole s) (hsup : s.supply = .full) (hlow : s.resetLow = false) :
    ∃ u t, markedSome { s with resetLow := true } u ∧ exec .resetnLow s = .next t ∧ u = { cutByReset s with resetLow := true } ∧
      resetKeeps u t ∧ PinLowered s t := by
  obtain ⟨hvw, hvm, hvd, -⟩ := cutByReset_cut hs
  have hsup' : ({ cutByReset s with resetLow := true } : State).supply = .full :=
    (congrArg State.supply hvm.2.1 : _).trans hsup
  have hr := deviceReset_restarted (x := { cutByReset s with resetLow := true }) ⟨hvw.clean, hvw.wf⟩ hsup'
  obtain ⟨-, hkeeps, hblocks, ⟨-, hpin, -, -, -, -, hdefer⟩, -, ⟨h1, h2, h3, -, h4, h5, h6, h7⟩, -, hquiet⟩ := hr
  exact ⟨_, _, markedSome_whenLow hvm, exec_resetnLow_of_high hlow hsup, rfl, hkeeps,
    hpin, ⟨hquiet rfl, h7⟩, ⟨h1, h2, h3, h4, h5, h6⟩, hdefer.trans (hvd hsup), hblocks⟩

end Sys2Proof.Machine

namespace Sys2Proof.Machine
open Sys2Proof

/-! ## The count of free values drawn (log 53)

An operation on stored items does not read it. Said here once for the steps that a failure of the supply may come between: the
failure draws a value before it cuts. -/

/-- The same state with so many free values drawn. -/
def State.drawn (s : State) (n : Nat) : State := { s with cuts := n }

theorem Whole.drawn {s : State} (h : Whole s) (n : Nat) : Whole (s.drawn n) := ⟨h.clean, h.wf⟩

section
variable (s : State) (n : Nat)

@[simp] theorem drawn_room (r : Nat) : (s.drawn n).room r = s.room r := rfl
@[simp] theorem drawn_record (k : Nat) : (s.drawn n).record k = s.record k := rfl
@[simp] theorem drawn_index (k : Nat) : (s.drawn n).index k = s.index k := rfl
@[simp] theorem drawn_slot (k : Nat) : (s.drawn n).slot k = s.slot k := rfl
@[simp] theorem drawn_station (k : Nat) : (s.drawn n).station k = s.station k := rfl
@[simp] theorem drawn_roomRecords (r : Nat) : (s.drawn n).roomRecords r = s.roomRecords r := rfl
@[simp] theorem drawn_contractors (r : Nat) : (s.drawn n).contractors r = s.contractors r := rfl
@[simp] theorem drawn_inUseRecords : (s.drawn n).inUseRecords = s.inUseRecords := rfl
@[simp] theorem drawn_occupancy (r : Nat) : (s.drawn n).occupancy r = s.occupancy r := rfl
@[simp] theorem drawn_clock : (s.drawn n).clock = s.clock := rfl
@[simp] theorem drawn_setRecord (k : Nat) (v : PresenceRecord) : (s.drawn n).setRecord k v = (s.setRecord k v).drawn n := rfl
@[simp] theorem drawn_setRoom (r : Nat) (v : Room) : (s.drawn n).setRoom r v = (s.setRoom r v).drawn n := rfl
@[simp] theorem drawn_setSlot (k : Nat) (v : Slot) : (s.drawn n).setSlot k v = (s.setSlot k v).drawn n := rfl
@[simp] theorem drawn_setStation (k : Nat) (v : Station) : (s.drawn n).setStation k v = (s.setStation k v).drawn n := rfl

end

/-- In this state the operation keeps the storage in order and does not read the count. -/
structure Blind (f : State → State) (s : State) : Prop where
  whole : Whole (f s)
  drawn : ∀ n, f (s.drawn n) = (f s).drawn n

section
variable {s : State}

theorem Blind.refl (h : Whole s) : Blind (fun x => x) s := ⟨h, fun _ => rfl⟩

theorem Blind.trans {f g : State → State} (hf : Blind f s) (hg : Blind g (f s)) : Blind (fun x => g (f x)) s :=
  ⟨hg.whole, fun n => (congrArg g (hf.drawn n)).trans (hg.drawn n)⟩

/-- An operation that first looks at something else. -/
theorem Blind.of_look {α : Type} {d : State → α} {g : α → State → State} (hd : ∀ n, d (s.drawn n) = d s) (hg : Blind (g (d s)) s) :
    Blind (fun x => g (d x) x) s :=
  ⟨hg.whole, fun n => (congrArg (g · (s.drawn n)) (hd n)).trans (hg.drawn n)⟩

theorem Blind.congr {f g : State → State} (hs : Whole s) (h : ∀ x, Whole x → f x = g x) (hg : Blind g s) : Blind f s :=
  ⟨h s hs ▸ hg.whole, fun n => by rw [h s hs, h _ (hs.drawn n), hg.drawn]⟩

theorem Blind.foldl {β : Type} {f : State → β → State} (l : List β) (hf : ∀ s, Whole s → ∀ x ∈ l, Blind (fun s => f s x) s)
    (hs : Whole s) : Blind (fun s => l.foldl f s) s := by
  induction l generalizing s with
  | nil => exact .refl hs
  | cons x l ih =>
    have hone := hf s hs x List.mem_cons_self
    exact hone.trans (ih (fun s hs y hy => hf s hs y (List.mem_cons_of_mem _ hy)) hone.whole)

end

/-! ### Causes and bodies -/

section
variable {s : State} (h : Whole s)
include h

theorem raise_blind (c : Cause) : Blind (raise c) s := by
  refine ⟨raiseIf_whole h true c, fun n => ?_⟩
  have hd := (Undamaged.of h.clean).deferred
  rw [raise_of_clean (s := s.drawn n) hd, raise_of_clean hd]
  by_cases hs : s.supply = .full
  · rw [if_pos hs, if_pos (by exact hs)]
    by_cases hr : (s.resetLow || s.resetting) = true
    · rw [if_pos hr, if_pos (by exact hr)]
      rfl
    · rw [if_neg hr, if_neg (by exact hr)]
      rfl
  · rw [if_neg hs, if_neg (by exact hs)]
    cases c.deferrable <;> rfl

theorem raiseIf_blind (b : Bool) (c : Cause) : Blind (raiseIf b c) s := by
  cases b
  · exact .refl h
  · exact raise_blind h c

theorem writePresenceBody_blind (id : Nat) (b : PresenceBody) : Blind (writePresenceBody id b) s :=
  ⟨(writePresenceBody_marked h id b).change.whole, fun _ => rfl⟩

theorem setCondition_blind (name : ConditionName) (id : Nat) (b : PresenceBody) :
    Blind (fun s => (setCondition name id b s).2) s := by
  unfold setCondition
  cases b.conditions.has name
  · exact Blind.of_look (d := fun s => (s.index id).sent)
      (g := fun x s => raiseIf (x || name.alertsUnsent) .presenceAlert
        (writePresenceBody id { b with conditions := b.conditions.put true name } s))
      (fun _ => rfl) ((writePresenceBody_blind h id _).trans (raiseIf_blind (writePresenceBody_blind h id _).whole _ _))
  · exact .refl h

theorem clearCondition_blind (name : ConditionName) (id : Nat) (b : PresenceBody) :
    Blind (fun s => (clearCondition name id b s).2) s := by
  unfold clearCondition
  cases b.conditions.has name
  · exact .refl h
  · exact writePresenceBody_blind h id _

/-- The walk over records that can be read. -/
theorem forReadable_blind {act : Nat → PresenceBody → State → Bool × State}
    (hact : ∀ s, Whole s → ∀ id b, Blind (fun s => (act id b s).2) s) (ids : List Nat) :
    Blind (fun s => (forReadable act ids s).2) s := by
  have hstep : ∀ s, Whole s → (forReadable act ids s).2 =
      ids.foldl (fun s id => if (s.index id).faulted then s else (act id (s.record id).body.value s).2) s := by
    induction ids with
    | nil => exact fun _ _ => rfl
    | cons id ids ih =>
      intro s hs
      simp only [forReadable, readPresenceBody_undamaged hs.clean, List.foldl_cons]
      cases (s.index id).faulted
      · exact ih _ (hact s hs id _).whole
      · exact ih s hs
  refine .congr h hstep (.foldl ids (fun s hs id _ => ?_) h)
  refine Blind.of_look (d := fun s => ((s.index id).faulted, (s.record id).body.value))
    (g := fun p s => if p.1 then s else (act id p.2 s).2) (fun _ => rfl) ?_
  dsimp only
  cases (s.index id).faulted
  · exact hact s hs id _
  · exact .refl hs

theorem setUnescortedOn_blind (ids : List Nat) : Blind (setUnescortedOn ids) s :=
  forReadable_blind h (fun _ hs id b => setCondition_blind hs .unescorted id b) ids

theorem clearUnescortedOn_blind (ids : List Nat) : Blind (clearUnescortedOn ids) s :=
  forReadable_blind h (fun _ hs id b => clearCondition_blind hs .unescorted id b) ids

theorem forHoldersIn_blind (g : Handle) {act : Nat → PresenceBody → State → Bool × State}
    (hact : ∀ s, Whole s → ∀ id b, Blind (fun s => (act id b s).2) s) (ids : List Nat) :
    Blind (fun s => (forHoldersIn g act ids s).2) s := by
  refine forReadable_blind h (fun s hs id b => ?_) ids
  by_cases hb : b.handle = some g
  · simp only [if_pos hb]
    exact hact s hs id b
  · simp only [if_neg hb]
    exact .refl hs

theorem readBodies_blind (ids : List Nat) : Blind (readBodies ids) s :=
  forReadable_blind h (fun _ hs _ _ => .refl hs) ids

theorem markCleared_blind (ids : List Nat) : Blind (markCleared ids) s :=
  forReadable_blind h (fun _ hs id b => (writePresenceBody_blind hs id { b with handle := none }).trans
    (setCondition_blind (writePresenceBody_blind hs id { b with handle := none }).whole .grantCleared id _)) ids

/-! ### Rooms and records -/

theorem setRecord_blind (k : Nat) {v : PresenceRecord} (hv : v.undamaged = true) : Blind (fun s => s.setRecord k v) s :=
  ⟨h.setRecord k hv, fun _ => rfl⟩

theorem writeIndex_blind (k : Nat) (i : PresenceIndex) : Blind (writeIndex k i) s :=
  ⟨(writeIndex_change h k i).whole, fun _ => rfl⟩

theorem writeRoomBody_blind (r : Nat) (b : RoomBody) : Blind (writeRoomBody r b) s :=
  ⟨(updateRoomBody_spec h r (fun _ => b)).1.whole, fun _ => rfl⟩

theorem updateRoomBody_blind (r : Nat) (f : RoomBody → RoomBody) : Blind (updateRoomBody r f) s :=
  ⟨(updateRoomBody_spec h r f).1.whole, fun _ => rfl⟩

theorem closeUp_blind (place k : Nat) : Blind (fun s => closeUp place s k) s := by
  refine ⟨(closeUp_closedUp h place k).change.whole, fun n => ?_⟩
  unfold closeUp
  by_cases hp : place < (s.index k).place
  · rw [if_pos hp, if_pos (by exact hp)]
    rfl
  · rw [if_neg hp, if_neg (by exact hp)]

theorem unlinkRecord_blind (id : Nat) : Blind (unlinkRecord id) s :=
  ⟨(unlinkRecord_unlinked h id).change.whole, fun n =>
    (Blind.foldl (f := closeUp (s.index id).place) ((s.setRecord id .free).roomRecords (s.index id).room)
      (fun _ hs k _ => closeUp_blind hs _ k) (h.setRecord id free_undamaged)).drawn n⟩

/-- A taking out, and what it answers. -/
theorem takeOut_blind (id : Nat) : Blind (fun s => (takeOut id s).2) s ∧ ∀ n, (takeOut id (s.drawn n)).1 = (takeOut id s).1 := by
  have hlast : ∀ n, (takeOut id (s.drawn n)).1 = (takeOut id s).1 := fun n => by
    rw [(takeOut_spec h id).2, (takeOut_spec (h.drawn n) id).2]
    rfl
  refine ⟨⟨(takeOut_spec h id).1.change.whole, fun n => ?_⟩, hlast⟩
  have hun := unlinkRecord_blind h id
  simp only [takeOut, readRoomRecord_undamaged h.clean, readRoomRecord_undamaged (h.drawn n).clean, drawn_index, drawn_room,
    hun.drawn]
  cases (s.room (s.index id).room).view with
  | undefined | faulted => rfl
  | readable closed b =>
    by_cases he : (s.index id).role = .escort
    · simp only [if_pos he]
      rfl
    · simp only [if_neg he]

theorem removeRecord_blind (id : Nat) : Blind (removeRecord id) s := by
  obtain ⟨hout, hlast⟩ := takeOut_blind h id
  have hmark : ∀ r, Blind (markUnescorted r) (takeOut id s).2 := fun r =>
    Blind.of_look (d := fun s => s.contractors r) (g := setUnescortedOn) (fun _ => rfl) (setUnescortedOn_blind hout.whole _)
  obtain ⟨_, hw⟩ := (removeRecord_removed h id).change
  refine ⟨hw.whole, fun n => ?_⟩
  simp only [removeRecord, hlast, hout.drawn, drawn_index]
  cases (takeOut id s).1
  · rfl
  · exact (hmark _).drawn n

theorem dropUnsent_blind (id : Nat) : Blind (fun s => dropUnsent s id) s := by
  unfold dropUnsent
  refine Blind.of_look (d := fun s => (s.index id).inUse && !(s.index id).sent) (g := fun b s => if b then removeRecord id s else s)
    (fun _ => rfl) ?_
  cases (s.index id).inUse && !(s.index id).sent
  · exact .refl h
  · exact removeRecord_blind h id

theorem removeUnsent_blind (ids : List Nat) : Blind (removeUnsent ids) s :=
  .congr h (fun _ hs => removeUnsent_eq hs ids) (.foldl ids (fun _ hs id _ => dropUnsent_blind hs id) h)

theorem confirmRecord_eq (id : Nat) : confirmRecord id s = if (s.index id).inUse then
      raiseIf (!(s.index id).faulted && (s.record id).body.value.conditions.reportable) .presenceAlert
        (writeIndex id { s.index id with sent := true } s)
    else s := by
  simp only [confirmRecord, readIndex_undamaged h.clean, readPresenceBody_undamaged h.clean]
  cases (s.index id).faulted <;> rfl

theorem confirmRecord_blind (id : Nat) : Blind (confirmRecord id) s := by
  refine Blind.congr h (fun s hs => confirmRecord_eq hs id) ?_
  refine Blind.of_look (d := fun s => (s.index id, (s.record id).body.value)) (g := fun p s => if p.1.inUse then
    raiseIf (!p.1.faulted && p.2.conditions.reportable) .presenceAlert (writeIndex id { p.1 with sent := true } s)
    else s) (fun _ => rfl) ?_
  dsimp only
  cases (s.index id).inUse
  · exact .refl h
  · exact (writeIndex_blind h id _).trans (raiseIf_blind (writeIndex_blind h id _).whole _ _)

/-- A room that can be read is written through its body. -/
theorem writeReadable_blind (r : Nat) (f : RoomBody → RoomBody) : Blind (fun s =>
    match (s.room r).view with
    | .undefined | .faulted => s
    | .readable _ b => writeRoomBody r (f b) s) s := by
  refine Blind.of_look (d := fun s => (s.room r).view) (g := fun v s => match v with
    | .undefined | .faulted => s
    | .readable _ b => writeRoomBody r (f b) s) (fun _ => rfl) ?_
  cases (s.room r).view with
  | undefined | faulted => exact .refl h
  | readable closed b => exact writeRoomBody_blind h r (f b)

theorem resetRoomBody_blind (r : Nat) : Blind (resetRoomBody r) s := by
  refine .congr h (fun s hs => ?_) (writeReadable_blind h r (fun b => { b with escorts := 0, suspect := false }))
  unfold resetRoomBody
  rewrite [readRoomRecord_undamaged hs.clean]
  cases (s.room r).view <;> rfl

theorem setSuspect_blind (r : Nat) : Blind (setSuspect r) s := by
  refine .congr h (fun s hs => ?_) (writeReadable_blind h r (fun b => { b with suspect := true }))
  unfold setSuspect
  rewrite [readRoomRecord_undamaged hs.clean]
  cases (s.room r).view <;> rfl

/-! ### Grants -/

theorem returnUse_blind (g : Handle) : Blind (returnUse g) s := by
  refine ⟨⟨returnUse_undamaged h.clean, returnUse_tablesWf h.clean h.wf⟩, fun n => ?_⟩
  by_cases hno : (s.slot g.slot).header.value.issue ≠ g.issue ∨ ¬ (s.slot g.slot).takesUse
  · rw [returnUse_of_dropped h.clean hno, returnUse_of_dropped (h.drawn n).clean hno]
  · obtain ⟨hi, ht⟩ := not_or.mp hno
    rw [returnUse_of_taken h.clean (not_not.mp hi) (not_not.mp ht),
      returnUse_of_taken (h.drawn n).clean (not_not.mp hi) (not_not.mp ht)]
    rfl

theorem returnClaims_blind (claims : List Claim) : Blind (returnClaims claims) s :=
  .foldl claims (fun s hs c _ => by
    cases c.useTaken
    · exact .refl hs
    · exact returnUse_blind hs c.handle) h

/-! ### Admissions -/

omit h in
theorem freeRecordsFrom_drawn (n : Nat) (count : Nat) : ∀ k m,
    (s.drawn n).freeRecordsFrom count k m = s.freeRecordsFrom count k m := by
  induction count with
  | zero => exact fun _ _ => rfl
  | succ count ih =>
    intro k m
    unfold State.freeRecordsFrom
    rw [ih, ih, drawn_index]

omit h in
@[simp] theorem drawn_freeRecords (n m : Nat) : (s.drawn n).freeRecords m = s.freeRecords m := freeRecordsFrom_drawn n _ 1 m

omit h in
theorem drawn_tailOf (n r : Nat) (es : List Entrant) : (s.drawn n).tailOf r es = s.tailOf r es := by
  unfold State.tailOf
  rw [drawn_freeRecords, drawn_occupancy, drawn_clock]

theorem countEscorts_blind (r : Nat) (es : List Entrant) : Blind (countEscorts r es) s := by
  unfold countEscorts
  by_cases hno : escortsIn es = 0
  · simp only [if_pos hno]
    exact .refl h
  · simp only [if_neg hno]
    exact updateRoomBody_blind h r _

theorem placeRecords_blind (r : Nat) (b : RoomBody) (es : List Entrant) : Blind (fun s => (placeRecords r b es s).2) s := by
  have hfill : Blind (fun s => (s.tailOf r es).foldl (fun s p => s.setRecord p.1 p.2) s) s :=
    Blind.of_look (d := fun s => s.tailOf r es) (g := fun l s => l.foldl (fun s p => s.setRecord p.1 p.2) s)
      (fun n => drawn_tailOf n r es)
      (.foldl _ (fun s hs p hp => setRecord_blind hs p.1 (tailOf_undamaged _ r es p hp)) h)
  have hraise := hfill.trans (raiseIf_blind hfill.whole (es.any Entrant.overstay) .presenceAlert)
  exact .congr h (fun s hs => congrArg Prod.snd (placeRecords_eq hs r b es)) (hraise.trans (countEscorts_blind hraise.whole r es))

end

/-- The reason an admission is refused with (R57). -/
def State.refusal (s : State) (r : Nat) (es : List Entrant) : Option DenyReason :=
  match (s.room r).view with
  | .undefined | .faulted => some .roomFault
  | .readable _ b =>
    if (anyLocated es s).1 then some .passback
    else if b.limit < s.occupancy r + es.length then some .roomFull
    else if (s.freeRecords es.length).length < es.length then some .presenceFull
    else none

theorem admissionWith_eq {s : State} (hu : s.undamaged = true) (act : Nat → RoomBody → List Entrant → State → List Nat × State)
    (r : Nat) (es : List Entrant) : admissionWith act r es s =
      match s.refusal r es with
      | some reason => (.error reason, s)
      | none => (.ok (act r (s.room r).body.value es s).1, (act r (s.room r).body.value es s).2) := by
  unfold State.refusal
  cases hv : (s.room r).view with
  | undefined => exact admissionWith_of_unreadable hu (.inl hv) act es
  | faulted => exact admissionWith_of_unreadable hu (.inr hv) act es
  | readable closed b =>
    rw [admissionWith_of_readable hu hv, Room.view_readable hv]
    dsimp only
    split_ifs <;> rfl

section
variable {s : State} (h : Whole s)
include h

theorem anyLocated_drawn (n : Nat) (es : List Entrant) : (anyLocated es (s.drawn n)).1 = (anyLocated es s).1 := by
  rw [Bool.eq_iff_iff, anyLocated_iff h.clean, anyLocated_iff (h.drawn n).clean]
  exact Iff.rfl

theorem refusal_drawn (n r : Nat) (es : List Entrant) : (s.drawn n).refusal r es = s.refusal r es := by
  unfold State.refusal
  rw [drawn_room, anyLocated_drawn h, drawn_freeRecords, drawn_occupancy]

theorem placeEntrant_blind (r : Nat) (es : List Entrant) : Blind (fun s => (admissionWith placeRecords r es s).2) s := by
  refine .congr h (fun s hs => congrArg Prod.snd (admissionWith_eq hs.clean placeRecords r es)) ?_
  refine Blind.of_look (d := fun s => (s.refusal r es, (s.room r).body.value)) (g := fun p s =>
    (match p.1 with
      | some reason => ((.error reason, s) : Except DenyReason (List Nat) × State)
      | none => (.ok (placeRecords r p.2 es s).1, (placeRecords r p.2 es s).2)).2)
    (fun n => Prod.ext (refusal_drawn h n r es) rfl) ?_
  dsimp only
  cases s.refusal r es with
  | some reason => exact .refl h
  | none => exact placeRecords_blind h r (s.room r).body.value es

theorem admission_drawn (n r : Nat) (es : List Entrant) : (admission r es (s.drawn n)).1 = (admission r es s).1 := by
  have hids : ∀ (s : State) (b : RoomBody), Whole s → (admitAll r b es s).1 = s.freeRecords es.length := fun s b hs =>
    congrArg Prod.fst (placeRecords_eq hs r b es)
  unfold admission
  rw [admissionWith_eq h.clean, admissionWith_eq (h.drawn n).clean, refusal_drawn h, drawn_room, hids s (s.room r).body.value h,
    hids (s.drawn n) (s.room r).body.value (h.drawn n), drawn_freeRecords]
  cases s.refusal r es with
  | some reason => dsimp only
  | none => dsimp only

/-! ### The steps -/

omit h in
/-- A stored item written afresh. -/
theorem whole_of_items {t : State} (hu : Undamaged t) (hw : t.tablesWf = true) : Whole t := ⟨(undamaged_iff t).mpr hu, hw⟩

theorem readPositions_whole (faulted : List Nat) (count : Nat) : ∀ position, (readPositions faulted count position s).2 = s := by
  induction count with
  | zero => exact fun _ => rfl
  | succ count ih =>
    intro position
    unfold readPositions
    by_cases hf : faulted.contains position = true
    · simp only [if_pos hf, ih]
    · simp only [if_neg hf, readBarEntry_undamaged h.clean, ih]

theorem clearStation_blind (k : Nat) : Blind (RecordStep.clearStation k).run s :=
  ⟨h.setStation k (by rw [Station.undamaged]; exact (by decide : Station.cleared.undamaged = true)), fun _ => rfl⟩

theorem run_blind (x : RecordStep) : Blind x.run s := by
  have hu := Undamaged.of h.clean
  have hg := ((tablesWf_iff s).mp h.wf)
  cases x with
  | removeUnsent id => exact removeUnsent_blind h [id]
  | remove id => exact .congr h (fun x hx => congrArg (removeRecord id) (scanIndexes_undamaged hx.clean)) (removeRecord_blind h id)
  | takeOut id =>
    exact .congr h (fun x hx => congrArg (fun y => (Machine.takeOut id y).2) (scanIndexes_undamaged hx.clean)) (takeOut_blind h id).1
  | setUnescorted id => exact setUnescortedOn_blind h [id]
  | clearUnescorted id => exact clearUnescortedOn_blind h [id]
  | giveBack c => exact returnClaims_blind h [c]
  | readRecord id =>
    exact .congr h (fun x hx => congrArg Prod.snd (readPresenceBody_undamaged hx.clean id)) (.refl h)
  | free id => exact setRecord_blind h id free_undamaged
  | resetRoom r => exact resetRoomBody_blind h r
  | readEntry p => exact .congr h (fun x hx => readPositions_whole hx _ 1 p) (.refl h)
  | emptyBars => exact ⟨whole_of_items { hu with barEntries := rfl, barHeader := Voted.clean_of _ } h.wf, fun _ => rfl⟩
  | confirm id => exact confirmRecord_blind h id
  | placeEntrant r e => exact placeEntrant_blind h r [e]
  | suspect r => exact setSuspect_blind h r
  | cancelTrim => exact ⟨whole_of_items { hu with trim := Voted.clean_of _ } h.wf, fun _ => rfl⟩
  | clearClock => exact ⟨whole_of_items { hu with clock := Voted.clean_of _, trim := Voted.clean_of _ } h.wf, fun _ => rfl⟩
  | clearSlot k => exact ⟨⟨setSlot_undamaged h.clean k (by decide), setSlot_tablesWf h.wf k _⟩, fun _ => rfl⟩
  | clearRoom r => exact ⟨h.setRoom r (by decide), fun _ => rfl⟩
  | clearStation k => exact clearStation_blind h k
  | clearConfig => exact ⟨whole_of_items { hu with linkConfig := Voted.clean_of _ } h.wf, fun _ => rfl⟩
  | clearWindow => exact ⟨whole_of_items { hu with pairWindow := Voted.clean_of _ } h.wf, fun _ => rfl⟩
  | clearTimeout => exact ⟨whole_of_items { hu with referralTimeout := Voted.clean_of _ } h.wf, fun _ => rfl⟩
  | clearHealth => exact ⟨whole_of_items { hu with health := Voted.clean_of _ } h.wf, fun _ => rfl⟩
  | clearTamper => exact ⟨whole_of_items { hu with tamper := Voted.clean_of _ } h.wf, fun _ => rfl⟩
  | clearDeferred => exact ⟨whole_of_items { hu with deferred := Voted.clean_of _ } h.wf, fun _ => rfl⟩

theorem removalParts_eq (id : Nat) : removalParts id s = .takeOut id :: (if s.lastEscort id then
    (((takeOut id s).2).contractors (s.index id).room).map .setUnescorted else []) := by
  unfold removalParts
  rw [scanIndexes_undamaged h.clean]
  dsimp only
  rw [(takeOut_spec h id).2]

theorem removalParts_drawn (n id : Nat) : removalParts id (s.drawn n) = removalParts id s := by
  rw [removalParts_eq h, removalParts_eq (h.drawn n), (takeOut_blind h id).1.drawn]
  rfl

theorem parts_drawn (n : Nat) (x : RecordStep) : x.parts (s.drawn n) = x.parts s := by
  unfold RecordStep.parts
  split
  · exact removalParts_drawn h n _
  · rw [scanIndexes_undamaged h.clean, scanIndexes_undamaged (h.drawn n).clean, removalParts_drawn h, drawn_index]
  · rfl

theorem runSteps_blind (xs : List RecordStep) : Blind (runSteps xs) s := .foldl xs (fun _ hs x _ => run_blind hs x) h

theorem runReached_blind (xs : List RecordStep) (n : Nat) : Blind (runReached n xs) s := by
  induction xs generalizing n s with
  | nil => exact .congr h (fun _ _ => by rw [runReached]) (.refl h)
  | cons x xs ih =>
    refine .congr h (fun s _ => by rw [runReached]) ?_
    refine Blind.of_look (d := x.parts) (g := fun parts s => if parts.length ≤ n then
      runReached (n - parts.length) xs (runSteps parts s) else runSteps (parts.take n) s) (fun m => parts_drawn h m x) ?_
    by_cases hn : (x.parts s).length ≤ n
    · simp only [if_pos hn]
      exact (runSteps_blind h _).trans (ih (runSteps_blind h _).whole _)
    · simp only [if_neg hn]
      exact runSteps_blind h _

/-! ### The walks of the Presence Pool -/

theorem markSome_blind (reached : Nat) : Blind (markSome reached) s := by
  refine .congr h (fun s hs => by rw [markSome, scanIndexes_undamaged hs.clean]) ?_
  refine Blind.of_look (d := fun s => (s.unmarked.take reached, s.markedTo)) (g := fun p s =>
    { markCleared p.1 s with markedTo := (p.1.getLast?.map (· + 1)).getD p.2 }) (fun _ => rfl) ?_
  have hm := markCleared_blind h (s.unmarked.take reached)
  exact hm.trans (g := fun t => { t with markedTo := ((s.unmarked.take reached).getLast?.map (· + 1)).getD s.markedTo })
    ⟨⟨hm.whole.clean, hm.whole.wf⟩, fun _ => rfl⟩

theorem walkPart_blind (x : Notice) (reached : Nat) : Blind (walkPart x reached) s := by
  have hlook : ∀ {g : List Nat → State → State}, (∀ ids, Blind (g ids) s) →
      Blind (fun s => g (s.inUseRecords.take reached) s) s := fun hg =>
    .of_look (d := fun s => s.inUseRecords.take reached) (fun _ => rfl) (hg _)
  unfold walkPart
  cases x with
  | revoke g =>
    exact .congr h (fun s hs => by dsimp only; rw [scanIndexes_undamaged hs.clean]) (hlook
      (g := fun ids s => (forHoldersIn g (setCondition .grantRevoked) ids s).2)
      (forHoldersIn_blind h g (fun _ hs id b => setCondition_blind hs .grantRevoked id b)))
  | overstay g =>
    exact .congr h (fun s hs => by dsimp only; rw [scanIndexes_undamaged hs.clean]) (hlook
      (g := fun ids s => (forHoldersIn g (setCondition .overstay) ids s).2)
      (forHoldersIn_blind h g (fun _ hs id b => setCondition_blind hs .overstay id b)))
  | bar c =>
    exact .congr h (fun s hs => by dsimp only; rw [scanIndexes_undamaged hs.clean]) (hlook (g := readBodies) (readBodies_blind h))
  | unbar c =>
    exact .congr h (fun s hs => by dsimp only; rw [scanIndexes_undamaged hs.clean]) (hlook (g := readBodies) (readBodies_blind h))
  | tamper => exact markSome_blind h reached
  | loss k => exact .refl h
  | stop => exact .refl h
  | stationFault k => exact .refl h
  | mode m => exact .refl h

theorem cutWalk_blind (cut : Option Cut) : Blind (cutWalk cut) s := by
  cases cut with
  | none => exact .refl h
  | some c =>
    refine .congr h (g := fun s => match s.walking c.walk with
      | some x => walkPart x c.reached s
      | none => if c.walk = .retire ∧ s.askingPool = true then readBodies (s.inUseRecords.take c.reached) s else s)
      (fun s hs => by unfold cutWalk; rewrite [scanIndexes_undamaged hs.clean]; rfl) ?_
    refine Blind.of_look (d := fun s => (s.walking c.walk, s.askingPool, s.inUseRecords)) (g := fun p s => match p.1 with
      | some x => walkPart x c.reached s
      | none => if c.walk = .retire ∧ p.2.1 = true then readBodies (p.2.2.take c.reached) s else s) (fun _ => rfl) ?_
    dsimp only
    cases s.walking c.walk with
    | some x => exact walkPart_blind h x c.reached
    | none =>
      dsimp only
      by_cases hr : c.walk = .retire ∧ s.askingPool = true
      · simp only [if_pos hr]
        exact readBodies_blind h _
      · simp only [if_neg hr]
        exact .refl h

end

end Sys2Proof.Machine

namespace Sys2Proof.Machine
open Sys2Proof

/-! ## The steps of the operations in undamaged storage (R160, log 56) -/

section
variable {s : State} (h : Whole s)
include h

theorem findNamed_undamaged : (findNamed s.window s).1 = namedRecord s (roomArg s.window) := by
  unfold findNamed namedRecord
  dsimp only
  rw [locate_undamaged h.clean]
  split
  · rfl
  · change (match s.locateIn _ s.inUseRecords with
      | none => ((none, s) : Option Nat × State)
      | some id => (if (s.index id).room = roomArg s.window then some id else none, s)).1 = _
    unfold credentialArg
    cases s.locateIn (s.window.arg2.truncate 8 ++ s.window.arg1 : BitVec 40) s.inUseRecords with
    | none => rfl
    | some id => simp [Option.filter]

theorem claimOfRecord_eq (id : Nat) : claimOfRecord id s = s.claimOf id := by
  unfold claimOfRecord State.claimOf
  rw [readPresenceBody_undamaged h.clean]
  cases (s.index id).faulted <;> rfl

theorem removePresenceSteps_eq : removePresenceSteps s =
    if removeArgumentsOk s.window then
      match (s.room (roomArg s.window)).view with
      | .undefined | .faulted => []
      | .readable _ _ =>
        match namedRecord s (roomArg s.window) with
        | none => []
        | some id => if (s.index id).sent then [.remove id] else []
    else [] := by
  unfold removePresenceSteps
  rewrite [readRoomRecord_undamaged h.clean, scanIndexes_undamaged h.clean, findNamed_undamaged h]
  rfl

/-- What a device reset's steps are, in the order of its list (R91, R26). -/
theorem resetSteps_eq : resetSteps s = s.claimsInHand.map .giveBack ++
    s.unsentRecords.flatMap (fun id => [.readRecord id, .remove id] ++ (s.claimOf id).map .giveBack) ++ [.cancelTrim] := by
  unfold resetSteps State.claimsInHand State.unsentRecords
  simp only [claimOfRecord_eq h]
  cases s.seat with
  | none => rfl
  | some d =>
    dsimp only
    rw [apply_ite (List.map RecordStep.giveBack)]
    rfl

theorem exitSteps_eq (d : Decision) : exitSteps d s =
    match s.locateIn d.credential s.inUseRecords with
    | none => []
    | some id =>
      (match (s.room (s.index id).room).view with
        | .undefined | .faulted => []
        | .readable _ _ =>
          let entries := entrySteps (fun e => e.holds (PermitData.holdsRecord id)) s
          if (s.index id).sent then [.remove id]
          else if entries.isEmpty then .remove id :: (s.claimOf id).map .giveBack
          else entries) ++
      (if (s.index id).room = d.room then [] else [.suspect d.room, .suspect (s.index id).room]) := by
  unfold exitSteps
  rw [locate_undamaged h.clean]
  cases s.locateIn d.credential s.inUseRecords with
  | none => rfl
  | some id => simp only [readRoomRecord_undamaged h.clean, claimOfRecord_eq h] <;> rfl

theorem answerUndoes_eq (d : Decision) (failed : Option DenyReason) : answerUndoes d failed s =
    match d.work with
    | .request _ => false
    | .answer reference => (pendingClosure reference s).isSome || failed.isSome || (s.placementReason d).isSome := by
  unfold answerUndoes
  rewrite [placementCondition_undamaged h.clean]
  rfl

/-! ### No step depends on the count of free values drawn -/

variable (n : Nat)

theorem removePresenceSteps_drawn : removePresenceSteps (s.drawn n) = removePresenceSteps s := by
  rw [removePresenceSteps_eq h, removePresenceSteps_eq (h.drawn n)]
  rfl

omit h in
theorem insertByPlace_drawn (id : Nat) (ids : List Nat) : insertByPlace (s.drawn n) id ids = insertByPlace s id ids := by
  induction ids with
  | nil => rfl
  | cons j rest ih =>
    unfold insertByPlace
    rw [ih, drawn_index, drawn_index]

omit h in
theorem lastFirst_drawn (ids : List Nat) : lastFirst (s.drawn n) ids = lastFirst s ids :=
  congrArg (fun f => ids.foldr f []) (funext fun id => funext fun l => insertByPlace_drawn n id l)

omit h in
theorem censusSteps_drawn : censusSteps (s.drawn n) = censusSteps s := by
  unfold censusSteps
  dsimp only
  rw [lastFirst_drawn]
  rfl

omit h in
theorem clearSteps_drawn : clearSteps (s.drawn n) = clearSteps s := by
  unfold clearSteps
  rw [lastFirst_drawn]
  rfl

theorem resetSteps_drawn : resetSteps (s.drawn n) = resetSteps s := by
  rw [resetSteps_eq h, resetSteps_eq (h.drawn n)]
  rfl

theorem commandSteps_drawn : commandSteps (s.drawn n) = commandSteps s := by
  unfold commandSteps
  rw [removePresenceSteps_drawn h, censusSteps_drawn, clearSteps_drawn, resetSteps_drawn h]
  rfl

theorem exitSteps_drawn (d : Decision) : exitSteps d (s.drawn n) = exitSteps d s := by
  rw [exitSteps_eq h, exitSteps_eq (h.drawn n)]
  rfl

theorem admissionSteps_drawn (d : Decision) : admissionSteps d (s.drawn n) = admissionSteps d s := by
  unfold admissionSteps
  have hcontext : completingContext d (s.drawn n) = completingContext d s := rfl
  rw [hcontext]
  dsimp only
  rw [admission_drawn h, drawn_room, drawn_roomRecords]

theorem decisionSteps_drawn : decisionSteps (s.drawn n) = decisionSteps s := by
  unfold decisionSteps
  have hseat : (s.drawn n).seat = s.seat := rfl
  rw [hseat]
  cases s.seat with
  | none => rfl
  | some d =>
    dsimp only
    rw [exitSteps_drawn h, admissionSteps_drawn h, readRoomRecord_undamaged h.clean, readRoomRecord_undamaged (h.drawn n).clean,
      placementCondition_undamaged h.clean, placementCondition_undamaged (h.drawn n).clean]
    simp only [answerUndoes_eq h, answerUndoes_eq (h.drawn n)]
    rfl

theorem operationSteps_drawn (w : Walk) : operationSteps w (s.drawn n) = operationSteps w s := by
  unfold operationSteps
  rw [commandSteps_drawn h]
  cases w with
  | decision =>
    unfold blockSteps
    rw [decisionSteps_drawn h]
    rfl
  | _ => rfl

end

/-- A failing supply cuts the same whatever the count of free values drawn. -/
theorem cutOperation_blind {s : State} (h : Whole s) (cut : Option Cut) : Blind (cutOperation cut) s := by
  cases cut with
  | none => exact .refl h
  | some c =>
    refine Blind.of_look (d := operationSteps c.walk) (g := fun steps s => runReached c.reached steps (cutWalk (some c) s))
      (fun n => operationSteps_drawn h n c.walk) ?_
    exact (cutWalk_blind h (some c)).trans (runReached_blind (cutWalk_blind h (some c)).whole _ _)

end Sys2Proof.Machine

namespace Sys2Proof.Machine
open Sys2Proof

/-! ## MAIN_SUPPLY_FAIL (R161) -/

/-- With undamaged storage the link parts take the values that a device reset gives them. -/
theorem vanishStations_eq {s : State} (h : Whole s) : vanishStations s = resetStations s := by
  unfold vanishStations resetStations
  generalize Table.keys s.stations = ks
  induction ks generalizing s with
  | nil => rfl
  | cons k ks ih =>
    rw [List.foldl_cons, List.foldl_cons, resetStation_eq h]
    exact ih (h.setStation k (station_undamaged h.clean k))

theorem blankBlocks_whole {s : State} (h : Whole s) : Whole (blankBlocks s) := by
  obtain ⟨hg, hr, hp, hs, -⟩ := (tablesWf_iff s).mp h.wf
  exact ⟨h.clean, (tablesWf_iff _).mpr ⟨hg, hr, hp, hs, rfl⟩⟩

/-- What becomes of the notices and of a tamper clear in RETAINED-ONLY supply. -/
structure NoticesDropped (s t : State) : Prop where
  frame : t = { s with tamper := t.tamper, markedTo := t.markedTo, notices := t.notices, deferred := t.deferred }
  idle : s.tamper.value.clearing = false → t.tamper = s.tamper ∧ t.deferred = s.deferred
  position : s.markedTo = 0 ∨ (∃ o ∈ s.notices, o.receiver = .presencePool ∧ o.notice = .tamper) → t.markedTo = s.markedTo

theorem dropNotices_off {s : State} (h : Whole s) (hoff : s.supply = .retainedOnly) : NoticesDropped s (dropNotices s) := by
  have hnot : ¬ s.supply = .full := by rw [hoff]; decide
  unfold dropNotices settleTamper
  rw [readTamper_undamaged (s := { s with notices := s.notices.filter Outstanding.survives }) h.clean]
  dsimp only
  by_cases he : s.tamper.value.clearing = true ∧ Config.slots < s.tamper.value.cursor ∧
      (s.notices.filter Outstanding.survives).any (fun o => o.notice.isTamper) = false
  · have hbusy : s.tamper.value.clearing ≠ false := by rw [he.1]; decide
    have hnone : ¬ ∃ o ∈ s.notices, o.receiver = .presencePool ∧ o.notice = .tamper := fun ⟨o, ho, hr, ht⟩ => by
      have hany := he.2.2
      rw [survives_any, List.any_eq_false] at hany
      exact hany o ho (by rw [hr, ht]; rfl)
    rw [if_pos he]
    by_cases hr : s.tamper.value.reclear = true
    · rw [if_pos hr]
      unfold startTamperClear
      have hdef := (Undamaged.of h.clean).deferred
      rw [raise_of_clean (by exact hdef), if_neg (by exact hnot)]
      exact ⟨rfl, fun hh => absurd hh hbusy, fun hp => (hp.resolve_right hnone).symm⟩
    · rw [if_neg hr]
      exact ⟨rfl, fun hh => absurd hh hbusy, fun _ => rfl⟩
  · rw [if_neg he]
    exact ⟨rfl, fun _ => ⟨rfl, rfl⟩, fun _ => rfl⟩

/-- The part once the main supply has failed, with the operation in progress cut. -/
def vanished (s : State) : State := dropNotices (blankBlocks (vanishStations (emptyAttention { s with supply := .retainedOnly })))

/-- What is left when the main supply has failed. -/
structure Vanished (s t : State) : Prop where
  frame : t = { s with
    supply := .retainedOnly, requests := [], seat := none, verdicts := [], pairs := [], referrals := [], referenceCounter := 1,
    retireHold := none, sweep := none, resweep := false, linkState := .stopped, cycle := 0, cyclePlace := .markDue,
    unbindHold := none, portBusy := false, resultCode := .ok, overrun := false, lastCommand := 0, window := {},
    attentionMask := 0, work := none, attention := 0, attentionTaken := none, resetCauses := 0, mode := .normal,
    override := false, fireLevel := false, lockdownLevel := false, stations := t.stations, tamper := t.tamper,
    markedTo := t.markedTo, notices := t.notices, deferred := t.deferred }
  station : ∀ k, t.station k = (s.station k).linkReset (s.station k).header.value
  idle : s.tamper.value.clearing = false → t.tamper = s.tamper ∧ t.deferred = s.deferred
  position : s.markedTo = 0 ∨ (∃ o ∈ s.notices, o.receiver = .presencePool ∧ o.notice = .tamper) → t.markedTo = s.markedTo

theorem vanished_vanished {s : State} (h : Whole s) : Vanished s (vanished s) := by
  have hoff : Whole (emptyAttention { s with supply := .retainedOnly }) := ⟨h.clean, h.wf⟩
  have hst := resetStations_reset hoff
  unfold vanished
  rw [vanishStations_eq hoff]
  generalize resetStations (emptyAttention { s with supply := .retainedOnly }) = e at hst
  obtain ⟨hew, hef, hstation⟩ := hst
  have hblank := blankBlocks_whole hew
  have hd := dropNotices_off hblank (congrArg State.supply hef :)
  generalize dropNotices (blankBlocks e) = t at hd
  obtain ⟨hframe, hidle, hposition⟩ := hd
  have hstations : t.stations = e.stations := (congrArg State.stations hframe :)
  have htamper : e.tamper = s.tamper := (congrArg State.tamper hef :)
  have hdeferred : e.deferred = s.deferred := (congrArg State.deferred hef :)
  have hmarked : e.markedTo = s.markedTo := (congrArg State.markedTo hef :)
  have hnotices : e.notices = s.notices := (congrArg State.notices hef :)
  refine ⟨?_, fun k => ?_, ?_, ?_⟩
  · rw [hstations]
    rw [hef] at hframe
    exact hframe
  · have ht : t.station k = e.station k := congrArg (Table.get Station.cleared · k) hstations
    exact ht.trans (hstation k)
  · rw [← htamper, ← hdeferred]
    exact hidle
  · rw [← hmarked, ← hnotices]
    exact hposition

theorem exec_mainSupplyFail_of_full {s : State} (hsup : s.supply = .full) :
    exec .mainSupplyFail s = .next (vanished (cutBySupply s)) := by
  show Host.Outcome.next _ = _
  rw [hsup]
  rfl

theorem exec_mainSupplyFail_of_off {s : State} (hsup : s.supply = .retainedOnly) : exec .mainSupplyFail s = .next s := by
  show Host.Outcome.next _ = _
  rw [hsup]

/-- The state the operation in progress has reached when the main supply fails (log 53, 56). -/
def State.reachedAtFailure (s : State) : State := if s.cutDue then cutOperation (Config.cutOf s.cuts) s else s

theorem reachedAtFailure_whole {s : State} (h : Whole s) : Whole s.reachedAtFailure := by
  unfold State.reachedAtFailure
  split
  · exact (cutOperation_blind h _).whole
  · exact h

theorem cutBySupply_eq {s : State} (h : Whole s) : ∃ n, cutBySupply s = s.reachedAtFailure.drawn n := by
  unfold cutBySupply State.reachedAtFailure
  by_cases hd : s.cutDue = true
  · rw [if_pos hd, if_pos hd]
    exact ⟨s.cuts + 1, (cutOperation_blind h _).drawn (s.cuts + 1)⟩
  · rw [if_neg hd, if_neg hd]
    exact ⟨s.cuts, rfl⟩

/-- The failure leaves the retained items as the operation it cuts has left them. -/
theorem exec_mainSupplyFail_vanished {s : State} (h : Whole s) (hsup : s.supply = .full) :
    ∃ n t, exec .mainSupplyFail s = .next t ∧ Vanished (s.reachedAtFailure.drawn n) t := by
  obtain ⟨n, hn⟩ := cutBySupply_eq h
  refine ⟨n, _, exec_mainSupplyFail_of_full hsup, ?_⟩
  rw [hn]
  exact vanished_vanished ((reachedAtFailure_whole h).drawn n)

section
variable {s t : State} (h : Vanished s t)
include h

theorem Vanished.sameRetained : sameRetained s t := by
  obtain ⟨hframe, hstation, -, -⟩ := h
  refine ⟨(congrArg State.clock hframe :), (congrArg State.trim hframe :), (congrArg State.grants hframe :),
    (congrArg State.rooms hframe :), (congrArg State.presence hframe :), (congrArg State.barHeader hframe :),
    (congrArg State.barEntries hframe :), (congrArg State.pairWindow hframe :), (congrArg State.referralTimeout hframe :),
    (congrArg State.linkConfig hframe :), (congrArg State.health hframe :), fun k => ?_⟩
  rw [hstation]
  exact ⟨rfl, rfl⟩

theorem Vanished.blocksReset : blocksReset t := by
  obtain ⟨hframe, hstation, -, -⟩ := h
  refine ⟨(congrArg State.requests hframe :), (congrArg State.seat hframe :), (congrArg State.verdicts hframe :),
    (congrArg State.pairs hframe :), (congrArg State.referrals hframe :), (congrArg State.referenceCounter hframe :),
    (congrArg State.retireHold hframe :), (congrArg State.unbindHold hframe :), (congrArg State.cycle hframe :),
    (congrArg State.cyclePlace hframe :), (congrArg State.override hframe :), (congrArg State.portBusy hframe :),
    (congrArg State.resultCode hframe :), (congrArg State.overrun hframe :), (congrArg State.window hframe :),
    (congrArg State.attentionMask hframe :), (congrArg State.work hframe :), fun k => ?_⟩
  rw [hstation]
  exact ⟨rfl, rfl, rfl, rfl, rfl, rfl⟩

theorem Vanished.supply : t.supply = .retainedOnly := (congrArg State.supply h.frame :)

theorem Vanished.awake : t.awake = false := by
  have hoff := h.supply
  unfold State.awake State.portOn
  rw [hoff]
  rfl

theorem Vanished.latches : t.latches = 0 := by
  have h1 : t.attention = 0 := (congrArg State.attention h.frame :)
  have h2 : t.attentionTaken = none := (congrArg State.attentionTaken h.frame :)
  unfold State.latches
  rw [h1, h2]
  rfl

theorem Vanished.record (k : Nat) : t.record k = s.record k :=
  (congrArg (fun x : State => x.record k) h.frame :)

end

end Sys2Proof.Machine

namespace Sys2Proof.Machine
open Sys2Proof

/-! ## Walks of the Presence Pool that are cut short (R160, R168, log 53) -/

/-- A walk for a notice has been cut short: it has reached so many records, and stopped there. -/
structure WalkCut (n : Notice) (cut : Option Cut) (s t : State) : Prop where
  records : ∀ id, (t.record id).index = (s.record id).index ∧ (t.record id).body.value = cutBody n cut s id
  position : t.markedTo = cutPosition n cut s
  notices : t.notices = s.notices

/-- Nothing has been reached where the cut is none, or names another walk. -/
theorem walkCut_refl {n : Notice} {cut : Option Cut} {s : State} (hm : s.markedTo = 0)
    (h : ∀ c, cut = some c → n.walk ≠ some c.walk) : WalkCut n cut s s := by
  cases cut with
  | none => exact ⟨fun _ => ⟨rfl, rfl⟩, hm, rfl⟩
  | some c =>
    have hne := h c rfl
    refine ⟨fun id => ⟨rfl, (if_neg fun hh => hne hh.1).symm⟩, hm.trans (if_neg fun hh => hne ?_).symm, rfl⟩
    rw [hh.1, hh.2]
    rfl

theorem readBodies_whole {s : State} (h : Whole s) (ids : List Nat) : readBodies ids s = s := by
  unfold readBodies
  induction ids with
  | nil => rfl
  | cons id ids ih =>
    simp only [forReadable, readPresenceBody_undamaged h.clean]
    cases (s.index id).faulted <;> exact ih

/-- The bodies after a walk that has reached the first records alone. -/
def partBody (n : Notice) (reached : Nat) (s : State) (id : Nat) : PresenceBody :=
  if id ∈ s.inUseRecords.take reached then markedBody n s id else (s.record id).body.value

section
variable {n : Notice} {chg : PresenceBody → PresenceBody} {s : State} (hs : Whole s) (reached : Nat)
include hs

theorem forReadable_part {act : Nat → PresenceBody → State → Bool × State} {alerts counts : PresenceIndex → PresenceBody → Bool}
    (hact : ActsAs act chg alerts counts)
    (hmarks : ∀ id, (s.index id).inUse = true → markedBody n s id =
      if (s.index id).faulted = false then chg (s.record id).body.value else (s.record id).body.value) :
    ∃ a, Marked (partBody n reached s) a s (forReadable act (s.inUseRecords.take reached) s).2 := by
  have hm := (forReadable_marked hact hs (hs.inUseRecords_nodup.sublist (List.take_sublist reached _))).1
  refine ⟨_, hm.congr (fun id => ?_) rfl⟩
  unfold State.bodiesAfter partBody
  simp only [mem_readableOf]
  by_cases hin : id ∈ s.inUseRecords.take reached
  · rw [if_pos hin, hmarks id (mem_inUseRecords.mp (List.mem_of_mem_take hin))]
    simp only [hin, true_and]
  · rw [if_neg hin, if_neg fun hh => hin hh.1]

theorem WalkOf.part {au : Bool} {act : Nat → PresenceBody → State → Bool × State} (h : WalkOf n chg au act) :
    ∃ a, Marked (partBody n reached s) a s (forReadable act (s.inUseRecords.take reached) s).2 :=
  forReadable_part hs reached h.acts fun id hin => by
    rw [h.marks]
    simp only [hin, true_and]

/-- The marking for the tamper notice, cut short for the first time. -/
theorem markCleared_part (hm : s.markedTo = 0) :
    ∃ a, Marked (partBody .tamper reached s) a s (markCleared (s.inUseRecords.take reached) s) :=
  forReadable_part hs reached tamper_acts fun id hin => by
    simp only [markedBody, hin, hm, Nat.zero_le, true_and, if_true]
    split <;> rfl

end

theorem unmarked_of_fresh {s : State} (hm : s.markedTo = 0) : s.unmarked = s.inUseRecords := by
  unfold State.unmarked
  simp [hm]

theorem markSome_of_fresh {s : State} (hs : Whole s) (hm : s.markedTo = 0) (reached : Nat) : markSome reached s =
    { markCleared (s.inUseRecords.take reached) s with
      markedTo := ((s.inUseRecords.take reached).getLast?.map (· + 1)).getD 0 } := by
  unfold markSome
  rw [scanIndexes_undamaged hs.clean]
  dsimp only
  rw [unmarked_of_fresh hm, hm]

theorem cutPosition_tamper (s : State) (k : Nat) : cutPosition .tamper (some ⟨.tamper, k⟩) s =
    ((s.inUseRecords.take k).getLast?.map (· + 1)).getD 0 := by
  unfold cutPosition
  exact if_pos ⟨rfl, rfl⟩

theorem Marked.walkCut {n : Notice} {c : Cut} {a : Bool} {s t : State} (hs : Whole s)
    (h : Marked (partBody n c.reached s) a s t) (hw : n.walk = some c.walk) (hbar : c.walk ≠ .bar) (hunbar : c.walk ≠ .unbar)
    {u : State} (hu : u.presence = t.presence) (hn : u.notices = t.notices) (hp : u.markedTo = cutPosition n (some c) s) :
    WalkCut n (some c) s u := by
  have hrecord : ∀ id, u.record id = t.record id := fun id => by rw [State.record, hu]; rfl
  refine ⟨fun id => ?_, hp, hn.trans (congrArg State.notices (h.change.rest hs) :)⟩
  rw [hrecord, h.body]
  refine ⟨h.index id, ?_⟩
  unfold partBody cutBody
  simp only [hw, hbar, hunbar, ne_eq, not_false_eq_true, true_and]

/-- A walk that marks, or only reads, reaches the first records in use. -/
theorem walkPart_cut {n : Notice} {c : Cut} {s : State} (hs : Whole s) (hm : s.markedTo = 0) (hw : n.walk = some c.walk) :
    WalkCut n (some c) s (walkPart n c.reached s) := by
  obtain ⟨w, k⟩ := c
  have hread : w = .bar ∨ w = .unbar → n ≠ .tamper → WalkCut n (some ⟨w, k⟩) s s := fun hb ht =>
    ⟨fun id => ⟨rfl, (if_neg fun hh => hb.elim hh.2.1 hh.2.2.1).symm⟩, hm.trans (if_neg fun hh => ht hh.1).symm, rfl⟩
  unfold walkPart
  rw [scanIndexes_undamaged hs.clean]
  cases n with
  | revoke g =>
    cases hw
    obtain ⟨a, ha⟩ := (revoke_walk g).part hs k
    exact ha.walkCut (c := ⟨.revoke, k⟩) hs rfl nofun nofun rfl rfl
      ((congrArg State.markedTo (ha.change.rest hs) :).trans hm)
  | overstay g =>
    cases hw
    obtain ⟨a, ha⟩ := (overstay_walk g).part hs k
    exact ha.walkCut (c := ⟨.overstay, k⟩) hs rfl nofun nofun rfl rfl
      ((congrArg State.markedTo (ha.change.rest hs) :).trans hm)
  | bar x =>
    cases hw
    dsimp only
    rw [readBodies_whole hs]
    exact hread (.inl rfl) (by simp)
  | unbar x =>
    cases hw
    dsimp only
    rw [readBodies_whole hs]
    exact hread (.inr rfl) (by simp)
  | tamper =>
    cases hw
    obtain ⟨a, ha⟩ := markCleared_part hs k hm
    dsimp only
    rw [markSome_of_fresh hs hm]
    exact ha.walkCut (c := ⟨.tamper, k⟩) hs rfl nofun nofun rfl rfl (cutPosition_tamper s k).symm
  | loss _ | stop | stationFault _ | mode _ => cases hw

section
variable {s : State} {n : Notice} {cmd : Bool} {l1 l2 : List Outstanding} (ha : s.awake = true)
  (hold : s.oldest l1 .presencePool n cmd l2)
include ha hold

theorem walking_of_oldest {w : Walk} (hw : n.walk = some w) : s.walking w = some n := by
  have hk : KindOf (fun m => decide (m.walk = some w)) n .presencePool := fun m => by
    rw [← hw]
    cases m <;> cases n <;> simp [Notice.walk, noticeRow] at hw ⊢
  unfold State.walking
  rw [if_pos (Or.inl ha), outstanding_of_oldest hold hk]
  rfl

theorem cutWalk_cut (hs : Whole s) (hm : s.markedTo = 0) {c : Cut} (hw : n.walk = some c.walk) :
    WalkCut n (some c) s (cutWalk (some c) s) := by
  unfold cutWalk
  dsimp only
  rw [walking_of_oldest ha hold hw]
  exact walkPart_cut hs hm hw

end

/-! ### A failure in a walk -/

section
variable {s : State} {n : Notice} {cmd : Bool} {l1 l2 : List Outstanding} (hold : s.oldest l1 .presencePool n cmd l2)
  (hother : ∀ o ∈ l1 ++ l2, o.receiver ≠ .presencePool ∧ o.receiver ≠ .decisionEngine)
include hold hother

theorem walking_of_other {w : Walk} (hw : n.walk ≠ some w) : s.walking w = none := by
  unfold State.walking State.outstanding
  have hnone : s.notices.find? (fun o => decide (o.receiver = .presencePool) && decide (o.notice.walk = some w)) = none := by
    refine List.find?_eq_none.mpr fun o ho hh => ?_
    simp only [Bool.and_eq_true, decide_eq_true_eq] at hh
    rw [hold.1] at ho
    rcases List.mem_append.mp ho with ho | ho
    · exact (hother o (List.mem_append_left _ ho)).1 hh.1
    · rcases List.mem_cons.mp ho with rfl | ho
      · exact hw hh.2
      · exact (hother o (List.mem_append_right _ ho)).1 hh.1
  rw [hnone]
  split <;> rfl

theorem engine_idle (kind : Notice → Bool) : s.outstanding .decisionEngine kind = none := by
  refine List.find?_eq_none.mpr fun o ho hh => ?_
  simp only [Bool.and_eq_true, decide_eq_true_eq] at hh
  rw [hold.1] at ho
  rcases List.mem_append.mp ho with ho | ho
  · exact (hother o (List.mem_append_left _ ho)).2 hh.1
  · rcases List.mem_cons.mp ho with rfl | ho
    · exact absurd hh.1 (by simp)
    · exact (hother o (List.mem_append_right _ ho)).2 hh.1

variable (hseat : s.seat = none) (hwork : s.work = none) (hlink : s.linkState = .stopped)
include hseat hwork hlink

/-- No operation but the walk is in progress. -/
theorem operationSteps_idle (w : Walk) : operationSteps w s = [] := by
  have hcommand : commandSteps s = [] := by unfold commandSteps; rw [hwork]
  have hdecision : decisionSteps s = [] := by unfold decisionSteps; rw [hseat]
  have hmark : markSteps s = [] := by unfold markSteps; rw [hlink]; simp
  have hengine : ∀ kind, engineSteps kind s = [] := fun kind => by unfold engineSteps; rw [engine_idle hold hother]
  unfold operationSteps
  rw [hcommand]
  cases w with
  | decision => simp only [blockSteps, hdecision, ite_self]
  | mark => simp only [blockSteps, hmark, ite_self]
  | engineRevoke | engineBar | engineMode | engineTamper | engineLoss | engineStop =>
    simp only [blockSteps, hengine, ite_self]
  | _ => simp only [blockSteps, ite_self]

theorem reachedAtFailure_cut (ha : s.awake = true) (hs : Whole s) (hm : s.markedTo = 0) :
    WalkCut n (Config.cutOf s.cuts) s s.reachedAtFailure := by
  unfold State.reachedAtFailure
  by_cases hd : s.cutDue = true
  · rw [if_pos hd]
    cases hcut : Config.cutOf s.cuts with
    | none => exact walkCut_refl hm (fun _ hc => nomatch hc)
    | some c =>
      rw [cutOperation_of_no_steps (operationSteps_idle hold hother hseat hwork hlink c.walk)]
      by_cases hw : n.walk = some c.walk
      · exact cutWalk_cut ha hold hs hm hw
      · have hask : s.askingPool = false := by unfold State.askingPool; rw [hwork]
        have hsame : cutWalk (some c) s = s := by
          unfold cutWalk
          dsimp only
          rw [walking_of_other hold hother hw, hask]
          simp
        rw [hsame]
        exact walkCut_refl hm (fun c' hc => by cases hc; exact hw)
  · rw [if_neg hd]
    refine walkCut_refl hm (fun c _ hw => hd ?_)
    have hany : s.notices.any (fun o => (decide (o.receiver = .presencePool) && o.notice.walk.isSome) ||
        decide (o.receiver = .decisionEngine)) = true :=
      List.any_eq_true.mpr ⟨⟨.presencePool, n, cmd⟩, by rw [hold.1]; simp, by simp [hw]⟩
    unfold State.cutDue
    rw [hany]
    simp

/-- A walk that a failure of the supply has cut short (R160). -/
theorem exec_mainSupplyFail_walk (ha : s.awake = true) (hs : Whole s) (hm : s.markedTo = 0) :
    ∃ t, exec .mainSupplyFail s = .next t ∧
      (∀ id, (t.record id).index = (s.record id).index ∧
        (t.record id).body.value = cutBody n (Config.cutOf s.cuts) s id) ∧
      t.markedTo = cutPosition n (Config.cutOf s.cuts) s := by
  obtain ⟨hport, -⟩ := (awake_iff s).mp ha
  obtain ⟨hsup, -⟩ := (portOn_iff s).mp hport
  obtain ⟨k, t, hexec, hv⟩ := exec_mainSupplyFail_vanished hs hsup
  have hcut := reachedAtFailure_cut hold hother hseat hwork hlink ha hs hm
  refine ⟨t, hexec, fun id => by rw [hv.record]; exact hcut.records id, (hv.position ?_).trans hcut.position⟩
  by_cases hn : n = .tamper
  · refine .inr ⟨⟨.presencePool, n, cmd⟩, ?_, rfl, hn⟩
    show _ ∈ s.reachedAtFailure.notices
    rw [hcut.notices, hold.1]
    simp
  · refine .inl (hcut.position.trans ?_)
    unfold cutPosition
    cases Config.cutOf s.cuts with
    | none => rfl
    | some c => exact if_neg fun hh => hn hh.1

end

/-! ### A reset in the marking for the tamper notice (R168) -/

theorem mem_dropNotices {s : State} (h : Whole s) {o : Outstanding} (ho : o ∈ s.notices) (hs : o.survives = true) :
    o ∈ (dropNotices s).notices := by
  have hmem : o ∈ s.notices.filter Outstanding.survives := List.mem_filter.mpr ⟨ho, hs⟩
  unfold dropNotices settleTamper
  rw [readTamper_undamaged (s := { s with notices := s.notices.filter Outstanding.survives }) h.clean]
  dsimp only
  rw [if_neg]
  · exact hmem
  · rintro ⟨-, -, hno⟩
    unfold Outstanding.survives at hs
    exact List.any_eq_false.mp hno o hmem (Bool.and_eq_true_iff.mp hs).2

/-- A notice that outlives a device reset is outstanding behind it. -/
theorem mem_deviceReset {x : State} (hx : Whole x) (hf : x.supply = .full) {o : Outstanding} (ho : o ∈ x.notices)
    (hs : o.survives = true) : o ∈ (deviceReset x).notices := by
  have hd := reset_undone hx hf
  unfold deviceReset
  dsimp only
  generalize removeAllUnsent { returnSeatClaims (emptyAttention x) with requests := [], seat := none, verdicts := [] } = d at hd
  have he := resetStations_reset hd.whole
  generalize resetStations d = e at he
  have hn : e.notices = x.notices := (congrArg State.notices he.frame : _).trans (congrArg State.notices hd.frame : _)
  refine mem_dropNotices (blankBlocks_whole he.whole) ?_ hs
  show o ∈ e.notices
  rw [hn]
  exact ho

/-- A reset that finds every record SENT, and the marking cut short, keeps what the marking has reached. -/
theorem resetKeeps_walk {x s u t : State} {cut : Option Cut} (h : resetKeeps x t) (hrecord : ∀ id, x.record id = u.record id)
    (hmarked : x.markedTo = u.markedTo) (hnotice : ∃ o ∈ x.notices, o.receiver = .presencePool ∧ o.notice = .tamper)
    (hcut : WalkCut .tamper cut s u) (hsent : ∀ id ∈ s.inUseRecords, (s.index id).sent = true) :
    (∀ id, (t.record id).body.value = cutBody .tamper cut s id) ∧ t.markedTo = cutPosition .tamper cut s := by
  obtain ⟨-, -, -, -, -, -, -, -, -, htamper, -, -, -, -, hkept, hidle⟩ := h
  have hindex : ∀ id, x.index id = s.index id := fun id => by
    rw [State.index, hrecord, (hcut.records id).1]
    rfl
  have hnone : x.unsentRecords = [] := List.filter_eq_nil_iff.mpr fun id hid => by
    have hin := mem_inUseRecords.mp hid
    rw [hindex] at hin ⊢
    simp [hsent id (mem_inUseRecords.mpr hin)]
  have hends : x.resetEndsClear = false := by
    obtain ⟨o, ho, hr, ht⟩ := hnotice
    have hany : x.notices.any (fun o => decide (o.receiver = .presencePool) && o.notice.isTamper) = true :=
      List.any_eq_true.mpr ⟨o, ho, by rw [hr, ht]; rfl⟩
    rw [State.resetEndsClear, hany, Bool.not_true, Bool.and_false]
  refine ⟨fun id => ?_, ?_⟩
  · rw [← (hcut.records id).2, ← hrecord]
    cases hin : (x.index id).inUse with
    | false => rw [hidle id hin]
    | true =>
      have hs : (x.index id).sent = true := by
        rw [hindex] at hin ⊢
        exact hsent id (mem_inUseRecords.mpr hin)
      rw [(hkept id hin hs).2, hnone, bodyAfterRemovals_nil]
  · rw [State.tamperAfterReset, hends] at htamper
    exact (congrArg Prod.snd htamper).trans (hmarked.trans hcut.position)

/-- The cut of a marking that a reset makes. -/
def markingCutOf (cut : Option Cut) : Option Cut := cut.map (fun c => ⟨.tamper, c.reached⟩)

section
variable {s : State} {cmd : Bool} {l1 l2 : List Outstanding} (ha : s.awake = true)
  (hold : s.oldest l1 .presencePool .tamper cmd l2) (hs : Whole s) (hm : s.markedTo = 0)
include ha hold hs hm

theorem cutByReset_walk : ∃ k u, cutByReset s = u.drawn k ∧ WalkCut .tamper (markingCutOf (Config.cutOf s.cuts)) s u := by
  have hany : s.notices.any Outstanding.survives = true :=
    List.any_eq_true.mpr ⟨⟨.presencePool, .tamper, cmd⟩, by rw [hold.1]; simp, rfl⟩
  have hcut : (((Config.cutOf s.cuts).map Cut.reached).map (Cut.mk .tamper)) = markingCutOf (Config.cutOf s.cuts) := by
    rw [Option.map_map]
    rfl
  unfold cutByReset cutMarking
  rw [if_pos hany, hcut]
  refine ⟨s.cuts + 1, _, (cutWalk_blind hs _).drawn (s.cuts + 1), ?_⟩
  unfold markingCutOf
  cases Config.cutOf s.cuts with
  | none => exact walkCut_refl hm (fun _ hc => nomatch hc)
  | some c => exact cutWalk_cut ha hold hs hm rfl

theorem exec_resetnLow_walk (hsent : ∀ id ∈ s.inUseRecords, (s.index id).sent = true) :
    ∃ t cut, exec .resetnLow s = .next t ∧ cut = markingCutOf (Config.cutOf s.cuts) ∧
      (∀ id, (t.record id).body.value = cutBody .tamper cut s id) ∧ t.markedTo = cutPosition .tamper cut s ∧
      ∃ o ∈ t.notices, o.receiver = .presencePool ∧ o.notice = .tamper := by
  obtain ⟨hport, -⟩ := (awake_iff s).mp ha
  obtain ⟨hsup, hlow⟩ := (portOn_iff s).mp hport
  obtain ⟨k, u, hu, hcut⟩ := cutByReset_walk ha hold hs hm
  obtain ⟨hvw, hvm, -, -⟩ := cutByReset_cut hs
  have hexec := exec_resetnLow_of_high hlow hsup
  have hvsup : (cutByReset s).supply = .full := (congrArg State.supply hvm.2.1 : _).trans hsup
  generalize cutByReset s = v at hu hvw hexec hvsup
  have hw : Whole { v with resetLow := true } := ⟨hvw.clean, hvw.wf⟩
  have hnotice : ⟨.presencePool, .tamper, cmd⟩ ∈ v.notices := by
    rw [hu]
    show _ ∈ u.notices
    rw [hcut.notices, hold.1]
    simp
  have hstays := mem_deviceReset hw hvsup hnotice rfl
  obtain ⟨hbody, hposition⟩ := resetKeeps_walk (u := u) (deviceReset_restarted hw hvsup).keeps
    (fun id => by rw [hu]; rfl) (by rw [hu]; rfl) ⟨_, hnotice, rfl, rfl⟩ hcut hsent
  exact ⟨deviceReset { v with resetLow := true }, _, hexec, rfl, hbody, hposition, ⟨.presencePool, .tamper, cmd⟩, hstays, rfl, rfl⟩

end

end Sys2Proof.Machine

namespace Sys2Proof.Machine
open Sys2Proof

/-! ## Operations reached between two of their steps (R160, log 56) -/

theorem parts_length_pos (x : RecordStep) (s : State) : 1 ≤ (x.parts s).length := by
  unfold RecordStep.parts
  split
  · exact Nat.succ_pos _
  · split
    · exact Nat.succ_pos _
    · exact Nat.succ_pos _
  · exact Nat.succ_pos _

/-- Nothing has been done where no step has been reached. -/
theorem runReached_zero (xs : List RecordStep) (s : State) : runReached 0 xs s = s := by
  cases xs with
  | nil => rw [runReached]
  | cons x xs =>
    have hpos := parts_length_pos x s
    rw [runReached, if_neg (by omega), List.take_zero, runSteps_nil]

/-- A single step is reached part by part. -/
theorem runReached_single (n : Nat) (x : RecordStep) (s : State) : runReached n [x] s = runSteps ((x.parts s).take n) s := by
  rw [runReached]
  split
  · rename_i hn
    rw [runReached, List.take_of_length_le hn]
  · rfl

/-- A step that is one whole. -/
def RecordStep.plain : RecordStep → Bool
  | .removeUnsent _ | .remove _ => false
  | .takeOut _ | .setUnescorted _ | .clearUnescorted _ | .giveBack _ | .readRecord _ | .free _ | .resetRoom _ | .readEntry _
  | .emptyBars | .confirm _ | .placeEntrant _ _ | .suspect _ | .cancelTrim | .clearClock | .clearSlot _ | .clearRoom _
  | .clearStation _ | .clearConfig | .clearWindow | .clearTimeout | .clearHealth | .clearTamper | .clearDeferred => true

theorem parts_of_plain {x : RecordStep} (h : x.plain = true) (s : State) : x.parts s = [x] := by
  unfold RecordStep.parts
  split
  · cases h
  · cases h
  · rfl

/-- Steps that are one whole each are reached one by one. -/
theorem runReached_plain {xs : List RecordStep} (h : ∀ x ∈ xs, x.plain = true) (n : Nat) (s : State) :
    runReached n xs s = runSteps (xs.take n) s := by
  induction xs generalizing n s with
  | nil => rw [runReached, List.take_nil, runSteps_nil]
  | cons x xs ih =>
    rw [runReached, parts_of_plain (h x List.mem_cons_self)]
    cases n with
    | zero => rfl
    | succ n =>
      rw [List.length_singleton, if_pos (Nat.le_add_left 1 n), List.take_succ_cons, runSteps_cons]
      exact ih (fun y hy => h y (List.mem_cons_of_mem _ hy)) n _

/-- Operations one behind the other: the second is reached where the first is done. -/
theorem runReached_append (xs ys : List RecordStep) (n : Nat) (s : State) :
    ∃ m, runReached n (xs ++ ys) s = runReached m ys (runReached n xs s) ∧
      (m = 0 ∨ runReached n xs s = runSteps xs s) := by
  induction xs generalizing n s with
  | nil => exact ⟨n, by rw [runReached]; rfl, .inr (by rw [runReached]; rfl)⟩
  | cons x xs ih =>
    rw [List.cons_append, runReached, runReached]
    by_cases hn : (x.parts s).length ≤ n
    · rw [if_pos hn, if_pos hn]
      obtain ⟨m, hm, hdone⟩ := ih (n - (x.parts s).length) (runSteps (x.parts s) s)
      refine ⟨m, hm, hdone.imp_right fun hd => ?_⟩
      rw [hd, RecordStep.run_parts, runSteps_cons]
    · rw [if_neg hn, if_neg hn]
      exact ⟨0, (runReached_zero _ _).symm, .inl rfl⟩

theorem runSteps_take_append (xs ys : List RecordStep) (n : Nat) (s : State) :
    runSteps ((xs ++ ys).take n) s = runSteps (ys.take (n - xs.length)) (runSteps (xs.take n) s) := by
  rw [List.take_append, runSteps_append]

/-- Five walks alone are walks of the Presence Pool for a notice. -/
theorem walk_ne {w : Walk} (h : w ≠ .revoke ∧ w ≠ .bar ∧ w ≠ .unbar ∧ w ≠ .overstay ∧ w ≠ .tamper) (x : Notice) :
    x.walk ≠ some w := by
  obtain ⟨h1, h2, h3, h4, h5⟩ := h
  cases x <;> simp [Notice.walk, Ne.symm h1, Ne.symm h2, Ne.symm h3, Ne.symm h4, Ne.symm h5]

/-- A cut that names no walk of the Presence Pool for a notice. -/
theorem cutWalk_other {s : State} (hs : Whole s) {w : Walk} (hw : ∀ x : Notice, x.walk ≠ some w) (n : Nat) :
    cutWalk (some ⟨w, n⟩) s = s := by
  have hnone : s.walking w = none := by
    have hfind : s.outstanding .presencePool (fun x => decide (x.walk = some w)) = none :=
      List.find?_eq_none.mpr fun o _ => by simp [hw o.notice]
    unfold State.walking
    rw [hfind]
    split <;> rfl
  unfold cutWalk
  dsimp only
  rw [hnone]
  dsimp only
  split
  · rw [readBodies_whole (by rw [scanIndexes_undamaged hs.clean]; exact hs), scanIndexes_undamaged hs.clean]
  · rfl

theorem cutOperation_other {s : State} (hs : Whole s) {w : Walk} (hw : ∀ x : Notice, x.walk ≠ some w) (n : Nat) :
    cutOperation (some ⟨w, n⟩) s = runReached n (operationSteps w s) s := by
  unfold cutOperation
  rw [cutWalk_other hs hw]

/-! ### A removal reached between its parts (R58, R61) -/

theorem inUseRecords_sorted {s : State} (h : Whole s) : s.inUseRecords.Pairwise (· < ·) :=
  (Table.keys_pairwise _ h.presence_wf).1.filter _

theorem contractors_sorted {s : State} (h : Whole s) (r : Nat) : (s.contractors r).Pairwise (· < ·) :=
  ((inUseRecords_sorted h).filter _).filter _

theorem eq_of_sorted_of_mem {l m : List Nat} (hl : l.Pairwise (· < ·)) (hm : m.Pairwise (· < ·)) (h : ∀ k, k ∈ l ↔ k ∈ m) :
    l = m :=
  ((List.perm_ext_iff_of_nodup (hl.imp Nat.ne_of_lt) (hm.imp Nat.ne_of_lt)).mpr h).eq_of_pairwise
    (fun _ _ _ _ hab hba => absurd hab (Nat.lt_asymm hba)) hl hm

theorem free_index : PresenceRecord.free.index.value = ⟨false, 0, 0, .contractor, false, false, false⟩ := Voted.value_of _

theorem role_of_lastEscort {s : State} {id : Nat} (h : s.lastEscort id = true) : (s.index id).role = .escort := by
  unfold State.lastEscort at h
  cases hv : (s.room (s.index id).room).view with
  | undefined | faulted => rw [hv] at h; cases h
  | readable closed b =>
    rw [hv] at h
    simp only [Bool.and_eq_true, decide_eq_true_eq] at h
    exact h.1.1

/-- The last escort's leaving marks the CONTRACTOR records that stood with it. -/
theorem TakenOut.contractors {s t : State} {id : Nat} (hs : Whole s) (h : TakenOut id s t) (hlast : s.lastEscort id = true) (r : Nat) :
    t.contractors r = s.contractors r := by
  refine eq_of_sorted_of_mem (contractors_sorted h.change.whole r) (contractors_sorted hs r) fun k => ?_
  rw [mem_contractors, mem_contractors]
  by_cases hk : k = id
  · have hgone : t.index id = ⟨false, 0, 0, .contractor, false, false, false⟩ := by rw [State.index, h.gone, free_index]
    subst hk
    rw [hgone, role_of_lastEscort hlast]
    simp
  · obtain ⟨h1, h2, h3, -, -⟩ := indexWithout_fields s id k
    rw [h.index k hk, h1, h2, h3]

/-- A removal whose marking has reached so many records. -/
structure RemovedInPart (id reached : Nat) (s t : State) : Prop where
  change : ∃ alert, PoolChange alert s t
  gone : t.record id = .free
  index : ∀ k, k ≠ id → t.index k = s.indexWithout id k
  body : ∀ k, k ≠ id → (t.record k).body.value =
    if s.lastEscort id = true ∧ k ∈ (s.contractors (s.index id).room).take reached ∧ (s.index k).faulted = false then
      (s.record k).body.value.withCondition .unescorted
    else (s.record k).body.value
  header : ∀ r, (t.room r).header = (s.room r).header
  room : ∀ r, (t.room r).body.value = s.roomWithout id r

theorem removal_reached {s : State} (h : Whole s) (id n : Nat) :
    RemovedInPart id n s (runSteps ((removalParts id s).take (n + 1)) s) := by
  obtain ⟨hout, -⟩ := takeOut_spec h id
  rw [removalParts_eq h, List.take_succ_cons, runSteps_cons]
  have hrun : (RecordStep.takeOut id).run s = (takeOut id s).2 :=
    congrArg (fun x => (takeOut id x).2) (scanIndexes_undamaged h.clean)
  rw [hrun]
  generalize (takeOut id s).2 = t at hout
  by_cases hl : s.lastEscort id = true
  · rw [if_pos hl, ← List.map_take, runSteps_setUnescorted, hout.contractors h hl]
    have hnodup : ((s.contractors (s.index id).room).take n).Nodup :=
      ((contractors_sorted h _).imp Nat.ne_of_lt).sublist (List.take_sublist _ _)
    have hm := (forReadable_marked unescorted_acts hout.change.whole hnodup).1
    change Marked _ _ t (setUnescortedOn ((s.contractors (s.index id).room).take n) t) at hm
    generalize setUnescortedOn ((s.contractors (s.index id).room).take n) t = u at hm
    have hroom : ∀ r, u.room r = t.room r := fun r => by rw [State.room, hm.rooms]; rfl
    refine ⟨⟨_, hout.change.trans h hm.change⟩, ?_, fun k hk => (hm.index_eq k).trans (hout.index k hk), fun k hk => ?_,
      fun r => by rw [hroom]; exact hout.header r, fun r => by rw [hroom]; exact hout.room r⟩
    · refine (record_ext hout.change.whole hm.change.whole (hm.index id) ((hm.body id).trans (bodiesAfter_of_not ?_))).trans hout.gone
      intro hin
      have hrole := (mem_contractors.mp (List.mem_of_mem_take (mem_readableOf.mp hin).1)).2
      rw [role_of_lastEscort hl] at hrole
      cases hrole
    · obtain ⟨-, -, -, -, hf⟩ := indexWithout_fields s id k
      rw [hm.body, State.bodiesAfter, hout.body k hk]
      simp only [mem_readableOf, hout.index k hk, hf, hl, true_and]
  · rw [if_neg hl, List.take_nil, runSteps_nil]
    exact ⟨⟨_, hout.change⟩, hout.gone, hout.index, fun k hk => by rw [hout.body k hk, if_neg fun hh => hl hh.1], hout.header,
      hout.room⟩

end Sys2Proof.Machine

namespace Sys2Proof.Machine
open Sys2Proof

/-! ## A permit undone in part (R76, R87, R90, log 56) -/

/-- The step of a part. -/
def undoStep : Nat ⊕ Claim → RecordStep
  | .inl id => .removeUnsent id
  | .inr c => .giveBack c

/-- The records that parts name, and the claims. -/
def partRecords (parts : List (Nat ⊕ Claim)) : List Nat := parts.filterMap Sum.getLeft?
def partClaims (parts : List (Nat ⊕ Claim)) : List Claim := parts.filterMap Sum.getRight?

/-- Parts have been undone; the records that stay may have got UNESCORTED. -/
structure PartsUndone (parts : List (Nat ⊕ Claim)) (s t : State) : Prop where
  undone : Undone (partRecords parts) (partClaims parts) s t
  unescorted : unescortedOnly s t
  role : ∀ k, (t.index k).inUse = true → (t.index k).role = (s.index k).role
  plain : ∀ k, (s.index k).role ≠ .escort → (t.index k).role ≠ .escort

theorem PartsUndone.refl {s : State} (h : Whole s) : PartsUndone [] s s :=
  ⟨.refl h, fun _ _ => .inl rfl, fun _ _ => rfl, fun _ hk => hk⟩

theorem PartsUndone.trans {a b : List (Nat ⊕ Claim)} {s t u : State} (h : PartsUndone a s t) (k : PartsUndone b t u) :
    PartsUndone (a ++ b) s u := by
  have hin : ∀ id, (u.index id).inUse = true → (t.index id).inUse = true := fun id hu =>
    ((removedUnsent_iff.mp k.undone.removed id).mp hu).1
  refine ⟨?_, fun id hu => ?_, fun id hu => (k.role id hu).trans (h.role id (hin id hu)), fun id hid => k.plain id (h.plain id hid)⟩
  · unfold partRecords partClaims
    rw [List.filterMap_append, List.filterMap_append]
    exact h.undone.trans k.undone
  · have hrole := h.role id (hin id hu)
    rcases k.unescorted id hu with hk | ⟨hr, hk⟩
    · rw [hk]
      exact h.unescorted id (hin id hu)
    · rw [hrole] at hr
      rcases h.unescorted id (hin id hu) with ht | ⟨-, ht⟩
      · exact .inr ⟨hr, by rw [hk, ht]⟩
      · exact .inr ⟨hr, by rw [hk, ht]⟩

theorem RemovedInPart.undone {id n : Nat} {s t : State} (hs : Whole s) (h : RemovedInPart id n s t) (hun : s.unsent id = true) :
    PartsUndone [.inl id] s t := by
  obtain ⟨hin, hsent⟩ := Bool.and_eq_true_iff.mp hun
  rw [Bool.not_eq_true'] at hsent
  obtain ⟨a, ha⟩ := h.change
  have hrest := ha.rest hs
  have hgrants := congrArg State.grants hrest
  have hstations := congrArg State.stations hrest
  have hgone : t.index id = ⟨false, 0, 0, .contractor, false, false, false⟩ := by rw [State.index, h.gone, free_index]
  have hkeep : ∀ k, (t.index k).inUse = true → k ≠ id := fun k hk he => by
    rw [he, hgone] at hk
    cases hk
  refine ⟨⟨ha.whole, ?_, removedUnsent_iff.mpr fun k => ?_, fun k hk => ?_, fun j => ?_⟩, fun k hk => ?_, fun k hk => ?_, fun k hk => ?_⟩
  · rw [hgrants, hstations]
    exact hrest
  · by_cases hk : k = id
    · subst hk
      rw [hgone]
      simp [partRecords, hsent]
    · rw [h.index k hk, (indexWithout_fields s id k).1]
      simp [partRecords, hk]
  · rw [h.index k (hkeep k hk)]
    exact (indexWithout_fields s id k).2.2.2.1
  · show t.slot j = s.slotAfterReturns [] j
    rw [slotAfterReturns_nil, State.slot, hgrants]
    rfl
  · rw [h.body k (hkeep k hk)]
    split
    · rename_i hm
      exact .inr ⟨(mem_contractors.mp (List.mem_of_mem_take hm.2.1)).2, rfl⟩
    · exact .inl rfl
  · rw [h.index k (hkeep k hk)]
    exact (indexWithout_fields s id k).2.2.1
  · by_cases he : k = id
    · rw [he, hgone]
      decide
    · rw [h.index k he, (indexWithout_fields s id k).2.2.1]
      exact hk

theorem partsUndone_giveBack {s : State} (h : Whole s) (c : Claim) : PartsUndone [.inr c] s (returnClaims [c] s) := by
  have hpresence := congrArg State.presence (returnClaims_eq [c] h.clean)
  have hrecord : ∀ k, (returnClaims [c] s).record k = s.record k := fun k => by rw [State.record, hpresence]; rfl
  have hindex : ∀ k, (returnClaims [c] s).index k = s.index k := fun k => by rw [State.index, hrecord]; rfl
  exact ⟨returnClaims_undone h [c], fun k _ => .inl (by rw [hrecord]), fun k _ => by rw [hindex], fun k hk => by rwa [hindex]⟩

/-- A record that is not in use, or not UNSENT, is passed. -/
theorem partsUndone_passed {s : State} (h : Whole s) {id : Nat} (hun : s.unsent id = false) : PartsUndone [.inl id] s s := by
  refine ⟨⟨h, rfl, removedUnsent_iff.mpr fun k => ?_, fun _ _ => rfl, fun j => (slotAfterReturns_nil s j).symm⟩,
    fun _ _ => .inl rfl, fun _ _ => rfl, fun _ hk => hk⟩
  refine ⟨fun hin => ⟨hin, fun ⟨hm, hsent⟩ => ?_⟩, And.left⟩
  have hk : k = id := by simpa [partRecords] using hm
  rw [hk] at hin hsent
  rw [State.unsent, hin, hsent] at hun
  cases hun

/-! ### The parts of one step -/

theorem parts_removeUnsent {s : State} (h : Whole s) (id : Nat) :
    (RecordStep.removeUnsent id).parts s = if s.unsent id then removalParts id s else [.removeUnsent id] := by
  unfold RecordStep.parts State.unsent
  rw [scanIndexes_undamaged h.clean]

/-- A part of which something has been done counts as undone. -/
theorem undoStep_reached {s : State} (h : Whole s) (p : Nat ⊕ Claim) (n : Nat) :
    PartsUndone [p] s (runSteps (((undoStep p).parts s).take (n + 1)) s) := by
  cases p with
  | inr c =>
    have hrun : runSteps (((undoStep (.inr c)).parts s).take (n + 1)) s = returnClaims [c] s := by
      rw [parts_of_plain rfl, List.take_succ_cons, List.take_nil]
      rfl
    rw [hrun]
    exact partsUndone_giveBack h c
  | inl id =>
    unfold undoStep
    rw [parts_removeUnsent h]
    cases hun : s.unsent id with
    | true => exact (removal_reached h id n).undone h hun
    | false =>
      have hpassed : runSteps [RecordStep.removeUnsent id] s = s := by
        show removeUnsent [id] s = s
        rw [removeUnsent_eq h]
        exact if_neg (Bool.eq_false_iff.mp hun)
      rw [if_neg Bool.false_ne_true, List.take_succ_cons, List.take_nil, hpassed]
      exact partsUndone_passed h hun

/-- Only an ESCORT's removal has more than one part. -/
theorem undoStep_parts_length {s : State} (h : Whole s) {p : Nat ⊕ Claim}
    (hp : ∀ id ∈ partRecords [p], (s.index id).role ≠ .escort) : ((undoStep p).parts s).length = 1 := by
  cases p with
  | inr c => rfl
  | inl id =>
    have hrole := hp id (by simp [partRecords])
    unfold undoStep
    rw [parts_removeUnsent h]
    split
    · rw [removalParts_eq h, if_neg fun hl => hrole (role_of_lastEscort hl)]
      rfl
    · rfl

/-- So many of the parts made: where no ESCORT stands among the records, exactly so many. -/
theorem undoSteps_reached (parts : List (Nat ⊕ Claim)) : ∀ {s : State}, Whole s → ∀ n, ∃ m,
    PartsUndone (parts.take m) s (runReached n (parts.map undoStep) s) ∧ m ≤ n ∧
      ((∀ id ∈ partRecords parts, (s.index id).role ≠ .escort) → m = n) := by
  induction parts with
  | nil =>
    intro s h n
    refine ⟨n, ?_, le_rfl, fun _ => rfl⟩
    rw [List.take_nil, List.map_nil, runReached]
    exact .refl h
  | cons p parts ih =>
    intro s h n
    have hpos := parts_length_pos (undoStep p) s
    cases n with
    | zero =>
      refine ⟨0, ?_, le_rfl, fun _ => rfl⟩
      rw [runReached_zero]
      exact .refl h
    | succ n =>
      have hhead : (∀ id ∈ partRecords (p :: parts), (s.index id).role ≠ .escort) → ((undoStep p).parts s).length = 1 := fun hno =>
        undoStep_parts_length h fun id hid => hno id (by
          rw [show p :: parts = [p] ++ parts from rfl, partRecords, List.filterMap_append]
          exact List.mem_append_left _ hid)
      rw [List.map_cons, runReached]
      by_cases hn : ((undoStep p).parts s).length ≤ n + 1
      · rw [if_pos hn]
        have hone := undoStep_reached h p n
        rw [List.take_of_length_le hn] at hone
        obtain ⟨m, hm, hle, heq⟩ := ih hone.undone.whole (n + 1 - ((undoStep p).parts s).length)
        refine ⟨m + 1, ?_, by omega, fun hno => ?_⟩
        · rw [List.take_succ_cons]
          exact hone.trans hm
        · rw [heq fun id hid => hone.plain id (hno id (by
            rw [show p :: parts = [p] ++ parts from rfl, partRecords, List.filterMap_append]
            exact List.mem_append_right _ hid)), hhead hno]
          omega
      · rw [if_neg hn]
        refine ⟨1, undoStep_reached h p n, by omega, fun hno => ?_⟩
        rw [hhead hno] at hn
        omega

theorem undoneInPart_reached {s : State} (h : Whole s) (parts : List (Nat ⊕ Claim)) (n : Nat) :
    undoneInPart n parts s (runReached n (parts.map undoStep) s) := by
  obtain ⟨m, hm, hle, heq⟩ := undoSteps_reached parts h n
  exact ⟨m, ⟨hm.undone.removed, givenBack_of_slots hm.undone.slots⟩, hm.unescorted, hle, heq⟩

/-! ### The Decision Engine's undoings -/

theorem undoSteps_eq (claims : List Claim) (records : List Nat) :
    undoSteps claims records = (PermitData.parts ⟨claims, [], records⟩).map undoStep := by
  unfold undoSteps PermitData.parts
  rw [List.map_append, List.map_map, List.map_map]
  rfl

theorem entrySteps_eq (which : VerdictEntry → Bool) (s : State) : entrySteps which s = (s.partsOf which).map undoStep := by
  unfold entrySteps State.partsOf
  rw [List.map_flatMap]
  refine congrArg (fun f => (s.verdicts.filter which).flatMap f) (funext fun e => ?_)
  cases e.permit with
  | none => rfl
  | some p => exact undoSteps_eq p.claims p.records

/-- A withdrawal reaches the entries whose permit is hit. -/
theorem undoes_of_withdrawal {x : Notice} {hit : PermitData → Bool} {r : DenyReason} (h : withdrawal x = some (hit, r)) :
    x.undoes = fun e => e.permit.any hit := by
  funext e
  rw [← holds_eq]
  cases x with
  | revoke g => cases h; rfl
  | bar c => cases h; rfl
  | tamper => cases h; rfl
  | mode m =>
    cases m with
    | lockdown => cases h; rfl
    | fire | normal => cases h
  | unbar _ | overstay _ | loss _ | stationFault _ | stop => cases h

/-- The entries that the engine's taking of a notice undoes. -/
theorem undoes_eq {x : Notice} {which : VerdictEntry → Bool}
    (h : (∃ hit r, withdrawal x = some (hit, r) ∧ which = fun e => e.permit.any hit) ∨
      (∃ k, x = .loss k ∧ which = fun e => decide (e.station = k)) ∨ (x = .stop ∧ which = fun _ => true)) : x.undoes = which := by
  rcases h with ⟨hit, r, hx, rfl⟩ | ⟨k, rfl, rfl⟩ | ⟨rfl, rfl⟩
  · exact undoes_of_withdrawal hx
  · rfl
  · rfl

section
variable {s : State} {x : Notice} {cmd : Bool} {l1 l2 : List Outstanding}

theorem engineSteps_of_oldest {kind : Notice → Bool} (hold : s.oldest l1 .decisionEngine x cmd l2)
    (hk : KindOf kind x .decisionEngine) : engineSteps kind s = entrySteps x.undoes s := by
  unfold engineSteps
  rw [outstanding_of_oldest hold hk]

/-- The engine's taking of a notice, as the cut names it. -/
theorem operationSteps_engine (ha : s.awake = true) (hold : s.oldest l1 .decisionEngine x cmd l2) {w : Walk}
    (hw : x.engineWalk = some w) : operationSteps w s = entrySteps x.undoes s ∧ ∀ y : Notice, y.walk ≠ some w := by
  unfold operationSteps
  rw [if_pos ha]
  cases x with
  | revoke g => cases hw; exact ⟨engineSteps_of_oldest hold (kindOf_revoke _ g), walk_ne (by decide)⟩
  | bar c => cases hw; exact ⟨engineSteps_of_oldest hold (kindOf_bar _ c), walk_ne (by decide)⟩
  | mode m => cases hw; exact ⟨engineSteps_of_oldest hold (kindOf_mode _ m), walk_ne (by decide)⟩
  | tamper => cases hw; exact ⟨engineSteps_of_oldest hold (kindOf_tamper _), walk_ne (by decide)⟩
  | loss k => cases hw; exact ⟨engineSteps_of_oldest hold (kindOf_loss _ k), walk_ne (by decide)⟩
  | stop => cases hw; exact ⟨engineSteps_of_oldest hold (kindOf_stop _), walk_ne (by decide)⟩
  | unbar _ | overstay _ | stationFault _ => cases hw

theorem engine_undoneInPart (hs : Whole s) (ha : s.awake = true) (hold : s.oldest l1 .decisionEngine x cmd l2) {w : Walk}
    (hw : x.engineWalk = some w) (n : Nat) : undoneInPart n (s.partsOf x.undoes) s (cutOperation (some ⟨w, n⟩) s) := by
  obtain ⟨hsteps, hother⟩ := operationSteps_engine ha hold hw
  rw [cutOperation_other hs hother, hsteps, entrySteps_eq]
  exact undoneInPart_reached hs _ n

end

/-- The decision in hand undoes its permit next. -/
def State.undoesNext (s : State) (d : Decision) : Prop :=
  d.abandoned = true ∨ (d.phase = .placement ∧ s.placementReason d ≠ none) ∨
    (∃ n r, d.work = .answer n ∧ d.phase = .answerEnd (some r)) ∨
    (d.phase = .escortRead ∧ ∀ closed b, (s.room d.room).view = .readable closed b → b.escorts = 0)

theorem decisionSteps_of_undoing {s : State} {d : Decision} (hs : Whole s) (hseat : s.seat = some d) (h : s.undoesNext d) :
    decisionSteps s = undoSteps d.claims d.records := by
  unfold decisionSteps
  rw [hseat]
  dsimp only
  by_cases ha : d.abandoned = true
  · rw [if_pos ha]
  · rw [if_neg ha]
    rcases h with h | ⟨hp, hr⟩ | ⟨n, r, hw, hp⟩ | ⟨hp, hr⟩
    · exact absurd h ha
    · rw [hp, placementCondition_undamaged hs.clean]
      exact if_pos (Option.isSome_iff_ne_none.mpr hr)
    · rw [hp]
      refine if_pos ?_
      rw [answerUndoes_eq hs, hw]
      simp
    · rw [hp, readRoomRecord_undamaged hs.clean]
      dsimp only
      cases hv : (s.room d.room).view with
      | undefined | faulted => rfl
      | readable closed b => exact if_pos (hr closed b hv)

theorem decision_undoneInPart {s : State} {d : Decision} (hs : Whole s) (ha : s.awake = true) (hseat : s.seat = some d)
    (h : s.undoesNext d) (n : Nat) :
    undoneInPart n (PermitData.parts ⟨d.claims, [], d.records⟩) s (cutOperation (some ⟨.decision, n⟩) s) := by
  rw [cutOperation_other hs (walk_ne (by decide))]
  have hsteps : operationSteps .decision s = undoSteps d.claims d.records := by
    unfold operationSteps
    rw [if_pos ha]
    exact decisionSteps_of_undoing hs hseat h
  rw [hsteps, undoSteps_eq]
  exact undoneInPart_reached hs _ n

theorem retire_cut {s : State} (hs : Whole s) (n : Nat) : cutOperation (some ⟨.retire, n⟩) s = s := by
  rw [cutOperation_other hs (walk_ne (by decide))]
  have hsteps : operationSteps .retire s = [] := by
    unfold operationSteps blockSteps
    simp
  rw [hsteps, runReached]

end Sys2Proof.Machine

namespace Sys2Proof.Machine
open Sys2Proof

/-! ## Commands that a failure of the supply cuts (log 56) -/

section
variable {s : State} (hs : Whole s) (hp : s.portOn = true)
include hs hp

theorem command_cut (n : Nat) : cutOperation (some ⟨.command, n⟩) s = runReached n (commandSteps s) s := by
  rw [cutOperation_other hs (walk_ne (by decide))]
  have hsteps : operationSteps .command s = commandSteps s := by
    unfold operationSteps
    rw [if_pos rfl, if_pos hp]
  rw [hsteps]

end

/-! ### RESET CENSUS (R66) -/

theorem commandSteps_census {s : State} (h : s.work = some (.handed 0x37)) : commandSteps s = censusSteps s := by
  unfold commandSteps
  rw [h]
  rfl

theorem runSteps_free (ids : List Nat) (s : State) :
    runSteps (ids.map .free) s = (ids.map (fun id => (id, PresenceRecord.free))).foldl (fun s p => s.setRecord p.1 p.2) s := by
  rw [runSteps, List.foldl_map, List.foldl_map]
  rfl

/-- Records made free on their own. -/
theorem runSteps_free_filled {s : State} (h : Whole s) {ids : List Nat} (hn : ids.Nodup) :
    Filled (ids.map (fun id => (id, PresenceRecord.free))) s (runSteps (ids.map .free) s) := by
  have hkeys : (ids.map (fun id => (id, PresenceRecord.free))).map Prod.fst = ids := by
    rw [List.map_map]
    exact List.map_id ids
  rw [runSteps_free]
  refine foldl_setRecord _ h (fun p hp => ?_) (by rw [hkeys]; exact hn)
  obtain ⟨id, -, rfl⟩ := List.mem_map.mp hp
  exact free_undamaged

theorem Filled.freed {ids : List Nat} {s t : State} (h : Filled (ids.map (fun id => (id, PresenceRecord.free))) s t) (k : Nat) :
    t.record k = if k ∈ ids then .free else s.record k := by
  split
  · rename_i hk
    exact h.written (k, .free) (List.mem_map.mpr ⟨k, hk, rfl⟩)
  · rename_i hk
    refine h.others k fun hm => hk ?_
    rw [List.map_map] at hm
    simpa using hm

/-- The room whose list has been emptied. -/
structure RoomEmptied (r : Nat) (s t : State) : Prop where
  presence : t.presence = s.presence
  grants : t.grants = s.grants
  others : ∀ q, q ≠ r → t.room q = s.room q
  body : ∀ closed b, (s.room r).view = .readable closed b → (t.room r).body.value = { b with escorts := 0, suspect := false }

theorem resetRoomBody_emptied {s : State} (h : Whole s) (r : Nat) : RoomEmptied r s (resetRoomBody r s) := by
  unfold resetRoomBody
  rw [readRoomRecord_undamaged h.clean]
  dsimp only
  cases hv : (s.room r).view with
  | undefined | faulted => exact ⟨rfl, rfl, fun _ _ => rfl, fun _ _ hr => nomatch hv.symm.trans hr⟩
  | readable closed b =>
    obtain ⟨-, hpresence, hbody, -, hothers⟩ := updateRoomBody_spec h r (fun _ => { b with escorts := 0, suspect := false })
    refine ⟨hpresence, rfl, hothers, fun closed' b' hr => ?_⟩
    cases hv.symm.trans hr
    exact hbody

/-- What RESET CENSUS has reached of a room: the records from the tail of its list, and the room last. -/
theorem census_reached {s : State} (h : Whole s) {r : Nat} {ids : List Nat} (hn : ids.Nodup) (n : Nat) {t : State}
    (ht : t = runReached n (ids.map .free ++ [.resetRoom r]) s) :
    (∀ id, t.record id = if id ∈ ids.take n then .free else s.record id) ∧
      (∀ j, j ≠ r ∨ n ≤ ids.length → t.room j = s.room j) ∧
      (∀ closed b, (s.room r).view = .readable closed b → ids.length < n →
        (t.room r).body.value = { b with escorts := 0, suspect := false }) ∧ t.grants = s.grants := by
  have hplain : ∀ x ∈ ids.map RecordStep.free ++ [.resetRoom r], x.plain = true := fun x hx => by
    rcases List.mem_append.mp hx with hx | hx
    · obtain ⟨id, -, rfl⟩ := List.mem_map.mp hx
      rfl
    · rw [List.mem_singleton.mp hx]
      rfl
  rw [runReached_plain hplain, runSteps_take_append, ← List.map_take, List.length_map] at ht
  have hf := runSteps_free_filled h (hn.sublist (List.take_sublist n ids))
  generalize runSteps ((ids.take n).map .free) s = u at hf ht
  have hgrants : u.grants = s.grants := (congrArg State.grants (hf.change.rest h) :)
  have hroom : ∀ j, u.room j = s.room j := fun j => by rw [State.room, hf.rooms]; rfl
  by_cases hle : n ≤ ids.length
  · rw [Nat.sub_eq_zero_of_le hle, List.take_zero, runSteps_nil] at ht
    subst ht
    exact ⟨hf.freed, fun j _ => hroom j, fun _ _ _ hlt => absurd hlt (Nat.not_lt.mpr hle), hgrants⟩
  · have he := resetRoomBody_emptied hf.change.whole r
    have hrun : t = resetRoomBody r u := by
      rw [ht, List.take_of_length_le (by simp; omega)]
      rfl
    rw [← hrun] at he
    have hrecord : ∀ k, t.record k = u.record k := fun k => by rw [State.record, he.presence]; rfl
    refine ⟨fun k => (hrecord k).trans (hf.freed k), fun j hj => (he.others j (hj.resolve_right hle)).trans (hroom j),
      fun closed b hv _ => he.body closed b ?_, he.grants.trans hgrants⟩
    rw [hroom]
    exact hv

theorem censusSteps_of_sent {s : State} {r : Nat} (hr : r = field s.window.arg0 0 8) (hle : r ≤ 63)
    (hdef : (s.room r).header.value ≠ .undefined)
    (hsent : ∀ id, (s.index id).inUse = true → (s.index id).room = r → (s.index id).sent = true) :
    censusSteps s = (lastFirst s (s.roomRecords r)).map .free ++ [.resetRoom r] := by
  have harg : roomArg s.window = r := hr.symm
  have hok : roomArgOk s.window = true := by
    unfold roomArgOk
    rw [harg]
    exact decide_eq_true (Nat.lt_succ_of_le hle)
  have hall : (s.roomRecords r).all (fun id => (s.index id).sent) = true := List.all_eq_true.mpr fun id hid => by
    obtain ⟨hin, hroom⟩ := mem_roomRecords.mp hid
    exact hsent id hin hroom
  unfold censusSteps
  rw [harg]
  dsimp only
  rw [if_pos ⟨hok, hdef, hall⟩]

theorem census_cut {s t : State} (hs : Whole s) (hp : s.portOn = true) (hwork : s.work = some (.handed 0x37)) {r n : Nat}
    (ht : t = cutOperation (some ⟨.command, n⟩) s) (hr : r = field s.window.arg0 0 8) (hle : r ≤ 63)
    (hdef : (s.room r).header.value ≠ .undefined)
    (hsent : ∀ id, (s.index id).inUse = true → (s.index id).room = r → (s.index id).sent = true) :
    ∃ ids, fromTheTail ids s ∧ ids.Nodup ∧ (∀ id, id ∈ ids ↔ (s.index id).inUse = true ∧ (s.index id).room = r) ∧
      (∀ id, t.record id = if id ∈ ids.take n then .free else s.record id) ∧
      (∀ j, j ≠ r ∨ n ≤ ids.length → t.room j = s.room j) ∧
      (∀ closed b, (s.room r).view = .readable closed b → ids.length < n →
        (t.room r).body.value = { b with escorts := 0, suspect := false }) ∧ t.grants = s.grants := by
  have hperm := lastFirst_perm s (s.roomRecords r)
  have hnodup := hperm.nodup_iff.mpr (hs.inUseRecords_nodup.filter (fun id => decide ((s.index id).room = r)))
  rw [command_cut hs hp, commandSteps_census hwork, censusSteps_of_sent hr hle hdef hsent] at ht
  exact ⟨_, lastFirst_fromTheTail s _, hnodup, fun id => hperm.mem_iff.trans mem_roomRecords, census_reached hs hnodup n ht⟩

/-! ### CLEAR BAR LIST (R112) -/

theorem runSteps_readEntry {s : State} (h : Whole s) (ps : List Nat) : runSteps (ps.map .readEntry) s = s := by
  induction ps with
  | nil => rfl
  | cons p ps ih =>
    have hrun : (RecordStep.readEntry p).run s = s := readPositions_whole h _ 1 p
    rw [List.map_cons, runSteps_cons, hrun, ih]

theorem clearBars_cut {s : State} (hs : Whole s) (hp : s.portOn = true) (hwork : s.work = some (.handed 0x4B)) (n : Nat) :
    cutOperation (some ⟨.command, n⟩) s = if n ≤ min s.barHeader.value.count s.barEntries.length then s
      else { s with barEntries := [], barHeader := .of ⟨0, false, []⟩ } := by
  have hsteps : commandSteps s = (numbersFrom 1 (min s.barHeader.value.count s.barEntries.length)).map .readEntry ++ [.emptyBars] := by
    unfold commandSteps
    rw [hwork]
    rfl
  have hplain : ∀ x ∈ (numbersFrom 1 (min s.barHeader.value.count s.barEntries.length)).map RecordStep.readEntry ++ [.emptyBars],
      x.plain = true := fun x hx => by
    rcases List.mem_append.mp hx with hx | hx
    · obtain ⟨p, -, rfl⟩ := List.mem_map.mp hx
      rfl
    · rw [List.mem_singleton.mp hx]
      rfl
  rw [command_cut hs hp, hsteps, runReached_plain hplain, runSteps_take_append, ← List.map_take, runSteps_readEntry hs,
    List.length_map]
  have hlen : ∀ k, (numbersFrom 1 k).length = k := fun k => by simp [numbersFrom]
  rw [hlen]
  split
  · rename_i hle
    rw [Nat.sub_eq_zero_of_le hle]
    rfl
  · rename_i hlt
    rw [List.take_of_length_le (by simp; omega)]
    rfl

end Sys2Proof.Machine

namespace Sys2Proof.Machine
open Sys2Proof

/-! ## DEVICE RESET cut by a failure of the supply (R91, R26, log 56) -/

/-- The steps of one UNSENT record: it is read, it leaves, and its use goes back. -/
def resetBlock (claims : Nat → List Claim) (id : Nat) : List RecordStep :=
  [.readRecord id, .remove id] ++ (claims id).map .giveBack

theorem runSteps_giveBack (claims : List Claim) (s : State) : runSteps (claims.map .giveBack) s = returnClaims claims s := by
  rw [runSteps, List.foldl_map]
  rfl

theorem giveBack_reached {s : State} (h : Whole s) (claims : List Claim) (n : Nat) :
    Undone [] (claims.take n) s (runReached n (claims.map .giveBack) s) := by
  have hplain : ∀ x ∈ claims.map RecordStep.giveBack, x.plain = true := fun x hx => by
    obtain ⟨c, -, rfl⟩ := List.mem_map.mp hx
    rfl
  rw [runReached_plain hplain, ← List.map_take, runSteps_giveBack]
  exact returnClaims_undone h _

section
variable {s : State} (h : Whole s) {id : Nat} (hun : s.unsent id = true)
include h

theorem run_readRecord : (RecordStep.readRecord id).run s = s := congrArg Prod.snd (readPresenceBody_undamaged h.clean id)

theorem runReached_readRecord (n : Nat) : runReached n [.readRecord id] s = s := by
  rw [runReached_single, parts_of_plain rfl]
  cases n with
  | zero => rfl
  | succ n => rw [List.take_succ_cons, List.take_nil, runSteps_cons, run_readRecord h, runSteps_nil]

include hun

theorem removal_undone (n : Nat) : Undone [id] [] s (runSteps ((removalParts id s).take (n + 1)) s) :=
  ((removal_reached h id n).undone h hun).undone

/-- The record of a block has left, or not; its use has gone back only where it has left. -/
theorem resetBlock_reached (claims : Nat → List Claim) (n : Nat) : ∃ m k, m ≤ 1 ∧
    Undone ([id].take m) ((claims id).take k) s (runReached n (resetBlock claims id) s) := by
  obtain ⟨j, hj, hdone⟩ := runReached_append [.readRecord id, .remove id] ((claims id).map .giveBack) n s
  obtain ⟨i, hi, -⟩ := runReached_append [.readRecord id] [.remove id] n s
  rw [runReached_readRecord h] at hi
  change runReached n [.readRecord id, .remove id] s = _ at hi
  rw [runReached_single] at hi
  change _ = runSteps ((removalParts id s).take i) s at hi
  unfold resetBlock
  rw [hj]
  have hout : ∀ t, Undone [id] [] s t → ∃ m k, m ≤ 1 ∧
      Undone ([id].take m) ((claims id).take k) s (runReached j ((claims id).map .giveBack) t) := fun t ht =>
    ⟨1, j, le_rfl, ht.trans (giveBack_reached ht.whole (claims id) j)⟩
  cases i with
  | succ i =>
    rw [hi]
    exact hout _ (removal_undone h hun i)
  | zero =>
    rcases hdone with rfl | hdone
    · rw [runReached_zero, hi]
      exact ⟨0, 0, Nat.zero_le 1, .refl h⟩
    · rw [hdone]
      refine hout _ ?_
      have hall : runSteps [.readRecord id, .remove id] s =
          runSteps ((removalParts id s).take ((removalParts id s).length + 1)) s := by
        rw [List.take_of_length_le (Nat.le_succ _), runSteps_removalParts, runSteps_cons, run_readRecord h, runSteps_cons, runSteps_nil]
        rfl
      rw [hall]
      exact removal_undone h hun _

theorem resetBlock_done (claims : Nat → List Claim) : Undone [id] (claims id) s (runSteps (resetBlock claims id) s) := by
  have hall : runSteps (resetBlock claims id) s =
      returnClaims (claims id) (runSteps ((removalParts id s).take ((removalParts id s).length + 1)) s) := by
    unfold resetBlock
    rw [runSteps_append, runSteps_giveBack, List.take_of_length_le (Nat.le_succ _), runSteps_removalParts, runSteps_cons, run_readRecord h,
      runSteps_cons, runSteps_nil]
    rfl
  have hout := removal_undone h hun (removalParts id s).length
  rw [hall]
  exact hout.trans (returnClaims_undone hout.whole (claims id))

end

theorem Undone.unsent {ids : List Nat} {claims : List Claim} {s t : State} (h : Undone ids claims s t) {k : Nat} (hk : k ∉ ids)
    (hun : s.unsent k = true) : t.unsent k = true := by
  obtain ⟨hin, hsent⟩ := Bool.and_eq_true_iff.mp hun
  have hin' := (removedUnsent_iff.mp h.removed k).mpr ⟨hin, fun hh => hk hh.1⟩
  rw [State.unsent, hin', h.sent k hin', hsent]
  rfl

/-- The UNSENT records removed so far, each with its use but perhaps the last. -/
theorem resetBlocks_reached (claims : Nat → List Claim) (ids : List Nat) : ∀ {s : State}, Whole s → ids.Nodup →
    (∀ id ∈ ids, s.unsent id = true) → ∀ n, ∃ m k,
      Undone (ids.take m) ((ids.flatMap claims).take k) s (runReached n (ids.flatMap (resetBlock claims)) s) := by
  induction ids with
  | nil =>
    intro s h _ _ n
    refine ⟨0, 0, ?_⟩
    show Undone [] [] s (runReached n [] s)
    rw [runReached]
    exact .refl h
  | cons id ids ih =>
    intro s h hn hun n
    obtain ⟨hid, hn⟩ := List.nodup_cons.mp hn
    have hunid := hun id List.mem_cons_self
    obtain ⟨j, hj, hdone⟩ := runReached_append (resetBlock claims id) (ids.flatMap (resetBlock claims)) n s
    rw [List.flatMap_cons, List.flatMap_cons, hj]
    rcases hdone with rfl | hdone
    · obtain ⟨m, k, hm, hone⟩ := resetBlock_reached h hunid claims n
      refine ⟨m, min k (claims id).length, ?_⟩
      rw [runReached_zero, List.take_append_of_le_length (Nat.min_le_right _ _), ← List.take_eq_take_min,
        show id :: ids = [id] ++ ids from rfl, List.take_append_of_le_length (by exact hm)]
      exact hone
    · have hone := resetBlock_done h hunid claims
      rw [hdone]
      obtain ⟨m, k, hrest⟩ := ih hone.whole hn (fun x hx => hone.unsent (fun hh => hid (List.mem_singleton.mp hh ▸ hx))
        (hun x (List.mem_cons_of_mem _ hx))) j
      refine ⟨m + 1, (claims id).length + k, ?_⟩
      rw [List.take_succ_cons, List.take_length_add_append]
      exact hone.trans hrest

theorem unsentRecords_nodup {s : State} (h : Whole s) : s.unsentRecords.Nodup := h.inUseRecords_nodup.filter _

theorem unsent_of_mem {s : State} {id : Nat} (h : id ∈ s.unsentRecords) : s.unsent id = true := by
  obtain ⟨hin, hsent⟩ := List.mem_filter.mp h
  rw [State.unsent, mem_inUseRecords.mp hin]
  exact hsent

/-- What a device reset has reached: the claims in hand, and then the UNSENT records with their uses. -/
theorem resetSteps_reached {s : State} (h : Whole s) (n : Nat) : ∃ m k,
    Undone (s.unsentRecords.take m) (s.claimsGivenBack.take k) s
      (runReached n (s.claimsInHand.map .giveBack ++ s.unsentRecords.flatMap (resetBlock s.claimOf)) s) ∧
      (m = 0 ∨ s.claimsInHand.length ≤ k) := by
  have hclaims : s.claimsGivenBack = s.claimsInHand ++ s.unsentRecords.flatMap s.claimOf := claimsGivenBack_eq s
  obtain ⟨j, hj, hdone⟩ := runReached_append (s.claimsInHand.map .giveBack)
    (s.unsentRecords.flatMap (resetBlock s.claimOf)) n s
  rw [hj, hclaims]
  rcases hdone with rfl | hdone
  · refine ⟨0, min n s.claimsInHand.length, ?_, .inl rfl⟩
    rw [runReached_zero, List.take_append_of_le_length (Nat.min_le_right _ _), ← List.take_eq_take_min]
    exact giveBack_reached h s.claimsInHand n
  · have hgiven := returnClaims_undone h s.claimsInHand
    rw [hdone, runSteps_giveBack]
    obtain ⟨m, k, hrest⟩ := resetBlocks_reached s.claimOf s.unsentRecords hgiven.whole (unsentRecords_nodup h)
      (fun id hid => hgiven.unsent List.not_mem_nil (unsent_of_mem hid)) j
    refine ⟨m, s.claimsInHand.length + k, ?_, .inr (Nat.le_add_right _ _)⟩
    rw [List.take_length_add_append]
    exact hgiven.trans hrest

/-- The trim is cancelled, or not yet. -/
theorem cancelTrim_reached (n : Nat) (s : State) :
    runReached n [.cancelTrim] s = s ∨ runReached n [.cancelTrim] s = { s with trim := .of none } := by
  rw [runReached_single, parts_of_plain rfl]
  cases n with
  | zero => exact .inl rfl
  | succ n => exact .inr (by rw [List.take_succ_cons, List.take_nil]; rfl)

theorem reset_cut {s t : State} (hs : Whole s) (hp : s.portOn = true) (hwork : s.work = some (.reset 0x7F)) {n : Nat}
    (ht : t = cutOperation (some ⟨.command, n⟩) s) :
    ∃ m k, removedUnsent (s.unsentRecords.take m) s t ∧ givenBack (s.claimsGivenBack.take k) s t ∧
      t.clock = s.clock ∧ t.barEntries = s.barEntries ∧ t.linkConfig = s.linkConfig ∧ t.tamper = s.tamper ∧
      (m = 0 ∨ s.seat.any (fun d => d.records.isEmpty) = false ∨ (s.seat.map (·.claims.length)).getD 0 ≤ k) := by
  have hsteps : commandSteps s = resetSteps s := by
    unfold commandSteps
    rw [hwork]
    rfl
  rw [command_cut hs hp, hsteps, resetSteps_eq hs] at ht
  obtain ⟨j, hj, -⟩ := runReached_append
    (s.claimsInHand.map .giveBack ++ s.unsentRecords.flatMap (resetBlock s.claimOf)) [.cancelTrim] n s
  have hjt := ht.trans hj
  obtain ⟨m, k, hu, hmk⟩ := resetSteps_reached hs n
  generalize runReached n (s.claimsInHand.map .giveBack ++ s.unsentRecords.flatMap (resetBlock s.claimOf)) s = u at hjt hu
  have hback := givenBack_of_slots hu.slots
  have hlast : m = 0 ∨ s.seat.any (fun d => d.records.isEmpty) = false ∨ (s.seat.map (·.claims.length)).getD 0 ≤ k := by
    refine hmk.imp_right fun hk => ?_
    unfold State.claimsInHand at hk
    cases hseat : s.seat with
    | none => exact .inl rfl
    | some d =>
      rw [hseat] at hk
      by_cases hr : d.records = []
      · exact .inr (by simpa [hr] using hk)
      · exact .inl (by simp [hr])
  have hfields : u.clock = s.clock ∧ u.barEntries = s.barEntries ∧ u.linkConfig = s.linkConfig ∧ u.tamper = s.tamper :=
    ⟨(congrArg State.clock hu.frame :), (congrArg State.barEntries hu.frame :), (congrArg State.linkConfig hu.frame :),
      (congrArg State.tamper hu.frame :)⟩
  obtain ⟨h1, h2, h3, h4⟩ := hfields
  rcases cancelTrim_reached j u with hc | hc <;> rw [hc] at hjt <;> subst hjt <;>
    exact ⟨m, k, hu.removed, hback, h1, h2, h3, h4, hlast⟩

end Sys2Proof.Machine

namespace Sys2Proof.Machine
open Sys2Proof

/-! ## CLEAR RETAINED cut by a failure of the supply (R171, log 56) -/

section
variable {α : Type} [DecidableEq α] {d : α}

/-- A table with so many of its records at their cleared value. -/
def clearedAt (d : α) (ks : List Nat) (t : Table α) : Table α := ks.foldl (fun t k => Table.set d t k d) t

theorem clearedAt_wf (ks : List Nat) {t : Table α} (h : Table.wf d t = true) : Table.wf d (clearedAt d ks t) = true := by
  induction ks generalizing t with
  | nil => exact h
  | cons k ks ih => exact ih (Table.wf_set _ h k d)

theorem clearedAt_get (ks : List Nat) {t : Table α} (h : Table.wf d t = true) (j : Nat) :
    Table.get d (clearedAt d ks t) j = if j ∈ ks then d else Table.get d t j := by
  induction ks generalizing t with
  | nil => rfl
  | cons k ks ih =>
    have hset := Table.get_set _ h k d j
    refine (ih (Table.wf_set _ h k d)).trans ?_
    rw [hset]
    by_cases hj : j ∈ ks
    · rw [if_pos hj, if_pos (List.mem_cons_of_mem _ hj)]
    · rw [if_neg hj]
      simp only [List.mem_cons, hj, or_false]

/-- With every record cleared the table is empty. -/
theorem clearedAt_all {ks : List Nat} {t : Table α} (h : Table.wf d t = true) (hall : ∀ k ∈ Table.keys t, k ∈ ks) :
    clearedAt d ks t = [] := by
  refine Table.eq_nil_of_get (clearedAt_wf ks h) fun j => ?_
  rw [clearedAt_get ks h]
  by_cases hj : j ∈ ks
  · rw [if_pos hj]
  · rw [if_neg hj]
    exact Table.get_of_not_mem _ fun hk => hj (hall j hk)

end

theorem runSteps_clearSlot (ks : List Nat) (s : State) :
    runSteps (ks.map .clearSlot) s = { s with grants := clearedAt Slot.cleared ks s.grants } := by
  induction ks generalizing s with
  | nil => rfl
  | cons k ks ih => rw [List.map_cons, runSteps_cons, ih]; rfl

theorem runSteps_clearRoom (ks : List Nat) (s : State) :
    runSteps (ks.map .clearRoom) s = { s with rooms := clearedAt Room.cleared ks s.rooms } := by
  induction ks generalizing s with
  | nil => rfl
  | cons k ks ih => rw [List.map_cons, runSteps_cons, ih]; rfl

theorem runSteps_freeRecord (ks : List Nat) (s : State) :
    runSteps (ks.map .free) s = { s with presence := clearedAt PresenceRecord.free ks s.presence } := by
  induction ks generalizing s with
  | nil => rfl
  | cons k ks ih => rw [List.map_cons, runSteps_cons, ih]; rfl

theorem runSteps_clearStation (ks : List Nat) (s : State) :
    runSteps (ks.map .clearStation) s = { s with stations := (runSteps (ks.map .clearStation) s).stations } := by
  induction ks generalizing s with
  | nil => rfl
  | cons k ks ih =>
    rw [List.map_cons, runSteps_cons, ih]
    rfl

/-- The items whose clearing the statement follows stand as they were, the link configuration apart. -/
structure StoresKept (s t : State) : Prop where
  grants : t.grants = s.grants
  clock : t.clock = s.clock
  barHeader : t.barHeader = s.barHeader
  barEntries : t.barEntries = s.barEntries
  rooms : t.rooms = s.rooms
  presence : t.presence = s.presence

/-- The items behind the stations. -/
def lastItems : List RecordStep :=
  [.clearConfig, .clearWindow, .clearTimeout, .clearHealth, .clearTamper, .clearDeferred]

theorem runSteps_lastItems (n : Nat) (s : State) : StoresKept s (runSteps (lastItems.take n) s) := by
  have hone : ∀ x ∈ lastItems, ∀ s, StoresKept s (x.run s) := by
    intro x hx s
    simp only [lastItems, List.mem_cons, List.not_mem_nil, or_false] at hx
    rcases hx with rfl | rfl | rfl | rfl | rfl | rfl <;> exact ⟨rfl, rfl, rfl, rfl, rfl, rfl⟩
  have hall : ∀ xs : List RecordStep, (∀ x ∈ xs, x ∈ lastItems) → ∀ s, StoresKept s (runSteps xs s) := by
    intro xs
    induction xs with
    | nil => exact fun _ _ => ⟨rfl, rfl, rfl, rfl, rfl, rfl⟩
    | cons x xs ih =>
      intro hx s
      obtain ⟨h1, h2, h3, h4, h5, h6⟩ := hone x (hx x List.mem_cons_self) s
      obtain ⟨k1, k2, k3, k4, k5, k6⟩ := ih (fun y hy => hx y (List.mem_cons_of_mem _ hy)) (x.run s)
      exact ⟨k1.trans h1, k2.trans h2, k3.trans h3, k4.trans h4, k5.trans h5, k6.trans h6⟩
  exact hall _ (fun x hx => List.mem_of_mem_take hx) s

theorem runSteps_take_single (x : RecordStep) (n : Nat) (s : State) : runSteps ([x].take n) s = if n = 0 then s else x.run s := by
  cases n with
  | zero => rfl
  | succ n => rw [List.take_succ_cons, List.take_nil, if_neg (Nat.succ_ne_zero n)]; rfl

/-- What CLEAR RETAINED has reached after so many steps: the items in its order, each begun where the one before is done. -/
structure ClearReached (n : Nat) (s t : State) : Prop where
  grants : t.grants = clearedAt Slot.cleared ((Table.keys s.grants).take n) s.grants
  clock : t.clock = if n ≤ (Table.keys s.grants).length then s.clock else .of .cleared
  barHeader : t.barHeader = if n ≤ (Table.keys s.grants).length + 1 then s.barHeader else .of .cleared
  barEntries : t.barEntries = if n ≤ (Table.keys s.grants).length + 1 then s.barEntries else []
  rooms : t.rooms = clearedAt Room.cleared ((Table.keys s.rooms).take (n - ((Table.keys s.grants).length + 2))) s.rooms
  presence : t.presence = clearedAt PresenceRecord.free ((lastFirst s (Table.keys s.presence)).take
    (n - ((Table.keys s.grants).length + 2 + (Table.keys s.rooms).length))) s.presence
  linkConfig : n ≤ (Table.keys s.grants).length + 2 + (Table.keys s.rooms).length + (Table.keys s.presence).length →
    t.linkConfig = s.linkConfig

/-- The slots, the clock and the Bar List. -/
def headSteps (s : State) : List RecordStep := (Table.keys s.grants).map .clearSlot ++ [.clearClock] ++ [.emptyBars]

/-- The records of the three other kinds. -/
def recordSteps (s : State) : List RecordStep :=
  (Table.keys s.rooms).map .clearRoom ++ (lastFirst s (Table.keys s.presence)).map .free ++ (Table.keys s.stations).map .clearStation

theorem clearSteps_eq (s : State) : clearSteps s = headSteps s ++ recordSteps s ++ lastItems := by
  unfold clearSteps headSteps recordSteps lastItems
  simp only [List.append_assoc]

theorem headSteps_reached (n : Nat) (s : State) : ∃ u, runSteps ((headSteps s).take n) s = { s with
    grants := clearedAt Slot.cleared ((Table.keys s.grants).take n) s.grants
    clock := if n ≤ (Table.keys s.grants).length then s.clock else .of .cleared
    trim := u
    barHeader := if n ≤ (Table.keys s.grants).length + 1 then s.barHeader else .of .cleared
    barEntries := if n ≤ (Table.keys s.grants).length + 1 then s.barEntries else [] } := by
  unfold headSteps
  rw [runSteps_take_append, runSteps_take_append, ← List.map_take, runSteps_clearSlot, runSteps_take_single,
    runSteps_take_single, List.length_append, List.length_map, List.length_singleton]
  by_cases h1 : n ≤ (Table.keys s.grants).length
  · rw [if_pos (by omega), if_pos (by omega), if_pos h1, if_pos (by omega), if_pos (by omega)]
    exact ⟨_, rfl⟩
  · rw [if_neg (c := n - (Table.keys s.grants).length = 0) (by omega), if_neg h1]
    by_cases h2 : n ≤ (Table.keys s.grants).length + 1
    · rw [if_pos (by omega), if_pos h2, if_pos h2]
      exact ⟨_, rfl⟩
    · rw [if_neg (by omega), if_neg h2, if_neg h2]
      exact ⟨_, rfl⟩

/-- The records reached in a state that has these lists. -/
theorem recordSteps_reached (s v : State) (n : Nat) : ∃ st, runSteps ((recordSteps s).take n) v = { v with
    rooms := clearedAt Room.cleared ((Table.keys s.rooms).take n) v.rooms
    presence := clearedAt PresenceRecord.free ((lastFirst s (Table.keys s.presence)).take (n - (Table.keys s.rooms).length)) v.presence
    stations := st } := by
  unfold recordSteps
  rw [runSteps_take_append, runSteps_take_append, ← List.map_take, ← List.map_take, ← List.map_take, runSteps_clearRoom,
    runSteps_freeRecord, runSteps_clearStation, List.length_map]
  exact ⟨_, rfl⟩

theorem clearSteps_plain (s : State) : ∀ x ∈ clearSteps s, x.plain = true := by
  unfold clearSteps
  intro x hx
  simp only [List.mem_append, List.mem_map, List.mem_cons, List.not_mem_nil, or_false] at hx
  rcases hx with (((((⟨k, -, rfl⟩ | rfl) | rfl) | ⟨k, -, rfl⟩) | ⟨k, -, rfl⟩) | ⟨k, -, rfl⟩) | rfl | rfl | rfl | rfl | rfl | rfl
  all_goals rfl

theorem clearSteps_reached (n : Nat) (s : State) : ClearReached n s (runReached n (clearSteps s) s) := by
  have hhead : (headSteps s).length = (Table.keys s.grants).length + 2 := by simp [headSteps]
  have hrecords : (recordSteps s).length =
      (Table.keys s.rooms).length + (Table.keys s.presence).length + (Table.keys s.stations).length := by
    simp [recordSteps, (lastFirst_perm s (Table.keys s.presence)).length_eq, Nat.add_assoc]
  rw [runReached_plain (clearSteps_plain s), clearSteps_eq, runSteps_take_append, runSteps_take_append, List.length_append, hhead]
  obtain ⟨tr, hu⟩ := headSteps_reached n s
  rw [hu]
  generalize hv : ({ s with
    grants := clearedAt Slot.cleared ((Table.keys s.grants).take n) s.grants
    clock := if n ≤ (Table.keys s.grants).length then s.clock else .of .cleared
    trim := tr
    barHeader := if n ≤ (Table.keys s.grants).length + 1 then s.barHeader else .of .cleared
    barEntries := if n ≤ (Table.keys s.grants).length + 1 then s.barEntries else [] } : State) = v
  obtain ⟨st, hw⟩ := recordSteps_reached s v (n - ((Table.keys s.grants).length + 2))
  rw [hw]
  generalize hy : ({ v with
    rooms := clearedAt Room.cleared ((Table.keys s.rooms).take (n - ((Table.keys s.grants).length + 2))) v.rooms
    presence := clearedAt PresenceRecord.free ((lastFirst s (Table.keys s.presence)).take
      (n - ((Table.keys s.grants).length + 2) - (Table.keys s.rooms).length)) v.presence
    stations := st } : State) = y
  subst hv
  obtain ⟨h1, h2, h3, h4, h5, h6⟩ := runSteps_lastItems (n - ((Table.keys s.grants).length + 2 + (recordSteps s).length)) y
  refine ⟨h1.trans ?_, h2.trans ?_, h3.trans ?_, h4.trans ?_, h5.trans ?_, h6.trans ?_, fun hn => ?_⟩
  · rw [← hy]
  · rw [← hy]
  · rw [← hy]
  · rw [← hy]
  · rw [← hy]
  · rw [← hy, Nat.sub_sub]
  · rw [hrecords, Nat.sub_eq_zero_of_le (by omega), List.take_zero, runSteps_nil, ← hy]

theorem keys_of_not_default {α : Type} {d : α} {t : Table α} {k : Nat} (h : Table.get d t k ≠ d) : k ∈ Table.keys t := by
  by_contra hk
  exact h (Table.get_of_not_mem _ hk)

/-- What CLEAR RETAINED leaves when a failure of the supply cuts it. -/
theorem clear_cut {s t : State} (hs : Whole s) (hp : s.portOn = true) (hwork : s.work = some (.reset 0x7B)) {n : Nat}
    (ht : t = cutOperation (some ⟨.command, n⟩) s) :
    (∀ j, t.slot j = s.slot j ∨ t.slot j = .cleared) ∧ (∀ r, t.room r = s.room r ∨ t.room r = .cleared) ∧
      (∀ id, t.record id = s.record id ∨ t.record id = .free) ∧
      (t.barEntries = s.barEntries ∧ t.barHeader = s.barHeader ∨ t.barEntries = [] ∧ t.barHeader = .of ⟨0, false, []⟩) ∧
      (t.clock = s.clock ∨ t.clock = .of ⟨⟨⟨2000, 1, 1, 0, 0⟩, 0⟩, false⟩ ∧ t.grants = []) ∧
      (t.barEntries ≠ s.barEntries → t.grants = []) ∧ (t.rooms ≠ s.rooms → t.barEntries = []) ∧
      (t.presence ≠ s.presence → t.rooms = []) ∧ (t.linkConfig ≠ s.linkConfig → t.presence = []) ∧
      (∀ x y, t.record x ≠ s.record x → t.record y = s.record y → (s.index y).inUse = true →
        (s.index y).place ≤ (s.index x).place) := by
  have hsteps : commandSteps s = clearSteps s := by
    unfold commandSteps
    rw [hwork]
    rfl
  have hr := clearSteps_reached n s
  rw [command_cut hs hp, hsteps] at ht
  rw [← ht] at hr
  obtain ⟨hgrants, hclock, hheader, hbars, hrooms, hpresence, hconfig⟩ := hr
  obtain ⟨hwg, hwr, hwp, -, -⟩ := (tablesWf_iff s).mp hs.wf
  have hperm := lastFirst_perm s (Table.keys s.presence)
  have hslot : ∀ j, t.slot j = if j ∈ (Table.keys s.grants).take n then .cleared else s.slot j := fun j => by
    rw [State.slot, hgrants, clearedAt_get _ hwg]
    rfl
  have hroom : ∀ r, t.room r = if r ∈ (Table.keys s.rooms).take (n - ((Table.keys s.grants).length + 2)) then .cleared
      else s.room r := fun r => by
    rw [State.room, hrooms, clearedAt_get _ hwr]
    rfl
  have hrecord : ∀ k, t.record k = if k ∈ (lastFirst s (Table.keys s.presence)).take
      (n - ((Table.keys s.grants).length + 2 + (Table.keys s.rooms).length)) then .free else s.record k := fun k => by
    rw [State.record, hpresence, clearedAt_get _ hwp]
    rfl
  have hnoGrants : (Table.keys s.grants).length ≤ n → t.grants = [] := fun hn => by
    rw [hgrants, List.take_of_length_le hn]
    exact clearedAt_all hwg fun _ hk => hk
  refine ⟨fun j => ?_, fun r => ?_, fun id => ?_, ?_, ?_, fun hne => hnoGrants ?_, fun hne => ?_, fun hne => ?_, fun hne => ?_,
    fun x y hx hy hin => ?_⟩
  · rw [hslot]
    split
    · exact .inr rfl
    · exact .inl rfl
  · rw [hroom]
    split
    · exact .inr rfl
    · exact .inl rfl
  · rw [hrecord]
    split
    · exact .inr rfl
    · exact .inl rfl
  · rw [hbars, hheader]
    split
    · exact .inl ⟨rfl, rfl⟩
    · exact .inr ⟨rfl, rfl⟩
  · rw [hclock]
    split
    · exact .inl rfl
    · rename_i hn
      exact .inr ⟨rfl, hnoGrants (by omega)⟩
  · by_contra hn
    exact hne (by rw [hbars, if_pos (by omega)])
  · rw [hbars, if_neg]
    intro hn
    exact hne (by rw [hrooms, Nat.sub_eq_zero_of_le (by omega)]; rfl)
  · have hn : ¬ n ≤ (Table.keys s.grants).length + 2 + (Table.keys s.rooms).length := fun hn =>
      hne (by rw [hpresence, Nat.sub_eq_zero_of_le hn]; rfl)
    rw [hrooms, List.take_of_length_le (by omega)]
    exact clearedAt_all hwr fun _ hk => hk
  · have hn := mt hconfig hne
    rw [hpresence, List.take_of_length_le (by rw [hperm.length_eq]; omega)]
    exact clearedAt_all hwp fun _ hk => hperm.mem_iff.mpr hk
  · rw [hrecord] at hx hy
    have hxm : x ∈ (lastFirst s (Table.keys s.presence)).take
        (n - ((Table.keys s.grants).length + 2 + (Table.keys s.rooms).length)) := by
      by_contra hno
      exact hx (if_neg hno)
    have hyk : s.record y ≠ .free := fun hf => by
      rw [State.index, hf, free_index] at hin
      cases hin
    have hym : y ∉ (lastFirst s (Table.keys s.presence)).take
        (n - ((Table.keys s.grants).length + 2 + (Table.keys s.rooms).length)) := fun hm => by
      rw [if_pos hm] at hy
      exact hyk hy.symm
    have hyl := hperm.mem_iff.mpr (keys_of_not_default hyk)
    have hsorted := lastFirst_fromTheTail s (Table.keys s.presence)
    unfold fromTheTail at hsorted
    rw [← List.take_append_drop (n - ((Table.keys s.grants).length + 2 + (Table.keys s.rooms).length))
      (lastFirst s (Table.keys s.presence))] at hyl hsorted
    exact (List.pairwise_append.mp hsorted).2.2 x hxm y ((List.mem_append.mp hyl).resolve_left hym)

end Sys2Proof.Machine

namespace Sys2Proof.Machine
open Sys2Proof

/-! ## The confirmations of a MARK (R58, R86, log 56) -/

/-- Records have been confirmed: those in use are SENT. -/
structure Confirmed (ids : List Nat) (s t : State) : Prop where
  whole : Whole t
  grants : t.grants = s.grants
  inUse : ∀ k, (t.index k).inUse = (s.index k).inUse
  sent : ∀ k, (t.index k).sent = true ↔ (s.index k).sent = true ∨ ((s.index k).inUse = true ∧ k ∈ ids)

theorem Confirmed.refl {s : State} (h : Whole s) : Confirmed [] s s := ⟨h, rfl, fun _ => rfl, fun k => by simp⟩

theorem Confirmed.trans {a b : List Nat} {s t u : State} (h : Confirmed a s t) (k : Confirmed b t u) : Confirmed (a ++ b) s u := by
  refine ⟨k.whole, k.grants.trans h.grants, fun i => (k.inUse i).trans (h.inUse i), fun i => ?_⟩
  rw [k.sent, h.sent, h.inUse, List.mem_append]
  tauto

theorem confirmRecord_confirmed {s : State} (h : Whole s) (id : Nat) : Confirmed [id] s (confirmRecord id s) := by
  rw [confirmRecord_eq h]
  cases hin : (s.index id).inUse with
  | false =>
    refine ⟨h, rfl, fun _ => rfl, fun k => ⟨.inl, fun hk => hk.resolve_right fun ⟨hu, hm⟩ => ?_⟩⟩
    rw [List.mem_singleton.mp hm, hin] at hu
    cases hu
  | true =>
    rw [if_pos rfl]
    have hwrite := writeIndex_change h id { s.index id with sent := true }
    have hindex : ∀ k, (writeIndex id { s.index id with sent := true } s).index k =
        if k = id then { s.index id with sent := true } else s.index k := fun k => by
      rw [State.index, writeIndex_record h]
      split
      · exact Voted.value_of _
      · rfl
    have hraise := raiseIf_marked hwrite.whole (!(s.index id).faulted && (s.record id).body.value.conditions.reportable)
    generalize writeIndex id { s.index id with sent := true } s = u at hwrite hindex hraise
    generalize raiseIf (!(s.index id).faulted && (s.record id).body.value.conditions.reportable) .presenceAlert u = t at hraise
    refine ⟨hraise.change.whole, ?_, fun k => ?_, fun k => ?_⟩
    · exact (congrArg State.grants (hraise.change.rest hwrite.whole) :).trans (congrArg State.grants (hwrite.rest h) :)
    · rw [hraise.index_eq, hindex]
      split
      · rename_i hk
        rw [hk]
      · rfl
    · rw [hraise.index_eq, hindex]
      by_cases hk : k = id
      · simp [hk, hin]
      · simp [hk]

theorem runSteps_confirm (ids : List Nat) : ∀ {s : State}, Whole s → Confirmed ids s (runSteps (ids.map .confirm) s) := by
  induction ids with
  | nil => exact fun h => .refl h
  | cons id ids ih =>
    intro s h
    have hone := confirmRecord_confirmed h id
    exact hone.trans (ih hone.whole)

/-- The records of the permits that a MARK hands over. -/
def State.markRecords (s : State) : List Nat :=
  (s.verdicts.take 8).flatMap (fun e => match e.permit with
    | none => []
    | some p => p.records)

theorem markSteps_of_due {s : State} (hlink : s.linkState = .running) (hplace : s.cyclePlace = .markDue) :
    markSteps s = s.markRecords.map .confirm := by
  unfold markSteps State.markRecords
  rw [if_pos (Or.inl ⟨hlink, hplace⟩), List.map_flatMap]
  refine congrArg (fun f => (s.verdicts.take 8).flatMap f) (funext fun e => ?_)
  cases e.permit <;> rfl

theorem mark_cut {s : State} (hs : Whole s) (ha : s.awake = true) (hlink : s.linkState = .running)
    (hplace : s.cyclePlace = .markDue) (n : Nat) :
    Confirmed (s.markRecords.take n) s (cutOperation (some ⟨.mark, n⟩) s) := by
  have hsteps : operationSteps .mark s = s.markRecords.map .confirm := by
    unfold operationSteps
    rw [if_pos ha]
    exact markSteps_of_due hlink hplace
  have hplain : ∀ x ∈ s.markRecords.map RecordStep.confirm, x.plain = true := fun x hx => by
    obtain ⟨id, -, rfl⟩ := List.mem_map.mp hx
    rfl
  rw [cutOperation_other hs (walk_ne (by decide)), hsteps, runReached_plain hplain, ← List.map_take]
  exact runSteps_confirm _ hs

/-! ## REMOVE PRESENCE cut in the setting of UNESCORTED (R61, R65, log 56) -/

theorem namedRecord_room {s : State} {r id : Nat} (h : namedRecord s r = some id) : (s.index id).room = r := by
  unfold namedRecord at h
  split at h
  · exact (mem_roomRecords.mp (List.mem_of_find?_eq_some h)).2
  · exact of_decide_eq_true (Option.filter_eq_some_iff.mp h).2

section
variable {s t : State} {r id n : Nat} {closed : Bool} {b : RoomBody} (hs : Whole s)
  (hv : (s.room r).view = .readable closed b) (hcls : b.cls = .escorted)
include hs hv hcls

theorem remove_cut (hp : s.portOn = true) (hwork : s.work = some (.handed 0x36)) (ht : t = cutOperation (some ⟨.command, n⟩) s)
    (hr : r = roomArg s.window) (hok : removeArgumentsOk s.window = true) (hid : namedRecord s r = some id)
    (hsent : (s.index id).sent = true) (hrole : (s.index id).role = .escort) (hone : b.escorts = 1) :
    (n = 0 → t = s) ∧
      (1 ≤ n → t.record id = .free ∧ (t.room r).body.value = { b with escorts := 0 } ∧ ∀ k, k ≠ id →
        (t.record k).body.value = (if k ∈ (s.contractors r).take (n - 1) ∧ (s.index k).faulted = false then
          { (s.record k).body.value with conditions := { (s.record k).body.value.conditions with unescorted := true } }
        else (s.record k).body.value)) := by
  have hroom := namedRecord_room hid
  have hsteps : commandSteps s = [.remove id] := by
    unfold commandSteps
    rw [hwork]
    dsimp only
    rw [if_pos rfl, removePresenceSteps_eq hs, if_pos hok, ← hr, hv]
    dsimp only
    rw [hid]
    dsimp only
    rw [if_pos hsent]
  have hlast : s.lastEscort id = true := by
    unfold State.lastEscort
    rw [hroom, hv]
    simp [hrole, hone, hcls]
  rw [command_cut hs hp, hsteps, runReached_single] at ht
  change t = runSteps ((removalParts id s).take n) s at ht
  refine ⟨fun hz => ?_, fun hn => ?_⟩
  · rw [ht, hz]
    rfl
  · obtain ⟨j, rfl⟩ := Nat.exists_eq_succ_of_ne_zero (Nat.one_le_iff_ne_zero.mp hn)
    obtain ⟨-, hgone, -, hbody, -, hrooms⟩ := removal_reached hs id j
    rw [Nat.succ_eq_add_one] at ht
    rw [← ht] at hgone hbody hrooms
    refine ⟨hgone, ?_, fun k hk => ?_⟩
    · rw [hrooms]
      unfold State.roomWithout
      rw [hv]
      dsimp only
      rw [if_pos ⟨hroom, hrole⟩, hone]
    · rw [hbody k hk, hroom]
      simp only [hlast, true_and]
      rfl

end

/-! ## An escort's admission cut in the clearing of UNESCORTED (R57, log 56) -/

/-- A granted admission is one that nothing refuses. -/
theorem refusal_of_granted {s : State} (hs : Whole s) {r : Nat} {es : List Entrant} {ids : List Nat}
    (h : (admission r es s).1 = .ok ids) : s.refusal r es = none ∧ s.freeRecords es.length = ids := by
  unfold admission at h
  rw [admissionWith_eq hs.clean] at h
  cases hr : s.refusal r es with
  | some reason =>
    rw [hr] at h
    cases h
  | none =>
    rw [hr] at h
    have hids : (admitAll r (s.room r).body.value es s).1 = s.freeRecords es.length :=
      congrArg Prod.fst (placeRecords_eq hs r (s.room r).body.value es)
    exact ⟨rfl, hids.symm.trans (Except.ok.inj h)⟩

/-- An escort's admission that has got its record, and come so far in the clearing. -/
structure EscortIn (r id cleared : Nat) (b : RoomBody) (s t : State) : Prop where
  inUse : (t.index id).inUse = true
  room : (t.room r).body.value = { b with escorts := b.escorts + 1 }
  body : ∀ k, k ≠ id → (t.record k).body.value =
    if k ∈ (s.roomRecords r).take cleared ∧ (s.index k).faulted = false then (s.record k).body.value.escorted
    else (s.record k).body.value

section
variable {s : State} {r id : Nat} {closed : Bool} {b : RoomBody} {e : Entrant} (hs : Whole s)
  (hv : (s.room r).view = .readable closed b) (hrole : e.role = .escort) (hadm : (admission r [e] s).1 = .ok [id])
include hs hv hrole hadm

theorem escort_reached (j : Nat) :
    EscortIn r id j b s (clearUnescortedOn ((s.roomRecords r).take j) (admissionWith placeRecords r [e] s).2) := by
  obtain ⟨hnone, hfree⟩ := refusal_of_granted hs hadm
  have hb := Room.view_readable hv
  have hplace : (admissionWith placeRecords r [e] s).2 = (placeRecords r b [e] s).2 := by
    rw [admissionWith_eq hs.clean, hnone, hb]
  have hp := (placeRecords_placed hs hb [e]).2
  have htail : s.tailOf r [e] = [(id, e.placed r (s.occupancy r + 1) s.clock.value.calendar.minute)] := by
    unfold State.tailOf
    rw [hfree]
    rfl
  rw [hplace]
  rw [htail] at hp
  generalize (placeRecords r b [e] s).2 = u at hp
  have hnew := hp.written _ List.mem_cons_self
  have hothers : ∀ k, k ≠ id → u.record k = s.record k := fun k hk => hp.others k (List.mem_singleton.not.mpr hk)
  have hm := clearUnescortedOn_marked hp.change.whole (ids := (s.roomRecords r).take j)
    ((hs.inUseRecords_nodup.filter _).sublist (List.take_sublist _ _))
  refine ⟨?_, ?_, fun k hk => ?_⟩
  · rw [hm.index_eq, State.index, hnew, Entrant.placed, Voted.value_of]
  · rw [State.room, hm.rooms]
    refine hp.room.trans ?_
    rw [escortsIn_single, if_pos hrole]
  · have hindex : u.index k = s.index k := congrArg (fun x => x.index.value) (hothers k hk)
    rw [hm.body, State.bodiesAfter, hothers k hk]
    simp only [mem_readableOf, hindex]

end

theorem admission_cut {s t : State} {r id n : Nat} {closed : Bool} {b : RoomBody} {d : Decision} {c : Claim} {h : Handle}
    (hs : Whole s) (hv : (s.room r).view = .readable closed b) (hcls : b.cls = .escorted) (ha : s.awake = true)
    (ht : t = cutOperation (some ⟨.decision, n⟩) s) (hseat : s.seat = some d) (hab : d.abandoned = false)
    (hphase : d.phase = .admission) (hroom : d.room = r) (hc : d.claims = [c]) (hf : d.own.found = some (h, .escort))
    (hadm : (admission r [⟨d.credential, .escort, c.handle, c.useTaken, d.station, none, decide (c.handle ∈ d.overstayed)⟩] s).1 =
      .ok [id]) :
    (n = 0 → t = s) ∧ (1 ≤ n → EscortIn r id (n - 1) b s t) := by
  generalize he : (⟨d.credential, .escort, c.handle, c.useTaken, d.station, none, decide (c.handle ∈ d.overstayed)⟩ : Entrant) = e
    at hadm
  have hrole : e.role = .escort := by rw [← he]
  have hentrants : ∀ first, d.entrants first = [e] := fun first => (entrants_of_single first hc hf).trans (by rw [he])
  have hsteps : operationSteps .decision s =
      .placeEntrant r e :: (s.roomRecords r).map .clearUnescorted := by
    unfold operationSteps
    rw [if_pos ha]
    show decisionSteps s = _
    unfold decisionSteps
    rw [hseat]
    dsimp only
    rw [hab, if_neg Bool.false_ne_true, hphase]
    dsimp only
    unfold admissionSteps
    rw [hentrants, hroom]
    dsimp only
    rw [hadm, Room.view_readable hv, if_pos ((clearsUnescorted_single b e).mpr ⟨hrole, hcls⟩)]
    rfl
  have hplain : ∀ x ∈ RecordStep.placeEntrant r e :: (s.roomRecords r).map .clearUnescorted, x.plain = true := fun x hx => by
    rcases List.mem_cons.mp hx with rfl | hx
    · rfl
    · obtain ⟨k, -, rfl⟩ := List.mem_map.mp hx
      rfl
  rw [cutOperation_other hs (walk_ne (by decide)), hsteps, runReached_plain hplain] at ht
  refine ⟨fun hz => ?_, fun hn => ?_⟩
  · rw [ht, hz]
    rfl
  · obtain ⟨j, rfl⟩ := Nat.exists_eq_succ_of_ne_zero (Nat.one_le_iff_ne_zero.mp hn)
    rw [Nat.succ_eq_add_one, List.take_succ_cons, ← List.map_take, runSteps_cons, runSteps_clearUnescorted] at ht
    rw [ht]
    exact escort_reached hs hv hrole hadm j

end Sys2Proof.Machine

namespace Sys2Proof.Machine
open Sys2Proof

/-! ## RESETn and the failure of the main supply (R160, R161, R179) -/

theorem removeArgumentsOk_iff (w : Window) : removeArgumentsOk w = true ↔ roomArg w < 64 ∧
    (w.arg0.getLsbD 8 = true → 1 ≤ w.arg1.toNat ∧ w.arg1.toNat ≤ 32) ∧
    (w.arg0.getLsbD 8 = false → (w.arg2.truncate 8 ++ w.arg1 : BitVec 40) ≠ 0) := by
  unfold removeArgumentsOk roomArgOk credentialOk credentialArg
  rw [Bool.and_eq_true, decide_eq_true_eq]
  refine and_congr_right fun _ => ?_
  cases w.arg0.getLsbD 8 <;> simp

/-- RESETn's two edges, and the rows that find the pin at its level. -/
theorem resetn_rows {s : State} (hs : Whole s) (hsup : s.supply = .full) :
    (s.resetLow = true → exec .resetnLow s = .next s) ∧
    (s.resetLow = false → exec .resetnHigh s = .next s) ∧
    (s.resetLow = false →
      ∃ u t, markedSome { s with resetLow := true } u ∧ exec .resetnLow s = .next t ∧ blocksReset t ∧ retainedKept s t ∧
        resetKeeps u t ∧ t.deferred = s.deferred ∧ t.resetLow = true ∧ t.awake = false ∧
        t.atn = false ∧ t.latches = 0 ∧ t.lastCommand = 0 ∧ t.linkState = .stopped ∧ t.sweep = none ∧
        t.mode = .normal ∧ t.fireLevel = false ∧ t.lockdownLevel = false) ∧
    (s.resetLow = true → s.resetting = false →
      ∃ t, exec .resetnHigh s = .next t ∧ t.resetLow = false ∧ t.awake = true ∧ t.resetCauses = 0 ∧
        (∀ c : Cause, s.latched c = true ∨ s.resetCauses.getLsbD c.bit = true → t.latched c = true) ∧
        linesTaken t ∧
        t.linkState = (if s.linkConfig.value.autoStart then .running else s.linkState) ∧
        (s.clock.value.isSet = true → s.sweep = none → t.sweep = some ⟨1, s.clock.value.calendar.minute⟩) ∧
        t = { s with
          resetLow := t.resetLow, attention := t.attention, resetCauses := t.resetCauses, linkState := t.linkState,
          mode := t.mode, fireLevel := t.fireLevel, lockdownLevel := t.lockdownLevel, sweep := t.sweep,
          resweep := t.resweep }) := by
  refine ⟨exec_resetnLow_of_low, exec_resetnHigh_of_high, fun hlow => ?_, fun hlow hr => ?_⟩
  · obtain ⟨u, t, hm, hexec, -, hkeeps, hp⟩ := exec_resetnLow_lowered hs hsup hlow
    have hport := hp.portOn
    obtain ⟨h1, h2, h3, h4, h5, h6⟩ := hp.idle
    have hkept : retainedKept { s with resetLow := true } t := retainedKept_of_marked hm hkeeps
    refine ⟨u, t, hm, hexec, hp.blocks, hkept, hkeeps, hp.deferred, hp.low, ?_, ?_, hp.latches, h1, h2, h3, h4, h5, h6⟩
    · rw [State.awake, hport, Bool.false_and]
    · rw [State.atn, hport, Bool.false_and]
  · have hraised := resumeBlocks_raised hs hsup hr
    refine ⟨_, exec_resetnHigh_of_low hlow hsup, ?_⟩
    generalize resumeBlocks s.pinHigh = t at hraised
    obtain ⟨hframe, hlines, hkept, hlink, hsweep⟩ := hraised
    have htlow : t.resetLow = false := (congrArg State.resetLow hframe :)
    have htcauses : t.resetCauses = 0 := (congrArg State.resetCauses hframe :)
    have htaken : t.attentionTaken = s.attentionTaken := (congrArg State.attentionTaken hframe :)
    have htsup : t.supply = .full := (congrArg State.supply hframe : _).trans hsup
    have htwork : t.work = s.work := (congrArg State.work hframe :)
    refine ⟨htlow, ?_, htcauses, fun c hc => ?_, hlines, hlink, hsweep, ?_⟩
    · refine (awake_iff _).mpr ⟨(portOn_iff _).mpr ⟨htsup, htlow⟩, ?_⟩
      rw [State.resetting, htwork]
      exact hr
    · unfold State.latched State.latches at hc ⊢
      rw [htaken, getLsbD_latch]
      rcases hc with hc | hc
      · exact ((getLsbD_latch _ _ c).mp hc).imp_left fun ha => hkept c (.inl ha)
      · exact .inl (hkept c (.inr hc))
    · rw [htlow, htcauses]
      exact hframe

/-- MAIN_SUPPLY_FAIL's row, and what is left behind it. -/
theorem mainSupplyFail_rows {s reached : State} (hs : Whole s)
    (hreached : reached = (if s.cutDue then cutOperation (Config.cutOf s.cuts) s else s)) :
    (s.cutDue = false ∨ Config.cutOf s.cuts = none → reached = s) ∧
    (s.supply = .retainedOnly → exec .mainSupplyFail s = .next s) ∧
    (s.supply = .full →
      ∃ t, exec .mainSupplyFail s = .next t ∧ t.supply = .retainedOnly ∧ t.awake = false ∧ blocksReset t ∧
        t.latches = 0 ∧ t.linkState = .stopped ∧ t.sweep = none ∧ t.mode = .normal ∧ sameRetained reached t ∧
        (reached.tamper.value.clearing = false → t.tamper = reached.tamper ∧ t.deferred = reached.deferred)) := by
  refine ⟨fun hno => ?_, exec_mainSupplyFail_of_off, fun hsup => ?_⟩
  · rw [hreached]
    rcases hno with hd | hc
    · rw [if_neg (Bool.eq_false_iff.mp hd)]
    · rw [hc, cutOperation_none, ite_self]
  · obtain ⟨n, t, hexec, hv⟩ := exec_mainSupplyFail_vanished hs hsup
    have hsame : s.reachedAtFailure = reached := hreached.symm
    rw [hsame] at hv
    exact ⟨t, hexec, hv.supply, hv.awake, hv.blocksReset, hv.latches, (congrArg State.linkState hv.frame :),
      (congrArg State.sweep hv.frame :), (congrArg State.mode hv.frame :), hv.sameRetained, hv.idle⟩

/-- Settles O50: for every value of the free cut, step by step of the operation that it names. -/
theorem resetPinAndSupplyFailure : Obligations.ResetPinAndSupplyFailure := by
  unfold Obligations.ResetPinAndSupplyFailure
  refine ⟨fun s hsup hu hw => resetn_rows ⟨hu, hw⟩ hsup, fun s reached hu hw hr => mainSupplyFail_rows ⟨hu, hw⟩ hr,
    fun s n cmd l1 l2 ha hu hw hm hold => ?_, fun s t w n hu hw ht => ?_, fun s t w n r id closed b hu hw ht hv hcls => ?_⟩
  · have hs : Whole s := ⟨hu, hw⟩
    refine ⟨fun cut hwalk t ht => ?_, fun hother hseat hwork hlink =>
      exec_mainSupplyFail_walk hold hother hseat hwork hlink ha hs hm, fun hn hsent => ?_⟩
    · rw [ht]
      have hcut := cutWalk_cut ha hold hs hm hwalk
      exact ⟨hcut.records, hcut.position⟩
    · subst hn
      exact exec_resetnLow_walk ha hold hs hm hsent
  · have hs : Whole s := ⟨hu, hw⟩
    refine ⟨fun x cmd l1 l2 which ha hold hwalk hwhich => ?_, fun d ha hwd hseat hd => ?_, fun hwr => ?_, fun hwc hp => ?_,
      fun hwm ha hlink hplace records hrecords id => ?_⟩
    · rw [ht, ← undoes_eq hwhich]
      exact engine_undoneInPart hs ha hold hwalk n
    · rw [ht, hwd]
      exact decision_undoneInPart hs ha hseat hd n
    · rw [ht, hwr]
      exact retire_cut hs n
    · subst hwc
      refine ⟨fun r hwork hr hle hdef hsent => census_cut hs hp hwork ht hr hle hdef hsent,
        fun hwork => ht.trans (clearBars_cut hs hp hwork n), fun hwork => reset_cut hs hp hwork ht,
        fun hwork => clear_cut hs hp hwork ht⟩
    · have hmark := mark_cut hs ha hlink hplace n
      have hlist : s.markRecords = records := hrecords.symm
      rw [hlist, ← hwm, ← ht] at hmark
      exact ⟨congrArg (Table.get Slot.cleared · id) hmark.grants, hmark.inUse id, hmark.sent id⟩
  · have hs : Whole s := ⟨hu, hw⟩
    refine ⟨fun hwc hp hwork hr hlt hplace hcred hid hsent hrole hone => ?_,
      fun d c h hwd ha hseat hab hphase hroom hhold hc hf hadm => ?_⟩
    · subst hwc
      have hok : removeArgumentsOk s.window = true := (removeArgumentsOk_iff _).mpr ⟨hr ▸ hlt, hplace, hcred⟩
      exact remove_cut hs hv hcls hp hwork ht hr hok hid hsent hrole hone
    · subst hwd
      obtain ⟨hnone, hsome⟩ := admission_cut hs hv hcls ha ht hseat hab hphase hroom hc hf hadm
      refine ⟨hnone, fun hn => ?_⟩
      have hin := hsome hn
      exact ⟨hin.inUse, hin.room, hin.body⟩

end Sys2Proof.Machine

namespace Sys2Proof.Machine
open Sys2Proof

/-! ## The commands of the Room Table (R49 to R53) -/

theorem Room.view_undefined_iff (x : Room) : x.view = .undefined ↔ x.header.value = .undefined := by
  unfold Room.view
  cases x.header.value <;> simp

theorem Room.view_faulted_iff (x : Room) : x.view = .faulted ↔ x.header.value = .faulted := by
  unfold Room.view
  cases x.header.value <;> simp

/-- A room that is neither UNDEFINED nor FAULTED can be read. -/
theorem Room.view_of_header {x : Room} (hu : x.header.value ≠ .undefined) (hf : x.header.value ≠ .faulted) :
    ∃ closed, x.view = .readable closed x.body.value := by
  unfold Room.view
  cases h : x.header.value with
  | undefined => exact absurd h hu
  | faulted => exact absurd h hf
  | inService | closed => exact ⟨_, rfl⟩

theorem roomArgOk_iff (w : Window) : roomArgOk w = true ↔ roomArg w < 64 := decide_eq_true_iff

/-- The owner's work of a command that takes a room number. -/
def roomOwner : Instr → State → State
  | .closeRoom => moveRoom .closed
  | .openRoom => moveRoom .inService
  | .deleteRoom => opDeleteRoom
  | .readRoom => opReadRoom
  | .listPresence => opListPresence
  | .removePresence => opRemovePresence
  | .resetCensus => opResetCensus
  | _ => id

theorem exec_roomCommand {p : Instr × BitVec 8} (hp : p ∈ roomCommands) {s : State} (ha : s.accepts = true) :
    exec p.1 s = .next (roomOwner p.1 (accepted p.2 s)) := by
  have hw : ∀ owner, Host.Outcome.next (commandWrite p.2 owner s) = (.next (owner (accepted p.2 s)) : Outcome) :=
    fun owner => congrArg _ (commandWrite_of_accepts ha p.2 owner)
  simp only [roomCommands, List.mem_cons, List.not_mem_nil, or_false] at hp
  rcases hp with rfl | rfl | rfl | rfl | rfl | rfl | rfl <;> exact hw _

theorem exec_defineRoom_of_accepts {s : State} (ha : s.accepts = true) :
    exec .defineRoom s = .next (opDefineRoom (accepted 0x30 s)) :=
  congrArg _ (commandWrite_of_accepts ha 0x30 opDefineRoom)

/-- A room number outside 0-63 is refused before anything is read. -/
theorem roomOwner_of_bad_number {p : Instr × BitVec 8} (hp : p ∈ roomCommands) {s : State} (h : 64 ≤ roomArg s.window) :
    roomOwner p.1 s = refuse .badArgument s := by
  have hno : roomArgOk s.window = false := decide_eq_false (Nat.not_lt.mpr h)
  simp only [roomCommands, List.mem_cons, List.not_mem_nil, or_false] at hp
  rcases hp with rfl | rfl | rfl | rfl | rfl | rfl | rfl
  · simp only [roomOwner, moveRoom, hno, Bool.false_eq_true, if_false]
  · simp only [roomOwner, moveRoom, hno, Bool.false_eq_true, if_false]
  · simp only [roomOwner, opDeleteRoom, hno, Bool.false_eq_true, if_false]
  · simp only [roomOwner, opReadRoom, hno, Bool.false_eq_true, if_false]
  · simp only [roomOwner, opListPresence, hno, Bool.false_eq_true, false_and, if_false]
  · simp only [roomOwner, opRemovePresence, removeArgumentsOk, hno, Bool.false_and, Bool.false_eq_true, if_false]
  · simp only [roomOwner, opResetCensus, hno, Bool.false_eq_true, if_false]

section
variable {s : State} {r : Nat} (hu : s.undamaged = true) (hr : r = roomArg s.window) (hlt : r < 64)
include hu hr hlt

/-! ### CLOSE ROOM and OPEN ROOM -/

theorem moveRoom_of_undefined (wanted : RoomState) (h : (s.room r).header.value = .undefined) :
    moveRoom wanted s = refuse .notFound s := by
  have hok := (roomArgOk_iff s.window).mpr (hr ▸ hlt)
  simp only [moveRoom, hok, if_true, readRoomRecord_undamaged hu, ← hr, (Room.view_undefined_iff _).mpr h]

theorem moveRoom_of_faulted (wanted : RoomState) (h : (s.room r).header.value = .faulted) :
    moveRoom wanted s = refuse .faulted s := by
  have hok := (roomArgOk_iff s.window).mpr (hr ▸ hlt)
  simp only [moveRoom, hok, if_true, readRoomRecord_undamaged hu, ← hr, (Room.view_faulted_iff _).mpr h]

/-- A room that can be read is moved to the wanted state, or stands in it already (R51). -/
theorem moveRoom_of_readable (wanted : RoomState) {closed : Bool} {b : RoomBody} (h : (s.room r).view = .readable closed b) :
    moveRoom wanted s = if closed = decide (wanted = .closed) then refuse .already s
      else finishOk (writeRoomHeader r wanted s) := by
  have hok := (roomArgOk_iff s.window).mpr (hr ▸ hlt)
  simp only [moveRoom, hok, if_true, readRoomRecord_undamaged hu, ← hr, h]

/-! ### DELETE ROOM -/

theorem opDeleteRoom_of_undefined (h : (s.room r).header.value = .undefined) : opDeleteRoom s = refuse .notFound s := by
  have hok := (roomArgOk_iff s.window).mpr (hr ▸ hlt)
  simp only [opDeleteRoom, hok, if_true, readRoomHeader_undamaged hu, ← hr, h]

/-- A room that is not UNDEFINED is deleted where nobody is in it and no station is bound to it (R52). -/
theorem opDeleteRoom_of_defined (h : (s.room r).header.value ≠ .undefined) : opDeleteRoom s =
    if s.occupancy r = 0 ∧ s.boundAmong r (numbersFrom 1 31) = [] then finishOk (s.setRoom r .cleared)
    else refuse .inUse s := by
  have hok := (roomArgOk_iff s.window).mpr (hr ▸ hlt)
  simp only [opDeleteRoom, hok, if_true, readRoomHeader_undamaged hu, ← hr, h, if_false, scanIndexes_undamaged hu,
    boundStations_undamaged hu, Config.stations]
  by_cases ho : s.occupancy r = 0 <;> by_cases hb : s.boundAmong r (numbersFrom 1 31) = [] <;> simp [ho, hb]

/-! ### READ ROOM -/

theorem opReadRoom_of_undefined (h : (s.room r).header.value = .undefined) : opReadRoom s = finish (.bare .ok) s := by
  have hok := (roomArgOk_iff s.window).mpr (hr ▸ hlt)
  simp only [opReadRoom, hok, if_true, readRoomRecord_undamaged hu, ← hr, (Room.view_undefined_iff _).mpr h]

theorem opReadRoom_of_faulted (h : (s.room r).header.value = .faulted) : opReadRoom s =
    finish ⟨.faulted, roomWords .faulted none (s.occupancy r)
      (boundWord (s.boundAmong r (numbersFrom 1 31)) s)⟩ s := by
  have hok := (roomArgOk_iff s.window).mpr (hr ▸ hlt)
  simp only [opReadRoom, hok, if_true, readRoomRecord_undamaged hu, ← hr, (Room.view_faulted_iff _).mpr h, scanIndexes_undamaged hu,
    boundStations_undamaged hu]

theorem opReadRoom_of_readable {closed : Bool} {b : RoomBody} (h : (s.room r).view = .readable closed b) : opReadRoom s =
    finish (.okWith (roomWords (if closed then .closed else .inService) (some b) (s.occupancy r)
      (boundWord (s.boundAmong r (numbersFrom 1 31)) s))) s := by
  have hok := (roomArgOk_iff s.window).mpr (hr ▸ hlt)
  simp only [opReadRoom, hok, if_true, readRoomRecord_undamaged hu, ← hr, h, scanIndexes_undamaged hu,
    boundStations_undamaged hu]

/-! ### RESET CENSUS -/

theorem opResetCensus_of_undefined (h : (s.room r).header.value = .undefined) : opResetCensus s = refuse .notFound s := by
  have hok := (roomArgOk_iff s.window).mpr (hr ▸ hlt)
  simp only [opResetCensus, hok, if_true, readRoomHeader_undamaged hu, ← hr, h]

end

/-- The stations bound to a room, as a question about every station. -/
theorem boundAmong_eq_nil_iff (s : State) (r : Nat) : s.boundAmong r (numbersFrom 1 31) = [] ↔
    ∀ k, 1 ≤ k → k ≤ 31 → (s.station k).readable.bind (·.binding) ≠ some r := by
  simp only [State.boundAmong, List.filter_eq_nil_iff, mem_numbersFrom, decide_eq_true_eq, and_imp]
  exact forall_congr' fun k => forall_congr' fun _ => ⟨fun h hk => h (by omega), fun h hk => h (by omega)⟩

/-- Settles O24: the argument, the room's state, and the state that is written. -/
theorem roomArgumentsCloseAndOpen : Obligations.RoomArgumentsCloseAndOpen := by
  unfold Obligations.RoomArgumentsCloseAndOpen
  refine ⟨fun s p hp ha hu => ⟨fun h => ?_, fun h => ?_, fun hc r hn hx => ?_, fun hc r hn hx => ?_⟩, fun s r hn => ?_⟩
  · rw [exec_roomCommand hp ha]
    exact congrArg _ (roomOwner_of_bad_number (s := accepted p.2 s) hp h)
  · rw [exec_defineRoom_of_accepts ha, opDefineRoom]
    simp only [accepted_frame, h]
    rfl
  · obtain ⟨-, -, hr, hlt⟩ := hn
    obtain ⟨i, code⟩ := p
    rw [exec_roomCommand hp ha]
    refine congrArg _ ?_
    rcases hc with rfl | rfl | rfl | rfl
    · exact moveRoom_of_undefined (s := accepted code s) hu hr hlt .closed hx
    · exact moveRoom_of_undefined (s := accepted code s) hu hr hlt .inService hx
    · exact opDeleteRoom_of_undefined (s := accepted code s) hu hr hlt hx
    · exact opResetCensus_of_undefined (s := accepted code s) hu hr hlt hx
  · obtain ⟨-, -, hr, hlt⟩ := hn
    obtain ⟨i, code⟩ := p
    rw [exec_roomCommand hp ha]
    obtain rfl : i = .readRoom := hc
    exact congrArg _ (opReadRoom_of_undefined (s := accepted code s) hu hr hlt hx)
  · obtain ⟨ha, hu, hr, hlt⟩ := hn
    have hclose : exec .closeRoom s = .next (moveRoom .closed (accepted 0x31 s)) :=
      exec_roomCommand (p := (.closeRoom, 0x31)) (by decide) ha
    have hopen : exec .openRoom s = .next (moveRoom .inService (accepted 0x32 s)) :=
      exec_roomCommand (p := (.openRoom, 0x32)) (by decide) ha
    rw [hclose, hopen]
    refine ⟨fun h => ?_, fun h => ?_, fun h => ?_⟩
    · have hv := Room.view_of_inService h
      exact ⟨congrArg _ (moveRoom_of_readable (s := accepted 0x31 s) hu hr hlt .closed hv),
        congrArg _ (moveRoom_of_readable (s := accepted 0x32 s) hu hr hlt .inService hv)⟩
    · have hv := Room.view_of_closed h
      exact ⟨congrArg _ (moveRoom_of_readable (s := accepted 0x32 s) hu hr hlt .inService hv),
        congrArg _ (moveRoom_of_readable (s := accepted 0x31 s) hu hr hlt .closed hv)⟩
    · exact ⟨congrArg _ (moveRoom_of_faulted (s := accepted 0x31 s) hu hr hlt .closed h),
        congrArg _ (moveRoom_of_faulted (s := accepted 0x32 s) hu hr hlt .inService h)⟩

/-- Settles O26: the deletion's two tests, one of the Presence Pool and one of the station table. -/
theorem deleteRoomNeedsAnEmptyRoom : Obligations.DeleteRoomNeedsAnEmptyRoom := by
  unfold Obligations.DeleteRoomNeedsAnEmptyRoom
  rintro s r ⟨ha, hu, hr, hlt⟩ hx
  have hexec : exec .deleteRoom s = .next (opDeleteRoom (accepted 0x33 s)) :=
    exec_roomCommand (p := (.deleteRoom, 0x33)) (by decide) ha
  rw [hexec, opDeleteRoom_of_defined (s := accepted 0x33 s) hu hr hlt hx]
  have hbound := boundAmong_eq_nil_iff s r
  refine ⟨fun ho hb => congrArg _ (if_pos ⟨ho, hbound.mpr hb⟩), fun hno => congrArg _ (if_neg ?_)⟩
  rintro ⟨ho, hb⟩
  rcases hno with hno | ⟨k, h1, h31, hk⟩
  · exact hno ho
  · exact hbound.mp hb k h1 h31 hk

end Sys2Proof.Machine

namespace Sys2Proof.Machine
open Sys2Proof

/-! ## DEFINE ROOM (R49, R50) -/

/-- The key scan reads the other rooms and finds the key where one of them that can be read holds it. -/
theorem scanKeys_undamaged {s : State} (hu : s.undamaged = true) (room : Nat) (key : Key) (rs : List Nat) :
    (scanKeys room key rs s).2 = s ∧ ((scanKeys room key rs s).1 = true ↔
      ∃ r ∈ rs, r ≠ room ∧ ∃ closed b, (s.room r).view = .readable closed b ∧ b.key = key) := by
  induction rs with
  | nil => exact ⟨rfl, by simp [scanKeys]⟩
  | cons r rs ih =>
    obtain ⟨hsame, hfound⟩ := ih
    simp only [scanKeys, readRoomRecord_undamaged hu, List.exists_mem_cons_iff, ← hfound]
    by_cases hr : r = room
    · rw [if_pos hr]
      exact ⟨hsame, by simp [hr]⟩
    · rw [if_neg hr]
      cases hv : (s.room r).view with
      | undefined | faulted => exact ⟨hsame, by simp⟩
      | readable closed b => exact ⟨hsame, by simp [hr]⟩

section
variable {s : State} (hu : s.undamaged = true) {room : Nat} {key : Key}
include hu

theorem scanKeys_of_taken (h : keyTaken s room key) : scanKeys room key (numbersFrom 0 64) s = (true, s) := by
  obtain ⟨r, hlt, hne, hkey⟩ := h
  obtain ⟨hsame, hfound⟩ := scanKeys_undamaged hu room key (numbersFrom 0 64)
  exact Prod.ext (hfound.mpr ⟨r, mem_numbersFrom.mpr ⟨r.zero_le, by omega⟩, hne, hkey⟩) hsame

theorem scanKeys_of_not_taken (h : ¬ keyTaken s room key) : scanKeys room key (numbersFrom 0 64) s = (false, s) := by
  obtain ⟨hsame, hfound⟩ := scanKeys_undamaged hu room key (numbersFrom 0 64)
  refine Prod.ext (Bool.eq_false_iff.mpr fun ht => h ?_) hsame
  obtain ⟨r, hr, hne, hkey⟩ := hfound.mp ht
  exact ⟨r, by have := (mem_numbersFrom.mp hr).2; omega, hne, hkey⟩

end

section
variable {s : State} {d : RoomDefinition} (hu : s.undamaged = true) (hd : defineArg s.window = some d)
include hu hd

theorem opDefineRoom_of_faulted (h : (s.room d.room).header.value = .faulted) : opDefineRoom s = refuse .faulted s := by
  simp only [opDefineRoom, hd, readRoomRecord_undamaged hu, (Room.view_faulted_iff _).mpr h]

/-- A key that another room holds is refused, for a new room and for an old one. -/
theorem opDefineRoom_of_taken (hkey : keyTaken s d.room d.key) (h : (s.room d.room).header.value ≠ .faulted) :
    opDefineRoom s = refuse .badArgument s := by
  simp only [opDefineRoom, hd, readRoomRecord_undamaged hu, Config.rooms, scanKeys_of_taken hu hkey, if_true]
  cases hv : (s.room d.room).view with
  | undefined | readable closed b => rfl
  | faulted => exact absurd ((Room.view_faulted_iff _).mp hv) h

theorem opDefineRoom_of_new (hkey : ¬ keyTaken s d.room d.key) (h : (s.room d.room).header.value = .undefined) :
    opDefineRoom s = createRoom d s := by
  simp only [opDefineRoom, hd, readRoomRecord_undamaged hu, (Room.view_undefined_iff _).mpr h, Config.rooms,
    scanKeys_of_not_taken hu hkey, Bool.false_eq_true, if_false]

theorem opDefineRoom_of_readable (hkey : ¬ keyTaken s d.room d.key) {closed : Bool} {b : RoomBody}
    (h : (s.room d.room).view = .readable closed b) : opDefineRoom s = amendRoom d b s := by
  simp only [opDefineRoom, hd, readRoomRecord_undamaged hu, h, Config.rooms, scanKeys_of_not_taken hu hkey,
    Bool.false_eq_true, if_false, Room.view_readable h]

end

/-- The work of the Pair Table and of the Referral Queue at a room keeps its class (R50). -/
def State.worksIn (s : State) (r : Nat) : Bool :=
  s.anyPair (fun c => decide (c.room = r)) || s.anyApproval (fun e _ => decide (e.room = r))

theorem worksIn_iff (s : State) (r : Nat) : s.worksIn r = true ↔
    s.anyPair (fun c => decide (c.room = r)) = true ∨ s.anyApproval (fun e _ => decide (e.room = r)) = true :=
  Bool.or_eq_true_iff

theorem amendRoom_undamaged {s : State} (hu : s.undamaged = true) (d : RoomDefinition) (b : RoomBody) : amendRoom d b s =
    if d.limit < s.occupancy d.room ∨ (d.cls ≠ b.cls ∧ s.worksIn d.room = true) then refuse .inUse s
    else finishOk (writeRoomBody d.room { b with key := d.key, cls := d.cls, limit := d.limit } s) := by
  simp only [amendRoom, scanIndexes_undamaged hu, worksIn_iff]
  by_cases hl : d.limit < s.occupancy d.room
  · simp only [hl, if_true, true_or]
  · simp only [hl, if_false, false_or]

/-- Settles O25: the room's state, the key, and for a room that can be read its occupants and its work. -/
theorem defineRoomCreatesOrAmends : Obligations.DefineRoomCreatesOrAmends := by
  unfold Obligations.DefineRoomCreatesOrAmends
  intro s d ha hu hd
  rw [exec_defineRoom_of_accepts ha]
  refine ⟨fun hkey hx => ?_, fun hx => ?_, fun hkey hx => ?_, fun closed b hkey hv => ?_⟩
  · exact congrArg _ (opDefineRoom_of_taken (s := accepted 0x30 s) hu hd hkey hx)
  · exact congrArg _ (opDefineRoom_of_faulted (s := accepted 0x30 s) hu hd hx)
  · exact congrArg _ (opDefineRoom_of_new (s := accepted 0x30 s) hu hd hkey hx)
  · have hop := (opDefineRoom_of_readable (s := accepted 0x30 s) hu hd hkey hv).trans
      (amendRoom_undamaged (s := accepted 0x30 s) hu d b)
    have hwork := worksIn_iff s d.room
    rw [hop]
    refine ⟨fun hl => congrArg _ (if_pos (.inl hl)), fun _ hc hw => congrArg _ (if_pos (.inr ⟨hc, hwork.mpr hw⟩)),
      fun hl hc => congrArg _ (if_neg ?_)⟩
    rintro (hgt | ⟨hne, hw⟩)
    · exact Nat.not_lt.mpr hl hgt
    · obtain ⟨hp, hq⟩ := hc.resolve_left hne
      rcases hwork.mp hw with hw | hw
      · rw [hp] at hw
        cases hw
      · rw [hq] at hw
        cases hw

/-! ## LIST PRESENCE (R64) -/

theorem readPlace_undamaged {s : State} (hu : s.undamaged = true) (r place : Nat) :
    readPlace r place s = (wordsAt s r place, s) := by
  unfold readPlace wordsAt
  cases s.recordAt r place with
  | none => rfl
  | some id => simp only [readPresenceBody_undamaged hu, Option.map_some]

section
variable {s : State} {r place : Nat} (hplace : place = field s.window.arg1 0 8)
include hplace

theorem opListPresence_of_bad_place (h : place = 0 ∨ 32 < place) : opListPresence s = refuse .badArgument s := by
  simp only [opListPresence, ← hplace]
  rw [if_neg]
  rintro ⟨-, h1, h32⟩
  omega

variable (hr : r = roomArg s.window) (hlt : r < 64) (hu : s.undamaged = true) (h1 : 1 ≤ place) (h32 : place ≤ 32)
include hr hlt hu h1 h32

theorem opListPresence_of_undefined (h : (s.room r).header.value = .undefined) :
    opListPresence s = refuse .notFound s := by
  have hok := (roomArgOk_iff s.window).mpr (hr ▸ hlt)
  simp only [opListPresence, ← hplace, hok, h1, h32, and_self, if_true, readRoomHeader_undamaged hu, ← hr, h]

theorem opListPresence_of_defined (h : (s.room r).header.value ≠ .undefined) : opListPresence s =
    finish (.okWith (pageWords (s.occupancy r) (if place + 2 ≤ s.occupancy r then place + 2 else 0) (wordsAt s r place)
      (wordsAt s r (place + 1)))) s := by
  have hok := (roomArgOk_iff s.window).mpr (hr ▸ hlt)
  simp only [opListPresence, ← hplace, hok, h1, h32, and_self, if_true, readRoomHeader_undamaged hu, ← hr, h, if_false,
    scanIndexes_undamaged hu, readPlace_undamaged hu]

end

/-- Settles O27: the two commands read, and answer with what they have read. -/
theorem readRoomAndListPresence : Obligations.ReadRoomAndListPresence := by
  unfold Obligations.ReadRoomAndListPresence
  refine ⟨?_, ?_⟩
  · rintro s r bound ⟨ha, hu, hr, hlt⟩ rfl
    have hexec : exec .readRoom s = .next (opReadRoom (accepted 0x34 s)) :=
      exec_roomCommand (p := (.readRoom, 0x34)) (by decide) ha
    rw [hexec]
    refine ⟨fun closed b hv => congrArg _ ?_, fun hx => congrArg _ ?_⟩
    · rw [opReadRoom_of_readable (s := accepted 0x34 s) hu hr hlt hv]
      cases closed <;> rfl
    · exact opReadRoom_of_faulted (s := accepted 0x34 s) hu hr hlt hx
  · rintro s r place ⟨ha, hu, hr, hlt⟩ hplace
    have hexec : exec .listPresence s = .next (opListPresence (accepted 0x35 s)) :=
      exec_roomCommand (p := (.listPresence, 0x35)) (by decide) ha
    rw [hexec]
    refine ⟨fun hbad => ?_, fun h1 h32 hx => ?_, fun h1 h32 hx => ?_⟩
    · exact congrArg _ (opListPresence_of_bad_place (s := accepted 0x35 s) hplace hbad)
    · exact congrArg _ (opListPresence_of_undefined (s := accepted 0x35 s) hplace hr hlt hu h1 h32 hx)
    · exact congrArg _ (opListPresence_of_defined (s := accepted 0x35 s) hplace hr hlt hu h1 h32 hx)

end Sys2Proof.Machine

namespace Sys2Proof.Machine
open Sys2Proof

/-! ## A removal, with what it leaves of the rooms and of the latches (R58, R61) -/

/-- A room in undamaged storage is told by its values. -/
theorem room_ext {s t : State} (hs : Whole s) (ht : Whole t) {r : Nat} (hh : (t.room r).header = (s.room r).header)
    (hb : (t.room r).body.value = (s.room r).body.value) : t.room r = s.room r := by
  have h1 := Stored.eq_of_good (Bool.and_eq_true_iff.mp (room_undamaged ht.clean r)).2
  have h2 := Stored.eq_of_good (Bool.and_eq_true_iff.mp (room_undamaged hs.clean r)).2
  have hbody : (t.room r).body = (s.room r).body := by rw [h1, h2, hb]
  exact congrArg₂ Room.mk hh hbody

theorem indexWithout_place (s : State) (id k : Nat) : (s.indexWithout id k).place =
    if (s.index k).inUse = true ∧ (s.index k).room = (s.index id).room ∧ (s.index id).place < (s.index k).place
    then (s.index k).place - 1 else (s.index k).place := by
  unfold State.indexWithout
  simp only [and_assoc]
  split <;> rfl

theorem leftAlone_iff {s : State} {r k : Nat} : s.leftAlone r k = true ↔ k ∈ s.readableOf (s.contractors r) := by
  simp only [State.leftAlone, Bool.and_eq_true, decide_eq_true_eq, Bool.not_eq_true', mem_readableOf, mem_contractors]

section
variable {s : State} (h : Whole s) {id : Nat}
include h

/-- A CONTRACTOR's leaving writes no room. -/
theorem takeOut_rooms (hrole : (s.index id).role ≠ .escort) : (takeOut id s).2.rooms = s.rooms := by
  have hun := (unlinkRecord_unlinked h id).rooms
  simp only [takeOut, readRoomRecord_undamaged h.clean, hrole, if_false]
  cases (s.room (s.index id).room).view <;> exact hun

theorem removeRecord_of_not_last (hl : s.lastEscort id = false) : removeRecord id s = (takeOut id s).2 := by
  simp only [removeRecord, (takeOut_spec h id).2, hl, Bool.false_eq_true, if_false]

/-- The last escort's leaving raises PRESENCE ALERT where a record that it marks was not marked before (R59, R61). -/
theorem removeRecord_of_last (hl : s.lastEscort id = true) : PoolChange
    ((s.readableOf (s.contractors (s.index id).room)).any (fun k => !(s.record k).body.value.conditions.unescorted)) s
    (removeRecord id s) := by
  obtain ⟨hout, hlast⟩ := takeOut_spec h id
  have hdef : removeRecord id s =
      (forReadable (setCondition .unescorted) ((takeOut id s).2.contractors (s.index id).room) (takeOut id s).2).2 := by
    simp only [removeRecord, hlast, hl, if_true]
    rfl
  rw [hdef]
  generalize (takeOut id s).2 = t at hout
  rw [hout.contractors h hl]
  have hm := (forReadable_marked unescorted_acts hout.change.whole
    ((contractors_sorted h (s.index id).room).imp Nat.ne_of_lt)).1
  have hne : ∀ k ∈ s.contractors (s.index id).room, k ≠ id := fun k hk hid => by
    have hrole := (mem_contractors.mp hk).2
    rw [hid, role_of_lastEscort hl] at hrole
    cases hrole
  have hread : t.readableOf (s.contractors (s.index id).room) = s.readableOf (s.contractors (s.index id).room) :=
    List.filter_congr fun k hk => by
      obtain ⟨-, -, -, -, hf⟩ := indexWithout_fields s id k
      rw [hout.index k (hne k hk), hf]
  have hany := any_congr_mem (l := s.readableOf (s.contractors (s.index id).room))
    (p := fun k => !(t.record k).body.value.conditions.has .unescorted && ((t.index k).sent || true))
    (q := fun k => !(s.record k).body.value.conditions.unescorted) fun k hk => by
      rw [hout.body k (hne k (mem_readableOf.mp hk).1), Bool.or_true, Bool.and_true]
      rfl
  have hboth := hout.change.trans h hm.change
  rw [Bool.false_or, hread, hany] at hboth
  exact hboth

end

section
variable {s t : State} {id : Nat} (h : RecordRemoved id s t)
include h

theorem RecordRemoved.whole : Whole t := h.change.elim fun _ hc => hc.whole

/-- The rooms that the record did not stand in are untouched. -/
theorem RecordRemoved.room_other (hs : Whole s) {q : Nat} (hq : q ≠ (s.index id).room) : t.room q = s.room q := by
  refine room_ext hs h.whole (h.header q) ((h.room q).trans ?_)
  rcases (s.room q).view.readable_or with hv | ⟨closed, b, hv⟩
  · exact roomWithout_of_unreadable hv id
  · rw [roomWithout_of_readable hv, if_neg (fun hh => hq hh.1.symm), Room.view_readable hv]

theorem RecordRemoved.fields {k : Nat} (hk : k ≠ id) : (t.index k).inUse = (s.index k).inUse ∧
    (t.index k).room = (s.index k).room ∧ (t.index k).role = (s.index k).role ∧ (t.index k).sent = (s.index k).sent := by
  obtain ⟨h1, h2, h3, h4, -⟩ := indexWithout_fields s id k
  rw [h.index k hk]
  exact ⟨h1, h2, h3, h4⟩

/-- Of the records in use one alone has left. -/
theorem RecordRemoved.alone : removedAlone id s t := fun k => by
  by_cases hk : k = id
  · rw [hk, State.index, h.gone, free_index]
    simp
  · rw [(h.fields hk).1]
    simp [hk]

end

/-! ## REMOVE PRESENCE (R65) -/

section
variable {s : State} (hs : Whole s)
include hs

theorem findNamed_eq : findNamed s.window s = (namedRecord s (roomArg s.window), s) := by
  refine Prod.ext (findNamed_undamaged hs) ?_
  unfold findNamed
  dsimp only
  rw [locate_undamaged hs.clean]
  split
  · rfl
  · dsimp only
    split <;> rfl

variable {r : Nat} (hr : r = roomArg s.window) (hok : removeArgumentsOk s.window = true)
include hr hok

theorem opRemovePresence_of_undefined (h : (s.room r).header.value = .undefined) :
    opRemovePresence s = refuse .notFound s := by
  simp only [opRemovePresence, hok, if_true, readRoomRecord_undamaged hs.clean, ← hr, (Room.view_undefined_iff _).mpr h]

theorem opRemovePresence_of_faulted (h : (s.room r).header.value = .faulted) :
    opRemovePresence s = refuse .faulted s := by
  simp only [opRemovePresence, hok, if_true, readRoomRecord_undamaged hs.clean, ← hr, (Room.view_faulted_iff _).mpr h]

variable {closed : Bool} {b : RoomBody} (hv : (s.room r).view = .readable closed b)
include hv

theorem opRemovePresence_of_none (h : namedRecord s r = none) : opRemovePresence s = refuse .notFound s := by
  simp only [opRemovePresence, hok, if_true, readRoomRecord_undamaged hs.clean, ← hr, hv, scanIndexes_undamaged hs.clean,
    findNamed_eq hs, h]

theorem opRemovePresence_of_named {id : Nat} (h : namedRecord s r = some id) : opRemovePresence s =
    if (s.index id).sent then finish (.okWith { arg0 := put 0 1 (s.index id).role.code }) (removeRecord id s)
    else refuse .inUse s := by
  simp only [opRemovePresence, hok, if_true, readRoomRecord_undamaged hs.clean, ← hr, hv, scanIndexes_undamaged hs.clean,
    findNamed_eq hs, h]

end

theorem opRemovePresence_of_bad_arguments {s : State} (h : removeArgumentsOk s.window = false) :
    opRemovePresence s = refuse .badArgument s := by
  simp only [opRemovePresence, h, Bool.false_eq_true, if_false]

theorem removeArgumentsOk_of_bad {w : Window} (h : 64 ≤ roomArg w ∨
    (w.arg0.getLsbD 8 = true ∧ (w.arg1 = 0 ∨ 32 < w.arg1.toNat)) ∨
    (w.arg0.getLsbD 8 = false ∧ (w.arg2.truncate 8 ++ w.arg1 : BitVec 40) = 0)) : removeArgumentsOk w = false := by
  refine Bool.eq_false_iff.mpr fun hok => ?_
  obtain ⟨hlt, hplace, hcred⟩ := (removeArgumentsOk_iff w).mp hok
  rcases h with h | ⟨hbit, h | h⟩ | ⟨hbit, h⟩
  · exact Nat.not_le.mpr hlt h
  · have hone := (hplace hbit).1
    rw [h] at hone
    exact absurd hone (by decide)
  · exact Nat.not_lt.mpr (hplace hbit).2 h
  · exact hcred hbit h

/-- A record of a room that can be read has been removed by the host: what its leaving does to the escort count, to
those it leaves alone and to the latches. -/
structure LeftRoom (r id : Nat) (b : RoomBody) (s t : State) : Prop where
  contractor : (s.index id).role = .contractor → t.rooms = s.rooms ∧ t.attention = s.attention
  escort : (s.index id).role = .escort → (t.room r).body.value.escorts = b.escorts - 1
  accompanied : (s.index id).role = .contractor ∨ b.cls ≠ .escorted ∨ b.escorts ≠ 1 →
    t.attention = s.attention ∧ ∀ k, k ≠ id → (t.record k).body = (s.record k).body
  alone : (s.index id).role = .escort → b.cls = .escorted → b.escorts = 1 →
    (∀ k, k ≠ id → (t.record k).body.value = (if s.leftAlone r k then
      { (s.record k).body.value with conditions := { (s.record k).body.value.conditions with unescorted := true } }
      else (s.record k).body.value)) ∧
    ((∃ k, k ≠ id ∧ s.leftAlone r k = true ∧ (s.record k).body.value.conditions.unescorted = false) →
      t.attention = s.attention ||| Cause.presenceAlert.word) ∧
    ((∀ k, k ≠ id → s.leftAlone r k = true → (s.record k).body.value.conditions.unescorted = true) →
      t.attention = s.attention)

theorem removeRecord_leftRoom {s : State} (hs : Whole s) (ha : s.awake = true) {r id : Nat} {closed : Bool} {b : RoomBody}
    (hroom : (s.index id).room = r) (hv : (s.room r).view = .readable closed b) : LeftRoom r id b s (removeRecord id s) := by
  subst hroom
  have hlast := lastEscort_of_readable hv
  have hrem := removeRecord_removed hs id
  obtain ⟨hout, -⟩ := takeOut_spec hs id
  have hstay : (s.index id).role = .contractor ∨ b.cls ≠ .escorted ∨ b.escorts ≠ 1 →
      removeRecord id s = (takeOut id s).2 := fun hno => by
    refine removeRecord_of_not_last hs (Bool.eq_false_iff.mpr fun hl => ?_)
    obtain ⟨hrole, hone, hcls⟩ := hlast.mp hl
    rcases hno with hno | hno | hno
    · rw [hno] at hrole
      cases hrole
    · exact hno hcls
    · exact hno hone
  refine ⟨fun hrole => ?_, fun hrole => ?_, fun hno => ?_, fun hrole hcls hone => ?_⟩
  · rw [hstay (.inl hrole)]
    exact ⟨takeOut_rooms hs (by rw [hrole]; decide), hout.change.attention_of_awake ha⟩
  · rw [hrem.room, roomWithout_of_readable hv, if_pos ⟨rfl, hrole⟩]
  · rw [hstay hno]
    exact ⟨hout.change.attention_of_awake ha, hout.body⟩
  · have hl := hlast.mpr ⟨hrole, hone, hcls⟩
    have hattention := (removeRecord_of_last hs hl).attention_of_awake ha
    refine ⟨fun k hk => ?_, fun hex => ?_, fun hall => ?_⟩
    · rw [hrem.body k hk, State.bodyWithout]
      simp only [hl, true_and, leftAlone_iff, mem_readableOf, mem_contractors, and_assoc]
      rfl
    · obtain ⟨k, -, hleft, hnew⟩ := hex
      rw [hattention, if_pos (List.any_eq_true.mpr ⟨k, leftAlone_iff.mp hleft, by simp [hnew]⟩)]
    · rw [hattention, if_neg]
      intro hany
      obtain ⟨k, hk, hnew⟩ := List.any_eq_true.mp hany
      have hkid : k ≠ id := fun hid => by
        have hc := (mem_contractors.mp (mem_readableOf.mp hk).1).2
        rw [hid, hrole] at hc
        cases hc
      rw [hall k hkid (leftAlone_iff.mpr hk)] at hnew
      cases hnew

/-! ## RESET CENSUS (R66) -/

theorem emptyRoomList_eq (ids : List Nat) (s : State) : emptyRoomList ids s = runSteps (ids.map .free) s := by
  rw [runSteps_free, List.foldl_map]
  rfl

theorem emptyRoomList_filled {s : State} (hs : Whole s) (r : Nat) :
    Filled ((s.roomRecords r).map (fun id => (id, PresenceRecord.free))) s (emptyRoomList (s.roomRecords r) s) := by
  rw [emptyRoomList_eq]
  exact runSteps_free_filled hs (hs.inUseRecords_nodup.filter _)

theorem resetRoomBody_of_unreadable {s : State} (hs : Whole s) {r : Nat} (h : (s.room r).view.unreadable = true) :
    resetRoomBody r s = s := by
  unfold resetRoomBody
  rw [readRoomRecord_undamaged hs.clean]
  cases hv : (s.room r).view with
  | undefined | faulted => rfl
  | readable closed b =>
    rw [hv] at h
    cases h

theorem resetRoomBody_change {s : State} (hs : Whole s) (r : Nat) : PoolChange false s (resetRoomBody r s) := by
  rcases (s.room r).view.readable_or with hv | ⟨closed, b, hv⟩
  · rw [resetRoomBody_of_unreadable hs hv]
    exact .refl hs
  · unfold resetRoomBody
    rw [readRoomRecord_undamaged hs.clean]
    simp only [hv]
    exact (updateRoomBody_spec hs r (fun _ => { b with escorts := 0, suspect := false })).1

section
variable {s : State} {r : Nat} (hs : Whole s) (hr : r = roomArg s.window) (hlt : r < 64)
  (hx : (s.room r).header.value ≠ .undefined)
include hs hr hlt hx

theorem opResetCensus_of_unsent (h : ∃ id ∈ s.roomRecords r, (s.index id).sent = false) :
    opResetCensus s = refuse .inUse s := by
  have hok := (roomArgOk_iff s.window).mpr (hr ▸ hlt)
  have hany : (s.roomRecords r).any (fun id => !(s.index id).sent) = true := List.any_eq_true.mpr (by simpa using h)
  simp only [opResetCensus, hok, if_true, readRoomHeader_undamaged hs.clean, ← hr, hx, if_false,
    scanIndexes_undamaged hs.clean, hany]

/-- The list is emptied, and then the room is written (R66). -/
theorem opResetCensus_of_sent (h : ∀ id ∈ s.roomRecords r, (s.index id).sent = true) : opResetCensus s =
    finish (.okWith { arg0 := wholeWord (s.occupancy r) }) (resetRoomBody r (emptyRoomList (s.roomRecords r) s)) := by
  have hok := (roomArgOk_iff s.window).mpr (hr ▸ hlt)
  have hany : (s.roomRecords r).any (fun id => !(s.index id).sent) = false := List.any_eq_false.mpr (by simpa using h)
  have hfilled := emptyRoomList_filled hs r
  simp only [opResetCensus, hok, if_true, readRoomHeader_undamaged hs.clean, ← hr, hx, if_false,
    scanIndexes_undamaged hs.clean, hany, Bool.false_eq_true, readRoomRecord_undamaged hs.clean]
  generalize emptyRoomList (s.roomRecords r) s = u at hfilled ⊢
  have hroom : (s.room r).view = (u.room r).view := by rw [State.room, State.room, hfilled.rooms]
  rw [hroom, resetRoomBody, readRoomRecord_undamaged hfilled.change.whole.clean]
  cases (u.room r).view <;> rfl

end

/-- A room's list has been emptied, and its census with it. -/
structure CensusReset (r : Nat) (s t : State) : Prop where
  change : PoolChange false s t
  record : ∀ id, t.record id = (if (s.index id).inUse = true ∧ (s.index id).room = r then .free else s.record id)
  faulted : (s.room r).header.value = .faulted → t.rooms = s.rooms
  body : ∀ closed b, (s.room r).view = .readable closed b → (t.room r).body.value = { b with escorts := 0, suspect := false }
  others : ∀ q, q ≠ r → t.room q = s.room q

theorem resetRoomBody_census {s : State} (hs : Whole s) (r : Nat) :
    CensusReset r s (resetRoomBody r (emptyRoomList (s.roomRecords r) s)) := by
  have hfilled := emptyRoomList_filled hs r
  generalize emptyRoomList (s.roomRecords r) s = u at hfilled
  have hwhole := hfilled.change.whole
  have hroom : ∀ q, u.room q = s.room q := fun q => by rw [State.room, hfilled.rooms]; rfl
  have hemptied := resetRoomBody_emptied hwhole r
  refine ⟨hfilled.change.trans hs (resetRoomBody_change hwhole r), fun id => ?_, fun hx => ?_, fun closed b hv => ?_,
    fun q hq => (hemptied.others q hq).trans (hroom q)⟩
  · have hrecord : (resetRoomBody r u).record id = u.record id := by rw [State.record, hemptied.presence]; rfl
    rw [hrecord, hfilled.freed]
    simp only [mem_roomRecords]
  · rw [resetRoomBody_of_unreadable hwhole (by rw [hroom, (Room.view_faulted_iff _).mpr hx]; rfl)]
    exact hfilled.rooms
  · exact hemptied.body closed b (by rw [hroom]; exact hv)

/-- Nobody stands in the room any more. -/
theorem CensusReset.occupancy {r : Nat} {s t : State} (h : CensusReset r s t) : t.occupancy r = 0 := by
  refine List.length_eq_zero_iff.mpr (List.eq_nil_iff_forall_not_mem.mpr fun id hid => ?_)
  obtain ⟨hin, hroom⟩ := mem_roomRecords.mp hid
  rw [State.index, h.record] at hin hroom
  split at hin
  · rw [free_index] at hin
    cases hin
  · rename_i hno
    rw [if_neg hno] at hroom
    exact hno ⟨hin, hroom⟩

/-! ### The obligation -/

theorem removePresence_rows {s : State} {r : Nat} (ha : s.accepts = true) (hs : Whole s) (hr : r = roomArg s.window)
    (hok : removeArgumentsOk s.window = true) :
    ((s.room r).header.value = .undefined → exec .removePresence s = .next (answered 0x36 (.bare .notFound) s)) ∧
    ((s.room r).header.value = .faulted → exec .removePresence s = .next (answered 0x36 (.bare .faulted) s)) ∧
    (∀ closed b, (s.room r).view = .readable closed b →
      (namedRecord s r = none → exec .removePresence s = .next (answered 0x36 (.bare .notFound) s)) ∧
      (∀ id, namedRecord s r = some id → exec .removePresence s = .next (if (s.index id).sent then
        finish (.okWith { arg0 := put 0 1 (s.index id).role.code }) (removeRecord id (accepted 0x36 s))
        else answered 0x36 (.bare .inUse) s))) := by
  have hexec : exec .removePresence s = .next (opRemovePresence (accepted 0x36 s)) :=
    exec_roomCommand (p := (.removePresence, 0x36)) (by decide) ha
  have hs' : Whole (accepted 0x36 s) := ⟨hs.clean, hs.wf⟩
  rw [hexec]
  exact ⟨fun h => congrArg _ (opRemovePresence_of_undefined hs' hr hok h),
    fun h => congrArg _ (opRemovePresence_of_faulted hs' hr hok h),
    fun closed b hv => ⟨fun h => congrArg _ (opRemovePresence_of_none hs' hr hok hv h),
      fun id h => congrArg _ (opRemovePresence_of_named hs' hr hok hv h)⟩⟩

/-- Settles O28: a removal and the reset of a room's census, each from what its operations say of records and rooms. -/
theorem presenceIsRemovedByTheHost : Obligations.PresenceIsRemovedByTheHost := by
  unfold Obligations.PresenceIsRemovedByTheHost
  refine ⟨fun s r ha hu hw hr => ⟨fun hbad => ?_, fun hlt hplace hcred => ?_⟩, ?_⟩
  · have hexec : exec .removePresence s = .next (opRemovePresence (accepted 0x36 s)) :=
      exec_roomCommand (p := (.removePresence, 0x36)) (by decide) ha
    rw [hr] at hbad
    rw [hexec]
    exact congrArg _ (opRemovePresence_of_bad_arguments (s := accepted 0x36 s) (removeArgumentsOk_of_bad hbad))
  · have hs : Whole s := ⟨hu, hw⟩
    have hok := (removeArgumentsOk_iff s.window).mpr ⟨hr ▸ hlt, hplace, hcred⟩
    obtain ⟨hundefined, hfaulted, hreadable⟩ := removePresence_rows ha hs hr hok
    refine ⟨hundefined, hfaulted, fun closed b hv => ?_⟩
    obtain ⟨hnone, hnamed⟩ := hreadable closed b hv
    refine ⟨hnone, fun id hid hsent => ?_, fun id hid hsent => ?_⟩
    · rw [hnamed id hid, hsent]
      rfl
    · have hroom := namedRecord_room hid
      have hs' : Whole (accepted 0x36 s) := ⟨hs.clean, hs.wf⟩
      have hrem := removeRecord_removed hs' id
      have hleft := removeRecord_leftRoom (s := accepted 0x36 s) hs' ((accepts_iff s).mp ha).1 hroom hv
      refine ⟨_, (hnamed id hid).trans (congrArg _ (if_pos hsent)), rfl, ?_⟩
      generalize removeRecord id (accepted 0x36 s) = t at hrem hleft ⊢
      obtain ⟨a, hchange⟩ := hrem.change
      have hrest := hchange.rest hs'
      refine ⟨hrem.gone, fun k hk => ?_, fun k hk => hrem.fields hk, hleft.contractor, hleft.escort, hleft.accompanied,
        hleft.alone, fun q hq => hrem.room_other hs' fun hh => hq (hh.trans hroom), (congrArg State.grants hrest :),
        (congrArg State.verdicts hrest :), (congrArg State.stations hrest :), (congrArg State.pairs hrest :)⟩
      have hplace := (congrArg PresenceIndex.place (hrem.index k hk)).trans (indexWithout_place (accepted 0x36 s) id k)
      have hroom' : ((accepted 0x36 s).index id).room = r := hroom
      rw [hroom'] at hplace
      exact hplace
  · rintro s r ⟨ha, hu, hr, hlt⟩ hw hx
    have hs : Whole (accepted 0x37 s) := ⟨hu, hw⟩
    have hexec : exec .resetCensus s = .next (opResetCensus (accepted 0x37 s)) :=
      exec_roomCommand (p := (.resetCensus, 0x37)) (by decide) ha
    rw [hexec]
    refine ⟨fun h => congrArg _ (opResetCensus_of_unsent hs hr hlt hx h), fun h => ?_⟩
    have hreset := resetRoomBody_census hs r
    refine ⟨_, congrArg _ (opResetCensus_of_sent hs hr hlt hx h), rfl, ?_⟩
    generalize resetRoomBody r (emptyRoomList ((accepted 0x37 s).roomRecords r) (accepted 0x37 s)) = t at hreset ⊢
    have hframe := hreset.change.frame
    refine ⟨hreset.record, hreset.occupancy, hreset.faulted, fun hf => ?_, hreset.others, (congrArg State.grants hframe :),
      (congrArg State.verdicts hframe :), (congrArg State.stations hframe :), (congrArg State.attention hframe :)⟩
    obtain ⟨closed, hv⟩ := Room.view_of_header hx hf
    exact hreset.body closed _ hv

end Sys2Proof.Machine

namespace Sys2Proof.Machine
open Sys2Proof

/-! ## The head of the Request Queue is taken (R69, R70) -/

/-- No approval is ANSWERING where the seat may take a request. -/
theorem answering_eq_none {s : State} (h : ∀ e ∈ s.referrals, ∀ g n c, e.kind ≠ .approval g .answering n c) :
    s.answering = none := by
  refine List.find?_eq_none.mpr fun e he => ?_
  cases hk : e.approval? with
  | none => simp
  | some a =>
    have hkind := approval?_eq_some.mp hk
    simp only [decide_eq_true_eq]
    exact fun ha => h e he _ _ _ (ha ▸ hkind)

/-- A decision has the seat, and the Request Queue holds the others. -/
def State.inHand (s : State) (rest : List Request) (d : Decision) : State := { s with requests := rest, seat := some d }

/-- The decision of a request that the seat takes now. -/
def State.decisionOf (s : State) (r : Request) : Decision := Decision.ofRequest r s.clock.value.calendar.minute

section
variable {s : State} {r : Request} {rest : List Request} (h : s.headIs r rest)
  (hend : s.endedAt .requestQueue r.station = false)
include h hend

theorem takeHead_of_head : takeHead s = s.inHand rest (s.decisionOf r) := by
  obtain ⟨-, hu, hseat, hreq, hfree, hans⟩ := h
  simp only [takeHead, hseat, answering_eq_none hans, hreq, hfree, if_true, presentMinute_undamaged hu, hend]
  rfl

/-- A request, taken and carried on to its end. -/
theorem exec_takeRequest_of_head :
    exec (.takeRequest none) s = .next (runDecision decisionBound (s.inHand rest (s.decisionOf r))) := by
  have hdec : (s.inHand rest (s.decisionOf r)).decidesRequest = true := rfl
  simp only [exec, execTakeRequest, h.1, if_true, takeHead_of_head h hend, hdec, runPaused]

end

/-- A request in hand makes its next operation. -/
theorem runDecision_request {s : State} {d : Decision} {side : Side} (hs : s.seat = some d) (hw : d.work = .request side)
    (hab : d.abandoned = false) (n : Nat) : runDecision (n + 1) s = runDecision n (requestOp d side s) := by
  rw [runDecision_succ hs, decisionOp_of_request hs hw hab]

theorem closeSlots_of_none {which : PairContext → Bool} (cause : ClosureCause) {s : State} (ks : List Nat)
    (h : ∀ k ∈ ks, ∀ c, s.pair k = some c → which c = false) : closeSlots which cause ks s = (0, s) := by
  induction ks with
  | nil => rfl
  | cons k ks ih =>
    have hone : closeSlot which cause k s = (false, s) := by
      unfold closeSlot
      cases hp : s.pair k with
      | none => rfl
      | some c => simp only [h k List.mem_cons_self c hp, Bool.false_eq_true, if_false]
    simp only [closeSlots, hone, ih fun j hj => h j (List.mem_cons_of_mem _ hj)]
    rfl

theorem closeEntries_of_none {which : ReferralEntry → ApprovalView → Bool} (cause : ClosureCause) {s : State}
    (es : List ReferralEntry) (h : ∀ e ∈ es, reachedApproval which e = none) : closeEntries which cause es s = (0, s) := by
  induction es with
  | nil => rfl
  | cons e es ih =>
    have hone : closeEntry which cause e s = (false, s) := by
      simp only [closeEntry, h e List.mem_cons_self]
    simp only [closeEntries, hone, ih fun x hx => h x (List.mem_cons_of_mem _ hx)]
    rfl

/-- With nothing open at the station a request supersedes nothing (R70). -/
theorem supersede_of_nothing {s : State} {k : Nat} (h : s.nothingOpenAt k) (ha : s.answering = none) : supersede k s = s := by
  obtain ⟨hpairs, happrovals⟩ := h
  have hp := closeSlots_of_none (which := fun c => decide (c.station = k)) .newRequest (numbersFrom 1 Config.pairSlots)
    (s := s) fun slot hslot c hc => by
      obtain ⟨h1, h8⟩ := mem_numbersFrom.mp hslot
      exact decide_eq_false (hpairs slot c h1 (by simp only [Config.pairSlots] at h8; omega) hc)
  have he := closeEntries_of_none (which := fun e _ => decide (e.station = k)) .newRequest s.referrals (s := s) fun e he => by
    unfold reachedApproval
    cases hk : e.approval? with
    | none => rfl
    | some a =>
      have happ := (isApproval_iff e).mpr ⟨_, _, _, _, approval?_eq_some.mp hk⟩
      simp only [happrovals e he happ, decide_false, Bool.false_eq_true, if_false]
  simp only [supersede, closePairs, closeApprovals, hp, he, endAnswering, ha]

/-! ## The records an exit removes (R58, R80) -/

/-- Records in use have left, some or none: what that leaves of the others, of the rooms and of the latches. -/
structure Departed (s t : State) : Prop where
  whole : Whole t
  frame : t = { s with
    verdicts := t.verdicts, presence := t.presence, rooms := t.rooms, grants := t.grants, stations := t.stations,
    attention := t.attention, resetCauses := t.resetCauses, deferred := t.deferred }
  freed : ∀ k, (s.index k).inUse = true → (t.index k).inUse = false → t.record k = .free
  idle : ∀ k, (s.index k).inUse = false → t.record k = s.record k
  header : ∀ r, (t.room r).header = (s.room r).header
  suspect : ∀ r, (t.room r).body.value.suspect = (s.room r).body.value.suspect
  latches : ∀ c : Cause, c ≠ .presenceAlert → t.attention.getLsbD c.bit = s.attention.getLsbD c.bit

theorem Departed.of_same {s t u : State} (h : Departed s t) (hu : Whole u) (hf : u = { t with
    verdicts := u.verdicts, grants := u.grants, stations := u.stations }) : Departed s u := by
  have hp : u.presence = t.presence := (congrArg State.presence hf :)
  have hr : u.rooms = t.rooms := (congrArg State.rooms hf :)
  have hrecord : ∀ k, u.record k = t.record k := fun k => by rw [State.record, hp]; rfl
  have hindex : ∀ k, u.index k = t.index k := fun k => by rw [State.index, hrecord]; rfl
  have hroom : ∀ r, u.room r = t.room r := fun r => by rw [State.room, hr]; rfl
  refine ⟨hu, ?_, fun k hk => ?_, fun k hk => (hrecord k).trans (h.idle k hk), fun r => ?_, fun r => ?_, fun c hc => ?_⟩
  · have hff := hf
    rw [h.frame] at hff
    rw [hff]
  · rw [hindex, hrecord]
    exact h.freed k hk
  · rw [hroom]
    exact h.header r
  · rw [hroom]
    exact h.suspect r
  · rw [congrArg State.attention hf]
    exact h.latches c hc

theorem Departed.giveBack {s t : State} (h : Departed s t) (claims : List Claim) : Departed s (returnClaims claims t) :=
  h.of_same (h.whole.returnClaims claims) (by rw [returnClaims_eq claims h.whole.clean])

theorem Departed.refl {s : State} (h : Whole s) : Departed s s :=
  ⟨h, rfl, fun k hk hk' => (by rw [hk] at hk'; cases hk'), fun _ _ => rfl, fun _ => rfl, fun _ => rfl, fun _ _ => rfl⟩

theorem Departed.trans {s t u : State} (h : Departed s t) (k : Departed t u) : Departed s u := by
  refine ⟨k.whole, ?_, fun id hs hu => ?_, fun id hs => ?_, fun r => (k.header r).trans (h.header r),
    fun r => (k.suspect r).trans (h.suspect r), fun c hc => (k.latches c hc).trans (h.latches c hc)⟩
  · have hk := k.frame
    rw [h.frame] at hk
    exact hk
  · cases ht : (t.index id).inUse with
    | true => exact k.freed id ht hu
    | false => exact (k.idle id ht).trans (h.freed id hs ht)
  · have ht := h.idle id hs
    refine (k.idle id ?_).trans ht
    rw [State.index, ht]
    exact hs

theorem raiseIf_latches {s : State} (h : s.deferred.clean = true) (b : Bool) {c d : Cause} (hd : d ≠ c) :
    (raiseIf b c s).attention.getLsbD d.bit = s.attention.getLsbD d.bit := by
  cases b with
  | false => rfl
  | true =>
    change (raise c s).attention.getLsbD d.bit = _
    rw [raise_of_clean h]
    split_ifs
    · rfl
    · rw [BitVec.getLsbD_or, Cause.getLsbD_word, decide_eq_false hd.symm, Bool.or_false]
    · rfl
    · rfl

/-- A room keeps its census suspicion when records leave it. -/
theorem roomAfterRemovals_suspect (s : State) (gone : List Nat) (r : Nat) :
    (s.roomAfterRemovals gone r).suspect = (s.room r).body.value.suspect := by
  rcases (s.room r).view.readable_or with hv | ⟨closed, b, hv⟩
  · rw [roomAfterRemovals_of_unreadable hv]
  · rw [roomAfterRemovals_of_readable hv, Room.view_readable hv]

theorem Removed.departed {gone : List Nat} {s t : State} (hs : Whole s) (h : Removed gone s t)
    (hin : ∀ k ∈ gone, (s.index k).inUse = true) : Departed s t := by
  obtain ⟨a, ha⟩ := h.change
  have hrest := ha.rest hs
  refine ⟨h.whole, ?_, fun k hk hk' => ?_, fun k hk => ?_, h.header, fun r => ?_, fun c hc => ?_⟩
  · have hg := congrArg State.grants hrest
    have hst := congrArg State.stations hrest
    have hv := congrArg State.verdicts hrest
    rw [hg, hst, hv]
    exact hrest
  · by_cases hg : k ∈ gone
    · exact h.free k hg
    · rw [(h.inUse k).mpr ⟨hk, hg⟩] at hk'
      cases hk'
  · refine h.idle k (fun hg => ?_) hk
    rw [hin k hg] at hk
    cases hk
  · rw [h.room, roomAfterRemovals_suspect]
  · rw [congrArg State.attention ha.frame]
    exact raiseIf_latches (Undamaged.of hs.clean).deferred a hc

section
variable {s : State} (hs : Whole s)
include hs

theorem removeRecord_departed {id : Nat} (hin : (s.index id).inUse = true) : Departed s (removeRecord id s) := by
  refine Removed.departed hs ((Removed.nil hs).append hs hin (removeRecord_removed hs id)) fun k hk => ?_
  rw [List.mem_singleton.mp hk]
  exact hin

theorem undoData_departed (claims : List Claim) (ids : List Nat) : Departed s (undoData claims ids s) := by
  obtain ⟨gone, hr, hmem, -⟩ := removeUnsent_removed hs ids
  exact (hr.departed hs fun k hk => (Bool.and_eq_true_iff.mp ((hmem k).mp hk).2).1).giveBack claims

theorem removeReturning_departed {id : Nat} (hin : (s.index id).inUse = true) : Departed s (removeReturning id s) := by
  rw [removeReturning_eq hs]
  exact (removeRecord_departed hs hin).giveBack _

theorem removeEntry_departed (e : VerdictEntry) :
    Departed s (reportRemoved e.station e.sequence (undoPermitData e.permit s)) := by
  have hundone := undoPermitData_undone hs e
  have hout : Departed s (undoPermitData e.permit s) := by
    unfold undoPermitData
    cases e.permit with
    | none => exact .refl hs
    | some p => exact undoData_departed hs p.claims p.records
  exact hout.of_same (reportRemoved_undone hundone e.station e.sequence).whole rfl

end

theorem removeEntries_departed {s : State} (hs : Whole s) (which : VerdictEntry → Bool) :
    Departed s (removeEntries which s) := by
  have hstart : Whole { s with verdicts := s.verdicts.filter (fun e => !which e) } := ⟨hs.clean, hs.wf⟩
  have hfold : ∀ (es : List VerdictEntry) (u : State), Departed s u →
      Departed s (es.foldl (fun s e => reportRemoved e.station e.sequence (undoPermitData e.permit s)) u) := by
    intro es
    induction es with
    | nil => exact fun _ hu => hu
    | cons e es ih => exact fun u hu => ih _ (hu.trans (removeEntry_departed hu.whole e))
  exact hfold _ _ ((Departed.refl hs).of_same hstart rfl)

section
variable {s : State} (hs : Whole s) {id : Nat} (hin : (s.index id).inUse = true)
include hs hin

theorem exitRemove_departed : Departed s (exitRemove id s) := by
  unfold exitRemove
  split
  · exact removeRecord_departed hs hin
  · have hout := removeEntries_departed hs (fun e => e.holds (PermitData.holdsRecord id))
    dsimp only
    split
    · rename_i hstill
      exact hout.trans (removeReturning_departed hout.whole hstill)
    · exact hout

/-- The record is free, whichever way it has gone. -/
theorem exitRemove_gone : (exitRemove id s).record id = .free := by
  unfold exitRemove
  split
  · exact (removeRecord_removed hs id).gone
  · have hout := removeEntries_departed hs (fun e => e.holds (PermitData.holdsRecord id))
    dsimp only
    split
    · rw [removeReturning_eq hout.whole, State.record]
      have hrem := removeRecord_removed hout.whole id
      rw [returnClaims_eq _ hrem.whole.clean]
      exact hrem.gone
    · rename_i hgone
      exact hout.freed id hin (Bool.eq_false_iff.mpr hgone)

omit hin in
/-- An UNSENT record of a permit goes with the permit's entry, and nothing else is removed (R80). -/
theorem exitRemove_of_entry (hsent : (s.index id).sent = false)
    (hentry : ∃ e ∈ s.verdicts, ∃ p, e.permit = some p ∧ id ∈ p.records) :
    exitRemove id s = removeEntries (fun e => e.permit.any (fun p => p.records.contains id)) s := by
  have hwhich : (fun e : VerdictEntry => e.holds (PermitData.holdsRecord id)) =
      fun e => e.permit.any (fun p => p.records.contains id) := funext fun e => holds_eq e _
  have hremoved := (removeEntries_undone hs (fun e => e.permit.any (fun p => p.records.contains id))).removed
  obtain ⟨e, he, p, hp, hid⟩ := hentry
  have hmem : id ∈ recordsOf (fun e => e.permit.any (fun p => p.records.contains id)) s := by
    rw [recordsOf_eq]
    refine List.mem_flatMap.mpr ⟨e, List.mem_filter.mpr ⟨he, ?_⟩, ?_⟩
    · rw [hp]
      simpa using hid
    · rw [VerdictEntry.records, hp]
      exact hid
  have hgone := (removedUnsent_iff.mp hremoved id).not.mpr fun hh => hh.2 ⟨hmem, hsent⟩
  unfold exitRemove
  rw [if_neg (Bool.eq_false_iff.mp hsent), hwhich]
  exact if_neg hgone

end

end Sys2Proof.Machine

namespace Sys2Proof.Machine
open Sys2Proof

/-! ## Census suspicion (R62) and the stray exit (R79) -/

theorem unreadable_of_header {x y : Room} (h : x.header = y.header) : x.view.unreadable = y.view.unreadable := by
  unfold Room.view
  rw [h]
  cases y.header.value <;> rfl

/-- The rooms of a list that can be read have become census suspect. -/
structure Suspected (rs : List Nat) (s t : State) : Prop where
  whole : Whole t
  frame : t = { s with rooms := t.rooms }
  header : ∀ q, (t.room q).header = (s.room q).header
  body : ∀ q, (t.room q).body.value = if q ∈ rs ∧ (s.room q).view.unreadable = false then
    { (s.room q).body.value with suspect := true } else (s.room q).body.value

theorem Suspected.trans {a b : List Nat} {s t u : State} (h : Suspected a s t) (k : Suspected b t u) :
    Suspected (a ++ b) s u := by
  refine ⟨k.whole, ?_, fun q => (k.header q).trans (h.header q), fun q => ?_⟩
  · have hk := k.frame
    rw [h.frame] at hk
    exact hk
  · rw [k.body, h.body, unreadable_of_header (h.header q)]
    simp only [List.mem_append]
    by_cases hv : (s.room q).view.unreadable = false
    · by_cases ha : q ∈ a <;> simp [hv, ha]
    · simp [hv]

theorem Suspected.of_unreadable {s : State} (h : Whole s) {r : Nat} (hv : (s.room r).view.unreadable = true) :
    Suspected [r] s s := by
  refine ⟨h, rfl, fun _ => rfl, fun q => (if_neg ?_).symm⟩
  rintro ⟨hq, hq'⟩
  rw [List.mem_singleton.mp hq, hv] at hq'
  cases hq'

theorem setSuspect_suspected {s : State} (h : Whole s) (r : Nat) : Suspected [r] s (setSuspect r s) := by
  unfold setSuspect
  rw [readRoomRecord_undamaged h.clean]
  dsimp only
  cases hv : (s.room r).view with
  | undefined | faulted => exact .of_unreadable h (by rw [hv]; rfl)
  | readable closed b =>
    obtain ⟨hchange, -, hbody, hheader, hothers⟩ := updateRoomBody_spec h r (fun _ => { b with suspect := true })
    refine ⟨hchange.whole, rfl, fun q => ?_, fun q => ?_⟩ <;> by_cases hq : q = r
    · rw [hq]
      exact hheader
    · exact congrArg Room.header (hothers q hq)
    · rw [hq, if_pos ⟨List.mem_singleton_self r, by rw [hv]; rfl⟩, Room.view_readable hv]
      exact hbody
    · rw [if_neg fun hh => hq (List.mem_singleton.mp hh.1)]
      exact congrArg (fun x => x.body.value) (hothers q hq)

/-- A stray exit makes the station's room and the one the record stands in census suspect, and raises STRAY EXIT. -/
theorem strayExit_suspected {s : State} (h : Whole s) (ha : s.awake = true) (room : Nat) (other : Option Nat) :
    ∃ u, Suspected (room :: other.toList) s u ∧
      strayExit room other s = { u with attention := s.attention ||| Cause.strayExit.word } := by
  have hone := setSuspect_suspected h room
  have hboth : ∃ u, Suspected (room :: other.toList) s u ∧ strayExit room other s = raise .strayExit u := by
    cases other with
    | none => exact ⟨_, hone, rfl⟩
    | some r => exact ⟨_, hone.trans (setSuspect_suspected hone.whole r), rfl⟩
  obtain ⟨u, hu, heq⟩ := hboth
  have hawake : u.awake = true := (congrArg State.awake hu.frame).trans ha
  have hattention : u.attention = s.attention := (congrArg State.attention hu.frame :)
  exact ⟨u, hu, by rw [heq, raise_of_awake hawake, hattention]⟩

/-! ## The operations of an exit (R78 to R80) -/

section
variable {s : State} (d : Decision) (hu : s.undamaged = true)
include hu

theorem opExitStation_checks :
    ((s.station d.station).header.value = true → opExitStation d s = failCheck d .stationFault s) ∧
    ((s.station d.station).header.value = false → (s.station d.station).body.value.binding = none →
      opExitStation d s = failCheck d .stationUnbound s) ∧
    (∀ r, s.boundTo d.station r → opExitStation d s = goesOn { d with room := r } .exitRemoval s) := by
  simp only [opExitStation, readStationBody_undamaged hu, Station.readable]
  refine ⟨fun h => ?_, fun h hb => ?_, fun r ⟨h, hb⟩ => ?_⟩
  · simp only [h, if_true]
  · simp only [h, Bool.false_eq_true, if_false, hb]
  · simp only [h, Bool.false_eq_true, if_false, hb]
    rfl

end

/-- A record leaves its room, where the room can be read (R78, R80). -/
def recordLeaves (id : Nat) (s : State) : State :=
  if (s.room (s.index id).room).view.unreadable then s else exitRemove id s

/-- What the removal of an exit leaves: the record gone, or nothing found, and the exit stray or not (R78, R79). -/
def exitRemoved (c : Credential) (room : Nat) (s : State) : State :=
  match s.locateIn c s.inUseRecords with
  | none => strayExit room none s
  | some id =>
    if (s.index id).room = room then recordLeaves id s
    else strayExit room (some (s.index id).room) (recordLeaves id s)

theorem opExitRemoval_undamaged {s : State} (hu : s.undamaged = true) (d : Decision) :
    opExitRemoval d s = goesOn d .exitPlacement (exitRemoved d.credential d.room s) := by
  unfold opExitRemoval exitRemoved recordLeaves
  rw [locate_undamaged hu]
  cases s.locateIn d.credential s.inUseRecords with
  | none => rfl
  | some id =>
    simp only [readRoomRecord_undamaged hu]
    cases (s.room (s.index id).room).view <;> rfl

section
variable {s : State} {d : Decision} (hseat : s.seat = some d) (hw : d.work = .request .inside) (hab : d.abandoned = false)
include hseat hw hab

/-- Where nothing is open at the station, the query supersedes nothing (R70). -/
theorem run_exit_query (hp : d.phase = .stationQuery) (hopen : s.nothingOpenAt d.station) (hans : s.answering = none)
    (m : Nat) : runDecision (m + 1) s = runDecision m (goesOn d .exitStation s) := by
  rw [runDecision_request hseat hw hab, requestOp, hp]
  exact congrArg (fun x => runDecision m (goesOn d .exitStation x)) (supersede_of_nothing hopen hans)

theorem run_exit_station (hp : d.phase = .exitStation) (m : Nat) :
    runDecision (m + 1) s = runDecision m (opExitStation d s) := by
  rw [runDecision_request hseat hw hab, requestOp, hp]

/-- The removal, and EXIT placed. -/
theorem run_exit_removal (hp : d.phase = .exitRemoval) (hu : s.undamaged = true) (m : Nat) : runDecision (m + 2) s =
    { placed ⟨d.station, d.sequence, .exit, none, false, none⟩ (exitRemoved d.credential d.room s) with seat := none } := by
  rw [runDecision_request hseat hw hab, requestOp, hp]
  dsimp only
  rw [opExitRemoval_undamaged hu, runDecision_request (s := goesOn _ _ _) rfl (by exact hw) (by exact hab), requestOp]
  simp only [opExitPlacement, placeVerdict_eq_placed _ _ _ _ _ (show Verdict.exit.isInterim = false from rfl)]
  exact runDecision_idle rfl m

end

/-- The decision of an exit at its removal. -/
def State.exitDecision (s : State) (r : Request) (room : Nat) : Decision :=
  { s.decisionOf r with phase := .exitRemoval, room := room }

section
variable {s : State} {r : Request} {rest : List Request} (h : s.headIs r rest)
  (hend : s.endedAt .requestQueue r.station = false) (hside : r.side = .inside) (hopen : s.nothingOpenAt r.station)
include h hend hside hopen

/-- An exit at an open seat comes to the check of its station. -/
theorem exec_exit_station {m : Nat} (hm : decisionBound = m + 2) : exec (.takeRequest none) s = .next (runDecision m
    (opExitStation { s.decisionOf r with phase := .exitStation }
      (s.inHand rest { s.decisionOf r with phase := .exitStation }))) := by
  have hwork : (s.decisionOf r).work = .request .inside := congrArg DecisionWork.request hside
  have hquery := run_exit_query (s := s.inHand rest (s.decisionOf r)) (d := s.decisionOf r) rfl hwork rfl rfl hopen
    (answering_eq_none h.2.2.2.2.2) (m + 1)
  have hstation := run_exit_station (s := s.inHand rest { s.decisionOf r with phase := .exitStation })
    (d := { s.decisionOf r with phase := .exitStation }) rfl hwork rfl rfl m
  rw [exec_takeRequest_of_head h hend, hm]
  exact congrArg _ (hquery.trans hstation)

/-- A station that is FAULTED or unbound denies the exit (R78). -/
theorem exec_exit_denied {reason : DenyReason}
    (hcheck : opExitStation { s.decisionOf r with phase := .exitStation }
        (s.inHand rest { s.decisionOf r with phase := .exitStation }) =
      failCheck { s.decisionOf r with phase := .exitStation } reason
        (s.inHand rest { s.decisionOf r with phase := .exitStation })) :
    exec (.takeRequest none) s =
      .next (placed ⟨r.station, r.sequence, .deny, some reason, false, none⟩ { s with requests := rest }) := by
  obtain ⟨m, hm⟩ := decisionBound_split 2 (by decide)
  have hwork : (s.decisionOf r).work = .request .inside := congrArg DecisionWork.request hside
  have hseat := h.2.2.1
  rw [exec_exit_station h hend hside hopen hm, hcheck, failCheck_of_first (by exact hwork) rfl, runDecision_idle rfl]
  simp only [placed, hseat]
  rfl

/-- At a bound station the removal is made, and EXIT is placed (R78). -/
theorem exec_exit_placed {room : Nat} (hb : s.boundTo r.station room) : exec (.takeRequest none) s =
    .next { placed ⟨r.station, r.sequence, .exit, none, false, none⟩
      (exitRemoved r.credential room (s.inHand rest (s.exitDecision r room))) with seat := none } := by
  obtain ⟨m, hm⟩ := decisionBound_split 4 (by decide)
  have hwork : (s.decisionOf r).work = .request .inside := congrArg DecisionWork.request hside
  have hcheck := (opExitStation_checks (s := s.inHand rest { s.decisionOf r with phase := .exitStation })
    { s.decisionOf r with phase := .exitStation } h.2.1).2.2 room hb
  rw [exec_exit_station h hend hside hopen (m := m + 2) hm, hcheck]
  exact congrArg _ (run_exit_removal (s := s.inHand rest (s.exitDecision r room)) rfl hwork rfl rfl h.2.1 m)

end

end Sys2Proof.Machine

namespace Sys2Proof.Machine
open Sys2Proof

/-! ## What an exit leaves (R78 to R80) -/

/-- EXIT has been placed after a removal that left `y`; the rooms of a list, none where the exit is not stray, have
become census suspect. -/
structure ExitPlaced (r : Request) (rs : List Nat) (y t : State) : Prop where
  frame : t = { y with
    seat := none, verdicts := y.verdicts ++ [⟨r.station, r.sequence, .exit, none, false, none⟩], stations := t.stations,
    rooms := t.rooms, attention := if rs = [] then y.attention else y.attention ||| Cause.strayExit.word }
  answer : (t.station r.station).answer = some ⟨r.sequence, .exit, none, false, false⟩
  header : ∀ q, (t.room q).header = (y.room q).header
  body : ∀ q, (t.room q).body.value = if q ∈ rs ∧ (y.room q).view.unreadable = false then
    { (y.room q).body.value with suspect := true } else (y.room q).body.value

theorem placed_answer {s : State} (h : Whole s) (e : VerdictEntry) :
    ((placed e s).station e.station).answer = some ⟨e.sequence, e.verdict, e.reason, false, false⟩ :=
  (congrArg Station.answer (station_setStation ((tablesWf_iff s).mp h.wf).2.2.2.1 e.station e.station _)).trans
    (congrArg Station.answer (if_pos rfl))

theorem exitPlaced_home {y : State} (h : Whole y) (r : Request) :
    ExitPlaced r [] y { placed ⟨r.station, r.sequence, .exit, none, false, none⟩ y with seat := none } :=
  ⟨rfl, placed_answer h _, fun _ => rfl, fun _ => (if_neg fun hh => List.not_mem_nil hh.1).symm⟩

theorem exitPlaced_stray {y : State} (h : Whole y) (ha : y.awake = true) (r : Request) (room : Nat) (other : Option Nat) :
    ExitPlaced r (room :: other.toList) y
      { placed ⟨r.station, r.sequence, .exit, none, false, none⟩ (strayExit room other y) with seat := none } := by
  obtain ⟨u, hu, heq⟩ := strayExit_suspected h ha room other
  have hw : Whole ({ u with attention := y.attention ||| Cause.strayExit.word } : State) := ⟨hu.whole.clean, hu.whole.wf⟩
  rw [heq]
  refine ⟨?_, placed_answer hw _, hu.header, hu.body⟩
  rw [if_neg (List.cons_ne_nil _ _)]
  have hframe := hu.frame
  generalize u.rooms = rooms at hframe
  subst hframe
  rfl

section
variable {s x y t : State} {r : Request} {rs : List Nat} (hd : Departed x y) (hp : ExitPlaced r rs y t)
include hp

theorem ExitPlaced.record (k : Nat) : t.record k = y.record k :=
  congrArg (fun p => Table.get PresenceRecord.free p k) (congrArg State.presence hp.frame :)

theorem ExitPlaced.index (k : Nat) : t.index k = y.index k := congrArg (fun p => p.index.value) (hp.record k)

theorem ExitPlaced.slot (j : Nat) : t.slot j = y.slot j :=
  congrArg (fun g => Table.get Slot.cleared g j) (congrArg State.grants hp.frame :)

/-- The escort count and the rest of a room's body, its census suspicion apart, are as the removal left them. -/
theorem ExitPlaced.escorts (q : Nat) : (t.room q).body.value.escorts = (y.room q).body.value.escorts := by
  rw [hp.body]
  split <;> rfl

/-- STRAY EXIT is raised exactly where the exit is stray. -/
theorem ExitPlaced.latched_of_stray (hrs : rs ≠ []) : t.latched .strayExit = true := by
  have hattention := congrArg State.attention hp.frame
  rw [State.latched, State.latches, getLsbD_latch, hattention]
  dsimp only
  rw [if_neg hrs, getLsbD_latch]
  exact .inl (.inr (by decide))

include hd

theorem ExitPlaced.latched_of_home (hrs : rs = []) : t.latched .strayExit = x.latched .strayExit := by
  have hattention := congrArg State.attention hp.frame
  have htaken : t.attentionTaken = x.attentionTaken :=
    (congrArg State.attentionTaken hp.frame :).trans (congrArg State.attentionTaken hd.frame :)
  rw [State.latched, State.latches, State.latched, State.latches, htaken, BitVec.getLsbD_or, BitVec.getLsbD_or, hattention]
  dsimp only
  rw [if_pos hrs, hd.latches _ (by decide)]

/-- A room of the list that can be read has become census suspect (R62). -/
theorem ExitPlaced.suspectAfter {q : Nat} (hq : q ∈ rs) : x.suspectAfter q t := fun closed b hv => by
  have hread : (y.room q).view.unreadable = false := by
    rw [unreadable_of_header (hd.header q), hv]
    rfl
  rw [hp.body, if_pos ⟨hq, hread⟩]

/-- Where the exit is not stray, no room's census suspicion changes. -/
theorem ExitPlaced.suspect_of_home (hrs : rs = []) (q : Nat) :
    (t.room q).body.value.suspect = (x.room q).body.value.suspect := by
  rw [hp.body, hrs, if_neg (fun hh => List.not_mem_nil hh.1), hd.suspect]

end

theorem removedUnsent_congr {ids : List Nat} {s t u : State} (h : removedUnsent ids s t) (hi : ∀ k, u.index k = t.index k) :
    removedUnsent ids s u := fun k => by rw [hi, h k]

theorem removedAlone_congr {id : Nat} {s t u : State} (h : removedAlone id s t) (hi : ∀ k, u.index k = t.index k) :
    removedAlone id s u := fun k => by rw [hi, h k]

theorem givenBack_congr {claims : List Claim} {s t u : State} (h : givenBack claims s t) (hs : ∀ j, u.slot j = t.slot j) :
    givenBack claims s u := fun j st issue g h1 h2 h3 h4 => by
  rw [hs]
  exact h j st issue g h1 h2 h3 h4

theorem recordLeaves_departed {s : State} (hs : Whole s) {id : Nat} (hin : (s.index id).inUse = true) :
    Departed s (recordLeaves id s) := by
  unfold recordLeaves
  split
  · exact .refl hs
  · exact exitRemove_departed hs hin

theorem Departed.awake {s t : State} (h : Departed s t) : t.awake = s.awake := (congrArg State.awake h.frame).trans rfl

/-- The rooms that a stray exit makes census suspect: the station's and the one the record stands in. -/
def strayRooms (room at_ : Nat) : List Nat := if at_ = room then [] else [room, at_]

section
variable {s : State} {r : Request} {rest : List Request} (h : s.headIs r rest)
  (hend : s.endedAt .requestQueue r.station = false) (hwf : s.tablesWf = true) (hside : r.side = .inside)
  (hopen : s.nothingOpenAt r.station) {room : Nat} (hb : s.boundTo r.station room)
include h hend hwf hside hopen hb

theorem exit_of_none (hfound : s.locateIn r.credential s.inUseRecords = none) : ∃ t, exec (.takeRequest none) s = .next t ∧
    ExitPlaced r [room] (s.inHand rest (s.exitDecision r room)) t := by
  have hx : Whole (s.inHand rest (s.exitDecision r room)) := ⟨h.2.1, hwf⟩
  have hrem : exitRemoved r.credential room (s.inHand rest (s.exitDecision r room)) =
      strayExit room none (s.inHand rest (s.exitDecision r room)) := by
    have hfound' : (s.inHand rest (s.exitDecision r room)).locateIn r.credential
      (s.inHand rest (s.exitDecision r room)).inUseRecords = none := hfound
    simp only [exitRemoved, hfound']
  have hstray := exitPlaced_stray hx h.1 r room none
  rw [← hrem] at hstray
  exact ⟨_, exec_exit_placed h hend hside hopen hb, hstray⟩

theorem exit_of_found {id : Nat} (hfound : s.locateIn r.credential s.inUseRecords = some id) :
    ∃ t, exec (.takeRequest none) s = .next t ∧ ExitPlaced r (strayRooms room (s.index id).room)
      (recordLeaves id (s.inHand rest (s.exitDecision r room))) t := by
  have hx : Whole (s.inHand rest (s.exitDecision r room)) := ⟨h.2.1, hwf⟩
  have hleft := recordLeaves_departed hx (id := id) (locateIn_inUse hfound).1
  have hrem : exitRemoved r.credential room (s.inHand rest (s.exitDecision r room)) =
      if (s.index id).room = room then recordLeaves id (s.inHand rest (s.exitDecision r room))
      else strayExit room (some (s.index id).room) (recordLeaves id (s.inHand rest (s.exitDecision r room))) := by
    have hfound' : (s.inHand rest (s.exitDecision r room)).locateIn r.credential
      (s.inHand rest (s.exitDecision r room)).inUseRecords = some id := hfound
    simp only [exitRemoved, hfound']
    rfl
  refine ⟨_, exec_exit_placed h hend hside hopen hb, ?_⟩
  rw [hrem]
  unfold strayRooms
  split
  · exact exitPlaced_home hleft.whole r
  · exact exitPlaced_stray hleft.whole (hleft.awake.trans h.1) r room (some (s.index id).room)

end

/-! ### The record that leaves -/

theorem recordLeaves_of_unreadable {s : State} {id : Nat} (hv : (s.room (s.index id).room).view = .undefined ∨
    (s.room (s.index id).room).view = .faulted) : recordLeaves id s = s := by
  refine if_pos ?_
  rcases hv with hv | hv <;> rw [hv] <;> rfl

theorem recordLeaves_of_readable {s : State} {id : Nat} {closed : Bool} {b : RoomBody}
    (hv : (s.room (s.index id).room).view = .readable closed b) : recordLeaves id s = exitRemove id s := by
  refine if_neg ?_
  rw [hv]
  exact Bool.false_ne_true

section
variable {x t : State} {r : Request} {rs : List Nat} {id : Nat} (hx : Whole x)
include hx

/-- A SENT record leaves alone, and an ESCORT with it lowers the count of its room (R58). -/
theorem exit_of_sent {closed : Bool} {b : RoomBody} (hv : (x.room (x.index id).room).view = .readable closed b)
    (hsent : (x.index id).sent = true) (hp : ExitPlaced r rs (exitRemove id x) t) :
    ((x.index id).role = .escort → (t.room (x.index id).room).body.value.escorts = b.escorts - 1) ∧
      removedAlone id x t ∧ t.grants = x.grants ∧
      t.verdicts = x.verdicts ++ [⟨r.station, r.sequence, .exit, none, false, none⟩] := by
  have hremove : exitRemove id x = removeRecord id x := if_pos hsent
  rw [hremove] at hp
  have hrem := removeRecord_removed hx id
  obtain ⟨a, hchange⟩ := hrem.change
  have hrest := hchange.rest hx
  refine ⟨fun hrole => ?_, removedAlone_congr hrem.alone hp.index,
    (congrArg State.grants hp.frame :).trans (congrArg State.grants hrest :),
    (congrArg State.verdicts hp.frame :).trans (congrArg (· ++ _) (congrArg State.verdicts hrest :))⟩
  rw [hp.escorts, hrem.room, roomWithout_of_readable hv, if_pos ⟨rfl, hrole⟩]

/-- An UNSENT record leaves with its permit's entry, every UNSENT record of it and each use it took (R80, R90). -/
theorem exit_of_unsent (hsent : (x.index id).sent = false)
    (hentry : ∃ e ∈ x.verdicts, ∃ p, e.permit = some p ∧ id ∈ p.records) (hp : ExitPlaced r rs (exitRemove id x) t) :
    t.verdicts = x.verdicts.filter (fun e => !(e.permit.any (fun p => p.records.contains id))) ++
        [⟨r.station, r.sequence, .exit, none, false, none⟩] ∧
      removedUnsent (recordsOf (fun e => e.permit.any (fun p => p.records.contains id)) x) x t ∧
      givenBack (claimsOf (fun e => e.permit.any (fun p => p.records.contains id)) x) x t := by
  rw [exitRemove_of_entry hx hsent hentry] at hp
  have hu := removeEntries_undone hx (fun e => e.permit.any (fun p => p.records.contains id))
  obtain ⟨hremoved, hgiven⟩ := hu.given
  exact ⟨(congrArg State.verdicts hp.frame :).trans (congrArg (· ++ _) (congrArg State.verdicts hu.frame :)),
    removedUnsent_congr hremoved hp.index, givenBack_congr hgiven hp.slot⟩

end

/-! ### The obligation -/

/-- What every exit at a bound station leaves. -/
theorem ExitPlaced.shared {s y t : State} {r : Request} {rs : List Nat} {rest : List Request} {d : Decision}
    (hd : Departed (s.inHand rest d) y) (hp : ExitPlaced r rs y t) : t.seat = none ∧ t.requests = rest ∧
      (t.station r.station).answer = some ⟨r.sequence, .exit, none, false, false⟩ ∧ t.pairs = s.pairs ∧
      t.referrals = s.referrals ∧ t.mode = s.mode :=
  ⟨(congrArg State.seat hp.frame :), (congrArg State.requests hp.frame :).trans (congrArg State.requests hd.frame :),
    hp.answer, (congrArg State.pairs hp.frame :).trans (congrArg State.pairs hd.frame :),
    (congrArg State.referrals hp.frame :).trans (congrArg State.referrals hd.frame :),
    (congrArg State.mode hp.frame :).trans (congrArg State.mode hd.frame :)⟩

/-- Settles O57: the check of the station, then by what the locate finds, and where the record stands. -/
theorem exitPlacesItsVerdict : Obligations.ExitPlacesItsVerdict := by
  unfold Obligations.ExitPlacesItsVerdict
  intro s r rest h hend hwf hside hopen
  refine ⟨fun hf => ?_, fun hf hb => ?_, fun room found hb hfound => ?_⟩
  · exact exec_exit_denied h hend hside hopen ((opExitStation_checks (s := s.inHand rest _) _ h.2.1).1 hf)
  · exact exec_exit_denied h hend hside hopen ((opExitStation_checks (s := s.inHand rest _) _ h.2.1).2.1 hf hb)
  · have hx : Whole (s.inHand rest (s.exitDecision r room)) := ⟨h.2.1, hwf⟩
    cases found with
    | none =>
      obtain ⟨t, ht, hp⟩ := exit_of_none h hend hwf hside hopen hb hfound.symm
      have hd := Departed.refl hx
      obtain ⟨hseat, hrequests, hanswer, hpairs, hreferrals, hmode⟩ := hp.shared hd
      exact ⟨t, ht, hseat, hrequests, hanswer, hpairs, hreferrals, hmode,
        fun _ => ⟨(congrArg State.presence hp.frame :), (congrArg State.grants hp.frame :),
          (congrArg State.verdicts hp.frame :), (congrArg State.attention hp.frame :),
          hp.suspectAfter hd (List.mem_singleton_self room)⟩,
        fun id at_ hno => nomatch hno⟩
    | some id =>
      obtain ⟨t, ht, hp⟩ := exit_of_found h hend hwf hside hopen hb hfound.symm
      have hin := (locateIn_inUse hfound.symm).1
      have hd := recordLeaves_departed hx (id := id) hin
      obtain ⟨hseat, hrequests, hanswer, hpairs, hreferrals, hmode⟩ := hp.shared hd
      refine ⟨t, ht, hseat, hrequests, hanswer, hpairs, hreferrals, hmode, fun hno => (nomatch hno), ?_⟩
      rintro id' at_ hid rfl
      obtain rfl := Option.some.inj hid
      refine ⟨fun hhome => (hp.latched_of_home hd (if_pos hhome) :), fun haway => ?_, fun hv => ?_, fun closed b hv => ?_⟩
      · have hrooms : strayRooms room (s.index id).room = [room, (s.index id).room] := if_neg haway
        rw [hrooms] at hp
        exact ⟨hp.latched_of_stray (List.cons_ne_nil _ _), hp.suspectAfter hd List.mem_cons_self,
          hp.suspectAfter hd (List.mem_cons_of_mem _ (List.mem_singleton_self _))⟩
      · rw [recordLeaves_of_unreadable (s := s.inHand rest (s.exitDecision r room)) hv] at hp
        exact ⟨(congrArg State.presence hp.frame :), (congrArg State.grants hp.frame :),
          (congrArg State.verdicts hp.frame :)⟩
      · refine ⟨?_, fun hhome => (hp.suspect_of_home hd (if_pos hhome) _).trans
          (congrArg RoomBody.suspect (Room.view_readable hv)), ?_⟩ <;>
          rw [recordLeaves_of_readable (s := s.inHand rest (s.exitDecision r room)) hv] at hp
        · exact (hp.record id).trans (exitRemove_gone hx hin)
        · exact ⟨fun hsent => exit_of_sent hx hv hsent hp,
            fun hsent hentry => (exit_of_unsent hx hsent hentry hp :)⟩

end Sys2Proof.Machine
